-- ==== Sys2Proof/Word.lean ====
section
/-! DEFINITION. Words of the machine, and the one sparse map that holds every large or mostly empty store of the state
(memories, contexts, cores, directory entries, barriers): a list of key and value pairs with strictly rising keys and no
entry equal to what an unlisted key reads as. -/

namespace Sys2Proof

/-- A doubleword: what general registers, addresses and system registers hold (R118). -/
abbrev Word := BitVec 64
/-- A byte of memory (R3). -/
abbrev Byte := BitVec 8

/-- A sparse map from natural numbers. `d` below is always the value an unlisted key reads as. -/
abbrev SMap (α : Type) := List (Nat × α)

/-- The value at key `i`, or `d` where none is listed. -/
def SMap.get {α : Type} (d : α) : SMap α → Nat → α
  | [], _ => d
  | (k, v) :: t, i => if i = k then v else SMap.get d t i

/-- The map without key `i`. -/
def SMap.del {α : Type} (m : SMap α) (i : Nat) : SMap α := m.filter (fun kv => kv.1 != i)

/-- The entry `(i, x)` put in its place among rising keys. -/
def SMap.ins {α : Type} (i : Nat) (x : α) : SMap α → SMap α
  | [] => [(i, x)]
  | (k, v) :: t => if i < k then (i, x) :: (k, v) :: t else (k, v) :: SMap.ins i x t

/-- The map with key `i` set to `x`; setting the default removes the entry, so that equal maps are equal lists. -/
def SMap.put {α : Type} [DecidableEq α] (d : α) (m : SMap α) (i : Nat) (x : α) : SMap α :=
  if x = d then SMap.del m i else SMap.ins i x (SMap.del m i)

/-- Every listed key is above `n`, the keys rise strictly, and no entry equals `d`. -/
def SMap.wfAbove {α : Type} [DecidableEq α] (d : α) (n : Int) : SMap α → Bool
  | [] => true
  | (k, v) :: t => decide (n < (k : Int)) && decide (v ≠ d) && SMap.wfAbove d k t

/-- The canonical form of a sparse map. -/
def SMap.wf {α : Type} [DecidableEq α] (d : α) (m : SMap α) : Bool := SMap.wfAbove d (-1) m

/-- The map without the entries whose key satisfies `p`. -/
def SMap.drop {α : Type} (p : Nat → Bool) (m : SMap α) : SMap α := m.filter (fun kv => !p kv.1)

end Sys2Proof
end

