-- ==== Sys2Proof/Word/Types.lean ====
section
/-! DEFINITION. The types of instruction operands (R52, R53) and of the data that reach the machine from outside with an
event (requests of the management host and of the fabric, sites of errors). -/

namespace Sys2Proof

/-- A general register g0–g31 (R53). -/
abbrev GReg := Fin 32
/-- A vector register v0–v31 (R53). -/
abbrev VReg := Fin 32
/-- A mask register m0–m15 (R53). -/
abbrev MReg := Fin 16
/-- A 3-bit mask field: 0 names no mask, 1–7 name m1–m7 (R53). -/
abbrev MaskSel := Fin 8
/-- A 3-bit fr field: it names format register g(24+fr) (R53). -/
abbrev FmtSel := Fin 8
/-- An accumulator a0–a7 (R53). -/
abbrev AccReg := Fin 8
/-- A panel q0–q15 (R53). -/
abbrev PanelReg := Fin 16

/-- Context identifier core·4 + ctx (R13). -/
abbrev CtxId := Fin 4096
/-- Core number die·64 + row·8 + col (R13). -/
abbrev CoreId := Fin 1024
/-- Region number 2·die + col/4 (R13). -/
abbrev RegionId := Fin 32
/-- Quad number die·16 + quad position (R13). -/
abbrev QuadId := Fin 256
/-- Die number (R8). -/
abbrev DieId := Fin 16
/-- Die-to-die boundary number (R9, R358). -/
abbrev LinkId := Fin 22

/-- Sizes of scalar floating point: the sz field (R60). -/
inductive FpSize | fp16 | bf16 | fp32 | fp64
  deriving DecidableEq, Repr

/-- Rounding modes of scalar floating point: the rm field (R60). -/
inductive ScalarRm | rne | rtz | rup | rdn
  deriving DecidableEq, Repr

/-- Scope codes of atomics, fences and TLBINV: .core 0 to .sys 5 (R100). -/
inductive Scope | core | quad | die | mod | pod | sys
  deriving DecidableEq, Repr

/-- Scope codes of gang barriers: .core 0 to .pod 4 (R69). -/
inductive BarScope | core | quad | die | mod | pod
  deriving DecidableEq, Repr

/-- Scope codes of TMCAST: 1 to 4 (R78). -/
inductive CastScope | quad | die | mod | pod
  deriving DecidableEq, Repr

/-- Combine codes of GBAR (R69). -/
inductive Comb | none | add | or | and | max | min | maxu
  deriving DecidableEq, Repr

/-- What a TSAVE or TRSTR moves: the T2 field t (R53). -/
inductive TileItem | acc (a : AccReg) | panel (q : PanelReg)
  deriving DecidableEq, Repr

/-- An engine of the module (R310). -/
inductive EngineId
  | stream (k : CoreId) | decomp (q : QuadId) | weave (q : QuadId)
  | coll (r : RegionId) | tend (r : RegionId) | lnch (r : RegionId)
  deriving DecidableEq, Repr

/-- Kinds of capability objects (R353). -/
inductive ObjKind | storage | grant | channel | timer | doorbell
  deriving DecidableEq, Repr

/-- The agent that hosts an object, as the incarnation table names agents (R359). -/
inductive Agent | region (r : RegionId) | module | host (ep : BitVec 18)
  deriving DecidableEq, Repr

/-- An object of firmware's object table (R352): kind, island, maximum rights, hosting agent and target. `base` and `size`
bound a memory grant (fabric-space physical addresses); `core` and `chan` name the target of an endpoint channel, in this module
or, with `remote` the fabric endpoint, outside it; `conn` and `space` are a storage object's connection and namespace with its
`block` size; `bell` is the word of its host that a doorbell writes. -/
structure ObjectRec where
  kind   : ObjKind
  island : Nat
  rights : BitVec 5
  agent  : Agent
  base   : Nat
  size   : Nat
  core   : CoreId
  chan   : Fin 16
  inModule : Bool
  block  : Nat
  remote : BitVec 18 := 0
  conn   : Nat := 0
  space  : Nat := 0
  bell   : Nat := 0
  deriving DecidableEq, Repr

/-- What a management request says of one region it assigns (R357): its boot vector, the base of its region table area, and the
kernel image that firmware places in its stack (R253), as physical addresses and bytes. -/
structure AssignRec where
  region : RegionId
  boot   : Word
  rta    : Nat
  image  : List (Nat × Byte)
  deriving DecidableEq, Repr

/-- The read-modify-write operations (R278), as an instruction or as an atomic request of the fabric (R401). -/
inductive Amo | swap | add | and | or | xor | min | max | minu | maxu | cas (expected : Word)
  deriving DecidableEq, Repr

/-- What every message on the fabric carries (R375): its sending agent with that agent's incarnation, and the incarnation of its
target as the sender holds it. -/
structure FabricHead where
  sender    : Agent
  senderInc : BitVec 16
  targetInc : BitVec 16
  deriving DecidableEq, Repr

/-- A message on the fabric: its head and what it asks or brings. -/
structure FabricMsg (α : Type) where
  head : FabricHead
  body : α
  deriving DecidableEq, Repr

/-- An inbound request of the fabric at a region's gate (R401, R402). A message carries the mode of its sender (R336). -/
inductive FabricReq
  | read (obj : Nat) (addr : Nat) (n : Nat)
  | write (obj : Nat) (addr : Nat) (data : List Byte)
  | atomic (obj : Nat) (addr : Nat) (op : Amo) (dw : Bool) (v : Word)
  | message (obj : Nat) (m0 m1 m2 m3 : Word) (kmode : Bool)
  deriving DecidableEq, Repr

/-- What another module's collective engine sends (R327, R354, R372). A group is named by a region that holds its entry. -/
inductive CollMsg
  /-- The contribution of a rank to instance `k` of group `g`; `fail` marks a member whose own source failed. -/
  | contrib (region g k rank : Nat) (cmd : Nat) (count : Nat) (par : Nat) (data : List Byte) (fail : Bool)
  /-- Another module's digest of the group entry differs from this module's. -/
  | digestDiffers (region g k : Nat)
  /-- A .pod barrier arrival of a rank, with its contribution. -/
  | podArrival (region g rank : Nat) (comb : Comb) (v : Word)
  /-- The withdrawal of a rank's latest .pod arrival (R370, R372). -/
  | podWithdraw (region g rank : Nat)
  /-- Another module's digest of the group of a .pod barrier differs from this module's (R372). -/
  | podDiffers (region g : Nat)
  /-- The region of another module that holds a rank of group `g` has been reset (R319). -/
  | memberReset (region g rank : Nat)
  deriving DecidableEq, Repr

/-- Where an uncorrectable error or a failed check arises (R222, R223, R267). -/
inductive ErrSite
  | hbm (pa : Nat) | spad (core : CoreId) (off : Nat)
  | panel (core : CoreId) (q : PanelReg) | acc (core : CoreId) (a : AccReg)
  /-- The scale band of a panel. -/
  | band (core : CoreId) (q : PanelReg)
  /-- The residue check of the next arithmetic that writes an accumulator fails. -/
  | residue (core : CoreId) (a : AccReg)
  deriving DecidableEq, Repr

end Sys2Proof
end

