-- ==== Sys2Proof/Syntax.lean ====
section
/-! DEFINITION. The instructions of the Agvas set as the TK1600 implements it and the indivisible steps of its other agents:
one constructor per row of spec/opcode_table.json. A constructor with an encoding acts on the context whose turn it is
(State.cur); an event constructor names the unit it concerns and carries what reaches the machine from outside. Each
docstring is the row's rule and its summary. -/

namespace Sys2Proof

/-- Instructions and events of the module (95_what_each_step_holds.md). -/
inductive Instr
  /-- R121. Writes the 64-bit sum of ga and gb to gd. -/
  | add (d a b : GReg)
  /-- R121. Writes ga minus gb, modulo 2^64, to gd. -/
  | sub (d a b : GReg)
  /-- R121. Writes the bitwise AND of ga and gb to gd. -/
  | and (d a b : GReg)
  /-- R121. Writes the bitwise OR of ga and gb to gd. -/
  | or (d a b : GReg)
  /-- R121. Writes the bitwise XOR of ga and gb to gd. -/
  | xor (d a b : GReg)
  /-- R121. Writes ga AND NOT gb to gd. -/
  | andn (d a b : GReg)
  /-- R121. Shifts ga left by gb[5:0] and writes the result to gd. -/
  | sll (d a b : GReg)
  /-- R121. Shifts ga right logically by gb[5:0] and writes the result to gd. -/
  | srl (d a b : GReg)
  /-- R121. Shifts ga right arithmetically by gb[5:0] and writes the result to gd. -/
  | sra (d a b : GReg)
  /-- R121. Rotates ga left by gb[5:0] and writes the result to gd. -/
  | rol (d a b : GReg)
  /-- R121. Rotates ga right by gb[5:0] and writes the result to gd. -/
  | ror (d a b : GReg)
  /-- R121. Writes 1 to gd when ga is less than gb signed, else 0. -/
  | slt (d a b : GReg)
  /-- R121. Writes 1 to gd when ga is less than gb unsigned, else 0. -/
  | sltu (d a b : GReg)
  /-- R121. Writes the signed smaller of ga and gb to gd. -/
  | min (d a b : GReg)
  /-- R121. Writes the signed larger of ga and gb to gd. -/
  | max (d a b : GReg)
  /-- R121. Writes the unsigned smaller of ga and gb to gd. -/
  | minu (d a b : GReg)
  /-- R121. Writes the unsigned larger of ga and gb to gd. -/
  | maxu (d a b : GReg)
  /-- R121. Writes the low 64 bits of the product of ga and gb to gd. -/
  | mul (d a b : GReg)
  /-- R121. Writes the high 64 bits of the signed 128-bit product to gd. -/
  | mulh (d a b : GReg)
  /-- R121. Writes the high 64 bits of the unsigned 128-bit product to gd. -/
  | mulhu (d a b : GReg)
  /-- R122. Writes the signed quotient of ga by gb, rounded toward zero, to gd; division by zero gives -1. -/
  | div (d a b : GReg)
  /-- R122. Writes the unsigned quotient of ga by gb to gd; division by zero gives all ones. -/
  | divu (d a b : GReg)
  /-- R122. Writes the signed remainder of ga by gb to gd; division by zero gives ga. -/
  | rem (d a b : GReg)
  /-- R122. Writes the unsigned remainder of ga by gb to gd; division by zero gives ga. -/
  | remu (d a b : GReg)
  /-- R121. Writes the number of leading zero bits of ga to gd. -/
  | clz (d a : GReg)
  /-- R121. Writes the number of trailing zero bits of ga to gd. -/
  | ctz (d a : GReg)
  /-- R121. Writes the number of set bits of ga to gd. -/
  | popc (d a : GReg)
  /-- R121. Writes ga to gd when gb is zero; otherwise leaves gd unchanged. -/
  | movz (d a b : GReg)
  /-- R121. Writes ga to gd when gb is non-zero; otherwise leaves gd unchanged. -/
  | movn (d a b : GReg)
  /-- R121. Writes the sign-extended 32-bit sum of the low words of ga and gb to gd. -/
  | addw (d a b : GReg)
  /-- R121. Writes the sign-extended 32-bit difference of the low words of ga and gb to gd. -/
  | subw (d a b : GReg)
  /-- R121. Writes ga with its byte order reversed to gd. -/
  | bswap (d a : GReg)
  /-- R123. Writes ga plus the sign-extended immediate to gd. -/
  | addi (d a : GReg) (imm : BitVec 16)
  /-- R123. Writes ga AND the zero-extended immediate to gd. -/
  | andi (d a : GReg) (imm : BitVec 16)
  /-- R123. Writes ga OR the zero-extended immediate to gd. -/
  | ori (d a : GReg) (imm : BitVec 16)
  /-- R123. Writes ga XOR the zero-extended immediate to gd. -/
  | xori (d a : GReg) (imm : BitVec 16)
  /-- R123. Writes 1 to gd when ga is less than the sign-extended immediate, signed. -/
  | slti (d a : GReg) (imm : BitVec 16)
  /-- R123. Writes 1 to gd when ga is less than the sign-extended immediate, unsigned. -/
  | sltiu (d a : GReg) (imm : BitVec 16)
  /-- R123. Shifts ga left by the 6-bit immediate into gd. -/
  | slli (d a : GReg) (sh : BitVec 6)
  /-- R123. Shifts ga right logically by the 6-bit immediate into gd. -/
  | srli (d a : GReg) (sh : BitVec 6)
  /-- R123. Shifts ga right arithmetically by the 6-bit immediate into gd. -/
  | srai (d a : GReg) (sh : BitVec 6)
  /-- R123. Rotates ga right by the 6-bit immediate into gd. -/
  | rori (d a : GReg) (sh : BitVec 6)
  /-- R123. Writes the sign-extended immediate shifted left by 16 to gd. -/
  | lih (d : GReg) (imm : BitVec 16)
  /-- R123. Writes PC plus the sign-extended immediate shifted left by 16 to gd. -/
  | addpc (d : GReg) (imm : BitVec 16)
  /-- R123. Writes ga shifted left by 16, ORed with the zero-extended immediate, to gd. -/
  | shori (d a : GReg) (imm : BitVec 16)
  /-- R125. Writes the rounded floating-point sum of ga and gb to gd. -/
  | fadd (d a b : GReg) (sz : FpSize) (rm : ScalarRm)
  /-- R125. Writes the rounded floating-point difference of ga and gb to gd. -/
  | fsub (d a b : GReg) (sz : FpSize) (rm : ScalarRm)
  /-- R125. Writes the rounded floating-point product of ga and gb to gd. -/
  | fmul (d a b : GReg) (sz : FpSize) (rm : ScalarRm)
  /-- R125. Writes the rounded floating-point quotient of ga by gb to gd. -/
  | fdiv (d a b : GReg) (sz : FpSize) (rm : ScalarRm)
  /-- R125. Writes the rounded square root of ga to gd. -/
  | fsqrt (d a : GReg) (sz : FpSize) (rm : ScalarRm)
  /-- R126. Writes the smaller of ga and gb to gd, ignoring a single NaN. -/
  | fmin (d a b : GReg) (sz : FpSize)
  /-- R126. Writes the larger of ga and gb to gd, ignoring a single NaN. -/
  | fmax (d a b : GReg) (sz : FpSize)
  /-- R128. Writes 1 to gd when ga equals gb as floating-point values. -/
  | fceq (d a b : GReg) (sz : FpSize)
  /-- R128. Writes 1 to gd when ga is less than gb as floating-point values. -/
  | fclt (d a b : GReg) (sz : FpSize)
  /-- R128. Writes 1 to gd when ga is at most gb as floating-point values. -/
  | fcle (d a b : GReg) (sz : FpSize)
  /-- R129. Writes the one-hot class of ga to gd. -/
  | fclass (d a : GReg) (sz : FpSize)
  /-- R130. Converts the floating-point ga to INT64 in gd. -/
  | fcvti (d a : GReg) (sz : FpSize) (rm : ScalarRm)
  /-- R130. Converts the INT64 ga to floating point in gd. -/
  | fcvtf (d a : GReg) (sz : FpSize) (rm : ScalarRm)
  /-- R130. Converts ga from one floating-point size to another in gd. -/
  | fcvtff (d a : GReg) (src sz : FpSize) (rm : ScalarRm)
  /-- R127. Writes ga with its sign inverted to gd. -/
  | fneg (d a : GReg) (sz : FpSize)
  /-- R127. Writes ga with its sign cleared to gd. -/
  | fabs (d a : GReg) (sz : FpSize)
  /-- R131. Writes ga times gb plus gc, with optional negations and one rounding, to gd. -/
  | fma (d a b c : GReg) (sz : FpSize) (rm : ScalarRm) (np na : Bool)
  /-- R137. Loads a sign-extended byte into gd. -/
  | lb (d a : GReg) (imm : BitVec 16)
  /-- R137. Loads a sign-extended halfword into gd. -/
  | lh (d a : GReg) (imm : BitVec 16)
  /-- R137. Loads a sign-extended word into gd. -/
  | lw (d a : GReg) (imm : BitVec 16)
  /-- R137. Loads a doubleword into gd. -/
  | ld (d a : GReg) (imm : BitVec 16)
  /-- R137. Loads a zero-extended byte into gd. -/
  | lbu (d a : GReg) (imm : BitVec 16)
  /-- R137. Loads a zero-extended halfword into gd. -/
  | lhu (d a : GReg) (imm : BitVec 16)
  /-- R137. Loads a zero-extended word into gd. -/
  | lwu (d a : GReg) (imm : BitVec 16)
  /-- R137. Stores the low byte of gc through the store buffer. -/
  | sb (c a : GReg) (imm : BitVec 16)
  /-- R137. Stores the low halfword of gc through the store buffer. -/
  | sh (c a : GReg) (imm : BitVec 16)
  /-- R137. Stores the low word of gc through the store buffer. -/
  | sw (c a : GReg) (imm : BitVec 16)
  /-- R137. Stores gc as a doubleword through the store buffer. -/
  | sd (c a : GReg) (imm : BitVec 16)
  /-- R279. Loads a word or doubleword into gd and sets the context's reservation at the home slice. -/
  | lr (d a : GReg) (dw acq : Bool) (sc : Scope)
  /-- R279. Stores gb when the context holds a valid reservation and writes 0 or 1 status to gd. -/
  | sc (d a b : GReg) (dw rel : Bool) (sc : Scope)
  /-- R278. Atomically swaps gb into memory and returns the old value in gd. -/
  | amoswap (d a b : GReg) (dw acq rel : Bool) (sc : Scope)
  /-- R278. Atomically adds gb to memory and returns the old value in gd. -/
  | amoadd (d a b : GReg) (dw acq rel : Bool) (sc : Scope)
  /-- R278. Atomically ANDs gb into memory and returns the old value in gd. -/
  | amoand (d a b : GReg) (dw acq rel : Bool) (sc : Scope)
  /-- R278. Atomically ORs gb into memory and returns the old value in gd. -/
  | amoor (d a b : GReg) (dw acq rel : Bool) (sc : Scope)
  /-- R278. Atomically XORs gb into memory and returns the old value in gd. -/
  | amoxor (d a b : GReg) (dw acq rel : Bool) (sc : Scope)
  /-- R278. Atomically stores the signed smaller of memory and gb and returns the old value. -/
  | amomin (d a b : GReg) (dw acq rel : Bool) (sc : Scope)
  /-- R278. Atomically stores the signed larger of memory and gb and returns the old value. -/
  | amomax (d a b : GReg) (dw acq rel : Bool) (sc : Scope)
  /-- R278. Atomically stores the unsigned smaller of memory and gb and returns the old value. -/
  | amominu (d a b : GReg) (dw acq rel : Bool) (sc : Scope)
  /-- R278. Atomically stores the unsigned larger of memory and gb and returns the old value. -/
  | amomaxu (d a b : GReg) (dw acq rel : Bool) (sc : Scope)
  /-- R278. Atomically stores gb when memory equals gd and returns the old value in gd. -/
  | amocas (d a b : GReg) (dw acq rel : Bool) (sc : Scope)
  /-- R290. Loads a word or doubleword into gd as an acquire at its scope. -/
  | ldacq (d a : GReg) (dw : Bool) (sc : Scope)
  /-- R291. Stores gb as a release at its scope after draining the store buffer. -/
  | strel (a b : GReg) (dw : Bool) (sc : Scope)
  /-- R294. Waits until the named prior accesses and engine commands are performed toward the scope, optionally emptying the instruction cache. -/
  | fence (ifetch eng : Bool) (sc : Scope) (pl ps ll ls : Bool)
  /-- R280. Removes every cached copy of the span and discards its dirty data. -/
  | cinv (a b : GReg)
  /-- R280. Writes the span's dirty data to HBM and removes every copy. -/
  | cflush (a b : GReg)
  /-- R280. Writes the span's dirty data to HBM and keeps the copies clean. -/
  | cclean (a b : GReg)
  /-- R280. Stores zeros to the 16-byte-aligned span without reading memory. -/
  | czero (a b : GReg)
  /-- R280. Hints the L1 data cache to obtain the span shared. -/
  | cpfr (a b : GReg)
  /-- R280. Hints the L1 data cache to obtain the span exclusive. -/
  | cpfw (a b : GReg)
  /-- R280. Removes the span's lines from the core's L1 instruction cache. -/
  | iflush (a b : GReg)
  /-- R133. Branches when gc equals ga. -/
  | beq (c a : GReg) (off : BitVec 16)
  /-- R133. Branches when gc differs from ga. -/
  | bne (c a : GReg) (off : BitVec 16)
  /-- R133. Branches when gc is less than ga, signed. -/
  | blt (c a : GReg) (off : BitVec 16)
  /-- R133. Branches when gc is at least ga, signed. -/
  | bge (c a : GReg) (off : BitVec 16)
  /-- R133. Branches when gc is less than ga, unsigned. -/
  | bltu (c a : GReg) (off : BitVec 16)
  /-- R133. Branches when gc is at least ga, unsigned. -/
  | bgeu (c a : GReg) (off : BitVec 16)
  /-- R134. Jumps PC-relative. -/
  | j (off : BitVec 26)
  /-- R134. Jumps PC-relative and links the return address in g1. -/
  | jal (off : BitVec 26)
  /-- R134. Jumps to ga plus the immediate with bits [1:0] cleared and links in gd. -/
  | jalr (d a : GReg) (imm : BitVec 16)
  /-- R249. Raises cause 0x0E with TVAL holding the code. -/
  | trap (code : BitVec 5)
  /-- R249. Raises the breakpoint cause 0x0D. -/
  | brk
  /-- R248. Returns to EPC, restoring MODE and IE from PMODE and PIE. -/
  | eret
  /-- R251. Parks the context until an interrupt or tile error is pending, or makes it FREE in K mode with no gang and zero counters. -/
  | wfi
  /-- R96. Makes the context YIELDED for the next selection cycle. -/
  | yield
  /-- R252. Waits for earlier stores, then removes matching TLB entries in every core and engine of the scope. -/
  | tlbinv (a b : GReg) (sc : Scope)
  /-- R252. Waits until earlier TLBINVs have removed their entries and every pin on a matching page is released. -/
  | tlbsync
  /-- R245. Reads a system register into gd, waiting where the register's entry requires. -/
  | mfs (d : GReg) (num : BitVec 12)
  /-- R245. Writes ga into the RW and W1C fields of a system register that has no row of its own. -/
  | mts (a : GReg) (num : BitVec 12)
  /-- R240. Writes STATUS for the next instruction; writing 1 to an IPEND bit withdraws that interrupt. -/
  | mtsStatus (a : GReg)
  /-- R145. In K mode stores min(ga, VLMAX) in VL after earlier vector instructions complete. -/
  | mtsVl (a : GReg)
  /-- R147. In K mode writes VTYPE and clamps VL to the new VLMAX. -/
  | mtsVtype (a : GReg)
  /-- R147. In K mode stores a LOG2LEN of 7-14, clamping VL and zeroing VSTART, or ignores any other value. -/
  | mtsVcap (a : GReg)
  /-- R367. In K mode re-registers the gang member at this context, moving barrier EXP counts and delivering its held decrements. -/
  | mtsMember (a : GReg)
  /-- R218. In K mode waits for the tile queue to empty, then writes OWNER and OWNED and clears ERRPEND on a written 1. -/
  | mtsTctl (a : GReg)
  /-- R221. In K mode waits for the tile queue to empty, then writes the accumulator flags and POISON bits. -/
  | mtsTstat (a : GReg)
  /-- R362. In K mode writes counter C, waking a CWAIT it satisfies. -/
  | mtsCntc (a : GReg)
  /-- R243. Writes the yield deadline and pending bit; setting PEND starts the deadline and clearing it cancels the request. -/
  | mtsYctl (a : GReg)
  /-- R261. Changes the scratchpad split of the slice: holds window accesses, cleans, zeroes changed bytes and releases the held accesses. -/
  | mtsSpcfg (a : GReg)
  /-- R368. Arrives at a gang barrier with an optional combined contribution and parks until the phase completes, receiving RES. -/
  | gbar (d a : GReg) (id : Fin 32) (sc : BarScope) (comb : Comb)
  /-- R368. Arrives at a gang barrier without waiting and returns the phase token. -/
  | garrive (d : GReg) (id : Fin 32) (sc : BarScope)
  /-- R368. Parks until the phase named by the token has completed. -/
  | gwait (a : GReg) (id : Fin 32) (sc : BarScope)
  /-- R335. Parks until the channel holds a message. -/
  | chwait (ch : Fin 16)
  /-- R335. Takes the oldest message of the channel into four registers, parking while it is empty. -/
  | chrecv (dq : Fin 8) (ch : Fin 16)
  /-- R334. Posts four registers as a message to a channel of a core in the island, waiting for acceptance. -/
  | chpost (aq : Fin 8) (b : GReg)
  /-- R374. Adds a byte count to a byte-count counter and sets POSTED. -/
  | bcpost (a : GReg) (id : Fin 16)
  /-- R374. Parks until the byte-count counter is complete, trapping 0x11 on OVER. -/
  | bcwait (id : Fin 16)
  /-- R374. Reads a byte-count counter's value, POSTED and OVER into gd. -/
  | bcread (d : GReg) (id : Fin 16)
  /-- R374. Clears a byte-count counter's value, POSTED and OVER. -/
  | bcclr (id : Fin 16)
  /-- R312. Enqueues a STRM.COPY command block at the core's stream engine and returns the ticket or FULL or INVALID. -/
  | sendStrmCopy (d a : GReg)
  /-- R312. Enqueues a STRM.GATHER command at the core's stream engine. -/
  | sendStrmGather (d a : GReg)
  /-- R312. Enqueues a STRM.SCATTER command at the core's stream engine. -/
  | sendStrmScatter (d a : GReg)
  /-- R312. Enqueues a STRM.FILL command at the core's stream engine. -/
  | sendStrmFill (d a : GReg)
  /-- R312. Enqueues a STRM.UNZ command at the core's stream engine. -/
  | sendStrmUnz (d a : GReg)
  /-- R312. Enqueues a STRM.PLANE command at the core's stream engine. -/
  | sendStrmPlane (d a : GReg)
  /-- R312. Enqueues a WEAVE.LOAD command at the quad's weave engine. -/
  | sendWeaveLoad (d a : GReg)
  /-- R312. Enqueues a WEAVE.RUN command at the quad's weave engine. -/
  | sendWeaveRun (d a : GReg)
  /-- R312. Enqueues a COLL.BMAX command on group gb at the region's collective engine. -/
  | sendCollBmax (d a b : GReg)
  /-- R312. Enqueues a COLL.ISUM command on group gb at the region's collective engine. -/
  | sendCollIsum (d a b : GReg)
  /-- R312. Enqueues a COLL.FSUM command on group gb at the region's collective engine. -/
  | sendCollFsum (d a b : GReg)
  /-- R312. Enqueues a COLL.BCAST command on group gb at the region's collective engine. -/
  | sendCollBcast (d a b : GReg)
  /-- R312. Enqueues a COLL.OR command on group gb at the region's collective engine. -/
  | sendCollOr (d a b : GReg)
  /-- R329. Checks capability handle gb and enqueues a tender call, raising 0x0F on a failed check. -/
  | sendTendCall (d a b : GReg)
  /-- R312. Enqueues a gang launch command at the region's launch engine. -/
  | sendLnchGang (d a : GReg)
  /-- R365. Parks until every named outstanding-operation counter is at or below its bound. -/
  | cwait (bL bS bC bT : Fin 16)
  /-- R154. Sets VTYPE and VL to min(ga, VLMAX), writes VL to gd, and traps for a pending yield when marked. -/
  | setvl (d a : GReg) (es grp : Fin 4) (dead : BitVec 8) (y : Bool)
  /-- R154. As SETVL, first advancing STRIPBASE by the previous VL. -/
  | setvlA (d a : GReg) (es grp : Fin 4) (dead : BitVec 8) (y : Bool)
  /-- R154. Sets VTYPE and VL to VLMAX and writes VL to gd. -/
  | setvlmax (d : GReg) (es grp : Fin 4) (dead : BitVec 8) (y : Bool)
  /-- R154. As SETVLMAX, first advancing STRIPBASE by the previous VL. -/
  | setvlmaxA (d : GReg) (es grp : Fin 4) (dead : BitVec 8) (y : Bool)
  /-- R155. Adds vector elements modulo 2^es. -/
  | vadd (d a b : VReg) (mk : MaskSel)
  /-- R155. Subtracts vector elements modulo 2^es. -/
  | vsub (d a b : VReg) (mk : MaskSel)
  /-- R155. Writes the low es bits of element products. -/
  | vmul (d a b : VReg) (mk : MaskSel)
  /-- R155. Writes the high half of signed element products. -/
  | vmulh (d a b : VReg) (mk : MaskSel)
  /-- R155. Writes the high half of unsigned element products. -/
  | vmulhu (d a b : VReg) (mk : MaskSel)
  /-- R155. Writes the signed smaller element. -/
  | vmin (d a b : VReg) (mk : MaskSel)
  /-- R155. Writes the signed larger element. -/
  | vmax (d a b : VReg) (mk : MaskSel)
  /-- R155. Writes the unsigned smaller element. -/
  | vminu (d a b : VReg) (mk : MaskSel)
  /-- R155. Writes the unsigned larger element. -/
  | vmaxu (d a b : VReg) (mk : MaskSel)
  /-- R155. Writes the bitwise AND of elements. -/
  | vand (d a b : VReg) (mk : MaskSel)
  /-- R155. Writes the bitwise OR of elements. -/
  | vor (d a b : VReg) (mk : MaskSel)
  /-- R155. Writes the bitwise XOR of elements. -/
  | vxor (d a b : VReg) (mk : MaskSel)
  /-- R155. Shifts elements left by vb mod es. -/
  | vshl (d a b : VReg) (mk : MaskSel)
  /-- R155. Shifts elements right logically by vb mod es. -/
  | vshr (d a b : VReg) (mk : MaskSel)
  /-- R155. Shifts elements right arithmetically by vb mod es. -/
  | vsra (d a b : VReg) (mk : MaskSel)
  /-- R155. Adds signed elements with saturation, setting SAT when clamped. -/
  | vadds (d a b : VReg) (mk : MaskSel)
  /-- R155. Adds unsigned elements with saturation. -/
  | vaddsu (d a b : VReg) (mk : MaskSel)
  /-- R155. Subtracts signed elements with saturation. -/
  | vsubs (d a b : VReg) (mk : MaskSel)
  /-- R155. Subtracts unsigned elements with saturation at 0. -/
  | vsubsu (d a b : VReg) (mk : MaskSel)
  /-- R155. Writes the rounded-up signed average of elements. -/
  | vavg (d a b : VReg) (mk : MaskSel)
  /-- R155. Writes the absolute difference of signed elements. -/
  | vabsd (d a b : VReg) (mk : MaskSel)
  /-- R156. Narrows integer elements from FA to FD with wrap or saturation. -/
  | vnarrow (d a : VReg) (mk : MaskSel) (fr : FmtSel)
  /-- R155. Adds the scalar gb to each element. -/
  | vaddVx (d a : VReg) (b : GReg) (mk : MaskSel)
  /-- R155. Subtracts the scalar gb from each element. -/
  | vsubVx (d a : VReg) (b : GReg) (mk : MaskSel)
  /-- R155. Multiplies each element by gb, low half. -/
  | vmulVx (d a : VReg) (b : GReg) (mk : MaskSel)
  /-- R155. Multiplies each element by gb, signed high half. -/
  | vmulhVx (d a : VReg) (b : GReg) (mk : MaskSel)
  /-- R155. Multiplies each element by gb, unsigned high half. -/
  | vmulhuVx (d a : VReg) (b : GReg) (mk : MaskSel)
  /-- R155. Signed smaller of each element and gb. -/
  | vminVx (d a : VReg) (b : GReg) (mk : MaskSel)
  /-- R155. Signed larger of each element and gb. -/
  | vmaxVx (d a : VReg) (b : GReg) (mk : MaskSel)
  /-- R155. Unsigned smaller of each element and gb. -/
  | vminuVx (d a : VReg) (b : GReg) (mk : MaskSel)
  /-- R155. Unsigned larger of each element and gb. -/
  | vmaxuVx (d a : VReg) (b : GReg) (mk : MaskSel)
  /-- R155. Bitwise AND of each element with gb. -/
  | vandVx (d a : VReg) (b : GReg) (mk : MaskSel)
  /-- R155. Bitwise OR of each element with gb. -/
  | vorVx (d a : VReg) (b : GReg) (mk : MaskSel)
  /-- R155. Bitwise XOR of each element with gb. -/
  | vxorVx (d a : VReg) (b : GReg) (mk : MaskSel)
  /-- R155. Shifts every element left by gb mod es. -/
  | vshlVx (d a : VReg) (b : GReg) (mk : MaskSel)
  /-- R155. Shifts every element right logically by gb mod es. -/
  | vshrVx (d a : VReg) (b : GReg) (mk : MaskSel)
  /-- R155. Shifts every element right arithmetically by gb mod es. -/
  | vsraVx (d a : VReg) (b : GReg) (mk : MaskSel)
  /-- R155. Signed saturating add of gb to each element. -/
  | vaddsVx (d a : VReg) (b : GReg) (mk : MaskSel)
  /-- R155. Unsigned saturating add of gb to each element. -/
  | vaddsuVx (d a : VReg) (b : GReg) (mk : MaskSel)
  /-- R155. Signed saturating subtraction of gb from each element. -/
  | vsubsVx (d a : VReg) (b : GReg) (mk : MaskSel)
  /-- R155. Unsigned saturating subtraction of gb from each element. -/
  | vsubsuVx (d a : VReg) (b : GReg) (mk : MaskSel)
  /-- R155. Signed rounded average of each element and gb. -/
  | vavgVx (d a : VReg) (b : GReg) (mk : MaskSel)
  /-- R155. Absolute difference of each element and gb. -/
  | vabsdVx (d a : VReg) (b : GReg) (mk : MaskSel)
  /-- R157. Sets mask bits where elements are equal. -/
  | vceq (d : MReg) (a b : VReg) (mk : MaskSel)
  /-- R157. Sets mask bits where elements differ. -/
  | vcne (d : MReg) (a b : VReg) (mk : MaskSel)
  /-- R157. Sets mask bits where va is less than vb, signed. -/
  | vclt (d : MReg) (a b : VReg) (mk : MaskSel)
  /-- R157. Sets mask bits where va is at most vb, signed. -/
  | vcle (d : MReg) (a b : VReg) (mk : MaskSel)
  /-- R157. Sets mask bits where va is less than vb, unsigned. -/
  | vcltu (d : MReg) (a b : VReg) (mk : MaskSel)
  /-- R157. Sets mask bits where va is at most vb, unsigned. -/
  | vcleu (d : MReg) (a b : VReg) (mk : MaskSel)
  /-- R158. Selects vb or va per element by the mask. -/
  | vmerge (d a b : VReg) (mk : MaskSel)
  /-- R181. Sets mask bits where floating-point elements are equal. -/
  | vfceq (d : MReg) (a b : VReg) (mk : MaskSel) (fr : FmtSel)
  /-- R181. Sets mask bits where va is less than vb as floating point. -/
  | vfclt (d : MReg) (a b : VReg) (mk : MaskSel) (fr : FmtSel)
  /-- R181. Sets mask bits where va is at most vb as floating point. -/
  | vfcle (d : MReg) (a b : VReg) (mk : MaskSel) (fr : FmtSel)
  /-- R181. Sets mask bits where either element is a NaN. -/
  | vfcun (d : MReg) (a b : VReg) (mk : MaskSel) (fr : FmtSel)
  /-- R182. Writes the class value of each floating-point element. -/
  | vfclass (d a : VReg) (mk : MaskSel) (fr : FmtSel)
  /-- R177. Adds floating-point elements with one rounding into FD. -/
  | vfadd (d a b : VReg) (mk : MaskSel) (fr : FmtSel)
  /-- R177. Subtracts floating-point elements with one rounding. -/
  | vfsub (d a b : VReg) (mk : MaskSel) (fr : FmtSel)
  /-- R177. Multiplies floating-point elements with one rounding. -/
  | vfmul (d a b : VReg) (mk : MaskSel) (fr : FmtSel)
  /-- R177. Divides floating-point elements with one rounding. -/
  | vfdiv (d a b : VReg) (mk : MaskSel) (fr : FmtSel)
  /-- R177. Takes the square root of floating-point elements. -/
  | vfsqrt (d a : VReg) (mk : MaskSel) (fr : FmtSel)
  /-- R177. Writes the smaller floating-point element. -/
  | vfmin (d a b : VReg) (mk : MaskSel) (fr : FmtSel)
  /-- R177. Writes the larger floating-point element. -/
  | vfmax (d a b : VReg) (mk : MaskSel) (fr : FmtSel)
  /-- R179. Writes a 12-bit reciprocal estimate of each element. -/
  | vfrcp (d a : VReg) (mk : MaskSel) (fr : FmtSel)
  /-- R179. Writes a 12-bit reciprocal square-root estimate. -/
  | vfrsq (d a : VReg) (mk : MaskSel) (fr : FmtSel)
  /-- R179. Writes a 12-bit estimate of 2^x. -/
  | vfexp2 (d a : VReg) (mk : MaskSel) (fr : FmtSel)
  /-- R179. Writes a 12-bit estimate of log2 x. -/
  | vflog2 (d a : VReg) (mk : MaskSel) (fr : FmtSel)
  /-- R180. Converts elements between formats, using vb as block scales for FX4 or planar. -/
  | vfcvt (d a b : VReg) (mk : MaskSel) (fr : FmtSel)
  /-- R183. Sets mask bits for NaN or infinite elements and sets FSTAT.NF when any. -/
  | vfnf (d : MReg) (a : VReg) (mk : MaskSel) (fr : FmtSel)
  /-- R177. Clears the sign of floating-point elements. -/
  | vfabs (d a : VReg) (mk : MaskSel) (fr : FmtSel)
  /-- R177. Inverts the sign of floating-point elements. -/
  | vfneg (d a : VReg) (mk : MaskSel) (fr : FmtSel)
  /-- R177. Multiplies floating-point elements by 2 to an integer power. -/
  | vfscale (d a b : VReg) (mk : MaskSel) (fr : FmtSel)
  /-- R178. Adds the scalar gb to each floating-point element. -/
  | vfaddVx (d a : VReg) (b : GReg) (mk : MaskSel) (fr : FmtSel)
  /-- R178. Subtracts the scalar gb from each floating-point element. -/
  | vfsubVx (d a : VReg) (b : GReg) (mk : MaskSel) (fr : FmtSel)
  /-- R178. Multiplies each floating-point element by gb. -/
  | vfmulVx (d a : VReg) (b : GReg) (mk : MaskSel) (fr : FmtSel)
  /-- R178. Divides each floating-point element by gb. -/
  | vfdivVx (d a : VReg) (b : GReg) (mk : MaskSel) (fr : FmtSel)
  /-- R178. The VFPX form of VFSQRT, with b naming a g register. -/
  | vfsqrtVx (d a : VReg) (b : GReg) (mk : MaskSel) (fr : FmtSel)
  /-- R178. Smaller of each floating-point element and gb. -/
  | vfminVx (d a : VReg) (b : GReg) (mk : MaskSel) (fr : FmtSel)
  /-- R178. Larger of each floating-point element and gb. -/
  | vfmaxVx (d a : VReg) (b : GReg) (mk : MaskSel) (fr : FmtSel)
  /-- R178. Scales each floating-point element by 2 to the power gb. -/
  | vfscaleVx (d a : VReg) (b : GReg) (mk : MaskSel) (fr : FmtSel)
  /-- R184. Writes va times vb plus vc with one rounding. -/
  | vfma (d a b c : VReg) (mk : MaskSel) (fr : FmtSel)
  /-- R184. Writes minus va times vb plus vc with one rounding. -/
  | vfnma (d a b c : VReg) (mk : MaskSel) (fr : FmtSel)
  /-- R185. Writes the exact integer va times vb plus vc, wrapped or saturated. -/
  | vima (d a b c : VReg) (mk : MaskSel) (fr : FmtSel)
  /-- R191. Adds an update to planar significands at full width with one rounding. -/
  | vplstep (d a b c : VReg) (mk : MaskSel) (fr : FmtSel)
  /-- R187. Sums active elements and the initial value modulo 2^es into element 0. -/
  | vredsum (d a b : VReg) (mk : MaskSel)
  /-- R187. Reduces to the signed maximum. -/
  | vredmax (d a b : VReg) (mk : MaskSel)
  /-- R187. Reduces to the signed minimum. -/
  | vredmin (d a b : VReg) (mk : MaskSel)
  /-- R187. Reduces to the unsigned maximum. -/
  | vredmaxu (d a b : VReg) (mk : MaskSel)
  /-- R187. Reduces to the unsigned minimum. -/
  | vredminu (d a b : VReg) (mk : MaskSel)
  /-- R187. Reduces with bitwise AND. -/
  | vredand (d a b : VReg) (mk : MaskSel)
  /-- R187. Reduces with bitwise OR. -/
  | vredor (d a b : VReg) (mk : MaskSel)
  /-- R187. Reduces with bitwise XOR. -/
  | vredxor (d a b : VReg) (mk : MaskSel)
  /-- R188. Sums floating-point elements in the fixed tree, then adds the initial value. -/
  | vfredsum (d a b : VReg) (mk : MaskSel) (fr : FmtSel)
  /-- R189. Reduces floating-point elements to the maximum. -/
  | vfredmax (d a b : VReg) (mk : MaskSel) (fr : FmtSel)
  /-- R189. Reduces floating-point elements to the minimum. -/
  | vfredmin (d a b : VReg) (mk : MaskSel) (fr : FmtSel)
  /-- R159. Slides elements up by gb, filling low elements with Fill. -/
  | vslideup (d a : VReg) (b : GReg) (mk : MaskSel)
  /-- R159. Slides elements down by gb, reading Fill beyond VL. -/
  | vslidedn (d a : VReg) (b : GReg) (mk : MaskSel)
  /-- R160. Gathers elements of va through indices in vb. -/
  | vgatherv (d a b : VReg) (mk : MaskSel)
  /-- R161. Packs the selected elements of va into the low elements of vd. -/
  | vcompress (d a : VReg) (mk : MaskSel)
  /-- R161. Spreads consecutive elements of va to the selected positions of vd. -/
  | vexpand (d a : VReg) (mk : MaskSel)
  /-- R162. Writes ga to every performed element. -/
  | vbcast (d : VReg) (a : GReg) (mk : MaskSel)
  /-- R163. Extracts element gb of va into gd, or Fill beyond VL. -/
  | vext (d : GReg) (a : VReg) (b : GReg)
  /-- R163. Inserts ga into element gb of vd when below VL. -/
  | vins (d : VReg) (a b : GReg)
  /-- R162. Writes each element its index. -/
  | vid (d : VReg) (mk : MaskSel)
  /-- R162. Writes each element the count of earlier active set bits of ma. -/
  | viota (d : VReg) (a : MReg) (mk : MaskSel)
  /-- R164. Interleaves the elements of va and vb. -/
  | vzip (d a b : VReg) (mk : MaskSel)
  /-- R164. Takes the even elements of va followed by vb. -/
  | vunzip (d a b : VReg) (mk : MaskSel)
  /-- R162. Copies the elements of va. -/
  | vmov (d a : VReg) (mk : MaskSel)
  /-- R211. Widens packed P10, P12 or P14 samples to UINT16 elements. -/
  | vunpk (d a : VReg) (mk : MaskSel) (fr : FmtSel)
  /-- R165. Writes the low bits of Rand(i) to each element. -/
  | vrand (d : VReg) (mk : MaskSel) (fr : FmtSel)
  /-- R190. Writes the block scale a planar destination needs for each block of va. -/
  | vplhead (d a : VReg) (mk : MaskSel) (fr : FmtSel)
  /-- R192. Requantises planar significands onto new block scales. -/
  | vplresc (d a b : VReg) (mk : MaskSel) (fr : FmtSel)
  /-- R166. Writes the AND of two mask registers below VL. -/
  | mand (d a b : MReg)
  /-- R166. Writes the OR of two mask registers below VL. -/
  | mor (d a b : MReg)
  /-- R166. Writes the XOR of two mask registers below VL. -/
  | mxor (d a b : MReg)
  /-- R166. Writes ma AND NOT mb below VL. -/
  | mandn (d a b : MReg)
  /-- R166. Writes the complement of ma below VL. -/
  | mnot (d a : MReg)
  /-- R167. Writes the count of active set bits of ma below VL to gd. -/
  | mpopc (d : GReg) (a : MReg) (mk : MaskSel)
  /-- R167. Writes the lowest active set bit index of ma to gd, or all ones. -/
  | mfirst (d : GReg) (a : MReg) (mk : MaskSel)
  /-- R168. Sets mask bits before the first set bit of ma. -/
  | msbf (d a : MReg) (mk : MaskSel)
  /-- R168. Sets mask bits up to and including the first set bit of ma. -/
  | msif (d a : MReg) (mk : MaskSel)
  /-- R166. Sets every mask bit below VL. -/
  | mset (d : MReg)
  /-- R166. Clears every mask bit below VL. -/
  | mclr (d : MReg)
  /-- R169. Writes ga into bits [63:0] of a mask register. -/
  | mmovg (d : MReg) (a : GReg)
  /-- R169. Writes bits [63:0] of a mask register into gd. -/
  | mmovm (d : GReg) (a : MReg)
  /-- R196. Loads unit-stride elements into a register group through pin windows. -/
  | vld (d : VReg) (a : GReg) (mk : MaskSel)
  /-- R196. Loads elements at a signed stride. -/
  | vlds (d : VReg) (a b : GReg) (mk : MaskSel)
  /-- R196. Loads elements at offsets held in an index vector. -/
  | vldx (d : VReg) (a : GReg) (b : VReg) (mk : MaskSel) (iw : Fin 4)
  /-- R197. Loads interleaved segment fields into consecutive groups. -/
  | vldseg (d : VReg) (a : GReg) (mk : MaskSel) (nf : Fin 8) (mw : Fin 4)
  /-- R207. Loads unit-stride elements, truncating VL at a fault past the first active element. -/
  | vldff (d : VReg) (a : GReg) (mk : MaskSel)
  /-- R208. Loads the K leading planes of a planar tensor, truncating or rounding. -/
  | vldpl (d : VReg) (a b : GReg) (mk : MaskSel) (p kk : Fin 4) (rnd : Bool)
  /-- R210. Loads whole registers as contiguous bytes, ignoring VL and masks. -/
  | vldw (d : VReg) (a : GReg) (cnt : Fin 4)
  /-- R209. Loads each memory element into 2^f consecutive destination elements. -/
  | vlde (d : VReg) (a : GReg) (mk : MaskSel) (rep : Fin 8)
  /-- R196. Stores unit-stride elements from a register group. -/
  | vst (d : VReg) (a : GReg) (mk : MaskSel)
  /-- R196. Stores elements at a signed stride. -/
  | vsts (d : VReg) (a b : GReg) (mk : MaskSel)
  /-- R196. Stores elements at offsets held in an index vector. -/
  | vstx (d : VReg) (a : GReg) (b : VReg) (mk : MaskSel) (iw : Fin 4)
  /-- R197. Stores consecutive groups as interleaved segment fields. -/
  | vstseg (d : VReg) (a : GReg) (mk : MaskSel) (nf : Fin 8) (mw : Fin 4)
  /-- R208. Stores the K leading planes block by block, from plane K-1 up to plane 0. -/
  | vstpl (d : VReg) (a b : GReg) (mk : MaskSel) (p kk : Fin 4)
  /-- R210. Stores whole registers as contiguous bytes. -/
  | vstw (d : VReg) (a : GReg) (cnt : Fin 4)
  /-- R229. Accumulates the outer product of two panels into an accumulator under row and column masks. -/
  | tmop (ac : AccReg) (qa qb : PanelReg) (mr mc : MaskSel) (fr : FmtSel) (zero neg : Bool)
  /-- R229. Accumulates a K-masked product with compacted qa rows. -/
  | tmops (ac : AccReg) (qa qb : PanelReg) (mr mc : MaskSel) (fr : FmtSel) (zero neg : Bool)
  /-- R230. Zeroes an accumulator, optionally clearing its TSTAT field. -/
  | tzero (ac : AccReg) (clrf : Bool)
  /-- R232. Loads a panel or its scale band row by row. -/
  | tldq (q : PanelReg) (a b : GReg) (fr : FmtSel) (sb : Bool)
  /-- R232. Loads a panel or its scale band transposed. -/
  | tldqt (q : PanelReg) (a b : GReg) (fr : FmtSel) (sb : Bool)
  /-- R234. Stores an accumulator converted to FD, optionally zeroing it. -/
  | tsta (ac : AccReg) (a b : GReg) (fr : FmtSel) (zero : Bool)
  /-- R231. Moves N accumulator rows or columns into vector registers. -/
  | tslv (ac : AccReg) (v : VReg) (i : GReg) (n : Fin 4) (col : Bool)
  /-- R231. Moves vector registers into N accumulator rows or columns. -/
  | tvsl (ac : AccReg) (v : VReg) (i : GReg) (n : Fin 4) (col : Bool)
  /-- R236. Writes the image of one accumulator or panel to memory after the queue drains ahead of it. -/
  | tsave (t : TileItem) (a : GReg)
  /-- R236. Restores one accumulator or panel from its image. -/
  | trstr (t : TileItem) (a : GReg)
  /-- R233. Loads a panel as TLDQ does, combining the read with gang members in the scope. -/
  | tmcast (q : PanelReg) (a b : GReg) (fr : FmtSel) (sc : CastScope)
  /-- R250. At an instruction boundary with IE = 1, or at once for a FREE context, takes the highest pending interrupt or tile error. -/
  | interruptTake (c : CtxId) (stop : Nat)
  /-- R246. Six cycles after trap entry the context becomes READY at the trap vector. -/
  | trappingDone (c : CtxId)
  /-- R396. A context that enters its trap vector 16 times in succession without completing an instruction makes firmware reset its island. -/
  | trapLoopReset (c : CtxId)
  /-- R139. The oldest store-buffer entry is performed at its cache or scratchpad bank and leaves the buffer. -/
  | storePerform (c : CtxId)
  /-- R362. The acknowledgement of a non-die-local store arrives and lowers counter S. -/
  | storeAck (c : CtxId)
  /-- R140. The data of a missed scalar load arrives, is written to gd and the context leaves WAIT-MISS. -/
  | loadMissFill (c : CtxId)
  /-- R277. An atomic's result returns from the home and is written to gd. -/
  | atomicComplete (c : CtxId)
  /-- R97. The vector unit takes the oldest instruction of the dispatch queue and performs its elements. -/
  | vectorExecute (k : CoreId)
  /-- R201. The data of a vector load window returns and is checked for poison, completing the window. -/
  | vloadDataReturn (k : CoreId)
  /-- R105. The background zeroing of a launched member's vector and mask registers finishes. -/
  | launchVclearDone (c : CtxId)
  /-- R225. A queued tile instruction starts on its memory or arithmetic path. -/
  | tileExecute (k : CoreId)
  /-- R225. A tile instruction finishes all its effects, leaves the queue and lowers counter T. -/
  | tileComplete (k : CoreId)
  /-- R320. The stream engine copies a strided array of up to three dimensions, optionally widening packed samples. -/
  | strmCopy (k : CoreId)
  /-- R321. The stream engine gathers elements through an index array. -/
  | strmGather (k : CoreId)
  /-- R321. The stream engine scatters elements through an index array. -/
  | strmScatter (k : CoreId)
  /-- R322. The stream engine fills bytes with a repeated 8-byte pattern. -/
  | strmFill (k : CoreId)
  /-- R323. The stream engine copies the K leading planes of a planar tensor. -/
  | strmPlane (k : CoreId)
  /-- R324. The stream engine forwards an UNZ command to the quad's decompressor inbox when it has room. -/
  | strmUnzForward (k : CoreId)
  /-- R324. The decompressor decodes Zstandard frames into the output buffer. -/
  | strmUnz (q : QuadId)
  /-- R325. The weave engine reads, checks and stores a table of steps. -/
  | weaveLoad (q : QuadId)
  /-- R326. A RUN taken from the inbox joins the quad's gathering set. -/
  | weaveRun (q : QuadId)
  /-- R326. Once four RUNs have gathered, the run is judged and moves rows group by group among the scratchpads. -/
  | weaveRunStart (q : QuadId)
  /-- R326. A set still incomplete 2^20 cycles after its first RUN completes every RUN in it with TIMEOUT. -/
  | weaveGatherTimeout (q : QuadId)
  /-- R328. A member's contribution of scale bytes to a maximum over ranks. -/
  | collBmax (r : RegionId)
  /-- R328. A member's contribution of INT32 values to an exact clamped sum. -/
  | collIsum (r : RegionId)
  /-- R328. A member's contribution of FP32 values to a fixed-tree sum over ranks. -/
  | collFsum (r : RegionId)
  /-- R328. A member's contribution to a broadcast of the root's bytes. -/
  | collBcast (r : RegionId)
  /-- R328. A member's contribution of 64-bit words to a bitwise OR. -/
  | collOr (r : RegionId)
  /-- R327. When all N members have contributed, the instance runs, writes every member's dst and delivers the replies. -/
  | collInstanceStart (n : Nat)
  /-- R327. An instance still incomplete at the group's deadline completes TIMEOUT for every member that contributed. -/
  | groupDeadlineExpire (n : Nat)
  /-- R331. The tender issues NVMe Read commands to move blocks into memory. -/
  | tendStorageRead (r : RegionId)
  /-- R331. The tender issues NVMe Write commands to move memory to blocks. -/
  | tendStorageWrite (r : RegionId)
  /-- R331. An NVMe completion arrives and completes the storage call OK or STORAGE. -/
  | tendStorageComplete (r : RegionId) (n : Nat) (nvme : BitVec 16) (data : List Byte)
  /-- R330. The tender maps part of a memory grant into fabric space and returns its address. -/
  | tendMap (r : RegionId)
  /-- R330. The tender removes a mapping that map returned. -/
  | tendUnmap (r : RegionId)
  /-- R330. The tender carries a message to the tender that owns the target channel, returning OK or REFUSED. -/
  | tendPost (r : RegionId)
  /-- R330. The tender arms, re-arms or disarms a timer object for the calling context. -/
  | tendTimer (r : RegionId)
  /-- R330. The tender writes a value to a host doorbell. -/
  | tendDoorbell (r : RegionId)
  /-- R329. A call with a service code that R330 does not list completes INVALID. -/
  | tendUnlistedService (r : RegionId)
  /-- R330. An armed timer expires and sets IPEND for cause 0x40 in the arming context. -/
  | tenderTimerExpire (obj : Nat)
  /-- R104. The launch engine reads the descriptor and map, places every member, initialises contexts and sets barrier counts. -/
  | lnchGang (r : RegionId)
  /-- R299. A command completes: its writes are performed, its reply delivered and its status word written. -/
  | engineComplete (e : EngineId) (n : Nat)
  /-- R318. A reply held for a full channel is delivered when the channel has room. -/
  | heldReplyRetry (e : EngineId)
  /-- R363. A KIND-0 reply reaches its context and lowers counter C, or is held for another gang or dropped as STALE. -/
  | cReplyArrival (k : CoreId)
  /-- R373. A destination byte of a KIND-2 command subtracts one from the named byte-count counter. -/
  | bcArrival (k : CoreId)
  /-- R336. A message is written into a channel, CHPEND is set and parked contexts are woken or interrupted. -/
  | channelArrival (k : CoreId)
  /-- R334. A held CHPOST is accepted when the target channel gains room. -/
  | chpostAccept (c : CtxId)
  /-- R368. The release of a completed phase reaches a parked waiter, which receives RES. -/
  | barrierRelease (c : CtxId)
  /-- R369. A waiter's deadline expires before the phase completes and it traps 0x10, withdrawing a GBAR arrival. -/
  | barrierTimeout (c : CtxId)
  /-- R243. The yield deadline expires with PEND still set and sets IPEND for the pre-emption interrupt. -/
  | yieldDeadlineExpire (c : CtxId)
  /-- R350. A reservation's AGE reaches 4,096 cycles and its V bit is cleared. -/
  | reservationExpire (c : CtxId)
  /-- R305. The home slice stops holding back other writes to reserved sectors 128 cycles after the LR. -/
  | reservationHoldEnd (c : CtxId)
  /-- R345. A read request at the home adds a pointer or coarse bits to the line's directory entry. -/
  | dirReadMiss (c : CtxId)
  /-- R346. A write or ownership request sends invalidations to every other holder and counts them. -/
  | dirOwnershipRequest (c : CtxId)
  /-- R349. The probe answers arrive, holders are recalled, the entry is rebuilt and the request served. -/
  | probeAnswer (line : Nat)
  /-- R346. A core receives an invalidation or recall, removes the span and acknowledges, or discards it under a crossing notice. -/
  | invalidationReceive (k : CoreId) (line : Nat)
  /-- R346. An acknowledgement arrives at the home, and the request is granted when all are counted. -/
  | invalidationAck (line : Nat)
  /-- R263. An L1 line is replaced, writing back dirty sectors with an eviction notice. -/
  | cacheEviction (k : CoreId) (line : Nat)
  /-- R347. An eviction notice reaches the home, reduces the pointer and counts as an acknowledgement where it crossed an invalidation. -/
  | evictionNotice (k : CoreId) (line : Nat)
  /-- R18. A region's current exceeds its limit and it gates issue on its own cores. -/
  | regionThrottle (r : RegionId) (amps : BitVec 11)
  /-- R406. A die reaches 105 °C; firmware lowers its regions' current limits and sets HOT. -/
  | tempHot (d : DieId) (deg : BitVec 8)
  /-- R406. A die reaches 115 °C; firmware resets its regions, holds them in reset and sets TRIP. -/
  | tempTrip (d : DieId) (deg : BitVec 8)
  /-- R406. A die cools below 100 °C or 95 °C and its limits are restored or its regions released. -/
  | tempRecover (d : DieId) (deg : BitVec 8)
  /-- R389. Firmware closes, stops, writes back, bumps the incarnation, purges, clears and reopens a region. -/
  | regionReset (r : RegionId)
  /-- R388. A held region-event message is retried at a change of channel 15. -/
  | regionEventRetry (r : RegionId)
  /-- R393. A core's logic fails; firmware fences it, loses its threads and raises 0x45 in partner members. -/
  | coreFailure (k : CoreId)
  /-- R394. A slice fails; firmware resets the region and leaves it FENCED. -/
  | sliceFailure (k : CoreId)
  /-- R398. An HBM pseudo-channel fails and is fenced; its sectors read poisoned and MEMORY is raised. -/
  | pseudoChannelFailure (r : RegionId) (ch : Fin 64)
  /-- R398. A die-to-die boundary fails and is fenced; its windows are withdrawn and LINK is raised. -/
  | boundaryFailure (b : LinkId)
  /-- R398. A fabric port fails and the region's endpoint is withdrawn from the pod. -/
  | fabricPortFailure (r : RegionId)
  /-- R397. An uncorrectable error in a Fanov core's private SRAM restarts it from ROM. -/
  | fanovSramError (d : DieId)
  /-- R397. The Fanov restart ends, held events are delivered and FIRMWARE is raised module-wide. -/
  | fanovRestartDone (d : DieId)
  /-- R403. Fanov cores start from ROM, verify and load the firmware image, and regions leave reset only on success. -/
  | modulePowerOn (verified : Bool)
  /-- R383. Firmware acts on a management-host request to assign regions to an island. -/
  | mgmtAssign (rs : List AssignRec)
  /-- R386. Firmware resizes an island: holds requests, rewrites routes, resets added and removed regions and raises RESIZE. -/
  | mgmtResize (island : Nat) (rs : List AssignRec)
  /-- R384. Firmware accepts a window entry granting an island access to part of a stack. -/
  | mgmtWindowGrant (r : RegionId) (n : Fin 8) (rw : Bool) (island base size : Nat) (link : LinkId)
  /-- R385. Firmware clears a window, waits for accesses in flight and raises WINDOW in both islands. -/
  | mgmtWindowWithdraw (r : RegionId) (n : Fin 8)
  /-- R383. Firmware performs a region reset requested by the management host. -/
  | mgmtReset (r : RegionId)
  /-- R392. Firmware fences a withdrawn core whose contexts are FREE with zero counters, or refuses. -/
  | mgmtFenceCore (k : CoreId)
  /-- R404. Firmware returns a signed attestation report of the module's firmware and region map. -/
  | mgmtAttest (nonce : BitVec 512)
  /-- R405. The management host writes 1 to clear the HOT or TRIP flag of MSTATUS. -/
  | mstatusWrite (x : Word)
  /-- R402. A region's fabric gate admits an inbound request within a grant or exported channel, or drops it with an error response. -/
  | fabricInbound (r : RegionId) (req : FabricMsg FabricReq)
  /-- R55. A fetched word that is not an instruction raises cause 0x01 with TVAL holding the word. -/
  | illegalInstruction (c : CtxId)
  /-- R135. An instruction fetch that fails translation, permission or canonical form raises 0x13, or 0x09 on a poisoned fetched word. -/
  | fetchPageFault (c : CtxId)
  /-- R267. An error beyond correction arises in an HBM sector, slice or tile SRAM word, leaving it poisoned or counted. -/
  | uncorrectableError (site : ErrSite)
  /-- R359. Firmware is told that a host endpoint of the pod was reset and increments its incarnation, invalidating messages and handles tied to it. -/
  | hostEndpointReset (ep : BitVec 18)
  /-- R18. A region's current falls back below its limit and the region stops gating issue on its cores. -/
  | regionThrottleRelease (r : RegionId) (amps : BitVec 11)
  /-- R372. A collective contribution, digest or .pod barrier arrival from a member in another module arrives over the fabric at a collective engine. -/
  | fabricCollectiveArrival (m : FabricMsg CollMsg)
  /-- R352. Firmware creates, assigns or withdraws an object of the object table on request of the management host. -/
  | mgmtObjectAssign (n : BitVec 16) (o : Option ObjectRec)
  /-- R401. The pod's management fabric assigns a region's fabric port its pod number and accelerator identifier. -/
  | endpointIdAssign (r : RegionId) (ep : BitVec 18)
  deriving DecidableEq, Repr

end Sys2Proof
end

