-- ==== Sys2Proof/WellFormed.lean ====
section
/-! DEFINITION. Which instructions of Syntax.lean an encoding can name: the conditions that R60, R64, R69, R74, R77 and R78
put on the operands together (each operand's own range is in its type). -/

namespace Sys2Proof

/-- The system registers whose writes are opcode-table rows of their own, so that `.mts` never names them. -/
def mtsOwn (n : Nat) : Bool :=
  [0x000, 0x00A, 0x010, 0x011, 0x015, 0x020, 0x021, 0x032, 0x038, 0x040].contains n

/-- A well-formed instruction: a legal word stands for it, or it is an event. -/
def wellFormed : Instr → Bool
  | .fcvtff _ _ src sz _ => decide (src ≠ sz)
  | .fence ifetch eng _ pl ps ll ls => pl || ps || ll || ls || eng || ifetch
  | .mts _ num => !(mtsOwn num.toNat)
  | .gbar _ _ id sc _ => !(sc == .pod && 8 ≤ id.val)
  | .garrive _ id sc => !(sc == .pod && 8 ≤ id.val)
  | .gwait _ id sc => !(sc == .pod && 8 ≤ id.val)
  | .chrecv dq _ => decide (dq ≠ 0)
  | .vmerge _ _ _ mk => decide (mk ≠ 0)
  | .vcompress _ _ mk => decide (mk ≠ 0)
  | .vexpand _ _ mk => decide (mk ≠ 0)
  | .vldpl _ _ _ _ p kk _ => decide (kk.val ≤ p.val)
  | .vlde _ _ _ rep => decide (rep.val < 6)
  | .vstpl _ _ _ _ p kk => decide (kk.val ≤ p.val)
  | .tmops _ _ _ mr _ _ _ _ => decide (mr ≠ 0)
  | .add .. | .sub .. | .and .. | .or .. | .xor .. | .andn .. | .sll .. | .srl ..
  | .sra .. | .rol .. | .ror .. | .slt .. | .sltu .. | .min .. | .max .. | .minu ..
  | .maxu .. | .mul .. | .mulh .. | .mulhu .. | .div .. | .divu .. | .rem .. | .remu ..
  | .clz .. | .ctz .. | .popc .. | .movz .. | .movn .. | .addw .. | .subw .. | .bswap ..
  | .addi .. | .andi .. | .ori .. | .xori .. | .slti .. | .sltiu .. | .slli .. | .srli ..
  | .srai .. | .rori .. | .lih .. | .addpc .. | .shori .. | .fadd .. | .fsub .. | .fmul ..
  | .fdiv .. | .fsqrt .. | .fmin .. | .fmax .. | .fceq .. | .fclt .. | .fcle .. | .fclass ..
  | .fcvti .. | .fcvtf .. | .fneg .. | .fabs .. | .fma .. | .lb .. | .lh .. | .lw ..
  | .ld .. | .lbu .. | .lhu .. | .lwu .. | .sb .. | .sh .. | .sw .. | .sd ..
  | .lr .. | .sc .. | .amoswap .. | .amoadd .. | .amoand .. | .amoor .. | .amoxor .. | .amomin ..
  | .amomax .. | .amominu .. | .amomaxu .. | .amocas .. | .ldacq .. | .strel .. | .cinv .. | .cflush ..
  | .cclean .. | .czero .. | .cpfr .. | .cpfw .. | .iflush .. | .beq .. | .bne .. | .blt ..
  | .bge .. | .bltu .. | .bgeu .. | .j .. | .jal .. | .jalr .. | .trap .. | .brk ..
  | .eret .. | .wfi .. | .yield .. | .tlbinv .. | .tlbsync .. | .mfs .. | .mtsStatus .. | .mtsVl ..
  | .mtsVtype .. | .mtsVcap .. | .mtsMember .. | .mtsTctl .. | .mtsTstat .. | .mtsCntc .. | .mtsYctl .. | .mtsSpcfg ..
  | .chwait .. | .chpost .. | .bcpost .. | .bcwait .. | .bcread .. | .bcclr .. | .sendStrmCopy .. | .sendStrmGather ..
  | .sendStrmScatter .. | .sendStrmFill .. | .sendStrmUnz .. | .sendStrmPlane .. | .sendWeaveLoad .. | .sendWeaveRun .. | .sendCollBmax .. | .sendCollIsum ..
  | .sendCollFsum .. | .sendCollBcast .. | .sendCollOr .. | .sendTendCall .. | .sendLnchGang .. | .cwait .. | .setvl .. | .setvlA ..
  | .setvlmax .. | .setvlmaxA .. | .vadd .. | .vsub .. | .vmul .. | .vmulh .. | .vmulhu .. | .vmin ..
  | .vmax .. | .vminu .. | .vmaxu .. | .vand .. | .vor .. | .vxor .. | .vshl .. | .vshr ..
  | .vsra .. | .vadds .. | .vaddsu .. | .vsubs .. | .vsubsu .. | .vavg .. | .vabsd .. | .vnarrow ..
  | .vaddVx .. | .vsubVx .. | .vmulVx .. | .vmulhVx .. | .vmulhuVx .. | .vminVx .. | .vmaxVx .. | .vminuVx ..
  | .vmaxuVx .. | .vandVx .. | .vorVx .. | .vxorVx .. | .vshlVx .. | .vshrVx .. | .vsraVx .. | .vaddsVx ..
  | .vaddsuVx .. | .vsubsVx .. | .vsubsuVx .. | .vavgVx .. | .vabsdVx .. | .vceq .. | .vcne .. | .vclt ..
  | .vcle .. | .vcltu .. | .vcleu .. | .vfceq .. | .vfclt .. | .vfcle .. | .vfcun .. | .vfclass ..
  | .vfadd .. | .vfsub .. | .vfmul .. | .vfdiv .. | .vfsqrt .. | .vfmin .. | .vfmax .. | .vfrcp ..
  | .vfrsq .. | .vfexp2 .. | .vflog2 .. | .vfcvt .. | .vfnf .. | .vfabs .. | .vfneg .. | .vfscale ..
  | .vfaddVx .. | .vfsubVx .. | .vfmulVx .. | .vfdivVx .. | .vfsqrtVx .. | .vfminVx .. | .vfmaxVx .. | .vfscaleVx ..
  | .vfma .. | .vfnma .. | .vima .. | .vplstep .. | .vredsum .. | .vredmax .. | .vredmin .. | .vredmaxu ..
  | .vredminu .. | .vredand .. | .vredor .. | .vredxor .. | .vfredsum .. | .vfredmax .. | .vfredmin .. | .vslideup ..
  | .vslidedn .. | .vgatherv .. | .vbcast .. | .vext .. | .vins .. | .vid .. | .viota .. | .vzip ..
  | .vunzip .. | .vmov .. | .vunpk .. | .vrand .. | .vplhead .. | .vplresc .. | .mand .. | .mor ..
  | .mxor .. | .mandn .. | .mnot .. | .mpopc .. | .mfirst .. | .msbf .. | .msif .. | .mset ..
  | .mclr .. | .mmovg .. | .mmovm .. | .vld .. | .vlds .. | .vldx .. | .vldseg .. | .vldff ..
  | .vldw .. | .vst .. | .vsts .. | .vstx .. | .vstseg .. | .vstw .. | .tmop .. | .tzero ..
  | .tldq .. | .tldqt .. | .tsta .. | .tslv .. | .tvsl .. | .tsave .. | .trstr .. | .tmcast ..
  | .interruptTake .. | .trappingDone .. | .trapLoopReset .. | .storePerform .. | .storeAck .. | .loadMissFill .. | .atomicComplete .. | .vectorExecute ..
  | .vloadDataReturn .. | .launchVclearDone .. | .tileExecute .. | .tileComplete .. | .strmCopy .. | .strmGather .. | .strmScatter .. | .strmFill ..
  | .strmPlane .. | .strmUnzForward .. | .strmUnz .. | .weaveLoad .. | .weaveRun .. | .weaveRunStart .. | .weaveGatherTimeout .. | .collBmax ..
  | .collIsum .. | .collFsum .. | .collBcast .. | .collOr .. | .collInstanceStart .. | .groupDeadlineExpire .. | .tendStorageRead .. | .tendStorageWrite ..
  | .tendStorageComplete .. | .tendMap .. | .tendUnmap .. | .tendPost .. | .tendTimer .. | .tendDoorbell .. | .tendUnlistedService .. | .tenderTimerExpire ..
  | .lnchGang .. | .engineComplete .. | .heldReplyRetry .. | .cReplyArrival .. | .bcArrival .. | .channelArrival .. | .chpostAccept .. | .barrierRelease ..
  | .barrierTimeout .. | .yieldDeadlineExpire .. | .reservationExpire .. | .reservationHoldEnd .. | .dirReadMiss .. | .dirOwnershipRequest .. | .probeAnswer .. | .invalidationReceive ..
  | .invalidationAck .. | .cacheEviction .. | .evictionNotice .. | .regionThrottle .. | .tempHot .. | .tempTrip .. | .tempRecover .. | .regionReset ..
  | .regionEventRetry .. | .coreFailure .. | .sliceFailure .. | .pseudoChannelFailure .. | .boundaryFailure .. | .fabricPortFailure .. | .fanovSramError .. | .fanovRestartDone ..
  | .modulePowerOn .. | .mgmtAssign .. | .mgmtResize .. | .mgmtWindowGrant .. | .mgmtWindowWithdraw .. | .mgmtReset .. | .mgmtFenceCore .. | .mgmtAttest ..
  | .mstatusWrite .. | .fabricInbound .. | .illegalInstruction .. | .fetchPageFault .. | .uncorrectableError .. | .hostEndpointReset .. | .regionThrottleRelease .. | .fabricCollectiveArrival ..
  | .mgmtObjectAssign .. | .endpointIdAssign .. => true

end Sys2Proof
end

