-- ==== Sys2Proof/Decode.lean ====
section
/-! DEFINITION. Decoding of instruction words (R51 to R79) and their encoder. A word is handled as a number below 2^32;
`fld w lo n` is its n bits from bit lo on. Decoding is total: a word that R55 calls illegal is rejected by the name of the
reason, which the step turns into the illegal-instruction trap. The definitions that build an instruction are marked noncomputable because Lean's
compiled code holds no type of more than 245 constructors with arguments; the kernel evaluates them as any other. -/

namespace Sys2Proof

/-- Why a word is no instruction (R55); every reason raises cause 0x01, safe. -/
inductive DecodeError
  /-- The major is not an instruction major of R57. -/
  | illegalMajor
  /-- The function code is not listed for the major. -/
  | illegalFunction
  /-- A must-be-zero field is not zero, or a field holds a value marked illegal. -/
  | illegalField
  deriving DecidableEq, Repr

/-- Bits [lo+n-1 : lo] of a word (R51 numbers them). -/
def fld (w lo n : Nat) : Nat := w / 2 ^ lo % 2 ^ n
/-- A 5-bit field that names a general register or holds a barrier id. -/
def gAt (w lo : Nat) : Fin 32 := Fin.ofNat 32 (w / 2 ^ lo)
/-- A 5-bit field that names a vector register. -/
def vAt (w lo : Nat) : Fin 32 := Fin.ofNat 32 (w / 2 ^ lo)
/-- The low four bits of a field that names a mask register, a panel, a channel or a counter. -/
def m5At (w lo : Nat) : Fin 16 := Fin.ofNat 16 (w / 2 ^ lo)
/-- A 3-bit field. -/
def m3At (w lo : Nat) : Fin 8 := Fin.ofNat 8 (w / 2 ^ lo)
/-- A 1-bit field. -/
def bitAt (w lo : Nat) : Bool := fld w lo 1 == 1
/-- A bit as a number. -/
def bit (b : Bool) : Nat := if b then 1 else 0

/-- Size codes (R60). -/
def FpSize.ofCode : Nat → FpSize | 0 => .fp16 | 1 => .bf16 | 2 => .fp32 | _ => .fp64
/-- The code of a size (R60). -/
def FpSize.code : FpSize → Nat | .fp16 => 0 | .bf16 => 1 | .fp32 => 2 | .fp64 => 3
/-- Rounding codes (R60). -/
def ScalarRm.ofCode : Nat → ScalarRm | 0 => .rne | 1 => .rtz | 2 => .rup | _ => .rdn
/-- The code of a scalar rounding mode (R60). -/
def ScalarRm.code : ScalarRm → Nat | .rne => 0 | .rtz => 1 | .rup => 2 | .rdn => 3
/-- Scope codes (R100); codes 6 and 7 are rejected before this is read. -/
def Scope.ofCode : Nat → Scope | 0 => .core | 1 => .quad | 2 => .die | 3 => .mod | 4 => .pod | _ => .sys
/-- The code of a scope (R100). -/
def Scope.code : Scope → Nat | .core => 0 | .quad => 1 | .die => 2 | .mod => 3 | .pod => 4 | .sys => 5
/-- Barrier scope codes (R69). -/
def BarScope.ofCode : Nat → BarScope | 0 => .core | 1 => .quad | 2 => .die | 3 => .mod | _ => .pod
/-- The code of a barrier scope (R69). -/
def BarScope.code : BarScope → Nat | .core => 0 | .quad => 1 | .die => 2 | .mod => 3 | .pod => 4
/-- Multicast scope codes 1 to 4 (R78). -/
def CastScope.ofCode : Nat → CastScope | 1 => .quad | 2 => .die | 3 => .mod | _ => .pod
/-- The code of a multicast scope (R78). -/
def CastScope.code : CastScope → Nat | .quad => 1 | .die => 2 | .mod => 3 | .pod => 4
/-- Combine codes (R69). -/
def Comb.ofCode : Nat → Comb
  | 0 => .none | 1 => .add | 2 => .or | 3 => .and | 4 => .max | 5 => .min | _ => .maxu
/-- The code of a combine operation (R69). -/
def Comb.code : Comb → Nat
  | .none => 0 | .add => 1 | .or => 2 | .and => 3 | .max => 4 | .min => 5 | .maxu => 6
/-- The T2 field t: a0–a7 are 0–7, q0–q15 are 8–23 (R53). -/
def TileItem.ofCode (t : Nat) : TileItem :=
  if t < 8 then .acc (Fin.ofNat 8 t) else .panel (Fin.ofNat 16 (t - 8))
/-- The T2 code of a tile item (R53). -/
def TileItem.code : TileItem → Nat | .acc a => a.val | .panel q => q.val + 8

/-- The instruction, where the word's field conditions hold. -/
def legal (p : Prop) [Decidable p] (i : Instr) : Except DecodeError Instr :=
  if p then .ok i else .error .illegalField

/-- ALU, major 0x01 (R58). -/
noncomputable def decodeAlu (w : Nat) : Except DecodeError Instr :=
  match fld w 0 11 with
  | 0 => .ok (.add (gAt w 21) (gAt w 16) (gAt w 11))
  | 1 => .ok (.sub (gAt w 21) (gAt w 16) (gAt w 11))
  | 2 => .ok (.and (gAt w 21) (gAt w 16) (gAt w 11))
  | 3 => .ok (.or (gAt w 21) (gAt w 16) (gAt w 11))
  | 4 => .ok (.xor (gAt w 21) (gAt w 16) (gAt w 11))
  | 5 => .ok (.andn (gAt w 21) (gAt w 16) (gAt w 11))
  | 6 => .ok (.sll (gAt w 21) (gAt w 16) (gAt w 11))
  | 7 => .ok (.srl (gAt w 21) (gAt w 16) (gAt w 11))
  | 8 => .ok (.sra (gAt w 21) (gAt w 16) (gAt w 11))
  | 9 => .ok (.rol (gAt w 21) (gAt w 16) (gAt w 11))
  | 10 => .ok (.ror (gAt w 21) (gAt w 16) (gAt w 11))
  | 11 => .ok (.slt (gAt w 21) (gAt w 16) (gAt w 11))
  | 12 => .ok (.sltu (gAt w 21) (gAt w 16) (gAt w 11))
  | 13 => .ok (.min (gAt w 21) (gAt w 16) (gAt w 11))
  | 14 => .ok (.max (gAt w 21) (gAt w 16) (gAt w 11))
  | 15 => .ok (.minu (gAt w 21) (gAt w 16) (gAt w 11))
  | 16 => .ok (.maxu (gAt w 21) (gAt w 16) (gAt w 11))
  | 17 => .ok (.mul (gAt w 21) (gAt w 16) (gAt w 11))
  | 18 => .ok (.mulh (gAt w 21) (gAt w 16) (gAt w 11))
  | 19 => .ok (.mulhu (gAt w 21) (gAt w 16) (gAt w 11))
  | 20 => .ok (.div (gAt w 21) (gAt w 16) (gAt w 11))
  | 21 => .ok (.divu (gAt w 21) (gAt w 16) (gAt w 11))
  | 22 => .ok (.rem (gAt w 21) (gAt w 16) (gAt w 11))
  | 23 => .ok (.remu (gAt w 21) (gAt w 16) (gAt w 11))
  | 24 => legal (fld w 11 5 = 0) (.clz (gAt w 21) (gAt w 16))
  | 25 => legal (fld w 11 5 = 0) (.ctz (gAt w 21) (gAt w 16))
  | 26 => legal (fld w 11 5 = 0) (.popc (gAt w 21) (gAt w 16))
  | 27 => .ok (.movz (gAt w 21) (gAt w 16) (gAt w 11))
  | 28 => .ok (.movn (gAt w 21) (gAt w 16) (gAt w 11))
  | 29 => .ok (.addw (gAt w 21) (gAt w 16) (gAt w 11))
  | 30 => .ok (.subw (gAt w 21) (gAt w 16) (gAt w 11))
  | 31 => legal (fld w 11 5 = 0) (.bswap (gAt w 21) (gAt w 16))
  | _ => .error .illegalFunction

/-- SHI, major 0x08 (R59). -/
noncomputable def decodeShi (w : Nat) : Except DecodeError Instr :=
  match fld w 0 10 with
  | 0 => .ok (.slli (gAt w 21) (gAt w 16) (BitVec.ofNat 6 (w / 2^10)))
  | 1 => .ok (.srli (gAt w 21) (gAt w 16) (BitVec.ofNat 6 (w / 2^10)))
  | 2 => .ok (.srai (gAt w 21) (gAt w 16) (BitVec.ofNat 6 (w / 2^10)))
  | 3 => .ok (.rori (gAt w 21) (gAt w 16) (BitVec.ofNat 6 (w / 2^10)))
  | _ => .error .illegalFunction

/-- FP, major 0x0C (R60). -/
noncomputable def decodeFp (w : Nat) : Except DecodeError Instr :=
  match fld w 4 7 with
  | 0 => .ok (.fadd (gAt w 21) (gAt w 16) (gAt w 11) (FpSize.ofCode (fld w 2 2)) (ScalarRm.ofCode (fld w 0 2)))
  | 1 => .ok (.fsub (gAt w 21) (gAt w 16) (gAt w 11) (FpSize.ofCode (fld w 2 2)) (ScalarRm.ofCode (fld w 0 2)))
  | 2 => .ok (.fmul (gAt w 21) (gAt w 16) (gAt w 11) (FpSize.ofCode (fld w 2 2)) (ScalarRm.ofCode (fld w 0 2)))
  | 3 => .ok (.fdiv (gAt w 21) (gAt w 16) (gAt w 11) (FpSize.ofCode (fld w 2 2)) (ScalarRm.ofCode (fld w 0 2)))
  | 4 => legal (fld w 11 5 = 0) (.fsqrt (gAt w 21) (gAt w 16) (FpSize.ofCode (fld w 2 2)) (ScalarRm.ofCode (fld w 0 2)))
  | 5 => legal (fld w 0 2 = 0) (.fmin (gAt w 21) (gAt w 16) (gAt w 11) (FpSize.ofCode (fld w 2 2)))
  | 6 => legal (fld w 0 2 = 0) (.fmax (gAt w 21) (gAt w 16) (gAt w 11) (FpSize.ofCode (fld w 2 2)))
  | 7 => legal (fld w 0 2 = 0) (.fceq (gAt w 21) (gAt w 16) (gAt w 11) (FpSize.ofCode (fld w 2 2)))
  | 8 => legal (fld w 0 2 = 0) (.fclt (gAt w 21) (gAt w 16) (gAt w 11) (FpSize.ofCode (fld w 2 2)))
  | 9 => legal (fld w 0 2 = 0) (.fcle (gAt w 21) (gAt w 16) (gAt w 11) (FpSize.ofCode (fld w 2 2)))
  | 10 => legal (fld w 11 5 = 0 ∧ fld w 0 2 = 0) (.fclass (gAt w 21) (gAt w 16) (FpSize.ofCode (fld w 2 2)))
  | 11 => legal (fld w 11 5 = 0) (.fcvti (gAt w 21) (gAt w 16) (FpSize.ofCode (fld w 2 2)) (ScalarRm.ofCode (fld w 0 2)))
  | 12 => legal (fld w 11 5 = 0) (.fcvtf (gAt w 21) (gAt w 16) (FpSize.ofCode (fld w 2 2)) (ScalarRm.ofCode (fld w 0 2)))
  | 13 => legal (fld w 13 3 = 0 ∧ fld w 11 2 ≠ fld w 2 2) (.fcvtff (gAt w 21) (gAt w 16) (FpSize.ofCode (fld w 11 2)) (FpSize.ofCode (fld w 2 2)) (ScalarRm.ofCode (fld w 0 2)))
  | 14 => legal (fld w 11 5 = 0 ∧ fld w 0 2 = 0) (.fneg (gAt w 21) (gAt w 16) (FpSize.ofCode (fld w 2 2)))
  | 15 => legal (fld w 11 5 = 0 ∧ fld w 0 2 = 0) (.fabs (gAt w 21) (gAt w 16) (FpSize.ofCode (fld w 2 2)))
  | _ => .error .illegalFunction

/-- ATOM, major 0x1C (R63). -/
noncomputable def decodeAtom (w : Nat) : Except DecodeError Instr :=
  match fld w 7 4 with
  | 0 => legal (fld w 11 5 = 0 ∧ fld w 4 1 = 0 ∧ fld w 0 1 = 0 ∧ fld w 1 3 < 6) (.lr (gAt w 21) (gAt w 16) (bitAt w 6) (bitAt w 5) (Scope.ofCode (fld w 1 3)))
  | 1 => legal (fld w 5 1 = 0 ∧ fld w 0 1 = 0 ∧ fld w 1 3 < 6) (.sc (gAt w 21) (gAt w 16) (gAt w 11) (bitAt w 6) (bitAt w 4) (Scope.ofCode (fld w 1 3)))
  | 2 => legal (fld w 0 1 = 0 ∧ fld w 1 3 < 6) (.amoswap (gAt w 21) (gAt w 16) (gAt w 11) (bitAt w 6) (bitAt w 5) (bitAt w 4) (Scope.ofCode (fld w 1 3)))
  | 3 => legal (fld w 0 1 = 0 ∧ fld w 1 3 < 6) (.amoadd (gAt w 21) (gAt w 16) (gAt w 11) (bitAt w 6) (bitAt w 5) (bitAt w 4) (Scope.ofCode (fld w 1 3)))
  | 4 => legal (fld w 0 1 = 0 ∧ fld w 1 3 < 6) (.amoand (gAt w 21) (gAt w 16) (gAt w 11) (bitAt w 6) (bitAt w 5) (bitAt w 4) (Scope.ofCode (fld w 1 3)))
  | 5 => legal (fld w 0 1 = 0 ∧ fld w 1 3 < 6) (.amoor (gAt w 21) (gAt w 16) (gAt w 11) (bitAt w 6) (bitAt w 5) (bitAt w 4) (Scope.ofCode (fld w 1 3)))
  | 6 => legal (fld w 0 1 = 0 ∧ fld w 1 3 < 6) (.amoxor (gAt w 21) (gAt w 16) (gAt w 11) (bitAt w 6) (bitAt w 5) (bitAt w 4) (Scope.ofCode (fld w 1 3)))
  | 7 => legal (fld w 0 1 = 0 ∧ fld w 1 3 < 6) (.amomin (gAt w 21) (gAt w 16) (gAt w 11) (bitAt w 6) (bitAt w 5) (bitAt w 4) (Scope.ofCode (fld w 1 3)))
  | 8 => legal (fld w 0 1 = 0 ∧ fld w 1 3 < 6) (.amomax (gAt w 21) (gAt w 16) (gAt w 11) (bitAt w 6) (bitAt w 5) (bitAt w 4) (Scope.ofCode (fld w 1 3)))
  | 9 => legal (fld w 0 1 = 0 ∧ fld w 1 3 < 6) (.amominu (gAt w 21) (gAt w 16) (gAt w 11) (bitAt w 6) (bitAt w 5) (bitAt w 4) (Scope.ofCode (fld w 1 3)))
  | 10 => legal (fld w 0 1 = 0 ∧ fld w 1 3 < 6) (.amomaxu (gAt w 21) (gAt w 16) (gAt w 11) (bitAt w 6) (bitAt w 5) (bitAt w 4) (Scope.ofCode (fld w 1 3)))
  | 11 => legal (fld w 0 1 = 0 ∧ fld w 1 3 < 6) (.amocas (gAt w 21) (gAt w 16) (gAt w 11) (bitAt w 6) (bitAt w 5) (bitAt w 4) (Scope.ofCode (fld w 1 3)))
  | 12 => legal (fld w 11 5 = 0 ∧ fld w 4 2 = 0 ∧ fld w 0 1 = 0 ∧ fld w 1 3 < 6) (.ldacq (gAt w 21) (gAt w 16) (bitAt w 6) (Scope.ofCode (fld w 1 3)))
  | 13 => legal (fld w 21 5 = 0 ∧ fld w 4 2 = 0 ∧ fld w 0 1 = 0 ∧ fld w 1 3 < 6) (.strel (gAt w 16) (gAt w 11) (bitAt w 6) (Scope.ofCode (fld w 1 3)))
  | _ => .error .illegalFunction

/-- CACHE, major 0x1E (R65). -/
noncomputable def decodeCache (w : Nat) : Except DecodeError Instr :=
  match fld w 0 11 with
  | 0 => legal (fld w 21 5 = 0) (.cinv (gAt w 16) (gAt w 11))
  | 1 => legal (fld w 21 5 = 0) (.cflush (gAt w 16) (gAt w 11))
  | 2 => legal (fld w 21 5 = 0) (.cclean (gAt w 16) (gAt w 11))
  | 3 => legal (fld w 21 5 = 0) (.czero (gAt w 16) (gAt w 11))
  | 4 => legal (fld w 21 5 = 0) (.cpfr (gAt w 16) (gAt w 11))
  | 5 => legal (fld w 21 5 = 0) (.cpfw (gAt w 16) (gAt w 11))
  | 6 => legal (fld w 21 5 = 0) (.iflush (gAt w 16) (gAt w 11))
  | _ => .error .illegalFunction

/-- SYS, major 0x29 (R67). -/
noncomputable def decodeSys (w : Nat) : Except DecodeError Instr :=
  match fld w 0 6 with
  | 0 => legal (fld w 16 10 = 0 ∧ fld w 6 5 = 0) (.trap (BitVec.ofNat 5 (w / 2^11)))
  | 1 => legal (fld w 6 20 = 0) (.brk)
  | 2 => legal (fld w 6 20 = 0) (.eret)
  | 3 => legal (fld w 6 20 = 0) (.wfi)
  | 4 => legal (fld w 6 20 = 0) (.yield)
  | 5 => legal (fld w 21 5 = 0 ∧ fld w 9 2 = 0 ∧ fld w 6 3 < 6) (.tlbinv (gAt w 16) (gAt w 11) (Scope.ofCode (fld w 6 3)))
  | 6 => legal (fld w 6 20 = 0) (.tlbsync)
  | _ => .error .illegalFunction

/-- MTS, major 0x2B (R68). -/
noncomputable def decodeMts (w : Nat) : Except DecodeError Instr :=
  match fld w 0 12 with
  | 0 => legal (fld w 21 5 = 0 ∧ fld w 12 4 = 0) (.mtsStatus (gAt w 16))
  | 16 => legal (fld w 21 5 = 0 ∧ fld w 12 4 = 0) (.mtsVl (gAt w 16))
  | 17 => legal (fld w 21 5 = 0 ∧ fld w 12 4 = 0) (.mtsVtype (gAt w 16))
  | 21 => legal (fld w 21 5 = 0 ∧ fld w 12 4 = 0) (.mtsVcap (gAt w 16))
  | 10 => legal (fld w 21 5 = 0 ∧ fld w 12 4 = 0) (.mtsMember (gAt w 16))
  | 32 => legal (fld w 21 5 = 0 ∧ fld w 12 4 = 0) (.mtsTctl (gAt w 16))
  | 33 => legal (fld w 21 5 = 0 ∧ fld w 12 4 = 0) (.mtsTstat (gAt w 16))
  | 50 => legal (fld w 21 5 = 0 ∧ fld w 12 4 = 0) (.mtsCntc (gAt w 16))
  | 56 => legal (fld w 21 5 = 0 ∧ fld w 12 4 = 0) (.mtsYctl (gAt w 16))
  | 64 => legal (fld w 21 5 = 0 ∧ fld w 12 4 = 0) (.mtsSpcfg (gAt w 16))
  | _ => legal (fld w 21 5 = 0 ∧ fld w 12 4 = 0) (.mts (gAt w 16) (BitVec.ofNat 12 (w)))

/-- SYNC, major 0x2C (R69). -/
noncomputable def decodeSync (w : Nat) : Except DecodeError Instr :=
  match fld w 6 5 with
  | 0 => legal (fld w 3 3 < 5 ∧ fld w 0 3 < 7 ∧ ¬ (fld w 3 3 = 4 ∧ 8 ≤ fld w 11 5)) (.gbar (gAt w 21) (gAt w 16) (gAt w 11) (BarScope.ofCode (fld w 3 3)) (Comb.ofCode (fld w 0 3)))
  | 1 => legal (fld w 16 5 = 0 ∧ fld w 0 3 = 0 ∧ fld w 3 3 < 5 ∧ ¬ (fld w 3 3 = 4 ∧ 8 ≤ fld w 11 5)) (.garrive (gAt w 21) (gAt w 11) (BarScope.ofCode (fld w 3 3)))
  | 2 => legal (fld w 21 5 = 0 ∧ fld w 0 3 = 0 ∧ fld w 3 3 < 5 ∧ ¬ (fld w 3 3 = 4 ∧ 8 ≤ fld w 11 5)) (.gwait (gAt w 16) (gAt w 11) (BarScope.ofCode (fld w 3 3)))
  | 3 => legal (fld w 21 5 = 0 ∧ fld w 11 5 = 0 ∧ fld w 0 6 = 0 ∧ fld w 20 1 = 0) (.chwait (m5At w 16))
  | 4 => legal (fld w 16 7 = 0 ∧ fld w 0 6 = 0 ∧ fld w 15 1 = 0 ∧ fld w 23 3 ≠ 0) (.chrecv (m3At w 23) (m5At w 11))
  | 5 => legal (fld w 21 5 = 0 ∧ fld w 16 2 = 0 ∧ fld w 0 6 = 0) (.chpost (m3At w 18) (gAt w 11))
  | 6 => legal (fld w 21 5 = 0 ∧ fld w 0 6 = 0 ∧ fld w 15 1 = 0) (.bcpost (gAt w 16) (m5At w 11))
  | 7 => legal (fld w 16 10 = 0 ∧ fld w 0 6 = 0 ∧ fld w 15 1 = 0) (.bcwait (m5At w 11))
  | 8 => legal (fld w 16 5 = 0 ∧ fld w 0 6 = 0 ∧ fld w 15 1 = 0) (.bcread (gAt w 21) (m5At w 11))
  | 9 => legal (fld w 16 10 = 0 ∧ fld w 0 6 = 0 ∧ fld w 15 1 = 0) (.bcclr (m5At w 11))
  | _ => .error .illegalFunction

/-- SEND, major 0x2D (R70). -/
noncomputable def decodeSend (w : Nat) : Except DecodeError Instr :=
  match fld w 0 11 with
  | 0 => legal (fld w 11 5 = 0) (.sendStrmCopy (gAt w 21) (gAt w 16))
  | 1 => legal (fld w 11 5 = 0) (.sendStrmGather (gAt w 21) (gAt w 16))
  | 2 => legal (fld w 11 5 = 0) (.sendStrmScatter (gAt w 21) (gAt w 16))
  | 3 => legal (fld w 11 5 = 0) (.sendStrmFill (gAt w 21) (gAt w 16))
  | 4 => legal (fld w 11 5 = 0) (.sendStrmUnz (gAt w 21) (gAt w 16))
  | 5 => legal (fld w 11 5 = 0) (.sendStrmPlane (gAt w 21) (gAt w 16))
  | 64 => legal (fld w 11 5 = 0) (.sendWeaveLoad (gAt w 21) (gAt w 16))
  | 65 => legal (fld w 11 5 = 0) (.sendWeaveRun (gAt w 21) (gAt w 16))
  | 128 => .ok (.sendCollBmax (gAt w 21) (gAt w 16) (gAt w 11))
  | 129 => .ok (.sendCollIsum (gAt w 21) (gAt w 16) (gAt w 11))
  | 130 => .ok (.sendCollFsum (gAt w 21) (gAt w 16) (gAt w 11))
  | 131 => .ok (.sendCollBcast (gAt w 21) (gAt w 16) (gAt w 11))
  | 132 => .ok (.sendCollOr (gAt w 21) (gAt w 16) (gAt w 11))
  | 192 => .ok (.sendTendCall (gAt w 21) (gAt w 16) (gAt w 11))
  | 256 => legal (fld w 11 5 = 0) (.sendLnchGang (gAt w 21) (gAt w 16))
  | _ => .error .illegalFunction

/-- SETVL, major 0x30 (R72). -/
noncomputable def decodeSetvl (w : Nat) : Except DecodeError Instr :=
  match fld w 0 3 with
  | 0 => .ok (.setvl (gAt w 21) (gAt w 16) (Fin.ofNat 4 (w / 2^14)) (Fin.ofNat 4 (w / 2^12)) (BitVec.ofNat 8 (w / 2^4)) (bitAt w 3))
  | 1 => .ok (.setvlA (gAt w 21) (gAt w 16) (Fin.ofNat 4 (w / 2^14)) (Fin.ofNat 4 (w / 2^12)) (BitVec.ofNat 8 (w / 2^4)) (bitAt w 3))
  | 2 => legal (fld w 16 5 = 0) (.setvlmax (gAt w 21) (Fin.ofNat 4 (w / 2^14)) (Fin.ofNat 4 (w / 2^12)) (BitVec.ofNat 8 (w / 2^4)) (bitAt w 3))
  | 3 => legal (fld w 16 5 = 0) (.setvlmaxA (gAt w 21) (Fin.ofNat 4 (w / 2^14)) (Fin.ofNat 4 (w / 2^12)) (BitVec.ofNat 8 (w / 2^4)) (bitAt w 3))
  | _ => .error .illegalFunction

/-- VINT, major 0x31 (R73). -/
noncomputable def decodeVint (w : Nat) : Except DecodeError Instr :=
  match fld w 0 5 with
  | 0 => legal (fld w 5 3 = 0) (.vadd (vAt w 21) (vAt w 16) (vAt w 11) (m3At w 8))
  | 1 => legal (fld w 5 3 = 0) (.vsub (vAt w 21) (vAt w 16) (vAt w 11) (m3At w 8))
  | 2 => legal (fld w 5 3 = 0) (.vmul (vAt w 21) (vAt w 16) (vAt w 11) (m3At w 8))
  | 3 => legal (fld w 5 3 = 0) (.vmulh (vAt w 21) (vAt w 16) (vAt w 11) (m3At w 8))
  | 4 => legal (fld w 5 3 = 0) (.vmulhu (vAt w 21) (vAt w 16) (vAt w 11) (m3At w 8))
  | 5 => legal (fld w 5 3 = 0) (.vmin (vAt w 21) (vAt w 16) (vAt w 11) (m3At w 8))
  | 6 => legal (fld w 5 3 = 0) (.vmax (vAt w 21) (vAt w 16) (vAt w 11) (m3At w 8))
  | 7 => legal (fld w 5 3 = 0) (.vminu (vAt w 21) (vAt w 16) (vAt w 11) (m3At w 8))
  | 8 => legal (fld w 5 3 = 0) (.vmaxu (vAt w 21) (vAt w 16) (vAt w 11) (m3At w 8))
  | 9 => legal (fld w 5 3 = 0) (.vand (vAt w 21) (vAt w 16) (vAt w 11) (m3At w 8))
  | 10 => legal (fld w 5 3 = 0) (.vor (vAt w 21) (vAt w 16) (vAt w 11) (m3At w 8))
  | 11 => legal (fld w 5 3 = 0) (.vxor (vAt w 21) (vAt w 16) (vAt w 11) (m3At w 8))
  | 12 => legal (fld w 5 3 = 0) (.vshl (vAt w 21) (vAt w 16) (vAt w 11) (m3At w 8))
  | 13 => legal (fld w 5 3 = 0) (.vshr (vAt w 21) (vAt w 16) (vAt w 11) (m3At w 8))
  | 14 => legal (fld w 5 3 = 0) (.vsra (vAt w 21) (vAt w 16) (vAt w 11) (m3At w 8))
  | 15 => legal (fld w 5 3 = 0) (.vadds (vAt w 21) (vAt w 16) (vAt w 11) (m3At w 8))
  | 16 => legal (fld w 5 3 = 0) (.vaddsu (vAt w 21) (vAt w 16) (vAt w 11) (m3At w 8))
  | 17 => legal (fld w 5 3 = 0) (.vsubs (vAt w 21) (vAt w 16) (vAt w 11) (m3At w 8))
  | 18 => legal (fld w 5 3 = 0) (.vsubsu (vAt w 21) (vAt w 16) (vAt w 11) (m3At w 8))
  | 19 => legal (fld w 5 3 = 0) (.vavg (vAt w 21) (vAt w 16) (vAt w 11) (m3At w 8))
  | 20 => legal (fld w 5 3 = 0) (.vabsd (vAt w 21) (vAt w 16) (vAt w 11) (m3At w 8))
  | 21 => legal (fld w 11 5 = 0) (.vnarrow (vAt w 21) (vAt w 16) (m3At w 8) (m3At w 5))
  | _ => .error .illegalFunction

/-- VINTX, major 0x32 (R73). -/
noncomputable def decodeVintx (w : Nat) : Except DecodeError Instr :=
  match fld w 0 5 with
  | 0 => legal (fld w 5 3 = 0) (.vaddVx (vAt w 21) (vAt w 16) (gAt w 11) (m3At w 8))
  | 1 => legal (fld w 5 3 = 0) (.vsubVx (vAt w 21) (vAt w 16) (gAt w 11) (m3At w 8))
  | 2 => legal (fld w 5 3 = 0) (.vmulVx (vAt w 21) (vAt w 16) (gAt w 11) (m3At w 8))
  | 3 => legal (fld w 5 3 = 0) (.vmulhVx (vAt w 21) (vAt w 16) (gAt w 11) (m3At w 8))
  | 4 => legal (fld w 5 3 = 0) (.vmulhuVx (vAt w 21) (vAt w 16) (gAt w 11) (m3At w 8))
  | 5 => legal (fld w 5 3 = 0) (.vminVx (vAt w 21) (vAt w 16) (gAt w 11) (m3At w 8))
  | 6 => legal (fld w 5 3 = 0) (.vmaxVx (vAt w 21) (vAt w 16) (gAt w 11) (m3At w 8))
  | 7 => legal (fld w 5 3 = 0) (.vminuVx (vAt w 21) (vAt w 16) (gAt w 11) (m3At w 8))
  | 8 => legal (fld w 5 3 = 0) (.vmaxuVx (vAt w 21) (vAt w 16) (gAt w 11) (m3At w 8))
  | 9 => legal (fld w 5 3 = 0) (.vandVx (vAt w 21) (vAt w 16) (gAt w 11) (m3At w 8))
  | 10 => legal (fld w 5 3 = 0) (.vorVx (vAt w 21) (vAt w 16) (gAt w 11) (m3At w 8))
  | 11 => legal (fld w 5 3 = 0) (.vxorVx (vAt w 21) (vAt w 16) (gAt w 11) (m3At w 8))
  | 12 => legal (fld w 5 3 = 0) (.vshlVx (vAt w 21) (vAt w 16) (gAt w 11) (m3At w 8))
  | 13 => legal (fld w 5 3 = 0) (.vshrVx (vAt w 21) (vAt w 16) (gAt w 11) (m3At w 8))
  | 14 => legal (fld w 5 3 = 0) (.vsraVx (vAt w 21) (vAt w 16) (gAt w 11) (m3At w 8))
  | 15 => legal (fld w 5 3 = 0) (.vaddsVx (vAt w 21) (vAt w 16) (gAt w 11) (m3At w 8))
  | 16 => legal (fld w 5 3 = 0) (.vaddsuVx (vAt w 21) (vAt w 16) (gAt w 11) (m3At w 8))
  | 17 => legal (fld w 5 3 = 0) (.vsubsVx (vAt w 21) (vAt w 16) (gAt w 11) (m3At w 8))
  | 18 => legal (fld w 5 3 = 0) (.vsubsuVx (vAt w 21) (vAt w 16) (gAt w 11) (m3At w 8))
  | 19 => legal (fld w 5 3 = 0) (.vavgVx (vAt w 21) (vAt w 16) (gAt w 11) (m3At w 8))
  | 20 => legal (fld w 5 3 = 0) (.vabsdVx (vAt w 21) (vAt w 16) (gAt w 11) (m3At w 8))
  | _ => .error .illegalFunction

/-- VCMP, major 0x33 (R73). -/
noncomputable def decodeVcmp (w : Nat) : Except DecodeError Instr :=
  match fld w 0 5 with
  | 0 => legal (fld w 25 1 = 0 ∧ fld w 5 3 = 0) (.vceq (m5At w 21) (vAt w 16) (vAt w 11) (m3At w 8))
  | 1 => legal (fld w 25 1 = 0 ∧ fld w 5 3 = 0) (.vcne (m5At w 21) (vAt w 16) (vAt w 11) (m3At w 8))
  | 2 => legal (fld w 25 1 = 0 ∧ fld w 5 3 = 0) (.vclt (m5At w 21) (vAt w 16) (vAt w 11) (m3At w 8))
  | 3 => legal (fld w 25 1 = 0 ∧ fld w 5 3 = 0) (.vcle (m5At w 21) (vAt w 16) (vAt w 11) (m3At w 8))
  | 4 => legal (fld w 25 1 = 0 ∧ fld w 5 3 = 0) (.vcltu (m5At w 21) (vAt w 16) (vAt w 11) (m3At w 8))
  | 5 => legal (fld w 25 1 = 0 ∧ fld w 5 3 = 0) (.vcleu (m5At w 21) (vAt w 16) (vAt w 11) (m3At w 8))
  | 6 => legal (fld w 5 3 = 0 ∧ fld w 8 3 ≠ 0) (.vmerge (vAt w 21) (vAt w 16) (vAt w 11) (m3At w 8))
  | 7 => legal (fld w 25 1 = 0) (.vfceq (m5At w 21) (vAt w 16) (vAt w 11) (m3At w 8) (m3At w 5))
  | 8 => legal (fld w 25 1 = 0) (.vfclt (m5At w 21) (vAt w 16) (vAt w 11) (m3At w 8) (m3At w 5))
  | 9 => legal (fld w 25 1 = 0) (.vfcle (m5At w 21) (vAt w 16) (vAt w 11) (m3At w 8) (m3At w 5))
  | 10 => legal (fld w 25 1 = 0) (.vfcun (m5At w 21) (vAt w 16) (vAt w 11) (m3At w 8) (m3At w 5))
  | 11 => legal (fld w 11 5 = 0) (.vfclass (vAt w 21) (vAt w 16) (m3At w 8) (m3At w 5))
  | _ => .error .illegalFunction

/-- VFP, major 0x34 (R73). -/
noncomputable def decodeVfp (w : Nat) : Except DecodeError Instr :=
  match fld w 0 5 with
  | 0 => .ok (.vfadd (vAt w 21) (vAt w 16) (vAt w 11) (m3At w 8) (m3At w 5))
  | 1 => .ok (.vfsub (vAt w 21) (vAt w 16) (vAt w 11) (m3At w 8) (m3At w 5))
  | 2 => .ok (.vfmul (vAt w 21) (vAt w 16) (vAt w 11) (m3At w 8) (m3At w 5))
  | 3 => .ok (.vfdiv (vAt w 21) (vAt w 16) (vAt w 11) (m3At w 8) (m3At w 5))
  | 4 => legal (fld w 11 5 = 0) (.vfsqrt (vAt w 21) (vAt w 16) (m3At w 8) (m3At w 5))
  | 5 => .ok (.vfmin (vAt w 21) (vAt w 16) (vAt w 11) (m3At w 8) (m3At w 5))
  | 6 => .ok (.vfmax (vAt w 21) (vAt w 16) (vAt w 11) (m3At w 8) (m3At w 5))
  | 7 => legal (fld w 11 5 = 0) (.vfrcp (vAt w 21) (vAt w 16) (m3At w 8) (m3At w 5))
  | 8 => legal (fld w 11 5 = 0) (.vfrsq (vAt w 21) (vAt w 16) (m3At w 8) (m3At w 5))
  | 9 => legal (fld w 11 5 = 0) (.vfexp2 (vAt w 21) (vAt w 16) (m3At w 8) (m3At w 5))
  | 10 => legal (fld w 11 5 = 0) (.vflog2 (vAt w 21) (vAt w 16) (m3At w 8) (m3At w 5))
  | 11 => .ok (.vfcvt (vAt w 21) (vAt w 16) (vAt w 11) (m3At w 8) (m3At w 5))
  | 12 => legal (fld w 25 1 = 0 ∧ fld w 11 5 = 0) (.vfnf (m5At w 21) (vAt w 16) (m3At w 8) (m3At w 5))
  | 13 => legal (fld w 11 5 = 0) (.vfabs (vAt w 21) (vAt w 16) (m3At w 8) (m3At w 5))
  | 14 => legal (fld w 11 5 = 0) (.vfneg (vAt w 21) (vAt w 16) (m3At w 8) (m3At w 5))
  | 15 => .ok (.vfscale (vAt w 21) (vAt w 16) (vAt w 11) (m3At w 8) (m3At w 5))
  | _ => .error .illegalFunction

/-- VFPX, major 0x35 (R73). -/
noncomputable def decodeVfpx (w : Nat) : Except DecodeError Instr :=
  match fld w 0 5 with
  | 0 => .ok (.vfaddVx (vAt w 21) (vAt w 16) (gAt w 11) (m3At w 8) (m3At w 5))
  | 1 => .ok (.vfsubVx (vAt w 21) (vAt w 16) (gAt w 11) (m3At w 8) (m3At w 5))
  | 2 => .ok (.vfmulVx (vAt w 21) (vAt w 16) (gAt w 11) (m3At w 8) (m3At w 5))
  | 3 => .ok (.vfdivVx (vAt w 21) (vAt w 16) (gAt w 11) (m3At w 8) (m3At w 5))
  | 4 => .ok (.vfsqrtVx (vAt w 21) (vAt w 16) (gAt w 11) (m3At w 8) (m3At w 5))
  | 5 => .ok (.vfminVx (vAt w 21) (vAt w 16) (gAt w 11) (m3At w 8) (m3At w 5))
  | 6 => .ok (.vfmaxVx (vAt w 21) (vAt w 16) (gAt w 11) (m3At w 8) (m3At w 5))
  | 15 => .ok (.vfscaleVx (vAt w 21) (vAt w 16) (gAt w 11) (m3At w 8) (m3At w 5))
  | _ => .error .illegalFunction

/-- VRED, major 0x3A (R73). -/
noncomputable def decodeVred (w : Nat) : Except DecodeError Instr :=
  match fld w 0 5 with
  | 0 => legal (fld w 5 3 = 0) (.vredsum (vAt w 21) (vAt w 16) (vAt w 11) (m3At w 8))
  | 1 => legal (fld w 5 3 = 0) (.vredmax (vAt w 21) (vAt w 16) (vAt w 11) (m3At w 8))
  | 2 => legal (fld w 5 3 = 0) (.vredmin (vAt w 21) (vAt w 16) (vAt w 11) (m3At w 8))
  | 3 => legal (fld w 5 3 = 0) (.vredmaxu (vAt w 21) (vAt w 16) (vAt w 11) (m3At w 8))
  | 4 => legal (fld w 5 3 = 0) (.vredminu (vAt w 21) (vAt w 16) (vAt w 11) (m3At w 8))
  | 5 => legal (fld w 5 3 = 0) (.vredand (vAt w 21) (vAt w 16) (vAt w 11) (m3At w 8))
  | 6 => legal (fld w 5 3 = 0) (.vredor (vAt w 21) (vAt w 16) (vAt w 11) (m3At w 8))
  | 7 => legal (fld w 5 3 = 0) (.vredxor (vAt w 21) (vAt w 16) (vAt w 11) (m3At w 8))
  | 8 => .ok (.vfredsum (vAt w 21) (vAt w 16) (vAt w 11) (m3At w 8) (m3At w 5))
  | 9 => .ok (.vfredmax (vAt w 21) (vAt w 16) (vAt w 11) (m3At w 8) (m3At w 5))
  | 10 => .ok (.vfredmin (vAt w 21) (vAt w 16) (vAt w 11) (m3At w 8) (m3At w 5))
  | _ => .error .illegalFunction

/-- VPERM, major 0x3B (R74). -/
noncomputable def decodeVperm (w : Nat) : Except DecodeError Instr :=
  match fld w 0 5 with
  | 0 => legal (fld w 5 3 = 0) (.vslideup (vAt w 21) (vAt w 16) (gAt w 11) (m3At w 8))
  | 1 => legal (fld w 5 3 = 0) (.vslidedn (vAt w 21) (vAt w 16) (gAt w 11) (m3At w 8))
  | 2 => legal (fld w 5 3 = 0) (.vgatherv (vAt w 21) (vAt w 16) (vAt w 11) (m3At w 8))
  | 3 => legal (fld w 11 5 = 0 ∧ fld w 5 3 = 0 ∧ fld w 8 3 ≠ 0) (.vcompress (vAt w 21) (vAt w 16) (m3At w 8))
  | 4 => legal (fld w 11 5 = 0 ∧ fld w 5 3 = 0 ∧ fld w 8 3 ≠ 0) (.vexpand (vAt w 21) (vAt w 16) (m3At w 8))
  | 5 => legal (fld w 11 5 = 0 ∧ fld w 5 3 = 0) (.vbcast (vAt w 21) (gAt w 16) (m3At w 8))
  | 6 => legal (fld w 5 6 = 0) (.vext (gAt w 21) (vAt w 16) (gAt w 11))
  | 7 => legal (fld w 5 6 = 0) (.vins (vAt w 21) (gAt w 16) (gAt w 11))
  | 8 => legal (fld w 11 10 = 0 ∧ fld w 5 3 = 0) (.vid (vAt w 21) (m3At w 8))
  | 9 => legal (fld w 20 1 = 0 ∧ fld w 11 5 = 0 ∧ fld w 5 3 = 0) (.viota (vAt w 21) (m5At w 16) (m3At w 8))
  | 10 => legal (fld w 5 3 = 0) (.vzip (vAt w 21) (vAt w 16) (vAt w 11) (m3At w 8))
  | 11 => legal (fld w 5 3 = 0) (.vunzip (vAt w 21) (vAt w 16) (vAt w 11) (m3At w 8))
  | 12 => legal (fld w 11 5 = 0 ∧ fld w 5 3 = 0) (.vmov (vAt w 21) (vAt w 16) (m3At w 8))
  | 13 => legal (fld w 11 5 = 0) (.vunpk (vAt w 21) (vAt w 16) (m3At w 8) (m3At w 5))
  | 14 => legal (fld w 11 10 = 0) (.vrand (vAt w 21) (m3At w 8) (m3At w 5))
  | 15 => legal (fld w 11 5 = 0) (.vplhead (vAt w 21) (vAt w 16) (m3At w 8) (m3At w 5))
  | 16 => .ok (.vplresc (vAt w 21) (vAt w 16) (vAt w 11) (m3At w 8) (m3At w 5))
  | _ => .error .illegalFunction

/-- VMASK, major 0x3C (R75). -/
noncomputable def decodeVmask (w : Nat) : Except DecodeError Instr :=
  match fld w 0 5 with
  | 0 => legal (fld w 25 1 = 0 ∧ fld w 20 1 = 0 ∧ fld w 15 1 = 0 ∧ fld w 5 6 = 0) (.mand (m5At w 21) (m5At w 16) (m5At w 11))
  | 1 => legal (fld w 25 1 = 0 ∧ fld w 20 1 = 0 ∧ fld w 15 1 = 0 ∧ fld w 5 6 = 0) (.mor (m5At w 21) (m5At w 16) (m5At w 11))
  | 2 => legal (fld w 25 1 = 0 ∧ fld w 20 1 = 0 ∧ fld w 15 1 = 0 ∧ fld w 5 6 = 0) (.mxor (m5At w 21) (m5At w 16) (m5At w 11))
  | 3 => legal (fld w 25 1 = 0 ∧ fld w 20 1 = 0 ∧ fld w 15 1 = 0 ∧ fld w 5 6 = 0) (.mandn (m5At w 21) (m5At w 16) (m5At w 11))
  | 4 => legal (fld w 25 1 = 0 ∧ fld w 20 1 = 0 ∧ fld w 5 11 = 0) (.mnot (m5At w 21) (m5At w 16))
  | 5 => legal (fld w 20 1 = 0 ∧ fld w 11 5 = 0 ∧ fld w 5 3 = 0) (.mpopc (gAt w 21) (m5At w 16) (m3At w 8))
  | 6 => legal (fld w 20 1 = 0 ∧ fld w 11 5 = 0 ∧ fld w 5 3 = 0) (.mfirst (gAt w 21) (m5At w 16) (m3At w 8))
  | 7 => legal (fld w 25 1 = 0 ∧ fld w 20 1 = 0 ∧ fld w 11 5 = 0 ∧ fld w 5 3 = 0) (.msbf (m5At w 21) (m5At w 16) (m3At w 8))
  | 8 => legal (fld w 25 1 = 0 ∧ fld w 20 1 = 0 ∧ fld w 11 5 = 0 ∧ fld w 5 3 = 0) (.msif (m5At w 21) (m5At w 16) (m3At w 8))
  | 9 => legal (fld w 25 1 = 0 ∧ fld w 5 16 = 0) (.mset (m5At w 21))
  | 10 => legal (fld w 25 1 = 0 ∧ fld w 5 16 = 0) (.mclr (m5At w 21))
  | 11 => legal (fld w 25 1 = 0 ∧ fld w 5 11 = 0) (.mmovg (m5At w 21) (gAt w 16))
  | 12 => legal (fld w 20 1 = 0 ∧ fld w 5 11 = 0) (.mmovm (gAt w 21) (m5At w 16))
  | _ => .error .illegalFunction

/-- VLD, major 0x3D (R77). -/
noncomputable def decodeVld (w : Nat) : Except DecodeError Instr :=
  match fld w 5 3 with
  | 0 => legal (fld w 11 5 = 0 ∧ fld w 0 5 = 0) (.vld (vAt w 21) (gAt w 16) (m3At w 8))
  | 1 => legal (fld w 0 5 = 0) (.vlds (vAt w 21) (gAt w 16) (gAt w 11) (m3At w 8))
  | 2 => legal (fld w 2 3 = 0) (.vldx (vAt w 21) (gAt w 16) (vAt w 11) (m3At w 8) (Fin.ofNat 4 (w)))
  | 3 => legal (fld w 11 5 = 0) (.vldseg (vAt w 21) (gAt w 16) (m3At w 8) (m3At w 2) (Fin.ofNat 4 (w)))
  | 4 => legal (fld w 11 5 = 0 ∧ fld w 0 5 = 0) (.vldff (vAt w 21) (gAt w 16) (m3At w 8))
  | 5 => legal (fld w 1 2 ≤ fld w 3 2) (.vldpl (vAt w 21) (gAt w 16) (gAt w 11) (m3At w 8) (Fin.ofNat 4 (w / 2^3)) (Fin.ofNat 4 (w / 2^1)) (bitAt w 0))
  | 6 => legal (fld w 8 8 = 0 ∧ fld w 2 3 = 0) (.vldw (vAt w 21) (gAt w 16) (Fin.ofNat 4 (w)))
  | 7 => legal (fld w 11 5 = 0 ∧ fld w 3 2 = 0 ∧ fld w 0 3 < 6) (.vlde (vAt w 21) (gAt w 16) (m3At w 8) (m3At w 0))
  | _ => .error .illegalFunction

/-- VST, major 0x3E (R77). -/
noncomputable def decodeVst (w : Nat) : Except DecodeError Instr :=
  match fld w 5 3 with
  | 0 => legal (fld w 11 5 = 0 ∧ fld w 0 5 = 0) (.vst (vAt w 21) (gAt w 16) (m3At w 8))
  | 1 => legal (fld w 0 5 = 0) (.vsts (vAt w 21) (gAt w 16) (gAt w 11) (m3At w 8))
  | 2 => legal (fld w 2 3 = 0) (.vstx (vAt w 21) (gAt w 16) (vAt w 11) (m3At w 8) (Fin.ofNat 4 (w)))
  | 3 => legal (fld w 11 5 = 0) (.vstseg (vAt w 21) (gAt w 16) (m3At w 8) (m3At w 2) (Fin.ofNat 4 (w)))
  | 5 => legal (fld w 0 1 = 0 ∧ fld w 1 2 ≤ fld w 3 2) (.vstpl (vAt w 21) (gAt w 16) (gAt w 11) (m3At w 8) (Fin.ofNat 4 (w / 2^3)) (Fin.ofNat 4 (w / 2^1)))
  | 6 => legal (fld w 8 8 = 0 ∧ fld w 2 3 = 0) (.vstw (vAt w 21) (gAt w 16) (Fin.ofNat 4 (w)))
  | _ => .error .illegalFunction

/-- TILE, major 0x3F (R78). -/
noncomputable def decodeTile (w : Nat) : Except DecodeError Instr :=
  match fld w 0 4 with
  | 0 => .ok (.tmop (m3At w 23) (m5At w 19) (m5At w 15) (m3At w 12) (m3At w 9) (m3At w 6) (bitAt w 5) (bitAt w 4))
  | 1 => legal (fld w 12 3 ≠ 0) (.tmops (m3At w 23) (m5At w 19) (m5At w 15) (m3At w 12) (m3At w 9) (m3At w 6) (bitAt w 5) (bitAt w 4))
  | 2 => legal (fld w 5 18 = 0) (.tzero (m3At w 23) (bitAt w 4))
  | 3 => legal (fld w 5 3 = 0 ∧ 8 ≤ fld w 21 5 ∧ fld w 21 5 < 24) (.tldq (Fin.ofNat 16 (fld w 21 5 - 8)) (gAt w 16) (gAt w 11) (m3At w 8) (bitAt w 4))
  | 4 => legal (fld w 5 3 = 0 ∧ 8 ≤ fld w 21 5 ∧ fld w 21 5 < 24) (.tldqt (Fin.ofNat 16 (fld w 21 5 - 8)) (gAt w 16) (gAt w 11) (m3At w 8) (bitAt w 4))
  | 5 => legal (fld w 24 2 = 0 ∧ fld w 5 3 = 0) (.tsta (m3At w 21) (gAt w 16) (gAt w 11) (m3At w 8) (bitAt w 4))
  | 6 => legal (fld w 4 6 = 0) (.tslv (m3At w 23) (vAt w 18) (gAt w 13) (Fin.ofNat 4 (w / 2^11)) (bitAt w 10))
  | 7 => legal (fld w 4 6 = 0) (.tvsl (m3At w 23) (vAt w 18) (gAt w 13) (Fin.ofNat 4 (w / 2^11)) (bitAt w 10))
  | 8 => legal (fld w 4 12 = 0 ∧ fld w 21 5 < 24) (.tsave (TileItem.ofCode (fld w 21 5)) (gAt w 16))
  | 9 => legal (fld w 4 12 = 0 ∧ fld w 21 5 < 24) (.trstr (TileItem.ofCode (fld w 21 5)) (gAt w 16))
  | 10 => legal (fld w 7 1 = 0 ∧ 8 ≤ fld w 21 5 ∧ fld w 21 5 < 24 ∧ 1 ≤ fld w 4 3 ∧ fld w 4 3 < 5) (.tmcast (Fin.ofNat 16 (fld w 21 5 - 8)) (gAt w 16) (gAt w 11) (m3At w 8) (CastScope.ofCode (fld w 4 3)))
  | _ => .error .illegalFunction

/-- An instruction word, or the reason it is illegal (R55, R57). -/
noncomputable def decodeNat (w : Nat) : Except DecodeError Instr :=
  match fld w 26 6 with
  | 0x01 => decodeAlu w
  | 0x02 => .ok (.addi (gAt w 21) (gAt w 16) (BitVec.ofNat 16 (w)))
  | 0x03 => .ok (.andi (gAt w 21) (gAt w 16) (BitVec.ofNat 16 (w)))
  | 0x04 => .ok (.ori (gAt w 21) (gAt w 16) (BitVec.ofNat 16 (w)))
  | 0x05 => .ok (.xori (gAt w 21) (gAt w 16) (BitVec.ofNat 16 (w)))
  | 0x06 => .ok (.slti (gAt w 21) (gAt w 16) (BitVec.ofNat 16 (w)))
  | 0x07 => .ok (.sltiu (gAt w 21) (gAt w 16) (BitVec.ofNat 16 (w)))
  | 0x08 => decodeShi w
  | 0x09 => legal (fld w 16 5 = 0) (.lih (gAt w 21) (BitVec.ofNat 16 (w)))
  | 0x0A => legal (fld w 16 5 = 0) (.addpc (gAt w 21) (BitVec.ofNat 16 (w)))
  | 0x0B => .ok (.shori (gAt w 21) (gAt w 16) (BitVec.ofNat 16 (w)))
  | 0x0C => decodeFp w
  | 0x0D => .ok (.fma (gAt w 21) (gAt w 16) (gAt w 11) (gAt w 6) (FpSize.ofCode (fld w 4 2)) (ScalarRm.ofCode (fld w 2 2)) (bitAt w 0) (bitAt w 1))
  | 0x10 => .ok (.lb (gAt w 21) (gAt w 16) (BitVec.ofNat 16 (w)))
  | 0x11 => .ok (.lh (gAt w 21) (gAt w 16) (BitVec.ofNat 16 (w)))
  | 0x12 => .ok (.lw (gAt w 21) (gAt w 16) (BitVec.ofNat 16 (w)))
  | 0x13 => .ok (.ld (gAt w 21) (gAt w 16) (BitVec.ofNat 16 (w)))
  | 0x14 => .ok (.lbu (gAt w 21) (gAt w 16) (BitVec.ofNat 16 (w)))
  | 0x15 => .ok (.lhu (gAt w 21) (gAt w 16) (BitVec.ofNat 16 (w)))
  | 0x16 => .ok (.lwu (gAt w 21) (gAt w 16) (BitVec.ofNat 16 (w)))
  | 0x18 => .ok (.sb (gAt w 21) (gAt w 16) (BitVec.ofNat 16 (w)))
  | 0x19 => .ok (.sh (gAt w 21) (gAt w 16) (BitVec.ofNat 16 (w)))
  | 0x1A => .ok (.sw (gAt w 21) (gAt w 16) (BitVec.ofNat 16 (w)))
  | 0x1B => .ok (.sd (gAt w 21) (gAt w 16) (BitVec.ofNat 16 (w)))
  | 0x1C => decodeAtom w
  | 0x1D => legal (fld w 9 17 = 0 ∧ fld w 4 3 < 6 ∧ ¬ (fld w 0 4 = 0 ∧ fld w 7 2 = 0)) (.fence (bitAt w 8) (bitAt w 7) (Scope.ofCode (fld w 4 3)) (bitAt w 0) (bitAt w 1) (bitAt w 2) (bitAt w 3))
  | 0x1E => decodeCache w
  | 0x20 => .ok (.beq (gAt w 21) (gAt w 16) (BitVec.ofNat 16 (w)))
  | 0x21 => .ok (.bne (gAt w 21) (gAt w 16) (BitVec.ofNat 16 (w)))
  | 0x22 => .ok (.blt (gAt w 21) (gAt w 16) (BitVec.ofNat 16 (w)))
  | 0x23 => .ok (.bge (gAt w 21) (gAt w 16) (BitVec.ofNat 16 (w)))
  | 0x24 => .ok (.bltu (gAt w 21) (gAt w 16) (BitVec.ofNat 16 (w)))
  | 0x25 => .ok (.bgeu (gAt w 21) (gAt w 16) (BitVec.ofNat 16 (w)))
  | 0x26 => .ok (.j (BitVec.ofNat 26 (w)))
  | 0x27 => .ok (.jal (BitVec.ofNat 26 (w)))
  | 0x28 => .ok (.jalr (gAt w 21) (gAt w 16) (BitVec.ofNat 16 (w)))
  | 0x29 => decodeSys w
  | 0x2A => legal (fld w 12 9 = 0) (.mfs (gAt w 21) (BitVec.ofNat 12 (w)))
  | 0x2B => decodeMts w
  | 0x2C => decodeSync w
  | 0x2D => decodeSend w
  | 0x2E => legal (fld w 16 10 = 0) (.cwait (m5At w 12) (m5At w 8) (m5At w 4) (m5At w 0))
  | 0x30 => decodeSetvl w
  | 0x31 => decodeVint w
  | 0x32 => decodeVintx w
  | 0x33 => decodeVcmp w
  | 0x34 => decodeVfp w
  | 0x35 => decodeVfpx w
  | 0x36 => .ok (.vfma (vAt w 21) (vAt w 16) (vAt w 11) (vAt w 6) (m3At w 3) (m3At w 0))
  | 0x37 => .ok (.vfnma (vAt w 21) (vAt w 16) (vAt w 11) (vAt w 6) (m3At w 3) (m3At w 0))
  | 0x38 => .ok (.vima (vAt w 21) (vAt w 16) (vAt w 11) (vAt w 6) (m3At w 3) (m3At w 0))
  | 0x39 => .ok (.vplstep (vAt w 21) (vAt w 16) (vAt w 11) (vAt w 6) (m3At w 3) (m3At w 0))
  | 0x3A => decodeVred w
  | 0x3B => decodeVperm w
  | 0x3C => decodeVmask w
  | 0x3D => decodeVld w
  | 0x3E => decodeVst w
  | 0x3F => decodeTile w
  | _ => .error .illegalMajor

/-! The words of the instructions, written from the same encodings (R52 to R78), as numbers. -/

/-- A word `rest` with the value `v` placed at bit `lo`. -/
def put (v lo rest : Nat) : Nat := v * 2 ^ lo + rest

def wordAdd (d a b : GReg) : Nat := (put d.val 21 (put a.val 16 (put b.val 11 0x04000000)))
def wordSub (d a b : GReg) : Nat := (put d.val 21 (put a.val 16 (put b.val 11 0x04000001)))
def wordAnd (d a b : GReg) : Nat := (put d.val 21 (put a.val 16 (put b.val 11 0x04000002)))
def wordOr (d a b : GReg) : Nat := (put d.val 21 (put a.val 16 (put b.val 11 0x04000003)))
def wordXor (d a b : GReg) : Nat := (put d.val 21 (put a.val 16 (put b.val 11 0x04000004)))
def wordAndn (d a b : GReg) : Nat := (put d.val 21 (put a.val 16 (put b.val 11 0x04000005)))
def wordSll (d a b : GReg) : Nat := (put d.val 21 (put a.val 16 (put b.val 11 0x04000006)))
def wordSrl (d a b : GReg) : Nat := (put d.val 21 (put a.val 16 (put b.val 11 0x04000007)))
def wordSra (d a b : GReg) : Nat := (put d.val 21 (put a.val 16 (put b.val 11 0x04000008)))
def wordRol (d a b : GReg) : Nat := (put d.val 21 (put a.val 16 (put b.val 11 0x04000009)))
def wordRor (d a b : GReg) : Nat := (put d.val 21 (put a.val 16 (put b.val 11 0x0400000A)))
def wordSlt (d a b : GReg) : Nat := (put d.val 21 (put a.val 16 (put b.val 11 0x0400000B)))
def wordSltu (d a b : GReg) : Nat := (put d.val 21 (put a.val 16 (put b.val 11 0x0400000C)))
def wordMin (d a b : GReg) : Nat := (put d.val 21 (put a.val 16 (put b.val 11 0x0400000D)))
def wordMax (d a b : GReg) : Nat := (put d.val 21 (put a.val 16 (put b.val 11 0x0400000E)))
def wordMinu (d a b : GReg) : Nat := (put d.val 21 (put a.val 16 (put b.val 11 0x0400000F)))
def wordMaxu (d a b : GReg) : Nat := (put d.val 21 (put a.val 16 (put b.val 11 0x04000010)))
def wordMul (d a b : GReg) : Nat := (put d.val 21 (put a.val 16 (put b.val 11 0x04000011)))
def wordMulh (d a b : GReg) : Nat := (put d.val 21 (put a.val 16 (put b.val 11 0x04000012)))
def wordMulhu (d a b : GReg) : Nat := (put d.val 21 (put a.val 16 (put b.val 11 0x04000013)))
def wordDiv (d a b : GReg) : Nat := (put d.val 21 (put a.val 16 (put b.val 11 0x04000014)))
def wordDivu (d a b : GReg) : Nat := (put d.val 21 (put a.val 16 (put b.val 11 0x04000015)))
def wordRem (d a b : GReg) : Nat := (put d.val 21 (put a.val 16 (put b.val 11 0x04000016)))
def wordRemu (d a b : GReg) : Nat := (put d.val 21 (put a.val 16 (put b.val 11 0x04000017)))
def wordClz (d a : GReg) : Nat := (put d.val 21 (put a.val 16 0x04000018))
def wordCtz (d a : GReg) : Nat := (put d.val 21 (put a.val 16 0x04000019))
def wordPopc (d a : GReg) : Nat := (put d.val 21 (put a.val 16 0x0400001A))
def wordMovz (d a b : GReg) : Nat := (put d.val 21 (put a.val 16 (put b.val 11 0x0400001B)))
def wordMovn (d a b : GReg) : Nat := (put d.val 21 (put a.val 16 (put b.val 11 0x0400001C)))
def wordAddw (d a b : GReg) : Nat := (put d.val 21 (put a.val 16 (put b.val 11 0x0400001D)))
def wordSubw (d a b : GReg) : Nat := (put d.val 21 (put a.val 16 (put b.val 11 0x0400001E)))
def wordBswap (d a : GReg) : Nat := (put d.val 21 (put a.val 16 0x0400001F))
def wordAddi (d a : GReg) (imm : BitVec 16) : Nat := (put d.val 21 (put a.val 16 (put imm.toNat 0 0x08000000)))
def wordAndi (d a : GReg) (imm : BitVec 16) : Nat := (put d.val 21 (put a.val 16 (put imm.toNat 0 0x0C000000)))
def wordOri (d a : GReg) (imm : BitVec 16) : Nat := (put d.val 21 (put a.val 16 (put imm.toNat 0 0x10000000)))
def wordXori (d a : GReg) (imm : BitVec 16) : Nat := (put d.val 21 (put a.val 16 (put imm.toNat 0 0x14000000)))
def wordSlti (d a : GReg) (imm : BitVec 16) : Nat := (put d.val 21 (put a.val 16 (put imm.toNat 0 0x18000000)))
def wordSltiu (d a : GReg) (imm : BitVec 16) : Nat := (put d.val 21 (put a.val 16 (put imm.toNat 0 0x1C000000)))
def wordSlli (d a : GReg) (sh : BitVec 6) : Nat := (put d.val 21 (put a.val 16 (put sh.toNat 10 0x20000000)))
def wordSrli (d a : GReg) (sh : BitVec 6) : Nat := (put d.val 21 (put a.val 16 (put sh.toNat 10 0x20000001)))
def wordSrai (d a : GReg) (sh : BitVec 6) : Nat := (put d.val 21 (put a.val 16 (put sh.toNat 10 0x20000002)))
def wordRori (d a : GReg) (sh : BitVec 6) : Nat := (put d.val 21 (put a.val 16 (put sh.toNat 10 0x20000003)))
def wordLih (d : GReg) (imm : BitVec 16) : Nat := (put d.val 21 (put imm.toNat 0 0x24000000))
def wordAddpc (d : GReg) (imm : BitVec 16) : Nat := (put d.val 21 (put imm.toNat 0 0x28000000))
def wordShori (d a : GReg) (imm : BitVec 16) : Nat := (put d.val 21 (put a.val 16 (put imm.toNat 0 0x2C000000)))
def wordFadd (d a b : GReg) (sz : FpSize) (rm : ScalarRm) : Nat := (put d.val 21 (put a.val 16 (put b.val 11 (put sz.code 2 (put rm.code 0 0x30000000)))))
def wordFsub (d a b : GReg) (sz : FpSize) (rm : ScalarRm) : Nat := (put d.val 21 (put a.val 16 (put b.val 11 (put sz.code 2 (put rm.code 0 0x30000010)))))
def wordFmul (d a b : GReg) (sz : FpSize) (rm : ScalarRm) : Nat := (put d.val 21 (put a.val 16 (put b.val 11 (put sz.code 2 (put rm.code 0 0x30000020)))))
def wordFdiv (d a b : GReg) (sz : FpSize) (rm : ScalarRm) : Nat := (put d.val 21 (put a.val 16 (put b.val 11 (put sz.code 2 (put rm.code 0 0x30000030)))))
def wordFsqrt (d a : GReg) (sz : FpSize) (rm : ScalarRm) : Nat := (put d.val 21 (put a.val 16 (put sz.code 2 (put rm.code 0 0x30000040))))
def wordFmin (d a b : GReg) (sz : FpSize) : Nat := (put d.val 21 (put a.val 16 (put b.val 11 (put sz.code 2 0x30000050))))
def wordFmax (d a b : GReg) (sz : FpSize) : Nat := (put d.val 21 (put a.val 16 (put b.val 11 (put sz.code 2 0x30000060))))
def wordFceq (d a b : GReg) (sz : FpSize) : Nat := (put d.val 21 (put a.val 16 (put b.val 11 (put sz.code 2 0x30000070))))
def wordFclt (d a b : GReg) (sz : FpSize) : Nat := (put d.val 21 (put a.val 16 (put b.val 11 (put sz.code 2 0x30000080))))
def wordFcle (d a b : GReg) (sz : FpSize) : Nat := (put d.val 21 (put a.val 16 (put b.val 11 (put sz.code 2 0x30000090))))
def wordFclass (d a : GReg) (sz : FpSize) : Nat := (put d.val 21 (put a.val 16 (put sz.code 2 0x300000A0)))
def wordFcvti (d a : GReg) (sz : FpSize) (rm : ScalarRm) : Nat := (put d.val 21 (put a.val 16 (put sz.code 2 (put rm.code 0 0x300000B0))))
def wordFcvtf (d a : GReg) (sz : FpSize) (rm : ScalarRm) : Nat := (put d.val 21 (put a.val 16 (put sz.code 2 (put rm.code 0 0x300000C0))))
def wordFcvtff (d a : GReg) (src sz : FpSize) (rm : ScalarRm) : Nat := (put d.val 21 (put a.val 16 (put src.code 11 (put sz.code 2 (put rm.code 0 0x300000D0)))))
def wordFneg (d a : GReg) (sz : FpSize) : Nat := (put d.val 21 (put a.val 16 (put sz.code 2 0x300000E0)))
def wordFabs (d a : GReg) (sz : FpSize) : Nat := (put d.val 21 (put a.val 16 (put sz.code 2 0x300000F0)))
def wordFma (d a b c : GReg) (sz : FpSize) (rm : ScalarRm) (np na : Bool) : Nat := (put d.val 21 (put a.val 16 (put b.val 11 (put c.val 6 (put sz.code 4 (put rm.code 2 (put (bit np) 0 (put (bit na) 1 0x34000000))))))))
def wordLb (d a : GReg) (imm : BitVec 16) : Nat := (put d.val 21 (put a.val 16 (put imm.toNat 0 0x40000000)))
def wordLh (d a : GReg) (imm : BitVec 16) : Nat := (put d.val 21 (put a.val 16 (put imm.toNat 0 0x44000000)))
def wordLw (d a : GReg) (imm : BitVec 16) : Nat := (put d.val 21 (put a.val 16 (put imm.toNat 0 0x48000000)))
def wordLd (d a : GReg) (imm : BitVec 16) : Nat := (put d.val 21 (put a.val 16 (put imm.toNat 0 0x4C000000)))
def wordLbu (d a : GReg) (imm : BitVec 16) : Nat := (put d.val 21 (put a.val 16 (put imm.toNat 0 0x50000000)))
def wordLhu (d a : GReg) (imm : BitVec 16) : Nat := (put d.val 21 (put a.val 16 (put imm.toNat 0 0x54000000)))
def wordLwu (d a : GReg) (imm : BitVec 16) : Nat := (put d.val 21 (put a.val 16 (put imm.toNat 0 0x58000000)))
def wordSb (c a : GReg) (imm : BitVec 16) : Nat := (put c.val 21 (put a.val 16 (put imm.toNat 0 0x60000000)))
def wordSh (c a : GReg) (imm : BitVec 16) : Nat := (put c.val 21 (put a.val 16 (put imm.toNat 0 0x64000000)))
def wordSw (c a : GReg) (imm : BitVec 16) : Nat := (put c.val 21 (put a.val 16 (put imm.toNat 0 0x68000000)))
def wordSd (c a : GReg) (imm : BitVec 16) : Nat := (put c.val 21 (put a.val 16 (put imm.toNat 0 0x6C000000)))
def wordLr (d a : GReg) (dw acq : Bool) (sc : Scope) : Nat := (put d.val 21 (put a.val 16 (put (bit dw) 6 (put (bit acq) 5 (put sc.code 1 0x70000000)))))
def wordSc (d a b : GReg) (dw rel : Bool) (sc : Scope) : Nat := (put d.val 21 (put a.val 16 (put b.val 11 (put (bit dw) 6 (put (bit rel) 4 (put sc.code 1 0x70000080))))))
def wordAmoswap (d a b : GReg) (dw acq rel : Bool) (sc : Scope) : Nat := (put d.val 21 (put a.val 16 (put b.val 11 (put (bit dw) 6 (put (bit acq) 5 (put (bit rel) 4 (put sc.code 1 0x70000100)))))))
def wordAmoadd (d a b : GReg) (dw acq rel : Bool) (sc : Scope) : Nat := (put d.val 21 (put a.val 16 (put b.val 11 (put (bit dw) 6 (put (bit acq) 5 (put (bit rel) 4 (put sc.code 1 0x70000180)))))))
def wordAmoand (d a b : GReg) (dw acq rel : Bool) (sc : Scope) : Nat := (put d.val 21 (put a.val 16 (put b.val 11 (put (bit dw) 6 (put (bit acq) 5 (put (bit rel) 4 (put sc.code 1 0x70000200)))))))
def wordAmoor (d a b : GReg) (dw acq rel : Bool) (sc : Scope) : Nat := (put d.val 21 (put a.val 16 (put b.val 11 (put (bit dw) 6 (put (bit acq) 5 (put (bit rel) 4 (put sc.code 1 0x70000280)))))))
def wordAmoxor (d a b : GReg) (dw acq rel : Bool) (sc : Scope) : Nat := (put d.val 21 (put a.val 16 (put b.val 11 (put (bit dw) 6 (put (bit acq) 5 (put (bit rel) 4 (put sc.code 1 0x70000300)))))))
def wordAmomin (d a b : GReg) (dw acq rel : Bool) (sc : Scope) : Nat := (put d.val 21 (put a.val 16 (put b.val 11 (put (bit dw) 6 (put (bit acq) 5 (put (bit rel) 4 (put sc.code 1 0x70000380)))))))
def wordAmomax (d a b : GReg) (dw acq rel : Bool) (sc : Scope) : Nat := (put d.val 21 (put a.val 16 (put b.val 11 (put (bit dw) 6 (put (bit acq) 5 (put (bit rel) 4 (put sc.code 1 0x70000400)))))))
def wordAmominu (d a b : GReg) (dw acq rel : Bool) (sc : Scope) : Nat := (put d.val 21 (put a.val 16 (put b.val 11 (put (bit dw) 6 (put (bit acq) 5 (put (bit rel) 4 (put sc.code 1 0x70000480)))))))
def wordAmomaxu (d a b : GReg) (dw acq rel : Bool) (sc : Scope) : Nat := (put d.val 21 (put a.val 16 (put b.val 11 (put (bit dw) 6 (put (bit acq) 5 (put (bit rel) 4 (put sc.code 1 0x70000500)))))))
def wordAmocas (d a b : GReg) (dw acq rel : Bool) (sc : Scope) : Nat := (put d.val 21 (put a.val 16 (put b.val 11 (put (bit dw) 6 (put (bit acq) 5 (put (bit rel) 4 (put sc.code 1 0x70000580)))))))
def wordLdacq (d a : GReg) (dw : Bool) (sc : Scope) : Nat := (put d.val 21 (put a.val 16 (put (bit dw) 6 (put sc.code 1 0x70000600))))
def wordStrel (a b : GReg) (dw : Bool) (sc : Scope) : Nat := (put a.val 16 (put b.val 11 (put (bit dw) 6 (put sc.code 1 0x70000680))))
def wordFence (ifetch eng : Bool) (sc : Scope) (pl ps ll ls : Bool) : Nat := (put (bit ifetch) 8 (put (bit eng) 7 (put sc.code 4 (put (bit pl) 0 (put (bit ps) 1 (put (bit ll) 2 (put (bit ls) 3 0x74000000)))))))
def wordCinv (a b : GReg) : Nat := (put a.val 16 (put b.val 11 0x78000000))
def wordCflush (a b : GReg) : Nat := (put a.val 16 (put b.val 11 0x78000001))
def wordCclean (a b : GReg) : Nat := (put a.val 16 (put b.val 11 0x78000002))
def wordCzero (a b : GReg) : Nat := (put a.val 16 (put b.val 11 0x78000003))
def wordCpfr (a b : GReg) : Nat := (put a.val 16 (put b.val 11 0x78000004))
def wordCpfw (a b : GReg) : Nat := (put a.val 16 (put b.val 11 0x78000005))
def wordIflush (a b : GReg) : Nat := (put a.val 16 (put b.val 11 0x78000006))
def wordBeq (c a : GReg) (off : BitVec 16) : Nat := (put c.val 21 (put a.val 16 (put off.toNat 0 0x80000000)))
def wordBne (c a : GReg) (off : BitVec 16) : Nat := (put c.val 21 (put a.val 16 (put off.toNat 0 0x84000000)))
def wordBlt (c a : GReg) (off : BitVec 16) : Nat := (put c.val 21 (put a.val 16 (put off.toNat 0 0x88000000)))
def wordBge (c a : GReg) (off : BitVec 16) : Nat := (put c.val 21 (put a.val 16 (put off.toNat 0 0x8C000000)))
def wordBltu (c a : GReg) (off : BitVec 16) : Nat := (put c.val 21 (put a.val 16 (put off.toNat 0 0x90000000)))
def wordBgeu (c a : GReg) (off : BitVec 16) : Nat := (put c.val 21 (put a.val 16 (put off.toNat 0 0x94000000)))
def wordJ (off : BitVec 26) : Nat := (put off.toNat 0 0x98000000)
def wordJal (off : BitVec 26) : Nat := (put off.toNat 0 0x9C000000)
def wordJalr (d a : GReg) (imm : BitVec 16) : Nat := (put d.val 21 (put a.val 16 (put imm.toNat 0 0xA0000000)))
def wordTrap (code : BitVec 5) : Nat := (put code.toNat 11 0xA4000000)
def wordBrk : Nat := 0xA4000001
def wordEret : Nat := 0xA4000002
def wordWfi : Nat := 0xA4000003
def wordYield : Nat := 0xA4000004
def wordTlbinv (a b : GReg) (sc : Scope) : Nat := (put a.val 16 (put b.val 11 (put sc.code 6 0xA4000005)))
def wordTlbsync : Nat := 0xA4000006
def wordMfs (d : GReg) (num : BitVec 12) : Nat := (put d.val 21 (put num.toNat 0 0xA8000000))
def wordMts (a : GReg) (num : BitVec 12) : Nat := (put a.val 16 (put num.toNat 0 0xAC000000))
def wordMtsStatus (a : GReg) : Nat := (put a.val 16 0xAC000000)
def wordMtsVl (a : GReg) : Nat := (put a.val 16 0xAC000010)
def wordMtsVtype (a : GReg) : Nat := (put a.val 16 0xAC000011)
def wordMtsVcap (a : GReg) : Nat := (put a.val 16 0xAC000015)
def wordMtsMember (a : GReg) : Nat := (put a.val 16 0xAC00000A)
def wordMtsTctl (a : GReg) : Nat := (put a.val 16 0xAC000020)
def wordMtsTstat (a : GReg) : Nat := (put a.val 16 0xAC000021)
def wordMtsCntc (a : GReg) : Nat := (put a.val 16 0xAC000032)
def wordMtsYctl (a : GReg) : Nat := (put a.val 16 0xAC000038)
def wordMtsSpcfg (a : GReg) : Nat := (put a.val 16 0xAC000040)
def wordGbar (d a : GReg) (id : Fin 32) (sc : BarScope) (comb : Comb) : Nat := (put d.val 21 (put a.val 16 (put id.val 11 (put sc.code 3 (put comb.code 0 0xB0000000)))))
def wordGarrive (d : GReg) (id : Fin 32) (sc : BarScope) : Nat := (put d.val 21 (put id.val 11 (put sc.code 3 0xB0000040)))
def wordGwait (a : GReg) (id : Fin 32) (sc : BarScope) : Nat := (put a.val 16 (put id.val 11 (put sc.code 3 0xB0000080)))
def wordChwait (ch : Fin 16) : Nat := (put ch.val 16 0xB00000C0)
def wordChrecv (dq : Fin 8) (ch : Fin 16) : Nat := (put dq.val 23 (put ch.val 11 0xB0000100))
def wordChpost (aq : Fin 8) (b : GReg) : Nat := (put aq.val 18 (put b.val 11 0xB0000140))
def wordBcpost (a : GReg) (id : Fin 16) : Nat := (put a.val 16 (put id.val 11 0xB0000180))
def wordBcwait (id : Fin 16) : Nat := (put id.val 11 0xB00001C0)
def wordBcread (d : GReg) (id : Fin 16) : Nat := (put d.val 21 (put id.val 11 0xB0000200))
def wordBcclr (id : Fin 16) : Nat := (put id.val 11 0xB0000240)
def wordSendStrmCopy (d a : GReg) : Nat := (put d.val 21 (put a.val 16 0xB4000000))
def wordSendStrmGather (d a : GReg) : Nat := (put d.val 21 (put a.val 16 0xB4000001))
def wordSendStrmScatter (d a : GReg) : Nat := (put d.val 21 (put a.val 16 0xB4000002))
def wordSendStrmFill (d a : GReg) : Nat := (put d.val 21 (put a.val 16 0xB4000003))
def wordSendStrmUnz (d a : GReg) : Nat := (put d.val 21 (put a.val 16 0xB4000004))
def wordSendStrmPlane (d a : GReg) : Nat := (put d.val 21 (put a.val 16 0xB4000005))
def wordSendWeaveLoad (d a : GReg) : Nat := (put d.val 21 (put a.val 16 0xB4000040))
def wordSendWeaveRun (d a : GReg) : Nat := (put d.val 21 (put a.val 16 0xB4000041))
def wordSendCollBmax (d a b : GReg) : Nat := (put d.val 21 (put a.val 16 (put b.val 11 0xB4000080)))
def wordSendCollIsum (d a b : GReg) : Nat := (put d.val 21 (put a.val 16 (put b.val 11 0xB4000081)))
def wordSendCollFsum (d a b : GReg) : Nat := (put d.val 21 (put a.val 16 (put b.val 11 0xB4000082)))
def wordSendCollBcast (d a b : GReg) : Nat := (put d.val 21 (put a.val 16 (put b.val 11 0xB4000083)))
def wordSendCollOr (d a b : GReg) : Nat := (put d.val 21 (put a.val 16 (put b.val 11 0xB4000084)))
def wordSendTendCall (d a b : GReg) : Nat := (put d.val 21 (put a.val 16 (put b.val 11 0xB40000C0)))
def wordSendLnchGang (d a : GReg) : Nat := (put d.val 21 (put a.val 16 0xB4000100))
def wordCwait (bL bS bC bT : Fin 16) : Nat := (put bL.val 12 (put bS.val 8 (put bC.val 4 (put bT.val 0 0xB8000000))))
def wordSetvl (d a : GReg) (es grp : Fin 4) (dead : BitVec 8) (y : Bool) : Nat := (put d.val 21 (put a.val 16 (put es.val 14 (put grp.val 12 (put dead.toNat 4 (put (bit y) 3 0xC0000000))))))
def wordSetvlA (d a : GReg) (es grp : Fin 4) (dead : BitVec 8) (y : Bool) : Nat := (put d.val 21 (put a.val 16 (put es.val 14 (put grp.val 12 (put dead.toNat 4 (put (bit y) 3 0xC0000001))))))
def wordSetvlmax (d : GReg) (es grp : Fin 4) (dead : BitVec 8) (y : Bool) : Nat := (put d.val 21 (put es.val 14 (put grp.val 12 (put dead.toNat 4 (put (bit y) 3 0xC0000002)))))
def wordSetvlmaxA (d : GReg) (es grp : Fin 4) (dead : BitVec 8) (y : Bool) : Nat := (put d.val 21 (put es.val 14 (put grp.val 12 (put dead.toNat 4 (put (bit y) 3 0xC0000003)))))
def wordVadd (d a b : VReg) (mk : MaskSel) : Nat := (put d.val 21 (put a.val 16 (put b.val 11 (put mk.val 8 0xC4000000))))
def wordVsub (d a b : VReg) (mk : MaskSel) : Nat := (put d.val 21 (put a.val 16 (put b.val 11 (put mk.val 8 0xC4000001))))
def wordVmul (d a b : VReg) (mk : MaskSel) : Nat := (put d.val 21 (put a.val 16 (put b.val 11 (put mk.val 8 0xC4000002))))
def wordVmulh (d a b : VReg) (mk : MaskSel) : Nat := (put d.val 21 (put a.val 16 (put b.val 11 (put mk.val 8 0xC4000003))))
def wordVmulhu (d a b : VReg) (mk : MaskSel) : Nat := (put d.val 21 (put a.val 16 (put b.val 11 (put mk.val 8 0xC4000004))))
def wordVmin (d a b : VReg) (mk : MaskSel) : Nat := (put d.val 21 (put a.val 16 (put b.val 11 (put mk.val 8 0xC4000005))))
def wordVmax (d a b : VReg) (mk : MaskSel) : Nat := (put d.val 21 (put a.val 16 (put b.val 11 (put mk.val 8 0xC4000006))))
def wordVminu (d a b : VReg) (mk : MaskSel) : Nat := (put d.val 21 (put a.val 16 (put b.val 11 (put mk.val 8 0xC4000007))))
def wordVmaxu (d a b : VReg) (mk : MaskSel) : Nat := (put d.val 21 (put a.val 16 (put b.val 11 (put mk.val 8 0xC4000008))))
def wordVand (d a b : VReg) (mk : MaskSel) : Nat := (put d.val 21 (put a.val 16 (put b.val 11 (put mk.val 8 0xC4000009))))
def wordVor (d a b : VReg) (mk : MaskSel) : Nat := (put d.val 21 (put a.val 16 (put b.val 11 (put mk.val 8 0xC400000A))))
def wordVxor (d a b : VReg) (mk : MaskSel) : Nat := (put d.val 21 (put a.val 16 (put b.val 11 (put mk.val 8 0xC400000B))))
def wordVshl (d a b : VReg) (mk : MaskSel) : Nat := (put d.val 21 (put a.val 16 (put b.val 11 (put mk.val 8 0xC400000C))))
def wordVshr (d a b : VReg) (mk : MaskSel) : Nat := (put d.val 21 (put a.val 16 (put b.val 11 (put mk.val 8 0xC400000D))))
def wordVsra (d a b : VReg) (mk : MaskSel) : Nat := (put d.val 21 (put a.val 16 (put b.val 11 (put mk.val 8 0xC400000E))))
def wordVadds (d a b : VReg) (mk : MaskSel) : Nat := (put d.val 21 (put a.val 16 (put b.val 11 (put mk.val 8 0xC400000F))))
def wordVaddsu (d a b : VReg) (mk : MaskSel) : Nat := (put d.val 21 (put a.val 16 (put b.val 11 (put mk.val 8 0xC4000010))))
def wordVsubs (d a b : VReg) (mk : MaskSel) : Nat := (put d.val 21 (put a.val 16 (put b.val 11 (put mk.val 8 0xC4000011))))
def wordVsubsu (d a b : VReg) (mk : MaskSel) : Nat := (put d.val 21 (put a.val 16 (put b.val 11 (put mk.val 8 0xC4000012))))
def wordVavg (d a b : VReg) (mk : MaskSel) : Nat := (put d.val 21 (put a.val 16 (put b.val 11 (put mk.val 8 0xC4000013))))
def wordVabsd (d a b : VReg) (mk : MaskSel) : Nat := (put d.val 21 (put a.val 16 (put b.val 11 (put mk.val 8 0xC4000014))))
def wordVnarrow (d a : VReg) (mk : MaskSel) (fr : FmtSel) : Nat := (put d.val 21 (put a.val 16 (put mk.val 8 (put fr.val 5 0xC4000015))))
def wordVaddVx (d a : VReg) (b : GReg) (mk : MaskSel) : Nat := (put d.val 21 (put a.val 16 (put b.val 11 (put mk.val 8 0xC8000000))))
def wordVsubVx (d a : VReg) (b : GReg) (mk : MaskSel) : Nat := (put d.val 21 (put a.val 16 (put b.val 11 (put mk.val 8 0xC8000001))))
def wordVmulVx (d a : VReg) (b : GReg) (mk : MaskSel) : Nat := (put d.val 21 (put a.val 16 (put b.val 11 (put mk.val 8 0xC8000002))))
def wordVmulhVx (d a : VReg) (b : GReg) (mk : MaskSel) : Nat := (put d.val 21 (put a.val 16 (put b.val 11 (put mk.val 8 0xC8000003))))
def wordVmulhuVx (d a : VReg) (b : GReg) (mk : MaskSel) : Nat := (put d.val 21 (put a.val 16 (put b.val 11 (put mk.val 8 0xC8000004))))
def wordVminVx (d a : VReg) (b : GReg) (mk : MaskSel) : Nat := (put d.val 21 (put a.val 16 (put b.val 11 (put mk.val 8 0xC8000005))))
def wordVmaxVx (d a : VReg) (b : GReg) (mk : MaskSel) : Nat := (put d.val 21 (put a.val 16 (put b.val 11 (put mk.val 8 0xC8000006))))
def wordVminuVx (d a : VReg) (b : GReg) (mk : MaskSel) : Nat := (put d.val 21 (put a.val 16 (put b.val 11 (put mk.val 8 0xC8000007))))
def wordVmaxuVx (d a : VReg) (b : GReg) (mk : MaskSel) : Nat := (put d.val 21 (put a.val 16 (put b.val 11 (put mk.val 8 0xC8000008))))
def wordVandVx (d a : VReg) (b : GReg) (mk : MaskSel) : Nat := (put d.val 21 (put a.val 16 (put b.val 11 (put mk.val 8 0xC8000009))))
def wordVorVx (d a : VReg) (b : GReg) (mk : MaskSel) : Nat := (put d.val 21 (put a.val 16 (put b.val 11 (put mk.val 8 0xC800000A))))
def wordVxorVx (d a : VReg) (b : GReg) (mk : MaskSel) : Nat := (put d.val 21 (put a.val 16 (put b.val 11 (put mk.val 8 0xC800000B))))
def wordVshlVx (d a : VReg) (b : GReg) (mk : MaskSel) : Nat := (put d.val 21 (put a.val 16 (put b.val 11 (put mk.val 8 0xC800000C))))
def wordVshrVx (d a : VReg) (b : GReg) (mk : MaskSel) : Nat := (put d.val 21 (put a.val 16 (put b.val 11 (put mk.val 8 0xC800000D))))
def wordVsraVx (d a : VReg) (b : GReg) (mk : MaskSel) : Nat := (put d.val 21 (put a.val 16 (put b.val 11 (put mk.val 8 0xC800000E))))
def wordVaddsVx (d a : VReg) (b : GReg) (mk : MaskSel) : Nat := (put d.val 21 (put a.val 16 (put b.val 11 (put mk.val 8 0xC800000F))))
def wordVaddsuVx (d a : VReg) (b : GReg) (mk : MaskSel) : Nat := (put d.val 21 (put a.val 16 (put b.val 11 (put mk.val 8 0xC8000010))))
def wordVsubsVx (d a : VReg) (b : GReg) (mk : MaskSel) : Nat := (put d.val 21 (put a.val 16 (put b.val 11 (put mk.val 8 0xC8000011))))
def wordVsubsuVx (d a : VReg) (b : GReg) (mk : MaskSel) : Nat := (put d.val 21 (put a.val 16 (put b.val 11 (put mk.val 8 0xC8000012))))
def wordVavgVx (d a : VReg) (b : GReg) (mk : MaskSel) : Nat := (put d.val 21 (put a.val 16 (put b.val 11 (put mk.val 8 0xC8000013))))
def wordVabsdVx (d a : VReg) (b : GReg) (mk : MaskSel) : Nat := (put d.val 21 (put a.val 16 (put b.val 11 (put mk.val 8 0xC8000014))))
def wordVceq (d : MReg) (a b : VReg) (mk : MaskSel) : Nat := (put d.val 21 (put a.val 16 (put b.val 11 (put mk.val 8 0xCC000000))))
def wordVcne (d : MReg) (a b : VReg) (mk : MaskSel) : Nat := (put d.val 21 (put a.val 16 (put b.val 11 (put mk.val 8 0xCC000001))))
def wordVclt (d : MReg) (a b : VReg) (mk : MaskSel) : Nat := (put d.val 21 (put a.val 16 (put b.val 11 (put mk.val 8 0xCC000002))))
def wordVcle (d : MReg) (a b : VReg) (mk : MaskSel) : Nat := (put d.val 21 (put a.val 16 (put b.val 11 (put mk.val 8 0xCC000003))))
def wordVcltu (d : MReg) (a b : VReg) (mk : MaskSel) : Nat := (put d.val 21 (put a.val 16 (put b.val 11 (put mk.val 8 0xCC000004))))
def wordVcleu (d : MReg) (a b : VReg) (mk : MaskSel) : Nat := (put d.val 21 (put a.val 16 (put b.val 11 (put mk.val 8 0xCC000005))))
def wordVmerge (d a b : VReg) (mk : MaskSel) : Nat := (put d.val 21 (put a.val 16 (put b.val 11 (put mk.val 8 0xCC000006))))
def wordVfceq (d : MReg) (a b : VReg) (mk : MaskSel) (fr : FmtSel) : Nat := (put d.val 21 (put a.val 16 (put b.val 11 (put mk.val 8 (put fr.val 5 0xCC000007)))))
def wordVfclt (d : MReg) (a b : VReg) (mk : MaskSel) (fr : FmtSel) : Nat := (put d.val 21 (put a.val 16 (put b.val 11 (put mk.val 8 (put fr.val 5 0xCC000008)))))
def wordVfcle (d : MReg) (a b : VReg) (mk : MaskSel) (fr : FmtSel) : Nat := (put d.val 21 (put a.val 16 (put b.val 11 (put mk.val 8 (put fr.val 5 0xCC000009)))))
def wordVfcun (d : MReg) (a b : VReg) (mk : MaskSel) (fr : FmtSel) : Nat := (put d.val 21 (put a.val 16 (put b.val 11 (put mk.val 8 (put fr.val 5 0xCC00000A)))))
def wordVfclass (d a : VReg) (mk : MaskSel) (fr : FmtSel) : Nat := (put d.val 21 (put a.val 16 (put mk.val 8 (put fr.val 5 0xCC00000B))))
def wordVfadd (d a b : VReg) (mk : MaskSel) (fr : FmtSel) : Nat := (put d.val 21 (put a.val 16 (put b.val 11 (put mk.val 8 (put fr.val 5 0xD0000000)))))
def wordVfsub (d a b : VReg) (mk : MaskSel) (fr : FmtSel) : Nat := (put d.val 21 (put a.val 16 (put b.val 11 (put mk.val 8 (put fr.val 5 0xD0000001)))))
def wordVfmul (d a b : VReg) (mk : MaskSel) (fr : FmtSel) : Nat := (put d.val 21 (put a.val 16 (put b.val 11 (put mk.val 8 (put fr.val 5 0xD0000002)))))
def wordVfdiv (d a b : VReg) (mk : MaskSel) (fr : FmtSel) : Nat := (put d.val 21 (put a.val 16 (put b.val 11 (put mk.val 8 (put fr.val 5 0xD0000003)))))
def wordVfsqrt (d a : VReg) (mk : MaskSel) (fr : FmtSel) : Nat := (put d.val 21 (put a.val 16 (put mk.val 8 (put fr.val 5 0xD0000004))))
def wordVfmin (d a b : VReg) (mk : MaskSel) (fr : FmtSel) : Nat := (put d.val 21 (put a.val 16 (put b.val 11 (put mk.val 8 (put fr.val 5 0xD0000005)))))
def wordVfmax (d a b : VReg) (mk : MaskSel) (fr : FmtSel) : Nat := (put d.val 21 (put a.val 16 (put b.val 11 (put mk.val 8 (put fr.val 5 0xD0000006)))))
def wordVfrcp (d a : VReg) (mk : MaskSel) (fr : FmtSel) : Nat := (put d.val 21 (put a.val 16 (put mk.val 8 (put fr.val 5 0xD0000007))))
def wordVfrsq (d a : VReg) (mk : MaskSel) (fr : FmtSel) : Nat := (put d.val 21 (put a.val 16 (put mk.val 8 (put fr.val 5 0xD0000008))))
def wordVfexp2 (d a : VReg) (mk : MaskSel) (fr : FmtSel) : Nat := (put d.val 21 (put a.val 16 (put mk.val 8 (put fr.val 5 0xD0000009))))
def wordVflog2 (d a : VReg) (mk : MaskSel) (fr : FmtSel) : Nat := (put d.val 21 (put a.val 16 (put mk.val 8 (put fr.val 5 0xD000000A))))
def wordVfcvt (d a b : VReg) (mk : MaskSel) (fr : FmtSel) : Nat := (put d.val 21 (put a.val 16 (put b.val 11 (put mk.val 8 (put fr.val 5 0xD000000B)))))
def wordVfnf (d : MReg) (a : VReg) (mk : MaskSel) (fr : FmtSel) : Nat := (put d.val 21 (put a.val 16 (put mk.val 8 (put fr.val 5 0xD000000C))))
def wordVfabs (d a : VReg) (mk : MaskSel) (fr : FmtSel) : Nat := (put d.val 21 (put a.val 16 (put mk.val 8 (put fr.val 5 0xD000000D))))
def wordVfneg (d a : VReg) (mk : MaskSel) (fr : FmtSel) : Nat := (put d.val 21 (put a.val 16 (put mk.val 8 (put fr.val 5 0xD000000E))))
def wordVfscale (d a b : VReg) (mk : MaskSel) (fr : FmtSel) : Nat := (put d.val 21 (put a.val 16 (put b.val 11 (put mk.val 8 (put fr.val 5 0xD000000F)))))
def wordVfaddVx (d a : VReg) (b : GReg) (mk : MaskSel) (fr : FmtSel) : Nat := (put d.val 21 (put a.val 16 (put b.val 11 (put mk.val 8 (put fr.val 5 0xD4000000)))))
def wordVfsubVx (d a : VReg) (b : GReg) (mk : MaskSel) (fr : FmtSel) : Nat := (put d.val 21 (put a.val 16 (put b.val 11 (put mk.val 8 (put fr.val 5 0xD4000001)))))
def wordVfmulVx (d a : VReg) (b : GReg) (mk : MaskSel) (fr : FmtSel) : Nat := (put d.val 21 (put a.val 16 (put b.val 11 (put mk.val 8 (put fr.val 5 0xD4000002)))))
def wordVfdivVx (d a : VReg) (b : GReg) (mk : MaskSel) (fr : FmtSel) : Nat := (put d.val 21 (put a.val 16 (put b.val 11 (put mk.val 8 (put fr.val 5 0xD4000003)))))
def wordVfsqrtVx (d a : VReg) (b : GReg) (mk : MaskSel) (fr : FmtSel) : Nat := (put d.val 21 (put a.val 16 (put b.val 11 (put mk.val 8 (put fr.val 5 0xD4000004)))))
def wordVfminVx (d a : VReg) (b : GReg) (mk : MaskSel) (fr : FmtSel) : Nat := (put d.val 21 (put a.val 16 (put b.val 11 (put mk.val 8 (put fr.val 5 0xD4000005)))))
def wordVfmaxVx (d a : VReg) (b : GReg) (mk : MaskSel) (fr : FmtSel) : Nat := (put d.val 21 (put a.val 16 (put b.val 11 (put mk.val 8 (put fr.val 5 0xD4000006)))))
def wordVfscaleVx (d a : VReg) (b : GReg) (mk : MaskSel) (fr : FmtSel) : Nat := (put d.val 21 (put a.val 16 (put b.val 11 (put mk.val 8 (put fr.val 5 0xD400000F)))))
def wordVfma (d a b c : VReg) (mk : MaskSel) (fr : FmtSel) : Nat := (put d.val 21 (put a.val 16 (put b.val 11 (put c.val 6 (put mk.val 3 (put fr.val 0 0xD8000000))))))
def wordVfnma (d a b c : VReg) (mk : MaskSel) (fr : FmtSel) : Nat := (put d.val 21 (put a.val 16 (put b.val 11 (put c.val 6 (put mk.val 3 (put fr.val 0 0xDC000000))))))
def wordVima (d a b c : VReg) (mk : MaskSel) (fr : FmtSel) : Nat := (put d.val 21 (put a.val 16 (put b.val 11 (put c.val 6 (put mk.val 3 (put fr.val 0 0xE0000000))))))
def wordVplstep (d a b c : VReg) (mk : MaskSel) (fr : FmtSel) : Nat := (put d.val 21 (put a.val 16 (put b.val 11 (put c.val 6 (put mk.val 3 (put fr.val 0 0xE4000000))))))
def wordVredsum (d a b : VReg) (mk : MaskSel) : Nat := (put d.val 21 (put a.val 16 (put b.val 11 (put mk.val 8 0xE8000000))))
def wordVredmax (d a b : VReg) (mk : MaskSel) : Nat := (put d.val 21 (put a.val 16 (put b.val 11 (put mk.val 8 0xE8000001))))
def wordVredmin (d a b : VReg) (mk : MaskSel) : Nat := (put d.val 21 (put a.val 16 (put b.val 11 (put mk.val 8 0xE8000002))))
def wordVredmaxu (d a b : VReg) (mk : MaskSel) : Nat := (put d.val 21 (put a.val 16 (put b.val 11 (put mk.val 8 0xE8000003))))
def wordVredminu (d a b : VReg) (mk : MaskSel) : Nat := (put d.val 21 (put a.val 16 (put b.val 11 (put mk.val 8 0xE8000004))))
def wordVredand (d a b : VReg) (mk : MaskSel) : Nat := (put d.val 21 (put a.val 16 (put b.val 11 (put mk.val 8 0xE8000005))))
def wordVredor (d a b : VReg) (mk : MaskSel) : Nat := (put d.val 21 (put a.val 16 (put b.val 11 (put mk.val 8 0xE8000006))))
def wordVredxor (d a b : VReg) (mk : MaskSel) : Nat := (put d.val 21 (put a.val 16 (put b.val 11 (put mk.val 8 0xE8000007))))
def wordVfredsum (d a b : VReg) (mk : MaskSel) (fr : FmtSel) : Nat := (put d.val 21 (put a.val 16 (put b.val 11 (put mk.val 8 (put fr.val 5 0xE8000008)))))
def wordVfredmax (d a b : VReg) (mk : MaskSel) (fr : FmtSel) : Nat := (put d.val 21 (put a.val 16 (put b.val 11 (put mk.val 8 (put fr.val 5 0xE8000009)))))
def wordVfredmin (d a b : VReg) (mk : MaskSel) (fr : FmtSel) : Nat := (put d.val 21 (put a.val 16 (put b.val 11 (put mk.val 8 (put fr.val 5 0xE800000A)))))
def wordVslideup (d a : VReg) (b : GReg) (mk : MaskSel) : Nat := (put d.val 21 (put a.val 16 (put b.val 11 (put mk.val 8 0xEC000000))))
def wordVslidedn (d a : VReg) (b : GReg) (mk : MaskSel) : Nat := (put d.val 21 (put a.val 16 (put b.val 11 (put mk.val 8 0xEC000001))))
def wordVgatherv (d a b : VReg) (mk : MaskSel) : Nat := (put d.val 21 (put a.val 16 (put b.val 11 (put mk.val 8 0xEC000002))))
def wordVcompress (d a : VReg) (mk : MaskSel) : Nat := (put d.val 21 (put a.val 16 (put mk.val 8 0xEC000003)))
def wordVexpand (d a : VReg) (mk : MaskSel) : Nat := (put d.val 21 (put a.val 16 (put mk.val 8 0xEC000004)))
def wordVbcast (d : VReg) (a : GReg) (mk : MaskSel) : Nat := (put d.val 21 (put a.val 16 (put mk.val 8 0xEC000005)))
def wordVext (d : GReg) (a : VReg) (b : GReg) : Nat := (put d.val 21 (put a.val 16 (put b.val 11 0xEC000006)))
def wordVins (d : VReg) (a b : GReg) : Nat := (put d.val 21 (put a.val 16 (put b.val 11 0xEC000007)))
def wordVid (d : VReg) (mk : MaskSel) : Nat := (put d.val 21 (put mk.val 8 0xEC000008))
def wordViota (d : VReg) (a : MReg) (mk : MaskSel) : Nat := (put d.val 21 (put a.val 16 (put mk.val 8 0xEC000009)))
def wordVzip (d a b : VReg) (mk : MaskSel) : Nat := (put d.val 21 (put a.val 16 (put b.val 11 (put mk.val 8 0xEC00000A))))
def wordVunzip (d a b : VReg) (mk : MaskSel) : Nat := (put d.val 21 (put a.val 16 (put b.val 11 (put mk.val 8 0xEC00000B))))
def wordVmov (d a : VReg) (mk : MaskSel) : Nat := (put d.val 21 (put a.val 16 (put mk.val 8 0xEC00000C)))
def wordVunpk (d a : VReg) (mk : MaskSel) (fr : FmtSel) : Nat := (put d.val 21 (put a.val 16 (put mk.val 8 (put fr.val 5 0xEC00000D))))
def wordVrand (d : VReg) (mk : MaskSel) (fr : FmtSel) : Nat := (put d.val 21 (put mk.val 8 (put fr.val 5 0xEC00000E)))
def wordVplhead (d a : VReg) (mk : MaskSel) (fr : FmtSel) : Nat := (put d.val 21 (put a.val 16 (put mk.val 8 (put fr.val 5 0xEC00000F))))
def wordVplresc (d a b : VReg) (mk : MaskSel) (fr : FmtSel) : Nat := (put d.val 21 (put a.val 16 (put b.val 11 (put mk.val 8 (put fr.val 5 0xEC000010)))))
def wordMand (d a b : MReg) : Nat := (put d.val 21 (put a.val 16 (put b.val 11 0xF0000000)))
def wordMor (d a b : MReg) : Nat := (put d.val 21 (put a.val 16 (put b.val 11 0xF0000001)))
def wordMxor (d a b : MReg) : Nat := (put d.val 21 (put a.val 16 (put b.val 11 0xF0000002)))
def wordMandn (d a b : MReg) : Nat := (put d.val 21 (put a.val 16 (put b.val 11 0xF0000003)))
def wordMnot (d a : MReg) : Nat := (put d.val 21 (put a.val 16 0xF0000004))
def wordMpopc (d : GReg) (a : MReg) (mk : MaskSel) : Nat := (put d.val 21 (put a.val 16 (put mk.val 8 0xF0000005)))
def wordMfirst (d : GReg) (a : MReg) (mk : MaskSel) : Nat := (put d.val 21 (put a.val 16 (put mk.val 8 0xF0000006)))
def wordMsbf (d a : MReg) (mk : MaskSel) : Nat := (put d.val 21 (put a.val 16 (put mk.val 8 0xF0000007)))
def wordMsif (d a : MReg) (mk : MaskSel) : Nat := (put d.val 21 (put a.val 16 (put mk.val 8 0xF0000008)))
def wordMset (d : MReg) : Nat := (put d.val 21 0xF0000009)
def wordMclr (d : MReg) : Nat := (put d.val 21 0xF000000A)
def wordMmovg (d : MReg) (a : GReg) : Nat := (put d.val 21 (put a.val 16 0xF000000B))
def wordMmovm (d : GReg) (a : MReg) : Nat := (put d.val 21 (put a.val 16 0xF000000C))
def wordVld (d : VReg) (a : GReg) (mk : MaskSel) : Nat := (put d.val 21 (put a.val 16 (put mk.val 8 0xF4000000)))
def wordVlds (d : VReg) (a b : GReg) (mk : MaskSel) : Nat := (put d.val 21 (put a.val 16 (put b.val 11 (put mk.val 8 0xF4000020))))
def wordVldx (d : VReg) (a : GReg) (b : VReg) (mk : MaskSel) (iw : Fin 4) : Nat := (put d.val 21 (put a.val 16 (put b.val 11 (put mk.val 8 (put iw.val 0 0xF4000040)))))
def wordVldseg (d : VReg) (a : GReg) (mk : MaskSel) (nf : Fin 8) (mw : Fin 4) : Nat := (put d.val 21 (put a.val 16 (put mk.val 8 (put nf.val 2 (put mw.val 0 0xF4000060)))))
def wordVldff (d : VReg) (a : GReg) (mk : MaskSel) : Nat := (put d.val 21 (put a.val 16 (put mk.val 8 0xF4000080)))
def wordVldpl (d : VReg) (a b : GReg) (mk : MaskSel) (p kk : Fin 4) (rnd : Bool) : Nat := (put d.val 21 (put a.val 16 (put b.val 11 (put mk.val 8 (put p.val 3 (put kk.val 1 (put (bit rnd) 0 0xF40000A0)))))))
def wordVldw (d : VReg) (a : GReg) (cnt : Fin 4) : Nat := (put d.val 21 (put a.val 16 (put cnt.val 0 0xF40000C0)))
def wordVlde (d : VReg) (a : GReg) (mk : MaskSel) (rep : Fin 8) : Nat := (put d.val 21 (put a.val 16 (put mk.val 8 (put rep.val 0 0xF40000E0))))
def wordVst (d : VReg) (a : GReg) (mk : MaskSel) : Nat := (put d.val 21 (put a.val 16 (put mk.val 8 0xF8000000)))
def wordVsts (d : VReg) (a b : GReg) (mk : MaskSel) : Nat := (put d.val 21 (put a.val 16 (put b.val 11 (put mk.val 8 0xF8000020))))
def wordVstx (d : VReg) (a : GReg) (b : VReg) (mk : MaskSel) (iw : Fin 4) : Nat := (put d.val 21 (put a.val 16 (put b.val 11 (put mk.val 8 (put iw.val 0 0xF8000040)))))
def wordVstseg (d : VReg) (a : GReg) (mk : MaskSel) (nf : Fin 8) (mw : Fin 4) : Nat := (put d.val 21 (put a.val 16 (put mk.val 8 (put nf.val 2 (put mw.val 0 0xF8000060)))))
def wordVstpl (d : VReg) (a b : GReg) (mk : MaskSel) (p kk : Fin 4) : Nat := (put d.val 21 (put a.val 16 (put b.val 11 (put mk.val 8 (put p.val 3 (put kk.val 1 0xF80000A0))))))
def wordVstw (d : VReg) (a : GReg) (cnt : Fin 4) : Nat := (put d.val 21 (put a.val 16 (put cnt.val 0 0xF80000C0)))
def wordTmop (ac : AccReg) (qa qb : PanelReg) (mr mc : MaskSel) (fr : FmtSel) (zero neg : Bool) : Nat := (put ac.val 23 (put qa.val 19 (put qb.val 15 (put mr.val 12 (put mc.val 9 (put fr.val 6 (put (bit zero) 5 (put (bit neg) 4 0xFC000000))))))))
def wordTmops (ac : AccReg) (qa qb : PanelReg) (mr mc : MaskSel) (fr : FmtSel) (zero neg : Bool) : Nat := (put ac.val 23 (put qa.val 19 (put qb.val 15 (put mr.val 12 (put mc.val 9 (put fr.val 6 (put (bit zero) 5 (put (bit neg) 4 0xFC000001))))))))
def wordTzero (ac : AccReg) (clrf : Bool) : Nat := (put ac.val 23 (put (bit clrf) 4 0xFC000002))
def wordTldq (q : PanelReg) (a b : GReg) (fr : FmtSel) (sb : Bool) : Nat := (put (q.val + 8) 21 (put a.val 16 (put b.val 11 (put fr.val 8 (put (bit sb) 4 0xFC000003)))))
def wordTldqt (q : PanelReg) (a b : GReg) (fr : FmtSel) (sb : Bool) : Nat := (put (q.val + 8) 21 (put a.val 16 (put b.val 11 (put fr.val 8 (put (bit sb) 4 0xFC000004)))))
def wordTsta (ac : AccReg) (a b : GReg) (fr : FmtSel) (zero : Bool) : Nat := (put ac.val 21 (put a.val 16 (put b.val 11 (put fr.val 8 (put (bit zero) 4 0xFC000005)))))
def wordTslv (ac : AccReg) (v : VReg) (i : GReg) (n : Fin 4) (col : Bool) : Nat := (put ac.val 23 (put v.val 18 (put i.val 13 (put n.val 11 (put (bit col) 10 0xFC000006)))))
def wordTvsl (ac : AccReg) (v : VReg) (i : GReg) (n : Fin 4) (col : Bool) : Nat := (put ac.val 23 (put v.val 18 (put i.val 13 (put n.val 11 (put (bit col) 10 0xFC000007)))))
def wordTsave (t : TileItem) (a : GReg) : Nat := (put t.code 21 (put a.val 16 0xFC000008))
def wordTrstr (t : TileItem) (a : GReg) : Nat := (put t.code 21 (put a.val 16 0xFC000009))
def wordTmcast (q : PanelReg) (a b : GReg) (fr : FmtSel) (sc : CastScope) : Nat := (put (q.val + 8) 21 (put a.val 16 (put b.val 11 (put fr.val 8 (put sc.code 4 0xFC00000A)))))

/-- The word of an instruction as a number; none for an event, which has no encoding. -/
def encodeNat : Instr → Option Nat
  | .add d a b => some (wordAdd d a b)
  | .sub d a b => some (wordSub d a b)
  | .and d a b => some (wordAnd d a b)
  | .or d a b => some (wordOr d a b)
  | .xor d a b => some (wordXor d a b)
  | .andn d a b => some (wordAndn d a b)
  | .sll d a b => some (wordSll d a b)
  | .srl d a b => some (wordSrl d a b)
  | .sra d a b => some (wordSra d a b)
  | .rol d a b => some (wordRol d a b)
  | .ror d a b => some (wordRor d a b)
  | .slt d a b => some (wordSlt d a b)
  | .sltu d a b => some (wordSltu d a b)
  | .min d a b => some (wordMin d a b)
  | .max d a b => some (wordMax d a b)
  | .minu d a b => some (wordMinu d a b)
  | .maxu d a b => some (wordMaxu d a b)
  | .mul d a b => some (wordMul d a b)
  | .mulh d a b => some (wordMulh d a b)
  | .mulhu d a b => some (wordMulhu d a b)
  | .div d a b => some (wordDiv d a b)
  | .divu d a b => some (wordDivu d a b)
  | .rem d a b => some (wordRem d a b)
  | .remu d a b => some (wordRemu d a b)
  | .clz d a => some (wordClz d a)
  | .ctz d a => some (wordCtz d a)
  | .popc d a => some (wordPopc d a)
  | .movz d a b => some (wordMovz d a b)
  | .movn d a b => some (wordMovn d a b)
  | .addw d a b => some (wordAddw d a b)
  | .subw d a b => some (wordSubw d a b)
  | .bswap d a => some (wordBswap d a)
  | .addi d a imm => some (wordAddi d a imm)
  | .andi d a imm => some (wordAndi d a imm)
  | .ori d a imm => some (wordOri d a imm)
  | .xori d a imm => some (wordXori d a imm)
  | .slti d a imm => some (wordSlti d a imm)
  | .sltiu d a imm => some (wordSltiu d a imm)
  | .slli d a sh => some (wordSlli d a sh)
  | .srli d a sh => some (wordSrli d a sh)
  | .srai d a sh => some (wordSrai d a sh)
  | .rori d a sh => some (wordRori d a sh)
  | .lih d imm => some (wordLih d imm)
  | .addpc d imm => some (wordAddpc d imm)
  | .shori d a imm => some (wordShori d a imm)
  | .fadd d a b sz rm => some (wordFadd d a b sz rm)
  | .fsub d a b sz rm => some (wordFsub d a b sz rm)
  | .fmul d a b sz rm => some (wordFmul d a b sz rm)
  | .fdiv d a b sz rm => some (wordFdiv d a b sz rm)
  | .fsqrt d a sz rm => some (wordFsqrt d a sz rm)
  | .fmin d a b sz => some (wordFmin d a b sz)
  | .fmax d a b sz => some (wordFmax d a b sz)
  | .fceq d a b sz => some (wordFceq d a b sz)
  | .fclt d a b sz => some (wordFclt d a b sz)
  | .fcle d a b sz => some (wordFcle d a b sz)
  | .fclass d a sz => some (wordFclass d a sz)
  | .fcvti d a sz rm => some (wordFcvti d a sz rm)
  | .fcvtf d a sz rm => some (wordFcvtf d a sz rm)
  | .fcvtff d a src sz rm => some (wordFcvtff d a src sz rm)
  | .fneg d a sz => some (wordFneg d a sz)
  | .fabs d a sz => some (wordFabs d a sz)
  | .fma d a b c sz rm np na => some (wordFma d a b c sz rm np na)
  | .lb d a imm => some (wordLb d a imm)
  | .lh d a imm => some (wordLh d a imm)
  | .lw d a imm => some (wordLw d a imm)
  | .ld d a imm => some (wordLd d a imm)
  | .lbu d a imm => some (wordLbu d a imm)
  | .lhu d a imm => some (wordLhu d a imm)
  | .lwu d a imm => some (wordLwu d a imm)
  | .sb c a imm => some (wordSb c a imm)
  | .sh c a imm => some (wordSh c a imm)
  | .sw c a imm => some (wordSw c a imm)
  | .sd c a imm => some (wordSd c a imm)
  | .lr d a dw acq sc => some (wordLr d a dw acq sc)
  | .sc d a b dw rel sc => some (wordSc d a b dw rel sc)
  | .amoswap d a b dw acq rel sc => some (wordAmoswap d a b dw acq rel sc)
  | .amoadd d a b dw acq rel sc => some (wordAmoadd d a b dw acq rel sc)
  | .amoand d a b dw acq rel sc => some (wordAmoand d a b dw acq rel sc)
  | .amoor d a b dw acq rel sc => some (wordAmoor d a b dw acq rel sc)
  | .amoxor d a b dw acq rel sc => some (wordAmoxor d a b dw acq rel sc)
  | .amomin d a b dw acq rel sc => some (wordAmomin d a b dw acq rel sc)
  | .amomax d a b dw acq rel sc => some (wordAmomax d a b dw acq rel sc)
  | .amominu d a b dw acq rel sc => some (wordAmominu d a b dw acq rel sc)
  | .amomaxu d a b dw acq rel sc => some (wordAmomaxu d a b dw acq rel sc)
  | .amocas d a b dw acq rel sc => some (wordAmocas d a b dw acq rel sc)
  | .ldacq d a dw sc => some (wordLdacq d a dw sc)
  | .strel a b dw sc => some (wordStrel a b dw sc)
  | .fence ifetch eng sc pl ps ll ls => some (wordFence ifetch eng sc pl ps ll ls)
  | .cinv a b => some (wordCinv a b)
  | .cflush a b => some (wordCflush a b)
  | .cclean a b => some (wordCclean a b)
  | .czero a b => some (wordCzero a b)
  | .cpfr a b => some (wordCpfr a b)
  | .cpfw a b => some (wordCpfw a b)
  | .iflush a b => some (wordIflush a b)
  | .beq c a off => some (wordBeq c a off)
  | .bne c a off => some (wordBne c a off)
  | .blt c a off => some (wordBlt c a off)
  | .bge c a off => some (wordBge c a off)
  | .bltu c a off => some (wordBltu c a off)
  | .bgeu c a off => some (wordBgeu c a off)
  | .j off => some (wordJ off)
  | .jal off => some (wordJal off)
  | .jalr d a imm => some (wordJalr d a imm)
  | .trap code => some (wordTrap code)
  | .brk => some wordBrk
  | .eret => some wordEret
  | .wfi => some wordWfi
  | .yield => some wordYield
  | .tlbinv a b sc => some (wordTlbinv a b sc)
  | .tlbsync => some wordTlbsync
  | .mfs d num => some (wordMfs d num)
  | .mts a num => some (wordMts a num)
  | .mtsStatus a => some (wordMtsStatus a)
  | .mtsVl a => some (wordMtsVl a)
  | .mtsVtype a => some (wordMtsVtype a)
  | .mtsVcap a => some (wordMtsVcap a)
  | .mtsMember a => some (wordMtsMember a)
  | .mtsTctl a => some (wordMtsTctl a)
  | .mtsTstat a => some (wordMtsTstat a)
  | .mtsCntc a => some (wordMtsCntc a)
  | .mtsYctl a => some (wordMtsYctl a)
  | .mtsSpcfg a => some (wordMtsSpcfg a)
  | .gbar d a id sc comb => some (wordGbar d a id sc comb)
  | .garrive d id sc => some (wordGarrive d id sc)
  | .gwait a id sc => some (wordGwait a id sc)
  | .chwait ch => some (wordChwait ch)
  | .chrecv dq ch => some (wordChrecv dq ch)
  | .chpost aq b => some (wordChpost aq b)
  | .bcpost a id => some (wordBcpost a id)
  | .bcwait id => some (wordBcwait id)
  | .bcread d id => some (wordBcread d id)
  | .bcclr id => some (wordBcclr id)
  | .sendStrmCopy d a => some (wordSendStrmCopy d a)
  | .sendStrmGather d a => some (wordSendStrmGather d a)
  | .sendStrmScatter d a => some (wordSendStrmScatter d a)
  | .sendStrmFill d a => some (wordSendStrmFill d a)
  | .sendStrmUnz d a => some (wordSendStrmUnz d a)
  | .sendStrmPlane d a => some (wordSendStrmPlane d a)
  | .sendWeaveLoad d a => some (wordSendWeaveLoad d a)
  | .sendWeaveRun d a => some (wordSendWeaveRun d a)
  | .sendCollBmax d a b => some (wordSendCollBmax d a b)
  | .sendCollIsum d a b => some (wordSendCollIsum d a b)
  | .sendCollFsum d a b => some (wordSendCollFsum d a b)
  | .sendCollBcast d a b => some (wordSendCollBcast d a b)
  | .sendCollOr d a b => some (wordSendCollOr d a b)
  | .sendTendCall d a b => some (wordSendTendCall d a b)
  | .sendLnchGang d a => some (wordSendLnchGang d a)
  | .cwait bL bS bC bT => some (wordCwait bL bS bC bT)
  | .setvl d a es grp dead y => some (wordSetvl d a es grp dead y)
  | .setvlA d a es grp dead y => some (wordSetvlA d a es grp dead y)
  | .setvlmax d es grp dead y => some (wordSetvlmax d es grp dead y)
  | .setvlmaxA d es grp dead y => some (wordSetvlmaxA d es grp dead y)
  | .vadd d a b mk => some (wordVadd d a b mk)
  | .vsub d a b mk => some (wordVsub d a b mk)
  | .vmul d a b mk => some (wordVmul d a b mk)
  | .vmulh d a b mk => some (wordVmulh d a b mk)
  | .vmulhu d a b mk => some (wordVmulhu d a b mk)
  | .vmin d a b mk => some (wordVmin d a b mk)
  | .vmax d a b mk => some (wordVmax d a b mk)
  | .vminu d a b mk => some (wordVminu d a b mk)
  | .vmaxu d a b mk => some (wordVmaxu d a b mk)
  | .vand d a b mk => some (wordVand d a b mk)
  | .vor d a b mk => some (wordVor d a b mk)
  | .vxor d a b mk => some (wordVxor d a b mk)
  | .vshl d a b mk => some (wordVshl d a b mk)
  | .vshr d a b mk => some (wordVshr d a b mk)
  | .vsra d a b mk => some (wordVsra d a b mk)
  | .vadds d a b mk => some (wordVadds d a b mk)
  | .vaddsu d a b mk => some (wordVaddsu d a b mk)
  | .vsubs d a b mk => some (wordVsubs d a b mk)
  | .vsubsu d a b mk => some (wordVsubsu d a b mk)
  | .vavg d a b mk => some (wordVavg d a b mk)
  | .vabsd d a b mk => some (wordVabsd d a b mk)
  | .vnarrow d a mk fr => some (wordVnarrow d a mk fr)
  | .vaddVx d a b mk => some (wordVaddVx d a b mk)
  | .vsubVx d a b mk => some (wordVsubVx d a b mk)
  | .vmulVx d a b mk => some (wordVmulVx d a b mk)
  | .vmulhVx d a b mk => some (wordVmulhVx d a b mk)
  | .vmulhuVx d a b mk => some (wordVmulhuVx d a b mk)
  | .vminVx d a b mk => some (wordVminVx d a b mk)
  | .vmaxVx d a b mk => some (wordVmaxVx d a b mk)
  | .vminuVx d a b mk => some (wordVminuVx d a b mk)
  | .vmaxuVx d a b mk => some (wordVmaxuVx d a b mk)
  | .vandVx d a b mk => some (wordVandVx d a b mk)
  | .vorVx d a b mk => some (wordVorVx d a b mk)
  | .vxorVx d a b mk => some (wordVxorVx d a b mk)
  | .vshlVx d a b mk => some (wordVshlVx d a b mk)
  | .vshrVx d a b mk => some (wordVshrVx d a b mk)
  | .vsraVx d a b mk => some (wordVsraVx d a b mk)
  | .vaddsVx d a b mk => some (wordVaddsVx d a b mk)
  | .vaddsuVx d a b mk => some (wordVaddsuVx d a b mk)
  | .vsubsVx d a b mk => some (wordVsubsVx d a b mk)
  | .vsubsuVx d a b mk => some (wordVsubsuVx d a b mk)
  | .vavgVx d a b mk => some (wordVavgVx d a b mk)
  | .vabsdVx d a b mk => some (wordVabsdVx d a b mk)
  | .vceq d a b mk => some (wordVceq d a b mk)
  | .vcne d a b mk => some (wordVcne d a b mk)
  | .vclt d a b mk => some (wordVclt d a b mk)
  | .vcle d a b mk => some (wordVcle d a b mk)
  | .vcltu d a b mk => some (wordVcltu d a b mk)
  | .vcleu d a b mk => some (wordVcleu d a b mk)
  | .vmerge d a b mk => some (wordVmerge d a b mk)
  | .vfceq d a b mk fr => some (wordVfceq d a b mk fr)
  | .vfclt d a b mk fr => some (wordVfclt d a b mk fr)
  | .vfcle d a b mk fr => some (wordVfcle d a b mk fr)
  | .vfcun d a b mk fr => some (wordVfcun d a b mk fr)
  | .vfclass d a mk fr => some (wordVfclass d a mk fr)
  | .vfadd d a b mk fr => some (wordVfadd d a b mk fr)
  | .vfsub d a b mk fr => some (wordVfsub d a b mk fr)
  | .vfmul d a b mk fr => some (wordVfmul d a b mk fr)
  | .vfdiv d a b mk fr => some (wordVfdiv d a b mk fr)
  | .vfsqrt d a mk fr => some (wordVfsqrt d a mk fr)
  | .vfmin d a b mk fr => some (wordVfmin d a b mk fr)
  | .vfmax d a b mk fr => some (wordVfmax d a b mk fr)
  | .vfrcp d a mk fr => some (wordVfrcp d a mk fr)
  | .vfrsq d a mk fr => some (wordVfrsq d a mk fr)
  | .vfexp2 d a mk fr => some (wordVfexp2 d a mk fr)
  | .vflog2 d a mk fr => some (wordVflog2 d a mk fr)
  | .vfcvt d a b mk fr => some (wordVfcvt d a b mk fr)
  | .vfnf d a mk fr => some (wordVfnf d a mk fr)
  | .vfabs d a mk fr => some (wordVfabs d a mk fr)
  | .vfneg d a mk fr => some (wordVfneg d a mk fr)
  | .vfscale d a b mk fr => some (wordVfscale d a b mk fr)
  | .vfaddVx d a b mk fr => some (wordVfaddVx d a b mk fr)
  | .vfsubVx d a b mk fr => some (wordVfsubVx d a b mk fr)
  | .vfmulVx d a b mk fr => some (wordVfmulVx d a b mk fr)
  | .vfdivVx d a b mk fr => some (wordVfdivVx d a b mk fr)
  | .vfsqrtVx d a b mk fr => some (wordVfsqrtVx d a b mk fr)
  | .vfminVx d a b mk fr => some (wordVfminVx d a b mk fr)
  | .vfmaxVx d a b mk fr => some (wordVfmaxVx d a b mk fr)
  | .vfscaleVx d a b mk fr => some (wordVfscaleVx d a b mk fr)
  | .vfma d a b c mk fr => some (wordVfma d a b c mk fr)
  | .vfnma d a b c mk fr => some (wordVfnma d a b c mk fr)
  | .vima d a b c mk fr => some (wordVima d a b c mk fr)
  | .vplstep d a b c mk fr => some (wordVplstep d a b c mk fr)
  | .vredsum d a b mk => some (wordVredsum d a b mk)
  | .vredmax d a b mk => some (wordVredmax d a b mk)
  | .vredmin d a b mk => some (wordVredmin d a b mk)
  | .vredmaxu d a b mk => some (wordVredmaxu d a b mk)
  | .vredminu d a b mk => some (wordVredminu d a b mk)
  | .vredand d a b mk => some (wordVredand d a b mk)
  | .vredor d a b mk => some (wordVredor d a b mk)
  | .vredxor d a b mk => some (wordVredxor d a b mk)
  | .vfredsum d a b mk fr => some (wordVfredsum d a b mk fr)
  | .vfredmax d a b mk fr => some (wordVfredmax d a b mk fr)
  | .vfredmin d a b mk fr => some (wordVfredmin d a b mk fr)
  | .vslideup d a b mk => some (wordVslideup d a b mk)
  | .vslidedn d a b mk => some (wordVslidedn d a b mk)
  | .vgatherv d a b mk => some (wordVgatherv d a b mk)
  | .vcompress d a mk => some (wordVcompress d a mk)
  | .vexpand d a mk => some (wordVexpand d a mk)
  | .vbcast d a mk => some (wordVbcast d a mk)
  | .vext d a b => some (wordVext d a b)
  | .vins d a b => some (wordVins d a b)
  | .vid d mk => some (wordVid d mk)
  | .viota d a mk => some (wordViota d a mk)
  | .vzip d a b mk => some (wordVzip d a b mk)
  | .vunzip d a b mk => some (wordVunzip d a b mk)
  | .vmov d a mk => some (wordVmov d a mk)
  | .vunpk d a mk fr => some (wordVunpk d a mk fr)
  | .vrand d mk fr => some (wordVrand d mk fr)
  | .vplhead d a mk fr => some (wordVplhead d a mk fr)
  | .vplresc d a b mk fr => some (wordVplresc d a b mk fr)
  | .mand d a b => some (wordMand d a b)
  | .mor d a b => some (wordMor d a b)
  | .mxor d a b => some (wordMxor d a b)
  | .mandn d a b => some (wordMandn d a b)
  | .mnot d a => some (wordMnot d a)
  | .mpopc d a mk => some (wordMpopc d a mk)
  | .mfirst d a mk => some (wordMfirst d a mk)
  | .msbf d a mk => some (wordMsbf d a mk)
  | .msif d a mk => some (wordMsif d a mk)
  | .mset d => some (wordMset d)
  | .mclr d => some (wordMclr d)
  | .mmovg d a => some (wordMmovg d a)
  | .mmovm d a => some (wordMmovm d a)
  | .vld d a mk => some (wordVld d a mk)
  | .vlds d a b mk => some (wordVlds d a b mk)
  | .vldx d a b mk iw => some (wordVldx d a b mk iw)
  | .vldseg d a mk nf mw => some (wordVldseg d a mk nf mw)
  | .vldff d a mk => some (wordVldff d a mk)
  | .vldpl d a b mk p kk rnd => some (wordVldpl d a b mk p kk rnd)
  | .vldw d a cnt => some (wordVldw d a cnt)
  | .vlde d a mk rep => some (wordVlde d a mk rep)
  | .vst d a mk => some (wordVst d a mk)
  | .vsts d a b mk => some (wordVsts d a b mk)
  | .vstx d a b mk iw => some (wordVstx d a b mk iw)
  | .vstseg d a mk nf mw => some (wordVstseg d a mk nf mw)
  | .vstpl d a b mk p kk => some (wordVstpl d a b mk p kk)
  | .vstw d a cnt => some (wordVstw d a cnt)
  | .tmop ac qa qb mr mc fr zero neg => some (wordTmop ac qa qb mr mc fr zero neg)
  | .tmops ac qa qb mr mc fr zero neg => some (wordTmops ac qa qb mr mc fr zero neg)
  | .tzero ac clrf => some (wordTzero ac clrf)
  | .tldq q a b fr sb => some (wordTldq q a b fr sb)
  | .tldqt q a b fr sb => some (wordTldqt q a b fr sb)
  | .tsta ac a b fr zero => some (wordTsta ac a b fr zero)
  | .tslv ac v i n col => some (wordTslv ac v i n col)
  | .tvsl ac v i n col => some (wordTvsl ac v i n col)
  | .tsave t a => some (wordTsave t a)
  | .trstr t a => some (wordTrstr t a)
  | .tmcast q a b fr sc => some (wordTmcast q a b fr sc)
  | .interruptTake .. | .trappingDone .. | .trapLoopReset .. | .storePerform .. | .storeAck .. | .loadMissFill ..
  | .atomicComplete .. | .vectorExecute .. | .vloadDataReturn .. | .launchVclearDone .. | .tileExecute .. | .tileComplete ..
  | .strmCopy .. | .strmGather .. | .strmScatter .. | .strmFill .. | .strmPlane .. | .strmUnzForward ..
  | .strmUnz .. | .weaveLoad .. | .weaveRun .. | .weaveRunStart .. | .weaveGatherTimeout .. | .collBmax ..
  | .collIsum .. | .collFsum .. | .collBcast .. | .collOr .. | .collInstanceStart .. | .groupDeadlineExpire ..
  | .tendStorageRead .. | .tendStorageWrite .. | .tendStorageComplete .. | .tendMap .. | .tendUnmap .. | .tendPost ..
  | .tendTimer .. | .tendDoorbell .. | .tendUnlistedService .. | .tenderTimerExpire .. | .lnchGang .. | .engineComplete ..
  | .heldReplyRetry .. | .cReplyArrival .. | .bcArrival .. | .channelArrival .. | .chpostAccept .. | .barrierRelease ..
  | .barrierTimeout .. | .yieldDeadlineExpire .. | .reservationExpire .. | .reservationHoldEnd .. | .dirReadMiss .. | .dirOwnershipRequest ..
  | .probeAnswer .. | .invalidationReceive .. | .invalidationAck .. | .cacheEviction .. | .evictionNotice .. | .regionThrottle ..
  | .tempHot .. | .tempTrip .. | .tempRecover .. | .regionReset .. | .regionEventRetry .. | .coreFailure ..
  | .sliceFailure .. | .pseudoChannelFailure .. | .boundaryFailure .. | .fabricPortFailure .. | .fanovSramError .. | .fanovRestartDone ..
  | .modulePowerOn .. | .mgmtAssign .. | .mgmtResize .. | .mgmtWindowGrant .. | .mgmtWindowWithdraw .. | .mgmtReset ..
  | .mgmtFenceCore .. | .mgmtAttest .. | .mstatusWrite .. | .fabricInbound .. | .illegalInstruction .. | .fetchPageFault ..
  | .uncorrectableError .. | .hostEndpointReset .. | .regionThrottleRelease .. | .fabricCollectiveArrival .. | .mgmtObjectAssign .. | .endpointIdAssign .. => none

/-- The word of an instruction (R51): none for an event. -/
def encode (i : Instr) : Option (BitVec 32) := (encodeNat i).map (BitVec.ofNat 32)

/-- Decoding of a 32-bit word. -/
noncomputable def decode (w : BitVec 32) : Except DecodeError Instr := decodeNat w.toNat

/-- The instruction word in four bytes, the lowest address first (R51: little-endian). -/
def wordOfBytes (b0 b1 b2 b3 : Byte) : BitVec 32 := b3 ++ b2 ++ b1 ++ b0

/-- Decoding of the bytes at an instruction's address. -/
noncomputable def decodeBytes (b0 b1 b2 b3 : Byte) : Except DecodeError Instr := decode (wordOfBytes b0 b1 b2 b3)

/-- The four bytes of a word as it is stored, the lowest address first (R51). -/
def bytesOfWord (w : BitVec 32) : List Byte :=
  [w.extractLsb' 0 8, w.extractLsb' 8 8, w.extractLsb' 16 8, w.extractLsb' 24 8]

/-- What the decoder reads from a word numbered as the opcode table numbers it (one 32-bit word). -/
noncomputable def decodeTableWord (_nbits w : Nat) : Option Instr :=
  let x := BitVec.ofNat 32 w
  match decodeBytes (x.extractLsb' 0 8) (x.extractLsb' 8 8) (x.extractLsb' 16 8) (x.extractLsb' 24 8) with
  | .ok i => some i
  | .error _ => none

end Sys2Proof
end

