-- ==== Sys2Proof/Config.lean ====
section
/-! DEFINITION. What the specification leaves open: opaque constants that no proof can see into. Each is applied to the
operands it depends on, or to the plain counter State.fresh, which the step that reads it advances. -/

namespace Sys2Proof.Config

/-- What a read of fabric space returns, which lies outside the module: the n-th read, the address (assumption 12). -/
opaque fabricByte : Nat → Nat → Byte
/-- Whether the gate of another module or a host refuses the n-th access to fabric space, at an address (R402; assumption 12). -/
opaque fabricRefuses : Nat → Nat → Bool
/-- The pad that stands for decryption under the key of epoch n of a region at a physical address: the effect of a key
replacement on what memory reads as (R276; assumption 4). -/
opaque keyPad : Nat → Nat → Byte
/-- Whether the n-th stale fetch returns the old word of an instruction (R136). -/
opaque fetchOld : Nat → Bool
/-- Which member of a 64 KiB group whose entries differ forms the mapping used (R270). -/
opaque groupMember : Nat → Fin 16
/-- Where an asynchronous interrupt finds the vector unit: the element at which the n-th stop falls (R112). -/
opaque stopElement : Nat → Nat
/-- The pseudo-channel of a 256-byte block of a stack; the order of interleaving is not given (R267). -/
opaque pseudoChannel : Nat → Fin 64
/-- The set of a directory in which a line is tracked, of 512 sets of 16 ways; the index function is not given (R341). -/
opaque dirSet : Nat → Fin 512
/-- SHA-512, named and not restated by the specification (R403, R404). -/
opaque sha512 : List Byte → BitVec 512
/-- The identity key's signature over a report (R404). -/
opaque signReport : List Byte → BitVec 1056
/-- The identity public key, as its bytes (R404). -/
opaque identityKey : List Byte
/-- The report version and the encodings of a report's region-map and window entries, which are not given (R404): of state,
island and incarnation, and of valid, read-write, island, base, size and link. -/
opaque reportVersion : BitVec 32
opaque mapEntry : Nat → Nat → Nat → BitVec 32
opaque windowEntry : Bool → Bool → Nat → Nat → Nat → Nat → List Byte
/-- The firmware image that power-on loads (R403). -/
opaque firmwareImage : List Byte
/-- The image's security version (R403). -/
opaque securityVersion : BitVec 32
/-- Which byte of a source that overlaps its destination a copy delivers where several are allowed (R320): true takes the
value of the source before the command. -/
opaque overlapOld : Nat → Nat → Bool
/-- The digest of a collective group's entry and ranks (R354). -/
opaque groupDigest : List Word → BitVec 32
/-- The fabric-space address that a tender mapping is given (R330); the tender's choice is not described. -/
opaque fabricBase : Nat → Nat
/-- What a copy of a free value of the machine holds: the n-th value drawn (R301, R415 races). -/
opaque freeWord : Nat → Word

end Sys2Proof.Config
end

