-- ==== Sys2Proof/Machine/Numbers.lean ====
section
/-! DEFINITION. Number formats (R23 to R36), exact values, the random stream of stochastic rounding (R41) and the rounding
decision of R39 and R40. Values are exact dyadic numbers over Nat and Int; `stick` marks a quotient or root that lies
strictly between m·2^e and (m+1)·2^e. -/

namespace Sys2Proof.Machine

/-- The floating-point element formats of R24. -/
inductive FpFmt | fp16 | bf16 | fp32 | fp64 | e4 | e5
  deriving DecidableEq, Repr

/-- Exponent bits (R24). -/
def FpFmt.ebits : FpFmt → Nat
  | .fp16 => 5 | .bf16 => 8 | .fp32 => 8 | .fp64 => 11 | .e4 => 4 | .e5 => 5
/-- Fraction bits (R24). -/
def FpFmt.mbits : FpFmt → Nat
  | .fp16 => 10 | .bf16 => 7 | .fp32 => 23 | .fp64 => 52 | .e4 => 3 | .e5 => 2
/-- Exponent bias (R24). -/
def FpFmt.bias : FpFmt → Nat
  | .fp16 => 15 | .bf16 => 127 | .fp32 => 127 | .fp64 => 1023 | .e4 => 7 | .e5 => 15
/-- Width in bits (R24). -/
def FpFmt.width : FpFmt → Nat
  | .fp16 => 16 | .bf16 => 16 | .fp32 => 32 | .fp64 => 64 | .e4 => 8 | .e5 => 8
/-- The bits of the largest finite magnitude (R24); in E4 it is 0x7E (R25). -/
def FpFmt.maxFin (f : FpFmt) : Nat :=
  match f with
  | .e4 => 0x7E
  | _ => (2 ^ f.ebits - 1) * 2 ^ f.mbits - 1
/-- The bits of the canonical NaN, sign clear (R26). -/
def FpFmt.canonNan : FpFmt → Nat
  | .fp16 => 0x7E00 | .bf16 => 0x7FC0 | .fp32 => 0x7FC00000 | .fp64 => 0x7FF8000000000000
  | .e5 => 0x7E | .e4 => 0x7F
/-- The bits of positive infinity, or of the NaN in E4, which has no infinity (R43). -/
def FpFmt.infBits (f : FpFmt) : Nat :=
  match f with
  | .e4 => 0x7F
  | _ => (2 ^ f.ebits - 1) * 2 ^ f.mbits
/-- The exponent of one unit in the subnormal range. -/
def FpFmt.qmin (f : FpFmt) : Int := 1 - (f.bias : Int) - (f.mbits : Int)

/-- The scalar size names of R60 as formats. -/
def sizeFmt : FpSize → FpFmt
  | .fp16 => .fp16 | .bf16 => .bf16 | .fp32 => .fp32 | .fp64 => .fp64

/-- What a format code names: integers (R23), floating point (R24), FX4 (R27), planar blocks with P planes (R30) and
packed pixel samples (R34). -/
inductive Fmt
  | int (w : Nat) (signed : Bool)
  | fp (f : FpFmt)
  | fx4
  | pb (p : Nat)
  | pix (w : Nat)
  deriving DecidableEq, Repr

/-- The format a six-bit code names (R36). -/
def Fmt.ofCode : Nat → Option Fmt
  | 0x01 => some (.int 8 true) | 0x02 => some (.int 8 false)
  | 0x03 => some (.int 16 true) | 0x04 => some (.int 16 false)
  | 0x05 => some (.int 32 true) | 0x06 => some (.int 32 false)
  | 0x07 => some (.int 64 true) | 0x08 => some (.int 64 false)
  | 0x10 => some (.fp .fp16) | 0x11 => some (.fp .bf16) | 0x12 => some (.fp .fp32)
  | 0x13 => some (.fp .fp64) | 0x14 => some (.fp .e4) | 0x15 => some (.fp .e5)
  | 0x18 => some .fx4
  | 0x20 => some (.pb 1) | 0x21 => some (.pb 2) | 0x22 => some (.pb 3) | 0x23 => some (.pb 4)
  | 0x24 => some (.pix 10) | 0x25 => some (.pix 12) | 0x26 => some (.pix 14)
  | _ => none

/-- The width a format occupies in a vector register group (R35). -/
def Fmt.width : Fmt → Nat
  | .int w _ => w
  | .fp f => f.width
  | .fx4 => 4
  | .pb 1 => 8
  | .pb 2 => 16
  | .pb _ => 32
  | .pix _ => 16

/-- The format set F (R174). -/
def Fmt.isF : Fmt → Bool | .fp _ => true | _ => false
/-- The format set I (R174). -/
def Fmt.isI : Fmt → Bool | .int _ _ => true | _ => false
/-- The format set PB (R174). -/
def Fmt.isPB : Fmt → Bool | .pb _ => true | _ => false
/-- A block format: FX4 or planar (R180). -/
def Fmt.isBlock : Fmt → Bool | .fx4 => true | .pb _ => true | _ => false
/-- A pixel format (R34). -/
def Fmt.isPix : Fmt → Bool | .pix _ => true | _ => false

/-- Rounding modes (R39). -/
inductive RMode | rne | rtz | rup | rdn | rna | sr
  deriving DecidableEq, Repr

/-- The rounding mode of a code; 6 and 7 name none (R36). -/
def RMode.ofCode : Nat → Option RMode
  | 0 => some .rne | 1 => some .rtz | 2 => some .rup | 3 => some .rdn | 4 => some .rna | 5 => some .sr
  | _ => none

/-- The scalar rounding modes among them (R60). -/
def scalarMode : ScalarRm → RMode
  | .rne => .rne | .rtz => .rtz | .rup => .rup | .rdn => .rdn

/-- Fields of a format word (R36). -/
def fwFA (w : Word) : Nat := (w.extractLsb' 0 6).toNat
def fwFB (w : Word) : Nat := (w.extractLsb' 6 6).toNat
def fwFD (w : Word) : Nat := (w.extractLsb' 12 6).toNat
def fwRM (w : Word) : Nat := (w.extractLsb' 18 3).toNat
def fwSat (w : Word) : Bool := w.getLsbD 21
def fwFtz (w : Word) : Bool := w.getLsbD 22
def fwSalt (w : Word) : Word := (w.extractLsb' 24 4).zeroExtend 64
/-- Bits [23] and [63:28] are zero (R37, step 1). -/
def fwReservedZero (w : Word) : Bool := !w.getLsbD 23 && w.extractLsb' 28 36 == 0

/-- H of R41, on 64-bit values with products modulo 2^64. -/
def hashH (key ctr : Word) : Word :=
  let x0 := ctr ^^^ key
  let x1 := (x0 ^^^ (x0 >>> 31)) * 0x9A2B7C5D3E1F0A37
  let x2 := (x1 ^^^ (x1 >>> 29)) * 0xC6E19D3B5A2748F1
  x2 ^^^ (x2 >>> 32)

/-- Rand(i) of R41. -/
def rand (seed salt stripbase : Word) (i : Nat) : Word :=
  hashH (seed ^^^ (salt <<< 56)) (stripbase + BitVec.ofNat 64 i)

/-- An operand's value: a NaN, signalling or quiet, an infinity, or a finite number (−1)^neg · m · 2^e. -/
inductive Num
  | nan (sig : Bool)
  | inf (neg : Bool)
  | fin (neg : Bool) (m : Nat) (e : Int)
  deriving DecidableEq, Repr

/-- The value of floating-point bits (R24 to R26); with ftz, a subnormal reads as a zero of its sign (R44). -/
def fpVal (f : FpFmt) (ftz : Bool) (b : Nat) : Num :=
  let neg := b / 2 ^ (f.width - 1) % 2 == 1
  let ex := b / 2 ^ f.mbits % 2 ^ f.ebits
  let fr := b % 2 ^ f.mbits
  if ex = 2 ^ f.ebits - 1 ∧ (f ≠ .e4 ∨ fr = 7) then
    if f = .e4 then .nan false
    else if fr = 0 then .inf neg
    else .nan (fr / 2 ^ (f.mbits - 1) == 0)
  else if ex = 0 then
    if fr = 0 ∨ ftz then .fin neg 0 0 else .fin neg fr f.qmin
  else .fin neg (2 ^ f.mbits + fr) (f.qmin + ((ex : Int) - 1))

/-- The integer that the low w bits of b hold, signed or unsigned (R23). -/
def intOf (w : Nat) (signed : Bool) (b : Nat) : Int :=
  let x := b % 2 ^ w
  if signed ∧ 2 ^ (w - 1) ≤ x then (x : Int) - 2 ^ w else x

/-- An integer as an exact value. -/
def numOfInt (z : Int) : Num := .fin (decide (z < 0)) z.natAbs 0

/-- The magnitude of code k of an FX4 type, in eighths (R28), continued past the largest in steps of the last spacing
(R29). -/
def fx4Mag (t k : Nat) : Nat :=
  match t with
  | 0 => 8 * k
  | 1 => if k ≤ 7 then [0, 4, 8, 12, 16, 24, 32, 48].getD k 0 else 48 + 16 * (k - 7)
  | 2 => if k ≤ 7 then [0, 1, 2, 4, 8, 16, 32, 64].getD k 0 else 64 + 32 * (k - 7)
  | _ => if k ≤ 7 then [0, 2, 4, 6, 8, 16, 32, 64].getD k 0 else 64 + 32 * (k - 7)

/-- The value of an FX4 code under a scale byte (R27, R28). -/
def fx4Val (scale code : Nat) : Num :=
  let t := scale / 64 % 4
  let e := scale % 64
  if e = 63 then .nan false
  else if t = 0 then
    let z := intOf 4 true code
    .fin (decide (z < 0)) z.natAbs ((e : Int) - 31)
  else .fin (code / 8 % 2 == 1) (fx4Mag t (code % 8)) ((e : Int) - 31 - 3)

/-- The value of a planar significand of p planes under scale byte s (R30, R180). The significand is the low 8p bits. -/
def pbVal (p s bits : Nat) : Num :=
  if s = 255 then .nan false
  else
    let q := intOf (8 * p) true bits
    .fin (decide (q < 0)) q.natAbs ((s : Int) - 127 - (8 * (p : Int) - 1))

/-- The value of an element in any format, under the scale byte of its block where the format is a block format. -/
def fmtVal (f : Fmt) (ftz : Bool) (scale b : Nat) : Num :=
  match f with
  | .int w s => numOfInt (intOf w s b)
  | .fp g => fpVal g ftz b
  | .fx4 => fx4Val scale b
  | .pb p => pbVal p scale b
  | .pix w => numOfInt (intOf w false b)

/-- Leading-plane read of R32: the k most significant of the p planes of significand q, truncating or rounding. -/
def leadPlanes (p k : Nat) (rnd : Bool) (q : Int) : Int :=
  if k = p then q
  else
    let d : Int := 2 ^ (8 * (p - k))
    if rnd then min ((q + d / 2) / d) (2 ^ (8 * k - 1) - 1) else q / d

/-- The exact result of an operation before R43: a NaN because an operand was one, an invalid operation, an infinity (dz
marks a finite non-zero divided by zero), or a finite value. -/
inductive Exact
  | nan
  | invalid
  | inf (neg dz : Bool)
  | fin (neg : Bool) (m : Nat) (e : Int) (stick : Bool)
  deriving DecidableEq, Repr

/-- Whether a magnitude with fraction r/d of a unit (a little more where stick holds) rounds away from zero, for an odd or
even unit count below it (R39, R40); u holds the 24 random bits. -/
def roundsUp (rm : RMode) (u : Nat) (neg odd : Bool) (r d : Nat) (stick : Bool) : Bool :=
  if r = 0 ∧ ¬ stick then false
  else match rm with
    | .rne => decide (d < 2 * r) || (2 * r == d && (stick || odd))
    | .rna => decide (d ≤ 2 * r)
    | .rtz => false
    | .rup => !neg
    | .rdn => neg
    | .sr => decide (d * (2 ^ 24 - u) ≤ r * 2 ^ 24)

/-- The magnitude m·2^e rounded to a whole number of units 2^q, and whether that differs from it. A magnitude far below the
unit is replaced by a stick under 2^-32 units, which no mode tells from it. -/
def roundUnits (rm : RMode) (u : Nat) (neg : Bool) (m : Nat) (e : Int) (stick : Bool) (q : Int) : Nat × Bool :=
  if q ≤ e then
    let n := m * 2 ^ (min (e - q).toNat 4096)
    if roundsUp rm u neg (n % 2 == 1) 0 (2 ^ 32) stick then (n + 1, true) else (n, stick)
  else
    let k := (q - e).toNat
    let (m, k, stick) := if m.log2 + 64 < k then (0, 32, stick || m != 0) else (m, k, stick)
    let n := m / 2 ^ k
    let r := m % 2 ^ k
    let inexact := r != 0 || stick
    if roundsUp rm u neg (n % 2 == 1) r (2 ^ k) stick then (n + 1, inexact) else (n, inexact)

end Sys2Proof.Machine
end

