-- ==== Sys2Proof/Machine/Flags.lean ====
section
/-! DEFINITION. The sticky flags of FSTAT (R46, R172) and the forming of a delivered result with its flags (R43, R47), for
every kind of destination: floating point, integer, FX4 and planar. -/

namespace Sys2Proof.Machine

/-- A set of FSTAT flags, at their bit positions of R172. -/
abbrev FFlags := BitVec 7

def flagNV : FFlags := 0x01
def flagDZ : FFlags := 0x02
def flagOF : FFlags := 0x04
def flagUF : FFlags := 0x08
def flagNX : FFlags := 0x10
def flagSAT : FFlags := 0x20
def flagNF : FFlags := 0x40

/-- A flag set or nothing. -/
def flagIf (c : Bool) (f : FFlags) : FFlags := if c then f else 0

/-- What governs the forming of a result: rounding mode, saturation, flushing, and the 24 random bits of the element. -/
structure Rounding where
  rm  : RMode
  sat : Bool
  ftz : Bool
  u   : Nat
  deriving DecidableEq, Repr

/-- The rounding of scalar floating point: SAT = 0 and FTZ = 0 (R124). -/
def scalarRounding (r : ScalarRm) : Rounding := ⟨scalarMode r, false, false, 0⟩
/-- The rounding of the fixed-order sums: RNE, FTZ ignored (R48). -/
def treeRounding (sat : Bool) : Rounding := ⟨.rne, sat, false, 0⟩

/-- Bits with a sign put on. -/
def withSign (f : FpFmt) (neg : Bool) (b : Nat) : Nat := if neg then b + 2 ^ (f.width - 1) else b

/-- A finite value in a floating-point format: rows 5 to 9 of R43. Overflow is judged on the value rounded as though the
exponent range were unbounded, and tininess after rounding. -/
def finToFp (f : FpFmt) (r : Rounding) (neg : Bool) (m : Nat) (e : Int) (stick : Bool) : Nat × FFlags :=
  if m = 0 ∧ ¬ stick then (withSign f neg 0, 0)
  else
    let top : Int := e + (m.log2 : Int)
    let qn : Int := top - f.mbits
    let nx := roundUnits r.rm r.u neg m e stick qn
    let tiny := decide (m = 0) || (decide (qn < f.qmin) && !(decide (qn + 1 = f.qmin) && nx.1 == 2 ^ (f.mbits + 1)))
    if tiny then
      if r.ftz then (withSign f neg 0, flagUF ||| flagNX)
      else
        let s := roundUnits r.rm r.u neg m e stick f.qmin
        (withSign f neg s.1, flagIf s.2 (flagUF ||| flagNX))
    else
      -- the rounded value as bits; one that rounds up out of the subnormals is the smallest normal number
      let bits := if qn < f.qmin then 2 ^ f.mbits else (qn - f.qmin).toNat * 2 ^ f.mbits + nx.1
      let ovf : Bool := decide ((f.bias : Int) + 1 < top) || decide (f.maxFin < bits)
      if ovf then
        if r.sat then (withSign f neg f.maxFin, flagSAT ||| flagNX)
        else if f = .e4 then (0x7F, flagOF ||| flagNX)
        else
          let big := match r.rm with
            | .rtz => f.maxFin
            | .rup => if neg then f.maxFin else f.infBits
            | .rdn => if neg then f.infBits else f.maxFin
            | _ => f.infBits
          (withSign f neg big, flagOF ||| flagNX)
      else (withSign f neg bits, flagIf nx.2 flagNX)

/-- A result in a floating-point format: R43's IEEE-type and E4 columns. Whether an input NaN was signalling is the
caller's flag (R26). -/
def toFp (f : FpFmt) (r : Rounding) : Exact → Nat × FFlags
  | .nan => (f.canonNan, 0)
  | .invalid => (f.canonNan, flagNV)
  | .inf neg dz =>
    if r.sat then (withSign f neg f.maxFin, flagSAT ||| flagIf dz flagDZ)
    else if f = .e4 then (0x7F, flagIf dz flagDZ)
    else (withSign f neg f.infBits, flagIf dz flagDZ)
  | .fin neg m e stick => finToFp f r neg m e stick

/-- The smallest integer of a range (R23). -/
def intMin (w : Nat) (signed : Bool) : Int := if signed then -(2 ^ (w - 1)) else 0
/-- The largest integer of a range (R23). -/
def intMax (w : Nat) (signed : Bool) : Int := if signed then 2 ^ (w - 1) - 1 else 2 ^ w - 1
/-- An integer modulo 2^w, as bits. -/
def wrapBits (w : Nat) (z : Int) : Nat := (z % (2 ^ w : Int)).toNat

/-- An exact integer in an integer format (R23): clamped with SAT, wrapped without; `wrapFlag` is NV for a conversion and
nothing for integer arithmetic (R43, row 6). -/
def intToInt (w : Nat) (signed sat : Bool) (wrapFlag : FFlags) (z : Int) : Nat × FFlags :=
  if intMin w signed ≤ z ∧ z ≤ intMax w signed then (wrapBits w z, 0)
  else if sat then (wrapBits w (if z < 0 then intMin w signed else intMax w signed), flagSAT)
  else (wrapBits w z, wrapFlag)

/-- A result converted to an integer format (R47, R43's integer column). -/
def toInt (w : Nat) (signed : Bool) (r : Rounding) : Exact → Nat × FFlags
  | .nan => (0, flagNV)
  | .invalid => (0, flagNV)
  | .inf neg _ => (wrapBits w (if neg then intMin w signed else intMax w signed), if r.sat then flagSAT else flagNV)
  | .fin neg m e stick =>
    let n := roundUnits r.rm r.u neg m e stick 0
    let z : Int := if neg then -(n.1 : Int) else n.1
    if intMin w signed ≤ z ∧ z ≤ intMax w signed then (wrapBits w z, flagIf n.2 flagNX)
    else intToInt w signed r.sat flagNV z

/-- A result as a planar significand of p planes, counted in units of 2^q (R33, R43's planar column). -/
def toPlanar (p : Nat) (r : Rounding) (q : Int) : Exact → Nat × FFlags
  | .nan => (0, flagNV)
  | .invalid => (0, flagNV)
  | .inf neg _ =>
    (wrapBits (8 * p) (if neg then intMin (8 * p) true else intMax (8 * p) true), if r.sat then flagSAT else flagNV)
  | .fin neg m e stick =>
    let n := roundUnits r.rm r.u neg m e stick q
    let z : Int := if neg then -(n.1 : Int) else n.1
    if intMin (8 * p) true ≤ z ∧ z ≤ intMax (8 * p) true then (wrapBits (8 * p) z, flagIf n.2 flagNX)
    else (wrapBits (8 * p) (if neg then intMin (8 * p) true else intMax (8 * p) true),
      if r.sat then flagSAT ||| flagNX else flagOF ||| flagNV ||| flagNX)

/-- The largest k whose FX4 magnitude is at most n/d eighths, counting on past 7 (R29). -/
def fx4Floor (t n d : Nat) : Nat :=
  if t = 0 then n / (8 * d)
  else
    let step := if t = 1 then 16 else 32
    let top := fx4Mag t 7
    if top * d ≤ n then 7 + (n - top * d) / (step * d)
    else ((List.range 7).filter (fun k => decide (fx4Mag t (k + 1) * d ≤ n))).length

/-- An FX4 code of type t from its sign and magnitude index (R28). -/
def fx4Code (t : Nat) (neg : Bool) (k : Nat) : Nat :=
  if t = 0 then wrapBits 4 (if neg then -(k : Int) else k) else (if neg then 8 else 0) + k

/-- The largest code magnitude of an FX4 type (R29). -/
def fx4Max (t : Nat) (neg : Bool) : Nat := if t = 0 ∧ neg then 8 else 7

/-- A result rounded into an FX4 code under a scale byte (R29, R43's FX4 column). -/
def toFx4 (scale : Nat) (r : Rounding) : Exact → Nat × FFlags
  | .nan => (0, flagNV)
  | .invalid => (0, flagNV)
  | .inf neg _ => (fx4Code (scale / 64 % 4) neg (fx4Max (scale / 64 % 4) neg), if r.sat then flagSAT else flagNV)
  | .fin neg m e stick =>
    let t := scale / 64 % 4
    -- the quotient by the scale, in eighths, as n/d
    let q : Int := e - ((scale % 64 : Nat) - 31 : Int) + 3
    let n := m * 2 ^ (min q.toNat 4096)
    let d := 2 ^ (-q).toNat
    let k := fx4Floor t n d
    let lo := fx4Mag t k * d
    let gap := (fx4Mag t (k + 1) - fx4Mag t k) * d
    let k' := if roundsUp r.rm r.u neg (k % 2 == 1) (n - lo) gap stick then k + 1 else k
    if k' ≤ fx4Max t neg then (fx4Code t neg k', flagIf (n != lo || stick) flagNX)
    else (fx4Code t neg (fx4Max t neg), if r.sat then flagSAT ||| flagNX else flagOF ||| flagNV ||| flagNX)

/-- An exact value as the input of a conversion. -/
def Num.exact : Num → Exact
  | .nan _ => .nan
  | .inf neg => .inf neg false
  | .fin neg m e => .fin neg m e false

/-- NV of a signalling operand (R26). -/
def sigFlag : Num → FFlags
  | .nan true => flagNV
  | _ => 0

/-- A result delivered in any format a conversion may name (R180), under the scale byte of its block. A destination block
that is marked non-finite takes row 1 of R43. -/
def toFmt (f : Fmt) (r : Rounding) (scale : Nat) (x : Exact) : Nat × FFlags :=
  match f with
  | .fp g => toFp g r x
  | .int w s => toInt w s r x
  | .fx4 => if scale % 64 = 63 then toFx4 scale r .nan else toFx4 scale r x
  | .pb p => if scale = 255 then toPlanar p r 0 .nan else toPlanar p r ((scale : Int) - 127 - (8 * (p : Int) - 1)) x
  | .pix w => toInt w false r x

end Sys2Proof.Machine
end

