-- ==== Sys2Proof/Machine/Arith.lean ====
section
/-! DEFINITION. Exact arithmetic on values before the one rounding of R43: sums, products, quotients, roots, the estimates
of R179, the comparisons of R126 to R129, and the integer arithmetic of R121, R122 and R155. -/

namespace Sys2Proof.Machine

/-- A signed dyadic sum z·2^e of two finite values, exact. -/
def dyadicAdd (n1 : Bool) (m1 : Nat) (e1 : Int) (n2 : Bool) (m2 : Nat) (e2 : Int) : Int × Int :=
  let e := min e1 e2
  let a : Int := (m1 * 2 ^ (e1 - e).toNat : Nat)
  let b : Int := (m2 * 2 ^ (e2 - e).toNat : Nat)
  ((if n1 then -a else a) + (if n2 then -b else b), e)

/-- The sum of two values. An exact zero of a sum of opposite signs is −0 under RDN and +0 otherwise; zeros of one sign keep
it (R45). -/
def addNum (rm : RMode) : Num → Num → Exact
  | .nan _, _ => .nan
  | _, .nan _ => .nan
  | .inf a, .inf b => if a = b then .inf a false else .invalid
  | .inf a, _ => .inf a false
  | _, .inf b => .inf b false
  | .fin n1 m1 e1, .fin n2 m2 e2 =>
    if m1 = 0 ∧ m2 = 0 then .fin (if n1 = n2 then n1 else rm == .rdn) 0 0 false
    else if m1 = 0 then .fin n2 m2 e2 false
    else if m2 = 0 then .fin n1 m1 e1 false
    else
      let s := dyadicAdd n1 m1 e1 n2 m2 e2
      if s.1 = 0 then .fin (rm == .rdn) 0 0 false
      else .fin (decide (s.1 < 0)) s.1.natAbs s.2 false

/-- A value with its sign inverted. -/
def negNum : Num → Num
  | .nan s => .nan s
  | .inf n => .inf (!n)
  | .fin n m e => .fin (!n) m e

/-- The product of two values, exact; none where it is 0·∞. -/
def mulNum : Num → Num → Option Num
  | .nan s, .nan t => some (.nan (s || t))
  | .nan s, _ => some (.nan s)
  | _, .nan t => some (.nan t)
  | .inf a, .inf b => some (.inf (a != b))
  | .inf a, .fin b m _ => if m = 0 then none else some (.inf (a != b))
  | .fin a m _, .inf b => if m = 0 then none else some (.inf (a != b))
  | .fin a m1 e1, .fin b m2 e2 => some (.fin (a != b) (m1 * m2) (e1 + e2))

/-- The product as an exact result. -/
def mulExact (x y : Num) : Exact :=
  match mulNum x y with
  | none => .invalid
  | some p => p.exact

/-- Whether a value is a NaN. -/
def Num.isNan : Num → Bool
  | .nan _ => true
  | _ => false

/-- Multiply-add with the product negated where `np` holds (R131, R184): one exact sum. -/
def fmaExact (rm : RMode) (np : Bool) (x y z : Num) : Exact :=
  if x.isNan || y.isNan || z.isNan then .nan
  else
    match mulNum x y with
    | none => .invalid
    | some p => addNum rm (if np then negNum p else p) z

/-- The quotient of two values (R43, R125): enough bits for every destination, the rest in the stick. -/
def divExact : Num → Num → Exact
  | .nan _, _ => .nan
  | _, .nan _ => .nan
  | .inf _, .inf _ => .invalid
  | .inf a, .fin b _ _ => .inf (a != b) false
  | .fin a _ _, .inf b => .fin (a != b) 0 0 false
  | .fin a m1 e1, .fin b m2 e2 =>
    if m2 = 0 then (if m1 = 0 then .invalid else .inf (a != b) true)
    else
      let k : Nat := 160 + m2.log2 - m1.log2
      let n := m1 * 2 ^ k
      .fin (a != b) (n / m2) (e1 - e2 - k) (n % m2 != 0)

/-- One step of the digit-by-digit integer square root. -/
def isqrtGo (n : Nat) : Nat → Nat → Nat
  | 0, r => r
  | b + 1, r => isqrtGo n b (if (r + 2 ^ b) * (r + 2 ^ b) ≤ n then r + 2 ^ b else r)
/-- The integer square root. -/
def isqrt (n : Nat) : Nat := isqrtGo n (n.log2 / 2 + 1) 0

/-- The square root (R125): √−0 = −0, and a negative non-zero operand is invalid. -/
def sqrtExact : Num → Exact
  | .nan _ => .nan
  | .inf neg => if neg then .invalid else .inf false false
  | .fin neg m e =>
    if m = 0 then .fin neg 0 0 false
    else if neg then .invalid
    else
      -- an even exponent, and 160 further bits of root
      let s : Nat := if e % 2 = 0 then 320 else 321
      let n := m * 2 ^ s
      let r := isqrt n
      .fin false r ((e - (s : Int)) / 2) (r * r != n)

/-- x · 2^n (R177, VFSCALE). -/
def scaleExact (x : Num) (n : Int) : Exact :=
  match x with
  | .fin neg m e => if m = 0 then .fin neg 0 0 false else .fin neg m (e + n) false
  | y => y.exact

/-- A value rounded with RNE to 12 significant bits over an unbounded exponent range (R179), and whether that changed it. -/
def round12 (neg : Bool) (m : Nat) (e : Int) (stick : Bool) : Num × Bool :=
  let q : Int := e + (m.log2 : Int) - 11
  let n := roundUnits .rne 0 neg m e stick q
  (.fin neg n.1 q, n.2)

/-- The estimate of an exact result, and whether the 12-bit rounding changed it (R179). -/
def estimate : Exact → Exact × Bool
  | .fin neg m e stick =>
    if m = 0 then (.fin neg 0 0 false, false)
    else
      let r := round12 neg m e stick
      (r.1.exact, r.2)
  | x => (x, false)

/-- 1/√x (R179), from the exact root of the reciprocal. -/
def rsqrtExact : Num → Exact
  | .nan _ => .nan
  | .inf neg => if neg then .invalid else .fin false 0 0 false
  | .fin neg m e =>
    if m = 0 then .inf neg true
    else if neg then .invalid
    else
      let k : Nat := 320 + 2 * m.log2 + (if e % 2 = 0 then 0 else 1)
      let r := isqrt (2 ^ k / m)
      .fin false r (-((e + (k : Int)) / 2)) (r * r * m != 2 ^ k)

/-- Fractional bits of the fixed-point arithmetic behind the two transcendental estimates. -/
def fxBits : Nat := 200

/-- The product over the set bits of a fraction of the successive square roots of two, in fixed point: 2^(a/2^b), where
`c` is 2^(1/2^j) for the j next in turn. -/
def exp2Go (a : Nat) : Nat → Nat → Nat → Nat
  | 0, _, y => y
  | b + 1, c, y =>
    let c' := isqrt (c * 2 ^ fxBits)
    exp2Go a b c' (if a / 2 ^ b % 2 = 1 then y * c' / 2 ^ fxBits else y)

/-- 2^x before its rounding to 12 bits (R179): exact for an integer x, otherwise to 190 bits with a stick; no 12-bit
boundary lies so near an irrational result for any operand of the formats. -/
def exp2Exact : Num → Exact
  | .nan _ => .nan
  | .inf neg => if neg then .fin false 0 0 false else .inf false false
  | .fin neg m e =>
    -- x = z·2^−100, rounded toward minus infinity
    let z : Int := if 0 ≤ e + 100 then (if neg then -(m * 2 ^ (e + 100).toNat : Nat) else (m * 2 ^ (e + 100).toNat : Nat))
      else (if neg then -((m : Int) / 2 ^ (min (-(e + 100)).toNat (m.log2 + 2))) - 1 else (m : Int) / 2 ^ (min (-(e + 100)).toNat (m.log2 + 2)))
    let n := z / 2 ^ 100
    let f := (z % 2 ^ 100).toNat
    if m = 0 then .fin false 1 0 false
    else if f = 0 ∧ 0 ≤ e + 100 then .fin false 1 n false
    else .fin false (exp2Go f 100 (2 * 2 ^ fxBits) (2 ^ fxBits)) (n - fxBits) true

/-- The bits of log2 of a fixed-point number y in [1, 2), by repeated squaring. -/
def log2Go (p : Nat) : Nat → Nat → Nat → Nat
  | 0, _, acc => acc
  | b + 1, y, acc =>
    let s := y * y / 2 ^ p
    if 2 ^ (p + 1) ≤ s then log2Go p b (s / 2) (2 * acc + 1) else log2Go p b s (2 * acc)

/-- log2 x before its rounding to 12 bits (R179): exact for a power of two. -/
def log2Exact : Num → Exact
  | .nan _ => .nan
  | .inf neg => if neg then .invalid else .inf false false
  | .fin neg m e =>
    if m = 0 then .inf true true
    else if neg then .invalid
    else
      let n : Int := e + (m.log2 : Int)
      if m = 2 ^ m.log2 then .fin (decide (n < 0)) n.natAbs 0 false
      else
        let y := m * 2 ^ (500 - m.log2)
        let l := log2Go 500 fxBits y 0
        let z : Int := n * 2 ^ fxBits + l
        -- z ≤ log2 x · 2^fxBits < z + 1; a negative magnitude is counted down from −(z + 1)
        if 0 ≤ z then .fin false z.toNat (-(fxBits : Int)) true
        else .fin true (-z - 1).toNat (-(fxBits : Int)) true

/-- Order of two non-NaN values: negative, zero or positive as x is below, equal to or above y. −0 equals +0. -/
def cmpNum : Num → Num → Int
  | .inf a, .inf b => if a = b then 0 else if a then -1 else 1
  | .inf a, _ => if a then -1 else 1
  | _, .inf b => if b then 1 else -1
  | .fin n1 m1 e1, .fin n2 m2 e2 => Int.sign (dyadicAdd n1 m1 e1 (!n2) m2 e2).1
  | _, _ => 0

/-- Whether a value is negative zero or a negative number. -/
def Num.sign : Num → Bool
  | .nan _ => false
  | .inf n => n
  | .fin n _ _ => n

/-- Which of two operands FMIN (`max` false) or FMAX returns (R126): the first, the second, or the canonical NaN; −0 counts
as smaller than +0. -/
def minMaxPick (max : Bool) (x y : Num) : Option Bool :=
  if x.isNan && y.isNan then none
  else if x.isNan then some false
  else if y.isNan then some true
  else
    let c := cmpNum x y
    let xLess := decide (c < 0) || (c == 0 && x.sign && !y.sign)
    some (if max then !xLess else xLess || (c == 0 && x.sign == y.sign))

/-- The bits of a floating-point operand as an instruction with flushing reads them (R44). -/
def flushBits (f : FpFmt) (ftz : Bool) (b : Nat) : Nat :=
  let b := b % 2 ^ f.width
  if ftz ∧ b / 2 ^ f.mbits % 2 ^ f.ebits = 0 then b / 2 ^ (f.width - 1) * 2 ^ (f.width - 1) else b

/-- FMIN and FMAX on bits (R126, R177): the operand returned bit for bit as read. -/
def minMaxBits (f : FpFmt) (max ftz : Bool) (a b : Nat) : Nat × FFlags :=
  let x := fpVal f ftz a
  let y := fpVal f ftz b
  (match minMaxPick max x y with
    | none => f.canonNan
    | some true => flushBits f ftz a
    | some false => flushBits f ftz b, sigFlag x ||| sigFlag y)

/-- FNEG and FABS on bits (R127): a NaN gives the canonical NaN with its sign inverted or cleared. -/
def signBits (f : FpFmt) (neg ftz : Bool) (a : Nat) : Nat :=
  let a := flushBits f ftz a
  let b := if (fpVal f false a).isNan then f.canonNan else a
  if neg then b ^^^ 2 ^ (f.width - 1) else b % 2 ^ (f.width - 1)

/-- The class value of R129. -/
def classBits (f : FpFmt) (ftz : Bool) (a : Nat) : Nat :=
  match fpVal f ftz a with
  | .nan s => if s then 2 ^ 8 else 2 ^ 9
  | .inf n => if n then 2 ^ 0 else 2 ^ 7
  | .fin n m _ =>
    if m = 0 then (if n then 2 ^ 3 else 2 ^ 4)
    else if a / 2 ^ f.mbits % 2 ^ f.ebits = 0 then (if n then 2 ^ 2 else 2 ^ 5)
    else (if n then 2 ^ 1 else 2 ^ 6)

/-- A comparison for equality, with NV on a signalling NaN only (R128, R181). -/
def cmpEq (x y : Num) : Bool × FFlags := (!x.isNan && !y.isNan && cmpNum x y == 0, sigFlag x ||| sigFlag y)
/-- A comparison for order, with NV on any NaN; `orEq` admits equality (R128, R181). -/
def cmpLt (orEq : Bool) (x y : Num) : Bool × FFlags :=
  if x.isNan || y.isNan then (false, flagNV)
  else (decide (cmpNum x y < 0) || (orEq && cmpNum x y == 0), 0)

/-- Signed division rounding toward zero, with the borderline cases of R122. -/
def divSigned (x y : Word) : Word := if y = 0 then -1 else x.sdiv y
/-- Signed remainder with the sign of the dividend (R122). -/
def remSigned (x y : Word) : Word := if y = 0 then x else x.srem y
/-- Unsigned division (R122). -/
def divUnsigned (x y : Word) : Word := if y = 0 then -1 else x / y
/-- Unsigned remainder (R122). -/
def remUnsigned (x y : Word) : Word := if y = 0 then x else x % y

/-- Leading zero bits among the n low bits of x. -/
def clzGo (x : Word) : Nat → Nat
  | 0 => 0
  | n + 1 => if x.getLsbD n then 0 else clzGo x n + 1
/-- Leading zero bits of x, 0 to 64 (R121). -/
def clz (x : Word) : Word := BitVec.ofNat 64 (clzGo x 64)
/-- Trailing zero bits of x from bit k on, n bits at most. -/
def ctzGo (x : Word) (k : Nat) : Nat → Nat
  | 0 => 0
  | n + 1 => if x.getLsbD k then 0 else ctzGo x (k + 1) n + 1
/-- Trailing zero bits of x, 0 to 64 (R121). -/
def ctz (x : Word) : Word := BitVec.ofNat 64 (ctzGo x 0 64)
/-- Set bits among the n low bits of a number. -/
def popGo (x : Nat) : Nat → Nat
  | 0 => 0
  | n + 1 => x / 2 ^ n % 2 + popGo x n
/-- Set bits of x (R121). -/
def popc (x : Word) : Word := BitVec.ofNat 64 (popGo x.toNat 64)
/-- x with its bytes in the opposite order (R121). -/
def bswap (x : Word) : Word :=
  x.extractLsb' 0 8 ++ x.extractLsb' 8 8 ++ x.extractLsb' 16 8 ++ x.extractLsb' 24 8 ++
  x.extractLsb' 32 8 ++ x.extractLsb' 40 8 ++ x.extractLsb' 48 8 ++ x.extractLsb' 56 8
/-- Bits [127:64] of the signed product (R121). -/
def mulHigh (x y : Word) : Word := BitVec.ofInt 64 (x.toInt * y.toInt / 2 ^ 64)
/-- Bits [127:64] of the unsigned product (R121). -/
def mulHighU (x y : Word) : Word := BitVec.ofNat 64 (x.toNat * y.toNat / 2 ^ 64)
/-- A truth value in a register. -/
def boolWord (b : Bool) : Word := if b then 1 else 0

end Sys2Proof.Machine
end

