-- ==== Sys2Proof/Machine/State.lean ====
section
/-! DEFINITION. The state of the module as plain data: everything INVENTORY.md lists under State. Units of which there are
many (contexts, cores, quads, regions, memory bytes, directory entries, barriers) lie in sparse maps whose default is the
unit after reset. -/

namespace Sys2Proof.Machine

/-- A step that the specification gives the machine only in other states: raised by an event constructor whose unit has
nothing of the kind to do (a store buffer that is empty, a timer that is not armed). Safe: the machine takes no such step.
No instruction of a program raises it. -/
inductive Fault
  | notEnabled (event : String)
  deriving DecidableEq, Repr

/-- No meaning for the instruction. Safe. -/
inductive Refusal
  /-- The arm of exec is not written yet. -/
  | notModelled (mnemonic : String)
  deriving DecidableEq, Repr

/-- A memory of bytes: cells at rising addresses, none holding 0, which an unlisted address holds. -/
abbrev Memory := List Host.Cell
/-- The canonical form of a memory. -/
abbrev Memory.wf (m : Memory) : Bool := SMap.wf (0 : Byte) m

/-- Where a byte lies: an HBM physical address, an offset in a core's slice, or fabric space (R256, R257, R260). -/
inductive Loc
  | hbm (pa : Nat)
  | spad (core : Nat) (off : Nat)
  | fabric (pa : Nat)
  deriving DecidableEq, Repr

/-- One translated piece of an access: its bytes are consecutive from `loc`, within one page or the window. `ent` is the TLB
entry that translated it (0 for none) and `log` the size of its page. -/
structure Piece where
  va       : Nat
  loc      : Loc
  len      : Nat
  uncached : Bool
  ent      : Nat := 0
  log      : Nat := 12
  deriving DecidableEq, Repr

/-- What a store-buffer entry does (R139, R281). -/
inductive SbKind
  | write (data : List Byte)
  | zero | inv | flush | clean
  deriving DecidableEq, Repr

/-- An entry of a store buffer. `faraway` says that some byte's home is not on the issuing core's die (R362); `seq` is its place
among the issues, before later tile instructions of its context and after earlier ones (R286). -/
structure SbEntry where
  kind    : SbKind
  pieces  : List Piece
  faraway : Bool
  asid    : Nat
  dlog    : Bool
  seq     : Nat := 0
  deriving DecidableEq, Repr

/-- A TLB entry (R270, R272): a leaf translation, its logged flag (R274), its pins, and the contexts whose TLBINV has
removed it from use while it is pinned (R273). Copies of one walk's leaf in several TLBs share their `id`. -/
structure TlbEnt where
  va      : Nat
  log     : Nat
  asid    : Nat
  glob    : Bool
  r       : Bool
  w       : Bool
  x       : Bool
  u       : Bool
  mt      : Bool
  frame   : Nat
  logged  : Bool
  pins    : Nat
  removed : List Nat
  id      : Nat := 0
  deriving DecidableEq, Repr

/-- A walk-cache entry: the table that the walk of an address prefix has reached at a level (R272). -/
structure WalkEnt where
  root  : Nat
  asid  : Nat
  level : Nat
  key   : Nat
  table : Nat
  deriving DecidableEq, Repr

/-- States of a context (R91). TRAPPING carries the cycle in which it began. -/
inductive CtxSt
  | free | ready | waitReg | waitMiss | waitUnit | parked | yielded
  | trapping (since : Nat)
  deriving DecidableEq, Repr

/-- What a context in WAIT-REG or WAIT-UNIT waits for before its instruction issues or goes on (R91, R111). -/
inductive WaitOn
  | none
  | vReg                 -- a vector register that a TSLV writes (R226)
  | gReg                 -- a scalar result of a vector instruction (R97)
  | vBehind              -- a vector instruction before its last trap point (R94)
  | vqFull | tqFull | sbFull | cntFull
  | vecDone              -- every earlier vector instruction (R147, R226)
  | vclear               -- the background clear of a launch (R105)
  | tqEmpty              -- the tile queue (R218, R221)
  | drained              -- the context's own stores (R252, R277)
  | fence                -- FENCE (R294)
  | tileOverlap          -- a tile footprint (R226)
  | tilePins             -- pins of the tile unit (R235)
  | overlap              -- buffered stores that a load-like atomic overlaps (R277)
  | post (aq : Fin 8) (b : GReg)   -- a CHPOST not yet accepted, by its operands (R334)
  | pins                 -- TLBSYNC (R252)
  | engineLine           -- a line an engine owns (R298), or a reservation holds back (R305)
  | again                -- nothing: a READY context that goes on with the instruction it was parked in (R336, R365, R374)
  deriving DecidableEq, Repr

/-- The identity of a gang barrier (R366): gang, scope, scope instance and id; for .pod the lowest region that holds a member of
the group, and the group. -/
structure BarKey where
  gang : Nat
  sc   : BarScope
  inst : Nat
  id   : Nat
  deriving DecidableEq, Repr

/-- What a parked context awaits (R91, R251, R335, R365, R368, R374). A barrier wait that has been released carries RES. -/
inductive Park
  | none
  | wfi
  | chan (n : Fin 16)
  | cwait (bl bs bc bt : Fin 16)
  | bcwait (n : Fin 16)
  | bar (k : BarKey) (phase : Nat) (gbar : Bool) (d : GReg) (since : Nat) (res : Option Word)
  deriving DecidableEq, Repr

/-- A scalar access in WAIT-MISS (R91): a load whose line is on its way, `granted` once the home has served it and `ent` the TLB entry that translated it, or an atomic
whose result is on its way (R277). -/
inductive Miss
  | none
  | load (d : GReg) (n : Nat) (sext : Bool) (va : Nat) (loc : Loc) (ent : Nat) (granted : Bool)
  | atom (d : GReg) (value : Word)
  deriving DecidableEq, Repr

/-- The kinds of event of a context's event queue (R338): an arrival at a channel, an interrupt cause from 0x40 on, a change of counter
C, a completion of a byte-count counter, and a barrier release. -/
inductive EvKind
  | chan (n : Fin 16)
  | cause (i : Fin 6)
  | counter
  | bytes (n : Fin 16)
  | barrier
  deriving DecidableEq, Repr

/-- An entry of the event queue: its kind, and of an interrupt the TVAL of the latest event folded into it (R250, R338). -/
structure Event where
  kind : EvKind
  tval : Word
  deriving DecidableEq, Repr

/-- STATUS (R240). -/
structure Status where
  mode  : Bool
  ie    : Bool
  pie   : Bool
  pmode : Bool
  ven   : Bool
  vd    : Bool
  ten   : Bool
  ye    : Bool
  ipend : BitVec 6
  deriving DecidableEq, Repr

/-- The state of one context (R21, R91). -/
structure Ctx where
  st        : CtxSt
  wait      : WaitOn
  park      : Park
  miss      : Miss
  pc        : Word
  g         : Vector Word 32
  status    : Status
  ipendTval : Vector Word 6
  /-- The event queue (R310, R338): what the core's event arbiter has accepted for the context and the context has not yet acted on. -/
  events    : List Event
  epc       : Word
  cause     : BitVec 8
  tval      : Word
  tvec      : Word
  kscr      : Vector Word 3
  gang      : BitVec 16
  member    : BitVec 10
  gsize     : BitVec 11
  prio      : BitVec 2
  cntL      : BitVec 16
  cntS      : BitVec 16
  cntC      : BitVec 16
  cntT      : BitVec 16
  yDl       : BitVec 32
  yPend     : Bool
  yStart    : Nat
  /-- While the deadline has still to expire: the ticks from yStart before which it does not (R243). -/
  yArmed    : Option Nat
  ydead     : BitVec 8
  ptOn      : Bool
  ptRoot    : BitVec 40
  asid      : BitVec 16
  dlog      : Bool
  chmask    : BitVec 16
  iret      : Word
  pmsel     : Vector (BitVec 10) 8
  pmcnt     : Vector Word 8
  vl        : BitVec 12
  es        : BitVec 2
  grp       : BitVec 2
  vstart    : BitVec 12
  vfill     : Word
  vcap      : BitVec 4
  vffe      : BitVec 13
  stripbase : Word
  seed      : Word
  fstat     : FFlags
  v         : Vector (BitVec 16384) 32
  m         : Vector (BitVec 2048) 16
  sb        : List SbEntry
  acksDue   : Nat
  vclear    : Bool
  /-- The context's youngest instruction is a resumable vector instruction (R112). -/
  young     : Bool
  waited    : Nat
  lastIssue : Nat
  yieldedAt : Nat
  trapRun   : Nat
  deriving DecidableEq, Repr

/-- A context after reset (R22, R118, R145, R240 to R244, R253): FREE, in K mode, VCAP at 14, everything else 0. -/
def Ctx.reset : Ctx where
  st := .free
  wait := .none
  park := .none
  miss := .none
  pc := 0
  g := Vector.replicate 32 0
  status := ⟨true, false, false, false, false, false, false, false, 0⟩
  ipendTval := Vector.replicate 6 0
  events := []
  epc := 0
  cause := 0
  tval := 0
  tvec := 0
  kscr := Vector.replicate 3 0
  gang := 0
  member := 0
  gsize := 0
  prio := 0
  cntL := 0
  cntS := 0
  cntC := 0
  cntT := 0
  yDl := 0
  yPend := false
  yStart := 0
  yArmed := none
  ydead := 0
  ptOn := false
  ptRoot := 0
  asid := 0
  dlog := false
  chmask := 0
  iret := 0
  pmsel := Vector.replicate 8 0
  pmcnt := Vector.replicate 8 0
  vl := 0
  es := 0
  grp := 0
  vstart := 0
  vfill := 0
  vcap := 14
  vffe := 0
  stripbase := 0
  seed := 0
  fstat := 0
  v := Vector.replicate 32 0
  m := Vector.replicate 16 0
  sb := []
  acksDue := 0
  vclear := false
  young := false
  waited := 0
  lastIssue := 0
  yieldedAt := 0
  trapRun := 0

/-- Element-wise integer operations (R155). -/
inductive VBin
  | add | sub | mul | mulh | mulhu | min | max | minu | maxu | and | or | xor | shl | shr | sra
  | adds | addsu | subs | subsu | avg | absd
  deriving DecidableEq, Repr
/-- Integer compares (R157). -/
inductive VCmp | eq | ne | lt | le | ltu | leu
  deriving DecidableEq, Repr
/-- Two-operand floating-point operations (R177). -/
inductive FBin | add | sub | mul | div | min | max | scale
  deriving DecidableEq, Repr
/-- One-operand floating-point operations (R177, R179). -/
inductive FUn | sqrt | rcp | rsq | exp2 | log2 | abs | neg
  deriving DecidableEq, Repr
/-- Floating-point compares (R181). -/
inductive FCmp | eq | lt | le | un
  deriving DecidableEq, Repr
/-- Integer reductions (R187). -/
inductive VRed | sum | max | min | maxu | minu | and | or | xor
  deriving DecidableEq, Repr
/-- Logical mask instructions of two operands (R166). -/
inductive MBin | and | or | xor | andn
  deriving DecidableEq, Repr
/-- A second operand: a vector group, or the scalar read at dispatch. -/
inductive VSrc | vec (r : VReg) | scal
  deriving DecidableEq, Repr

/-- Address forms of the vector memory instructions (R196). -/
inductive VMode
  | unit | strided
  | indexed (iw : Fin 4) (b : VReg)
  | segment (nf : Fin 8) (mw : Fin 4)
  | faultFirst
  | planar (p k : Fin 4) (rnd : Bool)
  | whole (cnt : Fin 4)
  | expand (rep : Fin 8)
  deriving DecidableEq, Repr

/-- What the vector unit is asked to do: one name for each function of the vector majors (R73 to R77). -/
inductive VOp
  | int (o : VBin) (d a : VReg) (b : VSrc)
  | narrow (d a : VReg)
  | cmp (o : VCmp) (d : MReg) (a b : VReg)
  | merge (d a b : VReg)
  | fbin (o : FBin) (d a : VReg) (b : VSrc)
  | fun1 (o : FUn) (d a : VReg)
  | cvt (d a b : VReg)
  | fcmp (o : FCmp) (d : MReg) (a b : VReg)
  | fclass (d a : VReg)
  | nf (d : MReg) (a : VReg)
  | fma (neg : Bool) (d a b c : VReg)
  | ima (d a b c : VReg)
  | red (o : VRed) (d a b : VReg)
  | fredsum (d a b : VReg)
  | fredmm (max : Bool) (d a b : VReg)
  | slide (up : Bool) (d a : VReg)
  | gather (d a b : VReg)
  | compress (d a : VReg)
  | expand (d a : VReg)
  | bcast (d : VReg)
  | ext (d : GReg) (a : VReg)
  | ins (d : VReg)
  | vid (d : VReg)
  | iota (d : VReg) (a : MReg)
  | zip (d a b : VReg)
  | unzip (d a b : VReg)
  | mov (d a : VReg)
  | unpk (d a : VReg)
  | rnd (d : VReg)
  | plhead (d a : VReg)
  | plresc (d a b : VReg)
  | plstep (d a b c : VReg)
  | mlog (o : MBin) (d a b : MReg)
  | mnot (d a : MReg)
  | mpopc (d : GReg) (a : MReg)
  | mfirst (d : GReg) (a : MReg)
  | msbf (incl : Bool) (d a : MReg)
  | mset (d : MReg) (val : Bool)
  | mmovg (d : MReg)
  | mmovm (d : GReg) (a : MReg)
  | mem (store : Bool) (md : VMode) (d : VReg)
  deriving DecidableEq, Repr

/-- A pin window of a vector load whose data is on its way (R201): the index after its last element, the pieces of its
performed elements, and the element at which it fails with cause and address. -/
structure VWin where
  upto  : Nat
  elems : List (Nat × List Piece)
  fault : Option (Nat × Nat × Nat)
  deriving DecidableEq, Repr

/-- An entry of the vector dispatch queue (R97): the instruction with everything that R38 and R148 have it read at dispatch.
`x` and `y` are the general registers a and b; `first` is the first element to perform, `pos` the first not performed; `win` is
the pinned window of a load; `last` says that the last trap point is passed (R94). -/
structure VEntry where
  ctx       : Nat
  op        : VOp
  mask      : MaskSel
  pc        : Word
  vl        : Nat
  es        : Nat
  grp       : Nat
  vstart    : Nat
  vfill     : Word
  stripbase : Word
  seed      : Word
  lenLog    : Nat
  fw        : Word
  x         : Word
  y         : Word
  first     : Nat
  pos       : Nat
  win       : Option VWin
  last      : Bool
  cntL      : Bool
  cntS      : Bool
  deriving DecidableEq, Repr

/-- What the matrix unit is asked to do (R78). Masks, stride and slice index are captured at issue (R226). -/
inductive TOp
  | mop (comp : Bool) (ac : AccReg) (qa qb : PanelReg) (rows cols : BitVec 64) (kmask : BitVec 256) (zero neg : Bool)
  | zero (ac : AccReg) (clrf : Bool)
  | load (q : PanelReg) (trans band : Bool)
  | store (ac : AccReg) (zero : Bool)
  | slv (ac : AccReg) (v : VReg) (s0 n : Nat) (col : Bool)
  | vsl (ac : AccReg) (s0 n : Nat) (col : Bool) (cells : List (BitVec 32))
  | save (t : TileItem)
  | rstr (t : TileItem)
  deriving DecidableEq, Repr

/-- An entry of the tile operation queue (R225), with the pages pinned at issue (R235). -/
structure TEntry where
  ctx       : Nat
  op        : TOp
  pc        : Word
  fw        : Word
  a         : Word
  b         : Word
  seed      : Word
  stripbase : Word
  lenLog    : Nat
  asid      : Nat
  dlog      : Bool
  pieces    : List Piece
  pages     : Nat
  /-- The combined read that a TMCAST belongs to (R233). -/
  cast      : Option Nat
  started   : Bool
  /-- Its place among the issues, as a store-buffer entry has one (R286). -/
  seq       : Nat := 0
  deriving DecidableEq, Repr

/-- A combined read of TMCAST instructions (R233): who may join it, when it began, and its bytes once read, with the poison of
each. -/
structure Cast where
  id    : Nat
  gang  : Nat
  inst  : Nat
  asid  : Nat
  a     : Word
  b     : Word
  fa    : Nat
  since : Nat
  data  : Option (List (Byte × Bool))
  /-- The contexts that have joined it. -/
  ctxs  : List Nat := []
  /-- Once read, the pieces that it was read from. -/
  from_ : List Piece := []
  deriving DecidableEq, Repr

/-- The TSTAT field of an accumulator (R221). -/
structure TFlags where
  ovf    : Bool
  nv     : Bool
  sat    : Bool
  nx     : Bool
  poison : Bool
  deriving DecidableEq, Repr

/-- What a tender call was checked against when it was accepted (R329): object, its record, the handle's rights, and the
incarnation of the object's agent. -/
structure Grant where
  obj    : Nat
  rec_   : ObjectRec
  rights : BitVec 5
  inc    : BitVec 16
  deriving DecidableEq, Repr

/-- A command accepted by an engine (R312, R313): the block and what SEND carries with it; `cap` only of a tender call. -/
structure Cmd where
  w      : Vector Word 8
  ctx    : Nat
  kmode  : Bool
  asid   : Nat
  ptOn   : Bool
  ptRoot : Nat
  dlog   : Bool
  gang   : Nat
  member : Nat
  inc    : Nat
  gb     : Word
  ga     : Word
  ticket : Nat
  /-- Place of the acceptance among those of all engines (R297). -/
  seq    : Nat
  cap    : Option Grant
  deriving DecidableEq, Repr

/-- A command that has left its inbox: `done` once its own effects are performed, with what it reports (R315, R316).
`bytes` is the count of destination bytes for a KIND-2 reply; `status` is where the status word goes. `wait` says that the
effects go on outside the engine (a weave set, a collective instance, a storage target). -/
structure Run where
  cmd     : Cmd
  done    : Bool
  wait    : Bool
  code    : Nat
  flags   : FFlags
  result  : Word
  bytes   : Nat
  status  : Option Piece
  m2      : Word
  /-- The pieces whose pages the engine has pinned (R317). -/
  pins    : List Piece
  /-- While the command waits: the destination lines in HBM that its engine owns (R297). -/
  owns    : List (Nat × BitVec 8)
  replied : Bool
  /-- Its reply has been delivered, and its status word is still to be written (R299). -/
  delivered : Bool := false
  /-- While the command waits: its destination as it was translated and pinned (R317). -/
  dst     : List Piece := []
  deriving DecidableEq, Repr

/-- What reaches a core's event arbiter from an engine (R337). -/
inductive ArrKind
  | cdec (ctx gang member : Nat)
  | msg (chan : Fin 16) (m0 m1 m2 m3 : Word) (kmode : Bool)
  | bytes (bc : Fin 16) (n : Nat)
  deriving DecidableEq, Repr

/-- An event on its way: its kind, the region and incarnation of the issuer it was sent for, the engine and ticket of its command,
and the incarnations that the message carries (R375): of its engine's region, and of the target core's region. -/
structure Arrival where
  kind   : ArrKind
  region : Nat
  inc    : Nat
  core   : Nat
  eng    : EngineId
  /-- The command, by its place among all acceptances. -/
  seq    : Nat
  sinc   : Nat := 0
  tinc   : Nat := 0
  deriving DecidableEq, Repr

/-- A channel message (R333). -/
structure ChMsg where
  m0 : Word
  m1 : Word
  m2 : Word
  m3 : Word
  deriving DecidableEq, Repr

/-- An engine: inbox, acceptance number, running commands, held replies, translation cache (R310, R312, R317, R318). -/
structure Engine where
  inbox    : List Cmd
  accepted : Nat
  running  : List Run
  held     : List Arrival
  tlb      : List TlbEnt
  deriving DecidableEq, Repr

/-- An idle engine. -/
def Engine.idle : Engine := ⟨[], 0, [], [], []⟩

/-- A byte-count counter (R373). -/
structure Bc where
  value  : Int
  posted : Bool
  ovf    : Bool
  deriving DecidableEq, Repr

/-- The sectors of one line that an L1 data cache holds in M, E and S (R262). `good` marks clean copies that were received before
their sector in HBM became uncorrectable (R267). -/
structure L1Line where
  m : BitVec 8
  e : BitVec 8
  s : BitVec 8
  good : BitVec 8
  deriving DecidableEq, Repr

/-- An instruction-cache line: its number, the copy of its bytes, and the sectors that were delivered as poisoned (R266, R267). -/
structure ILine where
  line : Nat
  data : BitVec 1024
  bad  : BitVec 8
  deriving DecidableEq, Repr

/-- The state of one core. -/
structure Core where
  fenced   : Bool
  acc      : Vector (BitVec 131072) 8
  panel    : Vector (BitVec 65536) 16
  band     : Vector (BitVec 4096) 16
  tstat    : Vector TFlags 8
  owner    : BitVec 2
  owned    : Bool
  errCtx   : BitVec 2
  errPend  : Bool
  errAddr  : Word
  /-- Panels, scale bands and accumulators that hold an uncorrectable error not yet found, and accumulators whose next arithmetic
  fails its residue check (R222). -/
  badPanel : BitVec 16
  badBand  : BitVec 16
  badAcc   : BitVec 8
  badCheck : BitVec 8
  tq       : List TEntry
  vq       : List VEntry
  spsize   : BitVec 5
  l1       : SMap L1Line
  notices  : List (Nat × BitVec 8)
  /-- Lines in the region-cache part of the core's slice, with their dirty sectors, the latest entered first (R264). -/
  rcache   : List (Nat × BitVec 8)
  icache   : List ILine
  itlb     : List TlbEnt
  dtlb     : List TlbEnt
  tlb2     : List TlbEnt
  /-- Removed TLB entries that buffered stores and missed loads may still use, each with the context whose TLBINV removed it
  (R252). -/
  gone     : List (Nat × Nat)
  walks    : List WalkEnt
  chans    : Vector (List ChMsg) 16
  bc       : Vector Bc 16
  /-- CYCLE (R242), as the count of ungated cycles of the region at which it read 0. -/
  cycle    : Word
  stream   : Engine
  arrivals : List Arrival
  deriving DecidableEq, Repr

/-- A core after reset (R213, R244, R373): everything 0 or empty. -/
def Core.reset : Core where
  fenced := false
  acc := Vector.replicate 8 0
  panel := Vector.replicate 16 0
  band := Vector.replicate 16 0
  tstat := Vector.replicate 8 ⟨false, false, false, false, false⟩
  owner := 0
  owned := false
  errCtx := 0
  errPend := false
  errAddr := 0
  badPanel := 0
  badBand := 0
  badAcc := 0
  badCheck := 0
  tq := []
  vq := []
  spsize := 0
  l1 := []
  notices := []
  rcache := []
  icache := []
  itlb := []
  dtlb := []
  tlb2 := []
  gone := []
  walks := []
  chans := Vector.replicate 16 []
  bc := Vector.replicate 16 ⟨0, false, false⟩
  cycle := 0
  stream := .idle
  arrivals := []

/-- A weave step (R355). -/
structure WStep where
  src    : Nat
  dst    : Nat
  gran   : Nat
  len    : Nat
  soff   : Nat
  doff   : Nat
  stride : Nat
  deriving DecidableEq, Repr

/-- A byte that a weave run moves into a slot and has not written yet (R314, R326, R415): its number in the run, its group of steps, the
destination slot, its row, and both places; the move before it that writes its source before it is read, where the run has one; whether it
is the last of its group in a sector that the group covers whole; what source and destination held as far as the run knows: the byte to
be moved, and the last bytes that are not software's; and the byte itself, once another move has taken it over. -/
structure Sent where
  id    : Nat
  group : Nat
  slot  : Nat
  row   : Nat
  dst   : Loc
  src   : Loc
  via   : Option Nat
  heals : Bool
  old   : Byte
  seen  : Byte
  was   : Byte
  val   : Option Byte
  deriving DecidableEq, Repr

/-- The state of one quad: weave engine with its four tables (none before the first load), the gathering set as tickets by
slot with the cycle of its first member, the bytes of the last run that are still to be written, and the decompressor
(R310, R325, R326, R415). -/
structure Quad where
  weave  : Engine
  tables : Vector (Option (List WStep)) 4
  set    : List (Nat × Nat)
  since  : Nat
  sends  : List Sent
  decomp : Engine
  deriving DecidableEq, Repr

/-- A quad after reset. -/
def Quad.reset : Quad := ⟨.idle, Vector.replicate 4 none, [], 0, [], .idle⟩

/-- States of a region in the region map (R357). -/
inductive RegSt | free | assigned | resetting | fenced
  deriving DecidableEq, Repr

/-- A window entry (R358). -/
structure Window where
  rw     : Bool
  island : Nat
  base   : Nat
  size   : Nat
  link   : Nat
  deriving DecidableEq, Repr

/-- A mapping of a memory grant into fabric space (R330). -/
structure FabMap where
  base   : Nat
  size   : Nat
  read   : Bool
  write  : Bool
  handle : Nat
  deriving DecidableEq, Repr

/-- The state of one region. `key` counts the keys the region has had (R276), and `image` is the kernel image of its assignment, which
firmware places whenever the region leaves reset (R253). -/
structure Region where
  st        : RegSt
  island    : Nat
  boot      : Word
  image     : List (Nat × Byte)
  rta       : Nat
  key       : Nat
  windows   : Vector (Option Window) 8
  inc       : BitVec 16
  chanFence : List Nat
  portDown  : Bool
  pending   : List ChMsg
  /-- Of the pending events, how many wait for a Fanov core's restart to set IPEND as well (R397). -/
  quiet     : Nat
  lost      : Bool
  corr      : Nat
  uncorr    : Nat
  stale     : Nat
  route     : Nat
  throttled : Bool
  limit     : BitVec 11
  amps      : BitVec 11
  gated     : Word
  tripped   : Bool
  ep        : BitVec 18
  maps      : List FabMap
  coll      : Engine
  tend      : Engine
  lnch      : Engine
  heldDec   : List (Nat × Nat × Nat)
  /-- HEAD of the dirty-log ring as the hardware counts it (R356). -/
  dlogHead  : BitVec 32
  deriving DecidableEq, Repr

/-- A region before any assignment; its current limit is 625 A in units of 0.5 A (R18, R405). -/
def Region.reset : Region where
  st := .free
  island := 0
  boot := 0
  image := []
  rta := 0
  key := 0
  windows := Vector.replicate 8 none
  inc := 0
  chanFence := []
  portDown := false
  pending := []
  quiet := 0
  lost := false
  corr := 0
  uncorr := 0
  stale := 0
  route := 0
  throttled := false
  limit := 1250
  amps := 0
  gated := 0
  tripped := false
  ep := 0
  maps := []
  coll := .idle
  tend := .idle
  lnch := .idle
  heldDec := []
  dlogHead := 0

/-- A reservation-table entry (R350); the home slice is the table's key and `num` the entry's number there. `since` is the
cycle of the LR, `hold` says that other writes are still held back (R305). -/
structure Resv where
  num    : Nat
  ctx    : Nat
  dword  : Bool
  pa     : Nat
  inc    : BitVec 16
  since  : Nat
  hold   : Bool
  deriving DecidableEq, Repr

/-- A directory pointer (R344). -/
structure DirPtr where
  core : Nat
  span : BitVec 8
  deriving DecidableEq, Repr

/-- A directory or proxy entry (R344); `used` orders entries for replacement (R348). -/
structure DirEnt where
  coarse : Bool
  excl   : Bool
  ptrs   : List DirPtr
  qv     : BitVec 16
  span   : BitVec 8
  dies   : BitVec 16
  used   : Nat
  deriving DecidableEq, Repr

/-- A coherence request being served at a home (R345, R346, R349): who asks, for what, the invalidations sent and answered, and
for each die of DIES the answers its proxy still waits for. `probe` marks a discovery probe that has not been answered. -/
structure Txn where
  line  : Nat
  core  : Nat
  span  : BitVec 8
  write : Bool
  probe : Bool
  sent  : Nat
  acked : Nat
  ctx   : Nat
  fwd   : List (Nat × Nat) := []
  deriving DecidableEq, Repr

/-- A coherence message in flight (R346). `dieAck` is the one answer of a die's proxy. `crossed` stands for an invalidation that
the core has discarded because its notice is outstanding, with the sectors whose notice is still to arrive: the notice is the
acknowledgement (R347). -/
inductive CohMsg
  | inval (line core : Nat) (span : BitVec 8)
  | ack (line core : Nat)
  | dieAck (line die : Nat)
  | crossed (line core : Nat) (span : BitVec 8)
  deriving DecidableEq, Repr

/-- A gang barrier (R366): contributions of the open phase in order, from which ACC and MIX follow. EXP follows from the
registrations of the gang's members. -/
structure Barrier where
  phase    : BitVec 16
  arr      : BitVec 18
  contribs : List (Nat × Comb × Word)
  res      : Word
  deriving DecidableEq, Repr

/-- An arrival at a .pod barrier (R372): the phase to which it belongs, its rank, the context of this module that made it, and its
contribution. -/
structure PodArr where
  phase : Nat
  rank  : Nat
  ctx   : Option Nat
  comb  : Comb
  value : Word
  deriving DecidableEq, Repr

/-- A .pod barrier of a group (R372): phases completed, arrivals per rank, the arrivals of the phases not yet complete, RES of the
last completed phase, and whether another module's digest of the group differs. -/
structure PodBar where
  phase    : Nat
  counts   : SMap Nat
  arrivals : List PodArr
  res      : Word
  differs  : Bool
  deriving DecidableEq, Repr

/-- A gang: its barrier deadline and the context at which each member is registered (R366, R367). -/
structure Gang where
  bdl : Nat
  reg : List (Nat × Nat)
  deriving DecidableEq, Repr

/-- A contribution to a collective instance (R327). `fail` marks a member whose own source faulted or was poisoned; `site`
names the region and the command of a member of this module. -/
structure Contrib where
  rank  : Nat
  cmd   : Nat
  count : Nat
  par   : Nat
  data  : List Byte
  fail  : Bool
  site  : Option (Nat × Nat)   -- the region and the command's seq
  deriving DecidableEq, Repr

/-- A collective instance (R327): the lowest region of this module that holds a member, group, number, member count, digest of the
first contribution's entry (R354), contributions, start in TIME ticks, deadline, whether digests differ, and once it has completed
the ranks that have received the result. -/
structure CollInst where
  home     : Nat
  group    : Nat
  k        : Nat
  n        : Nat
  digest   : BitVec 32
  contribs : List Contrib
  start    : Nat
  dl       : Nat
  differs  : Bool
  written  : List Nat := []
  deriving DecidableEq, Repr

/-- An armed timer object (R330): expiry, period, the arming context and the handle used. -/
structure Timer where
  obj    : Nat
  expiry : Nat
  period : Nat
  ctx    : Nat
  handle : Word
  deriving DecidableEq, Repr

/-- An answer of firmware to the management host (R383, R404). -/
inductive MgmtOut
  | done
  | refused (reason : String)
  | report (bytes : List Byte)
  | told (reason : String)
  | value (x : Word)
  | counts (corr uncorr stale route : Nat)
  deriving DecidableEq, Repr

/-- MSTATUS (R405). -/
structure MStatus where
  replace : Bool
  fwready : Bool
  booterr : Bool
  hot     : Bool
  trip    : Bool
  deriving DecidableEq, Repr

/-- A route of a routing table (R357). -/
inductive Route | drop | localWest | localEast | north | south | west | east
  deriving DecidableEq, Repr

/-- Whose step comes next: an event of an agent, an issue slot of a core, or the passing of cycles (assumption 1). The others
are inputs that the opcode table has no row for: a current or temperature sensor changes (R18, R406), an error of a region is
corrected (R267), the management host reads a register or asks for a region's full error counts (R405). -/
inductive Turn
  | event (i : Instr)
  | issue (k : CoreId)
  | tick (n : Nat)
  | current (r : RegionId) (amps : BitVec 11)
  | heat (d : DieId) (deg : BitVec 8)
  | corrected (r : RegionId)
  | mgmtRead (off : Nat)
  | mgmtCounts (r : RegionId) (clear : Bool)
  deriving DecidableEq, Repr

/-- The state of the module. -/
structure State where
  /-- The model's own: the context on which an encoded instruction acts. -/
  cur       : Nat
  /-- The model's own: the core whose cycle comes next. -/
  turn      : Nat
  /-- The model's own: whose steps come next; when empty, the machine goes on by itself (step). -/
  sched     : List Turn
  /-- The model's own: how many free values have been drawn. -/
  fresh     : Nat
  /-- The model's own: issues so far, the order behind "least recently issued" (R95). -/
  issueSeq  : Nat
  /-- Commands accepted so far by all engines, the order behind R297. -/
  accSeq    : Nat
  cycles    : Nat
  ctxs      : SMap Ctx
  cores     : SMap Core
  quads     : SMap Quad
  regions   : SMap Region
  mem       : Memory
  /-- HBM values of bytes whose latest value lies dirty in a cache, and whether their sector in HBM is poisoned (R263, R267, R280). -/
  hbmOld    : SMap (Option (Byte × Bool))
  spad      : Memory
  poison    : SMap Bool
  spoison   : SMap Bool
  resv      : List (Nat × Resv)
  dir       : SMap (Option DirEnt)
  proxies   : SMap (Option DirEnt)
  txns      : List Txn
  cohMsgs   : List CohMsg
  bars      : List (BarKey × Barrier)
  podBars   : List (BarKey × PodBar)
  gangs     : SMap (Option Gang)
  gangSeq   : Nat
  casts     : List Cast
  castSeq   : Nat
  collCnt   : SMap Nat
  collInst  : List CollInst
  timers    : List Timer
  objects   : SMap (Option ObjectRec)
  modInc    : BitVec 16
  hostInc   : SMap (BitVec 16)
  links     : BitVec 22
  fanovDown : BitVec 16
  routes    : SMap Route
  lock      : BitVec 16
  mstatus   : MStatus
  dtemp     : Vector (BitVec 8) 16
  mgmtOut   : List MgmtOut
  deriving DecidableEq, Repr

/-- The machine right after power-on (R22, R253, R403): no region has left reset, every context is FREE with its reset
values, memory lists nothing, and the incarnation table of R359 starts at 0 for every agent (assumption 3). -/
def State.reset : State where
  cur := 0
  turn := 0
  sched := []
  fresh := 0
  issueSeq := 0
  accSeq := 0
  cycles := 0
  ctxs := []
  cores := []
  quads := []
  regions := []
  mem := []
  hbmOld := []
  spad := []
  poison := []
  spoison := []
  resv := []
  dir := []
  proxies := []
  txns := []
  cohMsgs := []
  bars := []
  podBars := []
  gangs := []
  gangSeq := 1
  casts := []
  castSeq := 0
  collCnt := []
  collInst := []
  timers := []
  objects := []
  modInc := 0
  hostInc := []
  links := 0
  fanovDown := 0
  routes := []
  lock := 0
  mstatus := ⟨false, false, false, false, false⟩
  dtemp := Vector.replicate 16 0
  mgmtOut := []

end Sys2Proof.Machine
end

