-- ==== Sys2Proof/Machine/Ops.lean ====
section
/-! DEFINITION. The named operations over the state: the units by number (R13), the registers of a context, bytes of HBM
and scratchpad with their poison (R255, R267, R276), and the taking of a trap and the return from one (R246, R248). -/

namespace Sys2Proof.Machine

/-- What a meaning answers. -/
abbrev Out := Host.Outcome State Fault Refusal

/-- A meaning over the outcome of another. -/
def Out.andThen (o : Out) (f : State → Out) : Out :=
  match o with
  | .next s => f s
  | .fault r => .fault r
  | .refused r => .refused r

/-- The step is not one that the machine can take in this state. -/
def notEnabled (event : String) : Out := .fault (.notEnabled event)

/-- A meaning that acts on context c, whatever context is acting. -/
def onCtx (c : Nat) (f : State → Out) (s : State) : Out :=
  (f { s with cur := c }).andThen (fun t => .next { t with cur := s.cur })

/-- Context number c. -/
def State.ctx (s : State) (c : Nat) : Ctx := SMap.get Ctx.reset s.ctxs c
/-- The state with context c replaced. -/
def State.setCtx (s : State) (c : Nat) (x : Ctx) : State := { s with ctxs := SMap.put Ctx.reset s.ctxs c x }
/-- The state with context c changed. -/
def State.modCtx (s : State) (c : Nat) (f : Ctx → Ctx) : State := s.setCtx c (f (s.ctx c))
/-- The context on which an encoded instruction acts. -/
def State.me (s : State) : Ctx := s.ctx s.cur
/-- The state with that context changed. -/
def State.modMe (s : State) (f : Ctx → Ctx) : State := s.modCtx s.cur f

/-- Core number k. -/
def State.core (s : State) (k : Nat) : Core := SMap.get Core.reset s.cores k
def State.setCore (s : State) (k : Nat) (x : Core) : State := { s with cores := SMap.put Core.reset s.cores k x }
def State.modCore (s : State) (k : Nat) (f : Core → Core) : State := s.setCore k (f (s.core k))
/-- Quad number q. -/
def State.quad (s : State) (q : Nat) : Quad := SMap.get Quad.reset s.quads q
def State.setQuad (s : State) (q : Nat) (x : Quad) : State := { s with quads := SMap.put Quad.reset s.quads q x }
def State.modQuad (s : State) (q : Nat) (f : Quad → Quad) : State := s.setQuad q (f (s.quad q))
/-- Region number r. -/
def State.region (s : State) (r : Nat) : Region := SMap.get Region.reset s.regions r
def State.setRegion (s : State) (r : Nat) (x : Region) : State := { s with regions := SMap.put Region.reset s.regions r x }
def State.modRegion (s : State) (r : Nat) (f : Region → Region) : State := s.setRegion r (f (s.region r))

/-! Numbers of units (R13). -/

/-- The core of a context. -/
def coreOf (c : Nat) : Nat := c / 4
/-- The die of a core. -/
def dieOfCore (k : Nat) : Nat := k / 64
def rowOfCore (k : Nat) : Nat := k % 64 / 8
def colOfCore (k : Nat) : Nat := k % 8
/-- The region of a core. -/
def regionOfCore (k : Nat) : Nat := 2 * dieOfCore k + colOfCore k / 4
/-- The quad of a core. -/
def quadOfCore (k : Nat) : Nat := dieOfCore k * 16 + (rowOfCore k / 2 * 4 + colOfCore k / 2)
/-- The slot of a core in its quad. -/
def slotOfCore (k : Nat) : Nat := rowOfCore k % 2 * 2 + colOfCore k % 2
/-- The core in slot t of quad q. -/
def coreAtSlot (q t : Nat) : Nat :=
  q / 16 * 64 + (q % 16 / 4 * 2 + t / 2) * 8 + (q % 4 * 2 + t % 2)
/-- The h-th core of region r in ascending order. -/
def coreOfRegion (r h : Nat) : Nat := r / 2 * 64 + h / 4 * 8 + (r % 2 * 4 + h % 4)
/-- The position of a core among its region's cores. -/
def posInRegion (k : Nat) : Nat := rowOfCore k * 4 + colOfCore k % 4
/-- The region of a context. -/
def regionOf (c : Nat) : Nat := regionOfCore (coreOf c)
/-- The region's cores. -/
def coresOfRegion (r : Nat) : List Nat := (List.range 32).map (coreOfRegion r)
/-- The region's contexts. -/
def ctxsOfRegion (r : Nat) : List Nat := (coresOfRegion r).flatMap (fun k => (List.range 4).map (k * 4 + ·))

/-- TIME (R376): the clock of 1.25 GHz divided by 16. -/
def State.time (s : State) : Word := BitVec.ofNat 64 (s.cycles / 16)
/-- Whether a deadline of d ticks from a cycle in which TIME read t0 has expired (R376): TIME has reached t0 + d modulo 2^64. -/
def State.elapsed (s : State) (t0 d : Nat) : Bool := decide (d ≤ (s.time - BitVec.ofNat 64 t0).toNat)
/-- The island of a region (R357). -/
def State.islandOf (s : State) (r : Nat) : Nat := (s.region r).island
/-- The regions of an island that are assigned to it. -/
def State.regionsOf (s : State) (x : Nat) : List Nat :=
  (List.range 32).filter (fun r => decide (((s.region r).st = .assigned ∨ (s.region r).st = .resetting) ∧ (s.region r).island = x))
/-- Draws a free value: the counter before, and the state with the counter advanced. -/
def State.draw (s : State) : Nat × State := (s.fresh, { s with fresh := s.fresh + 1 })

/-! Registers of a context (R118, R119). -/

/-- Ge(r): g0 reads 0 (R118). -/
def Ctx.getG (c : Ctx) (r : GReg) : Word := if r = 0 then 0 else c.g.get r
/-- A write to Ge(r); a write to g0 is discarded (R119). -/
def Ctx.setG (c : Ctx) (r : GReg) (x : Word) : Ctx := if r = 0 then c else { c with g := c.g.set r.val x r.isLt }
/-- Ge(r) of the acting context. -/
def State.g (s : State) (r : GReg) : Word := s.me.getG r
/-- The state with Ge(r) of the acting context written. -/
def State.setG (s : State) (r : GReg) (x : Word) : State := s.modMe (·.setG r x)
/-- The state with flags of FSTAT set (R46). -/
def State.setFlags (s : State) (f : FFlags) : State := s.modMe (fun c => { c with fstat := c.fstat ||| f })

/-- A context whose instruction has completed (R91, R242, R396). -/
def Ctx.done (c : Ctx) : Ctx :=
  { c with st := .ready, wait := .none, park := .none, miss := .none, iret := c.iret + 1, trapRun := 0, young := false }
/-- The acting context completes its instruction and goes on at `pc`. -/
def State.retireTo (s : State) (pc : Word) : State := s.modMe (fun c => { c.done with pc := pc })
/-- The acting context completes its instruction and goes on at the next word (R133). -/
def State.retire (s : State) : State := s.modMe (fun c => { c.done with pc := c.pc + 4 })
/-- The acting context writes a result and completes. -/
def State.finish (s : State) (d : GReg) (x : Word) : State := (s.setG d x).retire

/-- The acting context waits before its instruction issues or takes effect: nothing else changes (R91, R111). -/
def State.hold (s : State) (st : CtxSt) (w : WaitOn) : State := s.modMe (fun c => { c with st := st, wait := w })
/-- The acting context is PARKED (R91). -/
def State.parkOn (s : State) (p : Park) : State :=
  s.modMe (fun c => { c with st := .parked, wait := .none, park := p, young := false })

/-- Counts n occurrences of an event in the performance counters of a context (R377). -/
def Ctx.count (c : Ctx) (ev n : Nat) : Ctx :=
  { c with pmcnt := Vector.ofFn (fun i =>
      let sel := c.pmsel.get i
      if (sel.extractLsb' 0 8).toNat = ev ∧ ev ≠ 0 ∧ (if c.status.mode then sel.getLsbD 9 else sel.getLsbD 8)
      then c.pmcnt.get i + BitVec.ofNat 64 n else c.pmcnt.get i) }
/-- Counts an event of context c. -/
def State.count (s : State) (c ev n : Nat) : State := s.modCtx c (·.count ev n)

/-! Taking a trap or interrupt, and returning from one. -/

/-- Every reservation held by context c is lost (R279). -/
def State.dropResv (s : State) (c : Nat) : State := { s with resv := s.resv.filter (fun e => e.2.ctx != c) }

/-- The changes of R246 to the context's registers: EPC, CAUSE, TVAL, the status stack, K mode, the IPEND bit of an
interrupt, and the pc at the trap vector; the context is TRAPPING from cycle `now`. -/
def Ctx.enter (c : Ctx) (now code : Nat) (epc tval : Word) : Ctx :=
  { c with
    st := .trapping now, wait := .none, park := .none, miss := .none, young := false, waited := 0
    epc := epc &&& ~~~3#64, cause := BitVec.ofNat 8 code, tval := tval
    status := { c.status with
      pie := c.status.ie, ie := false, pmode := c.status.mode, mode := true
      ipend := if 0x40 ≤ code then c.status.ipend &&& ~~~(1#6 <<< (code - 0x40)) else c.status.ipend }
    pc := (c.tvec &&& ~~~255#64) + (if 0x40 ≤ code then 0x100 else 0)
    trapRun := c.trapRun + 1 }

/-- Taking a trap or interrupt (R246): the one shared operation. The event is counted (R377) and reservations are lost. -/
def State.trap (s : State) (c code : Nat) (epc tval : Word) : State :=
  ((s.count c 0x0D 1).dropResv c).modCtx c (·.enter s.cycles code epc tval)

/-- The acting context's instruction raises a synchronous trap: EPC holds its address (R94, R249). -/
def raise (code : Nat) (tval : Word) (s : State) : Out := .next (s.trap s.cur code s.me.pc tval)

/-- An instruction's word as TVAL records it (R55, R249). -/
def tvalWord (w : Nat) : Word := BitVec.ofNat 64 w

/-- Cause 0x01 (R55), with the word. -/
def raiseIllegal (w : Nat) (s : State) : Out := raise 0x01 (tvalWord w) s
/-- Cause 0x02 (R56), with the word. -/
def raiseReserved (w : Nat) (s : State) : Out := raise 0x02 (tvalWord w) s
/-- Cause 0x04 (R56), with the word. -/
def raisePriv (w : Nat) (s : State) : Out := raise 0x04 (tvalWord w) s

/-! The event queue of a context (R310, R338). -/

/-- Whether a context stands at an instruction boundary, where it acts on an event at once: always, but while it waits for the result of
an atomic, which no interrupt abandons (R111, R277), and while it is being redirected to its trap vector (R91; assumption 9). -/
def Ctx.atBoundary (c : Ctx) : Bool :=
  match c.st, c.miss with
  | .trapping _, _ => false
  | _, .atom _ _ => false
  | _, _ => true
/-- A context parked as p wakes and issues its instruction again (R336, R374). A CHWAIT too looks again, and parks once more where
another context has taken the message first: R336 says so of CHRECV only (assumption 74). -/
def Ctx.wakeOn (p : Park) (c : Ctx) : Ctx :=
  if c.st = .parked ∧ c.park = p then { c with st := .ready, wait := .again, park := .none } else c
/-- A context acts on an event (R338): an interrupt source sets its IPEND bit, with the TVAL of the latest event (R250); an arrival at a
channel wakes the context parked on it, and a completion the one that waits for the counter. A changed counter C is found by the CWAIT that
waits for it, and a barrier release is BARRIER_RELEASE's. -/
def Ctx.act (c : Ctx) (e : Event) : Ctx :=
  match e.kind with
  | .cause i => { c with
      status := { c.status with ipend := c.status.ipend ||| (1#6 <<< i.val) }, ipendTval := c.ipendTval.set i.val e.tval i.isLt }
  | .chan n => c.wakeOn (.chan n)
  | .bytes n => c.wakeOn (.bcwait n)
  | .counter => c
  | .barrier => c
/-- An event joins a queue: a second of a kind is folded into the entry, of which it replaces the TVAL (R250, R311, R338). -/
def Event.join (e : Event) (l : List Event) : List Event :=
  if l.any (·.kind == e.kind) then l.map (fun x => if x.kind = e.kind then e else x) else l ++ [e]
/-- The core's event arbiter accepts an event for a context (R337, R338), which acts on it at once or at its next boundary. -/
def Ctx.accept (e : Event) (c : Ctx) : Ctx := if c.atBoundary then c.act e else { c with events := e.join c.events }
/-- A context that has come to an instruction boundary acts on every entry of its queue. -/
def Ctx.settled (c : Ctx) : Ctx := c.events.foldl Ctx.act { c with events := [] }

/-- An interrupt for context c is accepted, with its TVAL (R250, R338). -/
def State.raiseInt (s : State) (c code : Nat) (tval : Word) : State :=
  s.modCtx c (Ctx.accept ⟨.cause (Fin.ofNat 6 (code - 0x40)), tval⟩)

/-- The return from a trap (R248): PC, MODE and IE are restored and nothing else changes. -/
def Ctx.eret (c : Ctx) : Ctx :=
  { c.done with pc := c.epc, status := { c.status with mode := c.status.pmode, ie := c.status.pie } }

/-- The instruction runs in K mode, or raises cause 0x04 (R56, R67). -/
def kOnly (w : Nat) (s : State) (f : State → Out) : Out := if s.me.status.mode then f s else raisePriv w s

/-- A count that saturates at 2^32 − 1. -/
def satCount (x n : Nat) : Nat := min (x + n) (2 ^ 32 - 1)
def State.countStale (s : State) (r n : Nat) : State := s.modRegion r (fun x => { x with stale := satCount x.stale n })
def State.countRoute (s : State) (r n : Nat) : State := s.modRegion r (fun x => { x with route := satCount x.route n })
def State.countCorr (s : State) (r n : Nat) : State := s.modRegion r (fun x => { x with corr := satCount x.corr n })
def State.countUncorr (s : State) (r n : Nat) : State := s.modRegion r (fun x => { x with uncorr := satCount x.uncorr n })

/-! Bytes of memory. -/

/-- A little-endian number (R3). -/
def leNat : List Byte → Nat
  | [] => 0
  | b :: t => b.toNat + 256 * leNat t
/-- The n low bytes of a number, the lowest first (R3). -/
def leBytes : Nat → Nat → List Byte
  | 0, _ => []
  | n + 1, x => BitVec.ofNat 8 x :: leBytes n (x / 256)

/-- The place i bytes on. -/
def Loc.plus : Loc → Nat → Loc
  | .hbm a, i => .hbm (a + i)
  | .spad k o, i => .spad k (o + i)
  | .fabric a, i => .fabric (a + i)

/-- The region whose stack holds a physical address (R257). -/
def regionOfPa (pa : Nat) : Nat := pa / 2 ^ 36
/-- Whether a place lies in the stack or a scratchpad of region r. -/
def Loc.within (r : Nat) : Loc → Bool
  | .hbm pa => regionOfPa pa == r
  | .spad k _ => regionOfCore k == r
  | .fabric _ => false
/-- The line of a physical address (R262). -/
def lineOf (pa : Nat) : Nat := pa / 128
/-- The home core of an HBM address (R258). -/
def homeCore (pa : Nat) : Nat :=
  let n := pa % 2 ^ 36 / 128
  coreOfRegion (regionOfPa pa)
    ((n % 32) ^^^ (n / 2 ^ 5 % 32) ^^^ (n / 2 ^ 10 % 32) ^^^ (n / 2 ^ 15 % 32) ^^^ (n / 2 ^ 20 % 32) ^^^ (n / 2 ^ 25 % 16))
/-- Whether a place is die-local for a core (R258, R286); fabric space never is. -/
def dieLocal (k : Nat) : Loc → Bool
  | .hbm pa => regionOfPa pa / 2 == dieOfCore k
  | .spad _ _ => true
  | .fabric _ => false

/-- Whether a physical address lies in its region's table area (R342). -/
def State.inRta (s : State) (pa : Nat) : Bool :=
  let r := s.region (regionOfPa pa)
  decide (r.st ≠ .free ∧ r.rta ≤ pa ∧ pa < r.rta + 2 ^ 21)

/-- The pad between what the stack holds and what it reads as: nothing before the first key replacement and in the region
table area, which firmware zeroes under the new key (R276, R343; assumption 4). -/
def State.pad (s : State) (pa : Nat) : Byte :=
  let r := s.region (regionOfPa pa)
  if r.key = 0 ∨ s.inRta pa then 0 else Config.keyPad r.key pa

/-- A byte of HBM as it reads. -/
def State.hbmByte (s : State) (pa : Nat) : Byte := SMap.get 0 s.mem pa ^^^ s.pad pa
/-- The key of a scratchpad byte. -/
def spadKey (k off : Nat) : Nat := k * 2 ^ 23 + off % 2 ^ 23

/-- A byte at a place; a fabric byte is what lies outside the module (R257). -/
def State.byteAt (s : State) : Loc → Byte
  | .hbm pa => s.hbmByte pa
  | .spad k o => SMap.get 0 s.spad (spadKey k o)
  | .fabric a => Config.fabricByte s.fresh a
/-- n bytes from a place on. -/
def State.bytesAt (s : State) (l : Loc) (n : Nat) : List Byte := (List.range n).map (fun i => s.byteAt (l.plus i))

/-- Whether a region's fenced pseudo-channel holds a physical address (R398). -/
def State.chanDown (s : State) (pa : Nat) : Bool :=
  let r := s.region (regionOfPa pa)
  !r.chanFence.isEmpty && r.chanFence.contains (Config.pseudoChannel (pa % 2 ^ 36 / 256)).val

/-- Whether the sector of a byte is poisoned (R140, R267, R398). -/
def State.poisoned (s : State) : Loc → Bool
  | .hbm pa => SMap.get false s.poison (pa / 16) || s.chanDown pa
  | .spad k o => SMap.get false s.spoison (spadKey k o / 16)
  | .fabric _ => false
/-- The offset of the first poisoned byte among n. -/
def State.firstPoison (s : State) (l : Loc) (n : Nat) : Option Nat :=
  (List.range n).find? (fun i => s.poisoned (l.plus i))

/-- The bits of a byte of HBM that a write sets: all, but for the "—" fields of a region's dirty-log control, which ignore what is
written and read 0 (R4, R356). -/
def State.writeMask (s : State) (pa : Nat) : Byte :=
  let r := s.region (regionOfPa pa)
  let i := pa - (r.rta + 0x2000)
  if r.st = .free ∨ pa < r.rta + 0x2000 ∨ 24 ≤ i ∨ (i < 16 ∧ i % 8 < 4) then 0xFF
  else if i = 16 then 1 else 0
/-- What a byte written to a place leaves there, unless the write is lost. -/
def State.kept (s : State) (l : Loc) (b : Byte) : Byte :=
  match l with
  | .hbm pa => b &&& s.writeMask pa
  | _ => b
/-- A byte written at a place; a store to a fenced pseudo-channel is lost (R398), and fabric space lies outside. -/
def State.putByte (s : State) (l : Loc) (b : Byte) : State :=
  match l with
  | .hbm pa => if s.chanDown pa then s else { s with mem := SMap.put 0 s.mem pa (s.kept l b ^^^ s.pad pa) }
  | .spad k o => { s with spad := SMap.put 0 s.spad (spadKey k o) b }
  | .fabric _ => s

/-- Bytes written one after the other. -/
def State.putBytes (s : State) : List (Loc × Byte) → State
  | [] => s
  | (l, b) :: t => State.putBytes (s.putByte l b) t

/-- The sector of a place, as the place of its first byte. -/
def Loc.sector : Loc → Loc
  | .hbm pa => .hbm (pa / 16 * 16)
  | .spad k o => .spad k (o / 16 * 16)
  | .fabric a => .fabric (a / 16 * 16)
/-- The poison mark of a sector set or cleared. -/
def State.setPoison (s : State) (l : Loc) (p : Bool) : State :=
  match l with
  | .hbm pa => { s with poison := SMap.put false s.poison (pa / 16) p }
  | .spad k o => { s with spoison := SMap.put false s.spoison (spadKey k o / 16) p }
  | .fabric _ => s
/-- A write that covers all 16 bytes of a poisoned sector clears its poison (R140). -/
def State.healed (s : State) (ws : List (Loc × Byte)) : List Loc → State
  | [] => s
  | l :: t =>
    let sec := l.sector
    if s.poisoned sec && (List.range 16).all (fun i => ws.any (fun w => w.1 == sec.plus i))
    then State.healed (s.setPoison sec false) ws t else State.healed s ws t

/-- Reservations lost because an agent other than their context writes one of their bytes (R279). -/
def State.loseResv (s : State) (who : Option Nat) (ws : List (Loc × Byte)) : State :=
  if s.resv.isEmpty then s
  else { s with resv := s.resv.filter (fun e =>
    decide (who = some e.2.ctx) ||
    !ws.any (fun w => match w.1 with
      | .hbm pa => decide (e.2.pa ≤ pa ∧ pa < e.2.pa + (if e.2.dword then 8 else 4))
      | _ => false)) }

/-- A write performed by an agent (a context or none): bytes, poison, reservations. -/
def State.perform (s : State) (who : Option Nat) (ws : List (Loc × Byte)) : State :=
  ((s.putBytes ws).healed ws (ws.map (·.1))).loseResv who ws

/-- The byte writes of data laid from a place on. -/
def spread (l : Loc) (data : List Byte) : List (Loc × Byte) :=
  (List.range data.length).map (fun i => (l.plus i, data.getD i 0))

end Sys2Proof.Machine
end

