-- ==== Sys2Proof/Machine/Translate.lean ====
section
/-! DEFINITION. Addresses (R256, R257, R260), translation through page tables and TLBs (R268 to R273), windows (R358,
R384), routes (R357, R398), and the dirty log (R274, R356). -/

namespace Sys2Proof.Machine

/-- The kinds of access of R271, and IFLUSH's load or fetch (R280), whose failure raises a load's cause. -/
inductive Acc | load | store | rw | fetch | either
  deriving DecidableEq, Repr

/-- Who makes an access: a context, or an engine for a command of a context (R317). -/
structure Who where
  ctx    : Nat
  kmode  : Bool
  ptOn   : Bool
  ptRoot : Nat
  asid   : Nat
  dlog   : Bool
  eng    : Option EngineId
  deriving DecidableEq, Repr

/-- The acting context as the maker of its own accesses. -/
def State.whoCtx (s : State) (c : Nat) : Who :=
  let x := s.ctx c
  ⟨c, x.status.mode, x.ptOn, x.ptRoot.toNat, x.asid.toNat, x.dlog, none⟩
/-- An engine acting for a command (R317). -/
def Cmd.who (c : Cmd) (e : EngineId) : Who := ⟨c.ctx, c.kmode, c.ptOn, c.ptRoot, c.asid, c.dlog, some e⟩
/-- The region from which an access is issued. -/
def Who.region (w : Who) : Nat := regionOf w.ctx

/-- The cause of a page fault for a kind (R271). -/
def Acc.pageCause : Acc → Nat | .load => 0x06 | .store => 0x07 | .rw => 0x07 | .fetch => 0x13 | .either => 0x06
/-- The cause of an access violation for a kind (R271). -/
def Acc.accCause : Acc → Nat | .fetch => 0x13 | _ => 0x08
/-- Whether a kind needs write permission. -/
def Acc.writes : Acc → Bool | .store => true | .rw => true | _ => false

/-- An engine by name. -/
def State.engine (s : State) : EngineId → Engine
  | .stream k => (s.core k).stream
  | .decomp q => (s.quad q).decomp
  | .weave q => (s.quad q).weave
  | .coll r => (s.region r).coll
  | .tend r => (s.region r).tend
  | .lnch r => (s.region r).lnch
/-- The state with an engine changed. -/
def State.modEngine (s : State) (e : EngineId) (f : Engine → Engine) : State :=
  match e with
  | .stream k => s.modCore k (fun c => { c with stream := f c.stream })
  | .decomp q => s.modQuad q (fun x => { x with decomp := f x.decomp })
  | .weave q => s.modQuad q (fun x => { x with weave := f x.weave })
  | .coll r => s.modRegion r (fun x => { x with coll := f x.coll })
  | .tend r => s.modRegion r (fun x => { x with tend := f x.tend })
  | .lnch r => s.modRegion r (fun x => { x with lnch := f x.lnch })
/-- The region in which an engine lies. -/
def engineRegion : EngineId → Nat
  | .stream k => regionOfCore k
  | .decomp q => regionOfCore (coreAtSlot q 0)
  | .weave q => regionOfCore (coreAtSlot q 0)
  | .coll r => r
  | .tend r => r
  | .lnch r => r

/-! Routes between dies (R9, R357, R381). -/

/-- The two dies that boundary b joins: 0–13 within the rows from west to east, 14–21 between the rows. R9 lists the boundaries and does
not number them (assumption 86). -/
def linkDies (b : Nat) : Nat × Nat :=
  if b < 7 then (b, b + 1) else if b < 14 then (b + 1, b + 2) else (b - 14, b - 6)
/-- The boundary over which a route leaves a die, and the die it reaches. -/
def routeHop (die : Nat) : Route → Option (Nat × Nat)
  | .east => if die % 8 < 7 then some ((if die < 8 then die else die - 1), die + 1) else none
  | .west => if 0 < die % 8 then some ((if die < 8 then die - 1 else die - 2), die - 1) else none
  | .south => if die < 8 then some (die + 14, die + 8) else none
  | .north => if 8 ≤ die then some (die + 6, die - 8) else none
  | _ => none
/-- The key of a routing-table entry: router of a die, destination region, normal or window route. -/
def routeKey (die dest : Nat) (win : Bool) : Nat := (die * 32 + dest) * 2 + (if win then 1 else 0)
/-- Whether the route from a die to a region reaches the region's die over boundaries that are not fenced (R357, R398). -/
def State.routeOpen (s : State) (win : Bool) (dest : Nat) : Nat → Nat → Bool
  | 0, _ => false
  | n + 1, die =>
    if die = dest / 2 then true
    else match routeHop die (SMap.get .drop s.routes (routeKey die dest win)) with
      | none => false
      | some (b, d) => !s.links.getLsbD b && State.routeOpen s win dest n d

/-- The first window of a region that grants an island access to an address (R358). -/
def Region.windowFor (r : Region) (island off : Nat) : Option Window :=
  (r.windows.toList.filterMap id).find? (fun w =>
    decide (w.island = island ∧ w.base * 2 ^ 21 ≤ off ∧ off < (w.base + w.size) * 2 ^ 21))

/-- The check of a physical address (R257, R342, R358, R384, R391, R398): the cause it raises, or whether the access is made
through a window. A region that is RESETTING gives 0x08 to a fetch as well, in R391's words (assumption 71). -/
def State.physCheck (s : State) (w : Who) (k : Acc) (pa : Nat) : Except Nat Bool :=
  let bad : Except Nat Bool := .error k.accCause
  let me := w.region
  if pa < 2 ^ 41 then
    let t := regionOfPa pa
    let r := s.region t
    if s.inRta pa && (!w.kmode || w.eng.isSome) then bad
    else if r.st = .resetting then .error 0x08
    else if (s.region me).st = .assigned ∧ r.st = .assigned ∧ r.island = s.islandOf me then
      if s.routeOpen false t 32 (me / 2) then .ok false else bad
    else match r.windowFor (s.islandOf me) (pa % 2 ^ 36) with
      | none => bad
      | some x =>
        if (k.writes && !x.rw) || k == .fetch then bad
        else if s.links.getLsbD x.link || !s.routeOpen true t 32 (me / 2) then bad
        else .ok true
  else if 2 ^ 51 ≤ pa ∧ pa < 2 ^ 52 then
    -- a mapping of any tender of the island covers it (R330)
    let ok := (s.regionsOf (s.islandOf me)).any (fun t => (s.region t).maps.any (fun m =>
      decide (m.base ≤ pa ∧ pa < m.base + m.size) && (if k.writes then m.write else m.read)))
    if ok && !(s.region me).portDown && k != .rw then .ok true else bad
  else bad

/-- The place of a physical address. -/
def locOfPa (pa : Nat) : Loc := if pa < 2 ^ 41 then .hbm pa else .fabric pa

/-- Bytes of a core's scratchpad part (R244, R392). -/
def State.spadSize (s : State) (k : Nat) : Nat :=
  let c := s.core k
  if c.fenced then 0 else c.spsize.toNat * 2 ^ 19

/-- The scratchpad window (R256, R260). -/
def inWindow (va : Nat) : Bool := decide (0xFFFFF00000000000 ≤ va ∧ va ≤ 0xFFFFF00003FFFFFF)
/-- The canonical form of an address (R256). -/
def canonical (va : Nat) : Bool := decide (va / 2 ^ 56 = 0 ∨ va / 2 ^ 56 = 255)

/-! The walk (R268 to R271). -/

/-- A little-endian doubleword of HBM. -/
def State.hbmWord (s : State) (pa : Nat) : Nat := leNat (s.bytesAt (.hbm pa) 8)
/-- A page-table entry at a physical address, of HBM or of mapped fabric space (R268). -/
def State.tableWord (s : State) (pa : Nat) : Nat := leNat (s.bytesAt (locOfPa pa) 8)

/-- How a walk ends: a leaf, an entry with V = 0, or a malformed entry or a table outside the reachable memory. -/
inductive WalkRes
  | leaf (e : TlbEnt)
  | invalid
  | malformed
  deriving DecidableEq, Repr

/-- The lowest address bit and the index width of a level. -/
def levelShift : Nat → Nat | 1 => 45 | 2 => 33 | 3 => 21 | _ => 12
def levelBits : Nat → Nat | 4 => 9 | _ => 12
/-- The frame field of an entry, as an address (R269). -/
def pteFrame (e : Nat) : Nat := e / 2 ^ 12 % 2 ^ 40 * 2 ^ 12
def pteBit (e i : Nat) : Bool := e / 2 ^ i % 2 == 1
/-- A leaf of a size, from its entry (R270), under the identity of the walk that reads it. -/
def leafEnt (id asid va log frame e : Nat) : TlbEnt :=
  ⟨va / 2 ^ log * 2 ^ log, log, asid, pteBit e 6, pteBit e 2, pteBit e 3, pteBit e 4, pteBit e 5, pteBit e 8,
    frame / 2 ^ log * 2 ^ log, false, 0, [], id⟩
/-- Whether a level-4 entry is a leaf of a 64 KiB group (R269). -/
def groupLeaf (e : Nat) : Bool := pteBit e 0 && !pteBit e 1 && pteBit e 7
/-- The entry used within an aligned group of sixteen level-4 entries of which one has C = 1: its own where the sixteen agree, any
one of them that forms a mapping of the address where they differ (R270). -/
def State.groupEntry (s : State) (table idx own : Nat) : Nat :=
  let base := idx / 16 * 16
  let es := (List.range 16).map (fun j => s.tableWord (table + 8 * (base + j)))
  let key := fun (e : Nat) => (e % 2 ^ 9, pteFrame e / 2 ^ 16)
  if !es.any groupLeaf || es.all (fun e => key e == key own) then own
  else
    let e := es.getD (Config.groupMember s.fresh).val own
    if groupLeaf e then e else own

/-- The walk from a table on (R268); it also gives the tables it has passed, for the walk cache. A table's base is the frame with
the bits below the table's size taken as zero, as at the root, and the bytes of a poisoned entry are used as they read; the
specification says neither (assumption 62). -/
def State.walkGo (s : State) (w : Who) (va : Nat) : Nat → Nat → Nat → List WalkEnt → WalkRes × List WalkEnt
  | 0, _, _, seen => (.malformed, seen)
  | n + 1, level, table, seen =>
    let idx := va / 2 ^ levelShift level % 2 ^ levelBits level
    let at_ := table + 8 * idx
    match s.physCheck { w with kmode := true, eng := none } .load at_ with
    | .error _ => (.malformed, seen)
    | .ok _ =>
      let e := if level = 4 then s.groupEntry table idx (s.tableWord at_) else s.tableWord at_
      if 2 ^ 41 ≤ at_ ∧ Config.fabricRefuses s.fresh at_ then (.malformed, seen)
      else if !pteBit e 0 then (.invalid, seen)
      else if e / 2 ^ 9 % 8 ≠ 0 ∨ e / 2 ^ 52 % 64 ≠ 0 then (.malformed, seen)
      else if pteBit e 1 then
        if level = 4 ∨ e / 4 % 2 ^ 7 ≠ 0 then (.malformed, seen)
        else
          let size := if level = 3 then 2 ^ 12 else 2 ^ 15
          let next := pteFrame e / size * size
          State.walkGo s w va n (level + 1) next
            (⟨w.ptRoot, w.asid, level + 1, va / 2 ^ levelShift level, next⟩ :: seen)
      else if level = 1 ∨ (pteBit e 3 && !pteBit e 2) then (.malformed, seen)
      else if level = 4 then
        (.leaf (leafEnt (s.fresh + 1) w.asid va (if pteBit e 7 then 16 else 12) (pteFrame e) e), seen)
      else
        let log := levelShift level
        if pteFrame e % 2 ^ log ≠ 0 then (.malformed, seen)
        else (.leaf (leafEnt (s.fresh + 1) w.asid va log (pteFrame e) e), seen)

/-- The walk of an address, from the deepest table that the walk cache knows (R272). -/
def State.walk (s : State) (w : Who) (va : Nat) : WalkRes × List WalkEnt :=
  let cache := if w.eng.isSome then [] else (s.core (coreOf w.ctx)).walks
  let hit := fun (l : Nat) => cache.find? (fun e =>
    decide (e.root = w.ptRoot ∧ e.asid = w.asid ∧ e.level = l ∧ e.key = va / 2 ^ levelShift (l - 1)))
  match hit 4, hit 3, hit 2 with
  | some e, _, _ => s.walkGo w va 4 4 e.table []
  | none, some e, _ => s.walkGo w va 4 3 e.table []
  | none, none, some e => s.walkGo w va 4 2 e.table []
  | none, none, none => s.walkGo w va 4 1 (w.ptRoot * 2 ^ 12 / 2 ^ 15 * 2 ^ 15) []

/-! The TLBs (R272, R273). -/

/-- Whether an entry in use translates an address for an ASID. -/
def TlbEnt.hits (e : TlbEnt) (asid va : Nat) : Bool :=
  e.removed.isEmpty && (e.glob || e.asid == asid) && decide (va / 2 ^ e.log * 2 ^ e.log = e.va)
/-- The list without its last entry that satisfies p. -/
def dropLast {α : Type} (p : α → Bool) (l : List α) : List α := (l.reverse.eraseP p).reverse
/-- A TLB of a capacity with an entry added at the front; the oldest entry without a pin makes room (R273). -/
def tlbAdd (cap : Nat) (l : List TlbEnt) (e : TlbEnt) : List TlbEnt :=
  e :: (if cap ≤ l.length then dropLast (fun x => x.pins == 0) l else l)

/-- The entries of a TLB, of which the n latest stay as they are, with an entry in use among those: an older one, or one that has been
replaced, returns to the front, so that no later walk for the same instruction takes it away before it is pinned (R202, R235). -/
def tlbRecent (cap n : Nat) (l : List TlbEnt) (e : TlbEnt) : List TlbEnt :=
  if (l.take n).any (·.id == e.id) then l
  else tlbAdd cap (l.filter (·.id != e.id)) ((l.find? (·.id == e.id)).getD { e with pins := 0 })

/-- Entries that an engine's own translation cache holds beside pinned ones; its size is not given. -/
def engTlbCap : Nat := 4096

/-- The state with a freshly walked leaf, and the tables passed, in the requester's caches. -/
def State.fill (s : State) (w : Who) (k : Acc) (e : TlbEnt) (seen : List WalkEnt) : State :=
  match w.eng with
  | some g => s.modEngine g (fun x => { x with tlb := tlbAdd (engTlbCap + (x.tlb.filter (·.pins != 0)).length) x.tlb e })
  | none => s.modCore (coreOf w.ctx) (fun c =>
      { c with
        itlb := if k = .fetch then tlbAdd 32 c.itlb e else c.itlb
        dtlb := if k = .fetch then c.dtlb else tlbAdd 48 c.dtlb e
        tlb2 := tlbAdd 3072 c.tlb2 e
        walks := (seen ++ c.walks).take 64 })

/-- The leaf for an address: from a TLB, or by a walk that fills them (R271, R272). An entry in use is among
the latest 1,024 of the L2 TLB, where pins are held, or 2,048 of an engine's cache (R202, R273; assumption 61). -/
def State.lookup (s : State) (w : Who) (k : Acc) (va : Nat) : State × WalkRes :=
  let miss := fun (s : State) =>
    match s.walk w va with
    | (.leaf e, seen) => (({ s with fresh := s.fresh + 1 } : State).fill w k e seen, WalkRes.leaf e)
    | (r, _) => ({ s with fresh := s.fresh + 1 }, r)
  match w.eng with
  | some g =>
    match (s.engine g).tlb.find? (·.hits w.asid va) with
    | some e => (if ((s.engine g).tlb.take 2048).any (·.id == e.id) then s
        else s.modEngine g (fun x => { x with tlb := tlbRecent (engTlbCap + x.tlb.length) 2048 x.tlb e }), .leaf e)
    | none => miss s
  | none =>
    let c := s.core (coreOf w.ctx)
    match (if k = .fetch then c.itlb else c.dtlb).find? (·.hits w.asid va) with
    | some e => (if (c.tlb2.take 1024).any (·.id == e.id) then s
        else s.modCore (coreOf w.ctx) (fun c => { c with tlb2 := tlbRecent 3072 1024 c.tlb2 e }), .leaf e)
    | none =>
      let s := if k = .fetch then s else s.count w.ctx 0x07 1
      match c.tlb2.find? (·.hits w.asid va) with
      | some e => (s.modCore (coreOf w.ctx) (fun c => { c with
          itlb := if k = .fetch then tlbAdd 32 c.itlb { e with pins := 0 } else c.itlb
          dtlb := if k = .fetch then c.dtlb else tlbAdd 48 c.dtlb { e with pins := 0 }
          tlb2 := tlbRecent 3072 1024 c.tlb2 e }), .leaf e)
      | none => miss (s.count w.ctx 0x08 1)

/-- What a translation gives: the place, whether the access is uncached, how many bytes at and above the address share the
page and the check of its physical address, and the TLB entry with its page size. -/
structure Trans where
  loc      : Loc
  uncached : Bool
  left     : Nat
  ent      : Nat
  log      : Nat
  deriving DecidableEq, Repr

/-- The permission check at a leaf (R271). -/
def TlbEnt.allows (e : TlbEnt) (w : Who) (k : Acc) : Bool :=
  (w.kmode || e.u) && (match k with | .load => e.r | .store => e.w | .rw => e.r && e.w | .fetch => e.x | .either => e.r || e.x)

/-- Bytes from a physical address on that physCheck judges alike: windows and the table area are cut in 2 MiB (R342, R358),
mappings in 4 KiB (R330). -/
def checkedLeft (pa : Nat) : Nat := if pa < 2 ^ 41 then 2 ^ 21 - pa % 2 ^ 21 else 2 ^ 12 - pa % 2 ^ 12
/-- The last check of a translation, of its physical address (R257, R271). An access to fabric space may be refused at the remote
gate, which its instruction receives as an access violation (R402); which one is, lies outside the module. -/
def State.placed (s : State) (w : Who) (k : Acc) (pa : Nat) (uncached : Bool) (left ent log : Nat) : State × Except Nat Trans :=
  match s.physCheck w k pa with
  | .error c => (s, .error c)
  | .ok win =>
    let t : Trans := ⟨locOfPa pa, win || uncached, min left (checkedLeft pa), ent, log⟩
    if pa < 2 ^ 41 then (s, .ok t)
    else ({ s with fresh := s.fresh + 1 }, if Config.fabricRefuses s.fresh pa then .error k.accCause else .ok t)

/-- Translation of one address (R244, R256, R257, R260, R271): the place, or the cause. A U-mode access through a leaf with U = 0 that
maps a region table area takes the cause of R271, not R342's 0x08 (assumption 76). -/
def State.translate (s : State) (w : Who) (k : Acc) (va : Nat) : State × Except Nat Trans :=
  if !w.ptOn then
    if 2 ^ 52 ≤ va ∨ !w.kmode then (s, .error k.accCause)
    else s.placed w k va false (4096 - va % 4096) 0 12
  else if inWindow va then
    let k' := coreAtSlot (quadOfCore (coreOf w.ctx)) (va / 2 ^ 24 % 4)
    let off := va % 2 ^ 24
    if k = .fetch then (s, .error 0x13)
    else if s.spadSize k' ≤ off then (s, .error 0x08)
    else (s, .ok ⟨.spad k' off, true, s.spadSize k' - off, 0, 12⟩)
  else if !canonical va then (s, .error k.pageCause)
  else
    match s.lookup w k va with
    | (s, .invalid) => (s, .error k.pageCause)
    | (s, .malformed) => (s, .error k.accCause)
    | (s, .leaf e) =>
      if !e.allows w k then (s, .error k.pageCause)
      else s.placed w k (e.frame + va % 2 ^ e.log) e.mt (2 ^ e.log - va % 2 ^ e.log) e.id e.log

/-- The home of an address beyond the scratchpad window, where it has one: the place that its leaf gives, whether or not an access is
allowed there (R206, R362). -/
def State.home (s : State) (w : Who) (k : Acc) (va : Nat) : Option Loc :=
  if !w.ptOn then (if 2 ^ 52 ≤ va then none else some (locOfPa va))
  else if inWindow va || !canonical va then none
  else match (s.lookup w k va).2 with
    | .leaf e => some (locOfPa (e.frame + va % 2 ^ e.log))
    | _ => none

/-- Translation of a run of bytes, page by page in ascending order: the pieces, or the cause and the lowest byte of the run
in the failing page (R249); `lo` is that byte for the page of va. -/
def State.transRun (w : Who) (k : Acc) : Nat → State → Nat → Nat → Nat → State × Except (Nat × Nat) (List Piece)
  | 0, s, _, _, _ => (s, .ok [])
  | n + 1, s, lo, va, len =>
    if len = 0 then (s, .ok [])
    else match s.translate w k va with
      | (s, .error c) => (s, .error (c, lo))
      | (s, .ok t) =>
        let m := min len (max 1 t.left)
        let next := (va + m) % 2 ^ 64
        match State.transRun w k n s (if t.ent ≠ 0 ∧ next / 2 ^ t.log = va / 2 ^ t.log then lo else next) next (len - m) with
        | (s, .error e) => (s, .error e)
        | (s, .ok ps) => (s, .ok (⟨va, t.loc, m, t.uncached, t.ent, t.log⟩ :: ps))
/-- Translation of len bytes at va. -/
def State.transSpan (s : State) (w : Who) (k : Acc) (va len : Nat) : State × Except (Nat × Nat) (List Piece) :=
  State.transRun w k (len / 4096 + 2) s (va % 2 ^ 64) (va % 2 ^ 64) len

/-- The places of the bytes of pieces, in order. -/
def pieceLocs (ps : List Piece) : List Loc := ps.flatMap (fun p => (List.range p.len).map (fun i => p.loc.plus i))
/-- The bytes of pieces as they read. -/
def State.pieceBytes (s : State) (ps : List Piece) : List Byte := (pieceLocs ps).map s.byteAt
/-- Whether a core holds a copy of a place's sector that is good though HBM's is poisoned (R267). -/
def Core.holdsGood (c : Core) : Loc → Bool
  | .hbm pa => (SMap.get ⟨0, 0, 0, 0⟩ c.l1 (lineOf pa)).good.getLsbD (pa % 128 / 16)
  | _ => false
/-- The offset of the first byte among n that core k, or an agent without a cache, receives as poisoned (R267). -/
def State.poisonAt (s : State) (k : Option Nat) (l : Loc) (n : Nat) : Option Nat :=
  (List.range n).find? (fun i => s.poisoned (l.plus i) && !(match k with | some j => (s.core j).holdsGood (l.plus i) | none => false))
/-- The virtual address of the first poisoned byte of pieces. -/
def State.piecePoison (s : State) (k : Option Nat) (ps : List Piece) : Option Nat :=
  ps.findSome? (fun p => (s.poisonAt k p.loc p.len).map (fun i => (p.va + i) % 2 ^ 64))
/-- The writes of data over pieces. -/
def pieceWrites (ps : List Piece) (data : List Byte) : List (Loc × Byte) := (pieceLocs ps).zip data
/-- Whether some byte of pieces is not die-local for a core (R362). -/
def anyFar (k : Nat) (ps : List Piece) : Bool := ps.any (fun p => !dieLocal k p.loc)

/-! The dirty log (R274, R275, R356). -/

/-- A doubleword written in the region table area by the hardware. -/
def State.putWord (s : State) (pa x : Nat) : State := s.perform none (spread (.hbm pa) (leBytes 8 x))

/-- Whether an append for a region finds ALL-DIRTY clear and room in the ring (R275, R356). -/
def State.dlogTakes (s : State) (r : Nat) : Bool :=
  let ctl := (s.region r).rta + 0x2000
  decide (s.hbmWord (ctl + 16) % 2 = 0 ∧ ((s.region r).dlogHead.toNat + 2 ^ 32 - s.hbmWord (ctl + 8) % 2 ^ 32) % 2 ^ 32 ≠ 65536)
/-- The append of R356 for a region. HEAD is the hardware's own count: a kernel store to its word in memory lasts until the next
append overwrites it. -/
def State.dlogAppend (s : State) (r entry : Nat) : State :=
  let ctl := (s.region r).rta + 0x2000
  let head := (s.region r).dlogHead
  if s.hbmWord (ctl + 16) % 2 = 1 then s
  else if !s.dlogTakes r then s.putWord (ctl + 16) 1
  else
    ((s.putWord ((s.region r).rta + 0x80000 + 8 * (head.toNat % 65536)) entry).putWord ctl (head + 1).toNat).modRegion r
      (fun x => { x with dlogHead := head + 1 })

/-- The SIZE code of a page (R274). -/
def dlogSize : Nat → Nat | 12 => 0 | 16 => 1 | 21 => 2 | _ => 3

/-- The TLB entries of a requester. -/
def State.tlbOf (s : State) (w : Who) : List TlbEnt :=
  match w.eng with
  | some g => (s.engine g).tlb
  | none =>
    let c := s.core (coreOf w.ctx)
    c.tlb2 ++ c.dtlb ++ c.itlb

/-- The logged flag of an entry, set in every copy that the requester's TLBs hold. -/
def State.setLogged (s : State) (w : Who) (id : Nat) : State :=
  let mark := List.map (fun (e : TlbEnt) => if e.id = id then { e with logged := true } else e)
  match w.eng with
  | some g => s.modEngine g (fun x => { x with tlb := mark x.tlb })
  | none => s.modCore (coreOf w.ctx) (fun c => { c with itlb := mark c.itlb, dtlb := mark c.dtlb, tlb2 := mark c.tlb2 })

/-- The first write through an entry whose logged flag is clear appends to the dirty log of the issuing region, before any
byte is written, and sets the flag (R274); so does a write whose entry has left the TLBs since (assumption 15). Where nothing is appended
the flag stays clear, so that the next write is logged or covered by ALL-DIRTY in its turn (R275). -/
def State.dlogPiece (s : State) (w : Who) (p : Piece) : State :=
  if !w.dlog || !w.ptOn || p.ent == 0 then s
  else if (s.tlbOf w).any (fun e => e.id == p.ent && e.logged) then s
  else
    let t := s.dlogAppend w.region (p.va / 2 ^ p.log * 2 ^ p.log / 2 ^ 12 % 2 ^ 45 + dlogSize p.log * 2 ^ 45 + w.asid * 2 ^ 48)
    if s.dlogTakes w.region then t.setLogged w p.ent else t
/-- The places that the appends of a write's pieces may write (R356), which a reservation may hold back (R305): the control words and
one slot of the ring for each piece that is still to be logged. -/
def State.dlogLocs (s : State) (w : Who) (ps : List Piece) : List Loc :=
  let todo := if w.dlog && w.ptOn then
      ps.filter (fun p => p.ent != 0 && !(s.tlbOf w).any (fun e => e.id == p.ent && e.logged))
    else []
  let r := s.region w.region
  if todo.isEmpty then []
  else .hbm (r.rta + 0x2000) :: .hbm (r.rta + 0x2010) ::
    (List.range todo.length).map (fun i => .hbm (r.rta + 0x80000 + 8 * ((r.dlogHead.toNat + i) % 65536)))
/-- The dirty log of all the pieces of a write. -/
def State.dlogPieces (s : State) (w : Who) : List Piece → State
  | [] => s
  | p :: t => State.dlogPieces (s.dlogPiece w p) w t

/-! Pins (R202, R235, R273, R317). -/

/-- The page of a piece, as the first address it maps and its size; none for the scratchpad window and for physical addresses,
which pin no page (R200). -/
def Piece.page (p : Piece) : Option (Nat × Nat) :=
  if p.ent = 0 then none else some (p.va / 2 ^ p.log * 2 ^ p.log, p.log)

/-- The TLB entries of pieces, each once. -/
def pieceEnts (ps : List Piece) : List Nat := ((ps.map (·.ent)).filter (· != 0)).eraseDups
/-- A pin on the entry with an identity; an L2 TLB that has replaced it takes it back from the L1 TLB that translated. -/
def pinOn (cap : Nat) (l1 : List TlbEnt) (l : List TlbEnt) (id : Nat) : List TlbEnt :=
  if l.any (·.id == id) then l.map (fun e => if e.id = id then { e with pins := e.pins + 1 } else e)
  else match l1.find? (·.id == id) with
    | some e => tlbAdd cap l { e with pins := 1 }
    | none => l
/-- A pin taken off; a removed entry is freed with its last pin (R273). -/
def pinOff (l : List TlbEnt) (id : Nat) : List TlbEnt :=
  (l.map (fun e => if e.id = id then { e with pins := e.pins - 1 } else e)).filter
    (fun e => e.id != id || e.removed.isEmpty || e.pins != 0)

/-- Pins on the entries that translated pieces, in the requester's L2 TLB or translation cache, put on or taken off. -/
def State.pinPieces (s : State) (w : Who) (on : Bool) (ps : List Piece) : State :=
  let go := fun (cap : Nat) (l1 l : List TlbEnt) => (pieceEnts ps).foldl (if on then pinOn cap l1 else pinOff) l
  match w.eng with
  | some g => s.modEngine g (fun x => { x with tlb := go engTlbCap [] x.tlb })
  | none => s.modCore (coreOf w.ctx) (fun c => { c with tlb2 := go 3072 (c.dtlb ++ c.itlb) c.tlb2 })

end Sys2Proof.Machine
end

