-- ==== Sys2Proof/Machine/Coherence.lean ====
section
/-! DEFINITION. Caches as holders of spans (R262 to R266) and the directory that tracks them (R344 to R349). The value of
memory is coherent at every step and lies in State.mem; a cache entry says which sectors a core holds in M, E and S, and
State.hbmOld keeps the HBM value under bytes that are dirty in a cache. -/

namespace Sys2Proof.Machine

/-- No sector held. -/
def L1Line.none : L1Line := ⟨0, 0, 0, 0⟩
/-- A core's holding of a line. -/
def Core.line (c : Core) (line : Nat) : L1Line := SMap.get L1Line.none c.l1 line
/-- The core with its holding of a line replaced. -/
def Core.setLine (c : Core) (line : Nat) (x : L1Line) : Core := { c with l1 := SMap.put L1Line.none c.l1 line x }
/-- The sectors held in any state. -/
def L1Line.all (x : L1Line) : BitVec 8 := x.m ||| x.e ||| x.s
/-- The sectors of a line that bytes [off, off + len) of it cover (R262). -/
def spanOf (off len : Nat) : BitVec 8 :=
  BitVec.ofNat 8 ((List.range 8).foldl (fun a j => if off / 16 ≤ j ∧ j ≤ (off + len - 1) / 16 then a + 2 ^ j else a) 0)
/-- Whether a span lies within held sectors. -/
def covers (held span : BitVec 8) : Bool := span &&& ~~~held == 0

/-- Removal of a span from a holder (R346). -/
def L1Line.drop (x : L1Line) (span : BitVec 8) : L1Line :=
  ⟨x.m &&& ~~~span, x.e &&& ~~~span, x.s &&& ~~~span, x.good &&& ~~~span⟩
/-- Downgrade of a span to S (R345). -/
def L1Line.share (x : L1Line) (span : BitVec 8) : L1Line :=
  ⟨x.m &&& ~~~span, x.e &&& ~~~span, x.s ||| ((x.m ||| x.e) &&& span), x.good⟩

/-- The empty directory entry. -/
def DirEnt.empty : DirEnt := ⟨false, false, [], 0, 0, 0, 0⟩
/-- The quad-position bit of a core (R344). -/
def quadBit (k : Nat) : BitVec 16 := 1#16 <<< (quadOfCore k % 16)
/-- The union of spans. -/
def spanUnion (ps : List DirPtr) : BitVec 8 := ps.foldl (fun a p => a ||| p.span) 0

/-- An entry that would need a fifth pointer becomes coarse (R344, R345): the quads of the pointer cores, and the union of their
spans. -/
def DirEnt.fit (d : DirEnt) : DirEnt :=
  if d.ptrs.length ≤ 4 then d
  else { d with coarse := true, excl := false, ptrs := []
                qv := d.ptrs.foldl (fun a p => a ||| quadBit p.core) 0, span := spanUnion d.ptrs }
/-- An entry that tracks no copy. -/
def DirEnt.tracksNone (d : DirEnt) : Bool := !d.coarse && d.ptrs.isEmpty
/-- A span taken from every core but c (R345): pointers reduced, and freed when empty; a coarse entry stays as it is unless the
span covers every sector of SPAN. -/
def DirEnt.reduce (d : DirEnt) (c : Nat) (s : BitVec 8) : DirEnt :=
  if d.coarse then (if covers d.span s then { d with coarse := false, excl := false, ptrs := [], qv := 0, span := 0 } else d)
  else
    let ps := d.ptrs.filterMap (fun p =>
      if p.core = c then some p else if p.span &&& ~~~s = 0 then none else some { p with span := p.span &&& ~~~s })
    { d with ptrs := ps, excl := d.excl && !ps.isEmpty }
/-- A holder of a span other than core c that is read falls from E or M to S, so EXCL falls (R344). -/
def DirEnt.lower (d : DirEnt) (c : Nat) (s : BitVec 8) : DirEnt :=
  { d with excl := d.excl && !d.ptrs.any (fun p => p.core != c && p.span &&& s != 0) }

/-- A read miss of core c for a span (R345); `alone` says that no other die holds the line. -/
def DirEnt.read (d : DirEnt) (c : Nat) (s : BitVec 8) (alone : Bool) : DirEnt :=
  if d.coarse then { d with qv := d.qv ||| quadBit c, span := d.span ||| s }
  else if d.ptrs.any (·.core == c) then
    { d with ptrs := d.ptrs.map (fun p => if p.core = c then { p with span := p.span ||| s } else p) }
  else DirEnt.fit { d with ptrs := d.ptrs ++ [⟨c, s⟩], excl := d.ptrs.isEmpty && alone }

/-- A write or ownership request of core c for a span, once every acknowledgement is counted (R345): c has the pointer {c, s}. -/
def DirEnt.write (d : DirEnt) (c : Nat) (s : BitVec 8) (alone : Bool) : DirEnt :=
  let r := d.reduce c s
  if r.coarse then { r with qv := r.qv ||| quadBit c, span := r.span ||| s }
  else
    let rest := r.ptrs.filter (fun p => p.core != c)
    DirEnt.fit { r with ptrs := ⟨c, s⟩ :: rest, excl := rest.isEmpty && alone }

/-- An eviction notice of core c for a span (R345). A home entry whose last pointer is freed stays in its set; the specification does
not say when V falls (assumption 44). -/
def DirEnt.evict (d : DirEnt) (c : Nat) (e : BitVec 8) : DirEnt :=
  if d.coarse then d
  else
    let ps := d.ptrs.filterMap (fun p =>
      if p.core = c then (if p.span &&& ~~~e = 0 then none else some { p with span := p.span &&& ~~~e }) else some p)
    { d with ptrs := ps, excl := d.excl && ps.length == d.ptrs.length }

/-- The cores that an entry may have to invalidate for a span (R346): pointer cores that meet it, or all cores of the marked
quads of the die. -/
def DirEnt.holders (d : DirEnt) (die : Nat) (s : BitVec 8) : List Nat :=
  if d.coarse then
    (List.range 16).flatMap (fun q => if d.qv.getLsbD q then (List.range 4).map (coreAtSlot (die * 16 + q)) else [])
  else (d.ptrs.filter (fun p => p.span &&& s != 0)).map (·.core)

/-- The home die of a line. -/
def homeDie (line : Nat) : Nat := regionOfPa (line * 128) / 2
/-- The key of a proxy entry. -/
def proxyKey (line die : Nat) : Nat := line * 16 + die
def State.dirOf (s : State) (line : Nat) : Option DirEnt := SMap.get none s.dir line
def State.setDir (s : State) (line : Nat) (d : Option DirEnt) : State := { s with dir := SMap.put none s.dir line d }
def State.proxyOf (s : State) (line die : Nat) : Option DirEnt := SMap.get none s.proxies (proxyKey line die)
def State.setProxy (s : State) (line die : Nat) (d : Option DirEnt) : State :=
  { s with proxies := SMap.put none s.proxies (proxyKey line die) d }

/-- A proxy entry replaced (R344): one that tracks nothing is freed (assumption 44), and the DIES bit says whether the die has one. -/
def State.putProxy (s : State) (line die : Nat) (p : DirEnt) : State :=
  let bit := 1#16 <<< die
  let s := s.setProxy line die (if p.tracksNone then none else some p)
  match s.dirOf line with
  | none => s
  | some d => s.setDir line (some { d with
      dies := if p.tracksNone then d.dies &&& ~~~bit else d.dies ||| bit, excl := d.excl && p.tracksNone })

/-- Home-die cores, other than the requester, to which the home sends an invalidation (R346). -/
def State.homeTargets (s : State) (line : Nat) (span : BitVec 8) (c : Nat) : List Nat :=
  match s.dirOf line with
  | none => []
  | some d => (d.holders (homeDie line) span).filter (· != c)
/-- The dies whose proxies the home asks (R346). -/
def State.dieTargets (s : State) (line : Nat) : List Nat :=
  match s.dirOf line with
  | none => []
  | some d => (List.range 16).filter (fun die => d.dies.getLsbD die)
/-- The cores to which a die's proxy forwards an invalidation (R346). -/
def State.proxyTargets (s : State) (line die : Nat) (span : BitVec 8) (c : Nat) : List Nat :=
  match s.proxyOf line die with
  | some p => (p.holders die span).filter (· != c)
  | none => []
/-- Every core that a request's invalidation reaches (R346). -/
def State.targets (s : State) (line : Nat) (span : BitVec 8) (c : Nat) : List Nat :=
  s.homeTargets line span c ++ (s.dieTargets line).flatMap (fun die => s.proxyTargets line die span c)

/-- A change of a line's proxies on several dies. -/
def State.modProxies (s : State) (line : Nat) (f : DirEnt → DirEnt) : List Nat → State
  | [] => s
  | die :: t => State.modProxies (match s.proxyOf line die with
      | some p => s.putProxy line die (f p)
      | none => s) line f t

/-- A line's sectors given up by a core: a dirty copy sends a notice, a clean one is dropped silently (R263, R347). -/
def Core.evictLine (c : Core) (line : Nat) : Core :=
  let x := c.line line
  let c' := c.setLine line L1Line.none
  if x.m = 0 then c' else { c' with notices := c'.notices ++ [(line, x.m)] }

/-- The core with room in the set of a line: 8 ways of 64 sets (R255). -/
def Core.makeRoom (c : Core) (line : Nat) : Core :=
  let set := c.l1.filter (fun e => decide (e.1 % 64 = line % 64 ∧ e.1 ≠ line))
  match set with
  | e :: _ => if 8 ≤ set.length then c.evictLine e.1 else c
  | [] => c

/-- Sectors obtained by a core: exclusive (E), or shared. -/
def State.l1Gain (s : State) (k line : Nat) (span : BitVec 8) (excl : Bool) : State :=
  s.modCore k (fun c =>
    let c := c.makeRoom line
    let x := c.line line
    let new := span &&& ~~~(x.m ||| x.e)
    c.setLine line (if excl then { x with e := x.e ||| new, s := x.s &&& ~~~span } else { x with s := x.s ||| new }))

/-- The cores that have left their reset state, and so may hold a line. -/
def State.coreNums (s : State) : List Nat := s.cores.map (·.1)

/-- A change of every core's holding of a line but core k's. -/
def State.others (s : State) (line k : Nat) (f : L1Line → L1Line) : List Nat → State
  | [] => s
  | j :: t =>
    if j = k ∨ (s.core j).line line = L1Line.none then State.others s line k f t
    else State.others (s.modCore j (fun c => c.setLine line (f (c.line line)))) line k f t

/-! The region cache (R255, R264). -/

/-- The places of the sectors of a line. -/
def spanLocs (line : Nat) (span : BitVec 8) : List Loc :=
  ((List.range 128).filter (fun i => span.getLsbD (i / 16))).map (fun i => Loc.hbm (line * 128 + i))
/-- Bytes written back to HBM, or written at the home without a cache: no old value is left under them. -/
def State.dropOld (s : State) : List Loc → State
  | [] => s
  | .hbm pa :: t => State.dropOld { s with hbmOld := SMap.put none s.hbmOld pa none } t
  | _ :: t => State.dropOld s t
/-- The sectors of a line that some L1 data cache holds in M. -/
def State.dirtyIn (s : State) (line : Nat) : BitVec 8 := s.coreNums.foldl (fun a k => a ||| ((s.core k).line line).m) 0
/-- Lines that a region cache has evicted: what it holds of them reaches HBM. Sectors that an L1 cache holds in M lie there. -/
def State.writeBack (s : State) : List (Nat × BitVec 8) → State
  | [] => s
  | (l, m) :: t => State.writeBack (s.dropOld (spanLocs l (m &&& ~~~(s.dirtyIn l)))) t
/-- Lines that the region-cache part of a core's slice has room for: 16 − SPSIZE steps of 512 KiB (R255). -/
def Core.rcacheRoom (c : Core) : Nat := (16 - c.spsize.toNat) * 4096
/-- The region-cache part of a slice within its room (assumption 45). -/
def State.rcacheFit (s : State) (k : Nat) : State :=
  let c := s.core k
  (s.modCore k (fun c => { c with rcache := c.rcache.take c.rcacheRoom })).writeBack (c.rcache.drop c.rcacheRoom)
/-- Dirty sectors of a line that reach its home enter the region-cache part of its slice, or HBM where it has none (R264). -/
def State.homeDirty (s : State) (line : Nat) (span : BitVec 8) : State :=
  let k := homeCore (line * 128)
  if (s.core k).rcacheRoom = 0 then s.dropOld (spanLocs line (span &&& ~~~(s.dirtyIn line)))
  else (s.modCore k (fun c => { c with
    rcache := (line, span ||| (c.rcache.filter (·.1 == line)).foldl (fun a x => a ||| x.2) 0) :: c.rcache.filter (·.1 != line) })).rcacheFit k
/-- Sectors removed from the region cache of their home (R280). -/
def State.uncacheAll (s : State) : List (Nat × BitVec 8) → State
  | [] => s
  | (l, m) :: t => State.uncacheAll (s.modCore (homeCore (l * 128)) (fun c => { c with
      rcache := c.rcache.filterMap (fun x => if x.1 = l then (if x.2 &&& ~~~m = 0 then none else some (l, x.2 &&& ~~~m)) else some x) })) t
/-- The lines and spans of a list at their homes. -/
def State.homeDirtyAll (s : State) : List (Nat × BitVec 8) → State
  | [] => s
  | (l, m) :: t => State.homeDirtyAll (s.homeDirty l m) t

/-! Requests at the home. -/

/-- Invalidations of a span received by cores that hold it, or, of a read, its downgrade; dirty data reaches the home with the
answer (R346). -/
def State.asked (s : State) (line : Nat) (span : BitVec 8) (write : Bool) : List Nat → State
  | [] => s
  | j :: t =>
    let x := (s.core j).line line
    let s := if x = L1Line.none then s
      else s.modCore j (fun c => c.setLine line (if write then x.drop span else x.share span))
    State.asked (if x.m &&& span = 0 then s else s.homeDirty line (x.m &&& span)) line span write t

/-- A notice of core k for sectors of a line reaches the home, which reduces the pointer and takes the dirty data (R345, R347);
the answer says whether it completes the acknowledgement of an invalidation that it crossed. -/
def State.noticeIn (s : State) (k line : Nat) (n : BitVec 8) : State × Bool :=
  let s := s.modCore k (fun c => { c with notices := c.notices.erase (line, n) })
  let die := dieOfCore k
  let s := if die = homeDie line then
      (match s.dirOf line with
        | some d => s.setDir line (some (d.evict k n))
        | none => s)
    else s.modProxies line (·.evict k n) [die]
  let s := s.homeDirty line n
  let mine := fun (m : CohMsg) => match m with
    | .crossed l j _ => l == line && j == k
    | _ => false
  match s.cohMsgs.find? mine with
  | some (.crossed _ _ span) =>
    if span &&& ~~~n = 0 then ({ s with cohMsgs := s.cohMsgs.eraseP mine }, true)
    else ({ s with cohMsgs := s.cohMsgs.map (fun m => if mine m then .crossed line k (span &&& ~~~n) else m) }, false)
  | _ => (s, false)
/-- The notices of a core for a line arrive before a later request of that core for it; an acknowledgement that one of them stands
for is then on its way. -/
def State.noticesIn (s : State) (k line : Nat) : List (Nat × BitVec 8) → State
  | [] => s
  | x :: t =>
    if x.1 = line then
      let r := s.noticeIn k line x.2
      State.noticesIn (if r.2 then { r.1 with cohMsgs := r.1.cohMsgs ++ [.ack line k] } else r.1) k line t
    else State.noticesIn s k line t

/-- The notices of several cores for a line arrive: a request is served only once none of them is outstanding (R346, R347). -/
def State.collect (s : State) (line : Nat) : List Nat → State
  | [] => s
  | k :: t => State.collect (s.noticesIn k line (s.core k).notices) line t
/-- A core that asks to write a span gives up the other sectors that it holds of the line, clean ones silently and dirty ones by a
notice that comes before the request, so that the directory tracks what the core holds when it records {c, s} (R262, R263, R345;
assumption 44). -/
def State.giveUp (s : State) (k line : Nat) (span : BitVec 8) : State :=
  let x := (s.core k).line line
  let m := x.m &&& ~~~span
  if x.all &&& ~~~span = 0 then s
  else s.modCore k (fun c => { c.setLine line (x.drop (~~~span)) with notices := if m = 0 then c.notices else c.notices ++ [(line, m)] })
/-- A request reaches its home behind the notices that its core has sent for the line. -/
def State.approach (s : State) (k line : Nat) (span : BitVec 8) (write : Bool) : State :=
  let s := if write then s.giveUp k line span else s
  s.noticesIn k line (s.core k).notices

/-- The slice in whose directory a die tracks a line: the home, or on another die the slice at its row and column (R344). -/
def trackCore (line die : Nat) : Nat := die * 64 + homeCore (line * 128) % 64
/-- The other entries of the directory set in which a die tracks a line: home and proxy entries, each with line and die. -/
def State.dirMates (s : State) (line die : Nat) : List ((Nat × Nat) × DirEnt) :=
  let here := fun (l d : Nat) =>
    decide ((l, d) ≠ (line, die) ∧ trackCore l d = trackCore line die ∧ Config.dirSet l = Config.dirSet line)
  s.dir.filterMap (fun e => e.2.bind (fun d => if here e.1 (homeDie e.1) then some ((e.1, homeDie e.1), d) else none)) ++
  s.proxies.filterMap (fun e => e.2.bind (fun d => if here (e.1 / 16) (e.1 % 16) then some ((e.1 / 16, e.1 % 16), d) else none))
/-- The least recently used of some entries. -/
def oldestEntry (l : List ((Nat × Nat) × DirEnt)) : Option ((Nat × Nat) × DirEnt) :=
  l.foldl (fun a e => match a with
    | none => some e
    | some b => if e.2.used < b.2.used then some e else some b) none
/-- An entry removed with every copy it tracks (R348): a home entry with its proxies, or one proxy. -/
def State.backInvalidate (s : State) (line die : Nat) : State :=
  if die = homeDie line then
    let s := s.collect line (s.targets line 0xFF 1024)
    ((s.asked line 0xFF true (s.targets line 0xFF 1024)).modProxies line (fun _ => DirEnt.empty) (s.dieTargets line)).setDir line none
  else
    let s := s.collect line (s.proxyTargets line die 0xFF 1024)
    (s.asked line 0xFF true (s.proxyTargets line die 0xFF 1024)).modProxies line (fun _ => DirEnt.empty) [die]
/-- A directory set of 16 that is full makes room for a new entry (R341, R348): an exclusive entry of the home region is dropped
silently (the first in the map's order where there are several: assumption 44), otherwise the least recently used entry is removed with every copy it tracks. -/
def State.dirReplace (s : State) (line die : Nat) : State :=
  let same := s.dirMates line die
  if same.length < 16 then s
  else match same.find? (fun e => e.1.2 == homeDie e.1.1 && e.2.excl && !e.2.coarse &&
      e.2.ptrs.any (fun p => regionOfCore p.core == regionOfPa (e.1.1 * 128))) with
    | some e => s.setDir e.1.1 none
    | none =>
      match oldestEntry same with
      | none => s
      | some e => s.backInvalidate e.1.1 e.1.2

/-- The entry rebuilt from the answers of the home region's cores to a discovery probe (R349). -/
def State.rebuild (s : State) (line : Nat) : State :=
  let r := regionOfPa (line * 128)
  let ans := (coresOfRegion r).filterMap (fun k =>
    let x := ((s.core k).line line)
    if x.all = 0 then none else some (k, x))
  let d := ans.foldl (fun d a => d.read a.1 a.2.all true) DirEnt.empty
  s.setDir line (some { d with excl := (match ans with | [a] => a.2.s == 0 | _ => false), used := s.cycles })
/-- The entry of a line, rebuilt after a discovery probe where the directory has none (R349). -/
def State.entryFor (s : State) (line : Nat) : State :=
  match s.dirOf line with
  | some _ => s
  | none => (s.dirReplace line (homeDie line)).rebuild line

/-- The directory after a request of core c is granted (R344, R345): other holders' spans reduced by a write, at the home and at
every proxy, and the requester tracked at the home or at its die's proxy. A read is granted no exclusive copy while another die has a bit in
DIES or, behind a proxy, while the home tracks any core, whatever sectors they hold (assumption 44). -/
def State.dirGrant (s : State) (line c : Nat) (span : BitVec 8) (write : Bool) : State :=
  let hd := homeDie line
  let die := dieOfCore c
  let cut := fun (x : DirEnt) => if write then x.reduce c span else x.lower c span
  let s := s.modProxies line cut (s.dieTargets line)
  let d := cut ((s.dirOf line).getD DirEnt.empty)
  let grant := fun (x : DirEnt) (alone : Bool) =>
    { (if write then x.write c span alone else x.read c span alone) with used := s.cycles }
  if die = hd then s.setDir line (some (grant d (d.dies == 0)))
  else
    let s := s.setDir line (some { d with used := s.cycles })
    let s := if (s.proxyOf line die).isSome then s else s.dirReplace line die
    s.putProxy line die (grant ((s.proxyOf line die).getD DirEnt.empty)
      (d.tracksNone && (d.dies &&& ~~~(1#16 <<< die)) == 0))
/-- Whether the entry that tracks a core's copy of a line is exclusive. -/
def State.exclusive (s : State) (line c : Nat) : Bool :=
  match if dieOfCore c = homeDie line then s.dirOf line else s.proxyOf line (dieOfCore c) with
  | some d => d.excl
  | none => false

/-- A request served whole, within the step that makes it: the vector, tile and engine paths and the atomics use it. The
requester's and the holders' notices arrive first; the entry is found or rebuilt; the holders that R346 names receive the invalidation, or a read's
downgrade, and answer; and the directory records the requester (R345, R346, R349). -/
def State.serve (s : State) (k line : Nat) (span : BitVec 8) (write : Bool) : State :=
  let x := (s.core k).line line
  if covers (if write then x.m ||| x.e else x.all) span then s
  else
    let s := (s.approach k line span write).entryFor line
    let s := s.collect line (s.targets line span k)
    let s := (s.asked line span write (s.targets line span k)).dirGrant line k span write
    s.l1Gain k line span (write || s.exclusive line k)

/-- Sectors recalled from every cache, for an access at the home (R265, R277, R297). A coarse entry returns to pointer format only for a
write (R345), and the entry counts as used (R348). -/
def State.recall (s : State) (line : Nat) (span : BitVec 8) (write : Bool) : State :=
  let cut := fun (d : DirEnt) => if d.coarse && !write then d else d.reduce 1024 span
  let s := s.entryFor line
  let s := s.collect line (s.targets line span 1024)
  let s := (s.asked line span true (s.targets line span 1024)).modProxies line cut (s.dieTargets line)
  match s.dirOf line with
  | none => s
  | some d => s.setDir line (some { cut d with used := s.cycles })

/-- The lines and spans of a run of HBM bytes. -/
def linesOf (pa len : Nat) : List (Nat × BitVec 8) :=
  if len = 0 then [] else
  (List.range (lineOf (pa + len - 1) - lineOf pa + 1)).map (fun j =>
    let line := lineOf pa + j
    let lo := max pa (line * 128)
    let hi := min (pa + len) (line * 128 + 128)
    (line, spanOf (lo - line * 128) (hi - lo)))
/-- The lines and spans of the cached pieces of an access. -/
def cachedLines (ps : List Piece) : List (Nat × BitVec 8) :=
  ps.flatMap (fun p => match p.loc with
    | .hbm pa => if p.uncached then [] else linesOf pa p.len
    | _ => [])
/-- The lines and spans of all HBM pieces of an access. -/
def hbmLines (ps : List Piece) : List (Nat × BitVec 8) :=
  ps.flatMap (fun p => match p.loc with
    | .hbm pa => linesOf pa p.len
    | _ => [])

/-- Every line of a list served to a core. -/
def State.serveAll (s : State) (k : Nat) (write : Bool) : List (Nat × BitVec 8) → State
  | [] => s
  | (l, m) :: t => State.serveAll (s.serve k l m write) k write t
/-- Every line of a list recalled. -/
def State.recallAll (s : State) (write : Bool) : List (Nat × BitVec 8) → State
  | [] => s
  | (l, m) :: t => State.recallAll (s.recall l m write) write t

/-- Sectors of a line that a core holds become M as it writes them (R263). -/
def State.dirtyL1 (s : State) (k : Nat) : List (Nat × BitVec 8) → State
  | [] => s
  | (l, m) :: t =>
    State.dirtyL1 (s.modCore k (fun c =>
      let x := c.line l
      c.setLine l { x with m := x.m ||| (m &&& (x.m ||| x.e)), e := x.e &&& ~~~m, s := x.s &&& ~~~m })) k t

/-- Whether the sector of a byte is poisoned in HBM, whatever a cache holds of it (R267). -/
def State.hbmBad (s : State) (pa : Nat) : Bool :=
  match (List.range 16).findSome? (fun i => SMap.get none s.hbmOld (pa / 16 * 16 + i)) with
  | some x => x.2
  | none => SMap.get false s.poison (pa / 16)
/-- The HBM values kept under bytes that become dirty in a cache (R263, R267, R280). -/
def State.keepOld (s : State) : List Loc → State
  | [] => s
  | .hbm pa :: t =>
    State.keepOld (match SMap.get none s.hbmOld pa with
      | some _ => s
      | none => { s with hbmOld := SMap.put none s.hbmOld pa (some (s.hbmByte pa, s.hbmBad pa)) }) t
  | _ :: t => State.keepOld s t
/-- Sectors that core k writes upon a good copy are good from then on, whatever HBM holds (R267). -/
def State.ownGood (s : State) (k : Nat) : List (Nat × BitVec 8) → State
  | [] => s
  | (l, m) :: t =>
    let g := ((s.core k).line l).good &&& m
    let s := (List.range 8).foldl (fun u j => if g.getLsbD j then u.setPoison (.hbm (l * 128 + 16 * j)) false else u) s
    State.ownGood (s.modCore k (fun c => c.setLine l { c.line l with good := (c.line l).good &&& ~~~m })) k t
/-- The run of sectors from the lowest of a span to the highest (R262). -/
def spanRun (m : BitVec 8) : BitVec 8 :=
  BitVec.ofNat 8 ((List.range 8).foldl (fun a j =>
    if (List.range (j + 1)).any m.getLsbD && (List.range 8).any (fun h => decide (j ≤ h) && m.getLsbD h) then a + 2 ^ j else a) 0)
/-- The requests of a vector instruction: for each line one span from its lowest to its highest performed element (R262). -/
def vectorLines (l : List (Nat × BitVec 8)) : List (Nat × BitVec 8) :=
  (l.map (·.1)).eraseDups.map (fun x =>
    (x, spanRun (l.foldl (fun a y => if y.1 = x then a ||| y.2 else a) 0)))

/-- The lines of which the core of context c misses a sector, counted for the context (R377). -/
def State.countMiss (s : State) (c : Nat) (want : List (Nat × BitVec 8)) : State :=
  s.count c 0x06 (want.filter (fun x => !covers ((s.core (coreOf c)).line x.1).all x.2)).length

/-- A write of context c through its core's data cache, or at the home where the page is uncached (R263, R265): sectors obtained,
dirty bookkeeping, then the bytes. -/
def State.coreWriteOf (s : State) (c : Nat) (want : List (Nat × BitVec 8)) (ps : List Piece) (data : List Byte) : State :=
  let lines := cachedLines ps
  let s := (s.countMiss c want).serveAll (coreOf c) true want
  let s := s.recallAll true (hbmLines (ps.filter (·.uncached)))
  let s := (s.keepOld (pieceLocs (ps.filter (fun p => !p.uncached)))).ownGood (coreOf c) lines
  let s := s.dropOld (pieceLocs (ps.filter (·.uncached)))
  (s.perform (some c) (pieceWrites ps data)).dirtyL1 (coreOf c) lines
/-- A write of scalar pieces, each line's span as its bytes cover it. -/
def State.coreWrite (s : State) (c : Nat) (ps : List Piece) (data : List Byte) : State :=
  s.coreWriteOf c (cachedLines ps) ps data
/-- A write performed at the home after every copy is recalled: engines and atomics (R277, R297). -/
def State.homeWrite (s : State) (who : Option Nat) (ps : List Piece) (data : List Byte) : State :=
  let s := s.recallAll true (hbmLines ps)
  let s := s.keepOld (pieceLocs (ps.filter (fun p => !p.uncached)))
  let s := s.dropOld (pieceLocs (ps.filter (·.uncached)))
  (s.perform who (pieceWrites ps data)).homeDirtyAll (cachedLines ps)
/-- A read of context c through its core's data cache (R263), of the spans it asks for. -/
def State.coreReadOf (s : State) (c : Nat) (want : List (Nat × BitVec 8)) (ps : List Piece) : State :=
  let s := (s.countMiss c want).serveAll (coreOf c) false want
  if ps.any (fun p => match p.loc with | .fabric _ => true | _ => false) then { s with fresh := s.fresh + 1 } else s
/-- A read of scalar pieces. -/
def State.coreRead (s : State) (c : Nat) (ps : List Piece) : State := s.coreReadOf c (cachedLines ps) ps

end Sys2Proof.Machine
end

