-- ==== Sys2Proof/Machine/Operands.lean ====
section
/-! DEFINITION. The operand forms of the vector and tile instructions: elements of register groups (R144), masks (R149,
R150), format words and what each position accepts (R36, R37, R174), register groups (R35, R79), and the dispatch checks of
R56 with the entry of the vector queue (R97, R148). -/

namespace Sys2Proof.Machine

/-! Elements and masks. -/

/-- Element i of width w of the group that starts at vn, with registers of 2^lenLog bits (R144). -/
def Ctx.elem (c : Ctx) (lenLog n w i : Nat) : Nat :=
  ((c.v.get (Fin.ofNat 32 (n + i * w / 2 ^ lenLog))).extractLsb' (i * w % 2 ^ lenLog) w).toNat
/-- A bit field of a long register replaced. -/
def putBits {n : Nat} (r : BitVec n) (off w x : Nat) : BitVec n :=
  (r &&& ~~~(BitVec.ofNat n (2 ^ w - 1) <<< off)) ||| (BitVec.ofNat n (x % 2 ^ w) <<< off)
/-- The context with an element written (R144). -/
def Ctx.setElem (c : Ctx) (lenLog n w i x : Nat) : Ctx :=
  let r : Fin 32 := Fin.ofNat 32 (n + i * w / 2 ^ lenLog)
  { c with v := c.v.set r.val (putBits (c.v.get r) (i * w % 2 ^ lenLog) w x) r.isLt }
/-- M(n, i) (R149). -/
def Ctx.mbit (c : Ctx) (n : MReg) (i : Nat) : Bool := (c.m.get n).getLsbD i
/-- A mask register replaced. -/
def Ctx.setM (c : Ctx) (n : MReg) (x : BitVec 2048) : Ctx := { c with m := c.m.set n.val x n.isLt }
/-- The context with a mask bit written. -/
def Ctx.setMbit (c : Ctx) (n : MReg) (i : Nat) (b : Bool) : Ctx := c.setM n (putBits (c.m.get n) i 1 (if b then 1 else 0))
/-- The mask register that a mask field names (R53). -/
def maskReg (k : MaskSel) : MReg := Fin.ofNat 16 k.val
/-- Active(i) under a mask field (R150): every element without a mask. -/
def Ctx.active (c : Ctx) (k : MaskSel) (i : Nat) : Bool := k == 0 || c.mbit (maskReg k) i

/-- VLMAX (R146). -/
def vlmax (lenLog es grp : Nat) : Nat := min 2048 (2 ^ grp * 2 ^ lenLog / (8 * 2 ^ es))
/-- The element width of VTYPE in bits. -/
def ewOf (es : Nat) : Nat := 8 * 2 ^ es

/-! Format words. -/

/-- The format register of an fr field (R53). -/
def fmtReg (f : FmtSel) : GReg := Fin.ofNat 32 (24 + f.val)

/-- What an instruction reads of its format word: the formats each position accepts (none where the position is not read),
whether FD or FB must equal FA, and the rounding modes accepted (none where RM is not read) (R37, R56, R174). -/
structure FwRule where
  fa  : Option (Fmt → Bool)
  fb  : Option (Fmt → Fmt → Bool)
  fd  : Option (Fmt → Fmt → Bool)
  rm  : Option Nat

/-- Whether a format word passes R37 for an instruction. -/
def fwOk (r : FwRule) (w : Word) : Bool :=
  let a := Fmt.ofCode (fwFA w)
  let pair := fun (p : Fmt → Fmt → Bool) (x : Option Fmt) =>
    match x with
    | none => false
    | some y => p (a.getD (.int 8 true)) y
  fwReservedZero w &&
  (match r.rm with | none => true | some top => decide (fwRM w ≤ top)) &&
  (match r.fa with | none => true | some p => (match a with | none => false | some x => p x)) &&
  (match r.fb with | none => true | some p => pair p (Fmt.ofCode (fwFB w))) &&
  (match r.fd with | none => true | some p => pair p (Fmt.ofCode (fwFD w)))

/-- The formats a format word names, INT8 where a position holds no format. -/
def faOf (w : Word) : Fmt := (Fmt.ofCode (fwFA w)).getD (.int 8 true)
def fbOf (w : Word) : Fmt := (Fmt.ofCode (fwFB w)).getD (.int 8 true)
def fdOf (w : Word) : Fmt := (Fmt.ofCode (fwFD w)).getD (.int 8 true)

/-- Positions that accept the set F whatever FA is. -/
def anyF : Fmt → Fmt → Bool := fun _ y => y.isF
/-- Positions that accept only FA's own format. -/
def sameAsFA : Fmt → Fmt → Bool := fun x y => decide (x = y)

/-- The rule of each function that reads a format word (R156, R165, R174 to R192, R211); none for one that reads none. -/
def VOp.fwRule : VOp → Option FwRule
  | .narrow _ _ => some ⟨some Fmt.isI, none, some (fun x y => x.isI && y.isI && decide (y.width < x.width)), some 5⟩
  | .fbin o _ _ _ =>
    match o with
    | .min | .max => some ⟨some Fmt.isF, some sameAsFA, some sameAsFA, some 5⟩
    | .scale => some ⟨some Fmt.isF, some (fun _ y => y.isI), some anyF, some 5⟩
    | _ => some ⟨some Fmt.isF, some anyF, some anyF, some 5⟩
  | .fun1 o _ _ =>
    match o with
    | .abs | .neg => some ⟨some Fmt.isF, none, some sameAsFA, some 5⟩
    | _ => some ⟨some Fmt.isF, none, some anyF, some 5⟩
  | .cvt _ _ _ => some ⟨some (fun x => !x.isPix), none, some (fun x y => !y.isPix && !(x.isBlock && y.isBlock)), some 5⟩
  | .fcmp _ _ _ _ => some ⟨some Fmt.isF, some anyF, none, some 5⟩
  | .fclass _ _ => some ⟨some Fmt.isF, none, none, some 5⟩
  | .nf _ _ => some ⟨some Fmt.isF, none, none, some 5⟩
  | .fma _ _ _ _ _ => some ⟨some Fmt.isF, some anyF, some anyF, some 5⟩
  | .ima _ _ _ _ => some ⟨some Fmt.isI, some (fun _ y => y.isI), some (fun x y => x.isI && y.isI && decide (x.width ≤ y.width)), some 5⟩
  | .fredsum _ _ _ => some ⟨some Fmt.isF, none, some (fun _ y => match y with
      | .fp f => f != .e4 && f != .e5
      | _ => false), some 5⟩
  | .fredmm _ _ _ _ => some ⟨some Fmt.isF, none, some sameAsFA, some 5⟩
  | .unpk _ _ => some ⟨some Fmt.isPix, none, some (fun _ y => decide (y = .int 16 false)), some 5⟩
  | .rnd _ => some ⟨none, none, none, some 5⟩
  | .plhead _ _ => some ⟨some Fmt.isF, none, some (fun _ y => y.isPB), some 5⟩
  | .plstep _ _ _ _ => some ⟨some Fmt.isF, none, some (fun _ y => y.isPB), some 5⟩
  | .plresc _ _ _ => some ⟨some Fmt.isPB, none, some (fun _ y => y.isPB), some 5⟩
  | _ => none

/-- VIMA's FD must hold FB as well (R185). -/
def VOp.fwExtra (op : VOp) (w : Word) : Bool :=
  match op with
  | .ima _ _ _ _ => decide ((fbOf w).width ≤ (fdOf w).width)
  | _ => true

/-! Register groups (R35, R79). -/

/-- The registers an operand of width w occupies in units of a sixteenth register, so that less than one shows (R35). -/
def groupCount16 (es grp w : Nat) : Nat := 16 * (2 ^ grp * w) / ewOf es
/-- Registers of a scale operand at `per` bytes a block (R176). -/
def scaleCount (lenLog per : Nat) : Nat := max 1 (512 * per / 2 ^ lenLog)

/-- A vector group: first register and count in sixteenths, and whether it is the destination. -/
structure Grp where
  n   : Nat
  c16 : Nat
  dst : Bool
  deriving DecidableEq, Repr

/-- A count of 1 to 8 whole registers within v0 to v31 (R35, R79). -/
def Grp.ok (g : Grp) : Bool := decide (g.c16 % 16 = 0 ∧ 16 ≤ g.c16 ∧ g.c16 ≤ 128 ∧ g.n + g.c16 / 16 ≤ 32)
/-- Two groups share a register. -/
def Grp.meets (a b : Grp) : Bool := decide (a.n < b.n + b.c16 / 16 ∧ b.n < a.n + a.c16 / 16)
/-- Every group is well formed, and each destination equals each source exactly or shares no register with it; with
`apart` even equality is refused (R79, R152). -/
def groupsOk (apart : Bool) (gs : List Grp) : Bool :=
  gs.all Grp.ok &&
  gs.all (fun d => !d.dst || gs.all (fun x => x.dst || !d.meets x || (!apart && d.n == x.n && d.c16 == x.c16)))

/-- A register group at VTYPE's own grouping. -/
def grpEs (grp : Nat) (r : VReg) (dst : Bool) : Grp := ⟨r.val, 16 * 2 ^ grp, dst⟩
/-- A register group at another width. -/
def grpW (es grp w : Nat) (r : VReg) (dst : Bool) : Grp := ⟨r.val, groupCount16 es grp w, dst⟩
/-- A second operand's group, if it is one. -/
def grpSrc (mk : VReg → Grp) : VSrc → List Grp
  | .vec r => [mk r]
  | .scal => []

/-- The groups of each function, and whether they must lie apart (R79, R152, R176, R186, R196, R211). -/
def VOp.groups (op : VOp) (lenLog es grp : Nat) (fw : Word) : Bool × List Grp :=
  let e := fun r d => grpEs grp r d
  let w := fun (f : Fmt) r d => grpW es grp f.width r d
  let one := fun (r : VReg) d => (⟨r.val, 16, d⟩ : Grp)
  let sc := fun (per : Nat) (r : VReg) d => (⟨r.val, 16 * scaleCount lenLog per, d⟩ : Grp)
  match op with
  | .int _ d a b => (false, [e d true, e a false] ++ grpSrc (e · false) b)
  | .narrow d a => (false, [w (fdOf fw) d true, w (faOf fw) a false])
  | .cmp _ _ a b => (false, [e a false, e b false])
  | .merge d a b => (false, [e d true, e a false, e b false])
  | .fbin _ d a b => (false, [w (fdOf fw) d true, w (faOf fw) a false] ++ grpSrc (w (fbOf fw) · false) b)
  | .fun1 _ d a => (false, [w (fdOf fw) d true, w (faOf fw) a false])
  | .cvt d a b => (false, [w (fdOf fw) d true, w (faOf fw) a false] ++
      (if (faOf fw).isBlock || (fdOf fw).isBlock then [sc 1 b false] else []))
  | .fcmp _ _ a b => (false, [w (faOf fw) a false, w (fbOf fw) b false])
  | .fclass d a => (false, [e d true, w (faOf fw) a false])
  | .nf _ a => (false, [w (faOf fw) a false])
  | .fma _ d a b c => (false, [w (fdOf fw) d true, w (faOf fw) a false, w (fbOf fw) b false, w (fdOf fw) c false])
  | .ima d a b c => (false, [w (fdOf fw) d true, w (faOf fw) a false, w (fbOf fw) b false, w (fdOf fw) c false])
  | .red _ d a b => (false, [one d true, e a false, one b false])
  | .fredsum d a b => (false, [one d true, w (faOf fw) a false, one b false])
  | .fredmm _ d a b => (false, [one d true, w (faOf fw) a false, one b false])
  | .slide _ d a => (true, [e d true, e a false])
  | .gather d a b => (true, [e d true, e a false, e b false])
  | .compress d a => (true, [e d true, e a false])
  | .expand d a => (true, [e d true, e a false])
  | .bcast d => (false, [e d true])
  | .ext _ a => (false, [e a false])
  | .ins d => (false, [e d true])
  | .vid d => (false, [e d true])
  | .iota d _ => (false, [e d true])
  | .zip d a b => (true, [e d true, e a false, e b false])
  | .unzip d a b => (true, [e d true, e a false, e b false])
  | .mov d a => (false, [e d true, e a false])
  | .unpk d a => (true, [e d true, e a false])
  | .rnd d => (false, [e d true])
  | .plhead d a => (false, [sc 1 d true, w (faOf fw) a false])
  | .plresc d a b => (false, [w (fdOf fw) d true, w (faOf fw) a false, sc 2 b false])
  | .plstep d a b c => (false, [w (fdOf fw) d true, w (faOf fw) a false, sc 1 b false, w (fdOf fw) c false])
  | .mlog _ _ _ _ | .mnot _ _ | .mpopc _ _ | .mfirst _ _ | .msbf _ _ _ | .mset _ _ | .mmovg _ | .mmovm _ _ => (false, [])
  | .mem st md d =>
    match md with
    | .unit | .strided | .faultFirst | .expand _ => (false, [e d (!st)])
    | .indexed iw b => (false, [e d (!st), grpW es grp (ewOf iw.val) b false])
    | .segment n _ => (false, [⟨d.val, 16 * ((n.val + 1) * 2 ^ grp), !st⟩])
    | .planar _ k _ => (false, [grpW es grp (Fmt.width (.pb (k.val + 1))) d (!st)])
    | .whole cnt => (false, [⟨d.val, 16 * 2 ^ cnt.val, !st⟩])

/-- The functions that are whole (R151, R186), performed in one step and refused with VSTART ≠ 0. -/
def VOp.whole : VOp → Bool
  | .ext _ _ | .ins _ | .mlog _ _ _ _ | .mnot _ _ | .mpopc _ _ | .mfirst _ _ | .msbf _ _ _ | .mset _ _ | .mmovg _
  | .mmovm _ _ | .red _ _ _ _ | .fredsum _ _ _ | .fredmm _ _ _ _ => true
  | _ => false

/-- The functions whose element boundary is the block of 32 (R190, R208). -/
def VOp.block : VOp → Bool
  | .plhead _ _ => true
  | .mem true (.planar _ _ _) _ => true
  | _ => false

/-- Whether a function writes a vector or mask register, and so sets STATUS.VD (R153, R198, R247). -/
def VOp.setsVd : VOp → Bool
  | .ext _ _ | .mpopc _ _ | .mfirst _ _ | .mmovm _ _ => false
  | .mem st _ _ => !st
  | _ => true

/-- The general register that a function writes, if any (R97). -/
def VOp.gDst : VOp → Option GReg
  | .ext d _ => some d
  | .mpopc d _ => some d
  | .mfirst d _ => some d
  | .mmovm d _ => some d
  | _ => none

/-- Whether an operand condition of step 6 of R56 is broken: groups, VSTART, and the conditions of single entries (R182,
R196, R211). -/
def VOp.reserved (op : VOp) (lenLog es grp vstart : Nat) (fw : Word) : Bool :=
  let g := op.groups lenLog es grp fw
  !groupsOk g.1 g.2 ||
  (op.whole && vstart != 0) ||
  (op.block && vstart % 32 != 0) ||
  (match op with
    | .fclass _ _ => es == 0
    | .unpk _ _ => es != 1
    | _ => false)

/-- Whether a function reads the memory, or writes it (R206). -/
def VOp.isLoad : VOp → Bool | .mem st _ _ => !st | _ => false
def VOp.isStore : VOp → Bool | .mem st _ _ => st | _ => false

/-- The vector queue entries of a context. -/
def State.vqOf (s : State) (c : Nat) : List VEntry := (s.core (coreOf c)).vq.filter (·.ctx == c)
/-- The VSTART an instruction dispatches with: 0 where an earlier vector instruction is still to set it so (R148). -/
def State.effVstart (s : State) (c : Nat) : Nat := if (s.vqOf c).isEmpty then (s.ctx c).vstart.toNat else 0

/-- Whether a TSLV of context c that has not executed writes a register of some group (R226). -/
def State.slvPending (s : State) (c : Nat) (gs : List Grp) : Bool :=
  (s.core (coreOf c)).tq.any (fun e => e.ctx == c && !e.started && (match e.op with
    | .slv _ v _ n _ => gs.any (·.meets ⟨v.val, 16 * ((n * 2048 + 2 ^ e.lenLog - 1) / 2 ^ e.lenLog), true⟩)
    | _ => false))

/-- The context advances past a vector instruction that has entered the queue, in WAIT-UNIT behind one that may still trap (R94);
IRET counts it when it completes (R242). -/
def Ctx.issued (c : Ctx) (e : VEntry) : Ctx :=
  { c with
    st := if e.last then .ready else .waitUnit, wait := if e.last then .none else .vBehind
    pc := c.pc + 4, young := !e.op.whole, status := { c.status with vd := c.status.vd || e.op.setsVd } }

/-- The entry of a vector instruction, with everything it reads at dispatch (R38, R148). -/
def State.vEntry (s : State) (op : VOp) (mask : MaskSel) (fw x y : Word) : VEntry :=
  let c := s.me
  let vs := s.effVstart s.cur
  ⟨s.cur, op, mask, c.pc, c.vl.toNat, c.es.toNat, c.grp.toNat, vs, c.vfill, c.stripbase, c.seed, c.vcap.toNat, fw,
    x, y, vs, vs, none, !(op.isLoad || op.isStore), false, false⟩

/-- Vector availability (R56, step 3). -/
def needVec (w : Nat) (s : State) (f : Out) : Out := if s.me.status.ven then f else raise 0x0A (tvalWord w) s

/-- The number of elements, or of 8-byte units for VLDW and VSTW (R210). -/
def VEntry.limit (e : VEntry) : Nat :=
  match e.op with
  | .mem _ (.whole cnt) _ => 2 ^ cnt.val * 2 ^ e.lenLog / 64
  | _ => e.vl

/-- The accesses of element i: address and length of each (R196). -/
def VEntry.accesses (e : VEntry) (c : Ctx) (i : Nat) : List (Nat × Nat) :=
  let mb := 2 ^ e.es
  let base := e.x.toNat
  let at_ := fun (off n : Nat) => ((base + off) % 2 ^ 64, n)
  match e.op with
  | .mem st md _ =>
    match md with
    | .unit | .faultFirst => [at_ (i * mb) mb]
    | .strided => [at_ (i * e.y.toNat) mb]
    | .indexed iw b => [at_ (c.elem e.lenLog b.val (ewOf iw.val) i) mb]
    | .segment f mw => (List.range (f.val + 1)).map (fun j => at_ ((i * (f.val + 1) + j) * 2 ^ mw.val) (2 ^ mw.val))
    | .planar p k rnd => (List.range ((if rnd && !st then p.val else k.val) + 1)).map (fun j => at_ (j * e.y.toNat + i) 1)
    | .whole _ => [at_ (8 * i) 8]
    | .expand f => [at_ (i / 2 ^ f.val * mb) mb]
  | _ => []

/-- Whether element i is performed by a memory instruction (R199). -/
def VEntry.touches (e : VEntry) (c : Ctx) (i : Nat) : Bool :=
  match e.op with
  | .mem _ (.whole _) _ => true
  | _ => c.active e.mask i

/-- Translation of the accesses of an element, in order. Of a planar element with several failing pages the first in plane order gives
cause and TVAL, as the first poisoned byte in that order does under a negative plane stride; R201 does not order them (assumption 78). -/
def State.transAll (w : Who) (k : Acc) : List (Nat × Nat) → State → State × Except (Nat × Nat) (List Piece)
  | [], s => (s, .ok [])
  | a :: t, s =>
    match s.transSpan w k a.1 a.2 with
    | (s, .error x) => (s, .error x)
    | (s, .ok ps) =>
      match State.transAll w k t s with
      | (s, .error x) => (s, .error x)
      | (s, .ok qs) => (s, .ok (ps ++ qs))

end Sys2Proof.Machine
end

