-- ==== Sys2Proof/Machine/VectorExec.lean ====
section
/-! DEFINITION. What the vector unit does with a dispatched instruction that does not access memory: the effect on one element
(R150 to R192), on one block (R190), and of the whole instructions (R151, R186). -/

namespace Sys2Proof.Machine

/-- The rounding of element i under the entry's format word (R36, R40, R41). -/
def VEntry.rounding (e : VEntry) (i : Nat) : Rounding :=
  let rm := (RMode.ofCode (fwRM e.fw)).getD .rne
  ⟨rm, fwSat e.fw, fwFtz e.fw, if rm = .sr then (rand e.seed (fwSalt e.fw) e.stripbase i).toNat % 2 ^ 24 else 0⟩

/-- Rd(n, j, w) of R150: the element, or Fill at or beyond VL. -/
def VEntry.rd (e : VEntry) (c : Ctx) (n j w : Nat) : Nat := if j < e.vl then c.elem e.lenLog n w j else e.vfill.toNat % 2 ^ w

/-- f(x, y) of R155 at width w, with the flag it raises. -/
def VBin.eval (o : VBin) (w x y : Nat) : Nat × FFlags :=
  let sx := intOf w true x
  let sy := intOf w true y
  match o with
  | .add => ((x + y) % 2 ^ w, 0)
  | .sub => (wrapBits w ((x : Int) - y), 0)
  | .mul => (x * y % 2 ^ w, 0)
  | .mulh => (wrapBits w (sx * sy / 2 ^ w), 0)
  | .mulhu => (x * y / 2 ^ w % 2 ^ w, 0)
  | .min => (if sx ≤ sy then x else y, 0)
  | .max => (if sx ≤ sy then y else x, 0)
  | .minu => (if x ≤ y then x else y, 0)
  | .maxu => (if x ≤ y then y else x, 0)
  | .and => (x &&& y, 0)
  | .or => (x ||| y, 0)
  | .xor => (x ^^^ y, 0)
  | .shl => (x * 2 ^ (y % w) % 2 ^ w, 0)
  | .shr => (x / 2 ^ (y % w), 0)
  | .sra => (wrapBits w (sx / 2 ^ (y % w)), 0)
  | .adds => intToInt w true true 0 (sx + sy)
  | .addsu => intToInt w false true 0 ((x : Int) + y)
  | .subs => intToInt w true true 0 (sx - sy)
  | .subsu => intToInt w false true 0 ((x : Int) - y)
  | .avg => (wrapBits w ((sx + sy + 1) / 2), 0)
  | .absd => ((sx - sy).natAbs % 2 ^ w, 0)

/-- The integer compares (R157). -/
def VCmp.eval (o : VCmp) (w x y : Nat) : Bool :=
  match o with
  | .eq => x == y
  | .ne => x != y
  | .lt => decide (intOf w true x < intOf w true y)
  | .le => decide (intOf w true x ≤ intOf w true y)
  | .ltu => decide (x < y)
  | .leu => decide (x ≤ y)

/-- The two-operand floating-point functions of R177. `y` is read as FB; for the scale it is an integer of FB. -/
def FBin.eval (o : FBin) (fa fb fd : Fmt) (r : Rounding) (x y : Nat) : Nat × FFlags :=
  let a := fmtVal fa r.ftz 0 x
  let b := fmtVal fb r.ftz 0 y
  let sig := sigFlag a ||| sigFlag b
  let deliver := fun (z : Exact) => let t := toFmt fd r 0 z; (t.1, t.2 ||| sig)
  match o with
  | .add => deliver (addNum r.rm a b)
  | .sub => deliver (addNum r.rm a (negNum b))
  | .mul => deliver (mulExact a b)
  | .div => deliver (divExact a b)
  | .min => match fa with | .fp f => minMaxBits f false r.ftz x y | _ => (0, 0)
  | .max => match fa with | .fp f => minMaxBits f true r.ftz x y | _ => (0, 0)
  | .scale => match fb with
    | .int w s => deliver (scaleExact a (intOf w s y))
    | _ => (0, 0)

/-- The one-operand floating-point functions of R177 and R179. An estimate that is inexact only in its rounding to 12 bits sets NX,
and UF only where its conversion to FD does (assumption 66). -/
def FUn.eval (o : FUn) (fa fd : Fmt) (r : Rounding) (x : Nat) : Nat × FFlags :=
  let a := fmtVal fa r.ftz 0 x
  let est := fun (z : Exact) =>
    let v := estimate z
    let t := toFmt fd r 0 v.1
    (t.1, t.2 ||| sigFlag a ||| flagIf v.2 flagNX)
  match o with
  | .sqrt => let t := toFmt fd r 0 (sqrtExact a); (t.1, t.2 ||| sigFlag a)
  | .rcp => est (divExact (.fin false 1 0) a)
  | .rsq => est (rsqrtExact a)
  | .exp2 => est (exp2Exact a)
  | .log2 => est (log2Exact a)
  | .abs => match fa with | .fp f => (signBits f false r.ftz x, 0) | _ => (0, 0)
  | .neg => match fa with | .fp f => (signBits f true r.ftz x, 0) | _ => (0, 0)

/-- The floating-point compares (R181). -/
def FCmp.eval (o : FCmp) (a b : Num) : Bool × FFlags :=
  match o with
  | .eq => cmpEq a b
  | .lt => cmpLt false a b
  | .le => cmpLt true a b
  | .un => (a.isNan || b.isNan, sigFlag a ||| sigFlag b)

/-- Bits of a result as its format occupies an element: a planar significand is held sign-extended (R31). -/
def heldBits (f : Fmt) (b : Nat) : Nat :=
  match f with
  | .pb p => wrapBits f.width (intOf (8 * p) true b)
  | _ => b

/-- The context with a flag set raised. -/
def Ctx.raiseFlags (c : Ctx) (f : FFlags) : Ctx := { c with fstat := c.fstat ||| f }

/-- P(i) of R161: the set bits of a mask register below i. -/
def Ctx.maskCount (c : Ctx) (k : MReg) (i : Nat) : Nat := popGo (c.m.get k).toNat i

/-- The number of j below i with M(a, j) = 1 and Active(j) (R162, R167). -/
def VEntry.activeCount (e : VEntry) (c : Ctx) (a : MReg) (i : Nat) : Nat :=
  if e.mask = 0 then c.maskCount a i else popGo (c.m.get a &&& c.m.get (maskReg e.mask)).toNat i

/-- The second operand at index i: an element, or the scalar read at dispatch (R155, R178). -/
def VEntry.second (e : VEntry) (c : Ctx) (w i : Nat) : VSrc → Nat
  | .vec r => c.elem e.lenLog r.val w i
  | .scal => e.y.toNat % 2 ^ w

/-- A result written to element i of a group, with its flags. -/
def VEntry.put (e : VEntry) (c : Ctx) (d : VReg) (w i : Nat) (x : Nat × FFlags) : Ctx :=
  (c.setElem e.lenLog d.val w i x.1).raiseFlags x.2

/-- The scale byte of element i in a scale operand (R176). -/
def VEntry.scaleOf (e : VEntry) (c : Ctx) (b : VReg) (i : Nat) : Nat := c.elem e.lenLog b.val 8 (i / 32)

/-- Bits [w·i + w − 1 : w·i] of the little-endian string of a group (R211). -/
def VEntry.packed (e : VEntry) (c : Ctx) (a : VReg) (w i : Nat) : Nat :=
  (List.range w).foldl (fun x j =>
    let k := w * i + j
    x + (if (c.v.get (Fin.ofNat 32 (a.val + k / 2 ^ e.lenLog))).getLsbD (k % 2 ^ e.lenLog) then 2 ^ j else 0)) 0

/-- What a function does to element i when i is performed. The functions that are whole or work by blocks do nothing here. -/
def VEntry.element (e : VEntry) (c : Ctx) (i : Nat) : Ctx :=
  let w := ewOf e.es
  let r := e.rounding i
  let fa := faOf e.fw
  let fb := fbOf e.fw
  let fd := fdOf e.fw
  let get := fun (v : VReg) (u : Nat) => c.elem e.lenLog v.val u i
  let num := fun (f : Fmt) (x : Nat) => fmtVal f r.ftz 0 x
  match e.op with
  | .int o d a b => e.put c d w i (o.eval w (get a w) (e.second c w i b))
  | .narrow d a => match fa, fd with
    | .int wa sa, .int wd sd => e.put c d wd i (intToInt wd sd r.sat flagNV (intOf wa sa (get a wa)))
    | _, _ => c
  | .cmp o d a b => c.setMbit d i (o.eval w (get a w) (get b w))
  | .merge d a b => e.put c d w i (if c.mbit (maskReg e.mask) i then get b w else get a w, 0)
  | .fbin o d a b => e.put c d fd.width i (o.eval fa fb fd r (get a fa.width) (e.second c fb.width i b))
  | .fun1 o d a => e.put c d fd.width i (o.eval fa fd r (get a fa.width))
  | .cvt d a b =>
    let s := e.scaleOf c b i
    let x := fmtVal fa r.ftz s (get a fa.width)
    let y := toFmt fd r s x.exact
    e.put c d fd.width i (heldBits fd y.1, y.2 ||| sigFlag x)
  | .fcmp o d a b =>
    let y := o.eval (num fa (get a fa.width)) (num fb (get b fb.width))
    (c.setMbit d i y.1).raiseFlags y.2
  | .fclass d a => match fa with
    | .fp f => e.put c d w i (classBits f r.ftz (get a fa.width), 0)
    | _ => c
  | .nf d a =>
    let hit := match num fa (get a fa.width) with | .fin _ _ _ => false | _ => true
    (c.setMbit d i hit).raiseFlags (flagIf hit flagNF)
  | .fma neg d a b z =>
    let x := num fa (get a fa.width)
    let y := num fb (get b fb.width)
    let t := num fd (get z fd.width)
    let y' := toFmt fd r 0 (fmaExact r.rm neg x y t)
    e.put c d fd.width i (y'.1, y'.2 ||| sigFlag x ||| sigFlag y ||| sigFlag t)
  | .ima d a b z => match fa, fb, fd with
    | .int wa sa, .int wb sb, .int wd sd =>
      e.put c d wd i (intToInt wd sd r.sat 0
        (intOf wa sa (get a wa) * intOf wb sb (get b wb) + intOf wd sd (get z wd)))
    | _, _, _ => c
  | .slide up d a =>
    let off := e.y.toNat
    e.put c d w i (if up then (if off ≤ i then c.elem e.lenLog a.val w (i - off) else e.vfill.toNat % 2 ^ w)
      else e.rd c a.val (i + off) w, 0)
  | .gather d a b => e.put c d w i (e.rd c a.val (get b w) w, 0)
  | .compress d a => e.put c d w (c.maskCount (maskReg e.mask) i) (get a w, 0)
  | .expand d a => e.put c d w i (c.elem e.lenLog a.val w (c.maskCount (maskReg e.mask) i), 0)
  | .bcast d => e.put c d w i (e.x.toNat % 2 ^ w, 0)
  | .vid d => e.put c d w i (i % 2 ^ w, 0)
  | .iota d a => e.put c d w i (e.activeCount c a i % 2 ^ w, 0)
  | .zip d a b => e.put c d w i (c.elem e.lenLog (if i % 2 = 0 then a.val else b.val) w (i / 2), 0)
  | .unzip d a b =>
    e.put c d w i (if 2 * i < e.vl then c.elem e.lenLog a.val w (2 * i) else c.elem e.lenLog b.val w (2 * i - e.vl), 0)
  | .mov d a => e.put c d w i (get a w, 0)
  | .unpk d a => match fa with
    | .pix p => e.put c d 16 i (e.packed c a p i, 0)
    | _ => c
  | .rnd d => e.put c d w i ((rand e.seed (fwSalt e.fw) e.stripbase i).toNat % 2 ^ w, 0)
  | .plresc d a b => match fa, fd with
    | .pb pa, .pb pd =>
      let pair := c.elem e.lenLog b.val 16 (i / 32)
      let sOld := pair % 256
      let sNew := pair / 256
      let y := if sNew = 255 then (0, 0)
        else if sOld = 255 then (0, flagNV)
        else toPlanar pd r ((sNew : Int) - 127 - (8 * (pd : Int) - 1)) (pbVal pa sOld (get a fa.width)).exact
      e.put c d fd.width i (heldBits fd y.1, y.2)
    | _, _ => c
  | .plstep d a b z => match fd with
    | .pb p =>
      let s := e.scaleOf c b i
      let u := num fa (get a fa.width)
      let q := numOfInt (intOf (8 * p) true (get z fd.width))
      let v := match u with
        | .fin n m x => Num.fin n m (x + (8 * (p : Int) - 1) - ((s : Int) - 127))
        | y => y
      let y := if s = 255 then (0, flagNV) else toPlanar p r 0 (addNum r.rm q v)
      e.put c d fd.width i (heldBits fd y.1, y.2 ||| sigFlag u)
    | _ => c
  | .red .. | .fredsum .. | .fredmm .. | .ext .. | .ins .. | .plhead .. | .mlog .. | .mnot .. | .mpopc .. | .mfirst .. | .msbf ..
  | .mset .. | .mmovg .. | .mmovm .. | .mem .. => c

/-- Whether element i is performed (R150). The mask of VMERGE selects and does not govern (R158). -/
def VEntry.performs (e : VEntry) (c : Ctx) (i : Nat) : Bool :=
  match e.op with
  | .merge .. => true
  | _ => c.active e.mask i

/-- The elements from..from+n−1 in order, those that are performed. -/
def VEntry.runFrom (e : VEntry) : Nat → Nat → Ctx → Ctx
  | 0, _, c => c
  | n + 1, i, c => VEntry.runFrom e n (i + 1) (if e.performs c i then e.element c i else c)

/-- The scale that VPLHEAD finds for a block whose largest magnitude is m·2^x, and the flag (R190). -/
def plheadScale (p : Nat) (sat : Bool) (m : Nat) (x : Int) : Nat × FFlags :=
  if m = 0 then (0, 0)
  else match (List.range 255).find? (fun (s : Nat) =>
      decide (cmpNum (.fin false m x) (.fin false (2 ^ (8 * p - 1) - 1) ((s : Int) - 127 - (8 * (p : Int) - 1))) ≤ 0)) with
    | some s => (s, 0)
    | none => if sat then (254, flagSAT) else (255, flagOF)

/-- VPLHEAD on one block (R190). -/
def VEntry.plheadBlock (e : VEntry) (d a : VReg) (c : Ctx) (b : Nat) : Ctx :=
  let fa := faOf e.fw
  let p := match fdOf e.fw with | .pb p => p | _ => 1
  let xs := ((List.range 32).map (32 * b + ·)).filter (fun i => decide (i < e.vl) && c.active e.mask i)
  let vs := xs.map (fun i => fmtVal fa (fwFtz e.fw) 0 (c.elem e.lenLog a.val fa.width i))
  let sig := vs.foldl (fun f v => f ||| sigFlag v) 0
  let y : Nat × FFlags :=
    if vs.any (fun v => match v with | .fin _ _ _ => false | _ => true) then (255, sig)
    else match vs.foldl (fun (m : Num) v => match v with
        | .fin _ k x => if cmpNum m (.fin false k x) < 0 then .fin false k x else m
        | _ => m) (.fin false 0 0) with
      | .fin _ m x => plheadScale p (fwSat e.fw) m x
      | _ => (0, 0)
  (c.setElem e.lenLog d.val 8 b y.1).raiseFlags y.2

/-- Blocks b..b+n−1 of VPLHEAD. -/
def VEntry.plheadFrom (e : VEntry) (d a : VReg) : Nat → Nat → Ctx → Ctx
  | 0, _, c => c
  | n + 1, b, c => VEntry.plheadFrom e d a n (b + 1) (e.plheadBlock d a c b)

/-- Combination of two integers in a reduction (R187). -/
def VRed.eval (o : VRed) (w x y : Nat) : Nat :=
  match o with
  | .sum => (x + y) % 2 ^ w
  | .max => if intOf w true x ≤ intOf w true y then y else x
  | .min => if intOf w true x ≤ intOf w true y then x else y
  | .maxu => if x ≤ y then y else x
  | .minu => if x ≤ y then x else y
  | .and => x &&& y
  | .or => x ||| y
  | .xor => x ^^^ y

/-- One addition of the fixed tree (R48). -/
def treeAdd (f : FpFmt) (sat : Bool) (x y : Nat) : Nat × FFlags :=
  let a := fpVal f false x
  let b := fpVal f false y
  let t := toFp f (treeRounding sat) (addNum .rne a b)
  (t.1, t.2 ||| sigFlag a ||| sigFlag b)

/-- The levels of the tree of R48 over a list of 2^n values. -/
def treeSum (f : FpFmt) (sat : Bool) : Nat → List Nat → FFlags → Nat × FFlags
  | 0, l, fl => (l.headD 0, fl)
  | n + 1, l, fl =>
    let h := 2 ^ n
    let r := (l.take h).zipWith (fun x y => treeAdd f sat x y) (l.drop h)
    treeSum f sat n (r.map (·.1)) (r.foldl (fun a x => a ||| x.2) fl)

/-- The least n with k ≤ 2^n. -/
def ceilLog2 (k : Nat) : Nat := if k ≤ 1 then 0 else (k - 1).log2 + 1

/-- The active elements of a group below VL, with their indices (R187 to R189). -/
def VEntry.actives (e : VEntry) (c : Ctx) : List Nat := (List.range e.vl).filter (fun i => c.active e.mask i)

/-- VFREDSUM (R188): the written value and the flags of every conversion and addition. With SAT = 1 an infinite initial value is
delivered as the largest finite one also where no element is active (R43 against R48; assumption 65). -/
def VEntry.fredsum (e : VEntry) (c : Ctx) (a b : VReg) : Nat × FFlags :=
  match faOf e.fw, fdOf e.fw with
  | .fp fa, .fp fd =>
    let sat := fwSat e.fw
    let cv := (List.range e.vl).map (fun i =>
      if c.active e.mask i then
        let x := fpVal fa false (c.elem e.lenLog a.val fa.width i)
        let t := toFp fd (treeRounding sat) x.exact
        (t.1, t.2 ||| sigFlag x)
      else (0, 0))
    let n := ceilLog2 e.vl
    let vals := cv.map (·.1) ++ List.replicate (2 ^ n - e.vl) 0
    let t := treeSum fd sat n vals (cv.foldl (fun f x => f ||| x.2) 0)
    let z := treeAdd fd sat (c.elem e.lenLog b.val fd.width 0) t.1
    (z.1, z.2 ||| t.2)
  | _, _ => (0, 0)

/-- VFREDMAX and VFREDMIN (R189). -/
def VEntry.fredmm (e : VEntry) (c : Ctx) (max : Bool) (a b : VReg) : Nat × FFlags :=
  match faOf e.fw with
  | .fp f =>
    let ftz := fwFtz e.fw
    let xs := c.elem e.lenLog b.val f.width 0 :: (e.actives c).map (fun i => c.elem e.lenLog a.val f.width i)
    let sig := xs.foldl (fun fl x => fl ||| sigFlag (fpVal f ftz x)) 0
    match xs.filter (fun x => !(fpVal f ftz x).isNan) with
    | [] => (f.canonNan, sig)
    | x :: t => (t.foldl (fun m y => (minMaxBits f max ftz m y).1) (flushBits f ftz x), sig)
  | _ => (0, 0)

/-- Bits [0, VL) of a mask destination replaced where `sel` holds, the rest kept. -/
def maskWrite (old new sel : BitVec 2048) : BitVec 2048 := (old &&& ~~~sel) ||| (new &&& sel)
/-- The bits below VL. -/
def lowMask (vl : Nat) : BitVec 2048 := BitVec.ofNat 2048 (2 ^ vl - 1)
/-- The active bits below VL (R150). -/
def VEntry.activeBits (e : VEntry) (c : Ctx) : BitVec 2048 :=
  if e.mask = 0 then lowMask e.vl else lowMask e.vl &&& c.m.get (maskReg e.mask)
/-- The lowest set bit below n, or n. -/
def firstBit (x : BitVec 2048) (n : Nat) : Nat := ((List.range n).find? (fun i => x.getLsbD i)).getD n

/-- The whole instructions (R151, R163, R166 to R169, R186), performed in one step. -/
def VEntry.wholeStep (e : VEntry) (c : Ctx) : Ctx :=
  let w := ewOf e.es
  match e.op with
  | .red o d a b =>
    c.setElem e.lenLog d.val w 0 ((e.actives c).foldl (fun x i => o.eval w x (c.elem e.lenLog a.val w i))
      (c.elem e.lenLog b.val w 0))
  | .fredsum d a b => e.put c d (fdOf e.fw).width 0 (e.fredsum c a b)
  | .fredmm mx d a b => e.put c d (fdOf e.fw).width 0 (e.fredmm c mx a b)
  | .ext d a => c.setG d (BitVec.ofNat 64 (e.rd c a.val e.y.toNat w))
  | .ins d => if e.y.toNat < e.vl then c.setElem e.lenLog d.val w e.y.toNat (e.x.toNat % 2 ^ w) else c
  | .mlog o d a b =>
    let x := c.m.get a
    let y := c.m.get b
    let z := match o with | .and => x &&& y | .or => x ||| y | .xor => x ^^^ y | .andn => x &&& ~~~y
    c.setM d (maskWrite (c.m.get d) z (lowMask e.vl))
  | .mnot d a => c.setM d (maskWrite (c.m.get d) (~~~(c.m.get a)) (lowMask e.vl))
  | .mset d v => c.setM d (maskWrite (c.m.get d) (if v then BitVec.allOnes 2048 else 0) (lowMask e.vl))
  | .mpopc d a => c.setG d (BitVec.ofNat 64 (popGo (c.m.get a &&& e.activeBits c).toNat e.vl))
  | .mfirst d a =>
    let f := firstBit (c.m.get a &&& e.activeBits c) e.vl
    c.setG d (if f < e.vl then BitVec.ofNat 64 f else BitVec.allOnes 64)
  | .msbf incl d a =>
    let f := firstBit (c.m.get a &&& e.activeBits c) e.vl
    c.setM d (maskWrite (c.m.get d) (lowMask (if incl then f + 1 else f)) (e.activeBits c))
  | .mmovg d => c.setM d (putBits (c.m.get d) 0 64 e.x.toNat)
  | .mmovm d a => c.setG d (BitVec.ofNat 64 (c.m.get a).toNat)
  | _ => c

/-- Elements [e.pos, stop) of an instruction that does not access memory; a whole instruction is performed in one step. -/
def VEntry.arith (e : VEntry) (c : Ctx) (stop : Nat) : Ctx :=
  match e.op with
  | .plhead d a => e.plheadFrom d a ((stop + 31) / 32 - e.pos / 32) (e.pos / 32) c
  | op => if op.whole then e.wholeStep c else e.runFrom (stop - e.pos) e.pos c

/-! Dispatch (R56, R97). -/

/-- The registers of a context as its vector instructions in the unit that access no memory leave them. -/
def State.vAhead (s : State) (c : Nat) : Ctx := (s.vqOf c).foldl (fun x e => e.arith x e.limit) (s.ctx c)
/-- Whether some element of a memory instruction has its home outside the core's die (R206): by the registers as its context's
earlier vector instructions leave them, and by the leaves at dispatch (assumption 98). -/
def State.vFar (s : State) (e : VEntry) : Bool :=
  let c := s.vAhead e.ctx
  let home := s.home (s.whoCtx e.ctx) (if e.op.isStore then .store else .load)
  (e.op.isLoad || e.op.isStore) && (List.range (e.limit - e.first)).any (fun j =>
    e.touches c (e.first + j) && (e.accesses c (e.first + j)).any (fun a => (home a.1).any (fun l => !dieLocal (coreOf e.ctx) l)))

/-- Dispatch of a vector instruction: the checks of R56 in order, the waits of R91 and R105, and the entry into the vector
queue (R97). `w` is its word; `fr` names its format register where it reads one; x and y are its general-register operands. -/
def vDispatch (w : Nat) (op : VOp) (mask : MaskSel) (fr : Option FmtSel) (x y : Word) (s : State) : Out :=
  let c := s.me
  let fw := match fr with | some f => c.getG (fmtReg f) | none => 0
  needVec w s (
    if !(match op.fwRule with | none => true | some r => fwOk r fw && op.fwExtra fw) then raise 0x03 fw s
    else if op.reserved c.vcap.toNat c.es.toNat c.grp.toNat (s.effVstart s.cur) fw then raiseReserved w s
    else if c.vclear then .next (s.hold .waitUnit .vclear)
    else if s.slvPending s.cur (op.groups c.vcap.toNat c.es.toNat c.grp.toNat fw).2 then .next (s.hold .waitReg .vReg)
    else if 4 ≤ (s.core (coreOf s.cur)).vq.length then .next (s.hold .waitUnit .vqFull)
    else
      let e := s.vEntry op mask fw x y
      let far := s.vFar e
      let e := { e with cntL := far && op.isLoad, cntS := far && op.isStore }
      if (e.cntL && c.cntL == 0xFFFF) || (e.cntS && c.cntS == 0xFFFF) then .next (s.hold .waitUnit .cntFull)
      else .next ((s.modCore (coreOf s.cur) (fun k => { k with vq := k.vq ++ [e] })).modMe (fun c =>
        { (c.issued e) with
          cntL := if e.cntL then c.cntL + 1 else c.cntL, cntS := if e.cntS then c.cntS + 1 else c.cntS })))

end Sys2Proof.Machine
end

