-- ==== Sys2Proof/Machine/LoadStore.lean ====
section
/-! DEFINITION. Scalar loads and stores (R137 to R141), the store buffer and what its entries do when they are performed
(R139, R280, R281), and the steps that perform, acknowledge and deliver them. -/

namespace Sys2Proof.Machine

/-! The store buffer. -/

/-- The maker of a buffered access, as the dirty log needs it (R274). -/
def SbEntry.who (e : SbEntry) (c : Nat) : Who := ⟨c, true, true, 0, e.asid, e.dlog, none⟩

/-- The pieces of an access that caches may hold (R265). -/
def cachedPieces (ps : List Piece) : List Piece :=
  ps.filter (fun p => !p.uncached && (match p.loc with | .hbm _ => true | _ => false))

/-- CINV on cached pieces: every copy is removed and each byte takes its HBM value, poison included (R267, R280). -/
def State.invalidate (s : State) (c : Nat) (ps : List Piece) : State :=
  let ps := cachedPieces ps
  let locs := pieceLocs ps
  let olds := locs.filterMap (fun l => match l with
    | .hbm pa => (SMap.get none s.hbmOld pa).map (fun b => (l, b))
    | _ => none)
  let t := (s.recallAll false (hbmLines ps)).putBytes (olds.map (fun o => (o.1, o.2.1)))
  let t := olds.foldl (fun u o => u.setPoison o.1 o.2.2) t
  ((t.dropOld locs).uncacheAll (hbmLines ps)).loseResv (some c) (locs.map (fun l => (l, 0)))

/-- Dirty sectors of a line become clean where they are (R280, CCLEAN). -/
def L1Line.clean (x : L1Line) (span : BitVec 8) : L1Line := { x with m := x.m &&& ~~~span, e := x.e ||| (x.m &&& span) }
/-- Every copy of the lines of a list made clean. -/
def State.cleanAll (s : State) : List (Nat × BitVec 8) → State
  | [] => s
  | (l, m) :: t => State.cleanAll (s.others l 1024 (·.clean m) s.coreNums) t

/-- Whether a place can no longer be reached that could be when it was translated: in a region that is being reset or held in reset
(R391), beyond a scratchpad that has become smaller (R261), or in fabric space behind the port of the requester's region r, which has
failed (R398). -/
def State.closed (s : State) (r : Nat) : Loc → Bool
  | .hbm pa => (s.region (regionOfPa pa)).st == .resetting
  | .spad k o => decide (s.spadSize k ≤ o)
  | .fabric _ => (s.region r).portDown

/-- The first piece of an access from region r that can no longer be reached. -/
def State.closedPiece (s : State) (r : Nat) (ps : List Piece) : Option Piece := ps.find? (fun p => s.closed r (p.loc.plus (p.len - 1)))
/-- A write that has passed its checks and reaches a place that has been closed since: it is dropped whole, and counted as stale at a
region held in reset (R375, R389, R391; assumption 77); beyond a scratchpad's new end it writes nothing (R261; assumption 69). -/
def State.dropWrite (s : State) : Loc → State
  | .hbm pa => s.countStale (regionOfPa pa) 1
  | _ => s

/-- What a store-buffer entry of context c does when it is performed. An entry whose place has been closed since it retired is dropped
whole, and counted as stale at a region held in reset; no rule says so (assumption 69). -/
def State.performEntry (s : State) (c : Nat) (e : SbEntry) : State :=
  match s.closedPiece (regionOf c) e.pieces with
  | some p => s.dropWrite p.loc
  | none =>
  let write := fun (data : List Byte) =>
    (s.dlogPieces (e.who c) e.pieces).coreWrite c e.pieces data
  match e.kind with
  | .write data => write data
  | .zero => write (List.replicate (pieceLocs e.pieces).length 0)
  | .inv => (s.dlogPieces (e.who c) (cachedPieces e.pieces)).invalidate c e.pieces
  | .flush =>
    let lines := hbmLines (cachedPieces e.pieces)
    ((s.recallAll false lines).dropOld (pieceLocs (cachedPieces e.pieces))).uncacheAll lines
  | .clean => (s.dropOld (pieceLocs (cachedPieces e.pieces))).cleanAll (hbmLines (cachedPieces e.pieces))

/-- Entries performed in order. -/
def State.performAll (s : State) (c : Nat) : List SbEntry → State
  | [] => s
  | e :: t => State.performAll (s.performEntry c e) c t
/-- Memory as context c sees it: with its own buffered stores (R92, R139). -/
def State.view (s : State) (c : Nat) : State := s.performAll c (s.ctx c).sb

/-- Whether a reservation's home holds back a write of an agent to some of these places (R305). -/
def State.heldBack (s : State) (who : Option Nat) (ls : List Loc) : Bool :=
  s.resv.any (fun e => e.2.hold && decide (some e.2.ctx ≠ who ∧ s.cycles < e.2.since + 128) &&
    ls.any (fun l => match l with | .hbm pa => pa / 16 == e.2.pa / 16 | _ => false))

/-- Every engine of the module that has left its reset state. -/
def State.engineUnits (s : State) : List Engine :=
  s.cores.map (·.2.stream) ++ s.quads.flatMap (fun q => [q.2.decomp, q.2.weave]) ++
  s.regions.flatMap (fun r => [r.2.coll, r.2.tend, r.2.lnch])
/-- Whether an engine owns the line of some of these places for a command whose writes are still to come (R297, R298). -/
def State.engineOwns (s : State) (ls : List Loc) : Bool :=
  s.engineUnits.any (fun g => g.running.any (fun r => !r.done && ls.any (fun l => match l with
    | .hbm pa => r.owns.any (fun o => o.1 == lineOf pa && o.2.getLsbD (pa % 128 / 16))
    | _ => false)))
/-- Whether two accesses are to one uncached page, where program order holds (R265). -/
def Piece.sameUncached (p q : Piece) : Bool :=
  let out := fun (x : Piece) => x.uncached && (match x.loc with | .spad _ _ => false | _ => true)
  out p && out q && p.log == q.log && decide (p.va / 2 ^ p.log = q.va / 2 ^ q.log)
/-- Whether a tile instruction in the queue has still to perform accesses to die-local memory (R226, R286). -/
def TEntry.performs (e : TEntry) (k : Nat) : Bool := !e.started && e.pieces.any (fun p => dieLocal k p.loc)
/-- Whether it loads from memory. -/
def TEntry.isLoad (e : TEntry) : Bool := match e.op with | .load .. => true | .rstr _ => true | _ => false
/-- Whether it has still to perform accesses to an uncached page of some pieces (R265). -/
def TEntry.uncachedTo (e : TEntry) (ps : List Piece) : Bool := !e.started && e.pieces.any (fun p => ps.any p.sameUncached)
/-- Whether an access of context c comes after a tile instruction that is still to be performed: to die-local memory a load after
tile loads, any other access also after tile stores (R286), and to an uncached page any access after any other (R265). -/
def State.tileFirst (s : State) (c : Nat) (load : Bool) (ps : List Piece) : Bool :=
  let k := coreOf c
  (s.core k).tq.any (fun e => e.ctx == c &&
    ((ps.any (fun p => dieLocal k p.loc) && e.performs k && (!load || e.isLoad)) || e.uncachedTo ps))
/-- Whether context c has tile accesses to die-local memory still to be performed, which an atomic that fences comes after (R286). -/
def State.tileOpen (s : State) (c : Nat) : Bool :=
  let k := coreOf c
  (s.core k).tq.any (fun e => e.ctx == c && e.performs k)

/-- Whether places lie in the footprint of an incomplete tile memory instruction of context c (R226). -/
def State.tileOverlaps (s : State) (c : Nat) (ls : List Loc) : Bool :=
  (s.core (coreOf c)).tq.any (fun e => e.ctx == c && e.pieces.any (fun p => ls.any (fun l =>
    match p.loc, l with
    | .hbm x, .hbm y => decide (x ≤ y ∧ y < x + p.len)
    | .spad j x, .spad k y => decide (j = k ∧ x ≤ y ∧ y < x + p.len)
    | .fabric x, .fabric y => decide (x ≤ y ∧ y < x + p.len)
    | _, _ => false)))

/-- A store-buffer entry enters: the bound of counter S (R362), the full buffer (R139), or the entry and the count. -/
def enterStore (kind : SbKind) (ps : List Piece) (s : State) : Out :=
  let x := s.me
  let far := anyFar (coreOf s.cur) ps
  if far ∧ x.cntS = 0xFFFF then .next (s.hold .waitUnit .cntFull)
  else if 8 ≤ x.sb.length then .next (s.hold .waitUnit .sbFull)
  else
    let e : SbEntry := ⟨kind, ps, far, x.asid.toNat, x.dlog && x.ptOn, s.issueSeq⟩
    .next ((s.modMe (fun c => { c with sb := c.sb ++ [e], cntS := if far then c.cntS + 1 else c.cntS })).retire)

/-! Loads and stores. -/

/-- The effective address (R137). -/
def ea (s : State) (a : GReg) (imm : BitVec 16) : Word := s.g a + imm.signExtend 64

/-- The value of n bytes in a register (R137). -/
def extend (n : Nat) (sext : Bool) (x : Nat) : Word :=
  if sext then (BitVec.ofNat (8 * n) x).signExtend 64 else BitVec.ofNat 64 x

/-- Reading fabric space draws a free value. -/
def State.afterRead (s : State) : Loc → State
  | .fabric _ => { s with fresh := s.fresh + 1 }
  | _ => s

/-- A load's data check and delivery (R137, R140). -/
def deliverLoad (d : GReg) (n : Nat) (sext : Bool) (va : Nat) (loc : Loc) (s : State) : Out :=
  let v := s.view s.cur
  match v.poisonAt (some (coreOf s.cur)) loc n with
  | some i => raise 0x09 (BitVec.ofNat 64 (va + i)) s
  | none => .next ((s.afterRead loc).finish d (extend n sext (leNat (v.bytesAt loc n))))

/-- Whether a buffered entry covers a place. -/
def SbEntry.hits (e : SbEntry) (l : Loc) : Bool := (pieceLocs e.pieces).contains l
/-- Whether it writes the place with data of its own, which a load of its context takes from the buffer (R139). -/
def SbEntry.gives (e : SbEntry) (l : Loc) : Bool := (match e.kind with | .write _ | .zero => true | _ => false) && e.hits l
/-- Whether it takes away what older entries have written to the place: a CINV of a cached page, behind which the place holds its HBM value
(R280, R281). -/
def SbEntry.takes (e : SbEntry) (l : Loc) : Bool := (match e.kind with | .inv => true | _ => false) && (pieceLocs (cachedPieces e.pieces)).contains l
/-- The youngest buffered entry of a context that gives a place data or takes it away. -/
def Ctx.lastFor (c : Ctx) (l : Loc) : Option SbEntry := c.sb.reverse.find? (fun e => e.gives l || e.takes l)
/-- Whether a load of a context takes a place from its buffered stores (R139, R140). -/
def Ctx.forwards (c : Ctx) (l : Loc) : Bool := (c.lastFor l).any (·.gives l)
/-- Whether a buffered CINV is still to remove the copy of a place that the load would find. -/
def Ctx.voids (c : Ctx) (l : Loc) : Bool := (c.lastFor l).any (fun e => !e.gives l)
/-- Whether the scalar load of n bytes finds its data in the core: its own buffered stores, the L1 unless an engine owns the line
(R298) or a buffered CINV is to take the copy away, or a scratchpad. -/
def State.loadHits (s : State) (c : Nat) (loc : Loc) (n : Nat) : Bool :=
  match loc with
  | .hbm pa =>
    (covers ((s.core (coreOf c)).line (lineOf pa)).all (spanOf (pa % 128) n) && !s.engineOwns [loc] &&
      (List.range n).all (fun i => !(s.ctx c).voids (loc.plus i))) ||
    (List.range n).all (fun i => (s.ctx c).forwards (loc.plus i))
  | .spad _ _ => true
  | .fabric _ => false
/-- Whether the context has a buffered access to the uncached page of a piece, which a later one follows in program order (R265, R287). -/
def Ctx.uncachedTo (c : Ctx) (p : Piece) : Bool := c.sb.any (fun e => e.pieces.any p.sameUncached)

/-- A scalar load of n bytes (R137 to R140). -/
def loadOp (n : Nat) (sext : Bool) (d a : GReg) (imm : BitVec 16) (s : State) : Out :=
  let va := (ea s a imm).toNat
  if va % n ≠ 0 then raise 0x05 (ea s a imm) s
  else match s.transSpan (s.whoCtx s.cur) .load va n with
    | (s, .error e) => raise e.1 (BitVec.ofNat 64 va) s
    | (s, .ok []) => .next s.retire
    | (s, .ok (p :: _)) =>
      let miss := fun (granted : Bool) =>
        .next (s.modMe (fun c =>
          { c with st := .waitMiss, wait := .none, young := false, miss := .load d n sext va p.loc p.ent granted }))
      if s.tileOverlaps s.cur (pieceLocs [p]) || s.tileFirst s.cur true [p] then .next (s.hold .waitUnit .tileOverlap)
      else match p.loc with
      | .spad _ _ => deliverLoad d n sext va p.loc s
      | _ =>
        if p.uncached then
          if s.me.uncachedTo p then .next (s.hold .waitUnit .drained) else miss true
        else if s.loadHits s.cur p.loc n then deliverLoad d n sext va p.loc s
        else (miss false).andThen (fun t => .next (t.count t.cur 0x06 1))

/-- A scalar store of n bytes (R137, R139). -/
def storeOp (n : Nat) (c a : GReg) (imm : BitVec 16) (s : State) : Out :=
  let va := (ea s a imm).toNat
  if va % n ≠ 0 then raise 0x05 (ea s a imm) s
  else match s.transSpan (s.whoCtx s.cur) .store va n with
    | (s, .error e) => raise e.1 (BitVec.ofNat 64 va) s
    | (s, .ok ps) =>
      if s.tileOverlaps s.cur (pieceLocs ps) then .next (s.hold .waitUnit .tileOverlap)
      else enterStore (.write (leBytes n (s.g c).toNat)) ps s

def execLb (d a : GReg) (imm : BitVec 16) (s : State) : Out := loadOp 1 true d a imm s
def execLh (d a : GReg) (imm : BitVec 16) (s : State) : Out := loadOp 2 true d a imm s
def execLw (d a : GReg) (imm : BitVec 16) (s : State) : Out := loadOp 4 true d a imm s
def execLd (d a : GReg) (imm : BitVec 16) (s : State) : Out := loadOp 8 true d a imm s
def execLbu (d a : GReg) (imm : BitVec 16) (s : State) : Out := loadOp 1 false d a imm s
def execLhu (d a : GReg) (imm : BitVec 16) (s : State) : Out := loadOp 2 false d a imm s
def execLwu (d a : GReg) (imm : BitVec 16) (s : State) : Out := loadOp 4 false d a imm s
def execSb (c a : GReg) (imm : BitVec 16) (s : State) : Out := storeOp 1 c a imm s
def execSh (c a : GReg) (imm : BitVec 16) (s : State) : Out := storeOp 2 c a imm s
def execSw (c a : GReg) (imm : BitVec 16) (s : State) : Out := storeOp 4 c a imm s
def execSd (c a : GReg) (imm : BitVec 16) (s : State) : Out := storeOp 8 c a imm s

/-! Events of the store buffer and of missed loads. -/

/-- Whether the core owns every sector that a buffered store writes, where it writes data through the L1 (R263). -/
def State.owned (s : State) (c : Nat) (e : SbEntry) : Bool :=
  match e.kind with
  | .write _ | .zero => (cachedLines e.pieces).all (fun l =>
      let x := (s.core (coreOf c)).line l.1
      covers (x.m ||| x.e) l.2)
  | _ => true

/-- Whether a buffered access of a context comes after a tile instruction that is still to be performed (R265, R286). -/
def State.tileEarlier (s : State) (c : Nat) (e : SbEntry) : Bool :=
  let k := coreOf c
  (s.core k).tq.any (fun t => t.ctx == c && decide (t.seq < e.seq) &&
    ((e.pieces.any (fun p => dieLocal k p.loc) && t.performs k) || t.uncachedTo e.pieces))
/-- The part of an entry that its next step performs, and what is left of it: a CZERO goes line by line, each with its own request
(R346); every other entry is performed whole. -/
def SbEntry.split (e : SbEntry) : SbEntry × Option SbEntry :=
  let cut := fun (ps : List Piece) => match ps with
    | [] => ([], [])
    | p :: t =>
      match p.loc with
      | .hbm pa =>
        let n := if p.uncached then p.len else min p.len (128 - pa % 128)
        ([{ p with len := n }], if n < p.len then { p with va := p.va + n, loc := p.loc.plus n, len := p.len - n } :: t else t)
      | _ => ([p], t)
  match e.kind with
  | .zero =>
    let r := cut e.pieces
    ({ e with pieces := r.1 }, if r.2.isEmpty then none else some { e with pieces := r.2 })
  | _ => (e, none)
/-- STORE_PERFORM (R139, R281): the oldest entry of context c, or the next line of a CZERO, is performed, once no reservation, engine
or earlier tile instruction holds it back (R286, R298, R305); an entry leaves the buffer when it is wholly performed. -/
def execStorePerform (c : CtxId) (s : State) : Out :=
  match (s.ctx c.val).sb with
  | [] => notEnabled "STORE_PERFORM"
  | e0 :: rest =>
    let e := e0.split.1
    if !s.owned c.val e || s.heldBack (some c.val) (s.dlogLocs (e.who c.val) e.pieces ++ pieceLocs e.pieces) ||
        s.engineOwns (pieceLocs e.pieces) || s.tileEarlier c.val e then notEnabled "STORE_PERFORM"
    else
      let t := s.performEntry c.val e
      .next (match e0.split.2 with
        | some later => t.modCtx c.val (fun x => { x with sb := later :: rest })
        | none => (t.count c.val 0x0C 1).modCtx c.val (fun x =>
          { x with sb := rest, acksDue := if e.faraway then x.acksDue + 1 else x.acksDue }))

/-- STORE_ACK (R362): the acknowledgement of a store that is not die-local lowers counter S. -/
def execStoreAck (c : CtxId) (s : State) : Out :=
  if (s.ctx c.val).acksDue = 0 then notEnabled "STORE_ACK"
  else .next (s.modCtx c.val (fun x => { x with acksDue := x.acksDue - 1, cntS := x.cntS - 1 }))

/-- LOAD_MISS_FILL (R140): the data of a missed load arrives, unless it is poisoned (R137), lies in a place that has been closed
meanwhile (R391, R398), or an engine owns its line and has still to write it (R298). -/
def execLoadMissFill (c : CtxId) (s : State) : Out :=
  match (s.ctx c.val).miss with
  | .load d n sext va loc _ true =>
    if s.engineOwns [loc] then notEnabled "LOAD_MISS_FILL"
    else if s.closed (regionOf c.val) loc then onCtx c.val (raise 0x08 (BitVec.ofNat 64 va)) s
    else onCtx c.val (deliverLoad d n sext va loc) s
  | _ => notEnabled "LOAD_MISS_FILL"

end Sys2Proof.Machine
end

