-- ==== Sys2Proof/Machine/VectorMem.lean ====
section
/-! DEFINITION. Vector memory instructions (R194 to R210): addresses, pin windows, faults and resumption, and the steps of the
vector unit (VECTOR_EXECUTE, VLOAD_DATA_RETURN) with the stop of R112 and R203. -/

namespace Sys2Proof.Machine

/-- The address of a misaligned element (R199, R208). -/
def VEntry.misaligned (e : VEntry) (c : Ctx) (i : Nat) : Option Nat :=
  match e.op with
  | .mem true (.planar _ _ _) _ => if e.x.toNat % 32 ≠ 0 ∨ e.y.toNat % 32 ≠ 0 then some e.x.toNat else none
  | _ => ((e.accesses c i).find? (fun a => a.1 % a.2 != 0)).map (·.1)

/-- The lowest byte of an element's accesses that lies in the page of a failing address (R201, R249): the page of the leaf that lacks
permission or whose frame fails, or 4 KiB where the walk finds no leaf. -/
def State.lowestIn (s : State) (w : Who) (l : List (Nat × Nat)) (va : Nat) : Nat :=
  let size := match (s.tlbOf w).find? (·.hits w.asid va) with
    | some e => if w.ptOn && !inWindow va then 2 ^ e.log else 4096
    | none => 4096
  let page := va / size
  l.foldl (fun m a =>
    let b := max a.1 (page * size)
    if b < a.1 + a.2 ∧ b / size = page then min m b else m) va

/-- The pin window from element i on (R201): the elements up to the first that would raise the distinct pages above 32, and
the first that fails. -/
def State.windowGo (e : VEntry) (w : Who) (k : Acc) :
    Nat → Nat → List (Nat × Nat) → List (Nat × List Piece) → State → State × VWin
  | 0, i, _, acc, s => (s, ⟨i, acc.reverse, none⟩)
  | n + 1, i, pages, acc, s =>
    let c := s.ctx e.ctx
    if !e.touches c i then State.windowGo e w k n (i + 1) pages acc s
    else match e.misaligned c i with
      | some a => (s, ⟨i, acc.reverse, some (i, 0x05, a)⟩)
      | none =>
        match State.transAll w k (e.accesses c i) s with
        | (s, .error x) => (s, ⟨i, acc.reverse, some (i, x.1, s.lowestIn w (e.accesses c i) x.2)⟩)
        | (s, .ok ps) =>
          let pages' := (ps.filterMap Piece.page).foldl (fun l p => if l.contains p then l else p :: l) pages
          if 32 < pages'.length ∧ pages ≠ [] then (s, ⟨i, acc.reverse, none⟩)
          else State.windowGo e w k n (i + 1) pages' ((i, ps) :: acc) s

/-- The element boundary at or below an element: the block of 32 for VSTPL and VPLHEAD (R190, R208). -/
def VEntry.boundary (e : VEntry) (i : Nat) : Nat := if e.op.block then i / 32 * 32 else i

/-- The elements of a window that precede a boundary. -/
def VWin.below (v : VWin) (f : Nat) : List (Nat × List Piece) := v.elems.filter (fun x => decide (x.1 < f))

/-- The next pin window of a memory instruction, with the elements below its failing element only. Where a planar store lowers the
failing element to its block (R208), TVAL stays the address of the element that fails (assumption 67). -/
def State.pinWindow (s : State) (e : VEntry) : State × VWin :=
  let k : Acc := if e.op.isStore then .store else .load
  let r := State.windowGo e (s.whoCtx e.ctx) k (e.limit - e.pos) e.pos [] [] s
  match r.2.fault with
  | none => r
  | some f => (r.1, { r.2 with elems := r.2.below (e.boundary f.1), fault := some (e.boundary f.1, f.2.1, f.2.2) })

/-- The first performed element of a window that reads poisoned data, with the address (R201). -/
def VWin.poison (v : VWin) (k : Nat) (s : State) : Option (Nat × Nat × Nat) :=
  v.elems.findSome? (fun x => (s.piecePoison (some k) x.2).map (fun a => (x.1, 0x09, a)))

/-- A load's element written from its bytes (R196, R197, R208, R210). -/
def VEntry.loadElem (e : VEntry) (c : Ctx) (i : Nat) (data : List Byte) : Ctx :=
  let w := ewOf e.es
  match e.op with
  | .mem _ md d =>
    match md with
    | .segment f mw => (List.range (f.val + 1)).foldl (fun c j =>
        c.setElem e.lenLog (d.val + j * 2 ^ e.grp) w i (leNat ((data.drop (j * 2 ^ mw.val)).take (2 ^ mw.val)))) c
    | .planar _ k rnd =>
      let n := data.length
      let q := intOf (8 * n) true (leNat data.reverse)
      let f : Fmt := .pb (k.val + 1)
      c.setElem e.lenLog d.val f.width i (wrapBits f.width (if rnd then leadPlanes n (k.val + 1) true q else q))
    | .whole _ => c.setElem e.lenLog d.val 64 i (leNat data)
    | _ => c.setElem e.lenLog d.val w i (leNat data)
  | _ => c

/-- The bytes that a store's element writes, in the order of its accesses (R197, R208, R210). -/
def VEntry.storeBytes (e : VEntry) (c : Ctx) (i : Nat) : List Byte :=
  let w := ewOf e.es
  match e.op with
  | .mem _ md d =>
    match md with
    | .segment f mw => (List.range (f.val + 1)).flatMap (fun j =>
        leBytes (2 ^ mw.val) (c.elem e.lenLog (d.val + j * 2 ^ e.grp) w i))
    | .planar _ k _ =>
      (leBytes (k.val + 1) (c.elem e.lenLog d.val (Fmt.width (.pb (k.val + 1))) i)).reverse
    | .whole _ => leBytes 8 (c.elem e.lenLog d.val 64 i)
    | _ => leBytes (2 ^ e.es) (c.elem e.lenLog d.val w i)
  | _ => []

/-- The elements of a load performed. -/
def State.loadElems (s : State) (e : VEntry) (l : List (Nat × List Piece)) : State :=
  let ps := l.flatMap (·.2)
  let s := s.coreReadOf e.ctx (vectorLines (cachedLines ps)) ps
  (s.modCtx e.ctx (fun c => l.foldl (fun c x => e.loadElem c x.1 (s.pieceBytes x.2)) c)).count e.ctx 0x09 l.length

/-- The elements of a store with the places among their bytes, in the order of the writes: by index (R205), and of a planar
store block by block from its last plane up to plane 0 (R208, R306); that the blocks follow one another in ascending order, which decides
where planes of different blocks overlap, is the model's choice (assumption 94). -/
def VEntry.storeOrder (e : VEntry) (l : List (Nat × List Piece)) : List ((Nat × List Piece) × Option Nat) :=
  match e.op with
  | .mem true (.planar _ k _) _ =>
    (l.map (·.1 / 32)).eraseDups.flatMap (fun b => (List.range (k.val + 1)).reverse.flatMap (fun j =>
      (l.filter (·.1 / 32 == b)).map (fun x => (x, some j))))
  | _ => l.map (fun x => (x, none))
/-- All of a list, or its entry at one place. -/
def pick {α : Type} (l : List α) : Option Nat → List α
  | none => l
  | some j => (l[j]?).toList
/-- The elements of a store performed. -/
def State.storeElems (s : State) (e : VEntry) (l : List (Nat × List Piece)) : State :=
  let order := e.storeOrder l
  let ps := order.flatMap (fun o => pick o.1.2 o.2)
  let data := order.flatMap (fun o => pick (e.storeBytes (s.ctx e.ctx) o.1.1) o.2)
  ((s.dlogPieces (s.whoCtx e.ctx) ps).coreWriteOf e.ctx (vectorLines (cachedLines ps)) ps data).count e.ctx 0x09 l.length

/-- The oldest entry of a core's vector queue replaced, or removed. -/
def State.setVq (s : State) (k : Nat) (e : Option VEntry) : State :=
  s.modCore k (fun c => { c with vq := (match e with | some x => [x] | none => []) ++ c.vq.drop 1 })

/-- An instruction that leaves the vector unit before element `stop` stops counting: L at once, and S with the acknowledgement of the
elements that it has performed, or at once where it has performed none (R206, R362). -/
def Ctx.uncount (c : Ctx) (e : VEntry) (stop : Nat) : Ctx :=
  let some := (List.range (stop - e.first)).any (fun j => e.touches c (e.first + j))
  { c with
    cntL := if e.cntL then c.cntL - 1 else c.cntL
    cntS := if e.cntS && !some then c.cntS - 1 else c.cntS
    acksDue := if e.cntS && some then c.acksDue + 1 else c.acksDue }

/-- The oldest entry completes: VSTART ← 0 (R148), and it is counted (R242). -/
def State.vComplete (s : State) (e : VEntry) : State :=
  (s.setVq (coreOf e.ctx) none).modCtx e.ctx (fun c =>
    { (c.uncount e e.limit) with
      vstart := 0, iret := c.iret + 1, trapRun := 0
      vffe := match e.op with
        | .mem _ .faultFirst _ => BitVec.ofNat 13 e.vl
        | _ => c.vffe })

/-- The oldest entry traps at element f (R201). -/
def State.vTrap (s : State) (e : VEntry) (f : Nat × Nat × Nat) : State :=
  ((s.setVq (coreOf e.ctx) none).modCtx e.ctx (fun c => { (c.uncount e f.1) with vstart := BitVec.ofNat 12 f.1 })).trap e.ctx f.2.1
    e.pc (BitVec.ofNat 64 f.2.2)

/-- The lowest active element below VL. -/
def VEntry.lowest (e : VEntry) (c : Ctx) : Option Nat := (List.range e.vl).find? (c.active e.mask)

/-- A failing element: a trap, or for a fault-first load at a later element than the lowest active one the truncation of
R207. -/
def State.vFault (s : State) (e : VEntry) (f : Nat × Nat × Nat) : State :=
  match e.op with
  | .mem _ .faultFirst _ =>
    if e.lowest (s.ctx e.ctx) = some f.1 then s.vTrap e f
    else (s.setVq (coreOf e.ctx) none).modCtx e.ctx (fun c =>
      { (c.uncount e f.1) with
        vstart := 0, iret := c.iret + 1, trapRun := 0, vl := BitVec.ofNat 12 f.1, vffe := BitVec.ofNat 13 (4096 + f.1) })
  | _ => s.vTrap e f

/-- After a window: the fault, completion, or the next window. -/
def State.vNext (s : State) (e : VEntry) (upto : Nat) (fault : Option (Nat × Nat × Nat)) : State :=
  match fault with
  | some f => s.vFault e f
  | none => if e.limit ≤ upto then s.vComplete e else s.setVq (coreOf e.ctx) (some { e with pos := upto, win := none })

/-- The pages of a window pinned or unpinned in the core's L2 TLB (R202, R273). -/
def State.pinWin (s : State) (e : VEntry) (on : Bool) (v : VWin) : State :=
  s.pinPieces (s.whoCtx e.ctx) on (v.elems.flatMap (·.2))

/-- Whether the accesses of a vector memory instruction have to wait: for a tile footprint or for earlier tile accesses (R226, R286),
for a line that an engine owns (R298), or, of a store, for a reservation's hold (R305). -/
def State.vHeld (s : State) (e : VEntry) (l : List (Nat × List Piece)) : Bool :=
  let ps := l.flatMap (·.2)
  let locs := pieceLocs ps
  s.tileOverlaps e.ctx locs || s.tileFirst e.ctx e.op.isLoad ps || s.engineOwns locs ||
  (e.op.isStore && s.heldBack (some e.ctx) (s.dlogLocs (s.whoCtx e.ctx) ps ++ locs))

/-- Elements from `pos` below `upto` that a vector instruction other than a memory instruction performs (R377). -/
def VEntry.performed (e : VEntry) (c : Ctx) (upto : Nat) : Nat :=
  ((List.range (upto - e.pos)).filter (fun j => e.performs c (e.pos + j))).length

/-- VECTOR_EXECUTE (R97, R201): the oldest instruction of a core's queue performs its elements, or a memory instruction its
next window up to the return of a load's data. Buffered stores of its context are performed first (R205). Where an element that had no
home at dispatch turns out to be far, the instruction counts from here on, and waits here at the bound of R362 (assumption 98). -/
def execVectorExecute (k : CoreId) (s : State) : Out :=
  match (s.core k.val).vq with
  | [] => notEnabled "VECTOR_EXECUTE"
  | e :: _ =>
    if !(e.op.isLoad || e.op.isStore) then
      .next (((s.modCtx e.ctx (fun c => e.arith c e.limit)).count e.ctx 0x09 (e.performed (s.ctx e.ctx) e.limit)).vComplete e)
    else if !(s.ctx e.ctx).sb.isEmpty || e.win.isSome then notEnabled "VECTOR_EXECUTE"
    else
      let r := s.pinWindow e
      let far := anyFar k.val (r.2.elems.flatMap (·.2))
      if s.vHeld e r.2.elems then notEnabled "VECTOR_EXECUTE"
      else if e.op.isLoad then
        if r.2.elems.isEmpty then .next (r.1.vNext e r.2.upto r.2.fault)
        else
          let first := far && !e.cntL
          if first && (s.ctx e.ctx).cntL == 0xFFFF then notEnabled "VECTOR_EXECUTE" else .next (((r.1.pinWin e true r.2).modCtx e.ctx (fun c => { c with cntL := if first then c.cntL + 1 else c.cntL })).setVq k.val
            (some { e with win := some r.2, cntL := e.cntL || far }))
      else
        let first := far && !e.cntS
        if first && (s.ctx e.ctx).cntS == 0xFFFF then notEnabled "VECTOR_EXECUTE" else
        let s := (r.1.storeElems e r.2.elems).modCtx e.ctx (fun c => { c with cntS := if first then c.cntS + 1 else c.cntS })
        .next (s.vNext { e with cntS := e.cntS || far } r.2.upto r.2.fault)

/-- The first performed element of a window that reads a place which has been closed meanwhile, with the address (R391, R398). -/
def VWin.shut (v : VWin) (k : Nat) (s : State) : Option (Nat × Nat × Nat) :=
  v.elems.findSome? (fun x => (x.2.find? (fun p => s.closed (regionOfCore k) p.loc)).map (fun p => (x.1, 0x08, p.va)))
/-- A window's elements below the first that reads poisoned data or a closed region, and what ends it (R201, R391). -/
def State.checked (s : State) (k : Nat) (v : VWin) : List (Nat × List Piece) × Option (Nat × Nat × Nat) :=
  let stop := match v.shut k s, v.poison k s with
    | some a, some b => if b.1 < a.1 then some b else some a
    | a, b => a.or b
  match stop with
  | some g => (v.below g.1, some g)
  | none => (v.elems, v.fault)

/-- VLOAD_DATA_RETURN (R201): the data of the oldest load's window returns and is checked; the window's elements are performed
and its pages unpinned. Lines that an engine has come to own are waited for (R298). -/
def execVloadDataReturn (k : CoreId) (s : State) : Out :=
  match (s.core k.val).vq with
  | [] => notEnabled "VLOAD_DATA_RETURN"
  | e :: _ =>
    match e.win with
    | none => notEnabled "VLOAD_DATA_RETURN"
    | some v =>
      let r := s.checked k.val v
      if s.engineOwns (pieceLocs (r.1.flatMap (·.2))) then notEnabled "VLOAD_DATA_RETURN" else .next (((s.loadElems e r.1).pinWin e false v).vNext e v.upto r.2)

/-! The stop of an asynchronous interrupt (R112, R113, R203). -/

/-- The stop of context c's youngest vector instruction at an element chosen among the boundaries that R112 and R113 admit:
the state with the elements below it performed, VSTART set and the entry gone. None where the instruction must go on first:
another instruction of the context comes before it, it is whole, or a resumed element is not performed yet. -/
def State.vStop (s : State) (e : VEntry) (stop : Nat) : Option State :=
  let k := coreOf e.ctx
  let pos := e.boundary e.pos
  let drop := fun (s : State) => s.modCore k (fun c => { c with vq := c.vq.filter (fun x => x != e) })
  let leave := fun (s : State) (e : VEntry) (v : Nat) =>
    (drop s).modCtx e.ctx (fun c => { (c.uncount e v) with vstart := BitVec.ofNat 12 v })
  let lo := if e.first ≠ 0 ∧ e.pos = e.first ∧ e.pos < e.limit then pos + (if e.op.block then 32 else 1) else pos
  let still := if lo = pos then some (leave s e pos) else none
  let memory := e.op.isLoad || e.op.isStore
  if e.op.whole then none
  else if (s.core k).vq.head? ≠ some e ∨ (memory ∧ e.win.isNone ∧ ¬ (s.ctx e.ctx).sb.isEmpty) then still
  else if !memory then
    let v := max lo (e.boundary (min stop e.limit))
    if e.limit < lo then none
    else some (leave ((s.modCtx e.ctx (fun c => e.arith c v)).count e.ctx 0x09 (e.performed (s.ctx e.ctx) v)) e v)
  else
    let r := match e.win with
      | some v => (s, v)
      | none => s.pinWindow e
    let ch := if e.op.isLoad then r.1.checked k r.2 else (r.2.elems, r.2.fault)
    let top := match ch.2 with
      | some f => f.1
      | none => r.2.upto
    let v := max lo (e.boundary (min stop top))
    let l := ch.1.filter (fun x => decide (x.1 < v))
    let first := e.op.isStore && anyFar k (l.flatMap (·.2)) && !e.cntS
    if top < lo then none
    else if (first && (s.ctx e.ctx).cntS == 0xFFFF) || (if e.op.isStore || e.win.isNone then s.vHeld e l else s.engineOwns (pieceLocs (l.flatMap (·.2)))) then
      if lo = pos then some (leave (if e.win.isSome then s.pinWin e false r.2 else s) e pos) else none
    else if e.op.isLoad then
      some (leave ((r.1.loadElems e l).pinWin e false (if e.win.isSome then r.2 else { r.2 with elems := [] })) e v)
    else
      let t := (drop (r.1.storeElems e l)).modCtx e.ctx (fun c => { c with cntS := if first then c.cntS + 1 else c.cntS })
      some (t.modCtx e.ctx (fun c => { (c.uncount { e with cntS := e.cntS || first } v) with vstart := BitVec.ofNat 12 v }))

end Sys2Proof.Machine
end

