-- ==== Sys2Proof/Machine/Scalar.lean ====
section
/-! DEFINITION. Scalar integer and floating-point instructions (R121 to R132): one meaning per instruction over the operand
forms of each major. -/

namespace Sys2Proof.Machine

/-! Integer arithmetic (R121, R122). -/

/-- An ALU instruction: Ge(d) ← f(Ge(a), Ge(b)). -/
def alu (f : Word → Word → Word) (d a b : GReg) (s : State) : Out := .next (s.finish d (f (s.g a) (s.g b)))
/-- An ALU instruction of one operand. -/
def alu1 (f : Word → Word) (d a : GReg) (s : State) : Out := .next (s.finish d (f (s.g a)))
/-- The shift amount y[5:0]. -/
def sh (y : Word) : Nat := y.toNat % 64

def execAdd (d a b : GReg) (s : State) : Out := alu (fun x y => x + y) d a b s
def execSub (d a b : GReg) (s : State) : Out := alu (fun x y => x - y) d a b s
def execAnd (d a b : GReg) (s : State) : Out := alu (fun x y => x &&& y) d a b s
def execOr (d a b : GReg) (s : State) : Out := alu (fun x y => x ||| y) d a b s
def execXor (d a b : GReg) (s : State) : Out := alu (fun x y => x ^^^ y) d a b s
def execAndn (d a b : GReg) (s : State) : Out := alu (fun x y => x &&& ~~~y) d a b s
def execSll (d a b : GReg) (s : State) : Out := alu (fun x y => x <<< sh y) d a b s
def execSrl (d a b : GReg) (s : State) : Out := alu (fun x y => x >>> sh y) d a b s
def execSra (d a b : GReg) (s : State) : Out := alu (fun x y => x.sshiftRight (sh y)) d a b s
def execRol (d a b : GReg) (s : State) : Out := alu (fun x y => x.rotateLeft (sh y)) d a b s
def execRor (d a b : GReg) (s : State) : Out := alu (fun x y => x.rotateRight (sh y)) d a b s
def execSlt (d a b : GReg) (s : State) : Out := alu (fun x y => boolWord (x.slt y)) d a b s
def execSltu (d a b : GReg) (s : State) : Out := alu (fun x y => boolWord (x.ult y)) d a b s
def execMin (d a b : GReg) (s : State) : Out := alu (fun x y => if x.slt y then x else y) d a b s
def execMax (d a b : GReg) (s : State) : Out := alu (fun x y => if x.slt y then y else x) d a b s
def execMinu (d a b : GReg) (s : State) : Out := alu (fun x y => if x.ult y then x else y) d a b s
def execMaxu (d a b : GReg) (s : State) : Out := alu (fun x y => if x.ult y then y else x) d a b s
def execMul (d a b : GReg) (s : State) : Out := alu (fun x y => x * y) d a b s
def execMulh (d a b : GReg) (s : State) : Out := alu (fun x y => mulHigh x y) d a b s
def execMulhu (d a b : GReg) (s : State) : Out := alu (fun x y => mulHighU x y) d a b s
def execDiv (d a b : GReg) (s : State) : Out := alu (fun x y => divSigned x y) d a b s
def execDivu (d a b : GReg) (s : State) : Out := alu (fun x y => divUnsigned x y) d a b s
def execRem (d a b : GReg) (s : State) : Out := alu (fun x y => remSigned x y) d a b s
def execRemu (d a b : GReg) (s : State) : Out := alu (fun x y => remUnsigned x y) d a b s
def execAddw (d a b : GReg) (s : State) : Out := alu (fun x y => ((x + y).truncate 32).signExtend 64) d a b s
def execSubw (d a b : GReg) (s : State) : Out := alu (fun x y => ((x - y).truncate 32).signExtend 64) d a b s
def execClz (d a : GReg) (s : State) : Out := alu1 Sys2Proof.Machine.clz d a s
def execCtz (d a : GReg) (s : State) : Out := alu1 Sys2Proof.Machine.ctz d a s
def execPopc (d a : GReg) (s : State) : Out := alu1 Sys2Proof.Machine.popc d a s
def execBswap (d a : GReg) (s : State) : Out := alu1 Sys2Proof.Machine.bswap d a s
/-- MOVZ writes gd only where y = 0. -/
def execMovz (d a b : GReg) (s : State) : Out := .next (s.finish d (if s.g b = 0 then s.g a else s.g d))
/-- MOVN writes gd only where y ≠ 0. -/
def execMovn (d a b : GReg) (s : State) : Out := .next (s.finish d (if s.g b = 0 then s.g d else s.g a))

/-! Immediates and constants (R123). -/

def execAddi (d a : GReg) (i : BitVec 16) (s : State) : Out := alu1 (fun x => x + i.signExtend 64) d a s
def execAndi (d a : GReg) (i : BitVec 16) (s : State) : Out := alu1 (fun x => x &&& i.zeroExtend 64) d a s
def execOri (d a : GReg) (i : BitVec 16) (s : State) : Out := alu1 (fun x => x ||| i.zeroExtend 64) d a s
def execXori (d a : GReg) (i : BitVec 16) (s : State) : Out := alu1 (fun x => x ^^^ i.zeroExtend 64) d a s
def execSlti (d a : GReg) (i : BitVec 16) (s : State) : Out := alu1 (fun x => boolWord (x.slt (i.signExtend 64))) d a s
def execSltiu (d a : GReg) (i : BitVec 16) (s : State) : Out := alu1 (fun x => boolWord (x.ult (i.signExtend 64))) d a s
def execShori (d a : GReg) (i : BitVec 16) (s : State) : Out := alu1 (fun x => (x <<< 16) ||| i.zeroExtend 64) d a s
def execSlli (d a : GReg) (n : BitVec 6) (s : State) : Out := alu1 (fun x => x <<< n.toNat) d a s
def execSrli (d a : GReg) (n : BitVec 6) (s : State) : Out := alu1 (fun x => x >>> n.toNat) d a s
def execSrai (d a : GReg) (n : BitVec 6) (s : State) : Out := alu1 (fun x => x.sshiftRight n.toNat) d a s
def execRori (d a : GReg) (n : BitVec 6) (s : State) : Out := alu1 (fun x => x.rotateRight n.toNat) d a s
def execLih (d : GReg) (i : BitVec 16) (s : State) : Out := .next (s.finish d (i.signExtend 64 <<< 16))
def execAddpc (d : GReg) (i : BitVec 16) (s : State) : Out := .next (s.finish d (s.me.pc + (i.signExtend 64 <<< 16)))

/-! Scalar floating point (R124 to R132). -/

/-- A floating-point operand in format f (R120). -/
def State.fp (s : State) (f : FpFmt) (a : GReg) : Num := fpVal f false (s.g a).toNat
/-- A floating-point result written with its flags (R120, R132). -/
def State.finishFp (s : State) (d : GReg) (x : Nat × FFlags) : State := (s.setFlags x.2).finish d (BitVec.ofNat 64 x.1)

/-- An arithmetic instruction of two operands: one rounding of the exact result (R125). -/
def fpBin (f : RMode → Num → Num → Exact) (d a b : GReg) (sz : FpSize) (rm : ScalarRm) (s : State) : Out :=
  let x := s.fp (sizeFmt sz) a
  let y := s.fp (sizeFmt sz) b
  let r := toFp (sizeFmt sz) (scalarRounding rm) (f (scalarMode rm) x y)
  .next (s.finishFp d (r.1, r.2 ||| sigFlag x ||| sigFlag y))

def execFadd (d a b : GReg) (sz : FpSize) (rm : ScalarRm) (s : State) : Out := fpBin addNum d a b sz rm s
def execFsub (d a b : GReg) (sz : FpSize) (rm : ScalarRm) (s : State) : Out :=
  fpBin (fun m x y => addNum m x (negNum y)) d a b sz rm s
def execFmul (d a b : GReg) (sz : FpSize) (rm : ScalarRm) (s : State) : Out := fpBin (fun _ x y => mulExact x y) d a b sz rm s
def execFdiv (d a b : GReg) (sz : FpSize) (rm : ScalarRm) (s : State) : Out := fpBin (fun _ x y => divExact x y) d a b sz rm s
def execFsqrt (d a : GReg) (sz : FpSize) (rm : ScalarRm) (s : State) : Out :=
  let x := s.fp (sizeFmt sz) a
  let r := toFp (sizeFmt sz) (scalarRounding rm) (sqrtExact x)
  .next (s.finishFp d (r.1, r.2 ||| sigFlag x))

/-- FMIN and FMAX (R126). -/
def fpMinMax (max : Bool) (d a b : GReg) (sz : FpSize) (s : State) : Out :=
  .next (s.finishFp d (minMaxBits (sizeFmt sz) max false (s.g a).toNat (s.g b).toNat))
def execFmin (d a b : GReg) (sz : FpSize) (s : State) : Out := fpMinMax false d a b sz s
def execFmax (d a b : GReg) (sz : FpSize) (s : State) : Out := fpMinMax true d a b sz s

/-- A compare (R128). -/
def fpCmp (f : Num → Num → Bool × FFlags) (d a b : GReg) (sz : FpSize) (s : State) : Out :=
  let r := f (s.fp (sizeFmt sz) a) (s.fp (sizeFmt sz) b)
  .next ((s.setFlags r.2).finish d (boolWord r.1))
def execFceq (d a b : GReg) (sz : FpSize) (s : State) : Out := fpCmp cmpEq d a b sz s
def execFclt (d a b : GReg) (sz : FpSize) (s : State) : Out := fpCmp (cmpLt false) d a b sz s
def execFcle (d a b : GReg) (sz : FpSize) (s : State) : Out := fpCmp (cmpLt true) d a b sz s
/-- FCLASS (R129). -/
def execFclass (d a : GReg) (sz : FpSize) (s : State) : Out :=
  .next (s.finish d (BitVec.ofNat 64 (classBits (sizeFmt sz) false ((s.g a).toNat % 2 ^ (sizeFmt sz).width))))
/-- FCVTI: to INT64 (R130). -/
def execFcvti (d a : GReg) (sz : FpSize) (rm : ScalarRm) (s : State) : Out :=
  .next (s.finishFp d (toInt 64 true (scalarRounding rm) (s.fp (sizeFmt sz) a).exact))
/-- FCVTF: from INT64 (R130). -/
def execFcvtf (d a : GReg) (sz : FpSize) (rm : ScalarRm) (s : State) : Out :=
  .next (s.finishFp d (toFp (sizeFmt sz) (scalarRounding rm) (numOfInt (s.g a).toInt).exact))
/-- FCVTFF: between formats (R130). -/
def execFcvtff (d a : GReg) (src sz : FpSize) (rm : ScalarRm) (s : State) : Out :=
  let x := s.fp (sizeFmt src) a
  let r := toFp (sizeFmt sz) (scalarRounding rm) x.exact
  .next (s.finishFp d (r.1, r.2 ||| sigFlag x))
def execFneg (d a : GReg) (sz : FpSize) (s : State) : Out :=
  .next (s.finish d (BitVec.ofNat 64 (signBits (sizeFmt sz) true false (s.g a).toNat)))
def execFabs (d a : GReg) (sz : FpSize) (s : State) : Out :=
  .next (s.finish d (BitVec.ofNat 64 (signBits (sizeFmt sz) false false (s.g a).toNat)))
/-- FMA with its two negations (R131). -/
def execFma (d a b c : GReg) (sz : FpSize) (rm : ScalarRm) (np na : Bool) (s : State) : Out :=
  let x := s.fp (sizeFmt sz) a
  let y := s.fp (sizeFmt sz) b
  let z := s.fp (sizeFmt sz) c
  let r := toFp (sizeFmt sz) (scalarRounding rm) (fmaExact (scalarMode rm) np x y (if na then negNum z else z))
  .next (s.finishFp d (r.1, r.2 ||| sigFlag x ||| sigFlag y ||| sigFlag z))

end Sys2Proof.Machine
end

