-- ==== Sys2Proof/Machine/Fetch.lean ====
section
/-! DEFINITION. Instruction fetch (R135, R136, R266): translation, the instruction cache, poison. -/

namespace Sys2Proof.Machine

/-- Lines that an instruction cache holds: 64 KiB (R255). -/
def icacheLines : Nat := 512

/-- The bytes of a line as the coherent hierarchy holds them. -/
def State.lineData (s : State) (line : Nat) : BitVec 1024 := BitVec.ofNat 1024 (leNat (s.bytesAt (.hbm (line * 128)) 128))

/-- The sectors of a line that the coherent hierarchy delivers as poisoned (R267). -/
def State.lineBad (s : State) (line : Nat) : BitVec 8 :=
  BitVec.ofNat 8 ((List.range 8).foldl (fun a j => if s.poisoned (.hbm (line * 128 + 16 * j)) then a + 2 ^ j else a) 0)
/-- The word at a place in a cached page, and whether it is poisoned: the instruction cache's copy, filled where it holds none; where
the copy is old, one of the two words (R136, R267). -/
def State.fetchCached (s : State) (k pa : Nat) : State × Nat × Bool :=
  let now := leNat (s.bytesAt (.hbm pa) 4)
  let bad := (s.firstPoison (.hbm pa) 4).isSome
  match (s.core k).icache.find? (·.line == lineOf pa) with
  | some l =>
    let old := (l.data.extractLsb' (8 * (pa % 128)) 32).toNat
    let oldBad := l.bad.getLsbD (pa % 128 / 16)
    if old = now then (s, now, oldBad)
    else ({ s with fresh := s.fresh + 1 }, if Config.fetchOld s.fresh then (old, oldBad) else (now, bad))
  | none =>
    (s.modCore k (fun c => { c with
      icache := (⟨lineOf pa, s.lineData (lineOf pa), s.lineBad (lineOf pa)⟩ :: c.icache).take icacheLines }), now, bad)

/-- The word that context c fetches at its PC, or the cause of its fetch trap; EPC and TVAL are the PC (R135). -/
def State.fetch (s : State) (c : Nat) : State × Except Nat Nat :=
  let pc := (s.ctx c).pc.toNat
  match s.transSpan (s.whoCtx c) .fetch pc 4 with
  | (s, .error e) => (s, .error e.1)
  | (s, .ok ps) =>
    match ps with
    | [] => (s, .error 0x13)
    | p :: _ =>
      match p.loc with
      | .hbm pa =>
        if p.uncached then (s, if (s.firstPoison p.loc 4).isSome then .error 0x09 else .ok (leNat (s.bytesAt p.loc 4)))
        else
          let r := s.fetchCached (coreOf c) pa
          (r.1, if r.2.2 then .error 0x09 else .ok r.2.1)
      | l => (s.afterRead l, .ok (leNat (s.bytesAt l 4)))

/-- Whether a word is a vector instruction that VSTART can resume (R113, R151): the vector majors but for SETVL, the
reductions, VEXT, VINS and the mask instructions. -/
def resumable (w : Nat) : Bool :=
  let m := w / 2 ^ 26 % 64
  decide (0x31 ≤ m ∧ m ≤ 0x3E ∧ m ≠ 0x3A ∧ m ≠ 0x3C) && !(m == 0x3B && (w % 32 == 6 || w % 32 == 7))

end Sys2Proof.Machine
end

