-- ==== Sys2Proof/Machine/Control.lean ====
section
/-! DEFINITION. Branches and jumps (R133, R134), and the system instructions that raise, return, wait and yield (R246 to R251,
R96). -/

namespace Sys2Proof.Machine

/-- A conditional branch (R133). -/
def branch (p : Word → Word → Bool) (c a : GReg) (off : BitVec 16) (s : State) : Out :=
  .next (s.retireTo (s.me.pc + (if p (s.g c) (s.g a) then off.signExtend 64 <<< 2 else 4)))

def execBeq (c a : GReg) (off : BitVec 16) (s : State) : Out := branch (fun x y => x == y) c a off s
def execBne (c a : GReg) (off : BitVec 16) (s : State) : Out := branch (fun x y => x != y) c a off s
def execBlt (c a : GReg) (off : BitVec 16) (s : State) : Out := branch (fun x y => x.slt y) c a off s
def execBge (c a : GReg) (off : BitVec 16) (s : State) : Out := branch (fun x y => !x.slt y) c a off s
def execBltu (c a : GReg) (off : BitVec 16) (s : State) : Out := branch (fun x y => x.ult y) c a off s
def execBgeu (c a : GReg) (off : BitVec 16) (s : State) : Out := branch (fun x y => !x.ult y) c a off s
def execJ (off : BitVec 26) (s : State) : Out := .next (s.retireTo (s.me.pc + off.signExtend 64 <<< 2))
/-- JAL links in g1 (R134). -/
def execJal (off : BitVec 26) (s : State) : Out :=
  .next ((s.setG 1 (s.me.pc + 4)).retireTo (s.me.pc + off.signExtend 64 <<< 2))
/-- JALR reads Ge(a) before it writes Ge(d) (R134). -/
def execJalr (d a : GReg) (imm : BitVec 16) (s : State) : Out :=
  .next ((s.setG d (s.me.pc + 4)).retireTo ((s.g a + imm.signExtend 64) &&& ~~~3#64))

def execTrap (code : BitVec 5) (s : State) : Out := raise 0x0E (code.zeroExtend 64) s
def execBrk (s : State) : Out := raise 0x0D 0 s
def execEret (s : State) : Out := kOnly wordEret s (fun s => .next (s.modMe Ctx.eret))

/-- Whether a tile error is pending for context c (R224). -/
def State.tileErr (s : State) (c : Nat) : Bool :=
  (s.core (coreOf c)).errPend && (s.core (coreOf c)).errCtx.toNat == c % 4
/-- Whether WFI finds an event pending (R251). -/
def State.wakes (s : State) (c : Nat) : Bool := (s.ctx c).status.ipend != 0 || s.tileErr c

/-- WFI (R91, R251). The context becomes FREE only when its vector instructions have left the unit. -/
def execWfi (s : State) : Out :=
  let x := s.me
  if s.wakes s.cur then .next s.retire
  else if x.status.mode ∧ x.gang = 0 ∧ x.cntL = 0 ∧ x.cntS = 0 ∧ x.cntC = 0 ∧ x.cntT = 0 then
    if (s.vqOf s.cur).isEmpty then .next (s.retire.modMe (fun c => { c with st := .free, lastIssue := 0 }))
    else .next (s.hold .waitUnit .vecDone)
  else .next ((s.modMe (fun c => { c with pc := c.pc + 4 })).parkOn .wfi)

/-- YIELD (R96). -/
def execYield (s : State) : Out := .next (s.retire.modMe (fun c => { c with st := .yielded, yieldedAt := s.cycles }))

end Sys2Proof.Machine
end

