-- ==== Sys2Proof/Machine/System.lean ====
section
/-! DEFINITION. System registers (R239 to R245), SETVL (R154), translation invalidation (R252), and the yield deadline. -/

namespace Sys2Proof.Machine

/-! Reading the system registers. -/

/-- STATUS as MFS reads it (R240). -/
def Status.word (x : Status) : Word :=
  let b := fun (c : Bool) (n : Nat) => if c then 2 ^ n else 0
  BitVec.ofNat 64 (b x.mode 0 + b x.ie 1 + b x.pie 2 + b x.pmode 3 + b x.ven 4 + b x.vd 5 + b x.ten 6 + b x.ye 7 +
    x.ipend.toNat * 2 ^ 16)
/-- TCTL (R220). -/
def Core.tctl (c : Core) : Word :=
  BitVec.ofNat 64 (c.owner.toNat + (if c.owned then 4 else 0) + (if c.tq.isEmpty then 0 else 8) + c.tq.length * 16 +
    c.errCtx.toNat * 256 + (if c.errPend then 1024 else 0))
/-- A field of TSTAT (R221). -/
def TFlags.byte (f : TFlags) : Nat :=
  let b := fun (c : Bool) (n : Nat) => if c then 2 ^ n else 0
  b f.ovf 0 + b f.nv 1 + b f.sat 2 + b f.nx 3 + b f.poison 4
/-- A TSTAT field from its bits. -/
def TFlags.ofByte (x : Nat) : TFlags :=
  ⟨x % 2 == 1, x / 2 % 2 == 1, x / 4 % 2 == 1, x / 8 % 2 == 1, x / 16 % 2 == 1⟩
/-- TSTAT (R221). -/
def Core.tstatWord (c : Core) : Word :=
  BitVec.ofNat 64 ((List.range 8).foldl (fun a n => a + (c.tstat.get (Fin.ofNat 8 n)).byte * 2 ^ (8 * n)) 0)
/-- CHPEND (R244). -/
def Core.chpend (c : Core) : Word :=
  BitVec.ofNat 64 ((List.range 16).foldl (fun a n => if (c.chans.get (Fin.ofNat 16 n)).isEmpty then a else a + 2 ^ n) 0)

/-- The value of a system register of context c; none for an unassigned number (R239). -/
def State.sysRead (s : State) (c num : Nat) : Option Word :=
  let x := s.ctx c
  let k := s.core (coreOf c)
  let z := fun {n : Nat} (v : BitVec n) => v.zeroExtend 64
  match num with
  | 0x000 => some x.status.word
  | 0x001 => some x.epc
  | 0x002 => some (z x.cause)
  | 0x003 => some x.tval
  | 0x004 => some x.tvec
  | 0x005 => some (x.kscr.get 0)
  | 0x006 => some (x.kscr.get 1)
  | 0x007 => some (x.kscr.get 2)
  | 0x008 => some (BitVec.ofNat 64 c)
  | 0x009 => some (z x.gang)
  | 0x00A => some (z x.member)
  | 0x00B => some (z x.gsize)
  | 0x00C => some (z x.prio)
  | 0x010 => some (z x.vl)
  | 0x011 => some (BitVec.ofNat 64 (x.es.toNat + 4 * x.grp.toNat))
  | 0x012 => some (z x.vstart)
  | 0x013 => some x.vfill
  | 0x014 => some (z x.vffe)
  | 0x015 => some (z x.vcap)
  | 0x016 => some (BitVec.ofNat 64 (2 ^ x.vcap.toNat / 8))
  | 0x018 => some x.seed
  | 0x019 => some x.stripbase
  | 0x01A => some (z x.fstat)
  | 0x020 => some k.tctl
  | 0x021 => some k.tstatWord
  | 0x030 => some (z x.cntL)
  | 0x031 => some (z x.cntS)
  | 0x032 => some (z x.cntC)
  | 0x033 => some (z x.cntT)
  | 0x038 => some (BitVec.ofNat 64 (x.yDl.toNat + (if x.yPend then 2 ^ 32 else 0)))
  | 0x039 => some (z x.ydead)
  | 0x040 => some (z k.spsize)
  | 0x041 => some (BitVec.ofNat 64 (0xFFFFF00000000000 + slotOfCore (coreOf c) * 0x1000000))
  | 0x050 => some (BitVec.ofNat 64 ((if x.ptOn then 1 else 0) + x.ptRoot.toNat * 2 ^ 12))
  | 0x051 => some (z x.asid)
  | 0x052 => some (if x.dlog then 1 else 0)
  | 0x060 => some s.time
  | 0x061 => some (BitVec.ofNat 64 s.cycles - (s.region (regionOfCore (coreOf c))).gated - k.cycle)
  | 0x062 => some x.iret
  | 0x080 => some (z x.chmask)
  | 0x081 => some k.chpend
  | n =>
    if 0x070 ≤ n ∧ n < 0x078 then some (z (x.pmsel.get (Fin.ofNat 8 (n - 0x070))))
    else if 0x078 ≤ n ∧ n < 0x080 then some (x.pmcnt.get (Fin.ofNat 8 (n - 0x078)))
    else none

/-- The registers that a U-mode MFS may read (R239); TSTAT has its own rule (R221). -/
def uReadable (num : Nat) : Bool :=
  [0x008, 0x009, 0x00A, 0x00B, 0x010, 0x011, 0x012, 0x013, 0x014, 0x015, 0x016, 0x018, 0x019, 0x01A, 0x021, 0x030, 0x031, 0x032,
    0x033, 0x041, 0x060, 0x061, 0x062, 0x081].contains num || decide (0x078 ≤ num ∧ num < 0x080)
/-- The registers that a U-mode MTS may write (R245). -/
def uWritable (num : Nat) : Bool := [0x012, 0x013, 0x014, 0x018, 0x019, 0x01A].contains num
/-- The registers whose MFS and MTS wait for earlier vector instructions (R147). -/
def waitsVector (num : Nat) : Bool := [0x010, 0x011, 0x012, 0x013, 0x014, 0x018, 0x019, 0x01A].contains num
/-- Whether the acting context owns the tile unit (R217). -/
def State.ownsTile (s : State) : Bool :=
  let k := s.core (coreOf s.cur)
  s.me.status.ten && k.owned && k.owner.toNat == s.cur % 4

/-- MFS (R239, R245). -/
def execMfs (d : GReg) (num : BitVec 12) (s : State) : Out :=
  let n := num.toNat
  match s.sysRead s.cur n with
  | none => raiseIllegal (wordMfs d num) s
  | some v =>
    if !s.me.status.mode && !uReadable n then raisePriv (wordMfs d num) s
    else if n = 0x021 ∧ !s.me.status.mode ∧ !s.ownsTile then raise 0x0B s.me.pc s
    else if waitsVector n ∧ !(s.vqOf s.cur).isEmpty then .next (s.hold .waitUnit .vecDone)
    else if n = 0x021 ∧ !(s.core (coreOf s.cur)).tq.isEmpty then .next (s.hold .waitUnit .tqEmpty)
    else .next (s.finish d v)

/-! Writing them. -/

/-- The register write and completion of an MTS, in the modes and after the waits of its register. -/
def mtsOp (num : Nat) (w : Nat) (a : GReg) (f : Word → Ctx → Ctx) (s : State) : Out :=
  if !s.me.status.mode && !uWritable num then raisePriv w s
  else if waitsVector num ∧ !(s.vqOf s.cur).isEmpty then .next (s.hold .waitUnit .vecDone)
  else .next ((s.modMe (f (s.g a))).retire)

/-- STATUS written (R240): IPEND is cleared where 1 is written, MODE is kept. -/
def Status.write (x : Status) (v : Word) : Status :=
  ⟨x.mode, v.getLsbD 1, v.getLsbD 2, v.getLsbD 3, v.getLsbD 4, v.getLsbD 5, v.getLsbD 6, v.getLsbD 7,
    x.ipend &&& ~~~(v.extractLsb' 16 6)⟩
def execMtsStatus (a : GReg) (s : State) : Out :=
  mtsOp 0x000 (wordMtsStatus a) a (fun v c => { c with status := c.status.write v }) s

/-- VL within VLMAX (R147). -/
def Ctx.clampVl (c : Ctx) (n : Nat) : Ctx :=
  { c with vl := BitVec.ofNat 12 (min n (vlmax c.vcap.toNat c.es.toNat c.grp.toNat)) }
/-- STATUS.VD set (R247). -/
def Ctx.dirtyV (c : Ctx) : Ctx := { c with status := { c.status with vd := true } }
def execMtsVl (a : GReg) (s : State) : Out := mtsOp 0x010 (wordMtsVl a) a (fun v c => (c.clampVl v.toNat).dirtyV) s
def execMtsVtype (a : GReg) (s : State) : Out :=
  mtsOp 0x011 (wordMtsVtype a) a (fun v c =>
    ({ c with es := v.extractLsb' 0 2, grp := v.extractLsb' 2 2 } : Ctx).clampVl c.vl.toNat |>.dirtyV) s
/-- VCAP: values 7 to 14 are stored, any other is ignored in full (R145, R147). -/
def execMtsVcap (a : GReg) (s : State) : Out :=
  mtsOp 0x015 (wordMtsVcap a) a (fun v c =>
    let n := v.extractLsb' 0 4
    if 7 ≤ n.toNat ∧ n.toNat ≤ 14 then ({ c with vcap := n, vstart := 0 } : Ctx).clampVl c.vl.toNat else c) s
/-- TCTL (R218, R220). -/
def execMtsTctl (a : GReg) (s : State) : Out :=
  kOnly (wordMtsTctl a) s (fun s =>
    if !(s.core (coreOf s.cur)).tq.isEmpty then .next (s.hold .waitUnit .tqEmpty)
    else
      let v := s.g a
      .next ((s.modCore (coreOf s.cur) (fun k =>
        { k with owner := v.extractLsb' 0 2, owned := v.getLsbD 2, errPend := k.errPend && !v.getLsbD 10 })).retire))
/-- TSTAT (R221). -/
def execMtsTstat (a : GReg) (s : State) : Out :=
  kOnly (wordMtsTstat a) s (fun s =>
    if !(s.core (coreOf s.cur)).tq.isEmpty then .next (s.hold .waitUnit .tqEmpty)
    else
      let v := s.g a
      .next ((s.modCore (coreOf s.cur) (fun k =>
        { k with tstat := Vector.ofFn (fun i => TFlags.ofByte (v.toNat / 2 ^ (8 * i.val))) })).retire))
def execMtsCntc (a : GReg) (s : State) : Out :=
  mtsOp 0x032 (wordMtsCntc a) a (fun v c => { c with cntC := v.extractLsb' 0 16 }) s
/-- YCTL (R243): PEND written over 0 starts the deadline, PEND = 0 cancels it, and a change of DL under PEND keeps the
starting TIME and expires at the next tick at the earliest. -/
def execMtsYctl (a : GReg) (s : State) : Out :=
  let t := s.time
  mtsOp 0x038 (wordMtsYctl a) a (fun v c =>
    let dl := v.extractLsb' 0 32
    if !v.getLsbD 32 then { c with yDl := dl, yPend := false, yArmed := none }
    else if !c.yPend then { c with yDl := dl, yPend := true, yStart := t.toNat, yArmed := some 0 }
    else { c with yDl := dl, yArmed := if dl = c.yDl then c.yArmed else some ((t - BitVec.ofNat 64 c.yStart).toNat + 1) }) s

/-- Lines that lose their region-cache rows (R261): their copies are recalled with their directory entries, and their dirty sectors
are written back. -/
def State.unrow (s : State) (k : Nat) : List (Nat × BitVec 8) → State
  | [] => s
  | (l, _) :: t =>
    let s := (s.backInvalidate l (homeDie l)).dropOld (spanLocs l 0xFF)
    State.unrow (s.modCore k (fun c => { c with rcache := c.rcache.filter (·.1 != l) })) k t
/-- A new split of a slice (R261): lines that lose their region-cache rows are written back, and every byte whose role
changes is zero. -/
def State.resplit (s : State) (k new : Nat) : State :=
  let old := (s.core k).spsize.toNat
  let s := s.unrow k ((s.core k).rcache.drop ((16 - new) * 4096))
  let lo := spadKey k 0 + min old new * 2 ^ 19
  let hi := spadKey k 0 + max old new * 2 ^ 19
  let s := { s with
    spad := SMap.drop (fun i => decide (lo ≤ i ∧ i < hi)) s.spad
    spoison := SMap.drop (fun i => decide (lo ≤ i * 16 ∧ i * 16 < hi)) s.spoison }
  s.modCore k (fun c => { c with spsize := BitVec.ofNat 5 new })
/-- SPCFG (R244, R261). -/
def execMtsSpcfg (a : GReg) (s : State) : Out :=
  kOnly (wordMtsSpcfg a) s (fun s =>
    let n := ((s.g a).extractLsb' 0 5).toNat
    .next ((if 16 < n then s else s.resplit (coreOf s.cur) n).retire))

/-- The write of the registers without an entry of their own in the opcode table; a read-only register keeps its value
(R239). -/
def Ctx.sysWrite (c : Ctx) (num : Nat) (v : Word) : Ctx :=
  match num with
  | 0x001 => { c with epc := v &&& ~~~3#64 }
  | 0x002 => { c with cause := v.extractLsb' 0 8 }
  | 0x003 => { c with tval := v }
  | 0x004 => { c with tvec := v &&& ~~~255#64 }
  | 0x005 => { c with kscr := c.kscr.set 0 v }
  | 0x006 => { c with kscr := c.kscr.set 1 v }
  | 0x007 => { c with kscr := c.kscr.set 2 v }
  | 0x009 => { c with gang := v.extractLsb' 0 16 }
  | 0x00B => { c with gsize := v.extractLsb' 0 11 }
  | 0x00C => { c with prio := v.extractLsb' 0 2 }
  | 0x012 => ({ c with vstart := v.extractLsb' 0 12 } : Ctx).dirtyV
  | 0x013 => ({ c with vfill := v } : Ctx).dirtyV
  | 0x014 => ({ c with vffe := v.extractLsb' 0 13 } : Ctx).dirtyV
  | 0x018 => ({ c with seed := v } : Ctx).dirtyV
  | 0x019 => ({ c with stripbase := v } : Ctx).dirtyV
  | 0x01A => { c with fstat := v.extractLsb' 0 7 }
  | 0x039 => { c with ydead := v.extractLsb' 0 8 }
  | 0x050 => { c with ptOn := v.getLsbD 0, ptRoot := v.extractLsb' 12 40 }
  | 0x051 => { c with asid := v.extractLsb' 0 16 }
  | 0x052 => { c with dlog := v.getLsbD 0 }
  | 0x080 => { c with chmask := v.extractLsb' 0 16 }
  | n =>
    if 0x070 ≤ n ∧ n < 0x078 then
      { c with pmsel := Vector.ofFn (fun i => if i.val = n - 0x070 then v.extractLsb' 0 10 else c.pmsel.get i) }
    else if 0x078 ≤ n ∧ n < 0x080 then
      { c with pmcnt := Vector.ofFn (fun i => if i.val = n - 0x078 then v else c.pmcnt.get i) }
    else c
/-- MTS of the other registers (R239, R245). -/
def execMts (a : GReg) (num : BitVec 12) (s : State) : Out :=
  match s.sysRead s.cur num.toNat with
  | none => raiseIllegal (wordMts a num) s
  | some _ => mtsOp num.toNat (wordMts a num) a (fun v c => c.sysWrite num.toNat v) s

/-! SETVL (R154). -/

/-- SETVL in its four forms: `strip` advances STRIPBASE, `count` is the requested count or none for VLMAX. -/
def setvlOp (w : Nat) (strip : Bool) (count : Option Word) (d : GReg) (es grp : Fin 4) (dead : BitVec 8) (y : Bool)
    (s : State) : Out :=
  needVec w s (
    let c := s.me
    if y && c.status.ye && c.yPend then
      (raise 0x0C 0 s).andThen (fun t => .next (t.modMe (fun c => { c with ydead := dead, yPend := false, yArmed := none })))
    else
      let top := vlmax c.vcap.toNat es.val grp.val
      let vl := match count with | some n => min n.toNat top | none => top
      .next ((s.modMe (fun c => ({ c with
        stripbase := if strip then c.stripbase + BitVec.ofNat 64 c.vl.toNat else c.stripbase
        vl := BitVec.ofNat 12 vl, es := BitVec.ofNat 2 es.val, grp := BitVec.ofNat 2 grp.val, vstart := 0 } : Ctx).dirtyV)).finish
        d (BitVec.ofNat 64 vl)))

def execSetvl (d a : GReg) (es grp : Fin 4) (dead : BitVec 8) (y : Bool) (s : State) : Out :=
  setvlOp (wordSetvl d a es grp dead y) false (some (s.g a)) d es grp dead y s
def execSetvlA (d a : GReg) (es grp : Fin 4) (dead : BitVec 8) (y : Bool) (s : State) : Out :=
  setvlOp (wordSetvlA d a es grp dead y) true (some (s.g a)) d es grp dead y s
def execSetvlmax (d : GReg) (es grp : Fin 4) (dead : BitVec 8) (y : Bool) (s : State) : Out :=
  setvlOp (wordSetvlmax d es grp dead y) false none d es grp dead y s
def execSetvlmaxA (d : GReg) (es grp : Fin 4) (dead : BitVec 8) (y : Bool) (s : State) : Out :=
  setvlOp (wordSetvlmaxA d es grp dead y) true none d es grp dead y s

/-! Translation invalidation (R252, R273). -/

/-- The cores of the instance of a scope that contains core k (R100). -/
def coresIn (sc : Scope) (k : Nat) : List Nat :=
  match sc with
  | .core => [k]
  | .quad => (List.range 4).map (coreAtSlot (quadOfCore k))
  | .die => (List.range 64).map (dieOfCore k * 64 + ·)
  | _ => List.range 1024

/-- Whether a TLB entry matches the operands of TLBINV. -/
def TlbEnt.matches (e : TlbEnt) (va : Nat) (asid : Option Nat) : Bool :=
  (decide (va = 2 ^ 64 - 1) || decide (va / 2 ^ e.log * 2 ^ e.log = e.va)) &&
  (match asid with | none => true | some a => e.glob || e.asid == a)
/-- Whether a walk-cache entry matches them. -/
def WalkEnt.matches (e : WalkEnt) (va : Nat) (asid : Option Nat) : Bool :=
  (decide (va = 2 ^ 64 - 1) || decide (va / 2 ^ levelShift (e.level - 1) = e.key)) &&
  (match asid with | none => true | some a => e.asid == a)
/-- Matching entries leave a TLB, or leave use until their last pin is released. -/
def tlbDrop (who va : Nat) (asid : Option Nat) (l : List TlbEnt) : List TlbEnt :=
  l.filterMap (fun e =>
    if !e.matches va asid then some e
    else if e.pins = 0 then none
    else some { e with removed := if e.removed.contains who then e.removed else who :: e.removed })
/-- Whether a buffered store or a missed load of a core's contexts was translated by an entry (R252). -/
def State.usesEnt (s : State) (k id : Nat) : Bool :=
  (List.range 4).any (fun i =>
    let x := s.ctx (k * 4 + i)
    x.sb.any (fun e => e.pieces.any (·.ent == id)) ||
    (match x.miss with
      | .load _ _ _ _ _ e _ => e == id
      | _ => false))
/-- The removal at one core (R273). -/
def Core.tlbInv (who va : Nat) (asid : Option Nat) (c : Core) : Core :=
  { c with
    itlb := c.itlb.filter (fun e => !e.matches va asid)
    dtlb := c.dtlb.filter (fun e => !e.matches va asid)
    tlb2 := tlbDrop who va asid c.tlb2
    walks := c.walks.filter (fun e => !e.matches va asid)
    stream := { c.stream with tlb := tlbDrop who va asid c.stream.tlb } }
/-- An engine's translation cache, likewise. -/
def Engine.tlbInv (who va : Nat) (asid : Option Nat) (e : Engine) : Engine := { e with tlb := tlbDrop who va asid e.tlb }

/-- The cores, then the quads, then the regions of a list invalidated. -/
def State.invCores (who va : Nat) (asid : Option Nat) : List Nat → State → State
  | [], s => s
  | k :: t, s => State.invCores who va asid t (s.modCore k (fun c =>
      let ids := (((c.itlb ++ c.dtlb ++ c.tlb2).filter (fun e => e.matches va asid && s.usesEnt k e.id)).map (·.id)).eraseDups
      { (c.tlbInv who va asid) with gone := c.gone.filter (fun g => s.usesEnt k g.1) ++ ids.map (fun id => (id, who)) }))
def State.invQuads (who va : Nat) (asid : Option Nat) : List Nat → State → State
  | [], s => s
  | q :: t, s => State.invQuads who va asid t (s.modQuad q (fun x =>
      { x with weave := x.weave.tlbInv who va asid, decomp := x.decomp.tlbInv who va asid }))
def State.invRegions (who va : Nat) (asid : Option Nat) : List Nat → State → State
  | [], s => s
  | r :: t, s => State.invRegions who va asid t (s.modRegion r (fun x =>
      { x with coll := x.coll.tlbInv who va asid, tend := x.tend.tlbInv who va asid, lnch := x.lnch.tlbInv who va asid }))

/-- Whether context c has an incomplete tile instruction that stores (R226). -/
def State.tileStores (s : State) (c : Nat) : Bool :=
  (s.core (coreOf c)).tq.any (fun e => e.ctx == c && (match e.op with | .store _ _ => true | .save _ => true | _ => false))

/-- TLBINV (R252): waits for the context's stores, then removes matching entries in the cores of the island in scope and in
the engines that lie with them (R283). -/
def execTlbinv (a b : GReg) (sc : Scope) (s : State) : Out :=
  kOnly (wordTlbinv a b sc) s (fun s =>
    if !s.me.sb.isEmpty || s.tileStores s.cur then .next (s.hold .waitUnit .drained)
    else
      let va := (s.g a).toNat
      let asid := if (s.g b).getLsbD 16 then none else some ((s.g b).extractLsb' 0 16).toNat
      let isl := s.islandOf (regionOf s.cur)
      let inScope := coresIn sc (coreOf s.cur)
      let mine := fun (k : Nat) => decide (s.islandOf (regionOfCore k) = isl) && inScope.contains k
      let cores := (s.cores.map (·.1)).filter mine
      let quads := if sc = .core then [] else (s.quads.map (·.1)).filter (fun q => mine (coreAtSlot q 0))
      let regs := (s.regions.map (·.1)).filter (fun r => (coresOfRegion r).any mine)
      .next ((State.invRegions s.cur va asid regs
        (State.invQuads s.cur va asid quads (State.invCores s.cur va asid cores s))).retire))

/-- Whether some entry removed by context c's TLBINV still holds a pin, or a buffered store or missed load still uses it
(R252). -/
def State.pinsLeft (s : State) (c : Nat) : Bool :=
  let held := fun (l : List TlbEnt) => l.any (fun e => e.removed.contains c)
  s.cores.any (fun k => held k.2.tlb2 || held k.2.stream.tlb || k.2.gone.any (fun g => g.2 == c && s.usesEnt k.1 g.1)) ||
  s.quads.any (fun q => held q.2.weave.tlb || held q.2.decomp.tlb) ||
  s.regions.any (fun r => held r.2.coll.tlb || held r.2.tend.tlb || held r.2.lnch.tlb)
/-- TLBSYNC (R252). -/
def execTlbsync (s : State) : Out :=
  kOnly wordTlbsync s (fun s => if s.pinsLeft s.cur then .next (s.hold .waitUnit .pins) else .next s.retire)

/-- YIELD_DEADLINE_EXPIRE (R243, R376): the pre-emption interrupt becomes pending. -/
def execYieldDeadlineExpire (c : CtxId) (s : State) : Out :=
  let x := s.ctx c.val
  match x.yArmed with
  | none => notEnabled "YIELD_DEADLINE_EXPIRE"
  | some t =>
    if x.yPend ∧ x.yDl ≠ 0 ∧ s.elapsed x.yStart x.yDl.toNat ∧ s.elapsed x.yStart t then
      .next ((s.raiseInt c.val 0x41 0).modCtx c.val (fun x => { x with yArmed := none }))
    else notEnabled "YIELD_DEADLINE_EXPIRE"

end Sys2Proof.Machine
end

