-- ==== Sys2Proof/Machine/Tile.lean ====
section
/-! DEFINITION. The matrix unit: tile state (R213 to R215), ownership and the checks at issue (R217, R235), tile arithmetic
(R228, R229), slice moves, tile memory instructions, save and restore (R230 to R236), tile errors (R223), and the steps that
execute and complete a queued instruction (R225). -/

namespace Sys2Proof.Machine

/-! Tile state as numbers. -/

/-- Cell n = 64r + c of an accumulator (R214). -/
def cellOf (x : BitVec 131072) (n : Nat) : Nat := (x.extractLsb' (32 * n) 32).toNat
/-- Element (k, j) of a panel at width w (R215). -/
def panelElem (x : BitVec 65536) (w k j : Nat) : Nat := (x.extractLsb' ((64 * k + j) * w) w).toNat
/-- Band byte (b, j) (R215). -/
def bandByte (x : BitVec 4096) (b j : Nat) : Nat := (x.extractLsb' (8 * (64 * b + j)) 8).toNat
/-- Numbers of w bits laid one after the other, the first lowest. -/
def packNat (w : Nat) : List Nat → Nat
  | [] => 0
  | x :: t => x % 2 ^ w + 2 ^ w * packNat w t
/-- An accumulator with cells replaced. -/
def setCells (x : BitVec 131072) (l : List (Nat × Nat)) : BitVec 131072 :=
  l.foldl (fun x c => putBits x (32 * c.1) 32 c.2) x

def Core.setAcc (k : Core) (a : AccReg) (x : BitVec 131072) : Core := { k with acc := k.acc.set a.val x a.isLt }
def Core.setPanel (k : Core) (q : PanelReg) (x : BitVec 65536) : Core := { k with panel := k.panel.set q.val x q.isLt }
def Core.setBand (k : Core) (q : PanelReg) (x : BitVec 4096) : Core := { k with band := k.band.set q.val x q.isLt }
def Core.setTstat (k : Core) (a : AccReg) (f : TFlags) : Core := { k with tstat := k.tstat.set a.val f a.isLt }
/-- Flags of the formats recorded in a TSTAT field (R221). -/
def TFlags.add (t : TFlags) (f : FFlags) : TFlags :=
  { t with ovf := t.ovf || f.getLsbD 2, nv := t.nv || f.getLsbD 0, sat := t.sat || f.getLsbD 5, nx := t.nx || f.getLsbD 4 }
/-- A pending tile error recorded, unless one is pending already (R223). -/
def Core.tileError (k : Core) (ctx : Nat) (pc : Word) : Core :=
  if k.errPend then k else { k with errPend := true, errCtx := BitVec.ofNat 2 (ctx % 4), errAddr := pc }
/-- A poisoned accumulator: every cell 0x7FC0_0000 and POISON set (R223). -/
def Core.poisonAcc (k : Core) (a : AccReg) : Core :=
  (k.setAcc a (BitVec.ofNat 131072 (packNat 32 (List.replicate 4096 0x7FC00000)))).setTstat a { k.tstat.get a with poison := true }

/-! Checks at issue. -/

/-- Vector availability where the instruction needs it, and tile availability (R217). -/
def tileGate (vec : Bool) (w : Nat) (s : State) (f : Out) : Out :=
  if vec && !s.me.status.ven then raise 0x0A (tvalWord w) s
  else if !s.ownsTile then raise 0x0B s.me.pc s
  else f

/-- The entry of a tile instruction of the acting context, with what is read at issue (R225, R234). -/
def State.tEntry (s : State) (op : TOp) (fw a b : Word) (pieces : List Piece) (pages : Nat) (cast : Option Nat) : TEntry :=
  let c := s.me
  ⟨s.cur, op, c.pc, fw, a, b, c.seed, c.stripbase, c.vcap.toNat, c.asid.toNat, c.dlog && c.ptOn, pieces, pages, cast, false, s.issueSeq⟩

/-- Entry into the tile operation queue: counter T rises and the context goes on; it is counted when it completes (R225,
R242). -/
def tilePush (e : TEntry) (vd : Bool) (s : State) : Out :=
  if 8 ≤ (s.core (coreOf s.cur)).tq.length then .next (s.hold .waitUnit .tqFull)
  else
    .next ((s.modCore (coreOf s.cur) (fun k => { k with tq := k.tq ++ [e] })).modMe (fun c =>
      { c with
        st := .ready, wait := .none, pc := c.pc + 4, young := false, cntT := c.cntT + 1
        status := { c.status with vd := c.status.vd || vd } }))

/-- Panel depth for a width (R215). -/
def panelDepth (w : Nat) : Nat := 1024 / w
/-- Formats of panel elements (R228, R232). -/
def Fmt.isPanel : Fmt → Bool
  | .fp .fp16 | .fp .bf16 | .fp .e4 | .fp .e5 | .fp .fp32 => true
  | .int 8 _ => true
  | .pb 1 => true
  | .fx4 => true
  | _ => false
/-- The pairs of R228, with the group size, or none. -/
def mopGroup (a b d : Fmt) : Option Nat :=
  match a, b with
  | .fp x, .fp y =>
    if d ≠ .fp .fp32 then none
    else if x.width = 16 ∧ y.width = 16 then some 4
    else if x.width = 8 ∧ y.width = 8 then some 8
    else if x = .fp32 ∧ y = .fp32 then some 1
    else none
  | .int 8 _, .int 8 _ => if d = .int 32 true then some 8 else none
  | .pb 1, .pb 1 => if d = .fp .fp32 then some 8 else none
  | .fx4, .fx4 => if d = .fp .fp32 then some 16 else none
  | _, _ => none
/-- Whether a format word is accepted by TMOP and TMOPS (R37, R228). -/
def mopFwOk (w : Word) : Bool :=
  fwReservedZero w && decide (fwRM w ≤ 4) &&
  (match Fmt.ofCode (fwFA w), Fmt.ofCode (fwFB w), Fmt.ofCode (fwFD w) with
    | some a, some b, some d => (mopGroup a b d).isSome
    | _, _, _ => false)

/-- TMOP and TMOPS at issue: the masks named are captured (R226). -/
def mopIssue (comp : Bool) (w : Nat) (ac : AccReg) (qa qb : PanelReg) (mr mc : MaskSel) (fr : FmtSel) (zero neg : Bool)
    (s : State) : Out :=
  let c := s.me
  let masked := mr != 0 || mc != 0
  tileGate masked w s (
    let fw := c.getG (fmtReg fr)
    if !mopFwOk fw then raise 0x03 fw s
    else if masked && c.vclear then .next (s.hold .waitUnit .vclear)
    else if masked && !(s.vqOf s.cur).isEmpty then .next (s.hold .waitUnit .vecDone)
    else
      let all : BitVec 64 := BitVec.allOnes 64
      let low := fun (k : MaskSel) => if k = 0 then all else (c.m.get (maskReg k)).extractLsb' 0 64
      let km : BitVec 256 := if comp then (c.m.get (maskReg mr)).extractLsb' 0 256 else BitVec.allOnes 256
      tilePush (s.tEntry (.mop comp ac qa qb (if comp then all else low mr) (low mc) km zero neg) fw 0 0 [] 0 none) false s)

/-- A row put in its place among rows in ascending order of address. -/
def insertRow (x : Nat × Nat) : List (Nat × Nat) → List (Nat × Nat)
  | [] => [x]
  | y :: t => if x.1 ≤ y.1 then x :: y :: t else y :: insertRow x t
/-- The row footprint sorted by address (R235). -/
def sortRows (l : List (Nat × Nat)) : List (Nat × Nat) := l.foldr insertRow []
/-- The ranges of a row: one that passes the top of the address space goes on at 0. -/
def splitRow (r : Nat × Nat) : List (Nat × Nat) :=
  if r.1 + r.2 ≤ 2 ^ 64 then [r] else [(r.1, 2 ^ 64 - r.1), (0, r.1 + r.2 - 2 ^ 64)]
/-- A footprint in ascending order of address. -/
def footOf (rows : List (Nat × Nat)) : List (Nat × Nat) := sortRows (rows.flatMap splitRow)
/-- The lowest byte of a footprint in the page of an address that has failed (R235): in the leaf that maps it, where there is one; with
translation off, the address itself (assumption 95). -/
def State.footLow (s : State) (w : Who) (rows : List (Nat × Nat)) (va : Nat) : Nat :=
  if !w.ptOn || inWindow va then va
  else match (s.tlbOf w).find? (·.hits w.asid va) with
    | none => va
    | some e => rows.foldl (fun m r => if e.va < r.1 + r.2 ∧ r.1 < e.va + 2 ^ e.log then min m (max r.1 e.va) else m) va
/-- The distinct pages of pieces. -/
def pageCount (ps : List Piece) : Nat :=
  ((ps.filterMap Piece.page).foldl (fun l p => if l.contains p then l else p :: l) ([] : List (Nat × Nat))).length
/-- The first address of a row and of each further 4 KiB that it touches. -/
def rowStarts (r : Nat × Nat) : List Nat :=
  (List.range ((r.1 % 4096 + r.2 - 1) / 4096 + 1)).map (fun j => if j = 0 then r.1 else (r.1 / 4096 + j) * 4096 % 2 ^ 64)
/-- The pages that a footprint would pin, before its translation (R235): leaves as the tables now give them, and 4 KiB where an
address does not translate. -/
def State.footPages (s : State) (w : Who) (k : Acc) (rows : List (Nat × Nat)) : Nat :=
  let page := fun (va : Nat) => match (s.translate w k va).2 with
    | .ok t => Piece.page ⟨va, t.loc, 1, t.uncached, t.ent, t.log⟩
    | .error _ => if inWindow va then none else some (va / 4096 * 4096, 12)
  (((rows.flatMap rowStarts).filterMap page).foldl (fun l p => if l.contains p then l else p :: l) ([] : List (Nat × Nat))).length

/-- Translation of ranges in order, the pieces of each beside it; the first that fails ends it. -/
def State.transEach (w : Who) (k : Acc) : List (Nat × Nat) → State → State × Except (Nat × Nat) (List ((Nat × Nat) × List Piece))
  | [], s => (s, .ok [])
  | r :: t, s =>
    match s.transSpan w k r.1 r.2 with
    | (s, .error x) => (s, .error x)
    | (s, .ok ps) =>
      match State.transEach w k t s with
      | (s, .error x) => (s, .error x)
      | (s, .ok l) => (s, .ok ((r, ps) :: l))
/-- The pieces of rows in their order of transfer, from the one translation of the footprint. -/
def rowPieces (l : List ((Nat × Nat) × List Piece)) (rows : List (Nat × Nat)) : List Piece :=
  (rows.flatMap splitRow).flatMap (fun r => ((l.find? (·.1 == r)).map (·.2)).getD [])
/-- The checks of a tile memory instruction at issue (R235): alignment of Ge(a) and Ge(b), the wait for pins, translation of the
footprint in ascending order, with TVAL at its lowest byte in the failing page; then it enters the queue with its pages pinned. -/
def tileMem (k : Acc) (align : Nat) (rows : List (Nat × Nat)) (a b : Word) (mk : State → List Piece → Nat → State × TEntry)
    (s : State) : Out :=
  if a.toNat % align ≠ 0 ∨ b.toNat % align ≠ 0 then raise 0x05 a s
  else
    let w := s.whoCtx s.cur
    if 512 < s.footPages w k rows + ((s.core (coreOf s.cur)).tq.foldl (fun t e => t + e.pages) 0) then
      .next (s.hold .waitUnit .tilePins)
    else match State.transEach w k (footOf rows) s with
    | (s, .error e) => raise e.1 (BitVec.ofNat 64 (s.footLow w (footOf rows) e.2)) s
    | (s, .ok l) =>
      let ps := rowPieces l rows
      if 8 ≤ (s.core (coreOf s.cur)).tq.length then .next (s.hold .waitUnit .tqFull)
      else
        let r := mk s ps (pageCount ps)
        tilePush r.2 false (r.1.pinPieces w true ps)

/-- Rows of len bytes at a stride (R232, R234). -/
def rowsOf (a b : Word) (n len : Nat) : List (Nat × Nat) :=
  (List.range n).map (fun i => ((a + BitVec.ofNat 64 i * b).toNat, len))

/-- The footprint of a tile load (R232). -/
def loadRows (trans band : Bool) (w : Nat) (a b : Word) : List (Nat × Nat) :=
  if band then (if trans then rowsOf a b 64 8 else rowsOf a b 8 64)
  else if trans then rowsOf a b 64 128 else rowsOf a b (panelDepth w) (8 * w)

/-- TLDQ, TLDQT and TMCAST at issue (R232, R233). -/
def tileLoad (trans band : Bool) (cast : State → Word → State × Option Nat) (w : Nat) (q : PanelReg) (a b : GReg) (fr : FmtSel)
    (s : State) : Out :=
  tileGate false w s (
    let fw := if band then 0 else s.g (fmtReg fr)
    let fa := faOf fw
    if !band && !(fwReservedZero fw && (match Fmt.ofCode (fwFA fw) with | some f => f.isPanel | none => false)) then raise 0x03 fw s
    else
      let x := s.g a
      let y := s.g b
      tileMem .load (if band then 1 else max 1 (fa.width / 8)) (loadRows trans band fa.width x y) x y
        (fun s ps n =>
          let c := cast s fw
          (c.1, s.tEntry (.load q trans band) fw x y ps n c.2)) s)

/-- The combined read that a TMCAST joins or begins: same gang, scope instance, ASID, operands and format, within 512 cycles
(R233). A context outside any gang never combines, and none joins a read of its own, which would hide its stores since (R226). One that
joins takes the bytes of the read also where it has performed an acquire or a barrier since (assumption 29). -/
def State.joinCast (s : State) (sc : CastScope) (a b : Word) (fw : Word) : State × Option Nat :=
  let c := s.me
  if c.gang = 0 then (s, none)
  else
    let k := coreOf s.cur
    let inst := match sc with
      | .quad => 4096 + quadOfCore k
      | .die => 8192 + dieOfCore k
      | _ => 0
    let used := fun (i : Nat) => s.cores.any (fun x => x.2.tq.any (fun e => e.cast == some i))
    let live := s.casts.filter (fun r => decide (s.cycles ≤ r.since + 512) || used r.id)
    match live.find? (fun r => decide (r.gang = c.gang.toNat ∧ r.inst = inst ∧ r.asid = c.asid.toNat ∧ r.a = a ∧ r.b = b ∧
        r.fa = fwFA fw ∧ s.cycles ≤ r.since + 512) && !r.ctxs.contains s.cur) with
    | some r => ({ s with casts := live.map (fun x => if x.id = r.id then { x with ctxs := s.cur :: x.ctxs } else x) }, some r.id)
    | none =>
      ({ s with
        casts := live ++ [⟨s.castSeq, c.gang.toNat, inst, c.asid.toNat, a, b, fwFA fw, s.cycles, none, [s.cur], []⟩]
        castSeq := s.castSeq + 1 }, some s.castSeq)

/-- Slices named by a TSLV or TVSL: how many, and the registers they occupy (R231). -/
def sliceCount (n : Fin 4) : Nat := 2 ^ n.val
def sliceRegs (lenLog n : Nat) : Nat := (n * 2048 + 2 ^ lenLog - 1) / 2 ^ lenLog
/-- The reserved-operand conditions of R231. -/
def sliceBad (s : State) (v : VReg) (s0 n : Nat) : Bool :=
  let r := sliceRegs s.me.vcap.toNat n
  decide (s.effVstart s.cur ≠ 0 ∨ 8 < r ∨ 64 < s0 + n ∨ 32 < v.val + r)

/-! Execution. -/

/-- A panel element's value; a block format takes the band byte of its K index (R228, R229). -/
def panelVal (f : Fmt) (ftz : Bool) (p : BitVec 65536) (band : BitVec 4096) (row col k : Nat) : Num :=
  fmtVal f ftz (if f.isBlock then bandByte band (k / 32) col else 0) (panelElem p f.width row col)

/-- A group's products as one value, exact: a NaN, an invalid product or infinity conflict, or the sum. The sign of a zero sum
is that of R45 and R49. -/
def groupSum (rm : RMode) (neg : Bool) (l : List (Num × Num)) : Exact :=
  if l.any (fun p => p.1.isNan || p.2.isNan) then .nan
  else
    let ps := l.map (fun p => (mulNum p.1 p.2).map (fun z => if neg then negNum z else z))
    if ps.any (·.isNone) then .invalid
    else
      let vs := ps.filterMap id
      let infs := vs.filterMap (fun v => match v with | .inf n => some n | _ => none)
      match infs with
      | n :: t => if t.all (· == n) then .inf n false else .invalid
      | [] =>
        let sum := vs.foldl (fun (a : Int × Int) v => match v with
          | .fin n m e =>
            let lo := min a.2 e
            (a.1 * 2 ^ (a.2 - lo).toNat + (if n then -1 else 1) * (m : Int) * 2 ^ (e - lo).toNat, lo)
          | _ => a) (0, 0)
        let signs := vs.map Num.sign
        let zeros := vs.all (fun v => match v with | .fin _ m _ => m == 0 | _ => false)
        if sum.1 = 0 then
          .fin (if zeros && signs.all (fun b => b) then true
            else if zeros && signs.all (fun b => !b) then false else rm == .rdn) 0 0 false
        else .fin (decide (sum.1 < 0)) sum.1.natAbs sum.2 false

/-- The accumulation of a group into an FP32 cell (R49): one rounding, row 1 of R43 before row 2. An exact zero of opposite signs is
+0, as R45 says of the sums of R49. -/
def accumulate (r : Rounding) (cell : Nat) (g : Exact) : Nat × FFlags :=
  let a := fpVal .fp32 r.ftz cell
  let t := match g with
    | .nan => Exact.nan
    | .invalid => if a.isNan then .nan else .invalid
    | .inf n _ => addNum .rne a (.inf n)
    | .fin n m e _ => addNum .rne a (.fin n m e)
  let y := toFp .fp32 r t
  (y.1, y.2 ||| sigFlag a)

/-- One cell of a TMOP or TMOPS: its groups in increasing order (R229). `src` gives the row of qa for a K index. -/
def mopCell (fa fb : Fmt) (r : Rounding) (neg : Bool) (pa pb : BitVec 65536) (ba bb : BitVec 4096)
    (ks : List (List (Nat × Nat))) (m n : Nat) (cell : Nat) : Nat × FFlags :=
  ks.foldl (fun (acc : Nat × FFlags) grp =>
    if grp.isEmpty then acc
    else match fa, fb with
      | .int wa sa, .int wb sb =>
        let s : Int := grp.foldl (fun t k => t + intOf wa sa (panelElem pa wa k.2 m) * intOf wb sb (panelElem pb wb k.1 n)) 0
        let y := intToInt 32 true r.sat 0 (intOf 32 true acc.1 + (if neg then -s else s))
        (y.1, acc.2 ||| y.2)
      | _, _ =>
        let xs := grp.map (fun k => (panelVal fa r.ftz pa ba k.2 m k.1, panelVal fb r.ftz pb bb k.1 n k.1))
        let sig := xs.foldl (fun f x => f ||| sigFlag x.1 ||| sigFlag x.2) 0
        let y := accumulate r acc.1 (groupSum r.rm neg xs)
        (y.1, acc.2 ||| y.2 ||| sig)) (cell, 0)

/-- The K indices that are on, by groups, each with the row of qa that supplies it (R229). -/
def mopGroups (comp : Bool) (depth g : Nat) (kmask : BitVec 256) : List (List (Nat × Nat)) :=
  (List.range (depth / g)).map (fun j =>
    ((List.range g).map (fun i => j * g + i)).filterMap (fun k =>
      if comp then (if kmask.getLsbD k then some (k, popGo kmask.toNat k) else none) else some (k, k)))

/-- TMOP and TMOPS (R229) on the core's tile state. -/
def Core.mop (c : Core) (e : TEntry) (comp : Bool) (ac : AccReg) (qa qb : PanelReg) (rows cols : BitVec 64)
    (kmask : BitVec 256) (zero neg : Bool) : Core :=
  let fa := faOf e.fw
  let fb := fbOf e.fw
  let g := (mopGroup fa fb (fdOf e.fw)).getD 1
  let r : Rounding := ⟨(RMode.ofCode (fwRM e.fw)).getD .rne, fwSat e.fw, fwFtz e.fw, 0⟩
  let ks := mopGroups comp (panelDepth fa.width) g kmask
  let old := c.acc.get ac
  let out := (List.range 4096).map (fun i =>
    let m := i / 64
    let n := i % 64
    if rows.getLsbD m && cols.getLsbD n then
      mopCell fa fb r neg (c.panel.get qa) (c.panel.get qb) (c.band.get qa) (c.band.get qb) ks m n (if zero then 0 else cellOf old i)
    else (cellOf old i, 0))
  (c.setAcc ac (BitVec.ofNat 131072 (packNat 32 (out.map (·.1))))).setTstat ac
    ((c.tstat.get ac).add (out.foldl (fun f x => f ||| x.2) 0))

/-- The panel that loaded bytes form (R232). -/
def panelOfBytes (trans : Bool) (w : Nat) (data : List Byte) : BitVec 65536 :=
  if !trans then BitVec.ofNat 65536 (leNat data)
  else
    let k := panelDepth w
    let rows := (List.range 64).map (fun m => leNat ((data.drop (128 * m)).take 128))
    BitVec.ofNat 65536 (packNat w ((List.range (64 * k)).map (fun i => (rows.getD (i % 64) 0) / 2 ^ (w * (i / 64)))))
/-- The band that loaded bytes form (R232). -/
def bandOfBytes (trans : Bool) (data : List Byte) : BitVec 4096 :=
  if !trans then BitVec.ofNat 4096 (leNat data)
  else BitVec.ofNat 4096 (leNat ((List.range 512).map (fun i => data.getD (i % 64 * 8 + i / 64) 0)))

/-- The bytes and flags of TSTA (R234). -/
def storeCells (e : TEntry) (x : BitVec 131072) : List Byte × FFlags :=
  let fa := faOf e.fw
  let fd := fdOf e.fw
  let rm := (RMode.ofCode (fwRM e.fw)).getD .rne
  let out := (List.range 4096).map (fun i =>
    let v := fmtVal fa (fwFtz e.fw) 0 (cellOf x i)
    let r : Rounding := ⟨rm, fwSat e.fw, fwFtz e.fw,
      if rm = .sr then (rand e.seed (fwSalt e.fw) e.stripbase i).toNat % 2 ^ 24 else 0⟩
    let y := toFmt fd r 0 v.exact
    (y.1, y.2 ||| sigFlag v))
  (out.flatMap (fun y => leBytes (fd.width / 8) y.1), out.foldl (fun f y => f ||| y.2) 0)

/-- The maker of a tile instruction's accesses. -/
def TEntry.who (e : TEntry) : Who := ⟨e.ctx, true, true, 0, e.asid, e.dlog, none⟩

/-- The accumulator that an instruction reads or writes, and whether it is poisoned by an error not yet found (R222, R223). -/
def TOp.acc : TOp → Option AccReg
  | .mop _ ac .. => some ac
  | .zero ac _ => some ac
  | .store ac _ => some ac
  | .slv ac .. => some ac
  | .vsl ac .. => some ac
  | .save (.acc ac) => some ac
  | _ => none
/-- Whether an arithmetic instruction reads a panel, or the band of a block format, with an uncorrectable error (R223, case 2). -/
def Core.badSource (c : Core) (e : TEntry) : Bool :=
  match e.op with
  | .mop _ _ qa qb _ _ _ _ _ =>
    c.badPanel.getLsbD qa.val || c.badPanel.getLsbD qb.val ||
    ((faOf e.fw).isBlock && (c.badBand.getLsbD qa.val || c.badBand.getLsbD qb.val))
  | _ => false
/-- Whether an instruction is tile arithmetic, whose results are checked (R222, R223). -/
def TOp.arith : TOp → Bool
  | .mop .. => true
  | .zero .. => true
  | .vsl .. => true
  | _ => false

/-- Whether an instruction is one that performs nothing on an accumulator whose POISON bit is set (case 5 of R223, R229). -/
def TOp.heedsPoison : TOp → Bool
  | .mop .. => true
  | .store .. => true
  | .slv .. => true
  | _ => false

/-- Cases 1 to 3 of R223: a check that fails, or an uncorrectable error found in what an instruction reads or writes, poisons its
accumulator. Where the POISON bit is set already, case 5 comes first for the instructions that heed it: they read nothing. -/
def Core.found (c : Core) (e : TEntry) : Core × Bool :=
  match e.op.acc with
  | none => (c, false)
  | some ac =>
    let bit := 1#8 <<< ac.val
    if e.op.heedsPoison && (c.tstat.get ac).poison then (c, false)
    else if c.badAcc.getLsbD ac.val || c.badSource e || (e.op.arith && c.badCheck.getLsbD ac.val) then
      (({ c with badAcc := c.badAcc &&& ~~~bit, badCheck := if e.op.arith then c.badCheck &&& ~~~bit else c.badCheck }.poisonAcc
        ac).tileError e.ctx e.pc, true)
    else (c, false)

/-- A store by the tile unit: at the core, under the dirty log (R226, R274); none where its place has been closed (assumption 77). -/
def State.tileWrite (s : State) (e : TEntry) (data : List Byte) : State :=
  match s.closedPiece (regionOf e.ctx) e.pieces with
  | some p => s.dropWrite p.loc
  | none => (s.dlogPieces e.who e.pieces).coreWrite e.ctx e.pieces data

/-- The bytes of a tile load with the poison of each; a combined TMCAST takes those of the shared read (R233). A place that has been
closed since the issue gives a tile error, as poison does (R223, R391; assumption 77). -/
def State.tileRead (s : State) (e : TEntry) : State × List (Byte × Bool) :=
  let fresh := fun (s : State) =>
    let s' := s.coreRead e.ctx (e.pieces.filter (fun p => !s.closed (regionOf e.ctx) (p.loc.plus (p.len - 1))))
    (s', (pieceLocs e.pieces).map (fun l => (s.byteAt l, s.closed (regionOf e.ctx) l || (s.poisonAt (some (coreOf e.ctx)) l 1).isSome)))
  match e.cast with
  | none => fresh s
  | some i =>
    match (s.casts.find? (·.id == i)).bind (·.data) with
    | some d => (s, d)
    | none =>
      let r := fresh s
      ({ r.1 with casts := r.1.casts.map (fun c => if c.id = i then { c with data := some r.2, from_ := e.pieces } else c) }, r.2)

/-- What a tile instruction does when it executes (R223, R229 to R236). A TSAVE of a panel or band with an uncorrectable error writes
zeros for it and raises a tile error; R223 names no memory image for that case (assumption 30). A TRSTR whose TSTAT byte is
poisoned leaves POISON as it is (R223, case 4); one whose cells alone are poisoned loads it with the image (R236; assumption 30). -/
def State.tileDo (s : State) (e : TEntry) : State :=
  let k := coreOf e.ctx
  let f := (s.core k).found e
  let s := if f.2 then s.setCore k f.1 else s
  let c := s.core k
  let err := fun (s : State) => s.modCore k (·.tileError e.ctx e.pc)
  match e.op with
  | .mop comp ac qa qb rows cols km zero neg =>
    if f.2 then s
    else if (c.tstat.get ac).poison then err s
    else s.setCore k (c.mop e comp ac qa qb rows cols km zero neg)
  | .zero ac clrf =>
    if f.2 then s
    else
      let c := c.setAcc ac 0
      s.setCore k (if clrf then c.setTstat ac ⟨false, false, false, false, false⟩ else c)
  | .load q tr band =>
    let r := s.tileRead e
    let data := r.2.map (fun b => if b.2 then (0 : Byte) else b.1)
    let bad := r.2.any (·.2)
    let s := r.1.modCore k (fun c =>
      if band then { (c.setBand q (bandOfBytes tr data)) with badBand := c.badBand &&& ~~~(1#16 <<< q.val) }
      else { (c.setPanel q (panelOfBytes tr (faOf e.fw).width data)) with badPanel := c.badPanel &&& ~~~(1#16 <<< q.val) })
    if bad then err s else s
  | .store ac zero =>
    if (c.tstat.get ac).poison then err s
    else
      let r := storeCells e (c.acc.get ac)
      (s.tileWrite e r.1).modCore k (fun c =>
        let c := c.setTstat ac ((c.tstat.get ac).add r.2)
        if zero then c.setAcc ac 0 else c)
  | .slv ac v s0 n col =>
    if (c.tstat.get ac).poison then err s
    else
      let x := c.acc.get ac
      s.modCtx e.ctx (fun y => (List.range (64 * n)).foldl (fun y i =>
        let t := s0 + i / 64
        y.setElem e.lenLog v.val 32 i (cellOf x (if col then 64 * (i % 64) + t else 64 * t + i % 64))) y)
  | .vsl ac s0 n col cells =>
    if f.2 then s
    else s.setCore k (c.setAcc ac (setCells (c.acc.get ac) ((List.range (64 * n)).map (fun i =>
      let t := s0 + i / 64
      (if col then 64 * (i % 64) + t else 64 * t + i % 64, (cells.getD i 0).toNat)))))
  | .save (.acc ac) =>
    s.tileWrite e (leBytes 16384 (c.acc.get ac).toNat ++ [BitVec.ofNat 8 (c.tstat.get ac).byte] ++ List.replicate 63 0)
  | .save (.panel q) =>
    let bad := c.badPanel.getLsbD q.val
    let badBand := c.badBand.getLsbD q.val
    let s := s.tileWrite e ((if bad then List.replicate 8192 0 else leBytes 8192 (c.panel.get q).toNat) ++
      (if badBand then List.replicate 512 0 else leBytes 512 (c.band.get q).toNat))
    if bad || badBand then err s else s
  | .rstr t =>
    let r := s.tileRead e
    let data := r.2.map (fun b => if b.2 then (0 : Byte) else b.1)
    let s := r.1.modCore k (fun c => match t with
      | .acc ac => { ((c.setAcc ac (BitVec.ofNat 131072 (leNat (data.take 16384)))).setTstat ac
          (let f := TFlags.ofByte (data.getD 16384 0).toNat
            if (r.2.getD 16384 (0, false)).2 then { f with poison := (c.tstat.get ac).poison } else f)) with
            badAcc := c.badAcc &&& ~~~(1#8 <<< ac.val) }
      | .panel q => { ((c.setPanel q (BitVec.ofNat 65536 (leNat (data.take 8192)))).setBand q
          (BitVec.ofNat 4096 (leNat (data.drop 8192)))) with
            badPanel := c.badPanel &&& ~~~(1#16 <<< q.val), badBand := c.badBand &&& ~~~(1#16 <<< q.val) })
    if r.2.any (·.2) then err s else s

/-- Whether an instruction stores. -/
def TOp.stores : TOp → Bool | .store _ _ => true | .save _ => true | _ => false

/-- TILE_EXECUTE (R225): the oldest queued instruction is performed, in queue order. A memory instruction follows its context's
earlier buffered stores (R226, R286) and waits for a line that an engine owns (R298) or, storing, that a reservation holds back
(R305). -/
def execTileExecute (k : CoreId) (s : State) : Out :=
  match (s.core k.val).tq with
  | [] => notEnabled "TILE_EXECUTE"
  | e :: rest =>
    if e.started || (!e.pieces.isEmpty && (s.ctx e.ctx).sb.any (fun b => decide (b.seq < e.seq))) || s.engineOwns (pieceLocs e.pieces) ||
        (e.op.stores && s.heldBack (some e.ctx) (s.dlogLocs e.who e.pieces ++ pieceLocs e.pieces)) then notEnabled "TILE_EXECUTE"
    else .next ((s.tileDo e).modCore k.val (fun c => { c with tq := { e with started := true } :: rest }))

/-- TILE_COMPLETE (R225): the oldest instruction leaves the queue, its pins are released and counter T falls. -/
def execTileComplete (k : CoreId) (s : State) : Out :=
  match (s.core k.val).tq with
  | [] => notEnabled "TILE_COMPLETE"
  | e :: rest =>
    if !e.started then notEnabled "TILE_COMPLETE"
    else
      .next ((((s.pinPieces e.who false e.pieces).modCore k.val (fun c => { c with tq := rest })).modCtx e.ctx (fun x =>
        { x with cntT := x.cntT - 1, iret := x.iret + 1, trapRun := 0 })).count e.ctx 0x0A 1)

/-! The instructions at issue. -/

def execTmop (ac : AccReg) (qa qb : PanelReg) (mr mc : MaskSel) (fr : FmtSel) (zero neg : Bool) (s : State) : Out :=
  mopIssue false (wordTmop ac qa qb mr mc fr zero neg) ac qa qb mr mc fr zero neg s
def execTmops (ac : AccReg) (qa qb : PanelReg) (mr mc : MaskSel) (fr : FmtSel) (zero neg : Bool) (s : State) : Out :=
  mopIssue true (wordTmops ac qa qb mr mc fr zero neg) ac qa qb mr mc fr zero neg s
def execTzero (ac : AccReg) (clrf : Bool) (s : State) : Out :=
  tileGate false (wordTzero ac clrf) s (tilePush (s.tEntry (.zero ac clrf) 0 0 0 [] 0 none) false s)
def execTldq (q : PanelReg) (a b : GReg) (fr : FmtSel) (sb : Bool) (s : State) : Out :=
  tileLoad false sb (fun s _ => (s, none)) (wordTldq q a b fr sb) q a b fr s
def execTldqt (q : PanelReg) (a b : GReg) (fr : FmtSel) (sb : Bool) (s : State) : Out :=
  tileLoad true sb (fun s _ => (s, none)) (wordTldqt q a b fr sb) q a b fr s
def execTmcast (q : PanelReg) (a b : GReg) (fr : FmtSel) (sc : CastScope) (s : State) : Out :=
  tileLoad false false (fun s fw => s.joinCast sc (s.g a) (s.g b) fw) (wordTmcast q a b fr sc) q a b fr s
/-- TSTA (R234). -/
def execTsta (ac : AccReg) (a b : GReg) (fr : FmtSel) (zero : Bool) (s : State) : Out :=
  tileGate false (wordTsta ac a b fr zero) s (
    let fw := s.g (fmtReg fr)
    let ok := fwOk ⟨some (fun x => decide (x = .fp .fp32 ∨ x = .int 32 true)), none, some (fun _ y => y.isF || y.isI), some 5⟩ fw
    if !ok then raise 0x03 fw s
    else
      let w := (fdOf fw).width
      let x := s.g a
      let y := s.g b
      tileMem .store (w / 8) (rowsOf x y 64 (8 * w)) x y (fun s ps n => (s, s.tEntry (.store ac zero) fw x y ps n none)) s)
/-- TSLV (R226, R231): waits at issue for the context's earlier vector instructions and for a TSLV to the same registers. -/
def execTslv (ac : AccReg) (v : VReg) (i : GReg) (n : Fin 4) (col : Bool) (s : State) : Out :=
  tileGate true (wordTslv ac v i n col) s (
    let s0 := (s.g i).toNat
    if sliceBad s v s0 (sliceCount n) then raiseReserved (wordTslv ac v i n col) s
    else if s.me.vclear then .next (s.hold .waitUnit .vclear)
    else if !(s.vqOf s.cur).isEmpty then .next (s.hold .waitUnit .vecDone)
    else if s.slvPending s.cur [⟨v.val, 16 * sliceRegs s.me.vcap.toNat (sliceCount n), true⟩] then .next (s.hold .waitReg .vReg)
    else tilePush (s.tEntry (.slv ac v s0 (sliceCount n) col) 0 0 0 [] 0 none) true s)
/-- TVSL (R226, R231): the source registers are captured at issue. -/
def execTvsl (ac : AccReg) (v : VReg) (i : GReg) (n : Fin 4) (col : Bool) (s : State) : Out :=
  tileGate true (wordTvsl ac v i n col) s (
    let s0 := (s.g i).toNat
    let c := s.me
    if sliceBad s v s0 (sliceCount n) then raiseReserved (wordTvsl ac v i n col) s
    else if c.vclear then .next (s.hold .waitUnit .vclear)
    else if !(s.vqOf s.cur).isEmpty then .next (s.hold .waitUnit .vecDone)
    else if s.slvPending s.cur [⟨v.val, 16 * sliceRegs c.vcap.toNat (sliceCount n), false⟩] then .next (s.hold .waitReg .vReg)
    else
      let cells := (List.range (64 * sliceCount n)).map (fun j => BitVec.ofNat 32 (c.elem c.vcap.toNat v.val 32 j))
      tilePush (s.tEntry (.vsl ac s0 (sliceCount n) col cells) 0 0 0 [] 0 none) false s)
/-- Bytes of an image (R236). -/
def imageSize : TileItem → Nat | .acc _ => 16448 | .panel _ => 8704
def execTsave (t : TileItem) (a : GReg) (s : State) : Out :=
  tileGate false (wordTsave t a) s (
    let x := s.g a
    tileMem .store 64 [(x.toNat, imageSize t)] x 0 (fun s ps n => (s, s.tEntry (.save t) 0 x 0 ps n none)) s)
def execTrstr (t : TileItem) (a : GReg) (s : State) : Out :=
  tileGate false (wordTrstr t a) s (
    let x := s.g a
    tileMem .load 64 [(x.toNat, imageSize t)] x 0 (fun s ps n => (s, s.tEntry (.rstr t) 0 x 0 ps n none)) s)

end Sys2Proof.Machine
end

