-- ==== Sys2Proof/Machine/Vector.lean ====
section
/-! DEFINITION. The vector instructions (R144 to R211): each names its function for the shared dispatch of R56 and R97. What
the function does to the registers and memory is VectorExec.lean and VectorMem.lean. -/

namespace Sys2Proof.Machine

/-! Integer element arithmetic (R155, R156). -/

def execVadd (d a b : VReg) (mk : MaskSel) (s : State) : Out :=
  vDispatch (wordVadd d a b mk) (.int .add d a (.vec b)) mk none 0 0 s
def execVsub (d a b : VReg) (mk : MaskSel) (s : State) : Out :=
  vDispatch (wordVsub d a b mk) (.int .sub d a (.vec b)) mk none 0 0 s
def execVmul (d a b : VReg) (mk : MaskSel) (s : State) : Out :=
  vDispatch (wordVmul d a b mk) (.int .mul d a (.vec b)) mk none 0 0 s
def execVmulh (d a b : VReg) (mk : MaskSel) (s : State) : Out :=
  vDispatch (wordVmulh d a b mk) (.int .mulh d a (.vec b)) mk none 0 0 s
def execVmulhu (d a b : VReg) (mk : MaskSel) (s : State) : Out :=
  vDispatch (wordVmulhu d a b mk) (.int .mulhu d a (.vec b)) mk none 0 0 s
def execVmin (d a b : VReg) (mk : MaskSel) (s : State) : Out :=
  vDispatch (wordVmin d a b mk) (.int .min d a (.vec b)) mk none 0 0 s
def execVmax (d a b : VReg) (mk : MaskSel) (s : State) : Out :=
  vDispatch (wordVmax d a b mk) (.int .max d a (.vec b)) mk none 0 0 s
def execVminu (d a b : VReg) (mk : MaskSel) (s : State) : Out :=
  vDispatch (wordVminu d a b mk) (.int .minu d a (.vec b)) mk none 0 0 s
def execVmaxu (d a b : VReg) (mk : MaskSel) (s : State) : Out :=
  vDispatch (wordVmaxu d a b mk) (.int .maxu d a (.vec b)) mk none 0 0 s
def execVand (d a b : VReg) (mk : MaskSel) (s : State) : Out :=
  vDispatch (wordVand d a b mk) (.int .and d a (.vec b)) mk none 0 0 s
def execVor (d a b : VReg) (mk : MaskSel) (s : State) : Out :=
  vDispatch (wordVor d a b mk) (.int .or d a (.vec b)) mk none 0 0 s
def execVxor (d a b : VReg) (mk : MaskSel) (s : State) : Out :=
  vDispatch (wordVxor d a b mk) (.int .xor d a (.vec b)) mk none 0 0 s
def execVshl (d a b : VReg) (mk : MaskSel) (s : State) : Out :=
  vDispatch (wordVshl d a b mk) (.int .shl d a (.vec b)) mk none 0 0 s
def execVshr (d a b : VReg) (mk : MaskSel) (s : State) : Out :=
  vDispatch (wordVshr d a b mk) (.int .shr d a (.vec b)) mk none 0 0 s
def execVsra (d a b : VReg) (mk : MaskSel) (s : State) : Out :=
  vDispatch (wordVsra d a b mk) (.int .sra d a (.vec b)) mk none 0 0 s
def execVadds (d a b : VReg) (mk : MaskSel) (s : State) : Out :=
  vDispatch (wordVadds d a b mk) (.int .adds d a (.vec b)) mk none 0 0 s
def execVaddsu (d a b : VReg) (mk : MaskSel) (s : State) : Out :=
  vDispatch (wordVaddsu d a b mk) (.int .addsu d a (.vec b)) mk none 0 0 s
def execVsubs (d a b : VReg) (mk : MaskSel) (s : State) : Out :=
  vDispatch (wordVsubs d a b mk) (.int .subs d a (.vec b)) mk none 0 0 s
def execVsubsu (d a b : VReg) (mk : MaskSel) (s : State) : Out :=
  vDispatch (wordVsubsu d a b mk) (.int .subsu d a (.vec b)) mk none 0 0 s
def execVavg (d a b : VReg) (mk : MaskSel) (s : State) : Out :=
  vDispatch (wordVavg d a b mk) (.int .avg d a (.vec b)) mk none 0 0 s
def execVabsd (d a b : VReg) (mk : MaskSel) (s : State) : Out :=
  vDispatch (wordVabsd d a b mk) (.int .absd d a (.vec b)) mk none 0 0 s
def execVaddVx (d a : VReg) (b : GReg) (mk : MaskSel) (s : State) : Out :=
  vDispatch (wordVaddVx d a b mk) (.int .add d a .scal) mk none 0 (s.g b) s
def execVsubVx (d a : VReg) (b : GReg) (mk : MaskSel) (s : State) : Out :=
  vDispatch (wordVsubVx d a b mk) (.int .sub d a .scal) mk none 0 (s.g b) s
def execVmulVx (d a : VReg) (b : GReg) (mk : MaskSel) (s : State) : Out :=
  vDispatch (wordVmulVx d a b mk) (.int .mul d a .scal) mk none 0 (s.g b) s
def execVmulhVx (d a : VReg) (b : GReg) (mk : MaskSel) (s : State) : Out :=
  vDispatch (wordVmulhVx d a b mk) (.int .mulh d a .scal) mk none 0 (s.g b) s
def execVmulhuVx (d a : VReg) (b : GReg) (mk : MaskSel) (s : State) : Out :=
  vDispatch (wordVmulhuVx d a b mk) (.int .mulhu d a .scal) mk none 0 (s.g b) s
def execVminVx (d a : VReg) (b : GReg) (mk : MaskSel) (s : State) : Out :=
  vDispatch (wordVminVx d a b mk) (.int .min d a .scal) mk none 0 (s.g b) s
def execVmaxVx (d a : VReg) (b : GReg) (mk : MaskSel) (s : State) : Out :=
  vDispatch (wordVmaxVx d a b mk) (.int .max d a .scal) mk none 0 (s.g b) s
def execVminuVx (d a : VReg) (b : GReg) (mk : MaskSel) (s : State) : Out :=
  vDispatch (wordVminuVx d a b mk) (.int .minu d a .scal) mk none 0 (s.g b) s
def execVmaxuVx (d a : VReg) (b : GReg) (mk : MaskSel) (s : State) : Out :=
  vDispatch (wordVmaxuVx d a b mk) (.int .maxu d a .scal) mk none 0 (s.g b) s
def execVandVx (d a : VReg) (b : GReg) (mk : MaskSel) (s : State) : Out :=
  vDispatch (wordVandVx d a b mk) (.int .and d a .scal) mk none 0 (s.g b) s
def execVorVx (d a : VReg) (b : GReg) (mk : MaskSel) (s : State) : Out :=
  vDispatch (wordVorVx d a b mk) (.int .or d a .scal) mk none 0 (s.g b) s
def execVxorVx (d a : VReg) (b : GReg) (mk : MaskSel) (s : State) : Out :=
  vDispatch (wordVxorVx d a b mk) (.int .xor d a .scal) mk none 0 (s.g b) s
def execVshlVx (d a : VReg) (b : GReg) (mk : MaskSel) (s : State) : Out :=
  vDispatch (wordVshlVx d a b mk) (.int .shl d a .scal) mk none 0 (s.g b) s
def execVshrVx (d a : VReg) (b : GReg) (mk : MaskSel) (s : State) : Out :=
  vDispatch (wordVshrVx d a b mk) (.int .shr d a .scal) mk none 0 (s.g b) s
def execVsraVx (d a : VReg) (b : GReg) (mk : MaskSel) (s : State) : Out :=
  vDispatch (wordVsraVx d a b mk) (.int .sra d a .scal) mk none 0 (s.g b) s
def execVaddsVx (d a : VReg) (b : GReg) (mk : MaskSel) (s : State) : Out :=
  vDispatch (wordVaddsVx d a b mk) (.int .adds d a .scal) mk none 0 (s.g b) s
def execVaddsuVx (d a : VReg) (b : GReg) (mk : MaskSel) (s : State) : Out :=
  vDispatch (wordVaddsuVx d a b mk) (.int .addsu d a .scal) mk none 0 (s.g b) s
def execVsubsVx (d a : VReg) (b : GReg) (mk : MaskSel) (s : State) : Out :=
  vDispatch (wordVsubsVx d a b mk) (.int .subs d a .scal) mk none 0 (s.g b) s
def execVsubsuVx (d a : VReg) (b : GReg) (mk : MaskSel) (s : State) : Out :=
  vDispatch (wordVsubsuVx d a b mk) (.int .subsu d a .scal) mk none 0 (s.g b) s
def execVavgVx (d a : VReg) (b : GReg) (mk : MaskSel) (s : State) : Out :=
  vDispatch (wordVavgVx d a b mk) (.int .avg d a .scal) mk none 0 (s.g b) s
def execVabsdVx (d a : VReg) (b : GReg) (mk : MaskSel) (s : State) : Out :=
  vDispatch (wordVabsdVx d a b mk) (.int .absd d a .scal) mk none 0 (s.g b) s
def execVnarrow (d a : VReg) (mk : MaskSel) (fr : FmtSel) (s : State) : Out :=
  vDispatch (wordVnarrow d a mk fr) (.narrow d a) mk (some fr) 0 0 s

/-! Compares and merge (R157, R158). -/

def execVceq (d : MReg) (a b : VReg) (mk : MaskSel) (s : State) : Out :=
  vDispatch (wordVceq d a b mk) (.cmp .eq d a b) mk none 0 0 s
def execVcne (d : MReg) (a b : VReg) (mk : MaskSel) (s : State) : Out :=
  vDispatch (wordVcne d a b mk) (.cmp .ne d a b) mk none 0 0 s
def execVclt (d : MReg) (a b : VReg) (mk : MaskSel) (s : State) : Out :=
  vDispatch (wordVclt d a b mk) (.cmp .lt d a b) mk none 0 0 s
def execVcle (d : MReg) (a b : VReg) (mk : MaskSel) (s : State) : Out :=
  vDispatch (wordVcle d a b mk) (.cmp .le d a b) mk none 0 0 s
def execVcltu (d : MReg) (a b : VReg) (mk : MaskSel) (s : State) : Out :=
  vDispatch (wordVcltu d a b mk) (.cmp .ltu d a b) mk none 0 0 s
def execVcleu (d : MReg) (a b : VReg) (mk : MaskSel) (s : State) : Out :=
  vDispatch (wordVcleu d a b mk) (.cmp .leu d a b) mk none 0 0 s
def execVmerge (d a b : VReg) (mk : MaskSel) (s : State) : Out :=
  vDispatch (wordVmerge d a b mk) (.merge d a b) mk none 0 0 s

/-! Floating point (R177 to R184). -/

def execVfadd (d a b : VReg) (mk : MaskSel) (fr : FmtSel) (s : State) : Out :=
  vDispatch (wordVfadd d a b mk fr) (.fbin .add d a (.vec b)) mk (some fr) 0 0 s
def execVfsub (d a b : VReg) (mk : MaskSel) (fr : FmtSel) (s : State) : Out :=
  vDispatch (wordVfsub d a b mk fr) (.fbin .sub d a (.vec b)) mk (some fr) 0 0 s
def execVfmul (d a b : VReg) (mk : MaskSel) (fr : FmtSel) (s : State) : Out :=
  vDispatch (wordVfmul d a b mk fr) (.fbin .mul d a (.vec b)) mk (some fr) 0 0 s
def execVfdiv (d a b : VReg) (mk : MaskSel) (fr : FmtSel) (s : State) : Out :=
  vDispatch (wordVfdiv d a b mk fr) (.fbin .div d a (.vec b)) mk (some fr) 0 0 s
def execVfmin (d a b : VReg) (mk : MaskSel) (fr : FmtSel) (s : State) : Out :=
  vDispatch (wordVfmin d a b mk fr) (.fbin .min d a (.vec b)) mk (some fr) 0 0 s
def execVfmax (d a b : VReg) (mk : MaskSel) (fr : FmtSel) (s : State) : Out :=
  vDispatch (wordVfmax d a b mk fr) (.fbin .max d a (.vec b)) mk (some fr) 0 0 s
def execVfscale (d a b : VReg) (mk : MaskSel) (fr : FmtSel) (s : State) : Out :=
  vDispatch (wordVfscale d a b mk fr) (.fbin .scale d a (.vec b)) mk (some fr) 0 0 s
def execVfaddVx (d a : VReg) (b : GReg) (mk : MaskSel) (fr : FmtSel) (s : State) : Out :=
  vDispatch (wordVfaddVx d a b mk fr) (.fbin .add d a .scal) mk (some fr) 0 (s.g b) s
def execVfsubVx (d a : VReg) (b : GReg) (mk : MaskSel) (fr : FmtSel) (s : State) : Out :=
  vDispatch (wordVfsubVx d a b mk fr) (.fbin .sub d a .scal) mk (some fr) 0 (s.g b) s
def execVfmulVx (d a : VReg) (b : GReg) (mk : MaskSel) (fr : FmtSel) (s : State) : Out :=
  vDispatch (wordVfmulVx d a b mk fr) (.fbin .mul d a .scal) mk (some fr) 0 (s.g b) s
def execVfdivVx (d a : VReg) (b : GReg) (mk : MaskSel) (fr : FmtSel) (s : State) : Out :=
  vDispatch (wordVfdivVx d a b mk fr) (.fbin .div d a .scal) mk (some fr) 0 (s.g b) s
def execVfminVx (d a : VReg) (b : GReg) (mk : MaskSel) (fr : FmtSel) (s : State) : Out :=
  vDispatch (wordVfminVx d a b mk fr) (.fbin .min d a .scal) mk (some fr) 0 (s.g b) s
def execVfmaxVx (d a : VReg) (b : GReg) (mk : MaskSel) (fr : FmtSel) (s : State) : Out :=
  vDispatch (wordVfmaxVx d a b mk fr) (.fbin .max d a .scal) mk (some fr) 0 (s.g b) s
def execVfscaleVx (d a : VReg) (b : GReg) (mk : MaskSel) (fr : FmtSel) (s : State) : Out :=
  vDispatch (wordVfscaleVx d a b mk fr) (.fbin .scale d a .scal) mk (some fr) 0 (s.g b) s
def execVfsqrt (d a : VReg) (mk : MaskSel) (fr : FmtSel) (s : State) : Out :=
  vDispatch (wordVfsqrt d a mk fr) (.fun1 .sqrt d a) mk (some fr) 0 0 s
def execVfrcp (d a : VReg) (mk : MaskSel) (fr : FmtSel) (s : State) : Out :=
  vDispatch (wordVfrcp d a mk fr) (.fun1 .rcp d a) mk (some fr) 0 0 s
def execVfrsq (d a : VReg) (mk : MaskSel) (fr : FmtSel) (s : State) : Out :=
  vDispatch (wordVfrsq d a mk fr) (.fun1 .rsq d a) mk (some fr) 0 0 s
def execVfexp2 (d a : VReg) (mk : MaskSel) (fr : FmtSel) (s : State) : Out :=
  vDispatch (wordVfexp2 d a mk fr) (.fun1 .exp2 d a) mk (some fr) 0 0 s
def execVflog2 (d a : VReg) (mk : MaskSel) (fr : FmtSel) (s : State) : Out :=
  vDispatch (wordVflog2 d a mk fr) (.fun1 .log2 d a) mk (some fr) 0 0 s
def execVfabs (d a : VReg) (mk : MaskSel) (fr : FmtSel) (s : State) : Out :=
  vDispatch (wordVfabs d a mk fr) (.fun1 .abs d a) mk (some fr) 0 0 s
def execVfneg (d a : VReg) (mk : MaskSel) (fr : FmtSel) (s : State) : Out :=
  vDispatch (wordVfneg d a mk fr) (.fun1 .neg d a) mk (some fr) 0 0 s
/-- The VFPX form of VFSQRT: b names a register and its value is not used (R178). -/
def execVfsqrtVx (d a : VReg) (b : GReg) (mk : MaskSel) (fr : FmtSel) (s : State) : Out :=
  vDispatch (wordVfsqrtVx d a b mk fr) (.fun1 .sqrt d a) mk (some fr) 0 (s.g b) s
def execVfcvt (d a b : VReg) (mk : MaskSel) (fr : FmtSel) (s : State) : Out :=
  vDispatch (wordVfcvt d a b mk fr) (.cvt d a b) mk (some fr) 0 0 s
def execVfceq (d : MReg) (a b : VReg) (mk : MaskSel) (fr : FmtSel) (s : State) : Out :=
  vDispatch (wordVfceq d a b mk fr) (.fcmp .eq d a b) mk (some fr) 0 0 s
def execVfclt (d : MReg) (a b : VReg) (mk : MaskSel) (fr : FmtSel) (s : State) : Out :=
  vDispatch (wordVfclt d a b mk fr) (.fcmp .lt d a b) mk (some fr) 0 0 s
def execVfcle (d : MReg) (a b : VReg) (mk : MaskSel) (fr : FmtSel) (s : State) : Out :=
  vDispatch (wordVfcle d a b mk fr) (.fcmp .le d a b) mk (some fr) 0 0 s
def execVfcun (d : MReg) (a b : VReg) (mk : MaskSel) (fr : FmtSel) (s : State) : Out :=
  vDispatch (wordVfcun d a b mk fr) (.fcmp .un d a b) mk (some fr) 0 0 s
def execVfclass (d a : VReg) (mk : MaskSel) (fr : FmtSel) (s : State) : Out :=
  vDispatch (wordVfclass d a mk fr) (.fclass d a) mk (some fr) 0 0 s
def execVfnf (d : MReg) (a : VReg) (mk : MaskSel) (fr : FmtSel) (s : State) : Out :=
  vDispatch (wordVfnf d a mk fr) (.nf d a) mk (some fr) 0 0 s
def execVfma (d a b c : VReg) (mk : MaskSel) (fr : FmtSel) (s : State) : Out :=
  vDispatch (wordVfma d a b c mk fr) (.fma false d a b c) mk (some fr) 0 0 s
def execVfnma (d a b c : VReg) (mk : MaskSel) (fr : FmtSel) (s : State) : Out :=
  vDispatch (wordVfnma d a b c mk fr) (.fma true d a b c) mk (some fr) 0 0 s
def execVima (d a b c : VReg) (mk : MaskSel) (fr : FmtSel) (s : State) : Out :=
  vDispatch (wordVima d a b c mk fr) (.ima d a b c) mk (some fr) 0 0 s

/-! Planar formats (R190 to R192) and pixels (R211). -/

def execVplhead (d a : VReg) (mk : MaskSel) (fr : FmtSel) (s : State) : Out :=
  vDispatch (wordVplhead d a mk fr) (.plhead d a) mk (some fr) 0 0 s
def execVplstep (d a b c : VReg) (mk : MaskSel) (fr : FmtSel) (s : State) : Out :=
  vDispatch (wordVplstep d a b c mk fr) (.plstep d a b c) mk (some fr) 0 0 s
def execVplresc (d a b : VReg) (mk : MaskSel) (fr : FmtSel) (s : State) : Out :=
  vDispatch (wordVplresc d a b mk fr) (.plresc d a b) mk (some fr) 0 0 s
def execVunpk (d a : VReg) (mk : MaskSel) (fr : FmtSel) (s : State) : Out :=
  vDispatch (wordVunpk d a mk fr) (.unpk d a) mk (some fr) 0 0 s

/-! Reductions (R186 to R189). -/

def execVredsum (d a b : VReg) (mk : MaskSel) (s : State) : Out :=
  vDispatch (wordVredsum d a b mk) (.red .sum d a b) mk none 0 0 s
def execVredmax (d a b : VReg) (mk : MaskSel) (s : State) : Out :=
  vDispatch (wordVredmax d a b mk) (.red .max d a b) mk none 0 0 s
def execVredmin (d a b : VReg) (mk : MaskSel) (s : State) : Out :=
  vDispatch (wordVredmin d a b mk) (.red .min d a b) mk none 0 0 s
def execVredmaxu (d a b : VReg) (mk : MaskSel) (s : State) : Out :=
  vDispatch (wordVredmaxu d a b mk) (.red .maxu d a b) mk none 0 0 s
def execVredminu (d a b : VReg) (mk : MaskSel) (s : State) : Out :=
  vDispatch (wordVredminu d a b mk) (.red .minu d a b) mk none 0 0 s
def execVredand (d a b : VReg) (mk : MaskSel) (s : State) : Out :=
  vDispatch (wordVredand d a b mk) (.red .and d a b) mk none 0 0 s
def execVredor (d a b : VReg) (mk : MaskSel) (s : State) : Out :=
  vDispatch (wordVredor d a b mk) (.red .or d a b) mk none 0 0 s
def execVredxor (d a b : VReg) (mk : MaskSel) (s : State) : Out :=
  vDispatch (wordVredxor d a b mk) (.red .xor d a b) mk none 0 0 s
def execVfredsum (d a b : VReg) (mk : MaskSel) (fr : FmtSel) (s : State) : Out :=
  vDispatch (wordVfredsum d a b mk fr) (.fredsum d a b) mk (some fr) 0 0 s
def execVfredmax (d a b : VReg) (mk : MaskSel) (fr : FmtSel) (s : State) : Out :=
  vDispatch (wordVfredmax d a b mk fr) (.fredmm true d a b) mk (some fr) 0 0 s
def execVfredmin (d a b : VReg) (mk : MaskSel) (fr : FmtSel) (s : State) : Out :=
  vDispatch (wordVfredmin d a b mk fr) (.fredmm false d a b) mk (some fr) 0 0 s

/-! Permutations, scalars and random numbers (R159 to R165). -/

def execVslideup (d a : VReg) (b : GReg) (mk : MaskSel) (s : State) : Out :=
  vDispatch (wordVslideup d a b mk) (.slide true d a) mk none 0 (s.g b) s
def execVslidedn (d a : VReg) (b : GReg) (mk : MaskSel) (s : State) : Out :=
  vDispatch (wordVslidedn d a b mk) (.slide false d a) mk none 0 (s.g b) s
def execVgatherv (d a b : VReg) (mk : MaskSel) (s : State) : Out :=
  vDispatch (wordVgatherv d a b mk) (.gather d a b) mk none 0 0 s
def execVcompress (d a : VReg) (mk : MaskSel) (s : State) : Out :=
  vDispatch (wordVcompress d a mk) (.compress d a) mk none 0 0 s
def execVexpand (d a : VReg) (mk : MaskSel) (s : State) : Out :=
  vDispatch (wordVexpand d a mk) (.expand d a) mk none 0 0 s
def execVbcast (d : VReg) (a : GReg) (mk : MaskSel) (s : State) : Out :=
  vDispatch (wordVbcast d a mk) (.bcast d) mk none (s.g a) 0 s
def execVext (d : GReg) (a : VReg) (b : GReg) (s : State) : Out :=
  vDispatch (wordVext d a b) (.ext d a) 0 none 0 (s.g b) s
def execVins (d : VReg) (a b : GReg) (s : State) : Out :=
  vDispatch (wordVins d a b) (.ins d) 0 none (s.g a) (s.g b) s
def execVid (d : VReg) (mk : MaskSel) (s : State) : Out :=
  vDispatch (wordVid d mk) (.vid d) mk none 0 0 s
def execViota (d : VReg) (a : MReg) (mk : MaskSel) (s : State) : Out :=
  vDispatch (wordViota d a mk) (.iota d a) mk none 0 0 s
def execVzip (d a b : VReg) (mk : MaskSel) (s : State) : Out :=
  vDispatch (wordVzip d a b mk) (.zip d a b) mk none 0 0 s
def execVunzip (d a b : VReg) (mk : MaskSel) (s : State) : Out :=
  vDispatch (wordVunzip d a b mk) (.unzip d a b) mk none 0 0 s
def execVmov (d a : VReg) (mk : MaskSel) (s : State) : Out :=
  vDispatch (wordVmov d a mk) (.mov d a) mk none 0 0 s
def execVrand (d : VReg) (mk : MaskSel) (fr : FmtSel) (s : State) : Out :=
  vDispatch (wordVrand d mk fr) (.rnd d) mk (some fr) 0 0 s

/-! Masks (R166 to R169). -/

def execMand (d a b : MReg) (s : State) : Out :=
  vDispatch (wordMand d a b) (.mlog .and d a b) 0 none 0 0 s
def execMor (d a b : MReg) (s : State) : Out :=
  vDispatch (wordMor d a b) (.mlog .or d a b) 0 none 0 0 s
def execMxor (d a b : MReg) (s : State) : Out :=
  vDispatch (wordMxor d a b) (.mlog .xor d a b) 0 none 0 0 s
def execMandn (d a b : MReg) (s : State) : Out :=
  vDispatch (wordMandn d a b) (.mlog .andn d a b) 0 none 0 0 s
def execMnot (d a : MReg) (s : State) : Out :=
  vDispatch (wordMnot d a) (.mnot d a) 0 none 0 0 s
def execMpopc (d : GReg) (a : MReg) (mk : MaskSel) (s : State) : Out :=
  vDispatch (wordMpopc d a mk) (.mpopc d a) mk none 0 0 s
def execMfirst (d : GReg) (a : MReg) (mk : MaskSel) (s : State) : Out :=
  vDispatch (wordMfirst d a mk) (.mfirst d a) mk none 0 0 s
def execMsbf (d a : MReg) (mk : MaskSel) (s : State) : Out :=
  vDispatch (wordMsbf d a mk) (.msbf false d a) mk none 0 0 s
def execMsif (d a : MReg) (mk : MaskSel) (s : State) : Out :=
  vDispatch (wordMsif d a mk) (.msbf true d a) mk none 0 0 s
def execMset (d : MReg) (s : State) : Out :=
  vDispatch (wordMset d) (.mset d true) 0 none 0 0 s
def execMclr (d : MReg) (s : State) : Out :=
  vDispatch (wordMclr d) (.mset d false) 0 none 0 0 s
def execMmovg (d : MReg) (a : GReg) (s : State) : Out :=
  vDispatch (wordMmovg d a) (.mmovg d) 0 none (s.g a) 0 s
def execMmovm (d : GReg) (a : MReg) (s : State) : Out :=
  vDispatch (wordMmovm d a) (.mmovm d a) 0 none 0 0 s

/-! Vector memory (R194 to R210). -/

def execVld (d : VReg) (a : GReg) (mk : MaskSel) (s : State) : Out :=
  vDispatch (wordVld d a mk) (.mem false .unit d) mk none (s.g a) 0 s
def execVlds (d : VReg) (a b : GReg) (mk : MaskSel) (s : State) : Out :=
  vDispatch (wordVlds d a b mk) (.mem false .strided d) mk none (s.g a) (s.g b) s
def execVldx (d : VReg) (a : GReg) (b : VReg) (mk : MaskSel) (iw : Fin 4) (s : State) : Out :=
  vDispatch (wordVldx d a b mk iw) (.mem false (.indexed iw b) d) mk none (s.g a) 0 s
def execVldseg (d : VReg) (a : GReg) (mk : MaskSel) (nf : Fin 8) (mw : Fin 4) (s : State) : Out :=
  vDispatch (wordVldseg d a mk nf mw) (.mem false (.segment nf mw) d) mk none (s.g a) 0 s
def execVldff (d : VReg) (a : GReg) (mk : MaskSel) (s : State) : Out :=
  vDispatch (wordVldff d a mk) (.mem false .faultFirst d) mk none (s.g a) 0 s
def execVldpl (d : VReg) (a b : GReg) (mk : MaskSel) (p kk : Fin 4) (rnd : Bool) (s : State) : Out :=
  vDispatch (wordVldpl d a b mk p kk rnd) (.mem false (.planar p kk rnd) d) mk none (s.g a) (s.g b) s
def execVlde (d : VReg) (a : GReg) (mk : MaskSel) (rep : Fin 8) (s : State) : Out :=
  vDispatch (wordVlde d a mk rep) (.mem false (.expand rep) d) mk none (s.g a) 0 s
def execVldw (d : VReg) (a : GReg) (cnt : Fin 4) (s : State) : Out :=
  vDispatch (wordVldw d a cnt) (.mem false (.whole cnt) d) 0 none (s.g a) 0 s
def execVst (d : VReg) (a : GReg) (mk : MaskSel) (s : State) : Out :=
  vDispatch (wordVst d a mk) (.mem true .unit d) mk none (s.g a) 0 s
def execVsts (d : VReg) (a b : GReg) (mk : MaskSel) (s : State) : Out :=
  vDispatch (wordVsts d a b mk) (.mem true .strided d) mk none (s.g a) (s.g b) s
def execVstx (d : VReg) (a : GReg) (b : VReg) (mk : MaskSel) (iw : Fin 4) (s : State) : Out :=
  vDispatch (wordVstx d a b mk iw) (.mem true (.indexed iw b) d) mk none (s.g a) 0 s
def execVstseg (d : VReg) (a : GReg) (mk : MaskSel) (nf : Fin 8) (mw : Fin 4) (s : State) : Out :=
  vDispatch (wordVstseg d a mk nf mw) (.mem true (.segment nf mw) d) mk none (s.g a) 0 s
def execVstpl (d : VReg) (a b : GReg) (mk : MaskSel) (p kk : Fin 4) (s : State) : Out :=
  vDispatch (wordVstpl d a b mk p kk) (.mem true (.planar p kk false) d) mk none (s.g a) (s.g b) s
def execVstw (d : VReg) (a : GReg) (cnt : Fin 4) (s : State) : Out :=
  vDispatch (wordVstw d a cnt) (.mem true (.whole cnt) d) 0 none (s.g a) 0 s

end Sys2Proof.Machine
end

