-- ==== Sys2Proof/Machine/Atomic.lean ====
section
/-! DEFINITION. Atomics (R277 to R279) with the reservation table (R305, R350) and cache span operations (R280, R281), with the
steps that end them. -/

namespace Sys2Proof.Machine

/-! Atomics. -/

/-- Whether context c has an incomplete tile instruction that accesses memory (R291). -/
def State.tileMemory (s : State) (c : Nat) : Bool :=
  (s.core (coreOf c)).tq.any (fun e => e.ctx == c && !e.pieces.isEmpty)

/-- The checks of R277 in order, and the windows of R384; `rsv` marks LR and SC. -/
def atomicGate (n : Nat) (k : Acc) (rsv : Bool) (a : GReg) (s : State) (f : Piece → State → Out) : Out :=
  let ea := s.g a
  if ea.toNat % n ≠ 0 then raise 0x05 ea s
  else match s.transSpan (s.whoCtx s.cur) k ea.toNat n with
    | (s, .error e) => raise e.1 ea s
    | (s, .ok []) => raise k.accCause ea s
    | (s, .ok (p :: _)) =>
      match p.loc with
      | .fabric _ => raise 0x08 ea s
      | .spad _ _ => if rsv then raise 0x08 ea s else f p s
      | .hbm pa =>
        match s.physCheck (s.whoCtx s.cur) k pa with
        | .ok true => if rsv then raise 0x08 ea s else f p s
        | _ => f p s

/-- What an atomic waits for before it is performed (R226, R265, R277, R286, R291, R298, R305): LR and LDACQ for buffered stores that overlap
or go to the same uncached page, every other one for all of them; the context's tile accesses that come first, and of a release all its tile instructions;
an engine that owns the line, and another context's hold. It waits for them in WAIT-UNIT, where an interrupt abandons it (R111), and in
WAIT-MISS only for its result (assumption 96). -/
def atomicWait (loadLike rel writes : Bool) (p : Piece) (s : State) (f : State → Out) : Out :=
  let locs := pieceLocs [p]
  if loadLike && (s.me.sb.any (fun e => locs.any e.hits) || s.me.uncachedTo p) then
    .next (s.hold .waitUnit .overlap)
  else if !loadLike && !s.me.sb.isEmpty then .next (s.hold .waitUnit .drained)
  else if s.tileOverlaps s.cur locs || s.tileFirst s.cur loadLike [p] || (!loadLike && s.tileOpen s.cur) ||
      (rel && s.tileMemory s.cur) then .next (s.hold .waitUnit .tileOverlap)
  else if s.engineOwns locs || (writes && s.heldBack (some s.cur) (s.dlogLocs (s.whoCtx s.cur) [p] ++ locs)) then .next (s.hold .waitUnit .engineLine)
  else f s

/-- The context waits for its result in WAIT-MISS (R277). -/
def State.awaitResult (s : State) (d : GReg) (x : Word) : State :=
  s.modMe (fun c => { c with st := .waitMiss, wait := .none, young := false, miss := .atom d x })

/-- An old value as Ge(d) receives it (R277). -/
def oldValue (n x : Nat) : Word := extend n (n == 4) x

/-- The value that an operation writes over an old value, if it writes (R278). -/
def Amo.eval (o : Amo) {w : Nat} (old v : BitVec w) : Option (BitVec w) :=
  match o with
  | .swap => some v
  | .add => some (old + v)
  | .and => some (old &&& v)
  | .or => some (old ||| v)
  | .xor => some (old ^^^ v)
  | .min => some (if old.slt v then old else v)
  | .max => some (if old.slt v then v else old)
  | .minu => some (if old.ult v then old else v)
  | .maxu => some (if old.ult v then v else old)
  | .cas e => if old = e.setWidth w then some v else none

/-- The write of an atomic at the home, under the dirty log (R274, R277). -/
def State.atomWrite (s : State) (p : Piece) (data : List Byte) : State :=
  (s.dlogPieces (s.whoCtx s.cur) [p]).homeWrite (some s.cur) [p] data

/-- A read-modify-write atomic (R278). Every copy is recalled; an AMOCAS that writes nothing counts as a read at the home (R345). -/
def amoOp (o : Amo) (d a b : GReg) (dw rel : Bool) (s : State) : Out :=
  let n := if dw then 8 else 4
  atomicGate n .rw false a s (fun p s => atomicWait false rel true p s (fun s =>
    if (s.firstPoison p.loc n).isSome then raise 0x09 (s.g a) s
    else
      let old := leNat (s.bytesAt p.loc n)
      let new := Amo.eval o (BitVec.ofNat (8 * n) old) ((s.g b).setWidth (8 * n))
      let s := s.recallAll new.isSome (hbmLines [p])
      let s := match new with
        | none => s
        | some x => s.atomWrite p (leBytes n x.toNat)
      .next (s.awaitResult d (oldValue n old))))

def execAmoswap (d a b : GReg) (dw _acq rel : Bool) (_sc : Scope) (s : State) : Out := amoOp .swap d a b dw rel s
def execAmoadd (d a b : GReg) (dw _acq rel : Bool) (_sc : Scope) (s : State) : Out := amoOp .add d a b dw rel s
def execAmoand (d a b : GReg) (dw _acq rel : Bool) (_sc : Scope) (s : State) : Out := amoOp .and d a b dw rel s
def execAmoor (d a b : GReg) (dw _acq rel : Bool) (_sc : Scope) (s : State) : Out := amoOp .or d a b dw rel s
def execAmoxor (d a b : GReg) (dw _acq rel : Bool) (_sc : Scope) (s : State) : Out := amoOp .xor d a b dw rel s
def execAmomin (d a b : GReg) (dw _acq rel : Bool) (_sc : Scope) (s : State) : Out := amoOp .min d a b dw rel s
def execAmomax (d a b : GReg) (dw _acq rel : Bool) (_sc : Scope) (s : State) : Out := amoOp .max d a b dw rel s
def execAmominu (d a b : GReg) (dw _acq rel : Bool) (_sc : Scope) (s : State) : Out := amoOp .minu d a b dw rel s
def execAmomaxu (d a b : GReg) (dw _acq rel : Bool) (_sc : Scope) (s : State) : Out := amoOp .maxu d a b dw rel s
/-- AMOCAS reads its expected value from gd before gd is written (R278). -/
def execAmocas (d a b : GReg) (dw _acq rel : Bool) (_sc : Scope) (s : State) : Out := amoOp (.cas (s.g d)) d a b dw rel s

/-- The entry of a home's reservations with the largest AGE, among equals the lowest-numbered (R350). -/
def oldestOf (home : Nat) (l : List (Nat × Resv)) : Option (Nat × Resv) :=
  (l.filter (·.1 == home)).foldl (fun a e => match a with
    | none => some e
    | some b => if e.2.since < b.2.since ∨ (e.2.since = b.2.since ∧ e.2.num < b.2.num) then some e else some b) none
/-- The lowest entry of a home's table of 16 that no reservation takes. -/
def freeNum (home : Nat) (l : List (Nat × Resv)) : Nat :=
  ((List.range 16).find? (fun i => !l.any (fun x => x.1 == home && x.2.num == i))).getD 0
/-- A new reservation: the context's earlier one is cleared first, and a full table gives up its oldest entry (R350). -/
def reserve (home : Nat) (e : Resv) (l : List (Nat × Resv)) : List (Nat × Resv) :=
  let l := l.filter (fun x => x.2.ctx != e.ctx)
  let l := if 16 ≤ (l.filter (·.1 == home)).length then
      (match oldestOf home l with | some o => l.erase o | none => l)
    else l
  l ++ [(home, { e with num := freeNum home l })]

/-- LR (R279): the value, and the reservation at the home. -/
def execLr (d a : GReg) (dw _acq : Bool) (_sc : Scope) (s : State) : Out :=
  let n := if dw then 8 else 4
  atomicGate n .load true a s (fun p s => atomicWait true false false p s (fun s =>
    if (s.firstPoison p.loc n).isSome then raise 0x09 (s.g a) s
    else
      let s := s.recallAll false (hbmLines [p])
      let s := match p.loc with
        | .hbm pa =>
          let e : Resv := ⟨0, s.cur, dw, pa, (s.region (regionOf s.cur)).inc, s.cycles, true⟩
          { s with resv := reserve (homeCore pa) e s.resv }
        | _ => s
      .next (s.awaitResult d (oldValue n (leNat (s.bytesAt p.loc n))))))

/-- Whether context c holds a valid reservation for exactly these bytes (R279, R350). -/
def State.reserved (s : State) (c pa : Nat) (dw : Bool) : Bool :=
  s.resv.any (fun e => decide (e.2.ctx = c ∧ e.2.pa = pa ∧ e.2.dword = dw ∧ e.2.inc = (s.region (regionOf c)).inc ∧
    s.cycles < e.2.since + 4096))

/-- Whether context c's own hold still keeps other writes back (R305). -/
def State.holds (s : State) (c : Nat) : Bool := s.resv.any (fun e => e.2.hold && decide (e.2.ctx = c ∧ s.cycles < e.2.since + 128))
/-- SC (R279). One whose reservation is valid writes under it while its own hold lasts, whatever other contexts have reserved there; after
that another context's hold keeps it back like any write, as it does the dirty log's append. One that fails writes nothing (R305;
assumption 82). -/
def execSc (d a b : GReg) (dw rel : Bool) (_sc : Scope) (s : State) : Out :=
  let n := if dw then 8 else 4
  atomicGate n .store true a s (fun p s => atomicWait false rel false p s (fun s =>
    let ok := match p.loc with | .hbm pa => s.reserved s.cur pa dw | _ => false
    if ok && s.heldBack (some s.cur) (s.dlogLocs (s.whoCtx s.cur) [p] ++ (if s.holds s.cur then [] else pieceLocs [p])) then
      .next (s.hold .waitUnit .engineLine) else
    let s := s.recallAll ok (hbmLines [p])
    let s := if ok then s.atomWrite p (leBytes n (s.g b).toNat) else s
    .next ((s.dropResv s.cur).awaitResult d (if ok then 0 else 1))))

/-- LDACQ (R277): a load of its width. -/
def execLdacq (d a : GReg) (dw : Bool) (_sc : Scope) (s : State) : Out :=
  let n := if dw then 8 else 4
  atomicGate n .load false a s (fun p s => atomicWait true false false p s (fun s =>
    if (s.poisonAt (some (coreOf s.cur)) p.loc n).isSome then raise 0x09 (s.g a) s
    else
      let s := s.coreRead s.cur [p]
      .next (s.awaitResult d (oldValue n (leNat (s.bytesAt p.loc n))))))

/-- STREL (R277, R291): a store of its width that no buffer holds. -/
def execStrel (a b : GReg) (dw : Bool) (_sc : Scope) (s : State) : Out :=
  let n := if dw then 8 else 4
  atomicGate n .store false a s (fun p s => atomicWait false true true p s (fun s =>
    .next (((s.dlogPieces (s.whoCtx s.cur) [p]).coreWrite s.cur [p] (leBytes n (s.g b).toNat)).retire)))

/-- ATOMIC_COMPLETE (R277): the result is written, and the context acts on what has been accepted for it meanwhile and goes on (R338). -/
def execAtomicComplete (c : CtxId) (s : State) : Out :=
  match (s.ctx c.val).miss with
  | .atom d x => onCtx c.val (fun s => .next ((s.finish d x).modMe Ctx.settled)) s
  | _ => notEnabled "ATOMIC_COMPLETE"

/-- RESERVATION_EXPIRE (R279, R350): 4,096 cycles after the LR. -/
def execReservationExpire (c : CtxId) (s : State) : Out :=
  if s.resv.any (fun e => decide (e.2.ctx = c.val ∧ e.2.since + 4096 ≤ s.cycles)) then .next (s.dropResv c.val)
  else notEnabled "RESERVATION_EXPIRE"

/-- RESERVATION_HOLD_END (R305): 128 cycles after the LR. -/
def execReservationHoldEnd (c : CtxId) (s : State) : Out :=
  if s.resv.any (fun e => decide (e.2.ctx = c.val ∧ e.2.since + 128 ≤ s.cycles) && e.2.hold) then
    .next { s with resv := s.resv.map (fun e => if e.2.ctx = c.val then (e.1, { e.2 with hold := false }) else e) }
  else notEnabled "RESERVATION_HOLD_END"

/-! Cache span operations. -/

/-- The rounded span of R280: its first byte and its length. -/
def sectorSpan (a len : Word) : Nat × Nat :=
  let lo := a.toNat / 16 * 16
  (lo, (a.toNat + len.toNat + 15) / 16 * 16 - lo)

/-- The operations that take a store-buffer entry (R280, R281). -/
def cacheStore (w : Nat) (k : Acc) (kind : SbKind) (align : Bool) (a b : GReg) (s : State) : Out :=
  let x := s.g a
  let len := s.g b
  if len = 0 then .next s.retire
  else if 65536 < len.toNat then raiseReserved w s
  else if align && (x.toNat % 16 != 0 || len.toNat % 16 != 0) then raise 0x05 x s
  else
    let sp := sectorSpan x len
    match s.transSpan (s.whoCtx s.cur) k sp.1 sp.2 with
    | (s, .error e) => raise e.1 (BitVec.ofNat 64 e.2) s
    | (s, .ok ps) =>
      if s.tileOverlaps s.cur (pieceLocs ps) then .next (s.hold .waitUnit .tileOverlap) else enterStore kind ps s

/-- CINV needs K mode (R280). -/
def execCinv (a b : GReg) (s : State) : Out := kOnly (wordCinv a b) s (cacheStore (wordCinv a b) .store .inv false a b)
def execCflush (a b : GReg) (s : State) : Out := cacheStore (wordCflush a b) .load .flush false a b s
def execCclean (a b : GReg) (s : State) : Out := cacheStore (wordCclean a b) .load .clean false a b s
def execCzero (a b : GReg) (s : State) : Out := cacheStore (wordCzero a b) .store .zero true a b s

/-- CPFR and CPFW (R280): a failure drops the hint, and so does a line that an engine owns (R297). A line that is not in the L1 data cache
counts as no miss (R377; assumption 40). -/
def prefetchOp (w : Nat) (k : Acc) (a b : GReg) (s : State) : Out :=
  let len := s.g b
  if len = 0 then .next s.retire
  else if 65536 < len.toNat then raiseReserved w s
  else
    let sp := sectorSpan (s.g a) len
    match s.transSpan (s.whoCtx s.cur) k sp.1 sp.2 with
    | (s, .error _) => .next s.retire
    | (s, .ok ps) =>
      .next ((if s.engineOwns (pieceLocs ps) then s else s.serveAll (coreOf s.cur) k.writes (cachedLines ps)).retire)
def execCpfr (a b : GReg) (s : State) : Out := prefetchOp (wordCpfr a b) .load a b s
def execCpfw (a b : GReg) (s : State) : Out := prefetchOp (wordCpfw a b) .store a b s

/-- IFLUSH (R266, R280). -/
def execIflush (a b : GReg) (s : State) : Out :=
  let len := s.g b
  if len = 0 then .next s.retire
  else if 65536 < len.toNat then raiseReserved (wordIflush a b) s
  else
    let sp := sectorSpan (s.g a) len
    match s.transSpan (s.whoCtx s.cur) .either sp.1 sp.2 with
    | (s, .error e) => raise e.1 (BitVec.ofNat 64 e.2) s
    | (s, .ok ps) =>
      let lines := (cachedLines ps).map (·.1)
      .next ((s.modCore (coreOf s.cur) (fun k => { k with icache := k.icache.filter (fun l => !lines.contains l.line) })).retire)

/-! The commands of a context. -/

/-- The engines that a context's SENDs reach (R312), with the decompressor of its quad (R324). -/
def enginesOf (c : Nat) : List EngineId :=
  let k := coreOf c
  [.stream (Fin.ofNat 1024 k), .weave (Fin.ofNat 256 (quadOfCore k)), .decomp (Fin.ofNat 256 (quadOfCore k)),
    .coll (Fin.ofNat 32 (regionOf c)), .tend (Fin.ofNat 32 (regionOf c)), .lnch (Fin.ofNat 32 (regionOf c))]
/-- Whether some command of context c has not completed, its reply included (R295). -/
def State.cmdsOpen (s : State) (c : Nat) : Bool :=
  (enginesOf c).any (fun e =>
    let x := s.engine e
    x.inbox.any (·.ctx == c) || x.running.any (·.cmd.ctx == c))
end Sys2Proof.Machine
end

