-- ==== Sys2Proof/Machine/Tables.lean ====
section
/-! DEFINITION. The tables of a region's table area (R342, R343, R351, R353, R354), channels (R333, R336) and region events (R387, R388). -/

namespace Sys2Proof.Machine

/-- Bits hi to lo of a number. -/
def bitsOf (x hi lo : Nat) : Nat := x / 2 ^ lo % 2 ^ (hi - lo + 1)

/-- The 64-bit word at an offset of a region's table area, as the hardware reads it (R342). -/
def State.rtaWord (s : State) (r off : Nat) : Nat := s.hbmWord ((s.region r).rta + off)

/-! Channel binding (R351). -/

/-- A channel's mode and bound context of its core. -/
structure Binding where
  mode : Nat
  ctx  : Nat
  deriving DecidableEq, Repr

/-- The binding of channel n of core k. An entry with a non-zero "—" field is not valid (R343), and the entries of a fenced
core accept nothing (R392): both read as unbound. -/
def State.binding (s : State) (k n : Nat) : Binding :=
  let off := 256 * posInRegion k + 16 * n
  let w0 := s.rtaWord (regionOfCore k) off
  let w1 := s.rtaWord (regionOfCore k) (off + 8)
  if (s.core k).fenced || w0 / 16 != 0 || w1 % 4 != 0 then ⟨0, 0⟩ else ⟨w0 % 4, w0 / 4 % 4⟩

/-- Whether an arrival at a channel is refused (R336). -/
def Binding.refuses (b : Binding) (kmode : Bool) : Bool := b.mode == 0 || (b.mode == 3 && !kmode)

/-- Channel n of core k. -/
def State.chan (s : State) (k : Nat) (n : Fin 16) : List ChMsg := (s.core k).chans.get n
/-- The channel replaced. -/
def Core.setChan (c : Core) (n : Fin 16) (l : List ChMsg) : Core := { c with chans := c.chans.set n.val l n.isLt }

/-- A change of each context of a list. -/
def State.modCtxs (f : Ctx → Ctx) : List Nat → State → State
  | [], s => s
  | c :: t, s => State.modCtxs f t (s.modCtx c f)
/-- The four contexts of a core. -/
def ctxsOfCore (k : Nat) : List Nat := (List.range 4).map (k * 4 + ·)

/-- The arrival of a message at a channel that has room (R336): it is written, the event is accepted for the core's contexts, of which
those parked on the channel wake, and the bound context is interrupted as mode and CHMASK require (R333). -/
def State.chanPut (s : State) (k : Nat) (n : Fin 16) (m : ChMsg) : State :=
  let s := s.modCore k (fun c => c.setChan n (c.chans.get n ++ [m]))
  let s := State.modCtxs (Ctx.accept ⟨.chan n, 0⟩) (ctxsOfCore k) s
  let b := s.binding k n.val
  let c := k * 4 + b.ctx
  let tval := BitVec.ofNat 64 n.val
  if b.mode = 2 then (if (s.ctx c).chmask.getLsbD n.val then s.raiseInt c 0x42 tval else s)
  else if b.mode = 3 then s.raiseInt c 0x44 tval
  else s

/-! Region events (R387, R388). -/

/-- The core of a region's event context: its lowest-numbered core that is not fenced. -/
def State.eventCore (s : State) (r : Nat) : Option Nat := (coresOfRegion r).find? (fun k => !(s.core k).fenced)

/-- The oldest pending event message is delivered if channel 15 takes it (R388). -/
def State.eventRetry (s : State) (r : Nat) : Option State :=
  match (s.region r).pending, s.eventCore r with
  | m :: rest, some k =>
    if (s.region r).st ≠ .assigned ∨ (s.binding k 15).mode = 0 ∨ 8 ≤ (s.chan k 15).length ∨ s.fanovDown.getLsbD (r / 2) then none
    else
      let m := if (s.region r).lost then { m with m3 := m.m3 ||| 0x80000000#64 } else m
      some ((s.modRegion r (fun x => { x with pending := rest, lost := false })).chanPut k 15 m)
  | _, _ => none

/-- A region event (R387): IPEND for 0x43 in the event context and a message to channel 15, which firmware holds behind the
earlier ones where it cannot be delivered (R388). A die whose Fanov core restarts holds both (R397). -/
def State.regionEvent (s : State) (r kind subject arg : Nat) : State :=
  match s.eventCore r with
  | none => s
  | some k =>
    let tval := BitVec.ofNat 64 (subject + kind * 2 ^ 8 + arg * 2 ^ 16)
    let down := s.fanovDown.getLsbD (r / 2)
    let s := if down then s else s.raiseInt (k * 4) 0x43 tval
    let m : ChMsg := ⟨tval, s.time, (s.region r).inc.zeroExtend 64, 0⟩
    let s := s.modRegion r (fun x =>
      let full := decide (64 ≤ x.pending.length)
      { x with pending := (if full then x.pending.drop 1 else x.pending) ++ [m]
               lost := x.lost || full
               quiet := if down then min 64 (x.quiet + 1) else x.quiet })
    if (s.region r).pending.length = 1 then (s.eventRetry r).getD s else s

/-- A region event in each region of a list. -/
def State.regionEvents (kind subject arg : Nat) : List Nat → State → State
  | [], s => s
  | r :: t, s => State.regionEvents kind subject arg t (s.regionEvent r kind subject arg)

/-! Capabilities (R353). -/

/-- The current incarnation of an agent (R359). -/
def State.incOf (s : State) : Agent → BitVec 16
  | .region r => (s.region r.val).inc
  | .module => s.modInc
  | .host ep => SMap.get 0 s.hostInc ep.toNat

/-- The KIND code of an object kind (R353). -/
def objKindCode : ObjKind → Nat | .storage => 1 | .grant => 2 | .channel => 3 | .timer => 4 | .doorbell => 5

/-- The kind and the rights that a service needs (R330): a map needs read or write. None for a code that is not listed. -/
def serviceNeeds : Nat → Option (ObjKind × BitVec 5)
  | 1 => some (.storage, 1)
  | 2 => some (.storage, 2)
  | 3 => some (.grant, 3)
  | 4 => some (.grant, 0)
  | 5 => some (.channel, 4)
  | 6 => some (.timer, 8)
  | 7 => some (.doorbell, 16)
  | _ => none

/-- The object and rights that a handle names in region r, where every check of R329 and R353 passes. -/
def State.capability (s : State) (r : Nat) (h service : Nat) : Option (Nat × ObjectRec × BitVec 5) :=
  if 4096 ≤ h then none
  else
    let off := 0x8000 + 32 * h
    let w0 := s.rtaWord r off
    let rights := BitVec.ofNat 5 (bitsOf w0 12 8)
    let obj := bitsOf w0 47 32
    if bitsOf w0 0 0 = 0 ∨ bitsOf w0 7 5 ≠ 0 ∨ bitsOf w0 15 13 ≠ 0 ∨ bitsOf w0 63 48 ≠ 0 ∨ s.rtaWord r (off + 8) ≠ 0 ∨
        s.rtaWord r (off + 16) ≠ 0 ∨ s.rtaWord r (off + 24) ≠ 0 then none
    else match SMap.get none s.objects obj with
      | none => none
      | some o =>
        let need : Bool := match serviceNeeds service with
          | none => true
          | some (k, n) => o.kind == k && (n == 0 || rights &&& n != 0)
        if o.island = s.islandOf r ∧ bitsOf w0 4 1 = objKindCode o.kind ∧ rights &&& ~~~o.rights = 0 ∧
            bitsOf w0 31 16 = (s.incOf o.agent).toNat ∧ need then some (obj, o, rights)
        else none

/-! Collective groups (R354). -/

/-- A group entry: member count, deadline, index of rank 0. -/
structure Group where
  n     : Nat
  dl    : Nat
  first : Nat
  deriving DecidableEq, Repr

/-- Group entry g of region r, where it and its rank entries are valid. -/
def State.group (s : State) (r g : Nat) : Option Group :=
  if 256 ≤ g then none
  else
    let off := 0x4000 + 32 * g
    let w0 := s.rtaWord r off
    let w1 := s.rtaWord r (off + 8)
    let n := bitsOf w0 18 1
    if bitsOf w0 0 0 = 0 ∨ bitsOf w0 31 19 ≠ 0 ∨ w1 / 2 ^ 17 ≠ 0 ∨ s.rtaWord r (off + 16) ≠ 0 ∨ s.rtaWord r (off + 24) ≠ 0 ∨
        n = 0 ∨ 131072 < n ∨ 131072 < w1 + n ∨
        (List.range n).any (fun i => s.rtaWord r (0x100000 + 8 * (w1 + i)) / 2 ^ 30 != 1) then none
    else some ⟨n, w0 / 2 ^ 32, w1⟩

/-- The word of rank i of a group. -/
def State.rankWord (s : State) (r : Nat) (g : Group) (i : Nat) : Nat := s.rtaWord r (0x100000 + 8 * (g.first + i))
/-- Whether a rank entry names a context of region r (R354). -/
def State.namesCtx (s : State) (r c w : Nat) : Bool :=
  decide (w / 2 ^ 31 = 0 ∧ bitsOf w 30 30 = 1 ∧ bitsOf w 17 0 = (s.region r).ep.toNat ∧ bitsOf w 29 18 = c)
/-- The rank of context c: the lowest that names it. -/
def State.rankOf (s : State) (r : Nat) (g : Group) (c : Nat) : Option Nat :=
  (List.range g.n).find? (fun i => s.namesCtx r c (s.rankWord r g i))
/-- The words of which the digest of a group is formed (R354). -/
def State.groupWords (s : State) (r g : Nat) : List Word :=
  let off := 0x4000 + 32 * g
  (List.range 4).map (fun i => BitVec.ofNat 64 (s.rtaWord r (off + 8 * i))) ++
    (match s.group r g with
      | none => []
      | some x => (List.range x.n).map (fun i => BitVec.ofNat 64 (s.rankWord r x i)))
/-- The digest of a region's entry for a group. -/
def State.digest (s : State) (r g : Nat) : BitVec 32 := Config.groupDigest (s.groupWords r g)
/-- The regions of an island that hold a member of a group, as region r's entry names them. -/
def State.groupRegions (s : State) (r g : Nat) : List Nat :=
  match s.group r g with
  | none => []
  | some x => (s.regionsOf (s.islandOf r)).filter (fun t =>
      (List.range x.n).any (fun i => decide (bitsOf (s.rankWord r x i) 17 0 = (s.region t).ep.toNat)))
/-- Whether the regions that hold members hold the same entry. -/
def State.digestsAgree (s : State) (r g : Nat) : Bool := (s.groupRegions r g).all (fun t => s.digest t g == s.digest r g)

end Sys2Proof.Machine
end

