-- ==== Sys2Proof/Machine/Sync.lean ====
section
/-! DEFINITION. Counters (R362 to R365), gang barriers (R366 to R372), byte-count counters (R373, R374), channels (R334, R335),
and the steps by which replies, messages and releases reach a core (R337). -/

namespace Sys2Proof.Machine

/-! Gang barriers. -/

/-- The number of the instance of a scope that holds core k (R100). -/
def barInst (sc : BarScope) (k : Nat) : Nat :=
  match sc with
  | .core => k
  | .quad => quadOfCore k
  | .die => dieOfCore k
  | _ => 0

/-- A barrier before its first arrival. -/
def Barrier.fresh : Barrier := ⟨0, 0, [], 0⟩
def lookupKey {α β : Type} [DecidableEq α] (d : β) (k : α) (l : List (α × β)) : β :=
  match l.find? (fun e => e.1 = k) with
  | some e => e.2
  | none => d
def setKey {α β : Type} [DecidableEq α] (k : α) (x : β) (l : List (α × β)) : List (α × β) := (k, x) :: l.filter (fun e => e.1 ≠ k)
/-- The barrier of a key. -/
def State.bar (s : State) (k : BarKey) : Barrier := lookupKey Barrier.fresh k s.bars
def State.setBar (s : State) (k : BarKey) (b : Barrier) : State := { s with bars := setKey k b s.bars }
/-- A gang: its registrations and its deadline. -/
def State.gangOf (s : State) (g : Nat) : Gang := (SMap.get none s.gangs g).getD ⟨0, []⟩
/-- EXP: the members of the gang registered in the instance (R366). -/
def State.barExp (s : State) (k : BarKey) : Nat :=
  ((s.gangOf k.gang).reg.filter (fun e => barInst k.sc (coreOf e.2) == k.inst)).length

/-- Comb (R368). -/
def combEval (c : Comb) (x y : Word) : Word :=
  match c with
  | .none => x
  | .add => x + y
  | .or => x ||| y
  | .and => x &&& y
  | .max => if x.slt y then y else x
  | .min => if y.slt x then y else x
  | .maxu => if x.ult y then y else x
/-- RES of a phase: 0 where the codes differ or nothing was contributed (R368). -/
def resOf (l : List (Comb × Word)) : Word :=
  match l with
  | [] => 0
  | (c, v) :: t => if t.all (·.1 == c) then t.foldl (fun x e => combEval c x e.2) v else 0

/-- The waiters of a phase receive RES and the release enters their event queues (R338), on which BARRIER_RELEASE acts. -/
def Ctx.receive (k : BarKey) (phase : Nat) (r : Word) (c : Ctx) : Ctx :=
  match c.park with
  | .bar k' p g d t none =>
    if k' = k ∧ p = phase then { c with park := .bar k' p g d t (some r), events := Event.join ⟨.barrier, 0⟩ c.events } else c
  | _ => c
/-- All contexts that are not in their reset state. -/
def State.ctxNums (s : State) : List Nat := s.ctxs.map (·.1)
/-- Complete(B) (R368). -/
def State.barComplete (s : State) (k : BarKey) : State :=
  let b := s.bar k
  let r := resOf (b.contribs.map (·.2))
  State.modCtxs (Ctx.receive k b.phase.toNat r) s.ctxNums (s.setBar k ⟨b.phase + 1, 0, [], r⟩)
/-- An open phase with ARR ≥ EXP > 0 completes (R367). -/
def State.barCheck (s : State) (k : BarKey) : State :=
  if 0 < s.barExp k ∧ s.barExp k ≤ (s.bar k).arr.toNat then s.barComplete k else s
/-- Arrive(code, v) by context c (R368). -/
def State.barArrive (s : State) (k : BarKey) (c : Nat) (comb : Comb) (v : Word) : State :=
  let b := s.bar k
  (s.setBar k { b with arr := b.arr + 1, contribs := if comb = .none then b.contribs else b.contribs ++ [(c, comb, v)] }).barCheck k
/-- The withdrawal of context c's GBAR arrival (R370). -/
def State.barWithdraw (s : State) (k : BarKey) (c : Nat) : State :=
  let b := s.bar k
  s.setBar k { b with arr := b.arr - 1, contribs := b.contribs.filter (fun e => e.1 != c) }

/-! Barriers at .pod (R372). -/

/-- A .pod barrier before any arrival. -/
def PodBar.fresh : PodBar := ⟨0, [], [], 0, false⟩
def State.pod (s : State) (k : BarKey) : PodBar := lookupKey PodBar.fresh k s.podBars
def State.setPod (s : State) (k : BarKey) (b : PodBar) : State := { s with podBars := setKey k b s.podBars }
/-- The region that stands for group g of region r: the lowest of this module's that hold a member of it. Equal groups of an island
share it, and differing groups of two regions do not (R372). -/
def State.groupHome (s : State) (r g : Nat) : Nat := (s.groupRegions r g).headD r
/-- The key of the .pod barrier that group g of region r selects. -/
def State.podKey (s : State) (r g : Nat) : BarKey := ⟨0, .pod, s.groupHome r g, g⟩
/-- The group and rank that admit context c at .pod barrier id (R372). -/
def State.podAdmit (s : State) (c id : Nat) : Option (Group × Nat) :=
  let r := regionOf c
  match s.group r id with
  | none => none
  | some g =>
    if s.digestsAgree r id && !(s.pod (s.podKey r id)).differs then (s.rankOf r g c).map (fun i => (g, i)) else none
/-- The phase completes when every rank has contributed. -/
def State.podCheck (s : State) (k : BarKey) (n : Nat) : State :=
  let b := s.pod k
  if (List.range n).all (fun i => decide (b.phase < SMap.get 0 b.counts i)) then
    let mine := b.arrivals.filter (fun e => e.phase == b.phase)
    let r := resOf ((mine.map (fun e => (e.comb, e.value))).filter (fun e => e.1 != .none))
    State.modCtxs (Ctx.receive k (b.phase % 65536) r) s.ctxNums
      (s.setPod k { b with phase := b.phase + 1, arrivals := b.arrivals.filter (fun e => e.phase != b.phase), res := r })
  else s
/-- The arrival of a rank, by a context of this module or none. -/
def State.podArrive (s : State) (k : BarKey) (n rank : Nat) (ctx : Option Nat) (comb : Comb) (v : Word) : State :=
  let b := s.pod k
  let i := SMap.get 0 b.counts rank
  (s.setPod k { b with counts := SMap.put 0 b.counts rank (i + 1), arrivals := b.arrivals ++ [⟨i, rank, ctx, comb, v⟩] }).podCheck k n
/-- The withdrawal of the latest of the arrivals that p picks, if it still belongs to an open phase (R370). -/
def State.podWithdraw (s : State) (k : BarKey) (p : PodArr → Bool) : State :=
  let b := s.pod k
  match b.arrivals.reverse.find? p with
  | none => s
  | some e => s.setPod k { b with
      counts := SMap.put 0 b.counts e.rank (SMap.get 0 b.counts e.rank - 1), arrivals := b.arrivals.erase e }

/-- The key of the barrier that the acting context names (R368, R372). -/
def State.barKey (s : State) (id : Fin 32) (sc : BarScope) : BarKey :=
  match sc with
  | .pod => s.podKey (regionOf s.cur) id.val
  | _ => ⟨s.me.gang.toNat, sc, barInst sc (coreOf s.cur), id.val⟩
/-- TVAL of cause 0x10 (R249). -/
def barTval (id : Nat) (sc : BarScope) : Word :=
  BitVec.ofNat 64 (id + 256 * (match sc with | .core => 0 | .quad => 1 | .die => 2 | .mod => 3 | .pod => 4))

/-- A release (R291, R303): the context's buffered stores and tile memory instructions come first. -/
def releaseWait (s : State) (f : State → Out) : Out :=
  if !s.me.sb.isEmpty then .next (s.hold .waitUnit .drained)
  else if s.tileMemory s.cur then .next (s.hold .waitUnit .tileOverlap)
  else f s

/-- What admits an arrival: a gang (R368), and at .pod the group entry. -/
def barGate (id : Fin 32) (sc : BarScope) (s : State) (f : Option (Group × Nat) → State → Out) : Out :=
  if s.me.gang = 0 then raise 0x10 (barTval id.val sc) s
  else match sc with
    | .pod =>
      match s.podAdmit s.cur id.val with
      | none => raise 0x10 (barTval id.val sc) s
      | some x => f (some x) s
    | _ => f none s

/-- The phase token of an arrival made now. -/
def State.openPhase (s : State) (k : BarKey) (pod : Option (Group × Nat)) : Nat :=
  match pod with
  | none => (s.bar k).phase.toNat
  | some x => SMap.get 0 (s.pod k).counts x.2 % 65536
/-- The arrival of the acting context. -/
def State.arrive (s : State) (k : BarKey) (pod : Option (Group × Nat)) (comb : Comb) (v : Word) : State :=
  let s := s.count s.cur 0x0F 1
  match pod with
  | none => s.barArrive k s.cur comb v
  | some x => s.podArrive k x.1.n x.2 (some s.cur) comb v

/-- GBAR (R368): arrives and parks until the phase completes. -/
def execGbar (d a : GReg) (id : Fin 32) (sc : BarScope) (comb : Comb) (s : State) : Out :=
  barGate id sc s (fun pod s => releaseWait s (fun s =>
    let k := s.barKey id sc
    let v := s.g a
    .next ((s.parkOn (.bar k (s.openPhase k pod) true d s.time.toNat none)).arrive k pod comb v)))
/-- GARRIVE (R368). -/
def execGarrive (d : GReg) (id : Fin 32) (sc : BarScope) (s : State) : Out :=
  barGate id sc s (fun pod s => releaseWait s (fun s =>
    let k := s.barKey id sc
    .next ((s.arrive k pod .none 0).finish d (BitVec.ofNat 64 (s.openPhase k pod)))))
/-- GWAIT (R368). It is no arrival, so at .pod it needs no admission. -/
def execGwait (a : GReg) (id : Fin 32) (sc : BarScope) (s : State) : Out :=
  if s.me.gang = 0 then raise 0x10 (barTval id.val sc) s
  else
    let k := s.barKey id sc
    let t := (s.g a).extractLsb' 0 16
    let phase : BitVec 16 := if sc = .pod then BitVec.ofNat 16 (s.pod k).phase else (s.bar k).phase
    let n := (phase - t).toNat
    if 1 ≤ n ∧ n ≤ 32768 then .next s.retire
    else .next (s.parkOn (.bar k t.toNat false 0 s.time.toNat none))

/-- The withdrawal of a parked GBAR of context c (R370): its own arrival, whatever its group entry says by now. -/
def State.withdraw (s : State) (c : Nat) : State :=
  match (s.ctx c).park with
  | .bar k _ true _ _ none =>
    if k.sc = .pod then s.podWithdraw k (fun e => e.ctx == some c) else s.barWithdraw k c
  | _ => s

/-- BARRIER_RELEASE (R338, R368): a waiter of a completed phase acts on the release and goes on, a GBAR with RES. -/
def execBarrierRelease (c : CtxId) (s : State) : Out :=
  match (s.ctx c.val).park with
  | .bar _ _ g d _ (some r) => onCtx c.val (fun s =>
      let s := s.modMe (fun x => { x with events := x.events.filter (·.kind != .barrier) })
      .next (if g then s.finish d r else s.retire)) s
  | _ => notEnabled "BARRIER_RELEASE"
/-- BARRIER_TIMEOUT (R369, R376): the waiter traps, and a GBAR withdraws its arrival. -/
def execBarrierTimeout (c : CtxId) (s : State) : Out :=
  let x := s.ctx c.val
  match x.park with
  | .bar k _ _ _ since none =>
    let bdl := (s.gangOf x.gang.toNat).bdl
    if bdl ≠ 0 ∧ s.elapsed since bdl then
      .next ((s.withdraw c.val).trap c.val 0x10 x.pc (barTval k.id k.sc))
    else notEnabled "BARRIER_TIMEOUT"
  | _ => notEnabled "BARRIER_TIMEOUT"

/-! Registration (R363, R367). -/

/-- Every open barrier of a gang is judged again. -/
def State.barRecheck (g : Nat) : List BarKey → State → State
  | [], s => s
  | k :: t, s => State.barRecheck g t (if k.gang = g ∧ k.sc ≠ .pod then s.barCheck k else s)
/-- Decrements of a context's counter C (R363), a change of which is an event of the context (R338): those that find it 0 are counted as
STALE. -/
def State.decC (s : State) (c n : Nat) : State :=
  let x := (s.ctx c).cntC.toNat
  (s.modCtx c (fun y =>
    let z := { y with cntC := BitVec.ofNat 16 (x - n) }
    if x = 0 ∨ n = 0 then z else z.accept ⟨.counter, 0⟩)).countStale (regionOf c) (n - x)
/-- The held decrements of a gang's member in the regions of a list, taken out. -/
def State.takeHeld (g m : Nat) : List Nat → State → State × Nat
  | [], s => (s, 0)
  | r :: t, s =>
    let mine := fun (e : Nat × Nat × Nat) => e.1 == g && e.2.1 == m
    let n : Nat := ((s.region r).heldDec.filter mine).foldl (fun a e => a + e.2.2) 0
    let q := State.takeHeld g m t (s.modRegion r (fun x => { x with heldDec := x.heldDec.filter (fun e => !mine e) }))
    (q.1, n + q.2)
/-- MTS to MEMBER (R242, R363, R367). -/
def execMtsMember (a : GReg) (s : State) : Out :=
  kOnly (wordMtsMember a) s (fun s =>
    let m := (s.g a).extractLsb' 0 10
    let g := s.me.gang.toNat
    let s := s.modMe (fun c => { c with member := m })
    if g = 0 then .next s.retire
    else
      let x := s.gangOf g
      let y : Gang := ⟨x.bdl, (m.toNat, s.cur) :: x.reg.filter (fun e => e.1 != m.toNat)⟩
      let s := { s with gangs := SMap.put none s.gangs g (some y) }
      let s := State.barRecheck g (s.bars.map (·.1)) s
      let h := State.takeHeld g m.toNat (s.regionsOf (s.islandOf (regionOf s.cur))) s
      .next ((h.1.decC s.cur h.2).retire))

/-- Whether a counter is at or below a bound of CWAIT; 15 names no condition (R365). -/
def cwaitOk (c : Ctx) (bl bs bc bt : Fin 16) : Bool :=
  let ok := fun (x : BitVec 16) (b : Fin 16) => b == 15 || decide (x.toNat ≤ b.val)
  ok c.cntL bl && ok c.cntS bs && ok c.cntC bc && ok c.cntT bt
/-- CWAIT (R365). -/
def execCwait (bL bS bC bT : Fin 16) (s : State) : Out :=
  .next (if cwaitOk s.me bL bS bC bT then s.retire else s.parkOn (.cwait bL bS bC bT))

/-! Byte-count counters. -/

/-- A counter's OVER after a change of its value (R373). -/
def Bc.judge (b : Bc) : Bc := { b with ovf := b.ovf || decide (b.value ≤ -2 ^ 39) || (b.posted && decide (b.value < 0)) }
/-- A destination byte arrives (R373). -/
def Bc.arrive (b : Bc) : Bc := Bc.judge { b with value := max (b.value - 1) (-2 ^ 39) }
/-- A post (R374). -/
def Bc.post (b : Bc) (n : Nat) : Bc := Bc.judge { b with value := min (b.value + n) (2 ^ 39 - 1), posted := true }
/-- Complete (R373). -/
def Bc.complete (b : Bc) : Bool := b.value == 0 && b.posted && !b.ovf
/-- Counter n of core k changed: the contexts parked on it look again (R374), and a completion is an event of the core's contexts
(R338). -/
def State.modBc (s : State) (k : Nat) (n : Fin 16) (f : Bc → Bc) : State :=
  let b := f ((s.core k).bc.get n)
  State.modCtxs (if b.complete then Ctx.accept ⟨.bytes n, 0⟩ else Ctx.wakeOn (.bcwait n)) (ctxsOfCore k)
    (s.modCore k (fun c => { c with bc := c.bc.set n.val b n.isLt }))

def execBcpost (a : GReg) (id : Fin 16) (s : State) : Out :=
  if 2 ^ 39 ≤ (s.g a).toNat then raiseReserved (wordBcpost a id) s
  else .next ((s.modBc (coreOf s.cur) id (·.post (s.g a).toNat)).retire)
def execBcwait (id : Fin 16) (s : State) : Out :=
  let b := (s.core (coreOf s.cur)).bc.get id
  if b.ovf then raise 0x11 (BitVec.ofNat 64 id.val) s
  else if b.complete then .next s.retire
  else .next (s.parkOn (.bcwait id))
def execBcread (d : GReg) (id : Fin 16) (s : State) : Out :=
  let b := (s.core (coreOf s.cur)).bc.get id
  .next (s.finish d (BitVec.ofNat 64 ((b.value % 2 ^ 40).toNat + (if b.posted then 2 ^ 40 else 0) + (if b.ovf then 2 ^ 41 else 0))))
def execBcclr (id : Fin 16) (s : State) : Out :=
  .next ((s.modBc (coreOf s.cur) id (fun _ => ⟨0, false, false⟩)).retire)

/-! Channels. -/

/-- Whether the acting context may receive on a channel (R335). -/
def State.mayReceive (s : State) (ch : Fin 16) : Bool :=
  let b := s.binding (coreOf s.cur) ch.val
  s.me.status.mode || ((b.mode == 1 || b.mode == 2) && b.ctx == s.cur % 4)
/-- CHWAIT (R335). -/
def execChwait (ch : Fin 16) (s : State) : Out :=
  if !s.mayReceive ch then raisePriv (wordChwait ch) s
  else if (s.chan (coreOf s.cur) ch).isEmpty then .next (s.parkOn (.chan ch))
  else .next s.retire
/-- Register 4q + i of a group of four. -/
def quadReg (q : Fin 8) (i : Nat) : GReg := Fin.ofNat 32 (4 * q.val + i)
/-- CHRECV (R335). -/
def execChrecv (dq : Fin 8) (ch : Fin 16) (s : State) : Out :=
  if !s.mayReceive ch then raisePriv (wordChrecv dq ch) s
  else match s.chan (coreOf s.cur) ch with
    | [] => .next (s.parkOn (.chan ch))
    | m :: rest =>
      .next (((((s.modCore (coreOf s.cur) (·.setChan ch rest)).setG (quadReg dq 0) m.m0).setG (quadReg dq 1) m.m1).setG
        (quadReg dq 2) m.m2).finish (quadReg dq 3) m.m3)

/-- The target of a channel address, where it names a core of the acting context's island that is not in reset (R334, R391). -/
def State.chanTarget (s : State) (x : Word) : Option (Nat × Fin 16) :=
  let k := bitsOf x.toNat 13 4
  let r := regionOfCore k
  if x.toNat / 2 ^ 14 = 0 ∧ (s.region r).st = .assigned ∧ s.islandOf r = s.islandOf (regionOf s.cur) then
    some (k, Fin.ofNat 16 (x.toNat % 16))
  else none
/-- CHPOST (R334): waits for the sender's stores, then for room. -/
def execChpost (aq : Fin 8) (b : GReg) (s : State) : Out :=
  match s.chanTarget (s.g b) with
  | none => raise 0x08 (s.g b) s
  | some (k, ch) =>
    let bind := s.binding k ch.val
    if bind.mode = 0 then raise 0x08 (s.g b) s
    else if bind.mode = 3 ∧ !s.me.status.mode then raisePriv (wordChpost aq b) s
    else releaseWait s (fun s =>
      if 8 ≤ (s.chan k ch).length then .next (s.hold .waitUnit (.post aq b))
      else
        .next ((s.chanPut k ch ⟨s.g (quadReg aq 0), s.g (quadReg aq 1), s.g (quadReg aq 2), s.g (quadReg aq 3)⟩).retire))
/-- CHPOST_ACCEPT (R334): the target of a held CHPOST has room, or refuses it by now; the instruction issues then, and is counted, but
where it traps with 0x04 (R250, R377). -/
def execChpostAccept (c : CtxId) (s : State) : Out :=
  match (s.ctx c.val).wait with
  | .post aq b => onCtx c.val (fun s =>
      match s.chanTarget (s.g b) with
      | some (k, ch) =>
        let mode := (s.binding k ch.val).mode
        if mode ≠ 0 ∧ 8 ≤ (s.chan k ch).length then notEnabled "CHPOST_ACCEPT"
        else execChpost aq b (if mode = 3 ∧ !s.me.status.mode then s else s.count s.cur 0x01 1)
      | none => execChpost aq b (s.count s.cur 0x01 1)) s
  | _ => notEnabled "CHPOST_ACCEPT"

/-! The completion of commands, and the arrival of their replies. -/

/-- The status word (R315). -/
def Run.word (r : Run) : Word :=
  BitVec.ofNat 64 (r.code + r.flags.toNat * 2 ^ 8 + 2 ^ 15 + r.result.toNat % 2 ^ 48 * 2 ^ 16)
/-- A run of an engine, by its command. -/
def State.runOf (s : State) (e : EngineId) (seq : Nat) : Option Run := (s.engine e).running.find? (·.cmd.seq == seq)
/-- A command completes (R299): its status word is written after its reply, unless its place has been closed (R391; assumption 77), and
its pins are released. -/
def State.finishRun (s : State) (e : EngineId) (seq : Nat) : State :=
  match s.runOf e seq with
  | none => s
  | some r =>
    let w := r.cmd.who e
    let s := match r.status with
      | none => s
      | some p => if s.closed w.region p.loc then s.dropWrite p.loc else (s.dlogPieces w [p]).homeWrite none [p] (leBytes 8 r.word.toNat)
    (s.pinPieces w false r.pins).modEngine e (fun x => { x with running := x.running.filter (fun y => y.cmd.seq != seq) })
/-- Whether a reservation's hold keeps a run's status word, or the dirty log's append for it, back (R305). -/
def State.statusHeld (s : State) (e : EngineId) (r : Run) : Bool :=
  match r.status with
  | some p => s.heldBack none (s.dlogLocs (r.cmd.who e) [p] ++ pieceLocs [p])
  | none => false

/-- Adds a held decrement, unless the table of 256 pairs is full (R363). -/
def addHeld (g m : Nat) (l : List (Nat × Nat × Nat)) : Option (List (Nat × Nat × Nat)) :=
  if l.any (fun e => e.1 == g && e.2.1 == m) then
    some (l.map (fun e => if e.1 = g ∧ e.2.1 = m then (g, m, e.2.2 + 1) else e))
  else if l.length < 256 then some (l ++ [(g, m, 1)])
  else none

/-- A command's reply has been delivered (R299): without a status word it has completed, otherwise the status word follows. -/
def State.answerRun (s : State) (e : EngineId) (seq : Nat) : State :=
  match s.runOf e seq with
  | none => s
  | some r =>
    if r.status.isNone then s.finishRun e seq
    else s.modEngine e (fun x => { x with running := x.running.map (fun y => if y.cmd.seq = seq then { y with delivered := true } else y) })
/-- Whether a message is of an earlier incarnation of its sender or target, or of the issuer it answers (R319, R336, R375). -/
def State.staleArrival (s : State) (a : Arrival) : Bool :=
  (s.region a.region).inc.toNat != a.inc || (s.region (engineRegion a.eng)).inc.toNat != a.sinc ||
  (s.region (regionOfCore a.core)).inc.toNat != a.tinc

/-- The delivery of a KIND-0 or KIND-1 reply (R319, R336, R363, R364, R375): none where the engine has to hold it (R318). A reply of
a thread with GANG 0 is never held: it lowers whatever count its context holds. -/
def State.deliver (s : State) (a : Arrival) : Option State :=
  let here := regionOfCore a.core
  let fin := fun (s : State) => some (s.answerRun a.eng a.seq)
  if s.staleArrival a || (s.region here).st != .assigned then fin (s.countStale here 1)
  else match a.kind with
    | .msg ch m0 m1 m2 m3 k =>
      if (s.binding a.core ch.val).refuses k then fin (s.countRoute here 1)
      else if 8 ≤ (s.chan a.core ch).length then none
      else fin (s.chanPut a.core ch ⟨m0, m1, m2, m3⟩)
    | .cdec c g m =>
      if (s.ctx c).gang.toNat = g ∨ g = 0 then fin (s.decC c 1)
      else (addHeld g m (s.region here).heldDec).bind (fun l => fin (s.modRegion here (fun x => { x with heldDec := l })))
    | .bytes _ _ => fin s

/-- Whether two replies of an engine go to the same channel, or to contexts of the same core. -/
def Arrival.sameWay (a b : Arrival) : Bool :=
  b.core == a.core && (match a.kind, b.kind with
    | .msg x .., .msg y .. => x == y
    | .cdec .., .cdec .. => true
    | _, _ => false)
/-- Whether a reply of the same engine to the same channel waits before an arrival (R337). -/
def State.behindHeld (s : State) (a : Arrival) : Bool := (s.engine a.eng).held.any a.sameWay
/-- Whether an arrival can be taken now: it is delivered, or its engine has one of its four places for a held reply free (R310). -/
def State.takes (s : State) (a : Arrival) : Bool :=
  decide ((s.engine a.eng).held.length < 4) || (!s.behindHeld a && (s.deliver a).isSome)

/-- An arrival taken from a core's list, delivered or held by its engine. -/
def arrivalStep (name : String) (k : Nat) (p : Arrival → Bool) (s : State) : Out :=
  match (s.core k).arrivals.find? (fun a => p a && s.takes a) with
  | none => notEnabled name
  | some a =>
    let t := s.modCore k (fun c => { c with arrivals := c.arrivals.erase a })
    let hold := t.modEngine a.eng (fun e => { e with held := e.held ++ [a] })
    .next (if t.behindHeld a then hold else (t.deliver a).getD hold)

/-- The moves whose byte a move delivers, itself first: a source that another pending move writes before it is read holds that one's
byte (R326). -/
def sentChain (all : List Sent) : Nat → Sent → List Sent
  | 0, x => [x]
  | n + 1, x => x :: (match x.val, x.via.bind (fun j => all.find? (·.id == j)) with
    | none, some y => sentChain all n y
    | _, _ => [])
/-- The byte that a move reads at its source: the one it held, or the one that software has put there since, which of them is not defined
(R415; a free choice). Where the source has been poisoned since, it was read before. -/
def State.sentByte (s : State) (x : Sent) : Byte :=
  let now := s.byteAt x.src
  x.val.getD (if now = x.seen ∨ s.poisoned x.src ∨ Config.overlapOld s.fresh x.id then x.old else now)
/-- A move written with byte b, unless its place has been closed (assumption 77): where software has stored there meanwhile, either
byte stays (R301; a free choice). -/
def State.putSent (s : State) (x : Sent) (b : Byte) : State :=
  if s.closed 0 x.dst || (s.byteAt x.dst != x.was && Config.overlapOld s.fresh (x.id + 2 ^ 32)) then s
  else
    let t := s.perform none [(x.dst, b)]
    if t.poisoned x.dst && x.heals then t.setPoison x.dst.sector false else t
/-- What a pending move knows once move x has been written with byte b, which those of `chain` deliver as well. -/
def Sent.told (x : Sent) (b : Byte) (chain : List Sent) (z : Sent) : Sent :=
  { z with
    via := if z.via = some x.id then none else z.via
    old := if z.via = some x.id then b else z.old
    seen := if z.src = x.dst then b else z.seen
    was := if z.dst = x.dst then b else z.was
    val := if chain.any (·.id == z.id) then some b else z.val }
/-- The moves of a quad's run that are due are written, in their order (R326). -/
def State.settleGo (q : Nat) (due : Sent → Bool) : Nat → State → State
  | 0, s => s
  | n + 1, s =>
    let all := (s.quad q).sends
    match all.find? due with
    | none => s
    | some x =>
      let chain := sentChain all all.length x
      let b := s.sentByte (chain.getLastD x)
      let t := s.putSent x b
      State.settleGo q due n (({ t with fresh := s.fresh + 1 } : State).modQuad q (fun y => { y with
        sends := (all.filter (·.id != x.id)).map (x.told b chain) }))
/-- All of them. -/
def State.settleSends (s : State) (q : Nat) (due : Sent → Bool) : State := State.settleGo q due (s.quad q).sends.length s
/-- The moves that are written once all but `left` of the bytes into a slot have been counted (R314, R326, R415): those counted, and every
one of the groups before the last of them, since a group starts when the one before has written all its bytes. -/
def countedSends (all : List Sent) (slot left : Nat) (x : Sent) : Bool :=
  let mine := all.filter (·.slot == slot)
  (mine.take (mine.length - left)).any (fun y => y.id == x.id || decide (x.group < y.group))
/-- What the counting of a KIND-2 command's bytes says of the moves of a weave run, with `left` of them still to be counted: those counted
are written. The last of a run that poison has stopped speaks of every move. -/
def State.settleCounted (s : State) (e : EngineId) (seq left : Nat) : State :=
  match e, s.runOf e seq with
  | .weave q, some r =>
    s.settleSends q.val (fun x => (r.code == 4 && left == 0) || countedSends (s.quad q.val).sends (slotOfCore (coreOf r.cmd.ctx)) left x)
  | _, _ => s
/-- What a run's completion says of its moves (R299, R326): all are written where the reply does not count bytes, or where poison has
stopped the run before it wrote any into the slot. -/
def State.settleRun (s : State) (e : EngineId) (r : Run) : State :=
  match e with
  | .weave q => if (r.cmd.w.get 7).toNat % 4 != 2 || (r.code == 4 && r.bytes == 0) then s.settleSends q.val (fun _ => true) else s
  | _ => s

/-- C_REPLY_ARRIVAL (R363). -/
def execCReplyArrival (k : CoreId) (s : State) : Out :=
  arrivalStep "C_REPLY_ARRIVAL" k.val (fun a => match a.kind with | .cdec .. => true | _ => false) s
/-- CHANNEL_ARRIVAL (R336). -/
def execChannelArrival (k : CoreId) (s : State) : Out :=
  arrivalStep "CHANNEL_ARRIVAL" k.val (fun a => match a.kind with | .msg .. => true | _ => false) s
/-- Whether a run counts against the limit of R317: not while it waits for partners in a gathering set or an instance (R326,
R327), and until its reply is delivered and its status word written, so also while the reply is held (assumption 68). -/
def Run.counts (r : Run) : EngineId → Bool
  | .tend _ => true
  | _ => !r.wait || r.done
/-- Whether an engine completes its commands only in acceptance order (R317); members of a gathering set hold nothing up
(R326). -/
def inOrder : EngineId → Bool | .weave _ => true | .lnch _ => true | _ => false
/-- Whether a command of such an engine has one before it that has not completed. -/
def State.behindRun (s : State) (e : EngineId) (seq : Nat) : Bool :=
  inOrder e && ((s.engine e).running.takeWhile (·.cmd.seq != seq)).any (·.counts e)

/-- Whether a byte on its way to be counted can be counted now: the last one, which completes its command (R314), waits for the commands
before it where its engine completes in order (R317). -/
def State.countable (s : State) (a : Arrival) : Bool :=
  match a.kind with
  | .bytes _ left => decide (2 ≤ left) || s.staleArrival a || !s.behindRun a.eng a.seq
  | _ => false
/-- BC_ARRIVAL (R373): one destination byte; the last completes its command. Of a weave run it says that the byte has been written
(R314, R415). -/
def execBcArrival (k : CoreId) (s : State) : Out :=
  match (s.core k.val).arrivals.find? s.countable with
  | none => notEnabled "BC_ARRIVAL"
  | some a =>
    let gone := s.modCore k.val (fun c => { c with arrivals := c.arrivals.erase a })
    if s.staleArrival a then .next (((gone.settleCounted a.eng a.seq 0).countStale (regionOfCore k.val) 1).answerRun a.eng a.seq)
    else match a.kind with
      | .bytes n (left + 2) =>
        .next (((s.modCore k.val (fun c => { c with arrivals := c.arrivals.map (fun b =>
          if b = a then { b with kind := .bytes n (left + 1) } else b) })).settleCounted a.eng a.seq (left + 1)).modBc k.val n Bc.arrive)
      | .bytes n _ => .next (((gone.settleCounted a.eng a.seq 0).modBc k.val n Bc.arrive).answerRun a.eng a.seq)
      | _ => notEnabled "BC_ARRIVAL"

/-- The first held reply that can be delivered and has no earlier one to its channel before it (R337). -/
def State.retryOf (s : State) : List Arrival → List Arrival → Option Arrival
  | _, [] => none
  | seen, a :: t => if (s.deliver a).isSome && !seen.any a.sameWay then some a else State.retryOf s (a :: seen) t
/-- HELD_REPLY_RETRY (R318). -/
def execHeldReplyRetry (e : EngineId) (s : State) : Out :=
  match s.retryOf [] (s.engine e).held with
  | none => notEnabled "HELD_REPLY_RETRY"
  | some a => .next (((s.modEngine e (fun x => { x with held := x.held.erase a })).deliver a).getD s)

/-- The reply of a completed run on its way (R314, R316). -/
def Run.reply (r : Run) (e : EngineId) : Option Arrival :=
  let w7 := (r.cmd.w.get 7).toNat
  let w0 := r.cmd.w.get 0
  let id : Fin 16 := Fin.ofNat 16 (w7 / 4)
  let target := if w0.getLsbD 26 then coreOf r.cmd.ctx else (w0.extractLsb' 16 10).toNat
  let mk := fun (kind : ArrKind) (core : Nat) => some (Arrival.mk kind (regionOf r.cmd.ctx) r.cmd.inc core e r.cmd.seq 0 0)
  match w7 % 4 with
  | 0 => mk (.cdec r.cmd.ctx r.cmd.gang r.cmd.member) (coreOf r.cmd.ctx)
  | 1 => mk (.msg id (BitVec.ofNat 64 ((w0.toNat / 2 ^ 32) + r.cmd.ticket % 2 ^ 32 * 2 ^ 32)) r.word r.m2 r.cmd.ga r.cmd.kmode) target
  | 2 => if r.bytes = 0 then none else mk (.bytes id r.bytes) target
  | _ => none

/-- Whether a run's reply has to wait for the commands before it: not where it counts bytes, of which the last alone completes the command
(R314, R317). -/
def State.replyWaits (s : State) (e : EngineId) (r : Run) : Bool :=
  s.behindRun e r.cmd.seq && !((r.reply e).any (fun a => match a.kind with | .bytes .. => true | _ => false))
/-- ENGINE_COMPLETE (R299, R317): command n of those running, whose effects are performed, sends its reply; once that is delivered,
or where a KIND-2 command has no destination bytes (R314), its status word is written and it has completed. -/
def execEngineComplete (e : EngineId) (n : Nat) (s : State) : Out :=
  match (s.engine e).running[n]? with
  | none => notEnabled "ENGINE_COMPLETE"
  | some r =>
    if r.delivered then (if s.statusHeld e r then notEnabled "ENGINE_COMPLETE" else .next (s.finishRun e r.cmd.seq))
    else if !r.done || r.replied || s.replyWaits e r then notEnabled "ENGINE_COMPLETE"
    else match r.reply e with
      | none => if s.statusHeld e r then notEnabled "ENGINE_COMPLETE" else .next ((s.settleRun e r).finishRun e r.cmd.seq)
      | some a =>
        let s := s.settleRun e r
        let a := { a with sinc := (s.region (engineRegion e)).inc.toNat, tinc := (s.region (regionOfCore a.core)).inc.toNat }
        .next ((s.modEngine e (fun x => { x with running := x.running.map (fun y => if y.cmd.seq = r.cmd.seq then { y with replied := true } else y) })).modCore
          a.core (fun c => { c with arrivals := c.arrivals ++ [a] }))

/-- REGION_EVENT_RETRY (R388). -/
def execRegionEventRetry (r : RegionId) (s : State) : Out :=
  match s.eventRetry r.val with
  | some t => .next t
  | none => notEnabled "REGION_EVENT_RETRY"

end Sys2Proof.Machine
end

