-- ==== Sys2Proof/Machine/Interrupt.lean ====
section
/-! DEFINITION. The taking of interrupts and tile errors (R111 to R113, R224, R250), the end of trap entry (R246), and the traps
of the fetch (R55, R135). -/

namespace Sys2Proof.Machine

/-- The cause that context c takes first among those pending (R224, R250). -/
def State.pendingCause (s : State) (c : Nat) : Option Nat :=
  if s.tileErr c then some 0x12
  else [0x45, 0x43, 0x41, 0x44, 0x40, 0x42].find? (fun n => (s.ctx c).status.ipend.getLsbD (n - 0x40))

/-- Whether the next instruction of context c is a vector instruction that VSTART is to resume (R113). -/
def State.resuming (s : State) (c : Nat) : Bool :=
  (s.ctx c).vstart != 0 && (s.vqOf c).isEmpty &&
  (match (s.ctx c).st with | .ready | .waitReg | .waitUnit | .yielded => true | _ => false) &&
  (match (s.fetch c).2 with | .ok w => resumable w | .error _ => false)

/-- Whether an interrupt that context c will take keeps it from issuing: instructions of it in the vector unit stop or complete first
(R112). -/
def State.stopsIssue (s : State) (c : Nat) : Bool :=
  (s.ctx c).status.ie && (match s.pendingCause c with | some n => decide (n ≠ 0x12) | none => false) && !(s.vqOf c).isEmpty

/-- The wait of context c that an interrupt or tile error ends, and EPC at its next instruction (R111, R370); none where the barrier
it waits for has been released. -/
def State.endPark (s : State) (c : Nat) : Option (State × Word) :=
  let x := s.ctx c
  match x.park with
  | .wfi => some (s.modCtx c (fun y => { y with iret := y.iret + 1, trapRun := 0 }), x.pc)
  | .bar _ _ _ _ _ (some _) => none
  | _ => some (s.withdraw c, x.pc)
/-- The state settled for cause `code` taken by context c, and EPC (R111, R112, R224, R370); none while the context has to go on first.
`stop` chooses the element boundary at which a vector instruction stops. An interrupt stops the context's youngest vector instruction,
or waits for its vector instructions and leaves VSTART at 0 (R112), but where VSTART is to resume the instruction at EPC, which then is
not issued yet: there it stays, so that a save made then is correct, as R409 says (assumption 48). A tile error (0x12) leaves instructions in the vector unit to
complete, and stops only one behind which the context waits under R94, as R111 states (assumption 75). -/
def State.settle (s : State) (c stop code : Nat) : Option (State × Word) :=
  let x := s.ctx c
  let q := s.vqOf c
  match x.miss with
  | .atom _ _ => none
  | _ =>
    if !q.isEmpty && (if code = 0x12 then !q.all (·.last) else x.young) then
      match q with
      | [e] => (s.vStop e stop).map (fun t => (t, e.pc))
      | _ => none
    else if code = 0x12 then s.endPark c
    else if !q.isEmpty then none
    else if s.resuming c then s.endPark c
    else (s.endPark c).map (fun r => (r.1.modCtx c (fun y => { y with vstart := 0 }), r.2))

/-- An interrupt or tile error taken by context c, settled with its EPC (R224, R246, R249). -/
def State.takeCause (s : State) (c code : Nat) (epc : Word) : State :=
  if code = 0x12 then
    let k := s.core (coreOf c)
    (s.modCore (coreOf c) (fun y => { y with errPend := false })).trap c 0x12 epc k.errAddr
  else s.trap c code epc ((s.ctx c).ipendTval.get (Fin.ofNat 6 (code - 0x40)))

/-- INTERRUPT_TAKE (R250): at a boundary with IE = 1, or at once for a FREE context. -/
def execInterruptTake (c : CtxId) (stop : Nat) (s : State) : Out :=
  let x := s.ctx c.val
  let may := match x.st with
    | .free => true
    | .trapping _ => false
    | _ => x.status.ie
  match s.pendingCause c.val with
  | none => notEnabled "INTERRUPT_TAKE"
  | some code =>
    if !may || (s.core (coreOf c.val)).fenced || (s.region (regionOf c.val)).st ≠ .assigned then notEnabled "INTERRUPT_TAKE"
    else match s.settle c.val stop code with
      | none => notEnabled "INTERRUPT_TAKE"
      | some (t, epc) => .next (t.takeCause c.val code epc)

/-- TRAPPING_DONE (R246): six cycles after trap entry, where the context acts on what has been accepted for it meanwhile (R338). -/
def execTrappingDone (c : CtxId) (s : State) : Out :=
  match (s.ctx c.val).st with
  | .trapping since =>
    if since + 6 ≤ s.cycles then .next (s.modCtx c.val (fun x => ({ x with st := .ready } : Ctx).settled)) else notEnabled "TRAPPING_DONE"
  | _ => notEnabled "TRAPPING_DONE"

/-- ILLEGAL_INSTRUCTION (R55): the fetched word is not an instruction, as the step that calls this has found. -/
def execIllegalInstruction (c : CtxId) (s : State) : Out :=
  match s.fetch c.val with
  | (t, .ok w) => .next (t.trap c.val 0x01 (s.ctx c.val).pc (tvalWord w))
  | _ => notEnabled "ILLEGAL_INSTRUCTION"

/-- FETCH_PAGE_FAULT (R135): 0x13, or 0x09 on a poisoned word. -/
def execFetchPageFault (c : CtxId) (s : State) : Out :=
  match s.fetch c.val with
  | (t, .error cause) => .next (t.trap c.val cause (s.ctx c.val).pc (s.ctx c.val).pc)
  | _ => notEnabled "FETCH_PAGE_FAULT"

end Sys2Proof.Machine
end

