-- ==== Sys2Proof/Machine/Engine.lean ====
section
/-! DEFINITION. SEND (R312 to R314) and what the engines have in common: operand bits (R313), the start of a command (R317,
R318), destination lines in acceptance order (R297), and reads and writes for a command (R317). -/

namespace Sys2Proof.Machine

/-! SEND. -/

/-- The engine that the acting context reaches for an engine code (R312). -/
def engineFor (c code : Nat) : EngineId :=
  match code with
  | 0 => .stream (Fin.ofNat 1024 (coreOf c))
  | 1 => .weave (Fin.ofNat 256 (quadOfCore (coreOf c)))
  | 2 => .coll (Fin.ofNat 32 (regionOf c))
  | 3 => .tend (Fin.ofNat 32 (regionOf c))
  | _ => .lnch (Fin.ofNat 32 (regionOf c))
/-- Inbox sizes (R310). -/
def inboxSize : EngineId → Nat
  | .stream _ => 32 | .decomp _ => 16 | .weave _ => 4 | .coll _ => 64 | .tend _ => 128 | .lnch _ => 32
/-- Commands that run at once (R317). -/
def runLimit : EngineId → Nat
  | .stream _ => 4 | .decomp _ => 2 | .weave _ => 1 | .coll _ => 16 | .tend _ => 64 | .lnch _ => 1

/-- Word i of a command block. -/
def Cmd.word (c : Cmd) (i : Nat) : Nat := (c.w.get (Fin.ofNat 8 i)).toNat
/-- KIND (R314). -/
def Cmd.kind (c : Cmd) : Nat := c.word 7 % 4
/-- CMD (R313). -/
def Cmd.op (c : Cmd) : Nat := c.word 0 % 64

/-- Whether SEND refuses a block with INVALID (R314). -/
def State.blockBad (s : State) (code cmd : Nat) (c : Cmd) : Bool :=
  let w0 := c.word 0
  let rc := regionOfCore (bitsOf w0 25 16)
  c.kind == 3 || c.op != cmd || bitsOf w0 10 6 != code || bitsOf w0 15 11 != 0 || bitsOf w0 31 27 != 0 ||
  ((c.kind == 1 || c.kind == 2) && bitsOf w0 26 26 == 0 &&
    !(s.regionsOf (s.islandOf (regionOf s.cur))).contains rc) ||
  (c.kind == 2 && ((code == 1 && cmd == 0) || code == 4 || (code == 3 && c.word 1 % 256 != 1)))

/-- SEND (R312): a release toward the engine (R296), then the block is read, checked and accepted, or refused. -/
def sendOp (code cmd : Nat) (d a : GReg) (gb : Word) (s : State) : Out :=
  let x := s.g a
  if x.toNat % 64 ≠ 0 then raise 0x05 x s
  else match s.transSpan (s.whoCtx s.cur) .load x.toNat 64 with
    | (s, .error e) => raise e.1 x s
    | (s, .ok ps) => if s.engineOwns (pieceLocs ps) then .next (s.hold .waitUnit .engineLine) else releaseWait s (fun s =>
      match s.piecePoison (some (coreOf s.cur)) ps with
      | some va => raise 0x09 (BitVec.ofNat 64 va) s
      | none =>
        let c := s.me
        let bytes := s.pieceBytes ps
        let s := s.coreRead s.cur ps
        let e := engineFor s.cur code
        let g := s.engine e
        let cap := if code = 3 then s.capability (regionOf s.cur) gb.toNat (bytes.getD 8 0).toNat else none
        let cmdBlock : Cmd :=
          ⟨Vector.ofFn (fun i => BitVec.ofNat 64 (leNat ((bytes.drop (8 * i.val)).take 8))), s.cur, c.status.mode, c.asid.toNat, c.ptOn,
            c.ptRoot.toNat, c.dlog, c.gang.toNat, c.member.toNat, (s.region (regionOf s.cur)).inc.toNat, gb, x, g.accepted, s.accSeq,
            cap.map (fun y => ⟨y.1, y.2.1, y.2.2, s.incOf y.2.1.agent⟩)⟩
        if code = 3 ∧ cap.isNone then raise 0x0F gb s
        else if s.blockBad code cmd cmdBlock then .next (s.finish d 0x8000000000000002#64)
        else if inboxSize e ≤ g.inbox.length ∨ (cmdBlock.kind = 0 ∧ c.cntC = 0xFFFF) then
          .next ((s.count s.cur 0x0B 1).finish d 0x8000000000000001#64)
        else
          let s := s.modEngine e (fun y => { y with inbox := y.inbox ++ [cmdBlock], accepted := y.accepted + 1 })
          let s := if cmdBlock.kind = 0 then s.modMe (fun y => { y with cntC := y.cntC + 1 }) else s
          let s := { s with accSeq := s.accSeq + 1 }
          .next (s.finish d (BitVec.ofNat 64 (g.accepted % 2 ^ 32 + code * 2 ^ 32))))

def execSendStrmCopy (d a : GReg) (s : State) : Out := sendOp 0 0 d a 0 s
def execSendStrmGather (d a : GReg) (s : State) : Out := sendOp 0 1 d a 0 s
def execSendStrmScatter (d a : GReg) (s : State) : Out := sendOp 0 2 d a 0 s
def execSendStrmFill (d a : GReg) (s : State) : Out := sendOp 0 3 d a 0 s
def execSendStrmUnz (d a : GReg) (s : State) : Out := sendOp 0 4 d a 0 s
def execSendStrmPlane (d a : GReg) (s : State) : Out := sendOp 0 5 d a 0 s
def execSendWeaveLoad (d a : GReg) (s : State) : Out := sendOp 1 0 d a 0 s
def execSendWeaveRun (d a : GReg) (s : State) : Out := sendOp 1 1 d a 0 s
def execSendCollBmax (d a b : GReg) (s : State) : Out := sendOp 2 0 d a (s.g b) s
def execSendCollIsum (d a b : GReg) (s : State) : Out := sendOp 2 1 d a (s.g b) s
def execSendCollFsum (d a b : GReg) (s : State) : Out := sendOp 2 2 d a (s.g b) s
def execSendCollBcast (d a b : GReg) (s : State) : Out := sendOp 2 3 d a (s.g b) s
def execSendCollOr (d a b : GReg) (s : State) : Out := sendOp 2 4 d a (s.g b) s
def execSendTendCall (d a b : GReg) (s : State) : Out := sendOp 3 0 d a (s.g b) s
def execSendLnchGang (d a : GReg) (s : State) : Out := sendOp 4 0 d a 0 s

/-! Destinations. -/

/-- Elements of a collective command in bytes (R328). -/
def collSize : Nat → Nat | 1 => 4 | 2 => 4 | 4 => 8 | _ => 1
/-- A 32-bit field as a signed stride (R320). -/
def strideOf (x : Nat) : Int := if x < 2 ^ 31 then x else (x : Int) - 2 ^ 32
/-- An address modulo 2^64. -/
def addrOf (x : Int) : Nat := (x % 2 ^ 64).toNat

/-- The bits of a packed source sample where sfmt and dfmt name a widening, 0 for bytes, none for any other pair (R320). -/
def copyWidth (c : Cmd) : Option Nat :=
  match c.word 6 % 64, c.word 6 / 64 % 64 with
  | 0, 0 => some 0
  | f, 0x04 => (match Fmt.ofCode f with | some (.pix w) => some w | _ => none)
  | _, _ => none
/-- The rows of STRM.COPY: source and destination (R320). -/
def copyRows (c : Cmd) : List (Nat × Nat) :=
  let n1 := bitsOf (c.word 3) 47 32
  let n2 := bitsOf (c.word 3) 63 48
  (List.range n2).flatMap (fun (p : Nat) => (List.range n1).map (fun (r : Nat) =>
    (addrOf (c.word 1 + r * strideOf (c.word 4 % 2 ^ 32) + p * strideOf (c.word 4 / 2 ^ 32)),
      addrOf (c.word 2 + r * strideOf (c.word 5 % 2 ^ 32) + p * strideOf (c.word 5 / 2 ^ 32)))))
/-- Bytes of a destination row of STRM.COPY. -/
def copyDst (c : Cmd) : Nat :=
  let n0 := c.word 3 % 2 ^ 32
  if copyWidth c = some 0 then n0 else 2 * n0

/-- Bytes of a source row of STRM.COPY (R34, R320). -/
def copySrc (c : Cmd) : Nat :=
  match copyWidth c with
  | some 0 => c.word 3 % 2 ^ 32
  | some w => (w * (c.word 3 % 2 ^ 32) + 7) / 8
  | none => 0
/-- Bytes of a logical block of the namespace that a storage call names (R331, R352). R331 supports blocks of 512 and 4,096 bytes and
gives no status for another; the call is performed with the block size of the object's record (assumption 79). -/
def Cmd.lbaSize (c : Cmd) : Nat :=
  match c.cap with
  | some y => y.rec_.block
  | none => 0

/-- The maker of a command's accesses without its step's changes of the translation cache. -/
def State.peekBytes (s : State) (w : Who) (a n : Nat) : List Byte :=
  match (s.transSpan w .load a n).2 with
  | .ok ps => s.pieceBytes ps
  | .error _ => []
/-- Index k of STRM.GATHER and STRM.SCATTER (R321). -/
def indexAt (c : Cmd) (k : Nat) : Nat × Nat :=
  let n := 2 ^ bitsOf (c.word 4) 33 32
  ((c.word 3 + k * n) % 2 ^ 64, n)

/-- The destination ranges of a command, by engine and command (R320 to R331). -/
def State.dests (s : State) (e : EngineId) (c : Cmd) : List (Nat × Nat) :=
  match e, c.op with
  | .stream _, 0 => (copyRows c).map (fun r => (r.2, copyDst c))
  | .stream _, 1 => [(c.word 2, c.word 4 % 2 ^ 32 * (c.word 5 % 2 ^ 32))]
  | .stream _, 2 => (List.range (c.word 4 % 2 ^ 32)).map (fun k =>
      let i := indexAt c k
      ((c.word 2 + leNat (s.peekBytes (c.who e) i.1 i.2) * (c.word 5 / 2 ^ 32)) % 2 ^ 64, c.word 5 % 2 ^ 32))
  | .stream _, 3 => [(c.word 2, c.word 3)]
  | .stream _, 5 => (List.range (bitsOf (c.word 5) 35 34 + 1)).map (fun p =>
      ((c.word 2 + p * c.word 4) % 2 ^ 64, c.word 5 % 2 ^ 32))
  | .stream _, _ => [(c.word 2, c.word 4 % 2 ^ 32)]
  | .decomp _, _ => [(c.word 2, c.word 4 % 2 ^ 32)]
  | .coll _, k => [(c.word 2, c.word 3 % 2 ^ 32 * collSize k)]
  | .tend _, _ => if c.word 1 % 256 = 1 then [(c.word 4, c.word 3 % 2 ^ 32 * c.lbaSize)] else []
  | _, _ => []
/-- The source ranges of a command (R320 to R332). -/
def State.sources (s : State) (e : EngineId) (c : Cmd) : List (Nat × Nat) :=
  let n := c.word 4 % 2 ^ 32
  let es := c.word 5 % 2 ^ 32
  let indices := (c.word 3, n * 2 ^ bitsOf (c.word 4) 33 32)
  match e, c.op with
  | .stream _, 0 => (copyRows c).map (fun r => (r.1, copySrc c))
  | .stream _, 1 => indices :: (List.range n).map (fun k =>
      let i := indexAt c k
      ((c.word 1 + leNat (s.peekBytes (c.who e) i.1 i.2) * (c.word 5 / 2 ^ 32)) % 2 ^ 64, es))
  | .stream _, 2 => [indices, (c.word 1, n * es)]
  | .stream _, 3 => []
  | .stream _, 5 => (List.range (bitsOf (c.word 5) (if bitsOf (c.word 5) 36 36 = 1 then 33 else 35)
      (if bitsOf (c.word 5) 36 36 = 1 then 32 else 34) + 1)).map (fun p => ((c.word 1 + p * c.word 3) % 2 ^ 64, es))
  | .stream _, _ => [(c.word 1, c.word 3 % 2 ^ 32)]
  | .decomp _, _ => [(c.word 1, c.word 3 % 2 ^ 32)]
  | .weave _, 0 => [(c.word 1, 16 * (bitsOf (c.word 2) 5 2 + 1))]
  | .weave _, _ => []
  | .coll _, k => [(c.word 1, c.word 3 % 2 ^ 32 * collSize k)]
  | .tend _, _ => if c.word 1 % 256 = 2 then [(c.word 4, c.word 3 % 2 ^ 32 * c.lbaSize)] else []
  | .lnch _, _ =>
    let d := s.peekBytes (c.who e) (c.word 1) 64
    let map := leNat ((d.drop 48).take 8)
    let pages := bitsOf (leNat (s.peekBytes (c.who e) map 8)) 13 8
    (c.word 1, 64) :: (if map = 0 ∨ d = [] then [] else [(map, 72), ((map + 72) % 2 ^ 64, 8 * pages)])
/-- The pieces of those ranges and of the destinations that translate. -/
def State.cmdPieces (s : State) (e : EngineId) (c : Cmd) : List Piece :=
  (s.dests e c ++ s.sources e c).flatMap (fun r => match (s.transSpan (c.who e) .load r.1 r.2).2 with
    | .ok ps => ps
    | .error _ => match (s.transSpan (c.who e) .store r.1 r.2).2 with
      | .ok ps => ps
      | .error _ => [])
/-- The destination of a command, as far as it translates. -/
def State.destPieces (s : State) (e : EngineId) (c : Cmd) : List Piece :=
  (s.dests e c).flatMap (fun r => match (s.transSpan (c.who e) .store r.1 r.2).2 with
    | .ok ps => ps
    | .error _ => [])
/-- The HBM lines that a command may write, those in pages that translate. The line of its status word is none of them: it is never owned,
and the status word is written there even where another command owns the line (DEDUCED, assumption 88). -/
def State.destLines (s : State) (e : EngineId) (c : Cmd) : List (Nat × BitVec 8) := hbmLines (s.destPieces e c)

/-- Every engine of the module that is not idle. -/
def State.engines (s : State) : List EngineId :=
  s.cores.map (fun k => .stream (Fin.ofNat 1024 k.1)) ++
  s.quads.flatMap (fun q => [.weave (Fin.ofNat 256 q.1), .decomp (Fin.ofNat 256 q.1)]) ++
  s.regions.flatMap (fun r => [.coll (Fin.ofNat 32 r.1), .tend (Fin.ofNat 32 r.1), .lnch (Fin.ofNat 32 r.1)])
/-- The HBM lines that commands accepted before a place have still to write: those in an inbox, and those whose effects go on
outside their engine (R297). -/
def State.earlier (s : State) (seq : Nat) : List (Nat × BitVec 8) :=
  s.engines.flatMap (fun e =>
    let x := s.engine e
    (x.inbox.filter (fun c => decide (c.seq < seq))).flatMap (s.destLines e) ++
      (x.running.filter (fun r => !r.done && decide (r.cmd.seq < seq))).flatMap (·.owns))
/-- Whether lines are a command's own by R297: no command accepted before it still has to write one of them. -/
def State.ownLines (s : State) (seq : Nat) (mine : List (Nat × BitVec 8)) : Bool :=
  (s.earlier seq).all (fun l => mine.all (fun m => m.1 != l.1))
/-- The same of the lines of a command that is to start. -/
def State.linesFree (s : State) (e : EngineId) (c : Cmd) : Bool := s.ownLines c.seq (s.destLines e c)

/-! The start of a command. -/

/-- What a command did: status code, flags, result, m2, destination bytes performed, and whether its effects go on outside the
engine. -/
structure Fx where
  code  : Nat
  flags : FFlags
  result : Word
  m2    : Word
  bytes : Nat
  wait  : Bool
  deriving DecidableEq, Repr
/-- A completion with a result that m2 repeats (R315, R316). -/
def Fx.of (code : Nat) (result : Word) : Fx := ⟨code, 0, result, result, 0, false⟩
/-- INVALID before anything is written, with the result that stream commands give. -/
def Fx.invalid : Fx := Fx.of 2 0

/-- The bits of w1 to w6 that a command names; any other must be 0 (R313). -/
def namedBits (e : EngineId) (c : Cmd) : List Nat :=
  let a := 2 ^ 64 - 1
  match e, c.op with
  | .stream _, 0 => [a, a, a, a, a, 0xFFF]
  | .stream _, 1 => [a, a, a, 0x3FFFFFFFF, a, 0]
  | .stream _, 2 => [a, a, a, 0x3FFFFFFFF, a, 0]
  | .stream _, 3 => [a, a, a, 0, 0, 0]
  | .stream _, 5 => [a, a, a, a, 0x1FFFFFFFFF, 0]
  | .stream _, _ => [a, a, 0xFFFFFFFF, 0xFFFFFFFF, 0, 0]
  | .decomp _, _ => [a, a, 0xFFFFFFFF, 0xFFFFFFFF, 0, 0]
  | .weave _, 0 => [a, 0x3F, 0, 0, 0, 0]
  | .weave _, _ => [3, 0xFFFF, 0, 0, 0, 0]
  | .coll _, 0 => [a, a, 0xFFFFFFFF, 1, 0, 0]
  | .coll _, 3 => [a, a, 0xFFFFFFFF, 0x3FFFF, 0, 0]
  | .coll _, _ => [a, a, 0xFFFFFFFF, 0, 0, 0]
  | .tend _, _ =>
    match c.word 1 % 256 with
    | 1 => [0xFF, a, 0xFFFFFFFF, a, 0, 0]
    | 2 => [0xFF, a, 0xFFFFFFFF, a, 0, 0]
    | 3 => [0xFF, a, a, 0, 0, 0]
    | 4 => [0xFF, a, 0, 0, 0, 0]
    | 5 => [0xFF, a, a, a, a, 0]
    | 6 => [0xFF, a, a, 0, 0, 0]
    | _ => [0xFF, a, 0, 0, 0, 0]
  | .lnch _, _ => [a, 0, 0, 0, 0, 0]
/-- Whether a command keeps to them. -/
def Cmd.clean (c : Cmd) (e : EngineId) : Bool :=
  (List.range 6).all (fun i => c.word (i + 1) &&& (2 ^ 64 - 1 - (namedBits e c).getD i 0) == 0)

/-- The command that an engine may take next: the head of its inbox, within the limits of R317 and R318. -/
def State.nextCmd (s : State) (e : EngineId) (op : Nat) : Option Cmd :=
  let x := s.engine e
  match x.inbox with
  | c :: _ =>
    if c.op = op ∧ (x.running.filter (·.counts e)).length < runLimit e ∧ x.held.length < 4 then some c else none
  | [] => none

/-- The status-word address checked as an 8-byte destination (R314): nothing where none is named. -/
def State.statusPiece (s : State) (e : EngineId) (c : Cmd) : State × Except Nat (Option Piece) :=
  let a := c.word 7 / 64 * 64
  if a = 0 then (s, .ok none)
  else match s.transSpan (c.who e) .store a 8 with
    | (s, .ok (p :: _)) => (s, .ok (some p))
    | (s, _) => (s, .error a)

/-- The command leaves its inbox and runs, with the pages of its operands pinned until it completes (R317). One whose writes are
still to come owns its destination lines from now on, recalled from every cache (R297). -/
def State.addRun (s : State) (e : EngineId) (c : Cmd) (st : Option Piece) (x : Fx) : State :=
  let pins := (if x.code = 2 then [] else s.cmdPieces e c) ++ st.toList
  let dst := if x.wait then s.destPieces e c else []
  ((s.recallAll true (hbmLines dst)).modEngine e (fun y => { y with
    inbox := y.inbox.erase c
    running := y.running ++ [⟨c, !x.wait, x.wait, x.code, x.flags, x.result, x.bytes, st, x.m2, pins, hbmLines dst, false, false, dst⟩] })).pinPieces
      (c.who e) true pins

/-- A completion whose result is not stated: a free value. -/
def State.freeFx (s : State) (code : Nat) : State × Fx :=
  let r := s.draw
  (r.2, Fx.of code (Config.freeWord r.1))
/-- INVALID, with the result 0 of the stream and collective commands (R315, R328) or one that is not stated. -/
def State.invalidFx (s : State) (e : EngineId) : State × Fx :=
  match e with
  | .stream _ | .decomp _ | .coll _ => (s, Fx.invalid)
  | _ => s.freeFx 2

/-- The start of a command (R317): its status word's address is checked with its destinations (R314) and unnamed bits complete
it INVALID (R313); `f` does the rest and says what it did. -/
def State.startCmd (s : State) (e : EngineId) (c : Cmd) (f : State → State × Fx) : State :=
  match s.statusPiece e c with
  | (s, .error a) =>
    if c.clean e then s.addRun e c none ⟨3, 0, 0, BitVec.ofNat 64 a, 0, false⟩
    else (s.invalidFx e).1.addRun e c none (s.invalidFx e).2
  | (s, .ok st) =>
    if c.clean e then
      let r := f s
      r.1.addRun e c st r.2
    else (s.invalidFx e).1.addRun e c st (s.invalidFx e).2

/-- The sectors of lines, as places. -/
def sectorLocs (l : List (Nat × BitVec 8)) : List Loc :=
  l.flatMap (fun x => ((List.range 8).filter (fun j => x.2.getLsbD j)).map (fun j => Loc.hbm (x.1 * 128 + 16 * j)))
/-- Whether a reservation holds back an engine's writes to pieces, or the dirty log's appends for them (R305). -/
def State.writeHeld (s : State) (w : Who) (ps : List Piece) : Bool := s.heldBack none (s.dlogLocs w ps ++ sectorLocs (hbmLines ps))
/-- The same of the writes of a command that is to start. -/
def State.cmdHeld (s : State) (e : EngineId) (c : Cmd) : Bool := s.writeHeld (c.who e) (s.destPieces e c)
/-- An event that starts a command: enabled where the engine may take it, its lines are its own (R297) and no reservation holds
its writes back (R305). -/
def startEvent (name : String) (e : EngineId) (op : Nat) (f : Cmd → State → State × Fx) (s : State) : Out :=
  match s.nextCmd e op with
  | none => notEnabled name
  | some c =>
    if !s.linesFree e c || s.cmdHeld e c then notEnabled name
    else .next (s.startCmd e c (f c))

/-- The completion of a run whose effects went on outside its engine. -/
def State.endRun (s : State) (e : EngineId) (seq : Nat) (x : Fx) : State :=
  s.modEngine e (fun y => { y with running := y.running.map (fun r =>
    if r.cmd.seq = seq ∧ !r.done then
      { r with done := true, owns := [], code := x.code, flags := x.flags, result := x.result, m2 := x.m2, bytes := x.bytes }
    else r) })

/-! Reads and writes for a command (R317). -/

/-- A destination check that fails: the address and no byte performed. -/
def Fx.fault (bytes va : Nat) : Fx := ⟨3, 0, BitVec.ofNat 64 bytes, BitVec.ofNat 64 va, bytes, false⟩

/-- The distinct pages of pieces: leaf mappings, or 4 KiB where translation is off; a scratchpad has none (R317). -/
def enginePages (w : Who) (ps : List Piece) : Nat :=
  if w.ptOn then pageCount ps
  else ((ps.flatMap (fun p => match p.loc with
      | .spad _ _ => []
      | _ => (List.range ((p.va + p.len - 1) / 4096 - p.va / 4096 + 1)).map (p.va / 4096 + ·))).foldl
        (fun l p => if l.contains p then l else p :: l) ([] : List Nat)).length

/-- Every destination page translated before any byte is written (R317): nothing, or how the command ends. A page that fails gives FAULT
wherever it lies, also beyond the first 1,024 pages of a destination of more (DEDUCED, assumption 21). -/
def State.takeDests (s : State) (e : EngineId) (c : Cmd) (rs : List (Nat × Nat)) : State × Except Fx Unit :=
  match State.transAll (c.who e) .store rs s with
  | (s, .error x) => (s, .error (Fx.fault 0 x.2))
  | (s, .ok ps) =>
    if 1024 < enginePages (c.who e) ps then (s, .error Fx.invalid) else (s, .ok ())

/-- How a read of a run of source bytes ends: all bytes, or those before the first failing byte with the code and address. -/
structure Read where
  data  : List Byte
  stop  : Option (Nat × Nat)
  deriving DecidableEq, Repr

/-- The bytes of pieces up to the first poisoned sector. -/
def State.readPieces (s : State) (ps : List Piece) : List Byte :=
  match ps with
  | [] => []
  | p :: t =>
    match s.firstPoison p.loc p.len with
    | some i => s.bytesAt p.loc i
    | none => s.bytesAt p.loc p.len ++ State.readPieces s t
/-- A read for a command: FAULT and DATAERR stop it at their first byte (R317). -/
def State.readSrc (s : State) (w : Who) (a n : Nat) : State × Read :=
  match s.transSpan w .load a n with
  | (s, .ok ps) =>
    match s.piecePoison none ps with
    | none => (s, ⟨s.pieceBytes ps, none⟩)
    | some va => (s, ⟨s.readPieces ps, some (4, va)⟩)
  | (s, .error x) =>
    let m := (x.2 + 2 ^ 64 - a % 2 ^ 64) % 2 ^ 64
    match (s.transSpan w .load a m) with
    | (s, .ok ps) =>
      match s.piecePoison none ps with
      | none => (s, ⟨s.pieceBytes ps, some (3, x.2)⟩)
      | some va => (s, ⟨s.readPieces ps, some (4, va)⟩)
    | (s, .error _) => (s, ⟨[], some (3, x.2)⟩)
/-- A write for a command to translated pieces (R274, R297, R301). -/
def State.writePieces (s : State) (w : Who) (ps : List Piece) (data : List Byte) : State := (s.dlogPieces w ps).homeWrite none ps data
/-- A write for a command as it starts, of bytes whose pages takeDests has translated. -/
def State.writeDst (s : State) (w : Who) (a : Nat) (data : List Byte) : State :=
  match s.transSpan w .store a data.length with
  | (s, .ok ps) => s.writePieces w ps data
  | (s, .error _) => s
/-- The address at which a waiting command's destination has been closed since it was pinned: beyond a scratchpad's new end (R261), or
in a region held in reset (R391). -/
def State.closedVa (s : State) (r : Nat) (ps : List Piece) : Option Nat :=
  (s.closedPiece r ps).map (fun p => p.va + (match p.loc with
    | .spad k o => s.spadSize k - o
    | _ => 0))
/-- What a waiting command writes to its destination as it was pinned, and how it ends: FAULT with nothing more written where the
destination has been closed (R261, R317, R391). -/
def State.lateWrite (s : State) (w : Who) (ps : List Piece) (data : List Byte) : State × Option Fx :=
  match s.closedVa w.region ps with
  | some va => (s, some (Fx.fault 0 va))
  | none => (s.writePieces w ps data, none)

/-- The end of a command whose sources stopped it, or that performed everything. -/
def Fx.ended (stop : Option (Nat × Nat)) (bytes : Nat) : Fx :=
  match stop with
  | none => ⟨0, 0, BitVec.ofNat 64 bytes, BitVec.ofNat 64 bytes, bytes, false⟩
  | some x => ⟨x.1, 0, BitVec.ofNat 64 bytes, BitVec.ofNat 64 x.2, bytes, false⟩

end Sys2Proof.Machine
end

