-- ==== Sys2Proof/Machine/Fence.lean ====
section
/-! DEFINITION. FENCE (R293 to R295). -/

namespace Sys2Proof.Machine

/-- Whether some command of context c has still to take destination lines in HBM (R295, R297): one that waits in its inbox. A
command that its engine has started owns its lines or has written them. -/
def State.linesOpen (s : State) (c : Nat) : Bool :=
  (enginesOf c).any (fun e => (s.engine e).inbox.any (fun x => x.ctx == c && !(s.destLines e x).isEmpty))

/-- Whether the accesses and commands that a FENCE names are performed (R281, R294, R295). -/
def State.fenceReady (s : State) (pl ps eng ifetch : Bool) : Bool :=
  let c := s.cur
  let loads := (s.core (coreOf c)).tq.any (fun e => e.ctx == c && !e.pieces.isEmpty && !e.op.stores)
  let stores := !s.me.sb.isEmpty || s.me.acksDue != 0 || s.tileStores c
  !(pl && loads) && !((ps || ifetch) && stores) && !(eng && (if ps then s.cmdsOpen c else s.linesOpen c))

/-- FENCE (R294, R295). Every access is performed toward all scopes at once, so the scope and the later kinds change nothing. -/
def execFence (ifetch eng : Bool) (_sc : Scope) (pl ps _ll _ls : Bool) (s : State) : Out :=
  if !s.fenceReady pl ps eng ifetch then .next (s.hold .waitUnit .fence)
  else
    .next ((if ifetch then s.modCore (coreOf s.cur) (fun k => { k with icache := [] }) else s).retire)

end Sys2Proof.Machine
end

