-- ==== Sys2Proof/Machine/Zstd.lean ====
section
/-! DEFINITION. What R324 names and does not restate: the blocks of a Zstandard frame as RFC 8878 defines them, and XXH64 with seed 0.
Written from those formats (assumption 13). -/

namespace Sys2Proof.Machine

/-! Bit strings. -/

/-- n bits of a bit string from a place up. -/
def bitsAt (x pos n : Nat) : Nat := x / 2 ^ pos % 2 ^ n
/-- n bits of a bit string from a place down; bits below its start are 0. -/
def bitsBack (x pos n : Nat) : Nat := if n ≤ pos then bitsAt x (pos - n) n else bitsAt x 0 pos * 2 ^ (n - pos)
/-- Where a bit string that is read backward starts: below the highest set bit of its last byte. -/
def backStart (l : List Byte) : Option Nat :=
  match l.getLast? with
  | some b => if b = 0 then none else some (8 * (l.length - 1) + Nat.log2 b.toNat)
  | none => none

/-! FSE tables. -/

/-- A cell of an FSE decoding table: its symbol, and how the next state follows from the bits read. -/
structure FseCell where
  sym  : Nat
  bits : Nat
  base : Nat
  deriving DecidableEq, Repr
/-- An FSE decoding table of 2^log cells. -/
structure FseTable where
  log   : Nat
  cells : List FseCell
  deriving DecidableEq, Repr
/-- The cell of a state. -/
def FseTable.at (t : FseTable) (st : Nat) : FseCell := t.cells.getD st ⟨0, 0, 0⟩

/-- The symbols of the cells of a table: those of probability "less than 1" from the end down, the others spread over the rest. -/
def fseSymbols (log : Nat) (norm : List Int) : List Nat :=
  let size := 2 ^ log
  let low := (norm.zipIdx.filter (·.1 == -1)).map (·.2)
  let high := size - low.length
  let seq := norm.zipIdx.flatMap (fun e => List.replicate e.1.toNat e.2)
  let places := ((List.range size).map (fun k => k * (size / 2 + size / 8 + 3) % size)).filter (· < high)
  (List.range size).map (fun i =>
    if high ≤ i then low.getD (size - 1 - i) 0
    else match (places.zip seq).find? (·.1 == i) with
      | some e => e.2
      | none => 0)
/-- The decoding table of a distribution. -/
def fseTable (log : Nat) (norm : List Int) : FseTable :=
  let syms := fseSymbols log norm
  ⟨log, (List.range (2 ^ log)).map (fun i =>
    let y := syms.getD i 0
    let next := (max 1 (norm.getD y 0)).toNat + ((syms.take i).filter (· == y)).length
    let nb := log - Nat.log2 next
    ⟨y, nb, next * 2 ^ nb - 2 ^ log⟩)⟩
/-- A table of one symbol. -/
def fseOne (sym : Nat) : FseTable := ⟨0, [⟨sym, 0, 0⟩]⟩

/-- How many symbols of probability 0 follow one, and where their count ends. -/
def zeroRun (x : Nat) : Nat → Nat → Nat × Nat
  | 0, pos => (0, pos)
  | n + 1, pos =>
    let r := bitsAt x pos 2
    if r = 3 then
      let t := zeroRun x n (pos + 2)
      (3 + t.1, t.2)
    else (r, pos + 2)
/-- The probabilities of a table description, from a place on, and where they end. -/
def fseNorm (x : Nat) : Nat → Nat → Nat → List Int → Option (List Int × Nat)
  | 0, _, _, _ => none
  | n + 1, pos, remaining, acc =>
    if remaining = 0 then some (acc, pos)
    else
      let bits := Nat.log2 (remaining + 1) + 1
      let val := bitsAt x pos bits
      let half := 2 ^ (bits - 1)
      let spare := 2 ^ bits - 2 - remaining
      let r : Nat × Nat := if val % half < spare then (val % half, bits - 1) else (if half ≤ val then val - spare else val, bits)
      let p : Int := (r.1 : Int) - 1
      if remaining < p.natAbs then none
      else if p = 0 then
        let z := zeroRun x 100 (pos + r.2)
        fseNorm x n z.2 remaining (acc ++ 0 :: List.replicate z.1 0)
      else fseNorm x n (pos + r.2) (remaining - p.natAbs) (acc ++ [p])
/-- A table description at the front of some bytes, within a greatest accuracy and a greatest symbol: the table, and its bytes. -/
def fseRead (maxLog maxSym : Nat) (src : List Byte) : Option (FseTable × Nat) :=
  let x := leNat src
  let log := x % 16 + 5
  if maxLog < log then none
  else match fseNorm x 257 4 (2 ^ log) [] with
    | none => none
    | some (norm, pos) =>
      if src.length < (pos + 7) / 8 ∨ maxSym + 1 < norm.length then none else some (fseTable log norm, (pos + 7) / 8)

/-! Huffman tables and literals. -/

/-- A Huffman decoding table: symbol and length by the next bits of the greatest length. -/
structure HuffTable where
  bits  : Nat
  cells : List (Nat × Nat)
  deriving DecidableEq, Repr

/-- Weights decoded by two FSE states in turn, until the bits run out. -/
def weightsGo (t : FseTable) (x : Nat) : Nat → Nat → Nat → Nat → List Nat → Option (List Nat)
  | 0, _, _, _, _ => none
  | n + 1, pos, s1, s2, acc =>
    let c := t.at s1
    if pos < c.bits then some (acc ++ [c.sym, (t.at s2).sym])
    else weightsGo t x n (pos - c.bits) s2 (c.base + bitsBack x pos c.bits) (acc ++ [c.sym])
/-- The table of a list of weights, the last of which follows from the others. -/
def huffTable (ws : List Nat) : Option HuffTable :=
  let sum := ws.foldl (fun a w => if w = 0 then a else a + 2 ^ (w - 1)) 0
  let bits := Nat.log2 sum + 1
  let left := 2 ^ bits - sum
  let all := ws ++ [Nat.log2 left + 1]
  if sum = 0 ∨ 11 < bits ∨ 2 ^ Nat.log2 left ≠ left ∨ 256 < all.length then none
  else some ⟨bits, (List.range bits).flatMap (fun j =>
    (all.zipIdx.filter (·.1 == j + 1)).flatMap (fun e => List.replicate (2 ^ j) (e.2, bits - j)))⟩
/-- A tree description at the front of some bytes: the table, and its bytes. -/
def huffRead (src : List Byte) : Option (HuffTable × Nat) :=
  let h := (src.headD 0).toNat
  if 128 ≤ h then
    let n := h - 127
    let size := 1 + (n + 1) / 2
    if src.length < size then none
    else (huffTable ((List.range n).map (fun i =>
      let b := (src.getD (1 + i / 2) 0).toNat
      if i % 2 = 0 then b / 16 else b % 16))).map (fun t => (t, size))
  else if src.length < 1 + h ∨ h = 0 then none
  else
    let body := (src.drop 1).take h
    (fseRead 6 255 body).bind (fun f =>
      let l := body.drop f.2
      let x := leNat l
      let log := f.1.log
      (backStart l).bind (fun pos =>
        if pos < 2 * log then none
        else (weightsGo f.1 x 256 (pos - 2 * log) (bitsBack x pos log) (bitsBack x (pos - log) log) []).bind (fun ws =>
          (huffTable ws).map (fun t => (t, 1 + h)))))
/-- n symbols of a stream, whose bits they use up. -/
def huffGo (t : HuffTable) (x : Nat) : Nat → Nat → List Byte → Option (List Byte)
  | 0, pos, acc => if pos = 0 then some acc.reverse else none
  | n + 1, pos, acc =>
    let c := t.cells.getD (bitsBack x pos t.bits) (0, 0)
    if pos < c.2 then none else huffGo t x n (pos - c.2) (BitVec.ofNat 8 c.1 :: acc)
def huffStream (t : HuffTable) (n : Nat) (l : List Byte) : Option (List Byte) := (backStart l).bind (fun pos => huffGo t (leNat l) n pos [])
/-- One stream, or four behind a table of their sizes. -/
def huffStreams (t : HuffTable) (four : Bool) (n : Nat) (l : List Byte) : Option (List Byte) :=
  if !four then huffStream t n l
  else
    let q := (n + 3) / 4
    let len := fun (i : Nat) => leNat ((l.drop (2 * i)).take 2)
    let b := l.drop 6
    if l.length < 6 + len 0 + len 1 + len 2 ∨ n < 3 * q then none
    else (huffStream t q (b.take (len 0))).bind (fun w => (huffStream t q ((b.drop (len 0)).take (len 1))).bind (fun x =>
      (huffStream t q ((b.drop (len 0 + len 1)).take (len 2))).bind (fun y =>
        (huffStream t (n - 3 * q) (b.drop (len 0 + len 1 + len 2))).map (fun z => w ++ x ++ y ++ z))))

/-- The literals section of a block: the literals, its bytes, and the Huffman table that it leaves. -/
def zLiterals (prev : Option HuffTable) (src : List Byte) : Option (List Byte × Nat × Option HuffTable) :=
  let x := leNat (src.take 5)
  let fmt := x / 4 % 4
  if src = [] then none
  else if x % 4 < 2 then
    let h : Nat × Nat := if fmt % 2 = 0 then (1, x / 8 % 2 ^ 5) else if fmt = 1 then (2, x / 16 % 2 ^ 12) else (3, x / 16 % 2 ^ 20)
    if x % 4 = 0 then (if src.length < h.1 + h.2 then none else some ((src.drop h.1).take h.2, h.1 + h.2, prev))
    else if src.length < h.1 + 1 then none
    else some (List.replicate h.2 (src.getD h.1 0), h.1 + 1, prev)
  else
    let w := if fmt < 2 then 10 else if fmt = 2 then 14 else 18
    let head := if fmt < 2 then 3 else if fmt = 2 then 4 else 5
    let n := x / 16 % 2 ^ w
    let size := x / 2 ^ (4 + w) % 2 ^ w
    let body := (src.drop head).take size
    if src.length < head + size then none
    else (if x % 4 = 2 then huffRead body else prev.map (fun t => (t, 0))).bind (fun t =>
      (huffStreams t.1 (fmt != 0) n (body.drop t.2)).map (fun l => (l, head + size, some t.1)))

/-! Sequences. -/

/-- Base and extra bits of a literals length code and of a match length code. -/
def llCode (c : Nat) : Nat × Nat :=
  if c < 16 then (c, 0)
  else [(16, 1), (18, 1), (20, 1), (22, 1), (24, 2), (28, 2), (32, 3), (40, 3), (48, 4), (64, 6), (128, 7), (256, 8), (512, 9), (1024, 10),
    (2048, 11), (4096, 12), (8192, 13), (16384, 14), (32768, 15), (65536, 16)].getD (c - 16) (0, 0)
def mlCode (c : Nat) : Nat × Nat :=
  if c < 32 then (c + 3, 0)
  else [(35, 1), (37, 1), (39, 1), (41, 1), (43, 2), (47, 2), (51, 3), (59, 3), (67, 4), (83, 4), (99, 5), (131, 7), (259, 8), (515, 9),
    (1027, 10), (2051, 11), (4099, 12), (8195, 13), (16387, 14), (32771, 15), (65539, 16)].getD (c - 32) (0, 0)
/-- The predefined distributions. -/
def llNorm : List Int :=
  [4, 3, 2, 2, 2, 2, 2, 2, 2, 2, 2, 2, 2, 1, 1, 1, 2, 2, 2, 2, 2, 2, 2, 2, 2, 3, 2, 1, 1, 1, 1, 1, -1, -1, -1, -1]
def ofNorm : List Int := [1, 1, 1, 1, 1, 1, 2, 2, 2, 1, 1, 1, 1, 1, 1, 1, 1, 1, 1, 1, 1, 1, 1, 1, -1, -1, -1, -1, -1]
def mlNorm : List Int := [1, 4, 3, 2, 2, 2, 2, 2, 2] ++ List.replicate 37 1 ++ List.replicate 7 (-1)

/-- What a frame's blocks hand on: the output, the three repeat offsets, the Huffman table and the FSE tables. -/
structure ZState where
  out  : List Byte
  r1   : Nat
  r2   : Nat
  r3   : Nat
  huff : Option HuffTable
  ll   : Option FseTable
  of   : Option FseTable
  ml   : Option FseTable
  deriving DecidableEq, Repr

/-- The table of one kind of code by its mode: predefined, one symbol, described, or the last one again; and its bytes. -/
def seqTable (mode : Nat) (std : FseTable) (prev : Option FseTable) (maxLog maxSym : Nat) (src : List Byte) : Option (FseTable × Nat) :=
  match mode with
  | 0 => some (std, 0)
  | 1 =>
    match src with
    | b :: _ => if b.toNat ≤ maxSym then some (fseOne b.toNat, 1) else none
    | [] => none
  | 2 => fseRead maxLog maxSym src
  | _ => prev.map (fun t => (t, 0))

/-- A match of n bytes at a distance, byte after byte. -/
def copyMatch (off : Nat) : Nat → List Byte → List Byte
  | 0, out => out
  | n + 1, out => copyMatch off n (out ++ [out.getD (out.length - off) 0])
/-- The distance that an offset value names, with the repeat offsets after it; 0 names none. -/
def zOffset (z : ZState) (v ll : Nat) : Nat × ZState :=
  let i := if ll = 0 then v + 1 else v
  let front := fun (o : Nat) => (o, { z with r1 := o, r2 := z.r1, r3 := z.r2 })
  if 3 < v then front (v - 3)
  else match i with
    | 1 => (z.r1, z)
    | 2 => (z.r2, { z with r1 := z.r2, r2 := z.r1 })
    | 3 => front z.r3
    | _ => front (z.r1 - 1)

/-- The sequences of a block, n of them still to come: whether all are well formed and use up the bits, the literals left, and the state
with the output so far. `lim` bounds the output, and `win` the distances. -/
def seqGo (tl tf tm : FseTable) (x lim win : Nat) : Nat → Nat → Nat → Nat → Nat → List Byte → ZState → Bool × List Byte × ZState
  | 0, pos, _, _, _, lits, z => (pos == 0, lits, z)
  | n + 1, pos, sl, so, sm, lits, z =>
    let cl := tl.at sl
    let co := tf.at so
    let cm := tm.at sm
    let ml := mlCode cm.sym
    let ll := llCode cl.sym
    let v := 2 ^ co.sym + bitsBack x pos co.sym
    let pos1 := pos - co.sym
    let mlen := ml.1 + bitsBack x pos1 ml.2
    let pos2 := pos1 - ml.2
    let llen := ll.1 + bitsBack x pos2 ll.2
    let pos3 := pos2 - ll.2
    let d := zOffset z v llen
    let next := if n = 0 then 0 else cl.bits + cm.bits + co.bits
    if pos < co.sym + ml.2 + ll.2 + next ∨ lits.length < llen ∨ lim < z.out.length + llen + mlen ∨ d.1 = 0 ∨
        z.out.length + llen < d.1 ∨ win < d.1 then (false, lits, z)
    else
      let out := copyMatch d.1 mlen (z.out ++ lits.take llen)
      let pos4 := pos3 - cl.bits
      let pos5 := pos4 - cm.bits
      if n = 0 then seqGo tl tf tm x lim win 0 pos3 0 0 0 (lits.drop llen) { d.2 with out := out }
      else seqGo tl tf tm x lim win n (pos5 - co.bits) (cl.base + bitsBack x pos3 cl.bits) (co.base + bitsBack x pos5 co.bits)
        (cm.base + bitsBack x pos4 cm.bits) (lits.drop llen) { d.2 with out := out }

/-- The count at the front of a sequences section, and its bytes. -/
def seqCount (src : List Byte) : Option (Nat × Nat) :=
  let b := fun (i : Nat) => (src.getD i 0).toNat
  let r : Nat × Nat := if b 0 < 128 then (b 0, 1) else if b 0 < 255 then ((b 0 - 128) * 256 + b 1, 2) else (b 1 + b 2 * 256 + 0x7F00, 3)
  if src.length < r.2 then none else some r
/-- The sequences section of a block, run on its literals. -/
def zSequences (lim win : Nat) (src lits : List Byte) (z : ZState) : Bool × ZState :=
  let rest := fun (l : List Byte) (z : ZState) =>
    if lim < z.out.length + l.length then (false, z) else (true, { z with out := z.out ++ l })
  match seqCount src with
  | none => (false, z)
  | some (0, k) => if src.length = k then rest lits z else (false, z)
  | some (n, k) =>
    match src.drop k with
    | [] => (false, z)
    | m :: a =>
      if m.toNat % 4 ≠ 0 then (false, z)
      else match seqTable (m.toNat / 64) (fseTable 6 llNorm) z.ll 9 35 a with
        | none => (false, z)
        | some (tl, i) => match seqTable (m.toNat / 16 % 4) (fseTable 5 ofNorm) z.of 8 31 (a.drop i) with
          | none => (false, z)
          | some (tf, j) => match seqTable (m.toNat / 4 % 4) (fseTable 6 mlNorm) z.ml 9 52 (a.drop (i + j)) with
            | none => (false, z)
            | some (tm, h) =>
              let l := a.drop (i + j + h)
              let x := leNat l
              match backStart l with
              | none => (false, z)
              | some pos =>
                let pos1 := pos - tl.log
                let pos2 := pos1 - tf.log
                if pos < tl.log + tf.log + tm.log then (false, z)
                else
                  let r := seqGo tl tf tm x lim win n (pos2 - tm.log) (bitsBack x pos tl.log) (bitsBack x pos1 tf.log)
                    (bitsBack x pos2 tm.log) lits { z with ll := some tl, of := some tf, ml := some tm }
                  if r.1 then rest r.2.1 r.2.2 else (false, r.2.2)

/-! Blocks. -/

/-- A block by its type, its size and the bytes that follow its header: the bytes it takes, and whether it is well formed. -/
def zBlock (win type size : Nat) (src : List Byte) (z : ZState) : Nat × Bool × ZState :=
  let most := min win (2 ^ 17)
  if most < size ∨ src.length < (if type = 1 then 1 else size) then (0, false, z)
  else match type with
    | 0 => (size, true, { z with out := z.out ++ src.take size })
    | 1 => (1, true, { z with out := z.out ++ List.replicate size (src.getD 0 0) })
    | 2 =>
      match zLiterals z.huff (src.take size) with
      | none => (0, false, z)
      | some (lits, k, h) =>
        let r := zSequences (z.out.length + most) win ((src.take size).drop k) lits { z with huff := h }
        (size, r.1, r.2)
    | _ => (0, false, z)
/-- The blocks of a frame up to the last: the bytes they take, whether they are whole and well formed, and their output. -/
def zBlocks (win : Nat) : Nat → Nat → List Byte → ZState → Nat × Bool × List Byte
  | 0, taken, _, z => (taken, false, z.out)
  | n + 1, taken, src, z =>
    let h := leNat (src.take 3)
    if src.length < 3 then (taken, false, z.out)
    else
      let b := zBlock win (h / 2 % 4) (h / 8) (src.drop 3) z
      if !b.2.1 then (taken, false, b.2.2.out)
      else if h % 2 = 1 then (taken + 3 + b.1, true, b.2.2.out)
      else zBlocks win n (taken + 3 + b.1) (src.drop (3 + b.1)) b.2.2
/-- The blocks of a frame with a window size, at the front of some bytes. -/
def zstdBlocks (win : Nat) (src : List Byte) : Nat × Bool × List Byte :=
  zBlocks win (src.length + 1) 0 src ⟨[], 1, 4, 8, none, none, none, none⟩

/-! XXH64. -/

def xxhP1 : Word := 0x9E3779B185EBCA87#64
def xxhP2 : Word := 0xC2B2AE3D27D4EB4F#64
def xxhP3 : Word := 0x165667B19E3779F9#64
def xxhP4 : Word := 0x85EBCA77C2B2AE63#64
def xxhP5 : Word := 0x27D4EB2F165667C5#64
def xxhRound (acc x : Word) : Word := (acc + x * xxhP2).rotateLeft 31 * xxhP1
def xxhMerge (h v : Word) : Word := (h ^^^ xxhRound 0 v) * xxhP1 + xxhP4
/-- The four accumulators after the whole 32-byte stripes, and the bytes left. -/
def xxhStripes : Nat → List Byte → Word × Word × Word × Word → (Word × Word × Word × Word) × List Byte
  | 0, l, v => (v, l)
  | n + 1, l, v =>
    if l.length < 32 then (v, l)
    else
      let w := fun (i : Nat) => BitVec.ofNat 64 (leNat ((l.drop (8 * i)).take 8))
      xxhStripes n (l.drop 32) (xxhRound v.1 (w 0), xxhRound v.2.1 (w 1), xxhRound v.2.2.1 (w 2), xxhRound v.2.2.2 (w 3))
/-- The bytes after the stripes: by eight, then four, then one. -/
def xxhTail : Nat → List Byte → Word → Word
  | 0, _, h => h
  | n + 1, l, h =>
    if 8 ≤ l.length then
      xxhTail n (l.drop 8) ((h ^^^ xxhRound 0 (BitVec.ofNat 64 (leNat (l.take 8)))).rotateLeft 27 * xxhP1 + xxhP4)
    else if 4 ≤ l.length then
      xxhTail n (l.drop 4) ((h ^^^ (BitVec.ofNat 64 (leNat (l.take 4)) * xxhP1)).rotateLeft 23 * xxhP2 + xxhP3)
    else match l with
      | [] => h
      | b :: t => xxhTail n t ((h ^^^ (b.setWidth 64 * xxhP5)).rotateLeft 11 * xxhP1)
/-- XXH64 with seed 0. -/
def xxh64 (l : List Byte) : Word :=
  let s := xxhStripes l.length l (xxhP1 + xxhP2, xxhP2, 0, 0 - xxhP1)
  let v := s.1
  let h := if l.length < 32 then xxhP5
    else xxhMerge (xxhMerge (xxhMerge (xxhMerge (v.1.rotateLeft 1 + v.2.1.rotateLeft 7 + v.2.2.1.rotateLeft 12 + v.2.2.2.rotateLeft 18)
      v.1) v.2.1) v.2.2.1) v.2.2.2
  let h := xxhTail s.2.length s.2 (h + BitVec.ofNat 64 l.length)
  let h := (h ^^^ (h >>> 33)) * xxhP2
  let h := (h ^^^ (h >>> 29)) * xxhP3
  h ^^^ (h >>> 32)

end Sys2Proof.Machine
end

