-- ==== Sys2Proof/Machine/Stream.lean ====
section
/-! DEFINITION. The stream engine's commands (R320 to R323) and the decompressor (R324). -/

namespace Sys2Proof.Machine

/-! STRM.COPY. -/

/-- Destination bytes that source bytes at the front of a row give: themselves, or the samples wholly among them (R34, R320). -/
def copyBytes (w : Nat) (n0 : Nat) (src : List Byte) : List Byte :=
  if w = 0 then src
  else
    let x := leNat src
    (List.range (min n0 (8 * src.length / w))).flatMap (fun j => leBytes 2 (x / 2 ^ (w * j) % 2 ^ w))

/-- The rows in order, each read from the state before the command: the writes of each, and what stopped it. -/
def State.copyPlan (w n0 sl : Nat) (who : Who) : List (Nat × Nat) → State → State × List (Nat × List Byte) × Option (Nat × Nat)
  | [], s => (s, [], none)
  | r :: t, s =>
    let x := s.readSrc who r.1 sl
    let d := copyBytes w n0 x.2.data
    match x.2.stop with
    | some e => (x.1, [(r.2, d)], some e)
    | none =>
      let y := State.copyPlan w n0 sl who t x.1
      (y.1, (r.2, d) :: y.2.1, y.2.2)
/-- Writes performed in order. -/
def State.writeAll (who : Who) : List (Nat × List Byte) → State → State
  | [], s => s
  | (a, d) :: t, s => State.writeAll who t (s.writeDst who a d)
/-- Bytes that a list of writes performs. -/
def writtenBytes (l : List (Nat × List Byte)) : Nat := l.foldl (fun n x => n + x.2.length) 0

/-- The source place and value of each byte written, by destination place, for a copy whose source and destination overlap. -/
structure Moved where
  dst : Loc
  src : Loc
  old : Byte
  deriving DecidableEq, Repr
/-- What a byte ends holding where it may take any value that its source held during the command (R320): the value before the
command, or the one that a byte of the command wrote there. -/
def movedValue (draw : Nat) (l : List Moved) : Nat → Nat → Byte
  | 0, i => match l[i]? with | some m => m.old | none => 0
  | n + 1, i =>
    match l[i]? with
    | none => 0
    | some m =>
      let j := l.findIdx (fun x => x.dst == m.src)
      if j < l.length && !Config.overlapOld draw i then movedValue draw l n j else m.old
/-- The places of a run of addresses for reading or writing. -/
def State.places (s : State) (w : Who) (k : Acc) (a n : Nat) : List Loc :=
  match (s.transSpan w k a n).2 with
  | .ok ps => pieceLocs ps
  | .error _ => []
/-- The bytes that a byte copy moves, in order. -/
def State.moves (s : State) (w : Who) (rows : List (Nat × Nat)) (n : Nat) : List Moved :=
  rows.flatMap (fun r => ((s.places w .load r.1 n).zip (s.places w .store r.2 n)).map (fun p => ⟨p.2, p.1, s.byteAt p.1⟩))
/-- Whether a byte copy reads a place that it writes. -/
def overlapping (l : List Moved) : Bool := l.any (fun m => l.any (fun x => x.dst == m.src))

/-- STRM.COPY (R320). Where source and destination overlap, a byte copy that runs to its end leaves the choice among R320's values
free; a widening copy, and one that a failing source stops, takes each source byte as it was before the command (assumption 22). -/
def State.strmCopy (s : State) (e : EngineId) (c : Cmd) : State × Fx :=
  let who := c.who e
  let n0 := c.word 3 % 2 ^ 32
  match copyWidth c with
  | none => (s, Fx.invalid)
  | some w =>
    if n0 = 0 ∨ bitsOf (c.word 3) 47 32 = 0 ∨ bitsOf (c.word 3) 63 48 = 0 then (s, Fx.invalid)
    else
      let rows := copyRows c
      match s.takeDests e c (rows.map (fun r => (r.2, copyDst c))) with
      | (s, .error x) => (s, x)
      | (s, .ok ()) =>
        let p := s.copyPlan w n0 (copySrc c) who rows
        let s := p.1
        let n := writtenBytes p.2.1
        let moved := if w = 0 ∧ p.2.2 = none then s.moves who rows n0 else []
        if overlapping moved then
          let vals := (List.range moved.length).map (fun i => movedValue s.fresh moved moved.length i)
          (({ s with fresh := s.fresh + 1 } : State).writeAll who
            ((rows.zip (List.range rows.length)).map (fun r => (r.1.2, (vals.drop (r.2 * n0)).take n0))), Fx.ended none n)
        else ({ (State.writeAll who p.2.1 s) with fresh := s.fresh + 1 }, Fx.ended p.2.2 n)

/-! STRM.GATHER, STRM.SCATTER, STRM.FILL. -/

/-- The elements of a gather in order, from element k on, with the bytes performed so far (R321). -/
def State.gatherGo (c : Cmd) (who : Who) : Nat → Nat → State → Nat → State × Nat × Option (Nat × Nat)
  | 0, _, s, done => (s, done, none)
  | n + 1, k, s, done =>
    let es := c.word 5 % 2 ^ 32
    let i := indexAt c k
    let x := s.readSrc who i.1 i.2
    match x.2.stop with
    | some e => (x.1, done, some e)
    | none =>
      let y := x.1.readSrc who ((c.word 1 + leNat x.2.data * (c.word 5 / 2 ^ 32)) % 2 ^ 64) es
      let s := y.1.writeDst who ((c.word 2 + k * es) % 2 ^ 64) y.2.data
      match y.2.stop with
      | some e => (s, done + y.2.data.length, some e)
      | none => State.gatherGo c who n (k + 1) s (done + es)
/-- STRM.GATHER (R321). -/
def State.strmGather (s : State) (e : EngineId) (c : Cmd) : State × Fx :=
  let n := c.word 4 % 2 ^ 32
  let es := c.word 5 % 2 ^ 32
  if n = 0 ∨ es = 0 ∨ 65536 < es then (s, Fx.invalid)
  else match s.takeDests e c [(c.word 2, n * es)] with
    | (s, .error x) => (s, x)
    | (s, .ok ()) =>
      let r := State.gatherGo c (c.who e) n 0 s 0
      (r.1, Fx.ended r.2.2 r.2.1)

/-- The indices of a scatter, all read before its destinations are known. -/
def State.indices (c : Cmd) (who : Who) : Nat → Nat → State → State × List Nat × Option (Nat × Nat)
  | 0, _, s => (s, [], none)
  | n + 1, k, s =>
    let i := indexAt c k
    let x := s.readSrc who i.1 i.2
    match x.2.stop with
    | some e => (x.1, [], some e)
    | none =>
      let y := State.indices c who n (k + 1) x.1
      (y.1, leNat x.2.data :: y.2.1, y.2.2)
/-- The elements of a scatter in order. -/
def State.scatterGo (who : Who) (es : Nat) : List (Nat × Nat) → State → Nat → State × Nat × Option (Nat × Nat)
  | [], s, done => (s, done, none)
  | r :: t, s, done =>
    let x := s.readSrc who r.1 es
    let s := x.1.writeDst who r.2 x.2.data
    match x.2.stop with
    | some e => (s, done + x.2.data.length, some e)
    | none => State.scatterGo who es t s (done + es)
/-- STRM.SCATTER (R321): of overlapping destinations the highest k prevails. -/
def State.strmScatter (s : State) (e : EngineId) (c : Cmd) : State × Fx :=
  let n := c.word 4 % 2 ^ 32
  let es := c.word 5 % 2 ^ 32
  if n = 0 ∨ es = 0 ∨ 65536 < es then (s, Fx.invalid)
  else match State.indices c (c.who e) n 0 s with
    | (s, _, some x) => (s, Fx.ended (some x) 0)
    | (s, xs, none) =>
      let pairs := (xs.zip (List.range n)).map (fun x =>
        ((c.word 1 + x.2 * es) % 2 ^ 64, (c.word 2 + x.1 * (c.word 5 / 2 ^ 32)) % 2 ^ 64))
      match s.takeDests e c (pairs.map (fun p => (p.2, es))) with
      | (s, .error x) => (s, x)
      | (s, .ok ()) =>
        let r := State.scatterGo (c.who e) es pairs s 0
        (r.1, Fx.ended r.2.2 r.2.1)

/-- STRM.FILL (R322). -/
def State.strmFill (s : State) (e : EngineId) (c : Cmd) : State × Fx :=
  let n := c.word 3
  if n = 0 ∨ 2 ^ 48 < n then (s, Fx.invalid)
  else match s.takeDests e c [(c.word 2, n)] with
    | (s, .error x) => (s, x)
    | (s, .ok ()) =>
      let pat := leBytes 8 (c.word 1)
      (s.writeDst (c.who e) (c.word 2) ((List.range n).map (fun j => pat.getD (j % 8) 0)), Fx.ended none n)

/-! STRM.PLANE. -/

/-- The planes of a block, read in ascending order (R307): element by element, or what stopped the read. -/
def State.planeRead (c : Cmd) (who : Who) (base len : Nat) : Nat → Nat → State → State × List (List Byte) × Option (Nat × Nat)
  | 0, _, s => (s, [], none)
  | n + 1, p, s =>
    let x := s.readSrc who ((c.word 1 + p * c.word 3 + base) % 2 ^ 64) len
    match x.2.stop with
    | some e => (x.1, [], some e)
    | none =>
      let y := State.planeRead c who base len n (p + 1) x.1
      (y.1, x.2.data :: y.2.1, y.2.2)
/-- Plane p of the K leading planes of the elements of a block (R32, R323). -/
def planeOut (P K : Nat) (rnd : Bool) (planes : List (List Byte)) (len p : Nat) : List Byte :=
  (List.range len).map (fun i =>
    let n := planes.length
    let q := intOf (8 * n) true (leNat (planes.map (fun x => x.getD i 0)).reverse)
    let v := wrapBits (8 * K) (if rnd then leadPlanes P K true q else q)
    BitVec.ofNat 8 (v / 2 ^ (8 * (K - 1 - p))))
/-- The blocks of a STRM.PLANE from block b on, each committed from plane K − 1 up to plane 0 (R306). -/
def State.planeGo (c : Cmd) (who : Who) (P K : Nat) (rnd : Bool) (count : Nat) :
    Nat → Nat → State → Nat → State × Nat × Option (Nat × Nat)
  | 0, _, s, done => (s, done, none)
  | n + 1, b, s, done =>
    let len := min 32 (count - 32 * b)
    let r := State.planeRead c who (32 * b) len (if rnd then P else K) 0 s
    match r.2.2 with
    | some e => (r.1, done, some e)
    | none =>
      let ws := ((List.range K).reverse).map (fun p => ((c.word 2 + p * c.word 4 + 32 * b) % 2 ^ 64, planeOut P K rnd r.2.1 len p))
      State.planeGo c who P K rnd count n (b + 1) (State.writeAll who ws r.1) (done + K * len)
/-- STRM.PLANE (R323). -/
def State.strmPlane (s : State) (e : EngineId) (c : Cmd) : State × Fx :=
  let count := c.word 5 % 2 ^ 32
  let P := bitsOf (c.word 5) 33 32 + 1
  let K := bitsOf (c.word 5) 35 34 + 1
  let rnd := bitsOf (c.word 5) 36 36 == 1
  if count = 0 ∨ P < K ∨ c.word 1 % 32 ≠ 0 ∨ c.word 2 % 32 ≠ 0 ∨ c.word 3 % 32 ≠ 0 ∨ c.word 4 % 32 ≠ 0 then (s, Fx.invalid)
  else match s.takeDests e c ((List.range K).map (fun p => ((c.word 2 + p * c.word 4) % 2 ^ 64, count))) with
    | (s, .error x) => (s, x)
    | (s, .ok ()) =>
      let r := State.planeGo c (c.who e) P K rnd count ((count + 31) / 32) 0 s 0
      (r.1, Fx.ended r.2.2 r.2.1)

/-! The steps of the stream engine. -/

def execStrmCopy (k : CoreId) (s : State) : Out := startEvent "STRM_COPY" (.stream k) 0 (fun c s => s.strmCopy (.stream k) c) s
def execStrmGather (k : CoreId) (s : State) : Out := startEvent "STRM_GATHER" (.stream k) 1 (fun c s => s.strmGather (.stream k) c) s
def execStrmScatter (k : CoreId) (s : State) : Out := startEvent "STRM_SCATTER" (.stream k) 2 (fun c s => s.strmScatter (.stream k) c) s
def execStrmFill (k : CoreId) (s : State) : Out := startEvent "STRM_FILL" (.stream k) 3 (fun c s => s.strmFill (.stream k) c) s
def execStrmPlane (k : CoreId) (s : State) : Out := startEvent "STRM_PLANE" (.stream k) 5 (fun c s => s.strmPlane (.stream k) c) s

/-- The quad of a core, by number. -/
def quadId (k : Nat) : QuadId := Fin.ofNat 256 (quadOfCore k)

/-- STRM_UNZ_FORWARD (R311, R324): the command at the head of the stream inbox goes to the quad's decompressor, when it has
room; it keeps its acceptance number and completes from there. -/
def execStrmUnzForward (k : CoreId) (s : State) : Out :=
  match (s.core k.val).stream.inbox with
  | c :: rest =>
    let q := quadOfCore k.val
    if c.op ≠ 4 ∨ 16 ≤ (s.quad q).decomp.inbox.length then notEnabled "STRM_UNZ_FORWARD"
    else
      .next ((s.modCore k.val (fun x => { x with stream := { x.stream with inbox := rest } })).modQuad q (fun x =>
        { x with decomp := { x.decomp with inbox := x.decomp.inbox ++ [c] } }))
  | [] => notEnabled "STRM_UNZ_FORWARD"

/-- The header of a Zstandard frame (RFC 8878): its bytes with the magic number, the window size, the dictionary identifier, the
stated content size and whether a checksum follows the blocks. -/
structure ZHead where
  size   : Nat
  window : Nat
  dict   : Nat
  fcs    : Option Nat
  check  : Bool
  deriving DecidableEq, Repr

/-- The header at the front of a frame, where it is whole and its reserved bit is 0 (assumption 13). -/
def zstdHead (src : List Byte) : Option ZHead :=
  let d := (src.getD 4 0).toNat
  let single := bitsOf d 5 5 == 1
  let win := if single then 0 else 1
  let did := [0, 1, 2, 4].getD (d % 4) 0
  let len := match d / 64 with
    | 0 => if single then 1 else 0
    | 1 => 2
    | 2 => 4
    | _ => 8
  let size := 5 + win + did + len
  let content := leNat ((src.drop (5 + win + did)).take len) + (if len = 2 then 256 else 0)
  let w := (src.getD 5 0).toNat
  let base := 2 ^ (10 + w / 8)
  if src.length < size ∨ bitsOf d 3 3 = 1 then none
  else some ⟨size, if single then content else base + base / 8 * (w % 8), leNat ((src.drop (5 + win)).take did),
    if len = 0 then none else some content, bitsOf d 2 2 == 1⟩
/-- One Zstandard frame at the front of a source (R324): the bytes it takes, its status code and its output. -/
def zstdFrame (src : List Byte) : Nat × Nat × List Byte :=
  match zstdHead src with
  | none => (0, 6, [])
  | some h =>
    if 2 ^ 23 < h.window ∨ h.dict ≠ 0 then (0, 5, [])
    else
      let b := zstdBlocks h.window (src.drop h.size)
      let last := h.size + b.1
      let size := if h.check then last + 4 else last
      let out := b.2.2
      if !b.2.1 || decide (src.length < size) || h.fcs.any (· != out.length) then (0, 6, out)
      else if h.check && leNat ((src.drop last).take 4) != (xxh64 out).toNat % 2 ^ 32 then (0, 7, out)
      else (size, 0, out)

/-- The frames of a source, in order, with the output so far (R324): Zstandard frames are decoded, skippable frames skipped,
any other magic number is CORRUPT. -/
def zstdGo : Nat → List Byte → List Byte → Nat × List Byte
  | 0, _, out => (0, out)
  | n + 1, src, out =>
    let magic := leNat (src.take 4)
    if src = [] then (0, out)
    else if src.length < 8 then (6, out)
    else if magic = 0xFD2FB528 then
      let f := zstdFrame src
      if f.2.1 = 0 then zstdGo n (src.drop f.1) (out ++ f.2.2) else (f.2.1, out ++ f.2.2)
    else if magic / 16 = 0x184D2A5 then
      let size := 8 + leNat ((src.drop 4).take 4)
      if src.length < size then (6, out) else zstdGo n (src.drop size) out
    else (6, out)

/-- STRM.UNZ (R324): output beyond the capacity ends in OVERFLOW with the bytes below it. A source that fails or is poisoned ends it with
FAULT or DATAERR, whatever the bytes before say (assumption 13). -/
def State.strmUnz (s : State) (e : EngineId) (c : Cmd) : State × Fx :=
  let n := c.word 3 % 2 ^ 32
  let cap := c.word 4 % 2 ^ 32
  if n = 0 then (s, Fx.invalid)
  else match s.takeDests e c [(c.word 2, cap)] with
    | (s, .error x) => (s, x)
    | (s, .ok ()) =>
      let x := s.readSrc (c.who e) (c.word 1) n
      let z := zstdGo x.2.data.length x.2.data []
      let beyond := decide (cap < z.2.length)
      let out := z.2.take cap
      let s := x.1.writeDst (c.who e) (c.word 2) out
      match x.2.stop with
      | some f => (s, Fx.ended (some f) out.length)
      | none =>
        let code := if beyond then 8 else z.1
        (s, { Fx.ended none out.length with code := code })

/-- STRM_UNZ (R324). -/
def execStrmUnz (q : QuadId) (s : State) : Out := startEvent "STRM_UNZ" (.decomp q) 4 (fun c s => s.strmUnz (.decomp q) c) s

end Sys2Proof.Machine
end

