-- ==== Sys2Proof/Machine/Weave.lean ====
section
/-! DEFINITION. The weave engine (R325, R326, R355). -/

namespace Sys2Proof.Machine

/-- A weave step from its two words, where it keeps to R325 and R355. -/
def weaveStep (w0 w1 : Nat) : Option WStep :=
  let x : WStep := ⟨bitsOf w0 1 0, bitsOf w0 3 2, bitsOf w0 7 4, bitsOf w0 23 8, bitsOf w0 46 24, bitsOf w1 22 0, bitsOf w1 54 32⟩
  if bitsOf w0 63 47 ≠ 0 ∨ bitsOf w1 31 23 ≠ 0 ∨ bitsOf w1 63 55 ≠ 0 ∨ ¬ x.gran ∈ [0, 1, 2, 4, 8] ∨ x.len = 0 ∨
      (x.gran ≠ 0 ∧ x.len % x.gran ≠ 0) then none
  else some x
/-- Steps 4j to 4j + 3. -/
def weaveGroup (l : List WStep) (j : Nat) : List WStep := (l.drop (4 * j)).take 4
/-- Whether no two steps of a group name the same source or the same destination (R325). -/
def groupApart (l : List WStep) : Bool := decide ((l.map (·.src)).Nodup ∧ (l.map (·.dst)).Nodup)
/-- The steps of a table in memory, where every one is well formed. -/
def weaveSteps (bytes : List Byte) (n : Nat) : Option (List WStep) :=
  let word := fun (i : Nat) => leNat ((bytes.drop (8 * i)).take 8)
  let l := (List.range n).map (fun i => weaveStep (word (2 * i)) (word (2 * i + 1)))
  if l.all (·.isSome) ∧ (List.range 4).all (fun j => groupApart (weaveGroup (l.filterMap id) j)) then some (l.filterMap id) else none

/-- WEAVE.LOAD (R325). -/
def State.weaveLoad (s : State) (q : QuadId) (c : Cmd) : State × Fx :=
  let e : EngineId := .weave q
  let n := bitsOf (c.word 2) 5 2 + 1
  if c.word 1 % 8 ≠ 0 then s.invalidFx e
  else
    let x := s.readSrc (c.who e) (c.word 1) (16 * n)
    match x.2.stop with
    | some f => (x.1, Fx.ended (some f) 0)
    | none =>
      match weaveSteps x.2.data n with
      | none => x.1.invalidFx e
      | some l =>
        let id : Fin 4 := Fin.ofNat 4 (c.word 2)
        (x.1.modQuad q.val (fun y => { y with tables := y.tables.set id.val (some l) id.isLt })).freeFx 0

/-- A run of the gathering set, by its command. -/
def State.weaveRunOf (s : State) (q : QuadId) (seq : Nat) : Option Run := (s.quad q.val).weave.running.find? (·.cmd.seq == seq)

/-- WEAVE_LOAD (R325, R326): a LOAD of a table that the gathering set names waits at the head of the inbox. -/
def execWeaveLoad (q : QuadId) (s : State) : Out :=
  match s.nextCmd (.weave q) 0 with
  | none => notEnabled "WEAVE_LOAD"
  | some c =>
    if (s.quad q.val).set.any (fun x => match s.weaveRunOf q x.2 with
        | some r => r.cmd.word 1 % 4 == c.word 2 % 4
        | none => false) then notEnabled "WEAVE_LOAD"
    else .next (s.startCmd (.weave q) c (fun s => s.weaveLoad q c))

/-- WEAVE_RUN (R326): a RUN joins the gathering set, or completes INVALID as it is taken, or FAULT where the address of its status word
fails, without joining (assumption 23); one that may join, from a slot that is
in the set, waits. -/
def execWeaveRun (q : QuadId) (s : State) : Out :=
  match s.nextCmd (.weave q) 1 with
  | none => notEnabled "WEAVE_RUN"
  | some c =>
    let n := c.word 2
    let slot := slotOfCore (coreOf c.ctx)
    if c.clean (.weave q) && decide (1 ≤ n ∧ n ≤ 4096) && (s.quad q.val).set.any (·.1 == slot) then notEnabled "WEAVE_RUN"
    else
      .next (s.startCmd (.weave q) c (fun s =>
        if n = 0 ∨ 4096 < n then s.invalidFx (.weave q)
        else
          (s.modQuad q.val (fun x => { x with
            set := x.set ++ [(slot, c.seq)]
            since := if x.set.isEmpty then s.cycles else x.since }), { Fx.of 0 0 with wait := true })))

/-- The window address of an offset in a quad slot's scratchpad (R260). -/
def windowAddr (slot off : Nat) : Nat := 0xFFFFF00000000000 + slot * 0x1000000 + off

/-- The first offset that a step of n rows touches outside a scratchpad, as an address (R326). -/
def stepBreach (lim : Nat → Nat) (n : Nat) (x : WStep) : Option Nat :=
  (List.range n).findSome? (fun r =>
    let a := x.soff + r * x.stride
    let b := x.doff + r * x.len
    if lim x.src < a + x.len then some (windowAddr x.src (max a (lim x.src)))
    else if lim x.dst < b + x.len then some (windowAddr x.dst (max b (lim x.dst)))
    else none)
/-- The bytes that a step moves (R326): row, source offset and destination offset. -/
def stepMoves (n : Nat) (x : WStep) : List (Nat × Nat × Nat) :=
  (List.range n).flatMap (fun r =>
    if x.gran = 0 then (List.range x.len).map (fun i => (r, x.soff + r * x.stride + i, x.doff + r * x.len + i))
    else (List.range x.len).map (fun i =>
      (r, x.soff + r * x.stride + i, x.doff + (i / x.gran * n + r) * x.gran + i % x.gran)))

/-- The moves of group j in quad q, in the order of steps, rows and columns, each by itself. -/
def State.groupMoves (s : State) (q n j : Nat) (g : List WStep) : List Sent :=
  g.flatMap (fun x => (stepMoves n x).map (fun m =>
    let a := Loc.spad (coreAtSlot q x.src) m.2.1
    let b := Loc.spad (coreAtSlot q x.dst) m.2.2
    ⟨0, j, x.dst, m.1, b, a, none, false, s.byteAt a, s.byteAt a, s.byteAt b, none⟩))
/-- The move of a group that writes the source of its i-th before that is read (R326): the rows of a step follow one another, so
a row reads what an earlier row of its step wrote; the steps run at once, so a source that another step writes is read before or after
that, which one is not defined (a free value; assumption 23). -/
def weaveFrom (draw : Nat) (l : List Sent) (i : Nat) : Option Nat :=
  l[i]?.bind (fun m =>
    let cross := l.findIdx (fun x => x.slot != m.slot && x.dst == m.src)
    if cross < l.length && !Config.overlapOld draw i then some cross
    else (List.range i).reverse.find? (fun j => match l[j]? with
      | some x => x.slot == m.slot && decide (x.row < m.row) && x.dst == m.src
      | none => false))
/-- Whether the i-th move of a group is the last in a sector of which the group writes every byte (R140). -/
def weaveHeals (l : List Sent) (i : Nat) : Bool :=
  l[i]?.any (fun m => (List.range 16).all (fun o => l.any (·.dst == m.dst.sector.plus o)) && !(l.drop (i + 1)).any (·.dst.sector == m.dst.sector))
/-- The moves of a group numbered after those before it, each with the move that writes its source before it is read: one of its own
group, or the last before that. -/
def linkMoves (draw : Nat) (before l : List Sent) : List Sent :=
  (l.zip (List.range l.length)).map (fun x => { x.1 with
    id := before.length + x.2
    via := ((weaveFrom draw l x.2).map (before.length + ·)).or ((before.filter (·.dst == x.1.src)).getLast?.map (·.id))
    heals := weaveHeals l x.2 })

/-- The groups of a run in order (R326): the moves to be made, and the poisoned source byte that stops the run (R317). -/
def State.weaveGo (q n : Nat) : Nat → List (List WStep) → State → List Sent → List Sent × Option Nat
  | _, [], _, sent => (sent, none)
  | j, g :: t, s, sent =>
    let l := s.groupMoves q n j g
    match l.find? (fun m => s.poisoned m.src) with
    | some m => (sent, some (match m.src with
      | .spad k o => windowAddr (slotOfCore k) o
      | _ => 0))
    | none =>
      let dsts := l.map (·.dst)
      State.weaveGo q n (j + 1) t (s.healed (dsts.map (·, 0)) dsts) (sent ++ linkMoves (s.fresh + j) sent l)

/-- The four runs of a complete set end; `x` says how for each slot. -/
def State.endSet (s : State) (q : QuadId) (x : Nat → Fx) : List (Nat × Nat) → State
  | [] => s.modQuad q.val (fun y => { y with set := [] })
  | m :: t => State.endSet (s.endRun (.weave q) m.2 (x m.1)) q x t

/-- WEAVE_RUN_START (R326): the set is judged, and the run has its rows to move, group by group. Each byte is written when it is counted, or
at the reply of a command that counts none (R314; State.settleCounted, State.settleRun; assumption 23). -/
def execWeaveRunStart (q : QuadId) (s : State) : Out :=
  let set := (s.quad q.val).set
  let cmds := set.filterMap (fun m => (s.weaveRunOf q m.2).map (·.cmd))
  match cmds with
  | c :: rest =>
    if set.length < 4 then notEnabled "WEAVE_RUN_START"
    else
      let n := c.word 2
      if rest.any (fun d => d.word 1 != c.word 1 || d.word 2 != n) then
        let r := s.freeFx 9
        .next (r.1.endSet q (fun _ => r.2) set)
      else match (s.quad q.val).tables.get (Fin.ofNat 4 (c.word 1)) with
        | none =>
          let r := s.freeFx 2
          .next (r.1.endSet q (fun _ => r.2) set)
        | some l =>
          let lim := fun (slot : Nat) => s.spadSize (coreAtSlot q.val slot)
          match l.findSome? (stepBreach lim n) with
          | some va => .next (s.endSet q (fun _ => Fx.fault 0 va) set)
          | none =>
            let s := s.settleSends q.val (fun _ => true)
            let r := State.weaveGo q.val n 0 ((List.range 4).map (weaveGroup l)) s []
            let s := ({ s with fresh := s.fresh + 4 } : State).modQuad q.val (fun x => { x with sends := r.1 })
            let bytes := fun (slot : Nat) => (r.1.filter (·.slot == slot)).length
            match r.2 with
            | some va => .next (s.endSet q (fun slot => Fx.ended (some (4, va)) (bytes slot)) set)
            | none =>
              let f := s.freeFx 0
              .next (f.1.endSet q (fun slot => { f.2 with bytes := bytes slot }) set)
  | [] => notEnabled "WEAVE_RUN_START"

/-- WEAVE_GATHER_TIMEOUT (R326): 2^20 cycles after the first RUN joined. -/
def execWeaveGatherTimeout (q : QuadId) (s : State) : Out :=
  let x := s.quad q.val
  if x.set.isEmpty ∨ 4 ≤ x.set.length ∨ s.cycles < x.since + 2 ^ 20 then notEnabled "WEAVE_GATHER_TIMEOUT"
  else
    let r := s.freeFx 10
    .next (r.1.endSet q (fun _ => r.2) x.set)

end Sys2Proof.Machine
end

