-- ==== Sys2Proof/Machine/Coll.lean ====
section
/-! DEFINITION. The collective engines (R287, R327, R328, R354, R372). -/

namespace Sys2Proof.Machine

/-- The key of the number of a rank's next instance on a group, which the lowest region with a member of it stands for (R327). -/
def collKey (home g rank : Nat) : Nat := (home * 256 + g) * 131072 + rank

/-- Whether an instance has all its contributions. -/
def CollInst.full (x : CollInst) : Bool := decide (x.n ≤ x.contribs.length)

/-- A contribution joins its instance, which its first contribution opens with the group's count and deadline (R327, R354); one that comes
after its instance has ended in TIMEOUT opens it anew (assumption 97). -/
def State.contribute (s : State) (home g k : Nat) (y : Group) (digest : BitVec 32) (c : Contrib) : State :=
  if s.collInst.any (fun x => x.home == home && x.group == g && x.k == k) then
    { s with collInst := s.collInst.map (fun x =>
        if x.home = home ∧ x.group = g ∧ x.k = k then
          { x with contribs := x.contribs ++ [c], differs := x.differs || x.digest != digest }
        else x) }
  else { s with collInst := s.collInst ++ [⟨home, g, k, y.n, digest, [c], s.time.toNat, y.dl, false, []⟩] }

/-- What a member has to say beside its data: BMAX's fx, BCAST's root (R328). -/
def Cmd.collPar (c : Cmd) : Nat :=
  match c.op with
  | 0 => c.word 4 % 2
  | 3 => c.word 4 % 2 ^ 18
  | _ => 0
/-- The group and rank under which a command contributes, where it meets R327's checks. -/
def State.collMember (s : State) (r : Nat) (c : Cmd) : Option (Group × Nat) :=
  let n := c.word 3 % 2 ^ 32
  let z := collSize c.op
  if n = 0 ∨ 2 ^ 24 < n ∨ c.word 1 % z ≠ 0 ∨ c.word 2 % z ≠ 0 then none
  else (s.group r c.gb.toNat).bind (fun g => (s.rankOf r g c.ctx).map (fun i => (g, i)))

/-- A collective command at its engine (R327): INVALID and no contribution, or a contribution that waits for its instance. A
member whose own source or destination fails completes at once and still counts, and only a failing source makes the others
MISMATCH; the source of a BCAST member that is not the root is read and checked like any other (assumption 25). -/
def State.collStart (s : State) (r : Nat) (c : Cmd) : State × Fx :=
  let e : EngineId := .coll (Fin.ofNat 32 r)
  let z := collSize c.op
  let n := c.word 3 % 2 ^ 32
  match s.collMember r c with
  | none => (s, Fx.invalid)
  | some (g, rank) =>
    let t := s.takeDests e c [(c.word 2, n * z)]
    match t.2 with
    | .error ⟨2, _, _, _, _, _⟩ => (t.1, Fx.invalid)
    | d =>
      let x := t.1.readSrc (c.who e) (c.word 1) (n * z)
      let home := s.groupHome r c.gb.toNat
      let key := collKey home c.gb.toNat rank
      let k := SMap.get 0 s.collCnt key
      let s := { x.1 with collCnt := SMap.put 0 x.1.collCnt key (k + 1) }
      let s := s.contribute home c.gb.toNat k g (s.digest r c.gb.toNat)
        ⟨rank, c.op, n, c.collPar, x.2.data, x.2.stop.isSome, some (r, c.seq)⟩
      match d, x.2.stop with
      | .error f, _ => (s, f)
      | .ok (), some f => (s, Fx.ended (some f) 0)
      | .ok (), none => (s, { Fx.of 0 0 with wait := true })

/-- An event that starts a collective command. It takes its destination lines and writes nothing yet, so it waits for no line; a
status word that cannot be written completes it FAULT beside its contribution (assumption 25). -/
def collEvent (name : String) (r : RegionId) (op : Nat) (s : State) : Out :=
  let e : EngineId := .coll r
  match s.nextCmd e op with
  | none => notEnabled name
  | some c =>
    match s.statusPiece e c with
    | (t, .error a) =>
      if !c.clean e then .next (t.addRun e c none Fx.invalid)
      else
        let f := t.collStart r.val c
        .next (f.1.addRun e c none (if f.2.code = 2 then f.2 else Fx.fault 0 a))
    | _ => .next (s.startCmd e c (fun s => s.collStart r.val c))

def execCollBmax (r : RegionId) (s : State) : Out := collEvent "COLL_BMAX" r 0 s
def execCollIsum (r : RegionId) (s : State) : Out := collEvent "COLL_ISUM" r 1 s
def execCollFsum (r : RegionId) (s : State) : Out := collEvent "COLL_FSUM" r 2 s
def execCollBcast (r : RegionId) (s : State) : Out := collEvent "COLL_BCAST" r 3 s
def execCollOr (r : RegionId) (s : State) : Out := collEvent "COLL_OR" r 4 s

/-! The results of an instance (R328). -/

/-- The largest of a column of scale bytes. -/
def bmaxByte (fx : Nat) (col : List Nat) : Nat :=
  if fx = 0 then col.foldl max 0
  else
    let e := (col.map (· % 64)).foldl max 0
    match col.find? (fun b => b % 64 == e) with
    | some b => b / 64 * 64 + e
    | none => e
/-- One element of a result, from the elements of the ranks in rank order, with its flags. FSUM of a single rank adds nothing, so its bits
are delivered as they are, a NaN's too, and raise no flag (assumption 83). -/
def collElem (op par : Nat) (col : List Nat) : Nat × FFlags :=
  match op with
  | 0 => (bmaxByte par col, 0)
  | 1 => intToInt 32 true true 0 ((col.map (intOf 32 true)).foldl (· + ·) 0)
  | 2 =>
    let n := ceilLog2 col.length
    treeSum .fp32 false n (col ++ List.replicate (2 ^ n - col.length) 0) 0
  | 3 => (col.getD par 0, 0)
  | _ => (col.foldl (· ||| ·) 0, 0)
/-- The result of an instance: its bytes and flags. -/
def collResult (op par count : Nat) (datas : List (List Byte)) : List Byte × FFlags :=
  let z := collSize op
  let l := (List.range count).map (fun j => collElem op par (datas.map (fun d => leNat ((d.drop (j * z)).take z))))
  (l.flatMap (fun x => leBytes z x.1), l.foldl (fun f x => f ||| x.2) 0)

/-- The contributions in rank order. -/
def CollInst.ranked (x : CollInst) : List Contrib :=
  (List.range x.n).filterMap (fun i => x.contribs.find? (·.rank == i))
/-- The RESULT of a MISMATCH, where the members disagree (R328). -/
def State.collMismatch (s : State) (x : CollInst) : Option Nat :=
  let l := x.ranked
  if x.differs || x.contribs.any (fun c => match c.site with
      | some (r, _) => s.digest r x.group != x.digest
      | none => false) then some (2 ^ 18)
  else match l with
    | [] => none
    | z :: _ =>
      match l.find? (fun c => c.fail || c.cmd != z.cmd || c.count != z.count || c.par != z.par) with
      | some c => some c.rank
      | none => if z.cmd = 3 ∧ x.n ≤ z.par then some z.par else none

/-- A member of this module that still waits: its rank, its engine, its command and its pinned destination. -/
structure CollSite where
  rank : Nat
  eng  : EngineId
  cmd  : Cmd
  dst  : List Piece
  deriving DecidableEq, Repr
/-- The members of this module that still wait. -/
def State.collSites (s : State) (x : CollInst) : List CollSite :=
  x.contribs.filterMap (fun c => c.site.bind (fun p =>
    let e : EngineId := .coll (Fin.ofNat 32 p.1)
    (s.runOf e p.2).bind (fun r => if r.done then none else some ⟨c.rank, e, r.cmd, r.dst⟩)))
/-- Every waiting member completes alike. -/
def State.endAll (x : Fx) : List CollSite → State → State
  | [], s => s
  | m :: t, s => State.endAll x t (s.endRun m.eng m.cmd.seq x)
/-- The result written to the dst of members, whose lines are then free (R297, R327); a member whose dst has been closed completes
FAULT (R391). -/
def State.collWrite (data : List Byte) : List CollSite → State → State
  | [], s => s
  | m :: t, s =>
    State.collWrite data t (match s.lateWrite (m.cmd.who m.eng) m.dst data with
      | (s, some x) => s.endRun m.eng m.cmd.seq x
      | (s, none) => s.modEngine m.eng (fun y => { y with running := y.running.map (fun r =>
          if r.cmd.seq = m.cmd.seq then { r with owns := [] } else r) }))
/-- Whether a member's destination can be written now: no command accepted before its own still has to write one of its lines
(R297), and no reservation holds the write back (R305). -/
def State.siteFree (s : State) (m : CollSite) : Bool :=
  s.ownLines m.cmd.seq (hbmLines m.dst) && !s.writeHeld (m.cmd.who m.eng) m.dst

/-- COLL_INSTANCE_START (R327, R328): a complete instance is judged, and its result is written to the members whose lines are free,
in as many steps as that takes; then every member completes. Members are judged only here, when all have contributed
(assumption 25). -/
def execCollInstanceStart (n : Nat) (s : State) : Out :=
  match s.collInst[n]? with
  | none => notEnabled "COLL_INSTANCE_START"
  | some x =>
    if !x.full then notEnabled "COLL_INSTANCE_START"
    else
      let sites := s.collSites x
      let gone := fun (t : State) => { t with collInst := t.collInst.eraseIdx n }
      match (if x.written = [] then s.collMismatch x else none), x.ranked with
      | some v, _ => .next (State.endAll (Fx.of 9 (BitVec.ofNat 64 v)) sites (gone s))
      | none, [] => .next (gone s)
      | none, z :: _ =>
        let r := collResult z.cmd z.par z.count (x.ranked.map (·.data))
        let left := sites.filter (fun m => !x.written.contains m.rank)
        let now := left.filter s.siteFree
        let t := State.collWrite r.1 now s
        if now.length = left.length then .next (State.endAll { Fx.of 0 0 with flags := r.2, bytes := r.1.length } sites (gone t))
        else if now = [] then notEnabled "COLL_INSTANCE_START"
        else .next { t with collInst := t.collInst.set n { x with written := x.written ++ now.map (·.rank) } }

/-- GROUP_DEADLINE_EXPIRE (R327, R354, R376): TIMEOUT, with the number of ranks that had contributed. -/
def execGroupDeadlineExpire (n : Nat) (s : State) : Out :=
  match s.collInst[n]? with
  | none => notEnabled "GROUP_DEADLINE_EXPIRE"
  | some x =>
    if x.full || x.dl = 0 || !s.elapsed x.start x.dl then notEnabled "GROUP_DEADLINE_EXPIRE"
    else
      .next (State.endAll (Fx.of 10 (BitVec.ofNat 64 x.contribs.length)) (s.collSites x)
        { s with collInst := s.collInst.eraseIdx n })

/-- Every waiting member of the instances that `hit` picks completes with RESET, and the numbers of the instances of the groups that `gone`
picks, by home and group, start anew (R319, R328). -/
def State.endInstances (s : State) (hit : CollInst → Bool) (gone : Nat → Nat → Bool) : State :=
  State.endAll (Fx.of 11 0) ((s.collInst.filter hit).flatMap s.collSites) { s with
    collInst := s.collInst.filter (fun x => !hit x)
    collCnt := s.collCnt.filter (fun e => !gone (e.1 / 131072 / 256) (e.1 / 131072 % 256)) }
/-- Whether a message of the fabric is of an earlier incarnation of its sender, or of its target region r (R375). -/
def State.staleHead (s : State) (h : FabricHead) (r : Nat) : Bool :=
  s.incOf h.sender != h.senderInc || (s.region r).inc != h.targetInc
/-- Whether a rank of a group of region r is held outside this module. -/
def State.outside (s : State) (r : Nat) (g : Group) (rank : Nat) : Bool :=
  decide (rank < g.n) && (s.regionsOf (s.islandOf r)).all (fun t => bitsOf (s.rankWord r g rank) 17 0 != (s.region t).ep.toNat)
/-- The region that a message of another module's collective engine is addressed to. -/
def collTarget : CollMsg → Nat
  | .contrib r .. => r
  | .digestDiffers r .. => r
  | .podArrival r .. => r
  | .podWithdraw r .. => r
  | .podDiffers r .. => r
  | .memberReset r .. => r

/-- What a current message of another module's collective engine does (R327, R354, R372): a contribution of a rank that no context
of this module holds and that has not contributed to the instance, failed at its own source or not; a digest that differs; the reset of the region of a rank there, with which the instances of the group that
have not ended complete RESET for the members of this module (R319); an arrival at a .pod barrier or its withdrawal. -/
def State.collArrival (s : State) (m : CollMsg) : Option State :=
  match m with
  | .contrib region g k rank cmd count par data fail =>
    (s.group region g).bind (fun x =>
      let home := s.groupHome region g
      let key := collKey home g rank
      if !s.outside region x rank || k != SMap.get 0 s.collCnt key || 5 ≤ cmd || count = 0 || 2 ^ 24 < count ||
          (!fail && data.length != count * collSize cmd) then none
      else
        some (({ s with collCnt := SMap.put 0 s.collCnt key (k + 1) } : State).contribute home g k x (s.digest region g)
          ⟨rank, cmd, count, par, data, fail, none⟩))
  | .digestDiffers region g k =>
    let home := s.groupHome region g
    if s.collInst.any (fun x => x.home == home && x.group == g && x.k == k) then
      some { s with collInst := s.collInst.map (fun x =>
        if x.home = home ∧ x.group = g ∧ x.k = k then { x with differs := true } else x) }
    else none
  | .podArrival region g rank comb v =>
    (s.group region g).bind (fun x =>
      let k := s.podKey region g
      if !s.outside region x rank || 8 ≤ g then none
      else some ((s.setPod k { s.pod k with differs := false }).podArrive k x.n rank none comb v))
  | .podWithdraw region g rank =>
    let k := s.podKey region g
    let mine := fun (e : PodArr) => e.ctx.isNone && e.rank == rank
    if (s.pod k).arrivals.any mine then some (s.podWithdraw k mine) else none
  | .memberReset region g rank =>
    let home := s.groupHome region g
    (s.group region g).bind (fun x =>
      if !s.outside region x rank then none
      else some (s.endInstances (fun y => y.home == home && y.group == g) (fun h n => h == home && n == g)))
  | .podDiffers region g =>
    let k := s.podKey region g
    if 8 ≤ g then none else some (s.setPod k { s.pod k with differs := true })

/-- FABRIC_COLLECTIVE_ARRIVAL (R327, R354, R372, R375): a message of an earlier incarnation is dropped and counted; none comes in over
a port that has failed (R398). -/
def execFabricCollectiveArrival (m : FabricMsg CollMsg) (s : State) : Out :=
  let r := collTarget m.body
  if 32 ≤ r ∨ (s.region r).portDown then notEnabled "FABRIC_COLLECTIVE_ARRIVAL"
  else if s.staleHead m.head r then .next (s.countStale r 1)
  else if (s.region r).st ≠ .assigned then notEnabled "FABRIC_COLLECTIVE_ARRIVAL"
  else match s.collArrival m.body with
    | some t => .next t
    | none => notEnabled "FABRIC_COLLECTIVE_ARRIVAL"

end Sys2Proof.Machine
end

