-- ==== Sys2Proof/Machine/Tender.lean ====
section
/-! DEFINITION. The services of the tenders (R329 to R331) and their timers. -/

namespace Sys2Proof.Machine

/-- The tender of a region. -/
def tenderOf (r : RegionId) : EngineId := .tend r
/-- The service that a call names (R330). -/
def Cmd.service (c : Cmd) : Nat := c.word 1 % 256

/-- An event that performs a call of a service, where the tender may take it. -/
def tendEvent (name : String) (r : RegionId) (svc : Nat → Bool) (f : Cmd → State → State × Fx) (s : State) : Out :=
  match s.nextCmd (.tend r) 0 with
  | none => notEnabled name
  | some c => if svc c.service then startEvent name (.tend r) 0 f s else notEnabled name

/-- Whether the region's fabric port carries traffic (R398). -/
def State.portUp (s : State) (r : Nat) : Bool := !(s.region r).portDown
/-- A storage call that cannot reach its target: STORAGE (R331, R398); the NVMe status is not stated. -/
def State.storageLost (s : State) : State × Fx :=
  let r := s.draw
  (r.2, { Fx.of 13 0 with m2 := Config.freeWord r.1 })
/-- A call whose effects go on at a storage target. -/
def Fx.afar : Fx := { Fx.of 0 0 with wait := true }
/-- Bytes that a storage call moves (R331). -/
def Cmd.storageBytes (c : Cmd) : Nat := c.word 3 % 2 ^ 32 * c.lbaSize

/-- The storage calls that wait for a target when the region's fabric port fails complete with STORAGE (R398). -/
def State.loseCalls (s : State) (r : RegionId) : State :=
  ((s.engine (.tend r)).running.filter (fun x => x.wait && !x.done)).foldl (fun u x =>
    let y := u.storageLost
    y.1.endRun (.tend r) x.cmd.seq y.2) s

/-- Storage read (R330, R331): its destination is translated, and the blocks are requested. A destination in fabric space is written like
any other; R331 names HBM and scratchpads and gives no status for it (assumption 79). -/
def State.storageRead (s : State) (r : RegionId) (c : Cmd) : State × Fx :=
  if 2 ^ 26 < c.storageBytes then s.invalidFx (.tend r)
  else match s.takeDests (.tend r) c [(c.word 4, c.storageBytes)] with
    | (s, .error ⟨2, _, _, _, _, _⟩) => s.invalidFx (.tend r)
    | (s, .error x) => (s, x)
    | (s, .ok ()) => if s.portUp r.val then (s, Fx.afar) else s.storageLost
/-- Storage write (R330, R331): its source is read and sent, of fabric space too (assumption 79). -/
def State.storageWrite (s : State) (r : RegionId) (c : Cmd) : State × Fx :=
  if 2 ^ 26 < c.storageBytes then s.invalidFx (.tend r)
  else
    let x := s.readSrc (c.who (.tend r)) (c.word 4) c.storageBytes
    match x.2.stop with
    | some f => (x.1, Fx.ended (some f) 0)
    | none => if x.1.portUp r.val then (x.1, Fx.afar) else x.1.storageLost
def execTendStorageRead (r : RegionId) (s : State) : Out :=
  tendEvent "TEND_STORAGE_READ" r (· == 1) (fun c s => s.storageRead r c) s
def execTendStorageWrite (r : RegionId) (s : State) : Out :=
  tendEvent "TEND_STORAGE_WRITE" r (· == 2) (fun c s => s.storageWrite r c) s

/-- Whether the agent behind a capability has been reset since the call that used it was taken (R359, R375). -/
def State.staleCap (s : State) : Option Grant → Bool
  | some g => s.incOf g.rec_.agent != g.inc
  | none => false
/-- TEND_STORAGE_COMPLETE (R331): the answer to the n-th call that waits for its target, with the data of a read. After an
error the data that came before it is written. A destination that has been closed meanwhile completes the call FAULT (R391). An answer to a
call made to an earlier incarnation of the target is dropped and counted, and the call stays in flight (R375; assumption 56). -/
def execTendStorageComplete (r : RegionId) (n : Nat) (nvme : BitVec 16) (data : List Byte) (s : State) : Out :=
  let e : EngineId := .tend r
  match ((s.engine e).running.filter (fun x => x.wait && !x.done))[n]? with
  | none => notEnabled "TEND_STORAGE_COMPLETE"
  | some x =>
    let c := x.cmd
    let total := c.storageBytes
    let want := if c.service = 1 then total else 0
    if s.staleCap c.cap then .next (s.countStale r.val 1)
    else if want < data.length ∨ (nvme = 0 ∧ data.length ≠ want) ∨ s.writeHeld (c.who e) x.dst then
      notEnabled "TEND_STORAGE_COMPLETE"
    else
      let fx : Fx := if nvme = 0 then Fx.of 0 (BitVec.ofNat 64 total) else { Fx.of 13 0 with m2 := nvme.zeroExtend 64 }
      .next (match s.lateWrite (c.who e) x.dst data with
        | (s, some f) => s.endRun e c.seq f
        | (s, none) => s.endRun e c.seq { fx with bytes := data.length })

/-- Map (R330): fabric-space addresses for part of a grant, with the handle's rights. -/
def State.mapGrant (s : State) (r : RegionId) (c : Cmd) : State × Fx :=
  match c.cap with
  | none => s.invalidFx (.tend r)
  | some g =>
    if c.word 3 % 4096 ≠ 0 ∨ g.rec_.size < c.word 2 + c.word 3 then s.invalidFx (.tend r)
    else
      let d := s.draw
      let base := 2 ^ 51 + Config.fabricBase d.1 % 2 ^ 39 * 4096
      (d.2.modRegion r.val (fun x => { x with
          maps := x.maps ++ [⟨base, c.word 3, g.rights.getLsbD 0, g.rights.getLsbD 1, c.gb.toNat⟩] }),
        Fx.of 0 (BitVec.ofNat 64 base))
/-- Unmap (R330): of an address that map returned for the same handle. -/
def State.unmapGrant (s : State) (r : RegionId) (c : Cmd) : State × Fx :=
  let mine := fun (m : FabMap) => decide (m.base = c.word 2 ∧ m.handle = c.gb.toNat)
  if (s.region r.val).maps.any mine then
    (s.modRegion r.val (fun x => { x with maps := x.maps.eraseP mine }), Fx.of 0 0)
  else s.invalidFx (.tend r)
def execTendMap (r : RegionId) (s : State) : Out := tendEvent "TEND_MAP" r (· == 3) (fun c s => s.mapGrant r c) s
def execTendUnmap (r : RegionId) (s : State) : Out := tendEvent "TEND_UNMAP" r (· == 4) (fun c s => s.unmapGrant r c) s

/-- Post (R330): the tender of the target's region delivers the message under R334, or refuses it (R336, R391); one for an earlier
incarnation of the target is dropped and counted there (R311, R375). What a target outside the module answers is not this module's
to say. -/
def State.postMessage (s : State) (r : RegionId) (c : Cmd) : State × Fx :=
  match c.cap with
  | none => s.invalidFx (.tend r)
  | some g =>
    let k := g.rec_.core.val
    if !g.rec_.inModule then
      if !s.portUp r.val then s.freeFx 14
      else
        let d := s.draw
        if (Config.freeWord d.1).getLsbD 0 then d.2.freeFx 14 else (d.2, Fx.of 0 0)
    else if s.incOf g.rec_.agent ≠ g.inc then (s.countStale (regionOfCore k) 1).freeFx 14
    else if (s.region (regionOfCore k)).st ≠ .assigned ∨ 8 ≤ (s.chan k g.rec_.chan).length ∨
        (s.binding k g.rec_.chan.val).refuses c.kmode then s.freeFx 14
    else (s.chanPut k g.rec_.chan ⟨c.w.get 2, c.w.get 3, c.w.get 4, c.w.get 5⟩, Fx.of 0 0)
def execTendPost (r : RegionId) (s : State) : Out := tendEvent "TEND_POST" r (· == 5) (fun c s => s.postMessage r c) s

/-- Timer (R330): an arming replaces the earlier one of the object; expiry 0 disarms. -/
def State.armTimer (s : State) (r : RegionId) (c : Cmd) : State × Fx :=
  match c.cap with
  | none => s.invalidFx (.tend r)
  | some g =>
    let rest := s.timers.filter (fun t => t.obj != g.obj)
    ({ s with timers := if c.word 2 = 0 then rest else rest ++ [⟨g.obj, c.word 2, c.word 3, c.ctx, c.gb⟩] }, Fx.of 0 0)
def execTendTimer (r : RegionId) (s : State) : Out := tendEvent "TEND_TIMER" r (· == 6) (fun c s => s.armTimer r c) s
/-- Doorbell (R330): the value goes to the host, outside the module. -/
def execTendDoorbell (r : RegionId) (s : State) : Out := tendEvent "TEND_DOORBELL" r (· == 7) (fun _ s => (s, Fx.of 0 0)) s
/-- A service that R330 does not list (R329). -/
def execTendUnlistedService (r : RegionId) (s : State) : Out :=
  tendEvent "TEND_UNLISTED_SERVICE" r (fun v => v == 0 || decide (7 < v)) (fun _ s => s.invalidFx (.tend r)) s

/-- The next expiry of a period after one delivered at time `now` (R330). -/
def Timer.next (t : Timer) (now : Nat) : Timer :=
  { t with expiry := t.expiry + ((now - t.expiry) / t.period + 1) * t.period }
/-- TENDER_TIMER_EXPIRE (R330, R376). -/
def execTenderTimerExpire (obj : Nat) (s : State) : Out :=
  match s.timers.find? (·.obj == obj) with
  | none => notEnabled "TENDER_TIMER_EXPIRE"
  | some t =>
    if s.time.toNat < t.expiry then notEnabled "TENDER_TIMER_EXPIRE"
    else
      let rest := s.timers.filter (fun x => x.obj != obj)
      .next (({ s with timers := if t.period = 0 then rest else rest ++ [t.next s.time.toNat] } : State).raiseInt t.ctx 0x40 t.handle)

end Sys2Proof.Machine
end

