-- ==== Sys2Proof/Machine/Launch.lean ====
section
/-! DEFINITION. The launch engine (R102 to R106, R360, R423). -/

namespace Sys2Proof.Machine

/-- A gang descriptor (R102). -/
structure GangDesc where
  entry       : Nat
  count       : Nat
  prio        : Nat
  ve          : Bool
  te          : Bool
  ye          : Bool
  argbase     : Nat
  argstride   : Nat
  stackbase   : Nat
  stackstride : Nat
  map         : Nat
  bdl         : Nat
  ydl         : Nat
  deriving DecidableEq, Repr

/-- Word i of bytes. -/
def wordAt (l : List Byte) (i : Nat) : Nat := leNat ((l.drop (8 * i)).take 8)

/-- A descriptor that keeps to R102. -/
def gangDesc (l : List Byte) : Option GangDesc :=
  let w := wordAt l
  let n := bitsOf (w 1) 10 0
  if w 0 % 4 ≠ 0 ∨ n = 0 ∨ 1024 < n ∨ bitsOf (w 1) 15 11 ≠ 0 ∨ bitsOf (w 1) 63 21 ≠ 0 ∨ 2 ^ 32 ≤ w 3 ∨ w 4 % 16 ≠ 0 ∨
      2 ^ 32 ≤ w 5 ∨ w 5 % 16 ≠ 0 ∨ w 6 % 64 ≠ 0 then none
  else some ⟨w 0, n, bitsOf (w 1) 17 16, bitsOf (w 1) 18 18 == 1, bitsOf (w 1) 19 19 == 1, bitsOf (w 1) 20 20 == 1, w 2, w 3, w 4,
    w 5, w 6, w 7 % 2 ^ 32, w 7 / 2 ^ 32⟩

/-- A range of members with its number of pages (R360). -/
structure MapRange where
  first : Nat
  last  : Nat
  pages : Nat
  deriving DecidableEq, Repr

/-- The ranges that the nine words at the front of a placement map give for a gang of `count` members, with NP, where they keep
to R360. -/
def mapRanges (l : List Byte) (count : Nat) : Option (List MapRange × Nat) :=
  let w := wordAt l
  let nr := bitsOf (w 0) 4 0
  let np := bitsOf (w 0) 13 8
  let field := fun (i : Nat) => w (1 + i / 2) / 2 ^ (32 * (i % 2)) % 2 ^ 32
  let rs := (List.range nr).map (fun i => MapRange.mk (bitsOf (field i) 10 0) (bitsOf (field i) 21 11) (bitsOf (field i) 27 22))
  if nr = 0 ∨ 16 < nr ∨ 32 < np ∨ bitsOf (w 0) 7 5 ≠ 0 ∨ w 0 / 2 ^ 14 ≠ 0 ∨
      (List.range 16).any (fun i => decide (field i / 2 ^ 28 ≠ 0 ∨ (nr ≤ i ∧ field i ≠ 0))) ∨
      rs.foldl (fun a x => a + x.pages) 0 ≠ np ∨ rs.any (fun x => decide (x.last < x.first ∨ count ≤ x.last ∨ 32 < x.pages)) ∨
      (List.range (nr - 1)).any (fun i => decide ((rs.getD (i + 1) ⟨0, 0, 0⟩).first ≤ (rs.getD i ⟨0, 0, 0⟩).last)) then none
  else some (rs, np)

/-- The ranges with the pages of each. -/
def rangePages : List MapRange → List Nat → List (MapRange × List Nat)
  | [], _ => []
  | x :: t, ps => (x, ps.take x.pages) :: rangePages t (ps.drop x.pages)

/-- How the read of a descriptor or map ends a launch early (R103). -/
def State.launchRead (s : State) (w : Who) (a n : Nat) : State × Except (Option Nat) (List Byte) :=
  let x := s.readSrc w a n
  match x.2.stop with
  | none => (x.1, .ok x.2.data)
  | some (4, va) => (x.1, .error (some va))
  | some _ => (x.1, .error none)

/-- The placement map of a descriptor: its ranges with their pages, none without a map. -/
def State.launchMap (s : State) (w : Who) (d : GangDesc) : State × Except (Option Nat) (List (MapRange × List Nat)) :=
  if d.map = 0 then (s, .ok [])
  else match s.launchRead w d.map 72 with
    | (s, .error e) => (s, .error e)
    | (s, .ok head) =>
      match mapRanges head d.count with
      | none => (s, .error none)
      | some (rs, np) =>
        match s.launchRead w (d.map + 72) (8 * np) with
        | (s, .error e) => (s, .error e)
        | (s, .ok body) =>
          let ps := (List.range np).map (wordAt body)
          if ps.any (fun p => p % 4096 != 0) then (s, .error none) else (s, .ok (rangePages rs ps))

/-- The region for which a listed page counts (R104, step 2): by the issuing core's L2 TLB, or by its physical address where
translation is off. -/
def State.pageRegion (s : State) (w : Who) (island va : Nat) : Option Nat :=
  let inIsland := fun (pa : Nat) =>
    let r := regionOfPa pa
    if pa < 2 ^ 41 ∧ (s.region r).st = .assigned ∧ s.islandOf r = island then some r else none
  if !w.ptOn then inIsland va
  else match (s.core (coreOf w.ctx)).tlb2.find? (·.hits w.asid va) with
    | some e => inIsland (e.frame + va % 2 ^ e.log)
    | none => none
/-- The walks of the listed pages that miss, which fill the L2 TLB for later launches. -/
def State.launchWalks (w : Who) : List Nat → State → State
  | [], s => s
  | va :: t, s =>
    let c := s.core (coreOf w.ctx)
    if !w.ptOn || !canonical va || c.tlb2.any (·.hits w.asid va) then State.launchWalks w t s
    else match s.walk w va with
      | (.leaf e, seen) =>
        State.launchWalks w t (({ s with fresh := s.fresh + 1 } : State).modCore (coreOf w.ctx) (fun c =>
          { c with tlb2 := tlbAdd 3072 c.tlb2 e, walks := (seen ++ c.walks).take 64 }))
      | _ => State.launchWalks w t s

/-- Insertion into an order. -/
def insertBy (before : Nat → Nat → Bool) (x : Nat) : List Nat → List Nat
  | [] => [x]
  | y :: t => if before x y then x :: y :: t else y :: insertBy before x t
/-- The order in which a range's members try the regions (R104, step 4). -/
def regionOrder (counts : Nat → Nat) (home : Nat) (regions : List Nat) : List Nat :=
  let before := fun (x y : Nat) =>
    decide (counts y < counts x) || (counts x == counts y &&
      (if counts x = 0 ∧ (x = home ∨ y = home) then x == home else decide (x < y)))
  regions.foldl (fun l x => insertBy before x l) []

/-- The lowest-numbered core of a region with a FREE context and no member of the gang placed yet, with that context (R104,
step 5). -/
def State.freeSlot (s : State) (used : List Nat) (r : Nat) : Option Nat :=
  (coresOfRegion r).findSome? (fun k =>
    if (s.core k).fenced || used.contains k then none
    else (ctxsOfCore k).find? (fun c => decide ((s.ctx c).st = .free)))
/-- The placement of members in order: member and context, or NOROOM. -/
def State.placeRange (s : State) (order : List Nat) : List Nat → List (Nat × Nat) → Option (List (Nat × Nat))
  | [], placed => some placed
  | m :: t, placed =>
    match order.findSome? (s.freeSlot (placed.map (fun p => coreOf p.2))) with
    | some c => State.placeRange s order t (placed ++ [(m, c)])
    | none => none
/-- The placement of the ranges, and last of the members that no range covers (R104, step 3). -/
def State.place (s : State) (w : Who) (count : Nat) (rs : List (MapRange × List Nat)) : Option (List (Nat × Nat)) :=
  let island := s.islandOf w.region
  let regions := (s.regionsOf island).filter (fun r => decide ((s.region r).st = .assigned))
  let rest := (List.range count).filter (fun m => rs.all (fun x => decide (m < x.1.first ∨ x.1.last < m)))
  let ranges := rs.map (fun x => ((List.range (x.1.last - x.1.first + 1)).map (x.1.first + ·), x.2.filterMap (s.pageRegion w island)))
  (ranges ++ [(rest, [])]).foldl (fun (a : Option (List (Nat × Nat))) (x : List Nat × List Nat) =>
    a.bind (s.placeRange (regionOrder (fun r => x.2.count r) w.region regions) x.1)) (some [])

/-- The gang number that a launch takes (R423): the next that no GANG register holds. -/
def State.nextGang (s : State) : Nat → Nat → Nat
  | 0, n => n
  | k + 1, n =>
    if s.ctxs.any (fun c => c.2.gang.toNat == n) then State.nextGang s k (n % 65535 + 1) else n

/-- A context initialised for a member (R105). -/
def Ctx.launch (d : GangDesc) (gang m : Nat) (w : Who) (c : Ctx) : Ctx :=
  { c with
    st := .ready, wait := .none, park := .none, miss := .none, young := false, waited := 0
    pc := BitVec.ofNat 64 d.entry
    g := Vector.ofFn (fun i =>
      if i.val = 2 then BitVec.ofNat 64 (d.stackbase + m * d.stackstride)
      else if i.val = 3 then BitVec.ofNat 64 (d.argbase + m * d.argstride) else 0)
    member := BitVec.ofNat 10 m, gsize := BitVec.ofNat 11 d.count, gang := BitVec.ofNat 16 gang
    prio := BitVec.ofNat 2 d.prio
    status := { c.status with mode := false, ie := true, ven := d.ve, vd := false, ten := d.te, ye := d.ye }
    yDl := BitVec.ofNat 32 d.ydl, yPend := false, yArmed := none
    vl := 0, es := 0, grp := 0, vstart := 0, vfill := 0, vffe := 0, fstat := 0, seed := 0, stripbase := 0
    asid := BitVec.ofNat 16 w.asid, ptOn := w.ptOn, ptRoot := BitVec.ofNat 40 w.ptRoot
    vclear := c.vclear || d.ve }
/-- Every placed context initialised. -/
def State.launchAll (d : GangDesc) (gang : Nat) (w : Who) : List (Nat × Nat) → State → State
  | [], s => s
  | p :: t, s => State.launchAll d gang w t (s.modCtx p.2 (Ctx.launch d gang p.1 w))
/-- The held decrements of a gang number discarded in regions of a list (R363, R423). R363 counts a decrement as STALE where it finds C
at 0 and does not say so of these; they are not counted (assumption 80). -/
def State.dropHeld (g : Nat) : List Nat → State → State
  | [], s => s
  | r :: t, s => State.dropHeld g t (if (s.region r).heldDec.any (fun e => e.1 == g) then
      s.modRegion r (fun x => { x with heldDec := x.heldDec.filter (fun e => e.1 != g) }) else s)

/-- A launch with its members placed: the gang number, its barriers afresh, its contexts (R105, R106, R423). -/
def State.launchGang (s : State) (w : Who) (d : GangDesc) (placed : List (Nat × Nat)) : State × Fx :=
  let n := s.nextGang 65535 s.gangSeq
  let s := s.launchAll d n w placed
  let s := { s with
    gangSeq := n % 65535 + 1
    bars := s.bars.filter (fun b => b.1.gang != n || b.1.sc == .pod)
    gangs := SMap.put none s.gangs n (some ⟨d.bdl, placed⟩) }
  (State.dropHeld n (List.range 32) s, Fx.of 0 (BitVec.ofNat 64 n))

/-- DATAERR of a launch (R103, R315, R316). -/
def Fx.dataErr (va : Nat) : Fx := Fx.ended (some (4, va)) 0

/-- LNCH.GANG (R103, R104). -/
def State.lnch (s : State) (r : RegionId) (c : Cmd) : State × Fx :=
  let e : EngineId := .lnch r
  let w := c.who e
  if c.word 1 % 64 ≠ 0 then s.invalidFx e
  else match s.launchRead w (c.word 1) 64 with
    | (s, .error (some va)) => (s, Fx.dataErr va)
    | (s, .error none) => s.invalidFx e
    | (s, .ok bytes) =>
      match gangDesc bytes with
      | none => s.invalidFx e
      | some d =>
        match s.launchMap w d with
        | (s, .error (some va)) => (s, Fx.dataErr va)
        | (s, .error none) => s.invalidFx e
        | (s, .ok rs) =>
          let core := { w with eng := none }
          let placed := s.place core d.count rs
          let s := State.launchWalks core (rs.flatMap (·.2)) s
          match placed with
          | none => s.freeFx 12
          | some l => s.launchGang core d l

/-- LNCH_GANG (R104). -/
def execLnchGang (r : RegionId) (s : State) : Out := startEvent "LNCH_GANG" (.lnch r) 0 (fun c s => s.lnch r c) s

/-- LAUNCH_VCLEAR_DONE (R105): the zeros of the vector and mask registers are written. -/
def execLaunchVclearDone (c : CtxId) (s : State) : Out :=
  if (s.ctx c.val).vclear then
    .next (s.modCtx c.val (fun x => { x with vclear := false, v := Vector.replicate 32 0, m := Vector.replicate 16 0 }))
  else notEnabled "LAUNCH_VCLEAR_DONE"

end Sys2Proof.Machine
end

