-- ==== Sys2Proof/Machine/Directory.lean ====
section
/-! DEFINITION. The steps of the coherence protocol for scalar loads and buffered stores: requests at the home, discovery
probes, invalidations and their acknowledgements, evictions and their notices (R263, R345 to R349). -/

namespace Sys2Proof.Machine

/-- The request that a home is serving for a line. -/
def State.txnOf (s : State) (line : Nat) : Option Txn := s.txns.find? (·.line == line)
/-- The request of a line replaced, or ended. -/
def State.setTxn (s : State) (line : Nat) (t : Option Txn) : State :=
  { s with txns := s.txns.filter (fun x => x.line != line) ++ t.toList }

/-- A request is granted (R345, R346): the sectors reach the core, and a load of its context that waits for them is served. -/
def State.grant (s : State) (t : Txn) : State :=
  let s := (s.serve t.core t.line t.span t.write).setTxn t.line none
  if t.write then s
  else s.modCtx t.ctx (fun c => match c.miss with
    | .load d n x va (.hbm pa) e false =>
      if lineOf pa = t.line then { c with miss := .load d n x va (.hbm pa) e true } else c
    | _ => c)
/-- A request that has found the line's entry goes on: a read is served, a write sends its invalidations to the home die's holders
and to the proxies of DIES, which forward them to their own (R346). A proxy without such a holder answers at once. -/
def State.request (s : State) (t : Txn) : State :=
  let home := s.homeTargets t.line t.span t.core
  let dies := s.dieTargets t.line
  let reach := fun (die : Nat) => s.proxyTargets t.line die t.span t.core
  if !t.write || (home.isEmpty && dies.isEmpty) then s.grant t
  else
    let s := s.setTxn t.line (some { t with
      probe := false, sent := home.length + dies.length, acked := 0
      fwd := (dies.filter (fun d => !(reach d).isEmpty)).map (fun d => (d, (reach d).length)) })
    { s with cohMsgs := s.cohMsgs ++ (home ++ dies.flatMap reach).map (fun k => .inval t.line k t.span) ++
        (dies.filter (fun d => (reach d).isEmpty)).map (fun d => .dieAck t.line d) }
/-- A request reaches its home behind the notices that its core has sent for the line; without an entry it waits for a discovery
probe (R349). -/
def State.ask (s : State) (t : Txn) : State :=
  let s := s.approach t.core t.line t.span t.write
  match s.dirOf t.line with
  | some _ => s.request t
  | none => s.setTxn t.line (some { t with probe := true })

/-- DIR_READ_MISS (R345): the request of a missed load of context c, which waits while an engine owns the line (R140, R298). -/
def execDirReadMiss (c : CtxId) (s : State) : Out :=
  match (s.ctx c.val).miss with
  | .load _ n _ _ (.hbm pa) _ false =>
    if (s.txnOf (lineOf pa)).isSome || s.engineOwns [.hbm pa] then notEnabled "DIR_READ_MISS"
    else .next (s.ask ⟨lineOf pa, coreOf c.val, spanOf (pa % 128) n, false, false, 0, 0, c.val, []⟩)
  | .load d n x va l e false => .next (s.modCtx c.val (fun y => { y with miss := .load d n x va l e true }))
  | _ => notEnabled "DIR_READ_MISS"

/-- The first span that the oldest buffered store of a context still has to own (R263). -/
def State.wanted (s : State) (c : Nat) : Option (Nat × BitVec 8) :=
  match (s.ctx c).sb with
  | e :: _ =>
    (match e.kind with
    | .write _ | .zero => (cachedLines e.split.1.pieces).find? (fun l =>
        let x := (s.core (coreOf c)).line l.1
        !covers (x.m ||| x.e) l.2)
    | _ => none)
  | [] => none
/-- DIR_OWNERSHIP_REQUEST (R346): the request of context c's oldest buffered store, which waits in the same way (R298). -/
def execDirOwnershipRequest (c : CtxId) (s : State) : Out :=
  match s.wanted c.val with
  | none => notEnabled "DIR_OWNERSHIP_REQUEST"
  | some (line, span) =>
    if (s.txnOf line).isSome || s.engineOwns (spanLocs line span) then notEnabled "DIR_OWNERSHIP_REQUEST"
    else .next ((s.countMiss c.val [(line, span)]).ask ⟨line, coreOf c.val, span, true, false, 0, 0, c.val, []⟩)

/-- PROBE_ANSWER (R349): the entry is rebuilt from the answers, and the request is served. -/
def execProbeAnswer (line : Nat) (s : State) : Out :=
  match s.txnOf line with
  | some t =>
    if t.probe then .next ((s.entryFor line).request { t with probe := false }) else notEnabled "PROBE_ANSWER"
  | none => notEnabled "PROBE_ANSWER"

/-- An acknowledgement counted at the home; the last one grants the request (R346). -/
def State.ackCount (s : State) (line : Nat) : State :=
  match s.txnOf line with
  | none => s
  | some t =>
    if t.sent ≤ t.acked + 1 then s.grant t else s.setTxn line (some { t with acked := t.acked + 1 })

/-- The answer of a core counted: at the home, or at its die's proxy, whose last one sends the die's one answer (R346). -/
def State.answered (s : State) (line k : Nat) : State :=
  let die := dieOfCore k
  if die = homeDie line then s.ackCount line
  else match s.txnOf line with
    | none => s
    | some t =>
      match t.fwd.find? (·.1 == die) with
      | none => s
      | some f =>
        let rest := t.fwd.filter (·.1 != die)
        if f.2 ≤ 1 then
          let s := s.setTxn line (some { t with fwd := rest })
          { s with cohMsgs := s.cohMsgs ++ [.dieAck line die] }
        else s.setTxn line (some { t with fwd := (die, f.2 - 1) :: rest })

/-- INVALIDATION_RECEIVE (R346, R347): the core removes the span and answers, or discards the invalidation without an answer while
its own notice for the span is outstanding. It then holds nothing of the line, since an eviction gives the whole line up. -/
def execInvalidationReceive (k : CoreId) (line : Nat) (s : State) : Out :=
  let mine := fun (m : CohMsg) => match m with
    | .inval l j _ => l == line && j == k.val
    | _ => false
  match s.cohMsgs.find? mine with
  | some (.inval l j span) =>
    let out := (s.core k.val).notices.foldl (fun a n => if n.1 = line then a ||| n.2 else a) 0
    let rest := s.cohMsgs.eraseP mine
    if out &&& span ≠ 0 then .next { s with cohMsgs := rest ++ [.crossed l j (span &&& out)] }
    else .next ((({ s with cohMsgs := rest ++ [.ack l j] } : State).asked line span true [k.val]))
  | _ => notEnabled "INVALIDATION_RECEIVE"

/-- INVALIDATION_ACK (R346): the first answer on its way for a line is counted. -/
def execInvalidationAck (line : Nat) (s : State) : Out :=
  let mine := fun (m : CohMsg) => match m with
    | .ack l _ => l == line
    | .dieAck l _ => l == line
    | _ => false
  let rest : State := { s with cohMsgs := s.cohMsgs.eraseP mine }
  match s.cohMsgs.find? mine with
  | some (.ack _ k) => .next (rest.answered line k)
  | some (.dieAck _ _) => .next (rest.ackCount line)
  | _ => notEnabled "INVALIDATION_ACK"

/-- CACHE_EVICTION (R263): a held line is replaced. -/
def execCacheEviction (k : CoreId) (line : Nat) (s : State) : Out :=
  if ((s.core k.val).line line).all = 0 then notEnabled "CACHE_EVICTION" else .next (s.modCore k.val (·.evictLine line))

/-- EVICTION_NOTICE (R345, R347): the notice reaches the home, which writes the sectors to its region cache, or to HBM where it
has none (R264), and counts it where it covers an invalidation that it crossed. -/
def execEvictionNotice (k : CoreId) (line : Nat) (s : State) : Out :=
  match (s.core k.val).notices.find? (·.1 == line) with
  | none => notEnabled "EVICTION_NOTICE"
  | some n =>
    let r := s.noticeIn k.val line n.2
    .next (if r.2 then r.1.answered line k.val else r.1)

end Sys2Proof.Machine
end

