-- ==== Sys2Proof/Machine/Regions.lean ====
section
/-! DEFINITION. Regions and islands: adjacency and routes (R357, R381, R382), region reset (R389 to R391), the loss of cores,
slices and other units (R392 to R399), heat and current (R18, R405, R406). -/

namespace Sys2Proof.Machine

/-! Adjacency and routes. -/

/-- The neighbours of a region over die-to-die boundaries: boundary and region (R9, R381). -/
def neighbours (r : Nat) : List (Nat × Nat) :=
  let d := r / 2
  (if r % 2 = 1 ∧ d % 8 < 7 then [(if d < 8 then d else d - 1, 2 * (d + 1))] else []) ++
  (if r % 2 = 0 ∧ 0 < d % 8 then [(if d < 8 then d - 1 else d - 2, 2 * (d - 1) + 1)] else []) ++
  (if d < 8 then [(14 + d, r + 16)] else [(d + 6, r - 16)])
/-- The members of a set that share a die with a list. -/
def closeDie (inside l : List Nat) : List Nat := l ++ inside.filter (fun x => !l.contains x && l.any (fun y => y / 2 == x / 2))
/-- The regions of a set within n boundaries of one of them, none of the boundaries fenced. -/
def layer (links : BitVec 22) (inside : List Nat) (r : Nat) : Nat → List Nat
  | 0 => closeDie inside [r]
  | n + 1 =>
    let l := layer links inside r n
    closeDie inside (l ++ inside.filter (fun x => !l.contains x &&
      (neighbours x).any (fun b => !links.getLsbD b.1 && l.contains b.2)))
/-- Whether a set of regions is connected over boundaries that work (R381, R382). -/
def connected (links : BitVec 22) (rs : List Nat) : Bool :=
  match rs with
  | [] => false
  | r :: _ => let l := layer links rs r 32; rs.all (fun x => l.contains x)

/-- A shortest route inside a set of regions from a die to one of them (R382): which of several, firmware decides (DESIGN CHOICE,
assumption 31). -/
def routeFor (links : BitVec 22) (inside : List Nat) (dest die : Nat) : Route :=
  if die = dest / 2 then (if dest % 2 = 0 then .localWest else .localEast)
  else match (List.range 32).find? (fun n => (layer links inside dest n).any (fun x => x / 2 == die)) with
    | some (n + 1) =>
      let near := layer links inside dest n
      (([Route.west, .east, .north, .south].find? (fun d => match routeHop die d with
        | none => false
        | some (b, _) => !links.getLsbD b && inside.any (fun x => x / 2 == die && (neighbours x).any (fun y => y.1 == b && near.contains y.2)))).getD
          .drop)
    | _ => .drop

/-- An entry of a die's routing table: die, destination region, whether it is the window route, and the route. -/
structure RouteEntry where
  die  : Nat
  dest : Nat
  win  : Bool
  hop  : Route
  deriving DecidableEq, Repr
/-- Entries of the routing tables written: a router whose LOCK bit is set ignores them (R357). -/
def State.putRoutes (s : State) (l : List RouteEntry) : State :=
  let put := fun (m : SMap Route) (e : RouteEntry) => if s.lock.getLsbD e.die then m else SMap.put .drop m (routeKey e.die e.dest e.win) e.hop
  { s with routes := l.foldl put s.routes }
/-- The dies of regions. -/
def diesOf (rs : List Nat) : List Nat := (rs.map (· / 2)).eraseDups
/-- Firmware's unlocking of the routers of some dies, its writes, and the locking (R357, R386). -/
def State.relock (dies : List Nat) (l : List RouteEntry) (s : State) : State :=
  let m := dies.foldl (fun (a : BitVec 16) d => a ||| (1#16 <<< d)) 0
  let t := ({ s with lock := s.lock &&& ~~~m } : State).putRoutes l
  { t with lock := t.lock ||| m }
/-- The regions of an island that run. -/
def State.islandRegions (s : State) (x : Nat) : List Nat :=
  (List.range 32).filter (fun r => decide ((s.region r).st = .assigned ∧ (s.region r).island = x))
/-- Firmware's rewriting of the routes toward regions of a list, each inside the set of regions of its island, on the affected dies
(R357, R382, R386). -/
def State.reroute (s : State) (inside dests : List Nat) : State :=
  let dies := diesOf (inside ++ dests)
  s.relock dies (dests.flatMap (fun r => dies.map (fun d =>
    ⟨d, r, false, if inside.contains r && inside.any (fun x => x / 2 == d) then routeFor s.links inside r d else .drop⟩)))
/-- The regions of two islands that a boundary joins: of the owner and of the granted island (R384). -/
def linkJoins (b : Nat) (own other : List Nat) : Option (Nat × Nat) :=
  own.findSome? (fun w => (neighbours w).findSome? (fun y => if y.1 = b ∧ other.contains y.2 then some (w, y.2) else none))
/-- The routes of a window (R358, R384), on the dies of the two islands: inside the granted island to the link, over it, and inside
the owner's island. A die that both islands share leads on inside the owner's, since its router has one entry for both; where the link joins
them no more, the routes stay as they are (assumption 31). -/
def State.windowRoutes (s : State) (w b : Nat) (own other : List Nat) : State :=
  match linkJoins b own other with
  | none => s
  | some (_, x) =>
    let dies := diesOf (own ++ other)
    s.relock dies (dies.map (fun d =>
      ⟨d, w, true,
        if own.any (fun y => y / 2 == d) then routeFor s.links own w d
        else if d = x / 2 then ([Route.west, .east, .north, .south].find? (fun t => match routeHop d t with
          | some (c, _) => c == b
          | none => false)).getD .drop
        else routeFor s.links other x d⟩))
/-- The valid window entries of a region. -/
def State.windowsOf (s : State) (w : Nat) : List Window := (s.region w).windows.toList.filterMap id
/-- The window routes toward region w by its valid entries: where a router serves several of them, the first prevails (assumption 31). -/
def State.routeWindows (s : State) (w : Nat) : State :=
  (s.windowsOf w).reverse.foldl (fun u y => u.windowRoutes w y.link (u.regionsOf (u.islandOf w)) (u.regionsOf y.island)) s
/-- The regions on whose dies those routes lie. -/
def State.windowReach (s : State) (w : Nat) : List Nat :=
  s.regionsOf (s.islandOf w) ++ (s.windowsOf w).flatMap (fun y => s.regionsOf y.island)
/-- Whether a window of region w concerns island x, as owner or as granted island. -/
def State.concerns (s : State) (w x : Nat) : Bool :=
  !(s.windowsOf w).isEmpty && (s.islandOf w == x || (s.windowsOf w).any (fun y => y.island == x))
/-- The window routes of an island that has changed (R386). -/
def State.rewindow (s : State) (x : Nat) : State :=
  (List.range 32).foldl (fun t w => if t.concerns w x then t.routeWindows w else t) s
/-- The regions on whose dies the routes change with island x. -/
def State.rewired (s : State) (x : Nat) : List Nat :=
  s.regionsOf x ++ (List.range 32).flatMap (fun w => if s.concerns w x then s.windowReach w else [])

/-! Losses of members (R393). -/

/-- Whether a context belongs to a gang of a list of lost contexts: the member that its gang loses. -/
def State.lostIn (s : State) (lost : List Nat) (c : Nat) : List Nat :=
  let g := (s.ctx c).gang
  if g = 0 ∨ lost.contains c then []
  else (lost.filter (fun x => (s.ctx x).gang == g)).map (fun x => (s.ctx x).member.toNat)
/-- A parked GBAR of a member that loses a partner is withdrawn (R370, R393): the context issues it again. -/
def State.unpark (s : State) (c : Nat) : State :=
  match (s.ctx c).park with
  | .bar _ _ true _ _ none => (s.withdraw c).modCtx c (fun x => { x with st := .ready, park := .none })
  | _ => s
/-- Cause 0x45 for the lost members of a context's gang, and the withdrawal of its GBAR. -/
def State.tellLoss (lost : List Nat) (s : State) (c : Nat) : State :=
  match s.lostIn lost c with
  | [] => s
  | l => (l.foldl (fun t m => t.raiseInt c 0x45 (BitVec.ofNat 64 m)) s).unpark c
/-- Every other member of the gangs of lost contexts is told (R393). -/
def State.loseMembers (s : State) (lost : List Nat) : State := s.ctxNums.foldl (State.tellLoss lost) s

/-! The region reset. -/

/-- An arrival or held reply toward a core of a region that is reset is dropped and counted, and its command goes on to its status
word (R375, R389). -/
def State.dropArrival (s : State) (a : Arrival) : State :=
  ((s.settleCounted a.eng a.seq 0).countStale (regionOfCore a.core) 1).answerRun a.eng a.seq
/-- The replies on their way to cores of region r, from engines outside it. -/
def State.repliesTo (s : State) (r : Nat) : List Arrival :=
  ((coresOfRegion r).flatMap (fun k => (s.core k).arrivals)).filter (fun a => engineRegion a.eng != r) ++
    s.engines.flatMap (fun e => if engineRegion e = r then [] else (s.engine e).held.filter (fun a => regionOfCore a.core == r))
/-- They are dropped. -/
def State.dropReplies (s : State) (r : Nat) : State :=
  let l := s.repliesTo r
  let s := s.engines.foldl (fun t e => if engineRegion e = r ∨ (t.engine e).held.isEmpty then t
    else t.modEngine e (fun x => { x with held := x.held.filter (fun a => regionOfCore a.core != r) })) s
  l.foldl State.dropArrival s

/-- Whether a group, by its home and its number, has a member in region r: by the entry of any region for which that home stands, be it
region r's own or a contributor's (R327, R354). -/
def State.groupTouches (s : State) (r home g : Nat) : Bool :=
  (List.range 32).any (fun t => s.groupHome t g == home && (s.groupRegions t g).contains r)
/-- A collective instance with a member in region r: its other members complete with RESET (R319, R328). -/
def State.resetInstances (s : State) (r : Nat) : State :=
  s.endInstances (fun x => x.contribs.any (fun c => match c.site with | some (t, _) => t == r | none => false) ||
    s.groupTouches r x.home x.group) (s.groupTouches r)
/-- Whether a tender call acts on an object that region r hosts. -/
def Cmd.onRegion (c : Cmd) (r : Nat) : Bool :=
  match c.cap with
  | some g => decide (g.rec_.agent = .region (Fin.ofNat 32 r))
  | none => false
/-- Tender calls on an object that region r hosts, running or still in an inbox, complete with RESET (R319, R389). -/
def State.resetCalls (s : State) (r : Nat) : State :=
  (List.range 32).foldl (fun t q =>
    if q = r then t
    else
      let e : EngineId := .tend (Fin.ofNat 32 q)
      let g := t.engine e
      let t := (g.running.filter (fun x => x.wait && !x.done && x.cmd.onRegion r)).foldl (fun u x => u.endRun e x.cmd.seq (Fx.of 11 0)) t
      (g.inbox.filter (·.onRegion r)).foldl (fun u c => u.startCmd e c (fun v => (v, Fx.of 11 0))) t) s

/-- A directory entry without the cores of region r and the quads that lie in it (R389, step 5). -/
def DirEnt.purge (d : DirEnt) (r die : Nat) : DirEnt :=
  let ps := d.ptrs.filter (fun p => regionOfCore p.core != r)
  let mine := (List.range 16).foldl (fun (a : BitVec 16) q =>
    if regionOfCore (coreAtSlot (die * 16 + q) 0) = r then a ||| (1#16 <<< q) else a) 0
  { d with ptrs := ps, excl := d.excl && ps.length == d.ptrs.length, qv := d.qv &&& ~~~mine }
/-- The region in which the proxy of a line on a die lies (R344). -/
def proxyRegion (line die : Nat) : Nat := 2 * die + colOfCore (homeCore (line * 128)) / 4
/-- A sparse map with its values changed. -/
def mapVals {α : Type} [DecidableEq α] (d : α) (f : Nat → α → α) (m : SMap α) : SMap α :=
  (m.map (fun e => (e.1, f e.1 e.2))).filter (fun e => e.2 ≠ d)
/-- The dirty sectors that region r's cores hold, or have sent notices of, for lines homed outside it are written back to their homes
(R389, step 3). -/
def State.writeHome (s : State) (r : Nat) : State :=
  (coresOfRegion r).foldl (fun t k =>
    let away := fun (line : Nat) => regionOfPa (line * 128) != r
    let t := ((t.core k).notices.filter (fun n => away n.1)).foldl (fun u n =>
      let x := u.noticeIn k n.1 n.2
      if x.2 then x.1.answered n.1 k else x.1) t
    ((t.core k).l1.filter (fun l => away l.1 && l.2.m != 0)).foldl (fun u l =>
      (u.modCore k (fun c => c.setLine l.1 L1Line.none)).homeDirty l.1 l.2.m) t) s
/-- Sender and receiver of a coherence message, as the regions of core, proxy and home; none where the message does not leave its
die. -/
def CohMsg.path : CohMsg → Option (Nat × Nat)
  | .inval l k _ => if dieOfCore k = homeDie l then none else some (regionOfPa (l * 128), regionOfCore k)
  | .ack l k => if dieOfCore k = homeDie l then none else some (regionOfCore k, regionOfPa (l * 128))
  | .dieAck l die => some (proxyRegion l die, regionOfPa (l * 128))
  | .crossed .. => none
/-- The coherence messages on their way between dies that name region r's earlier incarnation, counted where they arrive (R375,
R389). -/
def State.staleCoherence (s : State) (r : Nat) : State :=
  let s := s.cohMsgs.foldl (fun t m => match m.path with
    | some (a, b) => if a = r ∨ b = r then t.countStale b 1 else t
    | none => t) s
  s.cores.foldl (fun t c => (c.2.notices.filter (fun n =>
    regionOfPa (n.1 * 128) == r && dieOfCore c.1 != homeDie n.1)).foldl (fun u _ => u.countStale r 1) t) s
/-- The answers that cores and proxies of region r owe to requests at homes outside it are taken as given, since it holds nothing any
more (R389, step 5). -/
def State.answerFor (s : State) (r : Nat) : State :=
  let s := s.cohMsgs.foldl (fun t m => match m with
    | .inval l k _ => if regionOfCore k = r then t.answered l k else t
    | .ack l k => if regionOfCore k = r then t.answered l k else t
    | .crossed l k _ => if regionOfCore k = r then t.answered l k else t
    | .dieAck l die => if proxyRegion l die = r then t.ackCount l else t) s
  s.txns.foldl (fun t x => (x.fwd.filter (fun f => proxyRegion x.line f.1 == r)).foldl (fun u f =>
    match u.txnOf x.line with
    | some y => (u.setTxn x.line (some { y with fwd := y.fwd.filter (·.1 != f.1) })).ackCount x.line
    | none => u) t) s
/-- Every copy and record of region r removed from the caches, directories and reservations of the module (R389, step 5). -/
def State.purge (s : State) (r : Nat) : State :=
  let homed := fun (line : Nat) => regionOfPa (line * 128) == r
  { s with
    cores := mapVals Core.reset (fun _ c => { c with
      l1 := c.l1.filter (fun l => !homed l.1)
      icache := c.icache.filter (fun l => !homed l.line)
      notices := c.notices.filter (fun n => !homed n.1) }) s.cores
    dir := mapVals none (fun line e => if homed line then none else e.map (fun d =>
      let x := d.purge r (homeDie line)
      if proxyRegion line (r / 2) = r then { x with dies := x.dies &&& ~~~(1#16 <<< (r / 2)) } else x)) s.dir
    proxies := mapVals none (fun key e =>
      if homed (key / 16) || proxyRegion (key / 16) (key % 16) == r then none else e.map (fun d => d.purge r (key % 16))) s.proxies
    resv := s.resv.filter (fun e => regionOf e.2.ctx != r && regionOfCore e.1 != r)
    txns := s.txns.filter (fun t => !homed t.line && regionOfCore t.core != r)
    cohMsgs := s.cohMsgs.filter (fun m =>
      let asks := fun (l : Nat) => (s.txnOf l).any (fun t => regionOfCore t.core == r)
      match m with
      | .inval l k _ => !homed l && regionOfCore k != r && !asks l
      | .ack l k => !homed l && regionOfCore k != r && !asks l
      | .dieAck l die => !homed l && proxyRegion l die != r && !asks l
      | .crossed l k _ => !homed l && regionOfCore k != r && !asks l)
    hbmOld := s.hbmOld.filter (fun e => regionOfPa e.1 != r)
    poison := s.poison.filter (fun e => regionOfPa (e.1 * 16) != r) }

/-- A context that leaves reset: its trap vector is the region's boot vector (R241, R253). -/
def Ctx.boot (v : Word) : Ctx := { Ctx.reset with tvec := v }
/-- A core after the reset of its region; a fenced core stays fenced (R390). -/
def Core.afterReset (c : Core) : Core := { Core.reset with fenced := c.fenced }
/-- What a region's record holds after its reset (R22, R389, R390). -/
def Region.afterReset (x : Region) : Region :=
  { x with
    inc := x.inc + 1, key := x.key + 1, windows := Vector.replicate 8 none, pending := [], quiet := 0, lost := false
    maps := [], coll := .idle, tend := .idle, lnch := .idle, heldDec := [], dlogHead := 0 }
/-- Everything whose scope lies within region r cleared (R22, R389, step 7), and with it what combined reads of tile loads have read
there. -/
def State.clearRegion (s : State) (r : Nat) : State :=
  let x := s.region r
  let s := { s with
    ctxs := (ctxsOfRegion r).foldl (fun m c => SMap.put Ctx.reset m c (Ctx.boot x.boot)) s.ctxs
    cores := (coresOfRegion r).foldl (fun m k => SMap.put Core.reset m k (SMap.get Core.reset m k).afterReset) s.cores
    quads := s.quads.filter (fun q => regionOfCore (coreAtSlot q.1 0) != r)
    spad := s.spad.filter (fun c => regionOfCore (c.1 / 2 ^ 23) != r)
    spoison := s.spoison.filter (fun c => regionOfCore (c.1 * 16 / 2 ^ 23) != r)
    mem := s.mem.filter (fun c => decide (regionOfPa c.1 ≠ r ∨ c.1 < x.rta ∨ x.rta + 2 ^ 21 ≤ c.1))
    casts := s.casts.filter (fun c => c.from_.all (fun p => !p.loc.within r))
    timers := s.timers.filter (fun t => regionOf t.ctx != r) }
  s.modRegion r Region.afterReset

/-- The windows of a region taken away, with their islands (R389, step 7). -/
def Region.granted (x : Region) : List (Nat × Nat) :=
  (List.range 8).filterMap (fun n => (x.windows.get (Fin.ofNat 8 n)).map (fun w => (n, w.island)))
/-- WINDOW in the regions of both islands (R385, R387). -/
def State.windowEvent (s : State) (owner granted r n : Nat) : State :=
  State.regionEvents 6 r n (s.regionsOf owner ++ (if granted = owner then [] else s.regionsOf granted)) s

/-- An island's number after a change of its regions (R357): everything that names the island follows. -/
def State.renumber (s : State) (old new : Nat) : State :=
  if old = new then s
  else
    let f := fun (x : Nat) => if x = old then new else x
    { s with
      regions := mapVals Region.reset (fun _ x => { x with
        island := if x.st = .free ∨ x.st = .fenced then x.island else f x.island
        windows := x.windows.map (fun w => w.map (fun y => { y with island := f y.island })) }) s.regions
      objects := mapVals none (fun _ e => e.map (fun o => { o with island := f o.island })) s.objects }
/-- The lowest of a list of regions. -/
def lowest (l : List Nat) : Nat := l.foldl min 32
/-- An island that a region has left: its number is its lowest region again, and its routes avoid the region (R357, R381, R382). -/
def State.without (s : State) (old r : Nat) : State :=
  let rest := s.regionsOf old
  if rest.isEmpty then s.reroute [] [r]
  else
    let num := lowest rest
    ((s.reroute rest (r :: rest)).renumber old num).rewindow num
/-- The bytes of a region's image that firmware places: those outside the table area, whose zeros stand (R343; assumption 20). -/
def Region.placed (x : Region) : List (Nat × Byte) := x.image.filter (fun b => decide (b.1 < x.rta ∨ x.rta + 2 ^ 21 ≤ b.1))
/-- Region r leaves reset: firmware has placed the kernel image of its assignment in the stack (R253; assumption 20), and CYCLE reads 0 in
its cores from now on (R242, R244). -/
def State.leaveReset (s : State) (r : Nat) : State :=
  let x := s.region r
  let now := BitVec.ofNat 64 s.cycles - x.gated
  let s := s.putBytes (x.placed.map (fun b => (.hbm b.1, b.2)))
  (coresOfRegion r).foldl (fun t k => t.modCore k (fun c => { c with cycle := now })) (s.modRegion r (fun y => { y with st := .assigned }))
/-- The end of a reset (R253, R389, step 8): ASSIGNED, with BOOT in the region and RESET in the island's other regions; FENCED, and
out of its island, where a pseudo-channel is fenced (R398); still in reset while the die is too hot (R406). -/
def State.openRegion (s : State) (r : Nat) : State :=
  let x := s.region r
  let reset := fun (l : List Nat) (s : State) => State.regionEvents 2 r x.inc.toNat l s
  if x.tripped then s
  else if x.chanFence.isEmpty then
    let s := (s.leaveReset r).regionEvent r 1 r 0
    reset ((s.regionsOf x.island).filter (· != r)) s
  else
    let s := s.modRegion r (fun y => { y with st := .fenced, island := r })
    reset (s.regionsOf x.island) (s.without x.island r)
/-- Steps 1 to 7 of a region reset (R389). The .pod barriers of its groups stand as they are: the collective engines of every module of
a pod carry them, and the specification does not say what a reset does to their phase and arrivals (assumption 81). The WINDOW events for
the region's own entries are raised before it is cleared, so that the region itself keeps none of them (DEDUCED, assumption 90). -/
def State.closeRegion (s : State) (r : Nat) : State :=
  let x := s.region r
  let s := s.modRegion r (fun y => { y with st := .resetting })
  let s := (s.loseMembers (ctxsOfRegion r)).writeHome r
  let s := ((s.dropReplies r).resetInstances r).resetCalls r
  let s := ((s.staleCoherence r).answerFor r).purge r
  let s := x.granted.foldl (fun t w => t.windowEvent x.island w.2 r w.1) s
  s.clearRegion r
/-- A whole region reset. -/
def State.resetRegion (s : State) (r : Nat) : State := (s.closeRegion r).openRegion r

/-- Whether the firmware of a region's die acts (R397, R403). -/
def State.firmware (s : State) (r : Nat) : Bool := s.mstatus.fwready && !s.fanovDown.getLsbD (r / 2)
/-- The regions whose dies' firmware acts in a reset of region r: where a pseudo-channel is fenced, the reset takes the region out of its
island, whose routes change (R386, R397, R398). -/
def State.resetReach (s : State) (r : Nat) : List Nat := r :: (if (s.region r).chanFence.isEmpty then [] else s.rewired (s.islandOf r))
/-- Whether the firmware acts that such a reset needs. -/
def State.mayReset (s : State) (r : Nat) : Bool := (s.resetReach r).all s.firmware

/-- REGION_RESET (R389). -/
def execRegionReset (r : RegionId) (s : State) : Out :=
  if !s.mayReset r.val || (s.region r.val).st ≠ .assigned then notEnabled "REGION_RESET" else .next (s.resetRegion r.val)

/-- TRAP_LOOP_RESET (R396): the regions of the context's island are reset, each told of the others, and the management host is
told. -/
def execTrapLoopReset (c : CtxId) (s : State) : Out :=
  let rs := s.islandRegions (s.islandOf (regionOf c.val))
  if (s.ctx c.val).trapRun < 16 || rs.isEmpty || !rs.all s.mayReset then notEnabled "TRAP_LOOP_RESET"
  else
    let t := rs.foldl State.openRegion (rs.foldl State.closeRegion s)
    .next { t with mgmtOut := t.mgmtOut ++ [.told "trap loop"] }

/-! Failures. -/

/-- A unit is fenced (R399). -/
def State.replace (s : State) : State := { s with mstatus := { s.mstatus with replace := true } }
/-- The regions of the island that a region lies in; none of a region that is in no island (R381). -/
def State.islandMates (s : State) (r : Nat) : List Nat :=
  match (s.region r).st with
  | .assigned | .resetting => s.regionsOf (s.islandOf r)
  | _ => []
/-- The dirty sectors of a core's L1 written back to HBM, where no older value of theirs is left. -/
def State.dirtyHome (s : State) (k : Nat) : State := s.dropOld ((s.core k).l1.flatMap (fun l => spanLocs l.1 l.2.m))
/-- A core is fenced, its threads gone and its contexts as after a reset (R392): its slice keeps serving, and CORE is raised in the
island. Its L1 empties; what was dirty there is HBM's value from now on, in no region cache. Commands of its own that lie in its stream
engine go without a reply or a status word (assumption 70). -/
def State.fenceCore (s : State) (k : Nat) : State :=
  let r := regionOfCore k
  let s := s.dirtyHome k
  let s := { s with ctxs := s.ctxs.filter (fun c => coreOf c.1 != k) }
  let s := s.setCore k { Core.reset with
    fenced := true, spsize := (s.core k).spsize, cycle := (s.core k).cycle, rcache := (s.core k).rcache
    arrivals := (s.core k).arrivals, notices := (s.core k).notices }
  State.regionEvents 3 r k (s.islandMates r) s.replace

/-- The dirty sectors that a core holds become poisoned at their homes (R393). -/
def State.poisonDirty (s : State) (k : Nat) : State :=
  (s.core k).l1.foldl (fun t l => (List.range 8).foldl (fun u j =>
    if l.2.m.getLsbD j then u.setPoison (.hbm (l.1 * 128 + 16 * j)) true else u) t) s
/-- CORE_FAILURE (R393). -/
def execCoreFailure (k : CoreId) (s : State) : Out :=
  if (s.core k.val).fenced || !s.firmware (regionOfCore k.val) then notEnabled "CORE_FAILURE"
  else .next (((s.loseMembers (ctxsOfCore k.val)).poisonDirty k.val).fenceCore k.val)

/-- A region leaves its island as FREE or FENCED after a reset (R386, R394), FENCED in any case where a pseudo-channel is fenced
(R398). -/
def State.leave (s : State) (r : Nat) (st : RegSt) : State :=
  let s := s.closeRegion r
  s.modRegion r (fun x => { x with st := if x.chanFence.isEmpty then st else .fenced, island := r, boot := 0, image := [], rta := 0 })

/-- SLICE_FAILURE (R394): the region is reset and left FENCED; RESET and RESIZE are raised in the others of its island. No Fanov core
of a die whose routes change restarts (R397). -/
def execSliceFailure (k : CoreId) (s : State) : Out :=
  let r := regionOfCore k.val
  if !s.firmware r || (s.region r).st = .fenced then notEnabled "SLICE_FAILURE"
  else if (s.region r).st = .free then .next (s.leave r .fenced).replace
  else if !(s.rewired (s.islandOf r)).all s.firmware then notEnabled "SLICE_FAILURE"
  else
    let old := s.islandOf r
    let t := s.leave r .fenced
    let rest := t.regionsOf old
    let t := State.regionEvents 2 r (t.region r).inc.toNat rest (t.without old r).replace
    .next (State.regionEvents 7 (if rest.isEmpty then old else lowest rest) 0 rest t)

/-- PSEUDO_CHANNEL_FAILURE (R398). -/
def execPseudoChannelFailure (r : RegionId) (ch : Fin 64) (s : State) : Out :=
  if (s.region r.val).chanFence.contains ch.val || !s.firmware r.val then notEnabled "PSEUDO_CHANNEL_FAILURE"
  else
    let t := (s.modRegion r.val (fun x => { x with chanFence := ch.val :: x.chanFence })).replace
    .next (State.regionEvents 4 r.val ch.val (t.islandMates r.val) t)

/-- Whether the route from a die to a region crosses boundary b, within so many dies. -/
def State.pathOver (s : State) (b : Nat) (win : Bool) (dest : Nat) : Nat → Nat → Bool
  | 0, _ => false
  | n + 1, die =>
    if die = dest / 2 then false
    else match routeHop die (SMap.get .drop s.routes (routeKey die dest win)) with
      | none => false
      | some (c, d) => c == b || State.pathOver s b win dest n d
/-- Whether island x routes over boundary b (R387): from one of its dies, to a region of its own or to the owner of a window that
concerns it, whose LINK counts in any case. -/
def State.routesOver (s : State) (x b : Nat) : Bool :=
  let from_ := fun (win : Bool) (dest : Nat) => (s.regionsOf x).any (fun a => s.pathOver b win dest 32 (a / 2))
  (s.regionsOf x).any (from_ false) ||
  (List.range 32).any (fun r => (s.windowsOf r).any (fun y => (s.islandOf r == x || y.island == x) && (y.link == b || from_ true r)))
/-- Window n of region r withdrawn, with its event (R385). -/
def State.dropWindow (s : State) (r n : Nat) : State :=
  match (s.region r).windows.get (Fin.ofNat 8 n) with
  | none => s
  | some w =>
    (s.modRegion r (fun x => { x with windows := Vector.ofFn (fun i => if i.val = n then none else x.windows.get i) })).windowEvent
      (s.islandOf r) w.island r n
/-- Whether nothing that has passed R257's check is still to be performed by the contexts and engines of some regions (R385, R386):
buffered stores, missed loads, tile and vector accesses, and the destinations and status words of commands. -/
def State.quietRegions (s : State) (rs : List Nat) (p : Loc → Bool) : Bool :=
  let hits := fun (ps : List Piece) => ps.any (fun x => p x.loc)
  rs.all (fun r => (coresOfRegion r).all (fun k =>
    (ctxsOfCore k).all (fun c => (s.ctx c).sb.all (fun e => !hits e.pieces) && (match (s.ctx c).miss with
      | .load _ _ _ _ loc _ _ => !p loc
      | _ => true)) &&
    (s.core k).tq.all (fun e => !hits e.pieces) &&
    (s.core k).vq.all (fun e => match e.win with
      | some w => w.elems.all (fun x => !hits x.2)
      | none => true))) &&
  s.engines.all (fun e => !rs.contains (engineRegion e) || (s.engine e).running.all (fun x =>
    (x.done || !hits x.dst) && !hits x.status.toList))
/-- Accesses of an island through a window of region r that have passed the check (R385). -/
def State.windowQuiet (s : State) (r : Nat) (w : Window) : Bool :=
  s.quietRegions (s.regionsOf w.island) (fun l => match l with
    | .hbm pa => regionOfPa pa == r
    | _ => false)
/-- BOUNDARY_FAILURE (R398): firmware withdraws the windows over the boundary once the accesses that have passed the check are
performed (R385), and LINK is raised. No Fanov core that has to act restarts (R397). -/
def execBoundaryFailure (b : LinkId) (s : State) : Out :=
  let ds := linkDies b.val
  let over_ := (List.range 32).flatMap (fun r => (List.range 8).filterMap (fun n =>
    match (s.region r).windows.get (Fin.ofNat 8 n) with
    | some w => if w.link = b.val then some (r, n, w) else none
    | none => none))
  if s.links.getLsbD b.val || !s.firmware (2 * ds.1) || !s.firmware (2 * ds.2) ||
      over_.any (fun x => !s.firmware x.1 || !s.windowQuiet x.1 x.2.2) then
    notEnabled "BOUNDARY_FAILURE"
  else
    let told := (List.range 32).filter (fun r => !(s.islandMates r).isEmpty && s.routesOver (s.islandOf r) b.val)
    let t := ({ s with links := s.links ||| (1#22 <<< b.val) } : State).replace
    .next (State.regionEvents 5 0 b.val told (over_.foldl (fun u x => u.dropWindow x.1 x.2.1) t))

/-- FABRIC_PORT_FAILURE (R398): storage calls in flight complete with STORAGE. -/
def execFabricPortFailure (r : RegionId) (s : State) : Out :=
  if (s.region r.val).portDown then notEnabled "FABRIC_PORT_FAILURE"
  else .next ((s.modRegion r.val (fun x => { x with portDown := true })).loseCalls r)

/-- FANOV_SRAM_ERROR (R397). -/
def execFanovSramError (d : DieId) (s : State) : Out :=
  if s.fanovDown.getLsbD d.val || !s.mstatus.fwready then notEnabled "FANOV_SRAM_ERROR"
  else .next { s with fanovDown := s.fanovDown ||| (1#16 <<< d.val) }
/-- The events that a region's die held while its Fanov core restarted are delivered (R397). -/
def State.release (s : State) (r : Nat) : State :=
  let x := s.region r
  let t := s.modRegion r (fun y => { y with quiet := 0 })
  let t := match x.pending.getLast?, s.eventCore r with
    | some m, some k => if x.quiet = 0 then t else t.raiseInt (k * 4) 0x43 m.m0
    | _, _ => t
  (t.eventRetry r).getD t
/-- FANOV_RESTART_DONE (R397). -/
def execFanovRestartDone (d : DieId) (s : State) : Out :=
  if !s.fanovDown.getLsbD d.val then notEnabled "FANOV_RESTART_DONE"
  else
    let t : State := { s with fanovDown := s.fanovDown &&& ~~~(1#16 <<< d.val) }
    let t := (t.release (2 * d.val)).release (2 * d.val + 1)
    .next (State.regionEvents 8 0 0 (List.range 32) t)

/-- The sector of a byte found uncorrectable in HBM (R267): it is poisoned there. Copies that caches hold already stay good, and so does
a latest value that lies dirty in one. -/
def State.spoil (s : State) (pa : Nat) : State :=
  if (List.range 16).any (fun i => (SMap.get none s.hbmOld (pa / 16 * 16 + i)).isSome) then
    { s with hbmOld := mapVals none (fun a e => if a / 16 = pa / 16 then e.map (fun x => (x.1, true)) else e) s.hbmOld }
  else if s.poisoned (.hbm pa) then s
  else (s.others (lineOf pa) 1024 (fun x => { x with good := x.good ||| (x.all &&& spanOf (pa % 128) 1) }) s.coreNums).setPoison (.hbm pa) true
/-- UNCORRECTABLE_ERROR (R222, R223, R267, R378): the sector is poisoned, or the tile data bad until it is found; a residue check
that is to fail is no data found uncorrectable, and is not counted. -/
def execUncorrectableError (site : ErrSite) (s : State) : Out :=
  match site with
  | .hbm pa => if 2 ^ 41 ≤ pa then notEnabled "UNCORRECTABLE_ERROR" else .next ((s.spoil pa).countUncorr (regionOfPa pa) 1)
  | .spad k off =>
    if s.spadSize k.val ≤ off then notEnabled "UNCORRECTABLE_ERROR"
    else .next ((s.setPoison (.spad k.val off) true).countUncorr (regionOfCore k.val) 1)
  | .panel k q => .next ((s.modCore k.val (fun c => { c with badPanel := c.badPanel ||| (1#16 <<< q.val) })).countUncorr (regionOfCore k.val) 1)
  | .acc k a => .next ((s.modCore k.val (fun c => { c with badAcc := c.badAcc ||| (1#8 <<< a.val) })).countUncorr (regionOfCore k.val) 1)
  | .band k q => .next ((s.modCore k.val (fun c => { c with badBand := c.badBand ||| (1#16 <<< q.val) })).countUncorr (regionOfCore k.val) 1)
  | .residue k a => .next (s.modCore k.val (fun c => { c with badCheck := c.badCheck ||| (1#8 <<< a.val) }))
/-- A corrected error of a region (R222, R267, R400): it is counted, and nothing else happens. -/
def State.corrected (s : State) (r : RegionId) : Out := .next (s.countCorr r.val 1)

/-! Current and heat. -/

/-- REGION_THROTTLE (R18, R405). -/
def execRegionThrottle (r : RegionId) (amps : BitVec 11) (s : State) : Out :=
  if amps ≤ (s.region r.val).limit then notEnabled "REGION_THROTTLE"
  else .next (s.modRegion r.val (fun x => { x with throttled := true, amps := amps }))
/-- REGION_THROTTLE_RELEASE (R18). -/
def execRegionThrottleRelease (r : RegionId) (amps : BitVec 11) (s : State) : Out :=
  let x := s.region r.val
  if !x.throttled || x.limit < amps then notEnabled "REGION_THROTTLE_RELEASE"
  else .next (s.modRegion r.val (fun x => { x with throttled := false, amps := amps }))

/-- RCURR (R405): a current that stays on its side of the limit. -/
def State.setCurrent (s : State) (r : RegionId) (amps : BitVec 11) : Out :=
  let x := s.region r.val
  if x.throttled == decide (x.limit < amps) then .next (s.modRegion r.val (fun x => { x with amps := amps })) else notEnabled "current"
/-- A current limit lowered or returned: the region throttles itself while its current exceeds it (R18, R406). -/
def Region.setLimit (x : Region) (l : BitVec 11) : Region := { x with limit := l, throttled := decide (l < x.amps) }

/-- A die's temperature, and its regions changed. -/
def State.setTemp (s : State) (d : DieId) (deg : BitVec 8) (f : Region → Region) : State :=
  ((({ s with dtemp := s.dtemp.set d.val deg d.isLt } : State).modRegion (2 * d.val) f).modRegion (2 * d.val + 1) f)
/-- TEMP_HOT (R406): at 105 °C the current limits fall to 500 A. -/
def execTempHot (d : DieId) (deg : BitVec 8) (s : State) : Out :=
  if deg < 105 || 115 ≤ deg || !s.firmware (2 * d.val) then notEnabled "TEMP_HOT"
  else .next ({ (s.setTemp d deg (·.setLimit 1000)) with mstatus := { s.mstatus with hot := true } })
/-- A region reset and held (R406): one in no island too, which stays out of any and is held when it is assigned. One held already
stays so. -/
def State.trip (s : State) (r : Nat) : State :=
  let x := s.region r
  if x.tripped then s
  else (match x.st with
    | .assigned => s.closeRegion r
    | .free | .fenced => s.leave r x.st
    | .resetting => s).modRegion r (fun x => { x with tripped := true })
/-- TEMP_TRIP (R406): at 115 °C the die's regions are reset and held. -/
def execTempTrip (d : DieId) (deg : BitVec 8) (s : State) : Out :=
  if deg < 115 || !s.firmware (2 * d.val) then notEnabled "TEMP_TRIP"
  else
    let t := s.setTemp d deg (·.setLimit 1000)
    let t := { t with mstatus := { t.mstatus with hot := true, trip := true } }
    .next ((t.trip (2 * d.val)).trip (2 * d.val + 1))
/-- TEMP_RECOVER (R406): below 100 °C the limits return, below 95 °C held regions open. -/
def execTempRecover (d : DieId) (deg : BitVec 8) (s : State) : Out :=
  let opens := [2 * d.val, 2 * d.val + 1].filter (fun r => decide (deg < 95 ∧ (s.region r).tripped ∧ (s.region r).st = .resetting))
  if 100 ≤ deg || !s.firmware (2 * d.val) || !opens.all s.mayReset then notEnabled "TEMP_RECOVER"
  else
    let t := s.setTemp d deg (·.setLimit 1250)
    .next (if 95 ≤ deg then t
      else [2 * d.val, 2 * d.val + 1].foldl (fun u r =>
        let v := u.modRegion r (fun x => { x with tripped := false })
        if (u.region r).tripped ∧ (u.region r).st = .resetting then v.openRegion r else v) t)
/-- DTEMP (R405): a sensor shows another temperature, whether or not firmware can react to it now (R397, R406). -/
def State.setHeat (s : State) (d : DieId) (deg : BitVec 8) : Out := .next (s.setTemp d deg id)

end Sys2Proof.Machine
end

