-- ==== Sys2Proof/Machine/Mgmt.lean ====
section
/-! DEFINITION. Power-on (R403), the requests of the management host (R383 to R386, R392, R404, R405), the object table (R352),
and what arrives over the fabric (R359, R401, R402). -/

namespace Sys2Proof.Machine

/-- Firmware's answer to the management host (R383). -/
def State.answer (s : State) (a : MgmtOut) : State := { s with mgmtOut := s.mgmtOut ++ [a] }
def refuse (reason : String) (s : State) : Out := .next (s.answer (.refused reason))
/-- A request on which firmware acts: none before verified firmware runs, refused while a Fanov core of its dies restarts
(R397, R403). The restart of another die's core, d0's with the management port among them, holds up no request (assumption 93). -/
def mgmt (name : String) (rs : List Nat) (s : State) (f : State → Out) : Out :=
  if !s.mstatus.fwready then notEnabled name
  else if rs.any (fun r => s.fanovDown.getLsbD (r / 2)) then refuse "restart" s
  else f s

/-- MODULE_POWER_ON (R403): FWREADY, or BOOTERR with every region in reset. -/
def execModulePowerOn (verified : Bool) (s : State) : Out :=
  if s.mstatus.fwready || s.mstatus.booterr then notEnabled "MODULE_POWER_ON"
  else if verified then .next { s with mstatus := { s.mstatus with fwready := true } }
  else .next { s with mstatus := { s.mstatus with booterr := true } }

/-- A record that can be assigned: the table area lies in the region's stack, aligned to 2 MiB, and the image in HBM (R253, R342,
R357). -/
def AssignRec.ok (a : AssignRec) : Bool :=
  decide (a.rta / 2 ^ 36 = a.region.val ∧ a.rta % 2 ^ 21 = 0) && a.image.all (fun b => decide (b.1 / 2 ^ 36 = a.region.val))
/-- The regions of a list that its island will hold: a region with a fenced pseudo-channel is FENCED by the reset of its assignment
(R398), and so is in no island (R381), unless it is a member already. -/
def State.lasting (s : State) (old l : List Nat) : List Nat := l.filter (fun r => old.contains r || (s.region r).chanFence.isEmpty)
/-- A region takes the values of its record and is reset under them; its kernel image is placed as it leaves reset, now and at every later
reset (R253, R389; assumption 20). -/
def State.assign (island : Nat) (s : State) (a : AssignRec) : State :=
  let s := s.modRegion a.region.val (fun x => { x with
    st := .resetting, island := if x.chanFence.isEmpty then island else a.region.val, boot := a.boot &&& 0xFFFFFFFFFFF00#64, image := a.image
    rta := a.rta })
  s.resetRegion a.region.val

/-- MGMT_ASSIGN (R381 to R383): a new island of FREE regions, connected by those that it will hold. -/
def execMgmtAssign (rs : List AssignRec) (s : State) : Out :=
  let l := rs.map (·.region.val)
  mgmt "MGMT_ASSIGN" l s (fun s =>
    if !rs.all AssignRec.ok then refuse "record" s
    else if !decide l.Nodup || !connected s.links (s.lasting [] l) then refuse "regions" s
    else if l.any (fun r => decide ((s.region r).st ≠ .free)) then refuse "not free" s
    else .next ((rs.foldl (State.assign (lowest (s.lasting [] l))) (s.reroute (s.lasting [] l) l)).answer .done))

/-- MGMT_RESIZE (R386): refused with a gang on an affected context, an occupied region to remove, a region that is not FREE to
add, or a result that is not connected. Requests in flight are performed first. The regions that remain are told RESIZE; that a removed
region has been reset is not told them by RESET besides (DEDUCED, assumption 89). -/
def execMgmtResize (island : Nat) (rs : List AssignRec) (s : State) : Out :=
  let new := rs.map (·.region.val)
  let old := s.regionsOf island
  let added := rs.filter (fun a => !old.contains a.region.val)
  let removed := old.filter (fun r => !new.contains r)
  let affected := old ++ added.map (·.region.val)
  mgmt "MGMT_RESIZE" (affected ++ s.rewired island) s (fun s =>
    let last := s.lasting old new
    if old.isEmpty || !decide new.Nodup || !added.all AssignRec.ok || !connected s.links last then refuse "regions" s
    else if added.any (fun a => decide ((s.region a.region.val).st ≠ .free)) then refuse "not free" s
    else if affected.any (fun r => (ctxsOfRegion r).any (fun c => (s.ctx c).gang != 0)) then refuse "gangs" s
    else if removed.any (fun r => (ctxsOfRegion r).any (fun c => decide ((s.ctx c).st ≠ .free))) then refuse "contexts" s
    else if !s.quietRegions affected (fun _ => true) then notEnabled "MGMT_RESIZE"
    else
      let num := lowest last
      let t := s.reroute last affected
      let t := removed.foldl (fun u r => u.leave r .free) t
      let t := t.renumber island num
      let t := (added.foldl (State.assign num) t).rewindow num
      .next ((State.regionEvents 7 num 0 (t.regionsOf num) t).answer .done))

/-- MGMT_WINDOW_GRANT (R384): the link has to join the two islands. The routes of the owner's windows are written anew, on the dies of
all their islands. A valid entry is changed as R385 withdraws it. -/
def execMgmtWindowGrant (r : RegionId) (n : Fin 8) (rw : Bool) (island base size : Nat) (link : LinkId) (s : State) : Out :=
  let own := s.islandOf r.val
  mgmt "MGMT_WINDOW_GRANT" (r.val :: s.windowReach r.val ++ s.regionsOf island) s (fun s =>
    if (s.region r.val).st ≠ .assigned ∨ own = island ∨ 2 ^ 15 < base + size ∨ s.links.getLsbD link.val ∨
        linkJoins link.val (s.regionsOf own) (s.regionsOf island) = none then refuse "window" s
    else
      let old := (s.region r.val).windows.get n
      let put := fun (s : State) =>
        ((s.modRegion r.val (fun x => { x with windows := x.windows.set n.val (some ⟨rw, island, base, size, link.val⟩) n.isLt })).routeWindows
          r.val).answer .done
      match old with
      | none => .next (put s)
      | some w => if s.windowQuiet r.val w then .next (put (s.dropWindow r.val n.val)) else notEnabled "MGMT_WINDOW_GRANT")

/-- MGMT_WINDOW_WITHDRAW (R385): the routes of the owner's other windows follow their entries from then on (R358). -/
def execMgmtWindowWithdraw (r : RegionId) (n : Fin 8) (s : State) : Out :=
  mgmt "MGMT_WINDOW_WITHDRAW" (r.val :: s.windowReach r.val) s (fun s =>
    match (s.region r.val).windows.get n with
    | none => refuse "window" s
    | some w =>
      if s.windowQuiet r.val w then .next (((s.dropWindow r.val n.val).routeWindows r.val).answer .done)
      else notEnabled "MGMT_WINDOW_WITHDRAW")

/-- MGMT_RESET (R383, R389). -/
def execMgmtReset (r : RegionId) (s : State) : Out :=
  mgmt "MGMT_RESET" (s.resetReach r.val) s (fun s =>
    if (s.region r.val).st ≠ .assigned then refuse "region" s else .next ((s.resetRegion r.val).answer .done))

/-- MGMT_FENCE_CORE (R392): refused while a context is not FREE or a counter is not 0. -/
def execMgmtFenceCore (k : CoreId) (s : State) : Out :=
  mgmt "MGMT_FENCE_CORE" [regionOfCore k.val] s (fun s =>
    if (s.core k.val).fenced || (ctxsOfCore k.val).any (fun c =>
        let x := s.ctx c
        decide (x.st ≠ .free) || x.cntL != 0 || x.cntS != 0 || x.cntC != 0 || x.cntT != 0) then refuse "core" s
    else .next ((s.fenceCore k.val).answer .done))

/-- Bytes of a bit vector, the lowest first. -/
def bvBytes {w : Nat} (n : Nat) (x : BitVec w) : List Byte := leBytes n x.toNat
/-- The fields of an attestation report before its signature (R404). -/
def State.report (s : State) (nonce : BitVec 512) : List Byte :=
  let code := fun (x : RegSt) => match x with | .free => 0 | .assigned => 1 | .resetting => 2 | .fenced => 3
  let wins := (List.range 32).flatMap (fun r => (s.region r).windows.toList.flatMap (fun w => match w with
    | none => Config.windowEntry false false 0 0 0 0
    | some y => Config.windowEntry true y.rw y.island y.base y.size y.link))
  bvBytes 4 Config.reportVersion ++ bvBytes 64 (Config.sha512 Config.identityKey) ++ bvBytes 64 (Config.sha512 Config.firmwareImage) ++
  bvBytes 4 Config.securityVersion ++
  (List.range 32).flatMap (fun r => bvBytes 4 (Config.mapEntry (code (s.region r).st) (s.islandOf r) (s.region r).inc.toNat)) ++
  bvBytes 64 (Config.sha512 wins) ++ bvBytes 64 nonce ++ bvBytes 8 s.time
/-- MGMT_ATTEST (R404). -/
def execMgmtAttest (nonce : BitVec 512) (s : State) : Out :=
  mgmt "MGMT_ATTEST" [0] s (fun s =>
    let r := s.report nonce
    .next (s.answer (.report (r ++ bvBytes 132 (Config.signReport r)))))

/-- MGMT_OBJECT_ASSIGN (R352). -/
def execMgmtObjectAssign (n : BitVec 16) (o : Option ObjectRec) (s : State) : Out :=
  mgmt "MGMT_OBJECT_ASSIGN" [0] s (fun s => .next (({ s with objects := SMap.put none s.objects n.toNat o } : State).answer .done))

/-- MSTATUS_WRITE (R405): HOT and TRIP clear where 1 is written. -/
def execMstatusWrite (x : Word) (s : State) : Out :=
  .next { s with mstatus := { s.mstatus with hot := s.mstatus.hot && !x.getLsbD 3, trip := s.mstatus.trip && !x.getLsbD 4 } }

/-- The registers of the management port by offset (R4, R405): "—" bits read 0, and RERR holds the low 16 bits of each error count.
FWREADY stays 1 while a Fanov core restarts (DEDUCED, assumption 91). -/
def State.mgmtReg (s : State) (off : Nat) : Option Word :=
  let b := fun (x : Bool) (n : Nat) => if x then 2 ^ n else 0
  let m := s.mstatus
  let x := s.region
  if off % 8 ≠ 0 then none
  else if off = 0 then
    some (BitVec.ofNat 64 (b m.replace 0 + b m.fwready 1 + b m.booterr 2 + b m.hot 3 + b m.trip 4))
  else if off < 0x108 then some ((x ((off - 0x008) / 8)).amps.zeroExtend 64)
  else if off < 0x208 then some (x ((off - 0x108) / 8)).gated
  else if off < 0x288 then some ((s.dtemp.get (Fin.ofNat 16 ((off - 0x208) / 8))).zeroExtend 64)
  else if off < 0x388 then
    let r := x ((off - 0x288) / 8)
    some (BitVec.ofNat 64 (r.corr % 2 ^ 16 + r.uncorr % 2 ^ 16 * 2 ^ 16 + r.stale % 2 ^ 16 * 2 ^ 32 + r.route % 2 ^ 16 * 2 ^ 48))
  else none
/-- A read of the management host (R405). -/
def State.mgmtRead (s : State) (off : Nat) : Out :=
  match s.mgmtReg off with
  | some x => .next (s.answer (.value x))
  | none => notEnabled "management read"
/-- Firmware's answer with the full error counts of a region, which it may clear (R378, R405). -/
def State.mgmtCounts (s : State) (r : RegionId) (clear : Bool) : Out :=
  mgmt "management counts" [r.val] s (fun s =>
    let x := s.region r.val
    let t := if clear then s.modRegion r.val (fun x => { x with corr := 0, uncorr := 0, stale := 0, route := 0 }) else s
    .next (t.answer (.counts x.corr x.uncorr x.stale x.route)))

/-! The fabric. -/

/-- HOST_ENDPOINT_RESET (R359). -/
def execHostEndpointReset (ep : BitVec 18) (s : State) : Out :=
  if !s.mstatus.fwready then notEnabled "HOST_ENDPOINT_RESET"
  else .next { s with hostInc := SMap.put 0 s.hostInc ep.toNat (SMap.get 0 s.hostInc ep.toNat + 1) }
/-- ENDPOINT_ID_ASSIGN (R401). -/
def execEndpointIdAssign (r : RegionId) (ep : BitVec 18) (s : State) : Out :=
  .next (s.modRegion r.val (fun x => { x with ep := ep }))

/-- The object that a region's gate finds for a request: hosted by the region, of the kind, with the rights, and covering the
bytes (R402). -/
def State.gate (s : State) (r obj : Nat) (kind : ObjKind) (need : BitVec 5) (addr n : Nat) : Option ObjectRec :=
  match SMap.get none s.objects obj with
  | none => none
  | some o =>
    if o.kind = kind ∧ o.agent = .region (Fin.ofNat 32 r) ∧ o.rights &&& need = need ∧ n ≤ 256 ∧
        (kind = .grant → 0 < n ∧ o.base ≤ addr ∧ addr + n ≤ o.base + o.size ∧ addr / 2 ^ 36 = r ∧ (addr + n - 1) / 2 ^ 36 = r) then some o
    else none
/-- The uncached piece of an inbound request. -/
def inboundPiece (addr n : Nat) : Piece := ⟨addr, .hbm addr, n, true, 0, 12⟩
/-- FABRIC_INBOUND (R401, R402): a request of an earlier incarnation is dropped and counted (R375); one that the gate admits is
performed at its home slice as an uncached access (an atomic at an address not aligned to its width is none that it admits:
assumption 72), or put into the exported channel under the sender's mode; a message that the
channel's binding refuses, or that finds it full, completes REFUSED at the sender (R334, R336; assumption 39). Any other is
dropped and counted in ROUTE. What a read or an atomic answers leaves the module. -/
def execFabricInbound (r : RegionId) (req : FabricMsg FabricReq) (s : State) : Out :=
  let drop := Host.Outcome.next (s.countRoute r.val 1)
  let owned := fun (addr n : Nat) => s.engineOwns (pieceLocs [inboundPiece addr n])
  let held := fun (addr n : Nat) => s.heldBack none (pieceLocs [inboundPiece addr n]) || owned addr n
  if (s.region r.val).portDown then notEnabled "FABRIC_INBOUND"
  else if s.staleHead req.head r.val then .next (s.countStale r.val 1)
  else if (s.region r.val).st ≠ .assigned then drop
  else match req.body with
    | .read obj addr n =>
      match s.gate r.val obj .grant 1 addr n with
      | none => drop
      | some _ => if owned addr n then notEnabled "FABRIC_INBOUND" else .next (s.recallAll false (linesOf addr n))
    | .write obj addr data =>
      match s.gate r.val obj .grant 2 addr data.length with
      | none => drop
      | some _ =>
        if held addr data.length then notEnabled "FABRIC_INBOUND"
        else .next (s.homeWrite none [inboundPiece addr data.length] data)
    | .atomic obj addr op dw v =>
      let n := if dw then 8 else 4
      match s.gate r.val obj .grant 3 addr n with
      | none => drop
      | some _ =>
        if addr % n ≠ 0 then drop
        else if held addr n then notEnabled "FABRIC_INBOUND"
        else
          let old := leNat (s.bytesAt (.hbm addr) n)
          let new := if (s.firstPoison (.hbm addr) n).isSome then none else Amo.eval op (BitVec.ofNat (8 * n) old) (v.setWidth (8 * n))
          let t := s.recallAll new.isSome (linesOf addr n)
          match new with
          | none => .next t
          | some x => .next (t.homeWrite none [inboundPiece addr n] (leBytes n x.toNat))
    | .message obj m0 m1 m2 m3 kmode =>
      match s.gate r.val obj .channel 4 0 0 with
      | none => drop
      | some o =>
        if !o.inModule || regionOfCore o.core.val != r.val then drop
        else if (s.binding o.core.val o.chan.val).refuses kmode then .next s
        else if 8 ≤ (s.chan o.core.val o.chan).length then .next s
        else .next (s.chanPut o.core.val o.chan ⟨m0, m1, m2, m3⟩)

end Sys2Proof.Machine
end

