-- ==== Sys2Proof/Machine/Dispatch.lean ====
section
/-! DEFINITION. One arm per instruction: the direct call of its meaning. -/

namespace Sys2Proof.Machine

def exec (i : Instr) (s : State) : Host.Outcome State Fault Refusal :=
  match i with
  | .add d a b => Sys2Proof.Machine.execAdd d a b s
  | .sub d a b => Sys2Proof.Machine.execSub d a b s
  | .and d a b => Sys2Proof.Machine.execAnd d a b s
  | .or d a b => Sys2Proof.Machine.execOr d a b s
  | .xor d a b => Sys2Proof.Machine.execXor d a b s
  | .andn d a b => Sys2Proof.Machine.execAndn d a b s
  | .sll d a b => Sys2Proof.Machine.execSll d a b s
  | .srl d a b => Sys2Proof.Machine.execSrl d a b s
  | .sra d a b => Sys2Proof.Machine.execSra d a b s
  | .rol d a b => Sys2Proof.Machine.execRol d a b s
  | .ror d a b => Sys2Proof.Machine.execRor d a b s
  | .slt d a b => Sys2Proof.Machine.execSlt d a b s
  | .sltu d a b => Sys2Proof.Machine.execSltu d a b s
  | .min d a b => Sys2Proof.Machine.execMin d a b s
  | .max d a b => Sys2Proof.Machine.execMax d a b s
  | .minu d a b => Sys2Proof.Machine.execMinu d a b s
  | .maxu d a b => Sys2Proof.Machine.execMaxu d a b s
  | .mul d a b => Sys2Proof.Machine.execMul d a b s
  | .mulh d a b => Sys2Proof.Machine.execMulh d a b s
  | .mulhu d a b => Sys2Proof.Machine.execMulhu d a b s
  | .div d a b => Sys2Proof.Machine.execDiv d a b s
  | .divu d a b => Sys2Proof.Machine.execDivu d a b s
  | .rem d a b => Sys2Proof.Machine.execRem d a b s
  | .remu d a b => Sys2Proof.Machine.execRemu d a b s
  | .clz d a => Sys2Proof.Machine.execClz d a s
  | .ctz d a => Sys2Proof.Machine.execCtz d a s
  | .popc d a => Sys2Proof.Machine.execPopc d a s
  | .movz d a b => Sys2Proof.Machine.execMovz d a b s
  | .movn d a b => Sys2Proof.Machine.execMovn d a b s
  | .addw d a b => Sys2Proof.Machine.execAddw d a b s
  | .subw d a b => Sys2Proof.Machine.execSubw d a b s
  | .bswap d a => Sys2Proof.Machine.execBswap d a s
  | .addi d a imm => Sys2Proof.Machine.execAddi d a imm s
  | .andi d a imm => Sys2Proof.Machine.execAndi d a imm s
  | .ori d a imm => Sys2Proof.Machine.execOri d a imm s
  | .xori d a imm => Sys2Proof.Machine.execXori d a imm s
  | .slti d a imm => Sys2Proof.Machine.execSlti d a imm s
  | .sltiu d a imm => Sys2Proof.Machine.execSltiu d a imm s
  | .slli d a sh => Sys2Proof.Machine.execSlli d a sh s
  | .srli d a sh => Sys2Proof.Machine.execSrli d a sh s
  | .srai d a sh => Sys2Proof.Machine.execSrai d a sh s
  | .rori d a sh => Sys2Proof.Machine.execRori d a sh s
  | .lih d imm => Sys2Proof.Machine.execLih d imm s
  | .addpc d imm => Sys2Proof.Machine.execAddpc d imm s
  | .shori d a imm => Sys2Proof.Machine.execShori d a imm s
  | .fadd d a b sz rm => Sys2Proof.Machine.execFadd d a b sz rm s
  | .fsub d a b sz rm => Sys2Proof.Machine.execFsub d a b sz rm s
  | .fmul d a b sz rm => Sys2Proof.Machine.execFmul d a b sz rm s
  | .fdiv d a b sz rm => Sys2Proof.Machine.execFdiv d a b sz rm s
  | .fsqrt d a sz rm => Sys2Proof.Machine.execFsqrt d a sz rm s
  | .fmin d a b sz => Sys2Proof.Machine.execFmin d a b sz s
  | .fmax d a b sz => Sys2Proof.Machine.execFmax d a b sz s
  | .fceq d a b sz => Sys2Proof.Machine.execFceq d a b sz s
  | .fclt d a b sz => Sys2Proof.Machine.execFclt d a b sz s
  | .fcle d a b sz => Sys2Proof.Machine.execFcle d a b sz s
  | .fclass d a sz => Sys2Proof.Machine.execFclass d a sz s
  | .fcvti d a sz rm => Sys2Proof.Machine.execFcvti d a sz rm s
  | .fcvtf d a sz rm => Sys2Proof.Machine.execFcvtf d a sz rm s
  | .fcvtff d a src sz rm => Sys2Proof.Machine.execFcvtff d a src sz rm s
  | .fneg d a sz => Sys2Proof.Machine.execFneg d a sz s
  | .fabs d a sz => Sys2Proof.Machine.execFabs d a sz s
  | .fma d a b c sz rm np na => Sys2Proof.Machine.execFma d a b c sz rm np na s
  | .lb d a imm => Sys2Proof.Machine.execLb d a imm s
  | .lh d a imm => Sys2Proof.Machine.execLh d a imm s
  | .lw d a imm => Sys2Proof.Machine.execLw d a imm s
  | .ld d a imm => Sys2Proof.Machine.execLd d a imm s
  | .lbu d a imm => Sys2Proof.Machine.execLbu d a imm s
  | .lhu d a imm => Sys2Proof.Machine.execLhu d a imm s
  | .lwu d a imm => Sys2Proof.Machine.execLwu d a imm s
  | .sb c a imm => Sys2Proof.Machine.execSb c a imm s
  | .sh c a imm => Sys2Proof.Machine.execSh c a imm s
  | .sw c a imm => Sys2Proof.Machine.execSw c a imm s
  | .sd c a imm => Sys2Proof.Machine.execSd c a imm s
  | .lr d a dw acq sc => Sys2Proof.Machine.execLr d a dw acq sc s
  | .sc d a b dw rel sc => Sys2Proof.Machine.execSc d a b dw rel sc s
  | .amoswap d a b dw acq rel sc => Sys2Proof.Machine.execAmoswap d a b dw acq rel sc s
  | .amoadd d a b dw acq rel sc => Sys2Proof.Machine.execAmoadd d a b dw acq rel sc s
  | .amoand d a b dw acq rel sc => Sys2Proof.Machine.execAmoand d a b dw acq rel sc s
  | .amoor d a b dw acq rel sc => Sys2Proof.Machine.execAmoor d a b dw acq rel sc s
  | .amoxor d a b dw acq rel sc => Sys2Proof.Machine.execAmoxor d a b dw acq rel sc s
  | .amomin d a b dw acq rel sc => Sys2Proof.Machine.execAmomin d a b dw acq rel sc s
  | .amomax d a b dw acq rel sc => Sys2Proof.Machine.execAmomax d a b dw acq rel sc s
  | .amominu d a b dw acq rel sc => Sys2Proof.Machine.execAmominu d a b dw acq rel sc s
  | .amomaxu d a b dw acq rel sc => Sys2Proof.Machine.execAmomaxu d a b dw acq rel sc s
  | .amocas d a b dw acq rel sc => Sys2Proof.Machine.execAmocas d a b dw acq rel sc s
  | .ldacq d a dw sc => Sys2Proof.Machine.execLdacq d a dw sc s
  | .strel a b dw sc => Sys2Proof.Machine.execStrel a b dw sc s
  | .fence ifetch eng sc pl ps ll ls => Sys2Proof.Machine.execFence ifetch eng sc pl ps ll ls s
  | .cinv a b => Sys2Proof.Machine.execCinv a b s
  | .cflush a b => Sys2Proof.Machine.execCflush a b s
  | .cclean a b => Sys2Proof.Machine.execCclean a b s
  | .czero a b => Sys2Proof.Machine.execCzero a b s
  | .cpfr a b => Sys2Proof.Machine.execCpfr a b s
  | .cpfw a b => Sys2Proof.Machine.execCpfw a b s
  | .iflush a b => Sys2Proof.Machine.execIflush a b s
  | .beq c a off => Sys2Proof.Machine.execBeq c a off s
  | .bne c a off => Sys2Proof.Machine.execBne c a off s
  | .blt c a off => Sys2Proof.Machine.execBlt c a off s
  | .bge c a off => Sys2Proof.Machine.execBge c a off s
  | .bltu c a off => Sys2Proof.Machine.execBltu c a off s
  | .bgeu c a off => Sys2Proof.Machine.execBgeu c a off s
  | .j off => Sys2Proof.Machine.execJ off s
  | .jal off => Sys2Proof.Machine.execJal off s
  | .jalr d a imm => Sys2Proof.Machine.execJalr d a imm s
  | .trap code => Sys2Proof.Machine.execTrap code s
  | .brk => Sys2Proof.Machine.execBrk s
  | .eret => Sys2Proof.Machine.execEret s
  | .wfi => Sys2Proof.Machine.execWfi s
  | .yield => Sys2Proof.Machine.execYield s
  | .tlbinv a b sc => Sys2Proof.Machine.execTlbinv a b sc s
  | .tlbsync => Sys2Proof.Machine.execTlbsync s
  | .mfs d num => Sys2Proof.Machine.execMfs d num s
  | .mts a num => Sys2Proof.Machine.execMts a num s
  | .mtsStatus a => Sys2Proof.Machine.execMtsStatus a s
  | .mtsVl a => Sys2Proof.Machine.execMtsVl a s
  | .mtsVtype a => Sys2Proof.Machine.execMtsVtype a s
  | .mtsVcap a => Sys2Proof.Machine.execMtsVcap a s
  | .mtsMember a => Sys2Proof.Machine.execMtsMember a s
  | .mtsTctl a => Sys2Proof.Machine.execMtsTctl a s
  | .mtsTstat a => Sys2Proof.Machine.execMtsTstat a s
  | .mtsCntc a => Sys2Proof.Machine.execMtsCntc a s
  | .mtsYctl a => Sys2Proof.Machine.execMtsYctl a s
  | .mtsSpcfg a => Sys2Proof.Machine.execMtsSpcfg a s
  | .gbar d a id sc comb => Sys2Proof.Machine.execGbar d a id sc comb s
  | .garrive d id sc => Sys2Proof.Machine.execGarrive d id sc s
  | .gwait a id sc => Sys2Proof.Machine.execGwait a id sc s
  | .chwait ch => Sys2Proof.Machine.execChwait ch s
  | .chrecv dq ch => Sys2Proof.Machine.execChrecv dq ch s
  | .chpost aq b => Sys2Proof.Machine.execChpost aq b s
  | .bcpost a id => Sys2Proof.Machine.execBcpost a id s
  | .bcwait id => Sys2Proof.Machine.execBcwait id s
  | .bcread d id => Sys2Proof.Machine.execBcread d id s
  | .bcclr id => Sys2Proof.Machine.execBcclr id s
  | .sendStrmCopy d a => Sys2Proof.Machine.execSendStrmCopy d a s
  | .sendStrmGather d a => Sys2Proof.Machine.execSendStrmGather d a s
  | .sendStrmScatter d a => Sys2Proof.Machine.execSendStrmScatter d a s
  | .sendStrmFill d a => Sys2Proof.Machine.execSendStrmFill d a s
  | .sendStrmUnz d a => Sys2Proof.Machine.execSendStrmUnz d a s
  | .sendStrmPlane d a => Sys2Proof.Machine.execSendStrmPlane d a s
  | .sendWeaveLoad d a => Sys2Proof.Machine.execSendWeaveLoad d a s
  | .sendWeaveRun d a => Sys2Proof.Machine.execSendWeaveRun d a s
  | .sendCollBmax d a b => Sys2Proof.Machine.execSendCollBmax d a b s
  | .sendCollIsum d a b => Sys2Proof.Machine.execSendCollIsum d a b s
  | .sendCollFsum d a b => Sys2Proof.Machine.execSendCollFsum d a b s
  | .sendCollBcast d a b => Sys2Proof.Machine.execSendCollBcast d a b s
  | .sendCollOr d a b => Sys2Proof.Machine.execSendCollOr d a b s
  | .sendTendCall d a b => Sys2Proof.Machine.execSendTendCall d a b s
  | .sendLnchGang d a => Sys2Proof.Machine.execSendLnchGang d a s
  | .cwait bL bS bC bT => Sys2Proof.Machine.execCwait bL bS bC bT s
  | .setvl d a es grp dead y => Sys2Proof.Machine.execSetvl d a es grp dead y s
  | .setvlA d a es grp dead y => Sys2Proof.Machine.execSetvlA d a es grp dead y s
  | .setvlmax d es grp dead y => Sys2Proof.Machine.execSetvlmax d es grp dead y s
  | .setvlmaxA d es grp dead y => Sys2Proof.Machine.execSetvlmaxA d es grp dead y s
  | .vadd d a b mk => Sys2Proof.Machine.execVadd d a b mk s
  | .vsub d a b mk => Sys2Proof.Machine.execVsub d a b mk s
  | .vmul d a b mk => Sys2Proof.Machine.execVmul d a b mk s
  | .vmulh d a b mk => Sys2Proof.Machine.execVmulh d a b mk s
  | .vmulhu d a b mk => Sys2Proof.Machine.execVmulhu d a b mk s
  | .vmin d a b mk => Sys2Proof.Machine.execVmin d a b mk s
  | .vmax d a b mk => Sys2Proof.Machine.execVmax d a b mk s
  | .vminu d a b mk => Sys2Proof.Machine.execVminu d a b mk s
  | .vmaxu d a b mk => Sys2Proof.Machine.execVmaxu d a b mk s
  | .vand d a b mk => Sys2Proof.Machine.execVand d a b mk s
  | .vor d a b mk => Sys2Proof.Machine.execVor d a b mk s
  | .vxor d a b mk => Sys2Proof.Machine.execVxor d a b mk s
  | .vshl d a b mk => Sys2Proof.Machine.execVshl d a b mk s
  | .vshr d a b mk => Sys2Proof.Machine.execVshr d a b mk s
  | .vsra d a b mk => Sys2Proof.Machine.execVsra d a b mk s
  | .vadds d a b mk => Sys2Proof.Machine.execVadds d a b mk s
  | .vaddsu d a b mk => Sys2Proof.Machine.execVaddsu d a b mk s
  | .vsubs d a b mk => Sys2Proof.Machine.execVsubs d a b mk s
  | .vsubsu d a b mk => Sys2Proof.Machine.execVsubsu d a b mk s
  | .vavg d a b mk => Sys2Proof.Machine.execVavg d a b mk s
  | .vabsd d a b mk => Sys2Proof.Machine.execVabsd d a b mk s
  | .vnarrow d a mk fr => Sys2Proof.Machine.execVnarrow d a mk fr s
  | .vaddVx d a b mk => Sys2Proof.Machine.execVaddVx d a b mk s
  | .vsubVx d a b mk => Sys2Proof.Machine.execVsubVx d a b mk s
  | .vmulVx d a b mk => Sys2Proof.Machine.execVmulVx d a b mk s
  | .vmulhVx d a b mk => Sys2Proof.Machine.execVmulhVx d a b mk s
  | .vmulhuVx d a b mk => Sys2Proof.Machine.execVmulhuVx d a b mk s
  | .vminVx d a b mk => Sys2Proof.Machine.execVminVx d a b mk s
  | .vmaxVx d a b mk => Sys2Proof.Machine.execVmaxVx d a b mk s
  | .vminuVx d a b mk => Sys2Proof.Machine.execVminuVx d a b mk s
  | .vmaxuVx d a b mk => Sys2Proof.Machine.execVmaxuVx d a b mk s
  | .vandVx d a b mk => Sys2Proof.Machine.execVandVx d a b mk s
  | .vorVx d a b mk => Sys2Proof.Machine.execVorVx d a b mk s
  | .vxorVx d a b mk => Sys2Proof.Machine.execVxorVx d a b mk s
  | .vshlVx d a b mk => Sys2Proof.Machine.execVshlVx d a b mk s
  | .vshrVx d a b mk => Sys2Proof.Machine.execVshrVx d a b mk s
  | .vsraVx d a b mk => Sys2Proof.Machine.execVsraVx d a b mk s
  | .vaddsVx d a b mk => Sys2Proof.Machine.execVaddsVx d a b mk s
  | .vaddsuVx d a b mk => Sys2Proof.Machine.execVaddsuVx d a b mk s
  | .vsubsVx d a b mk => Sys2Proof.Machine.execVsubsVx d a b mk s
  | .vsubsuVx d a b mk => Sys2Proof.Machine.execVsubsuVx d a b mk s
  | .vavgVx d a b mk => Sys2Proof.Machine.execVavgVx d a b mk s
  | .vabsdVx d a b mk => Sys2Proof.Machine.execVabsdVx d a b mk s
  | .vceq d a b mk => Sys2Proof.Machine.execVceq d a b mk s
  | .vcne d a b mk => Sys2Proof.Machine.execVcne d a b mk s
  | .vclt d a b mk => Sys2Proof.Machine.execVclt d a b mk s
  | .vcle d a b mk => Sys2Proof.Machine.execVcle d a b mk s
  | .vcltu d a b mk => Sys2Proof.Machine.execVcltu d a b mk s
  | .vcleu d a b mk => Sys2Proof.Machine.execVcleu d a b mk s
  | .vmerge d a b mk => Sys2Proof.Machine.execVmerge d a b mk s
  | .vfceq d a b mk fr => Sys2Proof.Machine.execVfceq d a b mk fr s
  | .vfclt d a b mk fr => Sys2Proof.Machine.execVfclt d a b mk fr s
  | .vfcle d a b mk fr => Sys2Proof.Machine.execVfcle d a b mk fr s
  | .vfcun d a b mk fr => Sys2Proof.Machine.execVfcun d a b mk fr s
  | .vfclass d a mk fr => Sys2Proof.Machine.execVfclass d a mk fr s
  | .vfadd d a b mk fr => Sys2Proof.Machine.execVfadd d a b mk fr s
  | .vfsub d a b mk fr => Sys2Proof.Machine.execVfsub d a b mk fr s
  | .vfmul d a b mk fr => Sys2Proof.Machine.execVfmul d a b mk fr s
  | .vfdiv d a b mk fr => Sys2Proof.Machine.execVfdiv d a b mk fr s
  | .vfsqrt d a mk fr => Sys2Proof.Machine.execVfsqrt d a mk fr s
  | .vfmin d a b mk fr => Sys2Proof.Machine.execVfmin d a b mk fr s
  | .vfmax d a b mk fr => Sys2Proof.Machine.execVfmax d a b mk fr s
  | .vfrcp d a mk fr => Sys2Proof.Machine.execVfrcp d a mk fr s
  | .vfrsq d a mk fr => Sys2Proof.Machine.execVfrsq d a mk fr s
  | .vfexp2 d a mk fr => Sys2Proof.Machine.execVfexp2 d a mk fr s
  | .vflog2 d a mk fr => Sys2Proof.Machine.execVflog2 d a mk fr s
  | .vfcvt d a b mk fr => Sys2Proof.Machine.execVfcvt d a b mk fr s
  | .vfnf d a mk fr => Sys2Proof.Machine.execVfnf d a mk fr s
  | .vfabs d a mk fr => Sys2Proof.Machine.execVfabs d a mk fr s
  | .vfneg d a mk fr => Sys2Proof.Machine.execVfneg d a mk fr s
  | .vfscale d a b mk fr => Sys2Proof.Machine.execVfscale d a b mk fr s
  | .vfaddVx d a b mk fr => Sys2Proof.Machine.execVfaddVx d a b mk fr s
  | .vfsubVx d a b mk fr => Sys2Proof.Machine.execVfsubVx d a b mk fr s
  | .vfmulVx d a b mk fr => Sys2Proof.Machine.execVfmulVx d a b mk fr s
  | .vfdivVx d a b mk fr => Sys2Proof.Machine.execVfdivVx d a b mk fr s
  | .vfsqrtVx d a b mk fr => Sys2Proof.Machine.execVfsqrtVx d a b mk fr s
  | .vfminVx d a b mk fr => Sys2Proof.Machine.execVfminVx d a b mk fr s
  | .vfmaxVx d a b mk fr => Sys2Proof.Machine.execVfmaxVx d a b mk fr s
  | .vfscaleVx d a b mk fr => Sys2Proof.Machine.execVfscaleVx d a b mk fr s
  | .vfma d a b c mk fr => Sys2Proof.Machine.execVfma d a b c mk fr s
  | .vfnma d a b c mk fr => Sys2Proof.Machine.execVfnma d a b c mk fr s
  | .vima d a b c mk fr => Sys2Proof.Machine.execVima d a b c mk fr s
  | .vplstep d a b c mk fr => Sys2Proof.Machine.execVplstep d a b c mk fr s
  | .vredsum d a b mk => Sys2Proof.Machine.execVredsum d a b mk s
  | .vredmax d a b mk => Sys2Proof.Machine.execVredmax d a b mk s
  | .vredmin d a b mk => Sys2Proof.Machine.execVredmin d a b mk s
  | .vredmaxu d a b mk => Sys2Proof.Machine.execVredmaxu d a b mk s
  | .vredminu d a b mk => Sys2Proof.Machine.execVredminu d a b mk s
  | .vredand d a b mk => Sys2Proof.Machine.execVredand d a b mk s
  | .vredor d a b mk => Sys2Proof.Machine.execVredor d a b mk s
  | .vredxor d a b mk => Sys2Proof.Machine.execVredxor d a b mk s
  | .vfredsum d a b mk fr => Sys2Proof.Machine.execVfredsum d a b mk fr s
  | .vfredmax d a b mk fr => Sys2Proof.Machine.execVfredmax d a b mk fr s
  | .vfredmin d a b mk fr => Sys2Proof.Machine.execVfredmin d a b mk fr s
  | .vslideup d a b mk => Sys2Proof.Machine.execVslideup d a b mk s
  | .vslidedn d a b mk => Sys2Proof.Machine.execVslidedn d a b mk s
  | .vgatherv d a b mk => Sys2Proof.Machine.execVgatherv d a b mk s
  | .vcompress d a mk => Sys2Proof.Machine.execVcompress d a mk s
  | .vexpand d a mk => Sys2Proof.Machine.execVexpand d a mk s
  | .vbcast d a mk => Sys2Proof.Machine.execVbcast d a mk s
  | .vext d a b => Sys2Proof.Machine.execVext d a b s
  | .vins d a b => Sys2Proof.Machine.execVins d a b s
  | .vid d mk => Sys2Proof.Machine.execVid d mk s
  | .viota d a mk => Sys2Proof.Machine.execViota d a mk s
  | .vzip d a b mk => Sys2Proof.Machine.execVzip d a b mk s
  | .vunzip d a b mk => Sys2Proof.Machine.execVunzip d a b mk s
  | .vmov d a mk => Sys2Proof.Machine.execVmov d a mk s
  | .vunpk d a mk fr => Sys2Proof.Machine.execVunpk d a mk fr s
  | .vrand d mk fr => Sys2Proof.Machine.execVrand d mk fr s
  | .vplhead d a mk fr => Sys2Proof.Machine.execVplhead d a mk fr s
  | .vplresc d a b mk fr => Sys2Proof.Machine.execVplresc d a b mk fr s
  | .mand d a b => Sys2Proof.Machine.execMand d a b s
  | .mor d a b => Sys2Proof.Machine.execMor d a b s
  | .mxor d a b => Sys2Proof.Machine.execMxor d a b s
  | .mandn d a b => Sys2Proof.Machine.execMandn d a b s
  | .mnot d a => Sys2Proof.Machine.execMnot d a s
  | .mpopc d a mk => Sys2Proof.Machine.execMpopc d a mk s
  | .mfirst d a mk => Sys2Proof.Machine.execMfirst d a mk s
  | .msbf d a mk => Sys2Proof.Machine.execMsbf d a mk s
  | .msif d a mk => Sys2Proof.Machine.execMsif d a mk s
  | .mset d => Sys2Proof.Machine.execMset d s
  | .mclr d => Sys2Proof.Machine.execMclr d s
  | .mmovg d a => Sys2Proof.Machine.execMmovg d a s
  | .mmovm d a => Sys2Proof.Machine.execMmovm d a s
  | .vld d a mk => Sys2Proof.Machine.execVld d a mk s
  | .vlds d a b mk => Sys2Proof.Machine.execVlds d a b mk s
  | .vldx d a b mk iw => Sys2Proof.Machine.execVldx d a b mk iw s
  | .vldseg d a mk nf mw => Sys2Proof.Machine.execVldseg d a mk nf mw s
  | .vldff d a mk => Sys2Proof.Machine.execVldff d a mk s
  | .vldpl d a b mk p kk rnd => Sys2Proof.Machine.execVldpl d a b mk p kk rnd s
  | .vldw d a cnt => Sys2Proof.Machine.execVldw d a cnt s
  | .vlde d a mk rep => Sys2Proof.Machine.execVlde d a mk rep s
  | .vst d a mk => Sys2Proof.Machine.execVst d a mk s
  | .vsts d a b mk => Sys2Proof.Machine.execVsts d a b mk s
  | .vstx d a b mk iw => Sys2Proof.Machine.execVstx d a b mk iw s
  | .vstseg d a mk nf mw => Sys2Proof.Machine.execVstseg d a mk nf mw s
  | .vstpl d a b mk p kk => Sys2Proof.Machine.execVstpl d a b mk p kk s
  | .vstw d a cnt => Sys2Proof.Machine.execVstw d a cnt s
  | .tmop ac qa qb mr mc fr zero neg => Sys2Proof.Machine.execTmop ac qa qb mr mc fr zero neg s
  | .tmops ac qa qb mr mc fr zero neg => Sys2Proof.Machine.execTmops ac qa qb mr mc fr zero neg s
  | .tzero ac clrf => Sys2Proof.Machine.execTzero ac clrf s
  | .tldq q a b fr sb => Sys2Proof.Machine.execTldq q a b fr sb s
  | .tldqt q a b fr sb => Sys2Proof.Machine.execTldqt q a b fr sb s
  | .tsta ac a b fr zero => Sys2Proof.Machine.execTsta ac a b fr zero s
  | .tslv ac v ix n col => Sys2Proof.Machine.execTslv ac v ix n col s
  | .tvsl ac v ix n col => Sys2Proof.Machine.execTvsl ac v ix n col s
  | .tsave t a => Sys2Proof.Machine.execTsave t a s
  | .trstr t a => Sys2Proof.Machine.execTrstr t a s
  | .tmcast q a b fr sc => Sys2Proof.Machine.execTmcast q a b fr sc s
  | .interruptTake c stop => Sys2Proof.Machine.execInterruptTake c stop s
  | .trappingDone c => Sys2Proof.Machine.execTrappingDone c s
  | .trapLoopReset c => Sys2Proof.Machine.execTrapLoopReset c s
  | .storePerform c => Sys2Proof.Machine.execStorePerform c s
  | .storeAck c => Sys2Proof.Machine.execStoreAck c s
  | .loadMissFill c => Sys2Proof.Machine.execLoadMissFill c s
  | .atomicComplete c => Sys2Proof.Machine.execAtomicComplete c s
  | .vectorExecute k => Sys2Proof.Machine.execVectorExecute k s
  | .vloadDataReturn k => Sys2Proof.Machine.execVloadDataReturn k s
  | .launchVclearDone c => Sys2Proof.Machine.execLaunchVclearDone c s
  | .tileExecute k => Sys2Proof.Machine.execTileExecute k s
  | .tileComplete k => Sys2Proof.Machine.execTileComplete k s
  | .strmCopy k => Sys2Proof.Machine.execStrmCopy k s
  | .strmGather k => Sys2Proof.Machine.execStrmGather k s
  | .strmScatter k => Sys2Proof.Machine.execStrmScatter k s
  | .strmFill k => Sys2Proof.Machine.execStrmFill k s
  | .strmPlane k => Sys2Proof.Machine.execStrmPlane k s
  | .strmUnzForward k => Sys2Proof.Machine.execStrmUnzForward k s
  | .strmUnz q => Sys2Proof.Machine.execStrmUnz q s
  | .weaveLoad q => Sys2Proof.Machine.execWeaveLoad q s
  | .weaveRun q => Sys2Proof.Machine.execWeaveRun q s
  | .weaveRunStart q => Sys2Proof.Machine.execWeaveRunStart q s
  | .weaveGatherTimeout q => Sys2Proof.Machine.execWeaveGatherTimeout q s
  | .collBmax r => Sys2Proof.Machine.execCollBmax r s
  | .collIsum r => Sys2Proof.Machine.execCollIsum r s
  | .collFsum r => Sys2Proof.Machine.execCollFsum r s
  | .collBcast r => Sys2Proof.Machine.execCollBcast r s
  | .collOr r => Sys2Proof.Machine.execCollOr r s
  | .collInstanceStart n => Sys2Proof.Machine.execCollInstanceStart n s
  | .groupDeadlineExpire n => Sys2Proof.Machine.execGroupDeadlineExpire n s
  | .tendStorageRead r => Sys2Proof.Machine.execTendStorageRead r s
  | .tendStorageWrite r => Sys2Proof.Machine.execTendStorageWrite r s
  | .tendStorageComplete r n nvme data => Sys2Proof.Machine.execTendStorageComplete r n nvme data s
  | .tendMap r => Sys2Proof.Machine.execTendMap r s
  | .tendUnmap r => Sys2Proof.Machine.execTendUnmap r s
  | .tendPost r => Sys2Proof.Machine.execTendPost r s
  | .tendTimer r => Sys2Proof.Machine.execTendTimer r s
  | .tendDoorbell r => Sys2Proof.Machine.execTendDoorbell r s
  | .tendUnlistedService r => Sys2Proof.Machine.execTendUnlistedService r s
  | .tenderTimerExpire obj => Sys2Proof.Machine.execTenderTimerExpire obj s
  | .lnchGang r => Sys2Proof.Machine.execLnchGang r s
  | .engineComplete e n => Sys2Proof.Machine.execEngineComplete e n s
  | .heldReplyRetry e => Sys2Proof.Machine.execHeldReplyRetry e s
  | .cReplyArrival k => Sys2Proof.Machine.execCReplyArrival k s
  | .bcArrival k => Sys2Proof.Machine.execBcArrival k s
  | .channelArrival k => Sys2Proof.Machine.execChannelArrival k s
  | .chpostAccept c => Sys2Proof.Machine.execChpostAccept c s
  | .barrierRelease c => Sys2Proof.Machine.execBarrierRelease c s
  | .barrierTimeout c => Sys2Proof.Machine.execBarrierTimeout c s
  | .yieldDeadlineExpire c => Sys2Proof.Machine.execYieldDeadlineExpire c s
  | .reservationExpire c => Sys2Proof.Machine.execReservationExpire c s
  | .reservationHoldEnd c => Sys2Proof.Machine.execReservationHoldEnd c s
  | .dirReadMiss c => Sys2Proof.Machine.execDirReadMiss c s
  | .dirOwnershipRequest c => Sys2Proof.Machine.execDirOwnershipRequest c s
  | .probeAnswer line => Sys2Proof.Machine.execProbeAnswer line s
  | .invalidationReceive k line => Sys2Proof.Machine.execInvalidationReceive k line s
  | .invalidationAck line => Sys2Proof.Machine.execInvalidationAck line s
  | .cacheEviction k line => Sys2Proof.Machine.execCacheEviction k line s
  | .evictionNotice k line => Sys2Proof.Machine.execEvictionNotice k line s
  | .regionThrottle r amps => Sys2Proof.Machine.execRegionThrottle r amps s
  | .tempHot d deg => Sys2Proof.Machine.execTempHot d deg s
  | .tempTrip d deg => Sys2Proof.Machine.execTempTrip d deg s
  | .tempRecover d deg => Sys2Proof.Machine.execTempRecover d deg s
  | .regionReset r => Sys2Proof.Machine.execRegionReset r s
  | .regionEventRetry r => Sys2Proof.Machine.execRegionEventRetry r s
  | .coreFailure k => Sys2Proof.Machine.execCoreFailure k s
  | .sliceFailure k => Sys2Proof.Machine.execSliceFailure k s
  | .pseudoChannelFailure r ch => Sys2Proof.Machine.execPseudoChannelFailure r ch s
  | .boundaryFailure b => Sys2Proof.Machine.execBoundaryFailure b s
  | .fabricPortFailure r => Sys2Proof.Machine.execFabricPortFailure r s
  | .fanovSramError d => Sys2Proof.Machine.execFanovSramError d s
  | .fanovRestartDone d => Sys2Proof.Machine.execFanovRestartDone d s
  | .modulePowerOn verified => Sys2Proof.Machine.execModulePowerOn verified s
  | .mgmtAssign rs => Sys2Proof.Machine.execMgmtAssign rs s
  | .mgmtResize island rs => Sys2Proof.Machine.execMgmtResize island rs s
  | .mgmtWindowGrant r n rw island base size link => Sys2Proof.Machine.execMgmtWindowGrant r n rw island base size link s
  | .mgmtWindowWithdraw r n => Sys2Proof.Machine.execMgmtWindowWithdraw r n s
  | .mgmtReset r => Sys2Proof.Machine.execMgmtReset r s
  | .mgmtFenceCore k => Sys2Proof.Machine.execMgmtFenceCore k s
  | .mgmtAttest nonce => Sys2Proof.Machine.execMgmtAttest nonce s
  | .mstatusWrite x => Sys2Proof.Machine.execMstatusWrite x s
  | .fabricInbound r req => Sys2Proof.Machine.execFabricInbound r req s
  | .illegalInstruction c => Sys2Proof.Machine.execIllegalInstruction c s
  | .fetchPageFault c => Sys2Proof.Machine.execFetchPageFault c s
  | .uncorrectableError site => Sys2Proof.Machine.execUncorrectableError site s
  | .hostEndpointReset ep => Sys2Proof.Machine.execHostEndpointReset ep s
  | .regionThrottleRelease r amps => Sys2Proof.Machine.execRegionThrottleRelease r amps s
  | .fabricCollectiveArrival m => Sys2Proof.Machine.execFabricCollectiveArrival m s
  | .mgmtObjectAssign n o => Sys2Proof.Machine.execMgmtObjectAssign n o s
  | .endpointIdAssign r ep => Sys2Proof.Machine.execEndpointIdAssign r ep s

end Sys2Proof.Machine
end

