-- ==== Sys2Proof/Machine/Names.lean ====
section
/-! DEFINITION. The general registers that an instruction names, for the interlock on a scalar result of a vector instruction
(R97). -/

namespace Sys2Proof.Machine


/-- The general registers that an encoded instruction reads or writes; none for the step of another agent. -/
def gNames (i : Instr) : Option (List GReg) :=
  match i with
  | .add d a b | .sub d a b | .and d a b | .or d a b | .xor d a b | .andn d a b | .sll d a b | .srl d a b | .sra d a b
  | .rol d a b | .ror d a b | .slt d a b | .sltu d a b | .min d a b | .max d a b | .minu d a b | .maxu d a b | .mul d a b
  | .mulh d a b | .mulhu d a b | .div d a b | .divu d a b | .rem d a b | .remu d a b | .movz d a b | .movn d a b | .addw d a b
  | .subw d a b | .sendCollBmax d a b | .sendCollIsum d a b | .sendCollFsum d a b | .sendCollBcast d a b | .sendCollOr d a b
  | .sendTendCall d a b => some [d, a, b]
  | .clz d a | .ctz d a | .popc d a | .bswap d a | .sendStrmCopy d a | .sendStrmGather d a | .sendStrmScatter d a
  | .sendStrmFill d a | .sendStrmUnz d a | .sendStrmPlane d a | .sendWeaveLoad d a | .sendWeaveRun d a | .sendLnchGang d a => some [d, a]
  | .addi d a _ | .andi d a _ | .ori d a _ | .xori d a _ | .slti d a _ | .sltiu d a _ | .slli d a _ | .srli d a _ | .srai d a _
  | .rori d a _ | .shori d a _ | .fclass d a _ | .fneg d a _ | .fabs d a _ | .lb d a _ | .lh d a _ | .lw d a _ | .ld d a _
  | .lbu d a _ | .lhu d a _ | .lwu d a _ | .jalr d a _ => some [d, a]
  | .lih d _ | .addpc d _ | .mfs d _ | .bcread d _ | .mmovm d _ => some [d]
  | .fadd d a b _ _ | .fsub d a b _ _ | .fmul d a b _ _ | .fdiv d a b _ _ => some [d, a, b]
  | .fsqrt d a _ _ | .fcvti d a _ _ | .fcvtf d a _ _ | .ldacq d a _ _ => some [d, a]
  | .fmin d a b _ | .fmax d a b _ | .fceq d a b _ | .fclt d a b _ | .fcle d a b _ => some [d, a, b]
  | .fcvtff d a _ _ _ | .lr d a _ _ _ | .gbar d a _ _ _ => some [d, a]
  | .fma d a b c _ _ _ _ => some [d, a, b, c]
  | .sb c a _ | .sh c a _ | .sw c a _ | .sd c a _ | .beq c a _ | .bne c a _ | .blt c a _ | .bge c a _ | .bltu c a _
  | .bgeu c a _ => some [c, a]
  | .sc d a b _ _ _ => some [d, a, b]
  | .amoswap d a b _ _ _ _ | .amoadd d a b _ _ _ _ | .amoand d a b _ _ _ _ | .amoor d a b _ _ _ _ | .amoxor d a b _ _ _ _
  | .amomin d a b _ _ _ _ | .amomax d a b _ _ _ _ | .amominu d a b _ _ _ _ | .amomaxu d a b _ _ _ _ | .amocas d a b _ _ _ _ => some [d, a, b]
  | .strel a b _ _ => some [a, b]
  | .fence .. | .j .. | .trap .. | .brk | .eret | .wfi | .yield | .tlbsync | .chwait .. | .bcwait .. | .bcclr .. | .cwait ..
  | .vadd .. | .vsub .. | .vmul .. | .vmulh .. | .vmulhu .. | .vmin .. | .vmax .. | .vminu .. | .vmaxu .. | .vand .. | .vor ..
  | .vxor .. | .vshl .. | .vshr .. | .vsra .. | .vadds .. | .vaddsu .. | .vsubs .. | .vsubsu .. | .vavg .. | .vabsd ..
  | .vceq .. | .vcne .. | .vclt .. | .vcle .. | .vcltu .. | .vcleu .. | .vmerge .. | .vredsum .. | .vredmax .. | .vredmin ..
  | .vredmaxu .. | .vredminu .. | .vredand .. | .vredor .. | .vredxor .. | .vgatherv .. | .vcompress .. | .vexpand .. | .vid ..
  | .viota .. | .vzip .. | .vunzip .. | .vmov .. | .mand .. | .mor .. | .mxor .. | .mandn .. | .mnot .. | .msbf .. | .msif ..
  | .mset .. | .mclr .. | .tzero .. => some []
  | .cinv a b | .cflush a b | .cclean a b | .czero a b | .cpfr a b | .cpfw a b | .iflush a b => some [a, b]
  | .jal _ => some [1]
  | .tlbinv a b _ => some [a, b]
  | .mts a _ | .bcpost a _ => some [a]
  | .mtsStatus a | .mtsVl a | .mtsVtype a | .mtsVcap a | .mtsMember a | .mtsTctl a | .mtsTstat a | .mtsCntc a | .mtsYctl a
  | .mtsSpcfg a => some [a]
  | .garrive d _ _ | .mpopc d _ _ | .mfirst d _ _ => some [d]
  | .gwait a _ _ => some [a]
  | .chrecv dq _ => some [quadReg dq 0, quadReg dq 1, quadReg dq 2, quadReg dq 3]
  | .chpost aq b => some [quadReg aq 0, quadReg aq 1, quadReg aq 2, quadReg aq 3, b]
  | .setvl d a _ _ _ _ | .setvlA d a _ _ _ _ => some [d, a]
  | .setvlmax d _ _ _ _ | .setvlmaxA d _ _ _ _ => some [d]
  | .vnarrow _ _ _ fr | .vfclass _ _ _ fr | .vfsqrt _ _ _ fr | .vfrcp _ _ _ fr | .vfrsq _ _ _ fr | .vfexp2 _ _ _ fr
  | .vflog2 _ _ _ fr | .vfnf _ _ _ fr | .vfabs _ _ _ fr | .vfneg _ _ _ fr | .vunpk _ _ _ fr | .vplhead _ _ _ fr => some [fmtReg fr]
  | .vaddVx _ _ b _ | .vsubVx _ _ b _ | .vmulVx _ _ b _ | .vmulhVx _ _ b _ | .vmulhuVx _ _ b _ | .vminVx _ _ b _
  | .vmaxVx _ _ b _ | .vminuVx _ _ b _ | .vmaxuVx _ _ b _ | .vandVx _ _ b _ | .vorVx _ _ b _ | .vxorVx _ _ b _
  | .vshlVx _ _ b _ | .vshrVx _ _ b _ | .vsraVx _ _ b _ | .vaddsVx _ _ b _ | .vaddsuVx _ _ b _ | .vsubsVx _ _ b _
  | .vsubsuVx _ _ b _ | .vavgVx _ _ b _ | .vabsdVx _ _ b _ | .vslideup _ _ b _ | .vslidedn _ _ b _ => some [b]
  | .vfceq _ _ _ _ fr | .vfclt _ _ _ _ fr | .vfcle _ _ _ _ fr | .vfcun _ _ _ _ fr | .vfadd _ _ _ _ fr | .vfsub _ _ _ _ fr
  | .vfmul _ _ _ _ fr | .vfdiv _ _ _ _ fr | .vfmin _ _ _ _ fr | .vfmax _ _ _ _ fr | .vfcvt _ _ _ _ fr | .vfscale _ _ _ _ fr
  | .vfredsum _ _ _ _ fr | .vfredmax _ _ _ _ fr | .vfredmin _ _ _ _ fr | .vplresc _ _ _ _ fr => some [fmtReg fr]
  | .vfaddVx _ _ b _ fr | .vfsubVx _ _ b _ fr | .vfmulVx _ _ b _ fr | .vfdivVx _ _ b _ fr | .vfsqrtVx _ _ b _ fr
  | .vfminVx _ _ b _ fr | .vfmaxVx _ _ b _ fr | .vfscaleVx _ _ b _ fr => some [b, fmtReg fr]
  | .vfma _ _ _ _ _ fr | .vfnma _ _ _ _ _ fr | .vima _ _ _ _ _ fr | .vplstep _ _ _ _ _ fr => some [fmtReg fr]
  | .vbcast _ a _ | .vld _ a _ | .vldff _ a _ | .vldw _ a _ | .vst _ a _ | .vstw _ a _ => some [a]
  | .vext d _ b => some [d, b]
  | .vins _ a b => some [a, b]
  | .vrand _ _ fr => some [fmtReg fr]
  | .mmovg _ a | .tsave _ a | .trstr _ a => some [a]
  | .vlds _ a b _ | .vsts _ a b _ => some [a, b]
  | .vldx _ a _ _ _ | .vldseg _ a _ _ _ | .vstx _ a _ _ _ | .vstseg _ a _ _ _ => some [a]
  | .vldpl _ a b _ _ _ _ => some [a, b]
  | .vlde _ a _ _ => some [a]
  | .vstpl _ a b _ _ _ => some [a, b]
  | .tmop _ _ _ _ _ fr _ _ | .tmops _ _ _ _ _ fr _ _ => some [fmtReg fr]
  | .tldq _ a b fr _ | .tldqt _ a b fr _ | .tsta _ a b fr _ | .tmcast _ a b fr _ => some [a, b, fmtReg fr]
  | .tslv _ _ i _ _ | .tvsl _ _ i _ _ => some [i]
  | .interruptTake .. | .trappingDone .. | .trapLoopReset .. | .storePerform .. | .storeAck .. | .loadMissFill ..
  | .atomicComplete .. | .vectorExecute .. | .vloadDataReturn .. | .launchVclearDone .. | .tileExecute .. | .tileComplete ..
  | .strmCopy .. | .strmGather .. | .strmScatter .. | .strmFill .. | .strmPlane .. | .strmUnzForward .. | .strmUnz ..
  | .weaveLoad .. | .weaveRun .. | .weaveRunStart .. | .weaveGatherTimeout .. | .collBmax .. | .collIsum .. | .collFsum ..
  | .collBcast .. | .collOr .. | .collInstanceStart .. | .groupDeadlineExpire .. | .tendStorageRead .. | .tendStorageWrite ..
  | .tendStorageComplete .. | .tendMap .. | .tendUnmap .. | .tendPost .. | .tendTimer .. | .tendDoorbell ..
  | .tendUnlistedService .. | .tenderTimerExpire .. | .lnchGang .. | .engineComplete .. | .heldReplyRetry ..
  | .cReplyArrival .. | .bcArrival .. | .channelArrival .. | .chpostAccept .. | .barrierRelease .. | .barrierTimeout ..
  | .yieldDeadlineExpire .. | .reservationExpire .. | .reservationHoldEnd .. | .dirReadMiss .. | .dirOwnershipRequest ..
  | .probeAnswer .. | .invalidationReceive .. | .invalidationAck .. | .cacheEviction .. | .evictionNotice ..
  | .regionThrottle .. | .tempHot .. | .tempTrip .. | .tempRecover .. | .regionReset .. | .regionEventRetry ..
  | .coreFailure .. | .sliceFailure .. | .pseudoChannelFailure .. | .boundaryFailure .. | .fabricPortFailure ..
  | .fanovSramError .. | .fanovRestartDone .. | .modulePowerOn .. | .mgmtAssign .. | .mgmtResize .. | .mgmtWindowGrant ..
  | .mgmtWindowWithdraw .. | .mgmtReset .. | .mgmtFenceCore .. | .mgmtAttest .. | .mstatusWrite .. | .fabricInbound ..
  | .illegalInstruction .. | .fetchPageFault .. | .uncorrectableError .. | .hostEndpointReset .. | .regionThrottleRelease ..
  | .fabricCollectiveArrival .. | .mgmtObjectAssign .. | .endpointIdAssign .. => none

end Sys2Proof.Machine
end

