-- ==== Sys2Proof/Machine/Issue.lean ====
section
/-! DEFINITION. What a step does around exec: the passing of cycles (R18, R376, R377), the end of waits (R91, R96, R97), the
choice of a context (R95), the issue of its instruction (R94, R97, R135, R250), and the steps of other agents that may come
next. Definitions that build an instruction are noncomputable only because Lean compiles no code for an inductive type of that
many constructors; they reduce like any other. -/

namespace Sys2Proof.Machine

/-! Cycles. -/

/-- A count of an event under a mode that may differ from the present one (R377). -/
def Ctx.countAs (mode : Bool) (ev n : Nat) (c : Ctx) : Ctx :=
  { c with pmcnt := (({ c with status := { c.status with mode := mode } } : Ctx).count ev n).pmcnt }
/-- n cycles of a context (R377), of which it was READY without a slot in m, with issue gated in all or none of them. -/
def Ctx.cyclesPass (n m : Nat) (gated : Bool) (c : Ctx) : Ctx :=
  let c := match c.st with
    | .ready => ({ c with waited := c.waited + m } : Ctx).count 0x02 m
    | .waitMiss => c.count 0x03 n
    | .waitUnit => c.count 0x04 n
    | .parked => c.count 0x05 n
    | _ => c
  if gated then c.count 0x0E n else c
/-- n cycles pass (R18, R244, R376): TIME runs, and RGATE where issue is gated, which holds CYCLE back. Cores from `turn`
on have had no slot in the first of them. -/
def State.tick (s : State) (n : Nat) : State :=
  let gated := fun (k : Nat) => (s.region (regionOfCore k)).throttled
  { s with
    cycles := s.cycles + n
    turn := 0
    ctxs := mapVals Ctx.reset (fun c x => x.cyclesPass n (if s.turn ≤ coreOf c then n else n - 1) (gated (coreOf c))) s.ctxs
    regions := mapVals Region.reset (fun _ r => if r.throttled then { r with gated := r.gated + BitVec.ofNat 64 n } else r) s.regions }

/-! The end of waits. -/

/-- The general registers that vector instructions of context c have still to write (R97). -/
def State.pendingG (s : State) (c : Nat) : List GReg :=
  (s.vqOf c).filterMap (fun e => match e.op with
    | .ext d _ => some d
    | .mpopc d _ => some d
    | .mfirst d _ => some d
    | .mmovm d _ => some d
    | _ => none)
/-- The instruction of a fetched word, where it is one (R55). -/
noncomputable def decodeWord (w : Nat) : Option Instr :=
  match decode (BitVec.ofNat 32 w) with
  | .ok i => some i
  | .error _ => none

/-- The identifier of a context, a core, a region, a quad. -/
def ctxId (c : Nat) : CtxId := Fin.ofNat 4096 c
def coreId (k : Nat) : CoreId := Fin.ofNat 1024 k
def regionId (r : Nat) : RegionId := Fin.ofNat 32 r
def quadNo (q : Nat) : QuadId := Fin.ofNat 256 q

/-- What an instruction answers, unless a vector instruction has a scalar result of its still to write (R97). -/
def issueInstr (i : Instr) (s : State) : Out :=
  if (gNames i).any (fun l => l.any (fun g => (s.pendingG s.cur).contains g)) then .next (s.hold .waitReg .gReg) else exec i s
/-- The instruction at the PC of context c: its own effect, or the trap of its fetch (R55, R135). -/
noncomputable def fetchIssue (c : Nat) (s : State) : Out :=
  match s.fetch c with
  | (_, .error _) => exec (.fetchPageFault (ctxId c)) s
  | (t, .ok w) =>
    match decodeWord w with
    | none => exec (.illegalInstruction (ctxId c)) s
    | some i => issueInstr i { t with cur := c }
/-- Whether what a context in WAIT-REG or WAIT-UNIT waits for is still so (R91). Where a wait depends on what
the instruction names, the instruction itself says whether, issued now, it would wait for the same. -/
noncomputable def State.stillWaits (s : State) (c : Nat) : WaitOn → Bool
  | .none | .again => false
  | .vBehind => (s.vqOf c).any (fun e => !e.last)
  | .vqFull => decide (4 ≤ (s.core (coreOf c)).vq.length)
  | .tqFull => decide (8 ≤ (s.core (coreOf c)).tq.length)
  | .sbFull => decide (8 ≤ (s.ctx c).sb.length)
  | .vecDone => !(s.vqOf c).isEmpty
  | .vclear => (s.ctx c).vclear
  | .tqEmpty => !(s.core (coreOf c)).tq.isEmpty
  | .pins => s.pinsLeft c
  | .post _ _ => true
  | w => (match fetchIssue c s with
    | .next t => decide ((t.ctx c).wait = w)
    | _ => false)

/-- The end of a wait makes a context READY (R91, R96, R251, R365). A context that has yielded counts as the most recently issued of all
classes when it wakes, where R96 says so of its own class (DESIGN CHOICE, assumption 87). A WFI that a pending interrupt ends goes on either to the interrupt or,
where its next instruction has an early trap, to that (R250, R251; assumption 85). -/
noncomputable def State.endWait (s : State) (c : Nat) : State :=
  let x := s.ctx c
  let ready := fun (f : Ctx → Ctx) => s.modCtx c (fun y => f { y with st := .ready, wait := .none, park := .none })
  match x.st with
  | .waitReg | .waitUnit => if s.stillWaits c x.wait then s else ready id
  | .parked =>
    (match x.park with
    | .cwait bl bs bc bt => if cwaitOk x bl bs bc bt then ready (fun y => { y with wait := .again }) else s
    | .wfi => if s.wakes c then s.modCtx c Ctx.done else s
    | _ => s)
  | .yielded =>
    if x.yieldedAt + 1 < s.cycles then
      { (ready (fun y => { y with lastIssue := s.issueSeq + 1 })) with issueSeq := s.issueSeq + 1 }
    else s
  | _ => s
/-- A READY context leaves READY behind a vector instruction that may still trap (R94), or where a pending cause stops it from issuing
before its vector instructions have left the unit (R112). -/
def State.holdReady (s : State) (c : Nat) : State :=
  let held := fun (w : WaitOn) => s.modCtx c (fun y => { y with st := .waitUnit, wait := w, waited := 0 })
  if (s.ctx c).st ≠ .ready then s
  else if (s.vqOf c).any (fun e => !e.last) then held .vBehind
  else if s.stopsIssue c then held .vecDone
  else s
/-- A context at its core's slot. -/
noncomputable def State.wake (s : State) (c : Nat) : State := (s.endWait c).holdReady c
/-- The four contexts of a core. -/
noncomputable def State.wakeCore (s : State) (k : Nat) : State := (ctxsOfCore k).foldl State.wake s

/-! The choice of a context (R95). -/

/-- The READY contexts of a core. -/
def State.readyCtxs (s : State) (k : Nat) : List Nat := (ctxsOfCore k).filter (fun c => decide ((s.ctx c).st = .ready))
/-- The one of a list that issued least recently, the lowest number first among equals. -/
def State.oldest (s : State) : List Nat → Option Nat
  | [] => none
  | c :: t => match State.oldest s t with
    | none => some c
    | some d => if (s.ctx c).lastIssue ≤ (s.ctx d).lastIssue then some c else some d
/-- Whether a context overrides the priorities. -/
def State.overrides (s : State) (rs : List Nat) (c : Nat) : Bool :=
  let x := s.ctx c
  x.prio != 0 && decide (3 * (rs.filter (fun d => decide (x.prio ≤ (s.ctx d).prio))).length ≤ x.waited)
/-- The context that a core's slot goes to. -/
def State.select (s : State) (k : Nat) : Option Nat :=
  let rs := s.readyCtxs k
  match s.oldest (rs.filter (s.overrides rs)) with
  | some c => some c
  | none => s.oldest (rs.filter (fun c => rs.all (fun d => decide ((s.ctx d).prio ≤ (s.ctx c).prio))))

/-- The slot of a core accounted to its contexts: the chosen one has issued, the other READY ones have waited. -/
def State.charge (s : State) (k : Nat) (chosen : Option Nat) : State :=
  let s := (s.readyCtxs k).foldl (fun t c =>
    if chosen = some c then t.modCtx c (fun x => { x with waited := 0, lastIssue := s.issueSeq + 1 })
    else t.modCtx c (fun x => ({ x with waited := x.waited + 1 } : Ctx).count 0x02 1)) s
  { s with issueSeq := s.issueSeq + 1 }
/-- Contexts that are not READY have not been waiting. -/
def State.restart (s : State) (k : Nat) : State :=
  (ctxsOfCore k).foldl (fun t c =>
    if (t.ctx c).st ≠ .ready ∧ (t.ctx c).waited ≠ 0 then t.modCtx c (fun x => { x with waited := 0 }) else t) s

/-! Issue. -/

/-- Whether a context x, now y, has taken a trap that is determined before the instruction issues (R250): a fetch fault, or causes
0x01, 0x04, 0x0A, 0x0B and 0x0C. The 0x04 of a CHPOST in U mode to an interrupt channel (R334), which the binding of its target
decides, counts among them (assumption 84). -/
def Ctx.early (x y : Ctx) : Bool :=
  decide (y.trapRun = x.trapRun + 1) && y.epc == x.pc && [0x13, 0x01, 0x04, 0x0A, 0x0B, 0x0C].contains y.cause.toNat
/-- Whether an outcome is such a trap of context c. -/
def earlyTrap (c : Nat) (before : State) : Out → Bool
  | .next t => (before.ctx c).early (t.ctx c)
  | _ => false
/-- Whether the fetch of context c faults, which is determined before any instruction issues (R135, R250). -/
def State.fetchFails (s : State) (c : Nat) : Bool :=
  match (s.fetch c).2 with
  | .error _ => true
  | .ok _ => false
/-- Whether context c, wherever it stands before its next instruction, meets an early trap of it, which precedes interrupts (R250). -/
noncomputable def State.trapsFirst (s : State) (c : Nat) : Bool :=
  let x := s.ctx c
  (match x.st, x.wait with
    | .waitUnit, .post .. => false
    | .ready, _ | .yielded, _ | .waitReg, _ | .waitUnit, _ => true
    | _, _ => false) &&
  (if s.pendingCause c = some 0x12 then (s.vqOf c).all (·.last) else (s.vqOf c).isEmpty) &&
  (earlyTrap c s (fetchIssue c s) || s.fetchFails c)
/-- Whether the interrupt step of context c may come now. -/
noncomputable def State.interruptible (s : State) (c : Nat) : Bool :=
  (s.pendingCause c).isSome && !s.trapsFirst c &&
  (match execInterruptTake (ctxId c) (Config.stopElement s.fresh) s with | .next _ => true | _ => false)

/-- The issue of context c, as it was in its slot, counted (R377): once for each instruction, and not while it waits to issue (a CHPOST
that finds no room issues where it is accepted) nor where a trap is determined before it issues (R250). -/
def countIssue (c : Nat) (x : Ctx) : Out → Out
  | .next t =>
    let out := (t.ctx c).wait
    if (out = .none ∨ out = .vBehind) ∧ x.wait ≠ .again ∧ x.early (t.ctx c) = false then .next (t.modCtx c (Ctx.countAs x.status.mode 0x01 1)) else .next t
  | o => o
/-- Whether a core issues at all (R18, R389, R392). -/
def State.runs (s : State) (k : Nat) : Bool :=
  let r := s.region (regionOfCore k)
  decide (r.st = .assigned) && !r.throttled && !(s.core k).fenced
/-- The slot of core k in the present cycle. A context that takes an interrupt or a tile error issues nothing, so the slot stays. -/
noncomputable def issueCore (k : Nat) (s : State) : Out :=
  let t := (({ s with turn := k + 1 } : State).wakeCore k).restart k
  match (if t.runs k then t.select k else none) with
  | none => .next (t.charge k none)
  | some c =>
    if t.interruptible c then
      execInterruptTake (ctxId c) (Config.stopElement t.fresh) { t with fresh := t.fresh + 1, turn := k }
    else
      let u := t.charge k (some c)
      if u.fetchFails c then fetchIssue c u else countIssue c (u.ctx c) (fetchIssue c u)

/-! The steps of other agents. -/

/-- The steps that the vector unit, the tile unit, the stream engine, the caches and the arbiter of a core may take. -/
noncomputable def coreEvents (s : State) (k : Nat) : List Instr :=
  let c := s.core k
  let i := coreId k
  (if c.vq.isEmpty then [] else [.vloadDataReturn i, .vectorExecute i]) ++
  (if c.tq.isEmpty then [] else [.tileComplete i, .tileExecute i]) ++
  (if c.stream.inbox.isEmpty then []
    else [.strmCopy i, .strmGather i, .strmScatter i, .strmFill i, .strmPlane i, .strmUnzForward i]) ++
  c.notices.map (fun n => .evictionNotice i n.1) ++
  (if c.arrivals.isEmpty then [] else [.cReplyArrival i, .channelArrival i, .bcArrival i])
/-- The steps that may concern a context. -/
noncomputable def ctxEvents (s : State) (e : Nat × Ctx) : List Instr :=
  let i := ctxId e.1
  let x := e.2
  (match x.miss with
    | .none => []
    | .load .. => [.loadMissFill i, .dirReadMiss i]
    | .atom .. => [.atomicComplete i]) ++
  (if x.sb.isEmpty then [] else [.storePerform i, .dirOwnershipRequest i]) ++
  (if x.acksDue = 0 then [] else [.storeAck i]) ++
  (match x.st with
    | .trapping _ => [.trappingDone i]
    | _ => []) ++
  (match x.park with
    | .bar .. => [.barrierRelease i, .barrierTimeout i]
    | _ => []) ++
  (match x.wait with
    | .post .. => [.chpostAccept i]
    | _ => []) ++
  (if x.vclear then [.launchVclearDone i] else []) ++
  (if x.yArmed.isSome then [.yieldDeadlineExpire i] else []) ++
  (if 16 ≤ x.trapRun then [.trapLoopReset i] else []) ++
  (if s.interruptible e.1 then [.interruptTake i (Config.stopElement s.fresh)] else [])
/-- The steps that an engine may take beside starting commands. -/
noncomputable def engineEvents (s : State) (e : EngineId) : List Instr :=
  let x := s.engine e
  (List.range x.running.length).map (fun n => .engineComplete e n) ++ (if x.held.isEmpty then [] else [.heldReplyRetry e])
/-- The steps of a quad's and of a region's engines. -/
noncomputable def quadEvents (s : State) (q : Nat) : List Instr :=
  let x := s.quad q
  let i := quadNo q
  (if x.weave.inbox.isEmpty then [] else [.weaveLoad i, .weaveRun i]) ++
  (if x.set.isEmpty then [] else [.weaveRunStart i, .weaveGatherTimeout i]) ++ (if x.decomp.inbox.isEmpty then [] else [.strmUnz i])
noncomputable def regionEngineEvents (s : State) (r : Nat) : List Instr :=
  let x := s.region r
  let i := regionId r
  (if x.coll.inbox.isEmpty then [] else [.collBmax i, .collIsum i, .collFsum i, .collBcast i, .collOr i]) ++
  (if x.tend.inbox.isEmpty then []
    else [.tendStorageRead i, .tendStorageWrite i, .tendMap i, .tendUnmap i, .tendPost i, .tendTimer i, .tendDoorbell i,
      .tendUnlistedService i]) ++
  (if x.lnch.inbox.isEmpty then [] else [.lnchGang i]) ++ (if x.pending.isEmpty then [] else [.regionEventRetry i])
/-- What firmware has still to do about the temperature that a die shows (R406). While a region's limit is lowered or a region is held, the
same temperature calls for no further reaction, so HOT and TRIP are not set anew after the host has cleared them (DEDUCED, assumption
36). -/
noncomputable def State.heatDue (s : State) (d : DieId) : List Instr :=
  let deg := s.dtemp.get d
  let rs := [s.region (2 * d.val), s.region (2 * d.val + 1)]
  (if 115 ≤ deg ∧ rs.any (fun x => !x.tripped) then [.tempTrip d deg] else []) ++
  (if 105 ≤ deg ∧ deg < 115 ∧ rs.any (fun x => x.limit != 1000) then [.tempHot d deg] else []) ++
  (if deg < 100 ∧ rs.any (fun x => x.limit != 1250 || (decide (deg < 95) && x.tripped)) then [.tempRecover d deg] else [])
/-- The steps of other agents that the state may allow, in the order in which the machine tries them when no schedule says
otherwise (assumption 1). Those that come from outside (failures, requests, targets' answers) are never among them. -/
noncomputable def candidates (s : State) : List Instr :=
  s.ctxs.flatMap (ctxEvents s) ++ s.cores.flatMap (fun k => coreEvents s k.1) ++ s.quads.flatMap (fun q => quadEvents s q.1) ++
  s.regions.flatMap (fun r => regionEngineEvents s r.1) ++ s.engines.flatMap (engineEvents s) ++
  s.resv.flatMap (fun e => [.reservationExpire (ctxId e.2.ctx), .reservationHoldEnd (ctxId e.2.ctx)]) ++
  s.cohMsgs.map (fun m => match m with
    | .inval l k _ => .invalidationReceive (coreId k) l
    | .ack l _ => .invalidationAck l
    | .dieAck l _ => .invalidationAck l
    | .crossed l k _ => .evictionNotice (coreId k) l) ++
  s.txns.map (fun t => .probeAnswer t.line) ++
  (List.range s.collInst.length).flatMap (fun n => [.collInstanceStart n, .groupDeadlineExpire n]) ++
  s.timers.map (fun t => .tenderTimerExpire t.obj) ++ (List.finRange 16).flatMap s.heatDue
/-- The first of them that the machine takes. -/
noncomputable def State.autoEvent (s : State) : Option Instr :=
  (candidates s).find? (fun i => match exec i s with | .next _ => true | _ => false)

/-- The cores that have a context to run. -/
def State.busyCores (s : State) : List Nat :=
  ((s.ctxs.filter (fun e => decide (e.2.st ≠ .free))).map (fun e => coreOf e.1)).eraseDups
/-- A step that no schedule names: another agent's, or the slot of the next core of this cycle, or the next cycle. -/
noncomputable def autoStep (s : State) : Out :=
  match s.autoEvent with
  | some i => exec i s
  | none =>
    match s.busyCores.find? (fun k => decide (s.turn ≤ k)) with
    | some k => issueCore k s
    | none => .next (s.tick 1)

/-! What has to happen in a cycle before the next one. -/

/-- Whether context c could issue now: it is READY in a core that issues, past the last trap point of its vector instructions, and no
pending cause stops it (R18, R94, R112). -/
def State.mayIssue (s : State) (c : Nat) : Bool :=
  decide ((s.ctx c).st = .ready) && s.runs (coreOf c) && (s.vqOf c).all (·.last) && !s.stopsIssue c
/-- Whether core k has a READY context at its slot in this cycle (R95). -/
noncomputable def State.due (s : State) (k : Nat) : Bool := !((s.wakeCore k).readyCtxs k).isEmpty
/-- Whether one of the cores from `lo` on and below `hi` has one. -/
noncomputable def State.dueIn (s : State) (lo hi : Nat) : Bool := s.busyCores.any (fun k => decide (lo ≤ k) && decide (k < hi) && s.due k)
/-- The steps that come in the first cycle that admits them: deadlines (R376), the end of trap entry (R246) and of a reservation or its
hold (R279, R305), the timeout of a gathering set (R326), and what firmware does about heat (R406; assumption 36). -/
noncomputable def timedEvents (s : State) : List Instr :=
  s.ctxs.flatMap (fun e => [.barrierTimeout (ctxId e.1), .yieldDeadlineExpire (ctxId e.1), .trappingDone (ctxId e.1)]) ++
  s.resv.flatMap (fun e => [.reservationExpire (ctxId e.2.ctx), .reservationHoldEnd (ctxId e.2.ctx)]) ++
  (List.range s.collInst.length).map (fun n => .groupDeadlineExpire n) ++ s.timers.map (fun t => .tenderTimerExpire t.obj) ++
  s.quads.map (fun q => .weaveGatherTimeout (quadNo q.1)) ++ (List.finRange 16).flatMap s.heatDue
/-- Whether one of them is still to come in this cycle. -/
noncomputable def State.late (s : State) : Bool := (timedEvents s).any (fun i => match exec i s with | .next _ => true | _ => false)
/-- Whether n cycles may pass at once: no slot and no timed step is due in any of them (R99, R376). -/
noncomputable def State.mayTick (s : State) (n : Nat) : Bool :=
  let t : State := { s with cycles := s.cycles + (n - 1) }
  decide (0 < n) && !s.late && !s.dueIn s.turn 1024 && (decide (n = 1) || (!t.late && !t.dueIn 0 1024))

/-- An event named by the schedule: never an encoded instruction; an illegal or unfetchable instruction only where the context could
issue and the fetch finds one (R55, R94, R135); an interrupt only where no earlier trap stands before it (R250). -/
noncomputable def eventStep (i : Instr) (s : State) : Out :=
  match i with
  | .illegalInstruction c =>
    (match s.fetch c.val with
    | (_, .ok w) => if (decodeWord w).isNone && s.mayIssue c.val then exec i s else notEnabled "ILLEGAL_INSTRUCTION"
    | _ => notEnabled "ILLEGAL_INSTRUCTION")
  | .fetchPageFault c => if s.mayIssue c.val then exec i s else notEnabled "FETCH_PAGE_FAULT"
  | .interruptTake c _ => if s.trapsFirst c.val then notEnabled "INTERRUPT_TAKE" else exec i s
  | i => if (gNames i).isNone then exec i s else notEnabled "instruction"
/-- A turn named by the schedule. A core's slot comes only where no lower core waits for its own in this cycle. -/
noncomputable def turnStep (t : Turn) (s : State) : Out :=
  match t with
  | .event i => eventStep i s
  | .tick n => if s.mayTick n then .next (s.tick n) else notEnabled "tick"
  | .issue k => if s.turn ≤ k.val && !s.dueIn s.turn k.val then issueCore k.val s else notEnabled "issue"
  | .current r amps => s.setCurrent r amps
  | .heat d deg => s.setHeat d deg
  | .corrected r => s.corrected r
  | .mgmtRead off => s.mgmtRead off
  | .mgmtCounts r clear => s.mgmtCounts r clear

/-- The place of the word that State.withFetchWord stores. -/
def probePc : Nat := 0x400000
/-- Context 0, in K mode without translation, about to fetch at probePc. -/
def Ctx.probe (c : Ctx) : Ctx :=
  { c with
    st := .ready, wait := .none, park := .none, miss := .none, vstart := 0, pc := BitVec.ofNat 64 probePc, ptOn := false
    status := { c.status with mode := true, ie := false } }
/-- Region 0 assigned, its core 0 able to issue, context 0 at a word in its stack, and core 0's slot next. -/
def State.probe (s : State) (w : Nat) : State :=
  let s := s.modRegion 0 (fun r => { r with st := .assigned, island := 0, rta := 0, throttled := false, chanFence := [] })
  let s := s.modCore 0 (fun c => { c with fenced := false, icache := [], vq := [] })
  let s := (s.setPoison (.hbm probePc) false).putBytes (spread (.hbm probePc) (bytesOfWord (BitVec.ofNat 32 w)))
  let s := [1, 2, 3].foldl (fun t c => if (t.ctx c).st = .free then t else t.modCtx c (fun x => { x with st := .free })) s
  { (s.modCtx 0 Ctx.probe) with sched := [.issue 0], turn := 0, cur := 0 }

end Sys2Proof.Machine
end

