-- ==== Sys2Proof/Machine/Step.lean ====
section
/-! DEFINITION. One step of the module, and the state that is about to run one given instruction. -/

namespace Sys2Proof.Machine

/-- One step (assumption 1): the next turn of the schedule, or where it is empty the next that the machine takes by itself. -/
noncomputable def step (s : State) : Host.Outcome State Fault Refusal :=
  match s.sched with
  | t :: rest => turnStep t { s with sched := rest }
  | [] => autoStep s

/-- The state with a word where the next step fetches: region 0 is assigned and context 0 of core 0 runs in K mode, as after the
assignment and boot that assumption 20 describes. -/
def State.withFetchWord (s : State) (nbits w : Nat) : State := s.probe (w % 2 ^ nbits)

end Sys2Proof.Machine
end

