-- ==== Sys2Proof/Safety.lean ====
section
/-! DEFINITION. The terms in which claims speak of states and outcomes: what stays the same, what an instruction that completes
leaves behind it, what a trap leaves behind it. Each is written out from the rules, not from the meanings. -/

namespace Sys2Proof.Machine

/-- The byte stores of the module are in their one canonical form. -/
abbrev State.memOk (s : State) : Bool := Memory.wf s.mem && Memory.wf s.spad

/-- A byte of memory at a place, as it reads. -/
abbrev State.reads (s : State) (l : Loc) : Byte := s.byteAt l

/-- A place that exists: an HBM address below 2 TB, an offset within a slice (R255, R257). -/
def Loc.exists_ : Loc → Prop
  | .hbm pa => pa < 2 ^ 41
  | .spad k o => k < 1024 ∧ o < 2 ^ 23
  | .fabric _ => False

/-- Only context c may differ: every other context, and everything that is not a context, is as before. -/
def OnlyCtx (c : Nat) (s t : State) : Prop := t = { s with ctxs := t.ctxs } ∧ ∀ j, j ≠ c → t.ctx j = s.ctx j

/-- Only the acting context may differ. -/
abbrev OnlyMe (s t : State) : Prop := OnlyCtx s.cur s t

/-- Every byte of memory outside n bytes from a place reads as before. -/
def SameBytesBut (s t : State) (p : Loc) (n : Nat) : Prop :=
  ∀ l : Loc, l.exists_ → (∀ i < n, l ≠ p.plus i) → t.reads l = s.reads l

/-- What bytes written from a place on leave there (R4, R356). -/
def State.keptAll (s : State) (p : Loc) (bs : List Byte) : List Byte :=
  (bs.zip (List.range bs.length)).map (fun x => s.kept (p.plus x.2) x.1)

/-- Every byte of memory reads as before. -/
def SameBytes (s t : State) : Prop := ∀ l : Loc, t.reads l = s.reads l

/-- A context whose instruction has completed (R91, R242, R396): READY at `pc`, waiting for nothing, one more in IRET, no trap
since its last completed instruction. Everything else is as in x. -/
def Ctx.completed (x : Ctx) (pc : Word) : Ctx :=
  { x with
    pc := pc, st := .ready, wait := .none, park := .none, miss := .none, iret := x.iret + 1, trapRun := 0, young := false }

/-- Context y is x completed at `pc` with general register d holding v; g0 reads 0 whatever is written to it (R118, R119). -/
def Ctx.Wrote (x y : Ctx) (d : GReg) (v pc : Word) : Prop :=
  (∀ r, y.getG r = if r = 0 then 0 else if r = d then v else x.getG r) ∧ y = { x.completed pc with g := y.g }

/-- The instruction i completes in every state: register d holds v, the PC moves to the next word, and nothing else changes but
the bookkeeping of completion. -/
def Gives (i : Instr) (d : GReg) (v : State → Word) : Prop :=
  ∀ s, ∃ t, exec i s = .next t ∧ OnlyMe s t ∧ s.me.Wrote t.me d (v s) (s.me.pc + 4)

/-- The same with flags of FSTAT, which are set and never cleared (R46). -/
def GivesFp (i : Instr) (d : GReg) (v : State → Nat × FFlags) : Prop :=
  ∀ s, ∃ t, exec i s = .next t ∧ OnlyMe s t ∧
    ({ s.me with fstat := s.me.fstat ||| (v s).2 } : Ctx).Wrote t.me d (BitVec.ofNat 64 (v s).1) (s.me.pc + 4)

/-- The instruction i completes in state s: nothing is written but what `x` holds, and the PC is `pc`. -/
def CompletesAs (i : Instr) (s : State) (x : Ctx) (pc : Word) : Prop :=
  ∃ t, exec i s = .next t ∧ OnlyMe s t ∧ t.me = x.completed pc

/-- Context y is x after the taking of trap or interrupt `code` in cycle `now` (R246, R248): EPC, CAUSE, TVAL and the status stack
are written, the context is in K mode with IE = 0 at the trap vector, or 0x100 beyond it for an interrupt, whose IPEND bit is
clear, and it has not been waiting (R95). The performance counters may count the event (R377). -/
def Ctx.Trapped (x y : Ctx) (now code : Nat) (epc tval : Word) : Prop :=
  y = { x with
    st := .trapping now, wait := .none, park := .none, miss := .none, young := false, waited := 0, trapRun := x.trapRun + 1
    epc := epc &&& ~~~3#64, cause := BitVec.ofNat 8 code, tval := tval
    pc := (x.tvec &&& ~~~255#64) + (if 0x40 ≤ code then 0x100 else 0)
    status := { x.status with
      mode := true, pmode := x.status.mode, ie := false, pie := x.status.ie
      ipend := if 0x40 ≤ code then x.status.ipend &&& ~~~(1#6 <<< (code - 0x40)) else x.status.ipend }
    pmcnt := y.pmcnt }

/-- State t is s after context c has taken a trap or interrupt; its reservations are lost (R279), and nothing else changes. -/
def TrapTaken (s t : State) (c code : Nat) (epc tval : Word) : Prop :=
  t = { s with ctxs := t.ctxs, resv := t.resv } ∧ (∀ j, j ≠ c → t.ctx j = s.ctx j) ∧
  t.resv = s.resv.filter (fun e => e.2.ctx != c) ∧ (s.ctx c).Trapped (t.ctx c) s.cycles code epc tval

/-- The instruction i raises cause `code` in state s with its own address as EPC (R94, R249). -/
def Raises (i : Instr) (s : State) (code : Nat) (tval : Word) : Prop :=
  ∃ t, exec i s = .next t ∧ TrapTaken s t s.cur code s.me.pc tval

/-- The instruction i waits in state s: the acting context is in a waiting state, and nothing else changes (R91). -/
def Waits (i : Instr) (s : State) (st : CtxSt) (w : WaitOn) : Prop :=
  ∃ t, exec i s = .next t ∧ OnlyMe s t ∧ t.me = { s.me with st := st, wait := w }

/-! Floating-point bit patterns, by their fields (R24 to R26). -/

/-- The biased exponent. -/
def FpFmt.expOf (f : FpFmt) (b : Nat) : Nat := b / 2 ^ f.mbits % 2 ^ f.ebits
/-- The fraction. -/
def FpFmt.fracOf (f : FpFmt) (b : Nat) : Nat := b % 2 ^ f.mbits
/-- The sign bit. -/
def FpFmt.signOf (f : FpFmt) (b : Nat) : Bool := b.testBit (f.width - 1)
/-- Everything but the sign bit. -/
def FpFmt.magOf (f : FpFmt) (b : Nat) : Nat := b % 2 ^ (f.width - 1)
/-- A NaN: the largest exponent with a fraction; in E4 with all bits of it. -/
def FpFmt.nanAt (f : FpFmt) (b : Nat) : Bool :=
  f.expOf b == 2 ^ f.ebits - 1 && (if f = .e4 then f.fracOf b == 7 else f.fracOf b != 0)
/-- A signalling NaN: its most significant fraction bit is clear. E4 has none. -/
def FpFmt.sigAt (f : FpFmt) (b : Nat) : Bool := f.nanAt b && decide (f.fracOf b < 2 ^ (f.mbits - 1))
/-- An infinity: the largest exponent without a fraction. E4 has none. -/
def FpFmt.infAt (f : FpFmt) (b : Nat) : Bool := f != .e4 && f.expOf b == 2 ^ f.ebits - 1 && f.fracOf b == 0
/-- The NaN that operations deliver: all exponent bits and the most significant fraction bit; in E4 all bits but the sign. -/
def FpFmt.oneNan (f : FpFmt) : Nat := if f = .e4 then 0x7F else (2 ^ (f.ebits + 1) - 1) * 2 ^ (f.mbits - 1)
/-- A pattern as an instruction with flushing reads it: a subnormal becomes the zero of its sign (R44). -/
def FpFmt.readAs (f : FpFmt) (ftz : Bool) (b : Nat) : Nat :=
  if ftz = true ∧ f.expOf b = 0 then (if f.signOf b then 2 ^ (f.width - 1) else 0) else b
/-- The place of a pattern that is no NaN in the order of values; both zeros have one place. -/
def FpFmt.rankOf (f : FpFmt) (b : Nat) : Int := if f.signOf b then -(f.magOf b : Int) else f.magOf b
/-- The same with −0 directly below +0. -/
def FpFmt.placeOf (f : FpFmt) (b : Nat) : Int := if f.signOf b then -1 - (f.magOf b : Int) else f.magOf b
/-- A finite pattern's magnitude is sigOf · 2^scaleOf. -/
def FpFmt.sigOf (f : FpFmt) (b : Nat) : Nat := if f.expOf b = 0 then f.fracOf b else f.fracOf b + 2 ^ f.mbits
def FpFmt.scaleOf (f : FpFmt) (b : Nat) : Int := (max (f.expOf b) 1 : Nat) - (f.bias : Int) - f.mbits
/-- A finite pattern's value in units of 2^q, for a q no larger than its scale. -/
def FpFmt.unitsOf (f : FpFmt) (b : Nat) (q : Int) : Int :=
  if f.signOf b then -(f.sigOf b * 2 ^ (f.scaleOf b - q).toNat : Nat) else (f.sigOf b * 2 ^ (f.scaleOf b - q).toNat : Nat)
/-- Whether pattern a of f is below pattern b of g, or not above it, neither being a NaN (R128, R181). -/
def fpBelow (orEq : Bool) (f g : FpFmt) (a b : Nat) : Bool :=
  let q := min (f.scaleOf a) (g.scaleOf b)
  let x : Int := if f.infAt a then (if f.signOf a then -1 else 1) else 0
  let y : Int := if g.infAt b then (if g.signOf b then -1 else 1) else 0
  if x ≠ 0 ∨ y ≠ 0 then decide (x < y) || (orEq && decide (x = y))
  else decide (f.unitsOf a q < g.unitsOf b q) || (orEq && decide (f.unitsOf a q = g.unitsOf b q))
/-- Whether a finite pattern's magnitude is at most (1 − 2^−(8p−1))·2^(s−127), the largest of a block of p planes under scale s
(R190). -/
def FpFmt.fits (f : FpFmt) (b p s : Nat) : Prop :=
  let u : Int := (s : Int) - 127 - (8 * (p : Int) - 1)
  let q := min (f.scaleOf b) u
  f.sigOf b * 2 ^ (f.scaleOf b - q).toNat ≤ (2 ^ (8 * p - 1) - 1) * 2 ^ (u - q).toNat
/-- The minimum or maximum of two patterns as R126 defines it: `first` says of two places that the left operand is returned. -/
def FpFmt.pickOf (f : FpFmt) (first : Int → Int → Bool) (x y : Nat) : Nat :=
  if f.nanAt x then (if f.nanAt y then f.oneNan else y)
  else if f.nanAt y then x
  else if first (f.placeOf x) (f.placeOf y) then x else y
/-- The class number of a pattern (R129). -/
def FpFmt.classOf (f : FpFmt) (x : Nat) : Nat :=
  if f.nanAt x then (if f.sigAt x then 8 else 9)
  else if f.infAt x then (if f.signOf x then 0 else 7)
  else if f.magOf x = 0 then (if f.signOf x then 3 else 4)
  else if f.expOf x = 0 then (if f.signOf x then 2 else 5)
  else if f.signOf x then 1 else 6
/-- The magnitude n/d rounded to an integer (R39). -/
def roundedMag (rm : ScalarRm) (neg : Bool) (n d : Nat) : Nat :=
  let low := n / d
  let high := if n % d = 0 then n / d else n / d + 1
  match rm with
  | .rtz => low
  | .rup => if neg then low else high
  | .rdn => if neg then high else low
  | .rne => if 2 * (n % d) < d ∨ (2 * (n % d) = d ∧ low % 2 = 0) then low else high

/-! Vector instructions. -/

/-- State t is s after the acting context's vector instruction has entered the vector queue of its core as e, with STATUS.VD set
where `vd` says so and counter L or S raised where e counts in it; behind one that may still trap the context waits (R94). Nothing else
changes (R97, R148, R206). -/
def Dispatched (s t : State) (e : VEntry) (vd young : Bool) : Prop :=
  t = { s with ctxs := t.ctxs, cores := t.cores } ∧ (∀ j, j ≠ s.cur → t.ctx j = s.ctx j) ∧
  t.me = { s.me with
    st := if e.last = true then .ready else .waitUnit, wait := if e.last = true then .none else .vBehind
    pc := s.me.pc + 4, young := young, status := { s.me.status with vd := s.me.status.vd || vd }
    cntL := if e.cntL then s.me.cntL + 1 else s.me.cntL, cntS := if e.cntS then s.me.cntS + 1 else s.me.cntS } ∧
  ∀ k, t.core k = if k = coreOf s.cur then { s.core k with vq := (s.core k).vq ++ [e] } else s.core k

/-- The vector instruction i, whose word is w, whose function is `op`, whose governing mask is `mask`, whose format register is `fr`
and whose general-register operands are x and y: the checks of R56 in their order, the waits of R97, R105 and R362, and the entry into
the queue with what R38 and R148 have it read at dispatch. A memory instruction with an element whose home is not on its die counts
from here on (R206; State.vFar, assumption 98). -/
def VectorIssues (i : Instr) (w : Nat) (op : VOp) (mask : MaskSel) (fr : Option FmtSel) (x y : State → Word) : Prop := ∀ s,
  let c := s.me
  let fw : Word := match fr with | some f => c.getG (fmtReg f) | none => 0
  let format : Bool := match op.fwRule with | none => true | some r => fwOk r fw && op.fwExtra fw
  let vs := if s.vqOf s.cur = [] then c.vstart.toNat else 0
  let reserved := op.reserved c.vcap.toNat c.es.toNat c.grp.toNat vs fw
  let blocked := s.slvPending s.cur (op.groups c.vcap.toNat c.es.toNat c.grp.toNat fw).2
  let full := 4 ≤ (s.core (coreOf s.cur)).vq.length
  let e : VEntry := {
    ctx := s.cur, op := op, mask := mask, pc := c.pc, vl := c.vl.toNat, es := c.es.toNat, grp := c.grp.toNat, vstart := vs
    vfill := c.vfill, stripbase := c.stripbase, seed := c.seed, lenLog := c.vcap.toNat, fw := fw, x := x s, y := y s
    first := vs, pos := vs, win := none, last := !(op.isLoad || op.isStore), cntL := false, cntS := false }
  let far := s.vFar e
  let counted := far = false ∨ ((op.isLoad = true → c.cntL ≠ 0xFFFF) ∧ (op.isStore = true → c.cntS ≠ 0xFFFF))
  (c.status.ven = false → Raises i s 0x0A (BitVec.ofNat 64 w)) ∧
  (c.status.ven = true → format = false → Raises i s 0x03 fw) ∧
  (c.status.ven = true → format = true → reserved = true → Raises i s 0x02 (BitVec.ofNat 64 w)) ∧
  (c.status.ven = true → format = true → reserved = false → c.vclear = true → Waits i s .waitUnit .vclear) ∧
  (c.status.ven = true → format = true → reserved = false → c.vclear = false → blocked = true → Waits i s .waitReg .vReg) ∧
  (c.status.ven = true → format = true → reserved = false → c.vclear = false → blocked = false → full → Waits i s .waitUnit .vqFull) ∧
  (c.status.ven = true → format = true → reserved = false → c.vclear = false → blocked = false → ¬ full → counted →
    ∃ t, exec i s = .next t ∧ Dispatched s t { e with cntL := far && op.isLoad, cntS := far && op.isStore } op.setsVd (!op.whole)) ∧
  (c.status.ven = true → format = true → reserved = false → c.vclear = false → blocked = false → ¬ full → ¬ counted →
    Waits i s .waitUnit .cntFull)

/-- f(x, y) of R155 over elements of w bits. -/
def VBin.fn (o : VBin) {w : Nat} (x y : BitVec w) : BitVec w :=
  let clamp := fun (z : Int) => BitVec.ofInt w (Max.max (-2 ^ (w - 1)) (Min.min (2 ^ (w - 1) - 1) z))
  match o with
  | .add => x + y
  | .sub => x - y
  | .mul => x * y
  | .mulh => BitVec.ofInt w (x.toInt * y.toInt / 2 ^ w)
  | .mulhu => BitVec.ofNat w (x.toNat * y.toNat / 2 ^ w)
  | .min => if x.toInt ≤ y.toInt then x else y
  | .max => if x.toInt ≤ y.toInt then y else x
  | .minu => if x.toNat ≤ y.toNat then x else y
  | .maxu => if x.toNat ≤ y.toNat then y else x
  | .and => x &&& y
  | .or => x ||| y
  | .xor => x ^^^ y
  | .shl => x <<< (y.toNat % w)
  | .shr => x >>> (y.toNat % w)
  | .sra => x.sshiftRight (y.toNat % w)
  | .adds => clamp (x.toInt + y.toInt)
  | .addsu => BitVec.ofNat w (Min.min (2 ^ w - 1) (x.toNat + y.toNat))
  | .subs => clamp (x.toInt - y.toInt)
  | .subsu => BitVec.ofNat w (x.toNat - y.toNat)
  | .avg => BitVec.ofInt w ((x.toInt + y.toInt + 1) / 2)
  | .absd => BitVec.ofNat w (x.toInt - y.toInt).natAbs

/-- Where R155 clamps: the only case in which an integer vector instruction sets a flag, SAT. -/
def VBin.clamps (o : VBin) {w : Nat} (x y : BitVec w) : Prop :=
  match o with
  | .adds => x.toInt + y.toInt < -2 ^ (w - 1) ∨ 2 ^ (w - 1) ≤ x.toInt + y.toInt
  | .addsu => 2 ^ w ≤ x.toNat + y.toNat
  | .subs => x.toInt - y.toInt < -2 ^ (w - 1) ∨ 2 ^ (w - 1) ≤ x.toInt - y.toInt
  | .subsu => x.toNat < y.toNat
  | _ => False

/-- What R157 compares. -/
def VCmp.holds (o : VCmp) {w : Nat} (x y : BitVec w) : Prop :=
  match o with
  | .eq => x = y
  | .ne => x ≠ y
  | .lt => x.toInt < y.toInt
  | .le => x.toInt ≤ y.toInt
  | .ltu => x.toNat < y.toNat
  | .leu => x.toNat ≤ y.toNat

/-- Element i of the group that starts at register n, as bits (R144). -/
def Ctx.lane (c : Ctx) (e : VEntry) (w n i : Nat) : BitVec w :=
  (c.v.get (Fin.ofNat 32 (n + i * w / 2 ^ e.lenLog))).extractLsb' (i * w % 2 ^ e.lenLog) w

/-- The settings and operands of a queue entry are those that dispatch lets in (R145 to R148, R79). -/
def VEntry.sound (e : VEntry) : Prop :=
  7 ≤ e.lenLog ∧ e.lenLog ≤ 14 ∧ e.es ≤ 3 ∧ e.grp ≤ 3 ∧ e.vl ≤ vlmax e.lenLog e.es e.grp ∧
  e.op.reserved e.lenLog e.es e.grp e.vstart e.fw = false ∧ e.cntL = false ∧ e.cntS = false

/-- State t is s after the vector unit of core k has completed its oldest entry e, which accesses no memory: context registers as in y
but for VSTART, IRET and the performance counters, the entry gone from the queue, everything else as before (R97, R148, R242). -/
def VectorDone (s t : State) (k : Nat) (e : VEntry) (rest : List VEntry) (y : Ctx) : Prop :=
  t = { s with ctxs := t.ctxs, cores := t.cores } ∧ (∀ j, j ≠ e.ctx → t.ctx j = s.ctx j) ∧
  t.ctx e.ctx = { y with vstart := 0, iret := y.iret + 1, trapRun := 0, pmcnt := (t.ctx e.ctx).pmcnt } ∧
  ∀ j, t.core j = if j = k then { s.core j with vq := rest } else s.core j

/-- VECTOR_EXECUTE of core k performs its oldest entry e lane by lane: exactly the lanes i of `done` of the destination d, w bits wide,
become the first of f c i, FSTAT gains the flags that they raise and no other (R46), every other bit of the vector registers is as
before, and nothing else changes (R150, R175). The context c is that in which element i is performed: the lanes of d below i are
written, the others not; it matters where a scale operand is the destination itself. -/
def LaneWise (s : State) (k : CoreId) (e : VEntry) (rest : List VEntry) (d : VReg) (w : Nat) (done : Nat → Prop)
    (f : Ctx → Nat → Nat × FFlags) : Prop :=
  let x := s.ctx e.ctx
  ∃ (t : State) (y : Ctx) (c : Nat → Ctx),
    exec (.vectorExecute k) s = .next t ∧ VectorDone s t k.val e rest y ∧ y = { x with v := y.v, fstat := y.fstat } ∧
    (∀ i, i * w < (32 - d.val) * 2 ^ e.lenLog →
      (done i → y.lane e w d.val i = BitVec.ofNat w (f (c i) i).1) ∧ (¬ done i → y.lane e w d.val i = x.lane e w d.val i)) ∧
    (∀ i j, j * w < (32 - d.val) * 2 ^ e.lenLog →
      (c i).lane e w d.val j = if j < i then y.lane e w d.val j else x.lane e w d.val j) ∧
    (∀ r : VReg, r < d → y.v.get r = x.v.get r ∧ ∀ i, (c i).v.get r = x.v.get r) ∧
    (∀ (r : VReg) (j : Nat), 2 ^ e.lenLog ≤ j → (y.v.get r).getLsbD j = (x.v.get r).getLsbD j) ∧
    ∀ j < 7, y.fstat.getLsbD j = true ↔ x.fstat.getLsbD j = true ∨ ∃ i, done i ∧ (f (c i) i).2.getLsbD j = true

/-- The elements that an instruction under R150 performs. -/
def VEntry.runs (e : VEntry) (x : Ctx) (i : Nat) : Prop :=
  e.pos ≤ i ∧ i < e.vl ∧ (e.mask = 0 ∨ (x.m.get (maskReg e.mask)).getLsbD i = true)

/-- What governs the rounding of element i: RM, SAT and FTZ of the format word, and with SR the low 24 bits of Rand(i) (R36, R40). -/
def VEntry.mode (e : VEntry) (rm : RMode) (i : Nat) : Rounding :=
  ⟨rm, fwSat e.fw, fwFtz e.fw, if rm = .sr then (rand e.seed (fwSalt e.fw) e.stripbase i).toNat % 2 ^ 24 else 0⟩

/-- An integer in a format of w bits: kept in range, else clamped with SAT, else wrapped with the flag `wrapFlag` (R23, R156, R185). -/
def fitInt (w : Nat) (signed sat : Bool) (wrapFlag : FFlags) (z : Int) : Nat × FFlags :=
  let lo : Int := if signed then -2 ^ (w - 1) else 0
  let hi : Int := if signed then 2 ^ (w - 1) - 1 else 2 ^ w - 1
  if lo ≤ z ∧ z ≤ hi then ((BitVec.ofInt w z).toNat, 0)
  else if sat then ((BitVec.ofInt w (if z < lo then lo else hi)).toNat, 0x20)
  else ((BitVec.ofInt w z).toNat, wrapFlag)

/-- The integer that bits hold, signed or unsigned. -/
def intIn {w : Nat} (signed : Bool) (b : BitVec w) : Int := if signed then b.toInt else b.toNat

/-- The addresses of the bytes of element i, in the order in which its bytes are counted (R196, R207, R208, R210). -/
def VEntry.byteAddrs (e : VEntry) (x : Ctx) (i : Nat) : List Nat :=
  let at_ := fun (a n : Nat) => (List.range n).map (fun j => (e.x.toNat + a + j) % 2 ^ 64)
  match e.op with
  | .mem st md _ =>
    match md with
    | .unit | .faultFirst => at_ (i * 2 ^ e.es) (2 ^ e.es)
    | .strided => at_ (i * e.y.toNat) (2 ^ e.es)
    | .indexed iw b => at_ (x.lane e (8 * 2 ^ iw.val) b.val i).toNat (2 ^ e.es)
    | .segment nf mw => at_ (i * (nf.val + 1) * 2 ^ mw.val) ((nf.val + 1) * 2 ^ mw.val)
    | .planar p k rnd =>
      (List.range ((if rnd = true ∧ st = false then p.val else k.val) + 1)).flatMap (fun j => at_ (j * e.y.toNat + i) 1)
    | .whole _ => at_ (8 * i) 8
    | .expand f => at_ ((i >>> f.val) * 2 ^ e.es) (2 ^ e.es)
  | _ => []

/-- Lane width of a vector memory instruction's registers, its lanes in one field, its fields and the registers of one field (R196). -/
def VEntry.memLane (e : VEntry) : VMode → Nat
  | .planar _ k _ => match k.val with | 0 => 8 | 1 => 16 | _ => 32
  | .whole _ => 64
  | _ => 8 * 2 ^ e.es
def VEntry.memLanes (e : VEntry) : VMode → Nat
  | .whole cnt => 2 ^ cnt.val * 2 ^ e.lenLog / 64
  | _ => 2 ^ e.grp * 2 ^ e.lenLog / (8 * 2 ^ e.es)
def VMode.fields : VMode → Nat
  | .segment nf _ => nf.val + 1
  | _ => 1

/-- The value that a load gives a lane of field f from the bytes of its element (R196, R197, R32, R208, R210). -/
def VMode.loaded (md : VMode) (w f : Nat) (bs : List Byte) : BitVec w :=
  match md with
  | .segment _ mw => BitVec.ofNat w (leNat ((bs.drop (f * 2 ^ mw.val)).take (2 ^ mw.val)))
  | .planar _ k _ =>
    let q := (BitVec.ofNat (8 * bs.length) (leNat bs.reverse)).toInt
    let less := bs.length - (k.val + 1)
    BitVec.ofInt w (if less = 0 then q else min ((q + 2 ^ (8 * less - 1)) / 2 ^ (8 * less)) (2 ^ (8 * (k.val + 1) - 1) - 1))
  | _ => BitVec.ofNat w (leNat bs)

/-- The byte that a store writes at place j among the bytes of element i (R196, R197, R208, R210). -/
def VEntry.stored (e : VEntry) (x : Ctx) (md : VMode) (d : VReg) (i j : Nat) : Byte :=
  let w := e.memLane md
  match md with
  | .segment _ mw => ((x.lane e w (d.val + j / 2 ^ mw.val * 2 ^ e.grp) i).setWidth 64).extractLsb' (8 * (j % 2 ^ mw.val)) 8
  | .planar _ k _ => (x.lane e w d.val i).extractLsb' (8 * (k.val - j)) 8
  | _ => (x.lane e w d.val i).extractLsb' (8 * j) 8

/-- The virtual addresses of the bytes of pieces. -/
def pieceAddrs (ps : List Piece) : List Nat := ps.flatMap (fun p => (List.range p.len).map (fun j => (p.va + j) % 2 ^ 64))

/-! Tile instructions. -/

/-- The acting context owns the tile unit of its core (R217). -/
def TileOwner (s : State) : Prop :=
  s.me.status.ten = true ∧ (s.core (coreOf s.cur)).owned = true ∧ (s.core (coreOf s.cur)).owner.toNat = s.cur % 4

/-- State t is s after the acting context's tile instruction has entered the tile queue of its core as e: the context goes on with
counter T one higher (R225); only pins of the core's L2 TLB may change besides (R235). -/
def TileQueued (s t : State) (e : TEntry) (vd : Bool) : Prop :=
  t = { s with ctxs := t.ctxs, cores := t.cores } ∧ (∀ j, j ≠ s.cur → t.ctx j = s.ctx j) ∧
  t.me = { s.me with
    st := .ready, wait := .none, pc := s.me.pc + 4, young := false, cntT := s.me.cntT + 1
    status := { s.me.status with vd := s.me.status.vd || vd } } ∧
  ∀ k, t.core k = if k = coreOf s.cur then { s.core k with tq := (s.core k).tq ++ [e], tlb2 := (t.core k).tlb2 } else s.core k

/-- The queue entry of the acting context's tile instruction, with what it reads at issue (R225, R234, R235). -/
def tileEntryOf (s : State) (op : TOp) (fw a b : Word) (pieces : List Piece) (pages : Nat) (cast : Option Nat) : TEntry := {
  ctx := s.cur, op := op, pc := s.me.pc, fw := fw, a := a, b := b, seed := s.me.seed, stripbase := s.me.stripbase
  lenLog := s.me.vcap.toNat, asid := s.me.asid.toNat, dlog := s.me.dlog && s.me.ptOn, pieces := pieces, pages := pages, cast := cast
  started := false, seq := s.issueSeq }

/-- The tile memory instruction i over `rows` issues: misaligned operands raise 0x05 with Ge(a); where its pages would raise the tile
unit's pins above 512 it waits, before any translation; a page that does not translate raises its cause at the lowest byte there; and
otherwise it
enters the queue with its pages pinned, waiting for room in the queue (R235). The state u is that after the translation of the rows in
ascending order of address, each with its pieces, which the entry holds in their order of transfer. -/
def TileMemoryIssues (i : Instr) (s : State) (k : Acc) (align : Nat) (rows : List (Nat × Nat)) (a b : Word)
    (entry : State → List Piece → Nat → TEntry → Prop) : Prop :=
  (a.toNat % align ≠ 0 ∨ b.toNat % align ≠ 0 → Raises i s 0x05 a) ∧
  (let pages := s.footPages (s.whoCtx s.cur) k rows + ((s.core (coreOf s.cur)).tq.map (·.pages)).sum
   a.toNat % align = 0 → b.toNat % align = 0 → 512 < pages → Waits i s .waitUnit .tilePins) ∧
  (let pages := s.footPages (s.whoCtx s.cur) k rows + ((s.core (coreOf s.cur)).tq.map (·.pages)).sum
   a.toNat % align = 0 → b.toNat % align = 0 → pages ≤ 512 →
   ∀ (u : State) (r : Except (Nat × Nat) (List ((Nat × Nat) × List Piece))),
    State.transEach (s.whoCtx s.cur) k (footOf rows) s = (u, r) →
    (∀ cause va, r = .error (cause, va) → ∃ t, exec i s = .next t ∧
      TrapTaken u t u.cur cause u.me.pc (BitVec.ofNat 64 (u.footLow (s.whoCtx s.cur) (footOf rows) va))) ∧
    (∀ l, r = .ok l →
      let ps := rowPieces l rows
      let tq := (u.core (coreOf u.cur)).tq
      (8 ≤ tq.length → ∃ t, exec i s = .next t ∧ OnlyMe u t ∧ t.me = { u.me with st := .waitUnit, wait := .tqFull }) ∧
      (tq.length < 8 →
        ∃ t e, exec i s = .next t ∧ entry u ps (pageCount ps) e ∧ TileQueued { u with casts := t.casts, castSeq := t.castSeq } t e false)))

/-- A group's products added to an FP32 cell with one rounding (R43, R45, R49): y is the new cell with the flags raised. A NaN among the
operands or in the cell gives the canonical NaN, NV where one of them signals; 0 · ∞ or infinities of both signs the canonical NaN with
NV; infinities of one sign that infinity, or with SAT the largest finite value; finite products their exact sum with the cell, rounded
once. A zero group sum has the products' sign where they are zeros of one sign, and else that of R45 under RM. -/
def GroupAdded (r : Rounding) (neg : Bool) (cell : Nat) (ps : List (Machine.Num × Machine.Num)) (y : Nat × FFlags) : Prop :=
  let a := fpVal .fp32 r.ftz cell
  let nans := ∃ v ∈ a :: (ps.map (·.1) ++ ps.map (·.2)), v.isNan = true
  let prods := ps.map (fun p => (mulNum p.1 p.2).map (fun z => if neg then negNum z else z))
  let inf := fun (n : Bool) => a = .inf n ∨ some (.inf n) ∈ prods
  let invalid := none ∈ prods ∨ (inf true ∧ inf false)
  (nans → y.1 = 0x7FC00000 ∧ ((∃ v ∈ a :: (ps.map (·.1) ++ ps.map (·.2)), v = .nan true) → y.2 = 0x01) ∧
    ((∀ v ∈ a :: (ps.map (·.1) ++ ps.map (·.2)), v ≠ .nan true) → y.2 = 0)) ∧
  (¬ nans → invalid → y = (0x7FC00000, 0x01)) ∧
  (∀ n, ¬ nans → ¬ invalid → inf n → y =
    ((if r.sat then 0x7F7FFFFF else 0x7F800000) + (if n then 0x80000000 else 0), if r.sat then 0x20 else 0)) ∧
  (∀ (vs : List (Bool × Nat × Int)) (n : Bool) (m : Nat) (e : Int), prods = vs.map (fun v => some (.fin v.1 v.2.1 v.2.2)) → a = .fin n m e →
    let lo := (vs.map (·.2.2)).foldl min 0
    let sum := (vs.map (fun v => (if v.1 then -1 else 1) * (v.2.1 : Int) * 2 ^ (v.2.2 - lo).toNat)).sum
    let q := min e lo
    let total := (if n then -1 else 1) * (m : Int) * 2 ^ (e - q).toNat + sum * 2 ^ (lo - q).toNat
    let zeroNeg := (∀ v ∈ vs, v.1 = true ∧ v.2.1 = 0) ∨ (r.rm = .rdn ∧ ¬ ∀ v ∈ vs, v.1 = false ∧ v.2.1 = 0)
    (sum ≠ 0 → total ≠ 0 → y = toFp .fp32 r (.fin (decide (total < 0)) total.natAbs q false)) ∧
    (sum ≠ 0 → total = 0 → y = (0, 0)) ∧
    (sum = 0 → m ≠ 0 → y = toFp .fp32 r a.exact) ∧
    (sum = 0 → m = 0 → (n = true ∧ zeroNeg → y = (0x80000000, 0)) ∧ (¬ (n = true ∧ zeroNeg) → y = (0, 0))))

/-- The cells x of accumulator `ac` and its TSTAT field f after TMOP or TMOPS over the tile state of core c (R49, R228, R229): each
enabled cell is z m n j after j groups, of which those with a K index that is on are added in increasing order, with the flags g. -/
def MopValues (c : Core) (fw : Word) (rm : RMode) (comp : Bool) (ac : AccReg) (qa qb : PanelReg) (rows cols : BitVec 64)
    (km : BitVec 256) (zero neg : Bool) (x : BitVec 131072) (f : TFlags) : Prop :=
  let fa := faOf fw
  let fb := fbOf fw
  let w := fa.width
  let size := if w = 32 then 1 else 64 / w
  let groups := 1024 / w / size
  let on := fun (k : Nat) => !comp || km.getLsbD k
  let src := fun (k : Nat) => if comp then (List.range k).countP (fun j => km.getLsbD j) else k
  let scale := fun (b : BitVec 4096) (k j : Nat) => (b.extractLsb' (8 * (64 * (k / 32) + j)) 8).toNat
  let left := fun (m k : Nat) => (c.panel.get qa).extractLsb' ((64 * src k + m) * w) w
  let right := fun (n k : Nat) => (c.panel.get qb).extractLsb' ((64 * k + n) * w) w
  let pair := fun (m n k : Nat) =>
    (fmtVal fa (fwFtz fw) (if fa.isBlock then scale (c.band.get qa) k m else 0) (left m k).toNat,
      fmtVal fb (fwFtz fw) (if fb.isBlock then scale (c.band.get qb) k n else 0) (right n k).toNat)
  let cell := fun (y : BitVec 131072) (m n : Nat) => (y.extractLsb' (32 * (64 * m + n)) 32).toNat
  let enabled := fun (m n : Nat) => rows.getLsbD m && cols.getLsbD n
  ∃ (z : Nat → Nat → Nat → Nat) (g : Nat → Nat → Nat → FFlags),
    (∀ m < 64, ∀ n < 64,
      (enabled m n = false → cell x m n = cell (c.acc.get ac) m n) ∧
      (enabled m n = true → z m n 0 = (if zero then 0 else cell (c.acc.get ac) m n) ∧ cell x m n = z m n groups ∧
        ∀ j < groups, let ks := ((List.range size).map (fun i => j * size + i)).filter on
          (ks = [] → z m n (j + 1) = z m n j ∧ g m n j = 0) ∧
          (ks ≠ [] → match fa, fb with
            | .int _ sa, .int _ sb =>
              let sum := (ks.map (fun k => intIn sa (left m k) * intIn sb (right n k))).sum
              (z m n (j + 1), g m n j) =
                fitInt 32 true (fwSat fw) 0 (intIn true (BitVec.ofNat 32 (z m n j)) + (if neg then -sum else sum))
            | _, _ => GroupAdded ⟨rm, fwSat fw, fwFtz fw, 0⟩ neg (z m n j) (ks.map (pair m n)) (z m n (j + 1), g m n j)))) ∧
    let old := c.tstat.get ac
    let rose := fun (b : Nat) => ∃ m < 64, ∃ n < 64, ∃ j < groups, enabled m n = true ∧ (g m n j).getLsbD b = true
    (f.ovf = true ↔ old.ovf = true ∨ rose 2) ∧ (f.nv = true ↔ old.nv = true ∨ rose 0) ∧ (f.sat = true ↔ old.sat = true ∨ rose 5) ∧
    (f.nx = true ↔ old.nx = true ∨ rose 4) ∧ f.poison = old.poison

/-! Engines. -/

/-- Command c is the next that engine e may take as `op`: at the head of its inbox, within the limits of R317 and R318, its destination
lines its own (R297) and not held back (R305), and no status word is named. -/
def MayTake (s : State) (e : EngineId) (op : Nat) (c : Cmd) : Prop :=
  s.nextCmd e op = some c ∧ s.linesFree e c = true ∧ s.cmdHeld e c = false ∧ c.word 7 / 64 = 0

/-- n bytes at an address translate for an engine without a walk, to places that exist and, to be read, are not poisoned and, to be
written, lie in no fenced pseudo-channel. -/
def State.Warm (s : State) (w : Who) (k : Acc) (r : Nat × Nat) : Prop :=
  (s.transSpan w k r.1 r.2).1 = s ∧ (s.places w k r.1 r.2).length = r.2 ∧
  ∀ l ∈ s.places w k r.1 r.2, l.exists_ ∧ (k = .load → s.poisoned l = false) ∧ ∀ pa, l = .hbm pa → s.chanDown pa = false

/-- The bytes at an address, as a command reads them. -/
def State.readsAt (s : State) (w : Who) (r : Nat × Nat) : List Byte := (s.places w .load r.1 r.2).map s.reads

/-- The bytes that writes store and their places, in the order of the writes. -/
def State.cellsOf (s : State) (w : Who) (ws : List (Nat × List Byte)) : List (Loc × Byte) :=
  ws.flatMap (fun x => (s.places w .store x.1 x.2.length).zip x.2)

/-- Memory in t is that in s after bytes stored in order: of two at one place the later prevails, what the place keeps of it (R4), and no
other byte changes. -/
def Stored (s t : State) (cells : List (Loc × Byte)) : Prop :=
  (∀ n (h : n < cells.length), (∀ j (h' : j < cells.length), n < j → (cells[j]'h').1 ≠ (cells[n]'h).1) →
    t.reads (cells[n]'h).1 = s.kept (cells[n]'h).1 (cells[n]'h).2) ∧
  ∀ l : Loc, l.exists_ → l ∉ cells.map (·.1) → t.reads l = s.reads l

/-- Engine e has taken command c from its inbox, and runs it; p says what its run reports. -/
def Took (s t : State) (e : EngineId) (c : Cmd) (p : Run → Prop) : Prop :=
  (t.engine e).inbox = (s.engine e).inbox.erase c ∧ (t.engine e).accepted = (s.engine e).accepted ∧
  ∃ r, (t.engine e).running = (s.engine e).running ++ [r] ∧ r.cmd = c ∧ r.replied = false ∧ p r

/-- In state t the reply of command `seq` of engine e has been delivered since s (R299): a run of it without a status word has left the
engine, one with a status word is marked, and no other run changes. -/
def Answered (s t : State) (e : EngineId) (seq : Nat) : Prop :=
  let runs := (s.engine e).running
  (s.runOf e seq = none → (t.engine e).running = runs) ∧
  ∀ y, s.runOf e seq = some y →
    (y.status = none → (t.engine e).running = runs.filter (fun r => r.cmd.seq != seq)) ∧
    ∀ p, y.status = some p → (t.engine e).running = runs.map (fun r => if r.cmd.seq = seq then { r with delivered := true } else r)

/-- The interrupt of cause 0x40 + i has been accepted for context c with TVAL v, and none of its cause since (R250, R338): it is pending there,
or in the event queue of a context that is not at a boundary. -/
def State.Told (t : State) (c : Nat) (i : Fin 6) (v : Word) : Prop :=
  if (t.ctx c).atBoundary then (t.ctx c).status.ipend.getLsbD i.val = true ∧ (t.ctx c).ipendTval.get i = v
  else ⟨.cause i, v⟩ ∈ (t.ctx c).events

/-- Where command c may be taken, keeps the dirty log off, reads the ranges `rs` and no byte that it writes, and its destinations `all`
translate within the limit of R317, the engine performs the writes `ws` in order and the run reports `code` and a count of bytes. -/
def Performs (i : Instr) (s : State) (e : EngineId) (op : Nat) (c : Cmd) (rs all : List (Nat × Nat)) (ws : List (Nat × List Byte))
    (code count : Nat) : Prop :=
  let w := c.who e
  MayTake s e op c → c.clean e = true → c.dlog = false →
  (∀ r ∈ rs, s.Warm w .load r ∧ ∀ l ∈ s.places w .load r.1 r.2, l ∉ (s.cellsOf w ws).map (·.1)) →
  (∀ x ∈ ws, s.Warm w .store (x.1, x.2.length)) →
  (∃ qs, State.transAll w .store all s = (s, .ok qs) ∧ enginePages w qs ≤ 1024) →
  ∃ t, exec i s = .next t ∧ Stored s t (s.cellsOf w ws) ∧
    Took s t e c (fun r => r.done = true ∧ r.code = code ∧ r.result = BitVec.ofNat 64 count)

/-- The place to which weave step x moves byte b of row i in quad q, in a run of n rows, and the place that it comes from (R326). -/
def WStep.dstOf (x : WStep) (q n i b : Nat) : Loc :=
  .spad (coreAtSlot q x.dst) (x.doff + if x.gran = 0 then i * x.len + b else (b / x.gran * n + i) * x.gran + b % x.gran)
def WStep.srcOf (x : WStep) (q i b : Nat) : Loc := .spad (coreAtSlot q x.src) (x.soff + i * x.stride + b)

/-- Memory h' is h after the steps of a group of a run of n rows in quad q, which run at once (R326): no byte but their destinations
changes, and each destination takes a byte that some source held before the group: its own source's, where no other step of the group
writes there, as the earlier rows of its own step have left it. -/
def GroupMoved (q n : Nat) (g : List WStep) (h h' : Loc → Byte) : Prop :=
  let writes := fun (x : WStep) (l : Loc) => ∃ i < n, ∃ b < x.len, x.dstOf q n i b = l
  (∀ l : Loc, l.exists_ → (∀ x ∈ g, ¬ writes x l) → h' l = h l) ∧
  ∀ x ∈ g, ∀ i < n, ∀ b < x.len,
    (∃ y ∈ g, ∃ j < n, ∃ d < y.len, h' (x.dstOf q n i b) = h (y.srcOf q j d)) ∧
    ((∀ y ∈ g, y.src ≠ x.src → ¬ writes y (x.srcOf q i b)) → (∀ j < i, ∀ d < x.len, x.dstOf q n j d ≠ x.srcOf q i b) →
      h' (x.dstOf q n i b) = h (x.srcOf q i b)) ∧
    ((∀ y ∈ g, ∀ z ∈ g, z.src ≠ y.src → ∀ j < n, ∀ d < y.len, ¬ writes z (y.srcOf q j d)) →
      ∀ j < i, ∀ d < x.len, x.dstOf q n j d = x.srcOf q i b → h' (x.dstOf q n i b) = h' (x.dstOf q n j d))

/-- One element of the result of a collective command from the elements of the ranks in rank order, with the flags it raises (R48,
R328); `par` is BMAX's fx or BCAST's root. -/
def CollGives (op par : Nat) (col : List Nat) (v : Nat) (fl : FFlags) : Prop :=
  match op with
  | 0 => fl = 0 ∧
    if par = 0 then v ∈ col ∧ ∀ b ∈ col, b ≤ v
    else ∃ i : Nat, col[i]? = some v ∧ (∀ b ∈ col, b % 64 ≤ v % 64) ∧ ∀ j < i, ∀ b, col[j]? = some b → b % 64 ≠ v % 64
  | 1 =>
    let z := (col.map (fun b => (BitVec.ofNat 32 b).toInt)).sum
    v = (BitVec.ofInt 32 (max (-2 ^ 31) (min (2 ^ 31 - 1) z))).toNat ∧ fl = if z < -2 ^ 31 ∨ 2 ^ 31 ≤ z then 0x20 else 0
  | 2 => ∃ (n : Nat) (T : Nat → Nat → Nat),
    let add := fun (p q : Nat) =>
      let r := toFp .fp32 ⟨.rne, false, false, 0⟩ (addNum .rne (fpVal .fp32 false p) (fpVal .fp32 false q))
      (r.1, r.2 ||| sigFlag (fpVal .fp32 false p) ||| sigFlag (fpVal .fp32 false q))
    let half := fun (l : Nat) => 2 ^ (n - l - 1)
    col.length ≤ 2 ^ n ∧ (n = 0 ∨ 2 ^ (n - 1) < col.length) ∧ (∀ i < 2 ^ n, T 0 i = col.getD i 0) ∧
    (∀ l < n, ∀ i < half l, T (l + 1) i = (add (T l i) (T l (i + half l))).1) ∧ v = T n 0 ∧
    ∀ j, fl.getLsbD j = true ↔ ∃ l < n, ∃ i < half l, (add (T l i) (T l (i + half l))).2.getLsbD j = true
  | 3 => fl = 0 ∧ col[par]? = some v
  | _ => fl = 0 ∧ ∀ j, v.testBit j = col.any (·.testBit j)

end Sys2Proof.Machine
end

