-- ==== Sys2Proof/Certificates/Slice0/Obligations.lean ====
section
/-! DEFINITION. The statements for the provers, in the terms of Safety.lean. -/

open Sys2Proof Sys2Proof.Machine

/-! Scalar integer instructions. -/

/-- R121. Every ALU instruction but the divisions writes the result of its row to Ge(d) and does nothing else; CLZ, CTZ, POPC and BSWAP
are said of the bits of x and of the result. -/
def Obligations.AluWritesTableResult : Prop :=
  (∀ d a b : GReg,
  Gives (.add d a b) d (fun s => s.g a + s.g b) ∧
  Gives (.sub d a b) d (fun s => s.g a - s.g b) ∧
  Gives (.and d a b) d (fun s => s.g a &&& s.g b) ∧
  Gives (.or d a b) d (fun s => s.g a ||| s.g b) ∧
  Gives (.xor d a b) d (fun s => s.g a ^^^ s.g b) ∧
  Gives (.andn d a b) d (fun s => s.g a &&& ~~~(s.g b)) ∧
  Gives (.sll d a b) d (fun s => s.g a <<< ((s.g b).extractLsb' 0 6).toNat) ∧
  Gives (.srl d a b) d (fun s => s.g a >>> ((s.g b).extractLsb' 0 6).toNat) ∧
  Gives (.sra d a b) d (fun s => (s.g a).sshiftRight ((s.g b).extractLsb' 0 6).toNat) ∧
  Gives (.rol d a b) d (fun s => (s.g a).rotateLeft ((s.g b).extractLsb' 0 6).toNat) ∧
  Gives (.ror d a b) d (fun s => (s.g a).rotateRight ((s.g b).extractLsb' 0 6).toNat) ∧
  Gives (.slt d a b) d (fun s => if (s.g a).toInt < (s.g b).toInt then 1 else 0) ∧
  Gives (.sltu d a b) d (fun s => if (s.g a).toNat < (s.g b).toNat then 1 else 0) ∧
  Gives (.min d a b) d (fun s => BitVec.ofInt 64 (min (s.g a).toInt (s.g b).toInt)) ∧
  Gives (.max d a b) d (fun s => BitVec.ofInt 64 (max (s.g a).toInt (s.g b).toInt)) ∧
  Gives (.minu d a b) d (fun s => BitVec.ofNat 64 (min (s.g a).toNat (s.g b).toNat)) ∧
  Gives (.maxu d a b) d (fun s => BitVec.ofNat 64 (max (s.g a).toNat (s.g b).toNat)) ∧
  Gives (.mul d a b) d (fun s => BitVec.ofNat 64 ((s.g a).toNat * (s.g b).toNat)) ∧
  Gives (.mulh d a b) d (fun s => ((s.g a).signExtend 128 * (s.g b).signExtend 128).extractLsb' 64 64) ∧
  Gives (.mulhu d a b) d (fun s => ((s.g a).zeroExtend 128 * (s.g b).zeroExtend 128).extractLsb' 64 64) ∧
  Gives (.movz d a b) d (fun s => if s.g b = 0 then s.g a else s.g d) ∧
  Gives (.movn d a b) d (fun s => if s.g b ≠ 0 then s.g a else s.g d) ∧
  Gives (.addw d a b) d (fun s => ((s.g a).extractLsb' 0 32 + (s.g b).extractLsb' 0 32).signExtend 64) ∧
  Gives (.subw d a b) d (fun s => ((s.g a).extractLsb' 0 32 - (s.g b).extractLsb' 0 32).signExtend 64)) ∧
  (∀ d a : GReg,
  (∃ v : Word → Word, Gives (.clz d a) d (fun s => v (s.g a)) ∧ ∀ x, ∃ n ≤ 64, v x = BitVec.ofNat 64 n ∧
    (∀ i < n, x.getLsbD (63 - i) = false) ∧ (n < 64 → x.getLsbD (63 - n) = true)) ∧
  (∃ v : Word → Word, Gives (.ctz d a) d (fun s => v (s.g a)) ∧ ∀ x, ∃ n ≤ 64, v x = BitVec.ofNat 64 n ∧
    (∀ i < n, x.getLsbD i = false) ∧ (n < 64 → x.getLsbD n = true)) ∧
  Gives (.popc d a) d (fun s => BitVec.ofNat 64 ((List.range 64).countP (fun i => (s.g a).getLsbD i))) ∧
  (∃ v : Word → Word, Gives (.bswap d a) d (fun s => v (s.g a)) ∧
    ∀ x, ∀ k < 8, (v x).extractLsb' (8 * (7 - k)) 8 = x.extractLsb' (8 * k) 8))

/-- R122. The divisions complete for all operands: q and r with x = q·y + r, q rounded toward zero, r with the sign of x, and the
borderline cases of the table. -/
def Obligations.DivisionsRoundTowardZero : Prop := ∀ d a b : GReg,
  Gives (.div d a b) d (fun s => if s.g b = 0 then -1 else BitVec.ofInt 64 ((s.g a).toInt.tdiv (s.g b).toInt)) ∧
  Gives (.divu d a b) d (fun s => if s.g b = 0 then -1 else BitVec.ofNat 64 ((s.g a).toNat / (s.g b).toNat)) ∧
  Gives (.rem d a b) d (fun s => if s.g b = 0 then s.g a else BitVec.ofInt 64 ((s.g a).toInt.tmod (s.g b).toInt)) ∧
  Gives (.remu d a b) d (fun s => if s.g b = 0 then s.g a else BitVec.ofNat 64 ((s.g a).toNat % (s.g b).toNat))

/-- R123. The immediate instructions. -/
def Obligations.ImmediatesWriteTableResult : Prop := ∀ (d a : GReg) (i : BitVec 16) (n : BitVec 6),
  Gives (.addi d a i) d (fun s => s.g a + i.signExtend 64) ∧
  Gives (.andi d a i) d (fun s => s.g a &&& i.zeroExtend 64) ∧
  Gives (.ori d a i) d (fun s => s.g a ||| i.zeroExtend 64) ∧
  Gives (.xori d a i) d (fun s => s.g a ^^^ i.zeroExtend 64) ∧
  Gives (.slti d a i) d (fun s => if (s.g a).toInt < i.toInt then 1 else 0) ∧
  Gives (.sltiu d a i) d (fun s => if (s.g a).toNat < (i.signExtend 64).toNat then 1 else 0) ∧
  Gives (.slli d a n) d (fun s => s.g a <<< n.toNat) ∧
  Gives (.srli d a n) d (fun s => s.g a >>> n.toNat) ∧
  Gives (.srai d a n) d (fun s => (s.g a).sshiftRight n.toNat) ∧
  Gives (.rori d a n) d (fun s => (s.g a).rotateRight n.toNat) ∧
  Gives (.lih d i) d (fun _ => i.signExtend 64 <<< 16) ∧
  Gives (.addpc d i) d (fun s => s.me.pc + (i.signExtend 64 <<< 16)) ∧
  Gives (.shori d a i) d (fun s => (s.g a <<< 16) ||| i.zeroExtend 64)

/-- R43 row 1, R125, R131. The rounding scalar floating-point instructions complete for all operands with one rounding of the exact
result; their flags are added to FSTAT, and a signalling operand sets NV. A NaN operand of FADD, FSUB, FMUL, FDIV or FMA gives the
canonical NaN of the format, whatever the other operands hold, with NV where an operand is signalling and no other flag. -/
def Obligations.ScalarFloatRoundsOnce : Prop :=
  (∀ (d a b c : GReg) (sz : FpSize) (rm : ScalarRm) (np na : Bool),
  let val := fun (s : State) (r : GReg) => fpVal (sizeFmt sz) false (s.g r).toNat
  let round := fun (x : Exact) => toFp (sizeFmt sz) (scalarRounding rm) x
  let two := fun (f : Machine.Num → Machine.Num → Exact) (s : State) =>
    let r := round (f (val s a) (val s b))
    (r.1, r.2 ||| sigFlag (val s a) ||| sigFlag (val s b))
  GivesFp (.fadd d a b sz rm) d (two (addNum (scalarMode rm))) ∧
  GivesFp (.fsub d a b sz rm) d (two (fun x y => addNum (scalarMode rm) x (negNum y))) ∧
  GivesFp (.fmul d a b sz rm) d (two mulExact) ∧
  GivesFp (.fdiv d a b sz rm) d (two divExact) ∧
  GivesFp (.fsqrt d a sz rm) d (fun s => let r := round (sqrtExact (val s a)); (r.1, r.2 ||| sigFlag (val s a))) ∧
  GivesFp (.fma d a b c sz rm np na) d (fun s =>
    let z := if na then negNum (val s c) else val s c
    let r := round (fmaExact (scalarMode rm) np (val s a) (val s b) z)
    (r.1, r.2 ||| sigFlag (val s a) ||| sigFlag (val s b) ||| sigFlag (val s c)))) ∧
  (∀ (d a b c : GReg) (sz : FpSize) (rm : ScalarRm) (np na : Bool) (s : State),
  let val := fun (r : GReg) => fpVal (sizeFmt sz) false (s.g r).toNat
  let nan2 := (val a).isNan ∨ (val b).isNan
  let nan3 := (val a).isNan ∨ (val b).isNan ∨ (val c).isNan
  let quiet := fun (i : Instr) (f : FFlags) => ∃ t, exec i s = .next t ∧ t.me.fstat = s.me.fstat ||| f ∧
    t.g d = if d = 0 then 0 else BitVec.ofNat 64 (sizeFmt sz).canonNan
  let sig2 := sigFlag (val a) ||| sigFlag (val b)
  (nan2 → quiet (.fadd d a b sz rm) sig2 ∧ quiet (.fsub d a b sz rm) sig2 ∧ quiet (.fmul d a b sz rm) sig2 ∧
    quiet (.fdiv d a b sz rm) sig2) ∧
  (nan3 → quiet (.fma d a b c sz rm np na) (sig2 ||| sigFlag (val c))))

/-- R126 to R130, in the bit patterns of the operands. FMIN and FMAX return the operand that lies lower or higher, −0 below +0, the
other operand beside one NaN, and the canonical NaN for two. The compares give 0 for an unordered pair. FCLASS gives one of ten bits.
FNEG and FABS act on the sign bit, or deliver the canonical NaN so signed. FCVTI gives 0 for a NaN and the ends of INT64 for the
infinities, and otherwise the rounded integer modulo 2^64. NV is bit 0 of FSTAT and NX bit 4. FCVTF and FCVTFF round once; integers
that fit the significand and widened values convert exactly, NaNs to the canonical NaN. -/
def Obligations.ScalarFloatComparesAndConverts : Prop := ∀ (d a b : GReg) (src sz : FpSize) (rm : ScalarRm),
  let f := sizeFmt sz
  let x := fun (s : State) => (s.g a).toNat % 2 ^ f.width
  let y := fun (s : State) => (s.g b).toNat % 2 ^ f.width
  let nv := fun (c : Bool) => if c then (0x01 : FFlags) else 0
  let sig := fun (s : State) => f.sigAt (x s) || f.sigAt (y s)
  let nan := fun (s : State) => f.nanAt (x s) || f.nanAt (y s)
  let pick := fun (first : Int → Int → Bool) (s : State) =>
    if f.nanAt (x s) then (if f.nanAt (y s) then f.oneNan else y s)
    else if f.nanAt (y s) then x s
    else if first (f.placeOf (x s)) (f.placeOf (y s)) then x s else y s
  let test := fun (holds : Int → Int → Bool) (s : State) => if !nan s && holds (f.rankOf (x s)) (f.rankOf (y s)) then 1 else 0
  GivesFp (.fmin d a b sz) d (fun s => (pick (fun p q => decide (p ≤ q)) s, nv (sig s))) ∧
  GivesFp (.fmax d a b sz) d (fun s => (pick (fun p q => decide (q ≤ p)) s, nv (sig s))) ∧
  GivesFp (.fceq d a b sz) d (fun s => (test (fun p q => decide (p = q)) s, nv (sig s))) ∧
  GivesFp (.fclt d a b sz) d (fun s => (test (fun p q => decide (p < q)) s, nv (nan s))) ∧
  GivesFp (.fcle d a b sz) d (fun s => (test (fun p q => decide (p ≤ q)) s, nv (nan s))) ∧
  Gives (.fclass d a sz) d (fun s =>
    let neg := f.signOf (x s)
    let bit := if f.nanAt (x s) then (if f.sigAt (x s) then 8 else 9)
      else if f.infAt (x s) then (if neg then 0 else 7)
      else if f.magOf (x s) = 0 then (if neg then 3 else 4)
      else if f.expOf (x s) = 0 then (if neg then 2 else 5)
      else if neg then 1 else 6
    BitVec.ofNat 64 (2 ^ bit)) ∧
  Gives (.fneg d a sz) d (fun s =>
    BitVec.ofNat 64 ((if f.nanAt (x s) then f.oneNan else x s) ^^^ 2 ^ (f.width - 1))) ∧
  Gives (.fabs d a sz) d (fun s => BitVec.ofNat 64 (if f.nanAt (x s) then f.oneNan else f.magOf (x s))) ∧
  GivesFp (.fcvti d a sz rm) d (fun s =>
    let neg := f.signOf (x s)
    if f.nanAt (x s) then (0, 0x01)
    else if f.infAt (x s) then (if neg then 2 ^ 63 else 2 ^ 63 - 1, 0x01)
    else
      let n := f.sigOf (x s) * 2 ^ (f.scaleOf (x s)).toNat
      let m := 2 ^ (-f.scaleOf (x s)).toNat
      let z : Int := if neg then -(roundedMag rm neg n m : Int) else roundedMag rm neg n m
      ((z % 2 ^ 64).toNat, if -2 ^ 63 ≤ z ∧ z < 2 ^ 63 then (if n % m = 0 then 0 else 0x10) else 0x01)) ∧
  GivesFp (.fcvtf d a sz rm) d (fun s => toFp (sizeFmt sz) (scalarRounding rm) (numOfInt (s.g a).toInt).exact) ∧
  GivesFp (.fcvtff d a src sz rm) d (fun s =>
    let x := fpVal (sizeFmt src) false (s.g a).toNat
    let r := toFp (sizeFmt sz) (scalarRounding rm) x.exact
    (r.1, r.2 ||| sigFlag x)) ∧
  (∀ s : State, (s.g a).toInt.natAbs < 2 ^ (f.mbits + 1) → ∃ t r, exec (.fcvtf d a sz rm) s = .next t ∧
    t.g d = (if d = 0 then 0 else BitVec.ofNat 64 r) ∧ t.me.fstat = s.me.fstat ∧ r < 2 ^ f.width ∧
    f.signOf r = decide ((s.g a).toInt < 0) ∧ f.expOf r < 2 ^ f.ebits - 1 ∧
    f.sigOf r = (s.g a).toInt.natAbs * 2 ^ (-f.scaleOf r).toNat) ∧
  (∀ s : State,
    let g := sizeFmt src
    let w := (s.g a).toNat % 2 ^ g.width
    ∃ t r, exec (.fcvtff d a src sz rm) s = .next t ∧ t.g d = (if d = 0 then 0 else BitVec.ofNat 64 r) ∧ r < 2 ^ f.width ∧
      (g.nanAt w = true → r = f.oneNan ∧ t.me.fstat = s.me.fstat ||| nv (g.sigAt w)) ∧
      (g.infAt w = true → f.infAt r = true ∧ f.signOf r = g.signOf w ∧ t.me.fstat = s.me.fstat) ∧
      (g.mbits ≤ f.mbits → g.ebits ≤ f.ebits → g.nanAt w = false → g.infAt w = false →
        f.expOf r < 2 ^ f.ebits - 1 ∧ f.signOf r = g.signOf w ∧ t.me.fstat = s.me.fstat ∧
        f.sigOf r * 2 ^ (f.scaleOf r - g.scaleOf w).toNat = g.sigOf w * 2 ^ (g.scaleOf w - f.scaleOf r).toNat))

/-- R133, R134. Branches and jumps change the PC, JAL g1 and JALR Ge(d), and nothing else; JALR reads Ge(a) first and clears
bits [1:0] of its target; none traps. Their words are MAJ<<26 | c<<21 | a<<16 | off16, MAJ<<26 | off26 and, for JALR, format I. -/
def Obligations.BranchesAndJumpsSetPc : Prop := ∀ (c a d : GReg) (off : BitVec 16) (off26 : BitVec 26) (s : State),
  let go := fun (i : Instr) (taken : Prop) => ∃ t, exec i s = .next t ∧ OnlyMe s t ∧
    (taken → t.me = s.me.completed (s.me.pc + BitVec.ofInt 64 (4 * off.toInt))) ∧
    (¬ taken → t.me = s.me.completed (s.me.pc + 4))
  go (.beq c a off) (s.g c = s.g a) ∧
  go (.bne c a off) (s.g c ≠ s.g a) ∧
  go (.blt c a off) ((s.g c).toInt < (s.g a).toInt) ∧
  go (.bge c a off) ((s.g a).toInt ≤ (s.g c).toInt) ∧
  go (.bltu c a off) ((s.g c).toNat < (s.g a).toNat) ∧
  go (.bgeu c a off) ((s.g a).toNat ≤ (s.g c).toNat) ∧
  CompletesAs (.j off26) s s.me (s.me.pc + BitVec.ofInt 64 (4 * off26.toInt)) ∧
  (∃ t, exec (.jal off26) s = .next t ∧ OnlyMe s t ∧
    s.me.Wrote t.me 1 (s.me.pc + 4) (s.me.pc + BitVec.ofInt 64 (4 * off26.toInt))) ∧
  (∃ t, exec (.jalr d a off) s = .next t ∧ OnlyMe s t ∧
    s.me.Wrote t.me d (s.me.pc + 4) ((s.g a + BitVec.ofInt 64 off.toInt) &&& ~~~3#64)) ∧
  (let b := fun (maj : Nat) (x y : GReg) => some (BitVec.ofNat 32 (maj * 2 ^ 26 + x.val * 2 ^ 21 + y.val * 2 ^ 16 + off.toNat))
   encode (.beq c a off) = b 0x20 c a ∧ encode (.bne c a off) = b 0x21 c a ∧ encode (.blt c a off) = b 0x22 c a ∧
   encode (.bge c a off) = b 0x23 c a ∧ encode (.bltu c a off) = b 0x24 c a ∧ encode (.bgeu c a off) = b 0x25 c a ∧
   encode (.j off26) = some (BitVec.ofNat 32 (0x26 * 2 ^ 26 + off26.toNat)) ∧
   encode (.jal off26) = some (BitVec.ofNat 32 (0x27 * 2 ^ 26 + off26.toNat)) ∧ encode (.jalr d a off) = b 0x28 d a)

/-! Reset, steps, encodings, memory. -/

/-- R5, R118, R144, R213, R220, R221, R240 to R244, R253, R376, R405. The machine at power-on: every context is FREE in K mode with
interrupts off and every register of the tables at its reset value, TVEC at its region's boot vector (which is 0 by assumption 3); every
core's TCTL, TSTAT, split and queues are clear and its accumulators, panels and scale bands are 0; TIME, the
region registers and MSTATUS read 0. That every region is FREE in the region map is the model's choice (assumption 3: no region has left
reset before the first assignment). -/
def Obligations.ResetLeavesTheStatedValues : Prop :=
  (∀ c, let x := State.reset.ctx c
    x.st = .free ∧ x.status = ⟨true, false, false, false, false, false, false, false, 0⟩ ∧ x.pc = 0 ∧ (∀ r, x.getG r = 0) ∧
    x.epc = 0 ∧ x.cause = 0 ∧ x.tval = 0 ∧ x.tvec = (State.reset.region (regionOf c)).boot ∧ x.tvec = 0 ∧ (∀ n : Fin 3, x.kscr.get n = 0) ∧ x.gang = 0 ∧ x.member = 0 ∧ x.gsize = 0 ∧ x.prio = 0 ∧
    x.cntL = 0 ∧ x.cntS = 0 ∧ x.cntC = 0 ∧ x.cntT = 0 ∧ x.iret = 0 ∧ (∀ n : Fin 8, x.pmsel.get n = 0 ∧ x.pmcnt.get n = 0) ∧
    x.yDl = 0 ∧ x.yPend = false ∧ x.ydead = 0 ∧ x.ptOn = false ∧ x.ptRoot = 0 ∧ x.asid = 0 ∧ x.dlog = false ∧ x.chmask = 0 ∧
    x.vl = 0 ∧ x.es = 0 ∧ x.grp = 0 ∧ x.vstart = 0 ∧ x.vfill = 0 ∧ x.vcap = 14 ∧ x.vffe = 0 ∧ x.stripbase = 0 ∧ x.seed = 0 ∧
    x.fstat = 0 ∧ x.sb = []) ∧
  (∀ k, let x := State.reset.core k
    x.owner = 0 ∧ x.owned = false ∧ x.errCtx = 0 ∧ x.errPend = false ∧ x.tq = [] ∧ x.vq = [] ∧ x.spsize = 0 ∧ x.fenced = false ∧
    (∀ n : Fin 8, x.acc.get n = 0 ∧ x.tstat.get n = ⟨false, false, false, false, false⟩) ∧
    (∀ n : Fin 16, x.panel.get n = 0 ∧ x.band.get n = 0 ∧ x.chans.get n = [])) ∧
  (∀ r, let x := State.reset.region r; x.st = .free ∧ x.amps = 0 ∧ x.gated = 0 ∧ x.corr = 0 ∧ x.uncorr = 0 ∧ x.stale = 0 ∧ x.route = 0) ∧
  State.reset.cycles = 0 ∧ State.reset.mstatus = ⟨false, false, false, false, false⟩ ∧ State.reset.resv = [] ∧
  ∀ d : DieId, State.reset.dtemp.get d = 0

/-- R51, R55, R91, R95, R135. A step runs the decoded instruction. Where the schedule names core k, which may issue and before which no core of this cycle waits for its slot, and the slot goes to
context c, for which no interrupt is pending and whose vector queue is empty, and the word fetched at its PC decodes to i, the step is exec
of i, with what the slot adds: the cores' turn, waits that ended, the order of issue, and the count of the issue. The word fetched in K
mode without translation, with no copy in the instruction cache, is the four bytes at the PC, and the fetch fills that cache alone. (The
schedule is the model's: assumption 1.) -/
def Obligations.StepRunsTheDecodedInstruction : Prop :=
  (∀ (s y : State) (k : CoreId) (rest : List Turn) (c w : Nat) (i : Instr), s.sched = .issue k :: rest → s.turn ≤ k.val →
    ({ s with sched := rest } : State).dueIn s.turn k.val = false → (s.region (regionOfCore k.val)).st = .assigned → (s.region (regionOfCore k.val)).throttled = false → (s.core k.val).fenced = false →
    let v := (({ s with sched := rest, turn := k.val + 1 } : State).wakeCore k.val).restart k.val
    let x := v.charge k.val (some c)
    v.select k.val = some c → v.pendingCause c = none → x.fetch c = (y, .ok w) → y.vqOf c = [] →
    decode (BitVec.ofNat 32 w) = .ok i →
    step s = countIssue c (x.ctx c) (exec i { y with cur := c })) ∧
  (∀ (s : State) (c : Nat), c < 4096 → let pc := (s.ctx c).pc.toNat
    (s.ctx c).status.mode = true → (s.ctx c).ptOn = false → pc % 4 = 0 → pc / 2 ^ 36 = regionOf c →
    (s.region (regionOf c)).st = .assigned → s.firstPoison (.hbm pc) 4 = none →
    (∀ l ∈ (s.core (coreOf c)).icache, l.line ≠ lineOf pc) →
    ∃ y, s.fetch c = (y, .ok (leNat (s.bytesAt (.hbm pc) 4))) ∧ y = { s with cores := y.cores } ∧
      ∀ k, y.core k = { s.core k with icache := (y.core k).icache })

/-- R51 to R55, R60 to R80. Words written out from the encodings decode to the instructions they stand for, one of each family; words
that no encoding has, or with a field that must be 0 and is not, decode to none. -/
def Obligations.WordsDecodeToTheirInstructions : Prop :=
  decode 0x09290004#32 = .ok (.addi 9 9 4) ∧ decode 0x4CE2FFF0#32 = .ok (.ld 7 2 0xFFF0) ∧
  decode 0x71434964#32 = .ok (.amoswap 10 3 9 true true false .die) ∧ decode 0x74000026#32 = .ok (.fence false false .die false true true false) ∧
  decode 0xA4000002#32 = .ok .eret ∧ decode 0xA4003800#32 = .ok (.trap 7) ∧ decode 0xA9400041#32 = .ok (.mfs 10 0x041) ∧
  decode 0xB5230000#32 = .ok (.sendStrmCopy 9 3) ∧ decode 0xB0041980#32 = .ok (.bcpost 4 3) ∧
  decode 0xB0A6100C#32 = .ok (.gbar 5 6 2 .quad .max) ∧ decode 0xC0A49F09#32 = .ok (.setvlA 5 4 2 1 0xF0 true) ∧
  decode 0xD0886320#32 = .ok (.vfadd 4 8 12 3 1) ∧ decode 0xFA0530BE#32 = .ok (.vstpl 16 5 6 0 3 3) ∧
  decode 0xFD2294A0#32 = .ok (.tmop 2 4 5 1 2 2 true false) ∧ decode 0x04A63818#32 = .error .illegalField ∧
  decode 0x00000000#32 = .error .illegalMajor

/-- R51 to R80. Decoding and encoding agree: every well-formed instruction that has a word decodes from that word to itself, with every
operand at every value that its encoding admits. -/
def Obligations.DecodeOfEncodeIsTheInstruction : Prop := ∀ (i : Instr) (w : BitVec 32),
  wellFormed i = true → encode i = some w → decode w = .ok i

/-- The model's memory keeps its canonical form: every step, and every instruction and event whatever the state, leaves the byte stores of
a state in canonical form in that form. -/
def Obligations.EveryStepKeepsTheMemoryForm : Prop :=
  (∀ s t : State, s.memOk = true → step s = .next t → t.memOk = true) ∧
  (∀ (i : Instr) (s t : State), s.memOk = true → exec i s = .next t → t.memOk = true)

/-- The canonical form holds at reset, where every byte of HBM and of every slice reads 0 (a choice of the model: assumption 2), and two stores in that form that
read alike are equal. -/
def Obligations.MemoryFormAtResetIsCanonical : Prop :=
  State.reset.memOk = true ∧ (∀ l : Loc, l.exists_ → State.reset.reads l = 0) ∧
  ∀ m m' : Memory, Memory.wf m = true → Memory.wf m' = true → (∀ a, SMap.get 0 m a = SMap.get 0 m' a) → m = m'

/-! Scalar memory accesses. -/

/-- R244, R256, R257. In K mode with PTROOT.ON = 0 an aligned access of a context to the stack of its own region, which is assigned,
translates to the same physical address, cached, and changes no state. -/
def Obligations.PhysicalAccessReachesOwnStack : Prop := ∀ (s : State) (k : Acc) (va n : Nat),
  s.cur < 4096 → s.me.status.mode = true → s.me.ptOn = false → n ∈ [1, 2, 4, 8] → va % n = 0 →
  (s.region (regionOf s.cur)).st = .assigned → va / 2 ^ 36 = regionOf s.cur →
  s.transSpan (s.whoCtx s.cur) k va n = (s, .ok [⟨va, .hbm va, n, false, 0, 12⟩])

/-- R271, R272. Translation for a context changes only translation caches, counts of events and drawn free values: bytes, poison,
every register, and every core's registers, caches, queues and tile state are as before. -/
def Obligations.TranslationChangesOnlyItsCaches : Prop := ∀ (s : State) (w : Who) (k : Acc) (va n : Nat), w.eng = none →
  let t := (s.transSpan w k va n).1
  t = { s with ctxs := t.ctxs, cores := t.cores, fresh := t.fresh } ∧
  (∀ c, t.ctx c = { s.ctx c with pmcnt := (t.ctx c).pmcnt }) ∧
  (∀ j, t.core j = { s.core j with itlb := (t.core j).itlb, dtlb := (t.core j).dtlb, tlb2 := (t.core j).tlb2, walks := (t.core j).walks })

/-- R91, R137, R139, R140. A load whose address is aligned and translates, and whose bytes lie in the core (a scratchpad, the context's
own buffered stores, its data cache), writes them to Ge(d), sign- or zero-extended, as the context sees memory through its buffered
stores; nothing else changes. Data that the core receives as poisoned raises 0x09 with the first poisoned byte. A load whose bytes are not in the core
waits in WAIT-MISS: one of a cached page for its line, counting event 0x06 (R377); one of an uncached page or of fabric space for its data, once
the context's earlier stores to the page are performed (R265). LOAD_MISS_FILL then writes Ge(d) and completes it, or raises 0x09, or 0x08
where the region has been closed meanwhile (R391), or the fabric port has failed (R398). The bytes of fabric space lie outside the module: that each read draws a free value is the model's choice (assumption 12). -/
def Obligations.LoadsWriteMemoryAsTheContextSeesIt : Prop :=
  (∀ (d a : GReg) (imm : BitVec 16),
  let load := fun (i : Instr) (n : Nat) (sext : Bool) => ∀ (s u : State) (p : Piece) (ps : List Piece),
    let va := (s.g a + imm.signExtend 64).toNat
    va % n = 0 → s.transSpan (s.whoCtx s.cur) .load va n = (u, .ok (p :: ps)) →
    u.tileOverlaps u.cur (pieceLocs [p]) = false → u.tileFirst u.cur true [p] = false →
    ((∃ k o, p.loc = .spad k o) ∨ ((∃ pa, p.loc = .hbm pa) ∧ p.uncached = false ∧ u.loadHits u.cur p.loc n = true)) →
    let v := u.view u.cur
    let x := leNat (v.bytesAt p.loc n)
    (v.poisonAt (some (coreOf u.cur)) p.loc n = none → ∃ t, exec i s = .next t ∧ OnlyMe u t ∧
      u.me.Wrote t.me d (if sext then (BitVec.ofNat (8 * n) x).signExtend 64 else BitVec.ofNat 64 x) (u.me.pc + 4)) ∧
    (∀ j, v.poisonAt (some (coreOf u.cur)) p.loc n = some j → ∃ t, exec i s = .next t ∧
      TrapTaken u t u.cur 0x09 u.me.pc (BitVec.ofNat 64 (va + j)))
  load (.lb d a imm) 1 true ∧ load (.lh d a imm) 2 true ∧ load (.lw d a imm) 4 true ∧ load (.ld d a imm) 8 true ∧
  load (.lbu d a imm) 1 false ∧ load (.lhu d a imm) 2 false ∧ load (.lwu d a imm) 4 false) ∧
  ((∀ (d a : GReg) (imm : BitVec 16),
    let miss := fun (i : Instr) (n : Nat) (sext : Bool) => ∀ (s u : State) (p : Piece) (ps : List Piece),
      let va := (s.g a + imm.signExtend 64).toNat
      va % n = 0 → s.transSpan (s.whoCtx s.cur) .load va n = (u, .ok (p :: ps)) →
      u.tileOverlaps u.cur (pieceLocs [p]) = false → u.tileFirst u.cur true [p] = false → (∀ k o, p.loc ≠ .spad k o) →
      (p.uncached = false → u.loadHits u.cur p.loc n = false → ∃ t, exec i s = .next t ∧ OnlyMe u t ∧
        t.me = { u.me with
          st := .waitMiss, wait := .none, young := false, miss := .load d n sext va p.loc p.ent false, pmcnt := t.me.pmcnt } ∧
        ∀ j : Fin 8, let sel := u.me.pmsel.get j
          t.me.pmcnt.get j = u.me.pmcnt.get j +
            (if (sel.extractLsb' 0 8).toNat = 0x06 ∧ sel.getLsbD (if u.me.status.mode then 9 else 8) = true then 1 else 0)) ∧
      (p.uncached = true → u.me.uncachedTo p = false → ∃ t, exec i s = .next t ∧ OnlyMe u t ∧
        t.me = { u.me with st := .waitMiss, wait := .none, young := false, miss := .load d n sext va p.loc p.ent true }) ∧
      (p.uncached = true → u.me.uncachedTo p = true → ∃ t, exec i s = .next t ∧ OnlyMe u t ∧
        t.me = { u.me with st := .waitUnit, wait := .drained })
    miss (.lb d a imm) 1 true ∧ miss (.lh d a imm) 2 true ∧ miss (.lw d a imm) 4 true ∧ miss (.ld d a imm) 8 true ∧
    miss (.lbu d a imm) 1 false ∧ miss (.lhu d a imm) 2 false ∧ miss (.lwu d a imm) 4 false) ∧
  (∀ (s : State) (c : CtxId) (d : GReg) (n : Nat) (sext : Bool) (va : Nat) (l : Loc) (e : Nat),
    (s.ctx c.val).miss = .load d n sext va l e true → s.engineOwns [l] = false →
    let v := ({ s with cur := c.val } : State).view c.val
    let x := extend n sext (leNat (v.bytesAt l n))
    (s.closed (regionOf c.val) l = false → (∀ a, l ≠ .fabric a) → v.poisonAt (some (coreOf c.val)) l n = none →
      ∃ t, exec (.loadMissFill c) s = .next t ∧ OnlyCtx c.val s t ∧
        (s.ctx c.val).Wrote (t.ctx c.val) d x ((s.ctx c.val).pc + 4)) ∧
    ((∃ a, l = .fabric a) → s.closed (regionOf c.val) l = false → ∃ t, exec (.loadMissFill c) s = .next t ∧ OnlyCtx c.val { s with fresh := s.fresh + 1 } t ∧
      (s.ctx c.val).Wrote (t.ctx c.val) d x ((s.ctx c.val).pc + 4)) ∧
    (∀ j, s.closed (regionOf c.val) l = false → v.poisonAt (some (coreOf c.val)) l n = some j → ∃ t, exec (.loadMissFill c) s = .next t ∧
      TrapTaken s t c.val 0x09 (s.ctx c.val).pc (BitVec.ofNat 64 (va + j))) ∧
    (s.closed (regionOf c.val) l = true → ∃ t, exec (.loadMissFill c) s = .next t ∧
      TrapTaken s t c.val 0x08 (s.ctx c.val).pc (BitVec.ofNat 64 va))))

/-- R137, R277, R280. A misaligned scalar access raises 0x05 with its address and has no other effect: loads, stores, every atomic, and
CZERO with an address or a length that is not a multiple of 16. -/
def Obligations.MisalignedScalarAccessTraps : Prop := ∀ (s : State) (c d a b : GReg) (imm : BitVec 16) (dw q r : Bool) (sc : Scope),
  let va := s.g a + imm.signExtend 64
  let n := if dw then 8 else 4
  (va.toNat % 2 ≠ 0 → Raises (.lh d a imm) s 0x05 va ∧ Raises (.lhu d a imm) s 0x05 va ∧ Raises (.sh c a imm) s 0x05 va) ∧
  (va.toNat % 4 ≠ 0 → Raises (.lw d a imm) s 0x05 va ∧ Raises (.lwu d a imm) s 0x05 va ∧ Raises (.sw c a imm) s 0x05 va) ∧
  (va.toNat % 8 ≠ 0 → Raises (.ld d a imm) s 0x05 va ∧ Raises (.sd c a imm) s 0x05 va) ∧
  ((s.g a).toNat % n ≠ 0 →
    Raises (.lr d a dw q sc) s 0x05 (s.g a) ∧ Raises (.sc d a b dw r sc) s 0x05 (s.g a) ∧
    Raises (.amoswap d a b dw q r sc) s 0x05 (s.g a) ∧ Raises (.amoadd d a b dw q r sc) s 0x05 (s.g a) ∧
    Raises (.amoand d a b dw q r sc) s 0x05 (s.g a) ∧ Raises (.amoor d a b dw q r sc) s 0x05 (s.g a) ∧
    Raises (.amoxor d a b dw q r sc) s 0x05 (s.g a) ∧ Raises (.amomin d a b dw q r sc) s 0x05 (s.g a) ∧
    Raises (.amomax d a b dw q r sc) s 0x05 (s.g a) ∧ Raises (.amominu d a b dw q r sc) s 0x05 (s.g a) ∧
    Raises (.amomaxu d a b dw q r sc) s 0x05 (s.g a) ∧ Raises (.amocas d a b dw q r sc) s 0x05 (s.g a) ∧
    Raises (.ldacq d a dw sc) s 0x05 (s.g a) ∧ Raises (.strel a b dw sc) s 0x05 (s.g a)) ∧
  (s.g b ≠ 0 → (s.g b).toNat ≤ 65536 → (s.g a).toNat % 16 ≠ 0 ∨ (s.g b).toNat % 16 ≠ 0 → Raises (.czero a b) s 0x05 (s.g a))

/-- R139, R362. A store whose address is aligned and translates enters the store buffer behind the earlier ones, with the low bytes
of Ge(c); counter S rises where some byte is not die-local; memory does not change yet. With 8 entries it waits. -/
def Obligations.StoresEnterTheStoreBuffer : Prop := ∀ (c a : GReg) (imm : BitVec 16),
  let store := fun (i : Instr) (n : Nat) => ∀ (s u : State) (ps : List Piece),
    let va := (s.g a + imm.signExtend 64).toNat
    va % n = 0 → s.transSpan (s.whoCtx s.cur) .store va n = (u, .ok ps) → u.tileOverlaps u.cur (pieceLocs ps) = false →
    let far := anyFar (coreOf u.cur) ps
    let e : SbEntry := ⟨.write (leBytes n (u.g c).toNat), ps, far, u.me.asid.toNat, u.me.dlog && u.me.ptOn, u.issueSeq⟩
    (far = false ∨ u.me.cntS ≠ 0xFFFF) →
    (u.me.sb.length < 8 → ∃ t, exec i s = .next t ∧ OnlyMe u t ∧
      t.me = ({ u.me with sb := u.me.sb ++ [e], cntS := if far then u.me.cntS + 1 else u.me.cntS } : Ctx).completed (u.me.pc + 4)) ∧
    (8 ≤ u.me.sb.length → ∃ t, exec i s = .next t ∧ OnlyMe u t ∧ t.me = { u.me with st := .waitUnit, wait := .sbFull })
  store (.sb c a imm) 1 ∧ store (.sh c a imm) 2 ∧ store (.sw c a imm) 4 ∧ store (.sd c a imm) 8

/-- R4, R139, R274, R275, R280, R281, R356, R362. STORE_PERFORM: the oldest buffered entry is performed and leaves the buffer; one that is not die-local
awaits its acknowledgement; no other context and no other register changes. A write's bytes hold its data, but for the "—" bits of a
dirty-log control, which read 0 (R4, R356); every other byte reads as before. Under DLOG the first write through a TLB entry also puts its page into the ring of its region's dirty log, counts HEAD and sets
the logged flag of the entry's copies; under ALL-DIRTY it does neither, and leaves the flag clear (R275). CZERO zeroes its bytes, line by line: each with a request of its own (assumption 44). CCLEAN
leaves every copy clean and every byte as it is; CFLUSH also removes the copies, the region cache's too; CINV removes them and gives
each byte its HBM value, poison included. STORE_ACK lowers counter S for one acknowledged store and changes nothing else. -/
def Obligations.StorePerformWritesItsBytesOnly : Prop :=
  (∀ (s : State) (c : CtxId) (e : SbEntry) (rest : List SbEntry), (s.ctx c.val).sb = e :: rest →
  let part := e.split.1
  let locs := pieceLocs part.pieces
  let w := e.who c.val
  s.owned c.val part = true → s.heldBack (some c.val) (s.dlogLocs w part.pieces ++ locs) = false → s.engineOwns locs = false →
  s.tileEarlier c.val part = false → s.closedPiece (regionOf c.val) part.pieces = none → locs.Nodup →
  (∀ l ∈ locs, l.exists_ ∧ ∀ pa, l = .hbm pa → s.chanDown pa = false) →
  let gone := fun (t : State) => (∀ j, j ≠ c.val → t.ctx j = s.ctx j) ∧
    t.ctx c.val = { s.ctx c.val with
      sb := rest, acksDue := if e.faraway then (s.ctx c.val).acksDue + 1 else (s.ctx c.val).acksDue
      pmcnt := (t.ctx c.val).pmcnt }
  let stores := fun (t : State) (cells : List (Loc × Byte)) => (∀ z ∈ cells, t.reads z.1 = s.kept z.1 z.2) ∧
    ∀ l : Loc, l.exists_ → l ∉ cells.map (·.1) → t.reads l = s.reads l
  (∀ data, e.kind = .write data → e.dlog = false → data.length = locs.length →
    ∃ t, exec (.storePerform c) s = .next t ∧ gone t ∧ stores t (locs.zip data)) ∧
  (∀ data p, e.kind = .write data → e.dlog = true → data.length = locs.length → e.pieces = [p] → p.ent ≠ 0 →
    (s.tlbOf w).any (fun x => x.id == p.ent && x.logged) = false →
    let r := s.region (regionOf c.val)
    let ctl := r.rta + 0x2000
    let entry := p.va / 2 ^ p.log * 2 ^ p.log / 2 ^ 12 % 2 ^ 45 + dlogSize p.log * 2 ^ 45 + e.asid * 2 ^ 48
    let log := spread (.hbm (r.rta + 0x80000 + 8 * (r.dlogHead.toNat % 65536))) (leBytes 8 entry) ++
      spread (.hbm ctl) (leBytes 8 (r.dlogHead + 1).toNat)
    s.hbmWord (ctl + 16) % 2 = 0 → (r.dlogHead.toNat + 2 ^ 32 - s.hbmWord (ctl + 8) % 2 ^ 32) % 2 ^ 32 ≠ 65536 →
    ((locs.zip data ++ log).map (·.1)).Nodup → (∀ z ∈ log, z.1.exists_ ∧ ∀ pa, z.1 = .hbm pa → s.chanDown pa = false) →
    ∃ t, exec (.storePerform c) s = .next t ∧ gone t ∧ stores t (locs.zip data ++ log) ∧
      (t.region (regionOf c.val)).dlogHead = r.dlogHead + 1 ∧ ∀ x ∈ t.tlbOf w, x.id = p.ent → x.logged = true) ∧
  (∀ data p, e.kind = .write data → e.dlog = true → data.length = locs.length → e.pieces = [p] → p.ent ≠ 0 →
    (s.tlbOf w).any (fun x => x.id == p.ent && x.logged) = false →
    let r := s.region (regionOf c.val)
    s.hbmWord (r.rta + 0x2010) % 2 = 1 →
    ∃ t, exec (.storePerform c) s = .next t ∧ gone t ∧ stores t (locs.zip data) ∧
      (t.region (regionOf c.val)).dlogHead = r.dlogHead ∧ t.tlbOf w = s.tlbOf w) ∧
  (e.kind = .zero → e.dlog = false → ∃ t, exec (.storePerform c) s = .next t ∧ stores t (locs.map (fun l => (l, 0))) ∧
    match e.split.2 with
    | none => gone t
    | some later => later.kind = .zero ∧ pieceLocs e.pieces = locs ++ pieceLocs later.pieces ∧ (∀ j, j ≠ c.val → t.ctx j = s.ctx j) ∧
      t.ctx c.val = { s.ctx c.val with sb := later :: rest, pmcnt := (t.ctx c.val).pmcnt }) ∧
  (∀ p pa line span, e.dlog = false → e.pieces = [p] → p.loc = .hbm pa → p.uncached = false → hbmLines [p] = [(line, span)] →
    let dry := fun (t : State) => ∀ a, Loc.hbm a ∈ locs → SMap.get none t.hbmOld a = none
    let bare := fun (t : State) => (∀ k, ((t.core k).line line).all &&& span = 0) ∧
      ∀ x ∈ (t.core (homeCore (line * 128))).rcache, x.1 = line → x.2 &&& span = 0
    let tracked := (s.dirOf line).isSome = true ∧ (∀ k, ∀ n ∈ (s.core k).notices, n.1 ≠ line) ∧
      ∀ k, ((s.core k).line line).all &&& span ≠ 0 → k ∈ s.targets line span 1024
    (e.kind = .clean → ∃ t, exec (.storePerform c) s = .next t ∧ gone t ∧ SameBytes s t ∧ dry t ∧
      ∀ k, let x := (s.core k).line line
        (t.core k).line line = { x with m := x.m &&& ~~~span, e := x.e ||| (x.m &&& span) }) ∧
    (e.kind = .flush → tracked → ∃ t, exec (.storePerform c) s = .next t ∧ gone t ∧ SameBytes s t ∧ dry t ∧ bare t) ∧
    (e.kind = .inv → tracked → ∃ t, exec (.storePerform c) s = .next t ∧ gone t ∧ dry t ∧ bare t ∧
      (∀ l : Loc, l.exists_ → t.reads l = match l with
        | .hbm a => if Loc.hbm a ∈ locs then (match SMap.get none s.hbmOld a with | some x => x.1 | none => s.reads l) else s.reads l
        | _ => s.reads l) ∧
      ∀ a x, Loc.hbm a ∈ locs → SMap.get none s.hbmOld a = some x →
        (∀ b y, b / 16 = a / 16 → SMap.get none s.hbmOld b = some y → y.2 = x.2) → t.poisoned (.hbm a) = x.2))) ∧
  (∀ (s : State) (c : CtxId), 0 < (s.ctx c.val).acksDue →
  ∃ t, exec (.storeAck c) s = .next t ∧ OnlyCtx c.val s t ∧
    t.ctx c.val = { s.ctx c.val with acksDue := (s.ctx c.val).acksDue - 1, cntS := (s.ctx c.val).cntS - 1 })

/-- R277, R278. A read-modify-write atomic that passes its checks writes the new value at once and no other byte, and waits in
WAIT-MISS for the old value, sign-extended from 32 bits where it has 32; AMOCAS writes only where the old value equals Ge(d). -/
def Obligations.AtomicsReadModifyWrite : Prop := ∀ (d a b : GReg) (dw q r : Bool) (sc : Scope),
  let n := if dw then 8 else 4
  let amo := fun (i : Instr) (f : State → BitVec (8 * n) → BitVec (8 * n) → Option (BitVec (8 * n))) =>
    ∀ (s u : State) (p : Piece) (ps : List Piece), let va := (s.g a).toNat
      va % n = 0 → s.transSpan (s.whoCtx s.cur) .rw va n = (u, .ok (p :: ps)) → p.len = n →
      (∀ i < n, (p.loc.plus i).exists_ ∧ ∀ pa, p.loc.plus i = .hbm pa → u.chanDown pa = false) →
      u.me.sb = [] → u.tileOverlaps u.cur (pieceLocs [p]) = false → u.tileFirst u.cur false [p] = false → u.tileOpen u.cur = false →
      (r = true → u.tileMemory u.cur = false) → u.engineOwns (pieceLocs [p]) = false →
      u.heldBack (some u.cur) (pieceLocs [p]) = false → u.firstPoison p.loc n = none → u.me.dlog = false →
      let old := BitVec.ofNat (8 * n) (leNat (u.bytesAt p.loc n))
      ∃ t, exec i s = .next t ∧
        (match f u old ((u.g b).setWidth (8 * n)) with
          | none => SameBytes u t
          | some x => t.bytesAt p.loc n = u.keptAll p.loc (leBytes n x.toNat) ∧ SameBytesBut u t p.loc n) ∧
        (∀ j, j ≠ s.cur → t.ctx j = u.ctx j) ∧
        t.ctx s.cur = { u.me with st := .waitMiss, wait := .none, young := false, miss := .atom d (old.signExtend 64) }
  amo (.amoswap d a b dw q r sc) (fun _ _ v => some v) ∧
  amo (.amoadd d a b dw q r sc) (fun _ x v => some (x + v)) ∧
  amo (.amoand d a b dw q r sc) (fun _ x v => some (x &&& v)) ∧
  amo (.amoor d a b dw q r sc) (fun _ x v => some (x ||| v)) ∧
  amo (.amoxor d a b dw q r sc) (fun _ x v => some (x ^^^ v)) ∧
  amo (.amomin d a b dw q r sc) (fun _ x v => some (if x.toInt < v.toInt then x else v)) ∧
  amo (.amomax d a b dw q r sc) (fun _ x v => some (if x.toInt < v.toInt then v else x)) ∧
  amo (.amominu d a b dw q r sc) (fun _ x v => some (if x.toNat < v.toNat then x else v)) ∧
  amo (.amomaxu d a b dw q r sc) (fun _ x v => some (if x.toNat < v.toNat then v else x)) ∧
  amo (.amocas d a b dw q r sc) (fun u x v => if x = (u.g d).setWidth (8 * n) then some v else none)

/-- R277, R279, R305, R338, R350. LR waits for its value and its context then holds the one reservation, for exactly the bytes read; SC writes
Ge(b) and gives 0 where its context holds a valid reservation for exactly those bytes, and otherwise writes nothing and gives 1;
either way its context holds no reservation afterwards. Another context's hold delays it only where it would write after its own hold has
ended (assumption 82). ATOMIC_COMPLETE writes the awaited result to Ge(d), and the context then acts on the events held for it (R338). RESERVATION_EXPIRE takes
away a reservation 4,096 cycles old; RESERVATION_HOLD_END ends the hold on others' writes 128 cycles after the LR and leaves the
reservation, and neither changes anything else. -/
def Obligations.LoadReserveStoreConditional : Prop :=
  ((∀ (s u : State) (d a : GReg) (dw q : Bool) (sc : Scope) (p : Piece) (ps : List Piece) (pa : Nat), let n := if dw then 8 else 4
    (s.g a).toNat % n = 0 → s.transSpan (s.whoCtx s.cur) .load (s.g a).toNat n = (u, .ok (p :: ps)) → p.loc = .hbm pa →
    u.physCheck (u.whoCtx u.cur) .load pa ≠ .ok true → u.me.sb = [] → u.tileOverlaps u.cur (pieceLocs [p]) = false →
    u.tileFirst u.cur true [p] = false → u.engineOwns (pieceLocs [p]) = false →
    u.firstPoison p.loc n = none →
    ∃ t, exec (.lr d a dw q sc) s = .next t ∧ SameBytes u t ∧
      t.ctx s.cur = { u.me with
        st := .waitMiss, wait := .none, young := false, miss := .atom d (extend n (n == 4) (leNat (u.bytesAt p.loc n))) } ∧
      (∃ e, t.resv.filter (fun x => x.2.ctx == s.cur) = [(homeCore pa, e)] ∧ e.pa = pa ∧ e.dword = dw ∧ e.since = u.cycles ∧
        e.inc = (u.region (regionOf s.cur)).inc)) ∧
  (∀ (s u : State) (d a b : GReg) (dw r : Bool) (sc : Scope) (p : Piece) (ps : List Piece) (pa : Nat), let n := if dw then 8 else 4
    (s.g a).toNat % n = 0 → s.transSpan (s.whoCtx s.cur) .store (s.g a).toNat n = (u, .ok (p :: ps)) → p.loc = .hbm pa → p.len = n →
    (∀ i < n, pa + i < 2 ^ 41 ∧ u.chanDown (pa + i) = false) →
    u.physCheck (u.whoCtx u.cur) .store pa ≠ .ok true → u.me.sb = [] → u.tileOverlaps u.cur (pieceLocs [p]) = false →
    u.tileFirst u.cur false [p] = false → u.tileOpen u.cur = false → u.engineOwns (pieceLocs [p]) = false →
    (r = true → u.tileMemory u.cur = false) → u.me.dlog = false →
    let ok := u.resv.any (fun e => decide (e.2.ctx = u.cur ∧ e.2.pa = pa ∧ e.2.dword = dw ∧
      e.2.inc = (u.region (regionOf u.cur)).inc ∧ u.cycles < e.2.since + 4096))
    let late := ok && !u.holds u.cur && u.heldBack (some u.cur) (pieceLocs [p])
    (late = true → ∃ t, exec (.sc d a b dw r sc) s = .next t ∧ OnlyMe u t ∧ t.me = { u.me with st := .waitUnit, wait := .engineLine }) ∧
    (late = false → ∃ t, exec (.sc d a b dw r sc) s = .next t ∧
      (if ok then t.bytesAt (.hbm pa) n = u.keptAll (.hbm pa) (leBytes n (u.g b).toNat) ∧ SameBytesBut u t (.hbm pa) n else SameBytes u t) ∧
      t.resv.filter (fun x => x.2.ctx == s.cur) = [] ∧
      t.ctx s.cur = { u.me with st := .waitMiss, wait := .none, young := false, miss := .atom d (if ok then 0 else 1) })) ∧
  (∀ (s : State) (c : CtxId) (d : GReg) (x : Word), (s.ctx c.val).miss = .atom d x →
    ∃ t y, exec (.atomicComplete c) s = .next t ∧ OnlyCtx c.val s t ∧ (s.ctx c.val).Wrote y d x ((s.ctx c.val).pc + 4) ∧
      t.ctx c.val = y.settled)) ∧
  (∀ (s : State) (c : CtxId) (h : Nat) (e : Resv), (h, e) ∈ s.resv → e.ctx = c.val →
  (e.since + 4096 ≤ s.cycles → ∃ t, exec (.reservationExpire c) s = .next t ∧ t = { s with resv := t.resv } ∧
    t.resv = s.resv.filter (fun x => x.2.ctx != c.val)) ∧
  (e.since + 128 ≤ s.cycles → e.hold = true → ∃ t, exec (.reservationHoldEnd c) s = .next t ∧ t = { s with resv := t.resv } ∧
    t.resv = s.resv.map (fun x => if x.2.ctx = c.val then (x.1, { x.2 with hold := false }) else x)))

/-- R277, R291. LDACQ waits for the value at its address and changes no byte; STREL, once the context's buffered stores are performed,
writes its bytes at once and completes. -/
def Obligations.AcquireLoadReleaseStore : Prop :=
  (∀ (s u : State) (d a : GReg) (dw : Bool) (sc : Scope) (p : Piece) (ps : List Piece), let n := if dw then 8 else 4
    (s.g a).toNat % n = 0 → s.transSpan (s.whoCtx s.cur) .load (s.g a).toNat n = (u, .ok (p :: ps)) → (p.loc.plus 0).exists_ →
    u.me.sb = [] → u.tileOverlaps u.cur (pieceLocs [p]) = false → u.tileFirst u.cur true [p] = false →
    u.engineOwns (pieceLocs [p]) = false → u.poisonAt (some (coreOf u.cur)) p.loc n = none →
    ∃ t, exec (.ldacq d a dw sc) s = .next t ∧ SameBytes u t ∧ (∀ j, j ≠ s.cur → t.ctx j = u.ctx j) ∧
      t.ctx s.cur = { u.me with
        st := .waitMiss, wait := .none, young := false, miss := .atom d (extend n (n == 4) (leNat (u.bytesAt p.loc n)))
        pmcnt := (t.ctx s.cur).pmcnt }) ∧
  (∀ (s u : State) (a b : GReg) (dw : Bool) (sc : Scope) (p : Piece) (ps : List Piece), let n := if dw then 8 else 4
    (s.g a).toNat % n = 0 → s.transSpan (s.whoCtx s.cur) .store (s.g a).toNat n = (u, .ok (p :: ps)) → p.len = n →
    (∀ i < n, (p.loc.plus i).exists_ ∧ ∀ pa, p.loc.plus i = .hbm pa → u.chanDown pa = false) → u.me.dlog = false →
    u.tileOverlaps u.cur (pieceLocs [p]) = false → u.tileFirst u.cur false [p] = false → u.tileMemory u.cur = false →
    u.engineOwns (pieceLocs [p]) = false → u.heldBack (some u.cur) (pieceLocs [p]) = false →
    (u.me.sb = [] → ∃ t, exec (.strel a b dw sc) s = .next t ∧ t.bytesAt p.loc n = u.keptAll p.loc (leBytes n (u.g b).toNat) ∧
      SameBytesBut u t p.loc n ∧ (∀ j, j ≠ s.cur → t.ctx j = u.ctx j) ∧
      t.ctx s.cur = { u.me.completed (u.me.pc + 4) with pmcnt := (t.ctx s.cur).pmcnt }) ∧
    (u.me.sb ≠ [] → ∃ t, exec (.strel a b dw sc) s = .next t ∧ OnlyMe u t ∧ t.me = { u.me with st := .waitUnit, wait := .drained }))

/-- R280, R281. The span operations on a span of at most 65,536 bytes that translates enter the store buffer as one entry over its
whole sectors; an empty span completes without effect; a longer one raises 0x02 with the word; CINV in U mode raises 0x04. -/
def Obligations.SpanOperationsEnterTheStoreBuffer : Prop := ∀ (a b : GReg),
  let span := fun (i : Instr) (w : Nat) (k : Acc) (kind : SbKind) (kmode align : Bool) => ∀ (s : State),
    (kmode = true → s.me.status.mode = true) →
    let lo := (s.g a).toNat / 16 * 16
    let n := ((s.g a).toNat + (s.g b).toNat + 15) / 16 * 16 - lo
    ((s.g b) = 0 → CompletesAs i s s.me (s.me.pc + 4)) ∧
    (65536 < (s.g b).toNat → Raises i s 0x02 (BitVec.ofNat 64 w)) ∧
    (∀ (u : State) (ps : List Piece), s.g b ≠ 0 → (s.g b).toNat ≤ 65536 →
      (align = true → (s.g a).toNat % 16 = 0 ∧ (s.g b).toNat % 16 = 0) →
      s.transSpan (s.whoCtx s.cur) k lo n = (u, .ok ps) → u.tileOverlaps u.cur (pieceLocs ps) = false →
      u.me.sb.length < 8 → (anyFar (coreOf u.cur) ps = false ∨ u.me.cntS ≠ 0xFFFF) →
      let far := anyFar (coreOf u.cur) ps
      let e : SbEntry := ⟨kind, ps, far, u.me.asid.toNat, u.me.dlog && u.me.ptOn, u.issueSeq⟩
      ∃ t, exec i s = .next t ∧ OnlyMe u t ∧
        t.me = ({ u.me with sb := u.me.sb ++ [e], cntS := if far then u.me.cntS + 1 else u.me.cntS } : Ctx).completed (u.me.pc + 4))
  span (.cinv a b) (wordCinv a b) .store .inv true false ∧
  span (.cflush a b) (wordCflush a b) .load .flush false false ∧
  span (.cclean a b) (wordCclean a b) .load .clean false false ∧
  span (.czero a b) (wordCzero a b) .store .zero false true ∧
  (∀ s : State, s.me.status.mode = false → Raises (.cinv a b) s 0x04 (BitVec.ofNat 64 (wordCinv a b)))

/-- R280. A prefetch completes whatever its span translates to, and changes no byte and no register but the PC; IFLUSH takes the lines
of its span out of the instruction cache. Spans longer than 65,536 bytes raise 0x02, of the prefetches too, although R280 also says
that those never trap: that is the model's choice (assumption 52). -/
def Obligations.PrefetchAndIflushComplete : Prop := ∀ (s : State) (a b : GReg),
  let lo := (s.g a).toNat / 16 * 16
  let n := ((s.g a).toNat + (s.g b).toNat + 15) / 16 * 16 - lo
  let hint := fun (i : Instr) (w : Nat) =>
    ((s.g b).toNat ≤ 65536 → ∃ t, exec i s = .next t ∧ SameBytes { s with fresh := t.fresh } t ∧ (∀ j, j ≠ s.cur → t.ctx j = s.ctx j) ∧
      t.ctx s.cur = { s.me.completed (s.me.pc + 4) with pmcnt := (t.ctx s.cur).pmcnt }) ∧
    (65536 < (s.g b).toNat → Raises i s 0x02 (BitVec.ofNat 64 w))
  hint (.cpfr a b) (wordCpfr a b) ∧ hint (.cpfw a b) (wordCpfw a b) ∧
  (s.g b = 0 → CompletesAs (.iflush a b) s s.me (s.me.pc + 4)) ∧
  (65536 < (s.g b).toNat → Raises (.iflush a b) s 0x02 (BitVec.ofNat 64 (wordIflush a b))) ∧
  (∀ (u : State) (ps : List Piece), s.g b ≠ 0 → (s.g b).toNat ≤ 65536 → s.transSpan (s.whoCtx s.cur) .either lo n = (u, .ok ps) →
    ∃ t, exec (.iflush a b) s = .next t ∧ t = { u with ctxs := t.ctxs, cores := t.cores } ∧ t.me = u.me.completed (u.me.pc + 4) ∧
      (t.core (coreOf u.cur)).icache =
        (u.core (coreOf u.cur)).icache.filter (fun l => !((cachedLines ps).map (·.1)).contains l.line))

/-- R266, R281, R293 to R295, as assumption 17 reads them where they leave open what counts as outstanding; the scope and the later
kinds change nothing, and a vector access has been performed before a FENCE of its context issues (R94). FENCE completes where nothing that it names is outstanding (stores for ps or ifetch: the store buffer, the
acknowledgements and the stores of the tile unit; loads of the tile unit for pl; engine commands for eng), clears the core's
instruction cache for ifetch, and changes nothing else; otherwise it waits in WAIT-UNIT. -/
def Obligations.FenceWaitsForWhatItNames : Prop := ∀ (s : State) (ifetch eng pl ps ll ls : Bool) (sc : Scope),
  let tile := (s.core (coreOf s.cur)).tq.filter (fun e => e.ctx == s.cur)
  let stores := s.me.sb ≠ [] ∨ s.me.acksDue ≠ 0 ∨ ∃ e ∈ tile, e.op.stores = true
  let loads := ∃ e ∈ tile, e.pieces ≠ [] ∧ e.op.stores = false
  let outstanding := (pl = true ∧ loads) ∨ ((ps = true ∨ ifetch = true) ∧ stores) ∨
    (eng = true ∧ (if ps then s.cmdsOpen s.cur else s.linesOpen s.cur) = true)
  (outstanding → Waits (.fence ifetch eng sc pl ps ll ls) s .waitUnit .fence) ∧
  (¬ outstanding → ∃ t, exec (.fence ifetch eng sc pl ps ll ls) s = .next t ∧ t = { s with ctxs := t.ctxs, cores := t.cores } ∧
    (∀ j, j ≠ s.cur → t.ctx j = s.ctx j) ∧ t.me = s.me.completed (s.me.pc + 4) ∧
    (∀ k, t.core k = if ifetch = true ∧ k = coreOf s.cur then { s.core k with icache := [] } else s.core k))

/-! System instructions and registers, traps, interrupts. -/

/-- R246, R248, R249. TRAP and BRK take their traps; ERET in K mode restores PC, MODE and IE and changes nothing else; in U mode it
raises 0x04. -/
def Obligations.TrapBreakAndReturn : Prop := ∀ (s : State) (code : BitVec 5),
  Raises (.trap code) s 0x0E (code.zeroExtend 64) ∧
  Raises .brk s 0x0D 0 ∧
  (s.me.status.mode = true → CompletesAs .eret s
    { s.me with status := { s.me.status with mode := s.me.status.pmode, ie := s.me.status.pie } } s.me.epc) ∧
  (s.me.status.mode = false → Raises .eret s 0x04 (BitVec.ofNat 64 wordEret))

/-- R91, R96, R251. WFI with an event pending only completes; otherwise the context becomes FREE (K mode, no gang, counters 0, no
vector instruction left) or is parked at the instruction after it; one that would become FREE first waits for its vector instructions, which is the model's choice
(assumption 59) and no rule of the spec. YIELD completes and lets the other contexts go first. -/
def Obligations.WaitForInterruptAndYield : Prop := ∀ s : State,
  let x := s.me
  let pending := x.status.ipend ≠ 0 ∨
    ((s.core (coreOf s.cur)).errPend = true ∧ (s.core (coreOf s.cur)).errCtx.toNat = s.cur % 4)
  let idle := x.status.mode = true ∧ x.gang = 0 ∧ x.cntL = 0 ∧ x.cntS = 0 ∧ x.cntC = 0 ∧ x.cntT = 0
  (pending → CompletesAs .wfi s x (x.pc + 4)) ∧
  (¬ pending → idle → s.vqOf s.cur = [] → ∃ t, exec .wfi s = .next t ∧ OnlyMe s t ∧
    t.me = { x.completed (x.pc + 4) with st := .free, lastIssue := 0 }) ∧
  (¬ pending → idle → s.vqOf s.cur ≠ [] → Waits .wfi s .waitUnit .vecDone) ∧
  (¬ pending → ¬ idle → ∃ t, exec .wfi s = .next t ∧ OnlyMe s t ∧
    t.me = { x with st := .parked, wait := .none, park := .wfi, young := false, pc := x.pc + 4 }) ∧
  (∃ t, exec .yield s = .next t ∧ OnlyMe s t ∧ t.me = { x.completed (x.pc + 4) with st := .yielded, yieldedAt := s.cycles })

/-- R252, R273. In K mode, with no store of its own outstanding, TLBINV removes the entries that match its operands from the TLBs of
every core of its island in its scope, leaving those that are pinned marked as removed, keeps a note of those that a buffered store or
a missed load still uses, and likewise from the translation caches of the engines that lie with those cores; it touches no other core and
nothing else of an engine, and memory and every context's registers stay. TLBSYNC waits while a pin on an entry so removed remains. Both raise 0x04 in U mode. -/
def Obligations.TranslationInvalidation : Prop := ∀ (s : State) (a b : GReg) (sc : Scope),
  let va := (s.g a).toNat
  let asid := if (s.g b).getLsbD 16 then none else some ((s.g b).extractLsb' 0 16).toNat
  let reached := fun (k : Nat) => s.islandOf (regionOfCore k) = s.islandOf (regionOf s.cur) ∧ k ∈ coresIn sc (coreOf s.cur)
  let dropped := fun (l l' : List TlbEnt) =>
    (∀ e ∈ l', e.matches va asid = true → 0 < e.pins ∧ s.cur ∈ e.removed) ∧
    l'.filter (fun e => !e.matches va asid) = l.filter (fun e => !e.matches va asid)
  (s.me.status.mode = true → s.me.sb = [] → s.tileStores s.cur = false →
    ∃ t, exec (.tlbinv a b sc) s = .next t ∧
      t = { s with ctxs := t.ctxs, cores := t.cores, quads := t.quads, regions := t.regions } ∧
      (∀ j, j ≠ s.cur → t.ctx j = s.ctx j) ∧ t.me = s.me.completed (s.me.pc + 4) ∧
      (∀ k, ¬ reached k → t.core k = s.core k) ∧
      (∀ k, reached k →
        t.core k = { s.core k with
          itlb := (s.core k).itlb.filter (fun e => !e.matches va asid), dtlb := (s.core k).dtlb.filter (fun e => !e.matches va asid)
          tlb2 := (t.core k).tlb2, gone := (t.core k).gone, walks := (t.core k).walks
          stream := { (s.core k).stream with tlb := (t.core k).stream.tlb } } ∧
        (∀ e ∈ (s.core k).itlb ++ (s.core k).dtlb ++ (s.core k).tlb2, e.matches va asid = true → s.usesEnt k e.id = true →
          (e.id, s.cur) ∈ (t.core k).gone) ∧
        (∀ e ∈ (t.core k).walks, e.matches va asid = false) ∧
        dropped (s.core k).tlb2 (t.core k).tlb2 ∧ dropped (s.core k).stream.tlb (t.core k).stream.tlb) ∧
      (∀ q, let x := s.quad q; let y := t.quad q
        y = { x with weave := { x.weave with tlb := y.weave.tlb }, decomp := { x.decomp with tlb := y.decomp.tlb } } ∧
        (sc ≠ .core ∧ reached (coreAtSlot q 0) → dropped x.weave.tlb y.weave.tlb ∧ dropped x.decomp.tlb y.decomp.tlb) ∧
        (¬ (sc ≠ .core ∧ reached (coreAtSlot q 0)) → y = x)) ∧
      (∀ r, let x := s.region r; let y := t.region r
        y = { x with
          coll := { x.coll with tlb := y.coll.tlb }, tend := { x.tend with tlb := y.tend.tlb }, lnch := { x.lnch with tlb := y.lnch.tlb } } ∧
        ((∃ k ∈ coresOfRegion r, reached k) →
          dropped x.coll.tlb y.coll.tlb ∧ dropped x.tend.tlb y.tend.tlb ∧ dropped x.lnch.tlb y.lnch.tlb) ∧
        ((∀ k ∈ coresOfRegion r, ¬ reached k) → y = x))) ∧
  (s.me.status.mode = true → s.me.sb ≠ [] → Waits (.tlbinv a b sc) s .waitUnit .drained) ∧
  (s.me.status.mode = true → s.pinsLeft s.cur = false → CompletesAs .tlbsync s s.me (s.me.pc + 4)) ∧
  (s.me.status.mode = true → s.pinsLeft s.cur = true → Waits .tlbsync s .waitUnit .pins) ∧
  (s.me.status.mode = false → Raises (.tlbinv a b sc) s 0x04 (BitVec.ofNat 64 (wordTlbinv a b sc)) ∧
    Raises .tlbsync s 0x04 (BitVec.ofNat 64 wordTlbsync))

/-- R145, R221, R239 to R244. MFS in K mode reads every system register of the map, and in U mode those that the map leaves open to it,
TSTAT for the owner of the tile unit alone, and with 0x0B otherwise; the others raise 0x04 in U mode; an unassigned number raises 0x01 in
both modes. -/
def Obligations.SystemRegisterReads : Prop := ∀ (d : GReg) (s : State),
  let x := s.me
  let k := s.core (coreOf s.cur)
  let owns := x.status.ten = true ∧ k.owned = true ∧ k.owner.toNat = s.cur % 4
  let open_ := fun (num : BitVec 12) =>
    num ∈ [0x008#12, 0x009#12, 0x00A#12, 0x00B#12, 0x010#12, 0x011#12, 0x012#12, 0x013#12, 0x014#12, 0x015#12, 0x016#12, 0x018#12, 0x019#12,
      0x01A#12, 0x030#12, 0x031#12, 0x032#12, 0x033#12, 0x041#12, 0x060#12, 0x061#12, 0x062#12, 0x081#12] ∨
    (0x078 ≤ num.toNat ∧ num.toNat ≤ 0x07F) ∨ (num = 0x021 ∧ owns)
  let reads := fun (num : BitVec 12) (v : Word) => x.status.mode = true ∨ open_ num →
    ∃ t, exec (.mfs d num) s = .next t ∧ OnlyMe s t ∧ x.Wrote t.me d v (x.pc + 4)
  (s.vqOf s.cur = [] →
    (∃ v, reads 0x000 v ∧ v.getLsbD 0 = x.status.mode ∧ v.getLsbD 1 = x.status.ie ∧ v.getLsbD 2 = x.status.pie ∧
      v.getLsbD 3 = x.status.pmode ∧ v.getLsbD 4 = x.status.ven ∧ v.getLsbD 5 = x.status.vd ∧ v.getLsbD 6 = x.status.ten ∧
      v.getLsbD 7 = x.status.ye ∧ v.extractLsb' 8 8 = 0 ∧ v.extractLsb' 16 6 = x.status.ipend ∧ v.extractLsb' 22 42 = 0) ∧
    reads 0x001 x.epc ∧ reads 0x002 (x.cause.zeroExtend 64) ∧ reads 0x003 x.tval ∧ reads 0x004 x.tvec ∧
    reads 0x005 (x.kscr.get 0) ∧ reads 0x006 (x.kscr.get 1) ∧ reads 0x007 (x.kscr.get 2) ∧
    reads 0x008 (BitVec.ofNat 64 s.cur) ∧ reads 0x009 (x.gang.zeroExtend 64) ∧ reads 0x00A (x.member.zeroExtend 64) ∧
    reads 0x00B (x.gsize.zeroExtend 64) ∧ reads 0x00C (x.prio.zeroExtend 64) ∧ reads 0x010 (x.vl.zeroExtend 64) ∧
    reads 0x011 ((x.grp ++ x.es).zeroExtend 64) ∧ reads 0x012 (x.vstart.zeroExtend 64) ∧ reads 0x013 x.vfill ∧
    reads 0x014 (x.vffe.zeroExtend 64) ∧ reads 0x015 (x.vcap.zeroExtend 64) ∧
    reads 0x016 (BitVec.ofNat 64 (2 ^ x.vcap.toNat / 8)) ∧ reads 0x018 x.seed ∧ reads 0x019 x.stripbase ∧
    reads 0x01A (x.fstat.zeroExtend 64) ∧
    (k.tq.length ≤ 8 → ∃ v, reads 0x020 v ∧ v.extractLsb' 0 2 = k.owner ∧ v.getLsbD 2 = k.owned ∧
      v.getLsbD 3 = !k.tq.isEmpty ∧ (v.extractLsb' 4 4).toNat = k.tq.length ∧ v.extractLsb' 8 2 = k.errCtx ∧
      v.getLsbD 10 = k.errPend ∧ v.extractLsb' 11 53 = 0) ∧
    (k.tq = [] → ∃ v, reads 0x021 v ∧ ∀ n : Fin 8, let f := k.tstat.get n;
      v.getLsbD (8 * n.val) = f.ovf ∧ v.getLsbD (8 * n.val + 1) = f.nv ∧ v.getLsbD (8 * n.val + 2) = f.sat ∧
      v.getLsbD (8 * n.val + 3) = f.nx ∧ v.getLsbD (8 * n.val + 4) = f.poison ∧ v.extractLsb' (8 * n.val + 5) 3 = 0) ∧
    reads 0x030 (x.cntL.zeroExtend 64) ∧ reads 0x031 (x.cntS.zeroExtend 64) ∧ reads 0x032 (x.cntC.zeroExtend 64) ∧
    reads 0x033 (x.cntT.zeroExtend 64) ∧
    (∃ v, reads 0x038 v ∧ v.extractLsb' 0 32 = x.yDl ∧ v.getLsbD 32 = x.yPend ∧ v.extractLsb' 33 31 = 0) ∧
    reads 0x039 (x.ydead.zeroExtend 64) ∧ reads 0x040 (k.spsize.zeroExtend 64) ∧
    reads 0x041 (BitVec.ofNat 64 (0xFFFFF00000000000 + slotOfCore (coreOf s.cur) * 0x1000000)) ∧
    (∃ v, reads 0x050 v ∧ v.getLsbD 0 = x.ptOn ∧ v.extractLsb' 1 11 = 0 ∧ v.extractLsb' 12 40 = x.ptRoot ∧ v.extractLsb' 52 12 = 0) ∧
    reads 0x051 (x.asid.zeroExtend 64) ∧ reads 0x052 (if x.dlog then 1 else 0) ∧
    reads 0x060 (BitVec.ofNat 64 (s.cycles / 16)) ∧
    reads 0x061 (BitVec.ofNat 64 s.cycles - (s.region (regionOf s.cur)).gated - k.cycle) ∧ reads 0x062 x.iret ∧
    (∀ n : Fin 8, reads (BitVec.ofNat 12 (0x070 + n.val)) ((x.pmsel.get n).zeroExtend 64) ∧
      reads (BitVec.ofNat 12 (0x078 + n.val)) (x.pmcnt.get n)) ∧
    reads 0x080 (x.chmask.zeroExtend 64) ∧
    (∃ v, reads 0x081 v ∧ (∀ n : Fin 16, v.getLsbD n.val = !(k.chans.get n).isEmpty) ∧ v.extractLsb' 16 48 = 0)) ∧
  (x.status.mode = false → ∀ num : BitVec 12, let n := num.toNat
    n ≤ 0x007 ∨ n = 0x00C ∨ n = 0x020 ∨ n = 0x038 ∨ n = 0x039 ∨ n = 0x040 ∨ (0x050 ≤ n ∧ n ≤ 0x052) ∨ (0x070 ≤ n ∧ n ≤ 0x077) ∨
      n = 0x080 → Raises (.mfs d num) s 0x04 (BitVec.ofNat 64 (wordMfs d num))) ∧
  (x.status.mode = false → ¬ owns → Raises (.mfs d 0x021) s 0x0B x.pc) ∧
  (∀ num : BitVec 12, let n := num.toNat
    (0x00D ≤ n ∧ n ≤ 0x00F) ∨ n = 0x017 ∨ (0x01B ≤ n ∧ n ≤ 0x01F) ∨ (0x022 ≤ n ∧ n ≤ 0x02F) ∨ (0x034 ≤ n ∧ n ≤ 0x037) ∨
      (0x03A ≤ n ∧ n ≤ 0x03F) ∨ (0x042 ≤ n ∧ n ≤ 0x04F) ∨ (0x053 ≤ n ∧ n ≤ 0x05F) ∨ (0x063 ≤ n ∧ n ≤ 0x06F) ∨ 0x082 ≤ n →
    Raises (.mfs d num) s 0x01 (BitVec.ofNat 64 (wordMfs d num)))

/-- R147, R239 to R245. MTS in K mode writes the writable bits of each register and nothing else; a read-only register keeps its
value; the writes of the vector registers set VD and VL stays within VLMAX. That VCAP takes bits [3:0] of the value is the model's
choice (assumption 28). YCTL's fields are R243's. U mode writes VSTART, VFILL, VFFE, SEED, STRIPBASE and FSTAT alike, and every other
register raises 0x04 there; an unassigned number raises 0x01 in both modes. -/
def Obligations.SystemRegisterWrites : Prop := ∀ (a : GReg) (s : State),
  let x := s.me
  let v := s.g a
  let wr := fun (i : Instr) (y : Ctx) => CompletesAs i s y (x.pc + 4)
  let vd : Status := { x.status with vd := true }
  let capped := fun (n : Nat) (lg es grp : Nat) => BitVec.ofNat 12 (min n (min 2048 (2 ^ grp * 2 ^ lg / (8 * 2 ^ es))))
  let unassigned := fun (n : Nat) => (0x00D ≤ n ∧ n ≤ 0x00F) ∨ n = 0x017 ∨ (0x01B ≤ n ∧ n ≤ 0x01F) ∨ (0x022 ≤ n ∧ n ≤ 0x02F) ∨ (0x034 ≤ n ∧ n ≤ 0x037) ∨
    (0x03A ≤ n ∧ n ≤ 0x03F) ∨ (0x042 ≤ n ∧ n ≤ 0x04F) ∨ (0x053 ≤ n ∧ n ≤ 0x05F) ∨ (0x063 ≤ n ∧ n ≤ 0x06F) ∨ 0x082 ≤ n
  (s.vqOf s.cur = [] →
  wr (.mts a 0x012) { x with vstart := v.extractLsb' 0 12, status := vd } ∧ wr (.mts a 0x013) { x with vfill := v, status := vd } ∧
  wr (.mts a 0x014) { x with vffe := v.extractLsb' 0 13, status := vd } ∧ wr (.mts a 0x018) { x with seed := v, status := vd } ∧
  wr (.mts a 0x019) { x with stripbase := v, status := vd } ∧ wr (.mts a 0x01A) { x with fstat := v.extractLsb' 0 7 }) ∧
  (x.status.mode = true → s.vqOf s.cur = [] →
  wr (.mtsStatus a) { x with status := {
    mode := x.status.mode, ie := v.getLsbD 1, pie := v.getLsbD 2, pmode := v.getLsbD 3, ven := v.getLsbD 4, vd := v.getLsbD 5
    ten := v.getLsbD 6, ye := v.getLsbD 7, ipend := x.status.ipend &&& ~~~(v.extractLsb' 16 6) } } ∧
  wr (.mtsVl a) { x with vl := capped v.toNat x.vcap.toNat x.es.toNat x.grp.toNat, status := vd } ∧
  wr (.mtsVtype a) { x with
    es := v.extractLsb' 0 2, grp := v.extractLsb' 2 2, status := vd
    vl := capped x.vl.toNat x.vcap.toNat (v.extractLsb' 0 2).toNat (v.extractLsb' 2 2).toNat } ∧
  (let n := v.extractLsb' 0 4;
    (7 ≤ n.toNat ∧ n.toNat ≤ 14 →
      wr (.mtsVcap a) { x with vcap := n, vstart := 0, vl := capped x.vl.toNat n.toNat x.es.toNat x.grp.toNat }) ∧
    (¬ (7 ≤ n.toNat ∧ n.toNat ≤ 14) → wr (.mtsVcap a) x)) ∧
  wr (.mtsCntc a) { x with cntC := v.extractLsb' 0 16 } ∧
  (let dl := v.extractLsb' 0 32;
    (v.getLsbD 32 = false → wr (.mtsYctl a) { x with yDl := dl, yPend := false, yArmed := none }) ∧
    (v.getLsbD 32 = true → x.yPend = false →
      wr (.mtsYctl a) { x with yDl := dl, yPend := true, yStart := s.time.toNat, yArmed := some 0 }) ∧
    (v.getLsbD 32 = true → x.yPend = true → dl = x.yDl → wr (.mtsYctl a) x) ∧
    (v.getLsbD 32 = true → x.yPend = true → dl ≠ x.yDl →
      wr (.mtsYctl a) { x with yDl := dl, yArmed := some ((s.time - BitVec.ofNat 64 x.yStart).toNat + 1) })) ∧
  wr (.mts a 0x001) { x with epc := v &&& ~~~3#64 } ∧ wr (.mts a 0x002) { x with cause := v.extractLsb' 0 8 } ∧
  wr (.mts a 0x003) { x with tval := v } ∧ wr (.mts a 0x004) { x with tvec := v &&& ~~~255#64 } ∧
  (∀ n : Fin 3, wr (.mts a (BitVec.ofNat 12 (5 + n.val))) { x with kscr := x.kscr.set n.val v n.isLt }) ∧
  wr (.mts a 0x009) { x with gang := v.extractLsb' 0 16 } ∧ wr (.mts a 0x00B) { x with gsize := v.extractLsb' 0 11 } ∧
  wr (.mts a 0x00C) { x with prio := v.extractLsb' 0 2 } ∧
  wr (.mts a 0x039) { x with ydead := v.extractLsb' 0 8 } ∧
  wr (.mts a 0x050) { x with ptOn := v.getLsbD 0, ptRoot := v.extractLsb' 12 40 } ∧
  wr (.mts a 0x051) { x with asid := v.extractLsb' 0 16 } ∧ wr (.mts a 0x052) { x with dlog := v.getLsbD 0 } ∧
  wr (.mts a 0x080) { x with chmask := v.extractLsb' 0 16 } ∧
  (∀ n : Fin 8, wr (.mts a (BitVec.ofNat 12 (0x070 + n.val))) { x with pmsel := x.pmsel.set n.val (v.extractLsb' 0 10) n.isLt } ∧
    wr (.mts a (BitVec.ofNat 12 (0x078 + n.val))) { x with pmcnt := x.pmcnt.set n.val v n.isLt }) ∧
  (∀ num ∈ [0x008#12, 0x016#12, 0x030#12, 0x031#12, 0x033#12, 0x041#12, 0x060#12, 0x061#12, 0x062#12, 0x081#12], wr (.mts a num) x)) ∧
  (x.status.mode = false →
    ∀ num : BitVec 12, ¬ unassigned num.toNat → num ∉ [0x012#12, 0x013#12, 0x014#12, 0x018#12, 0x019#12, 0x01A#12] →
      Raises (.mts a num) s 0x04 (BitVec.ofNat 64 (wordMts a num))) ∧
  (∀ num : BitVec 12, unassigned num.toNat → Raises (.mts a num) s 0x01 (BitVec.ofNat 64 (wordMts a num)))

/-- R218, R220, R221, R242, R244, R261, R363, R367. The writes of system registers that reach beyond the context. MTS of TCTL and of TSTAT
in K mode with the tile queue empty changes the fields of its core alone, ERRPEND being cleared by a 1; with the queue in use it waits,
and in U mode it raises 0x04. MTS of SPCFG with 0 to 16 sets the split of the core's slice and zeroes the bytes whose role changes;
every other byte of memory stays, and the caches and the directory lose only lines whose region-cache rows are gone, which are written
back with their directory entries (the rows entered last stay: assumption 45); a larger value changes nothing. That it takes bits [4:0]
of the value is the model's choice (assumption 28). MTS of MEMBER without a gang only writes the register; in a gang it also registers
the member at its context, in place of an earlier registration of that member, completes the open phases that this fills, whose waiters
receive RES, and applies the decrements held for the member in its island, those beyond its count as STALE. -/
def Obligations.SystemWritesBeyondTheContext : Prop :=
  (∀ (a : GReg) (s : State),
  let j := coreOf s.cur
  let v := s.g a
  let core := fun (i : Instr) (y : Core) => ∃ t, exec i s = .next t ∧ t = { s with ctxs := t.ctxs, cores := t.cores } ∧
    (∀ c, c ≠ s.cur → t.ctx c = s.ctx c) ∧ t.me = s.me.completed (s.me.pc + 4) ∧ (∀ k, k ≠ j → t.core k = s.core k) ∧ t.core j = y
  (s.me.status.mode = true → (s.core j).tq = [] →
    core (.mtsTctl a) { s.core j with
      owner := v.extractLsb' 0 2, owned := v.getLsbD 2, errPend := (s.core j).errPend && !v.getLsbD 10 } ∧
    ∃ f : Vector TFlags 8, core (.mtsTstat a) { s.core j with tstat := f } ∧ ∀ n : Fin 8, f.get n =
      ⟨v.getLsbD (8 * n.val), v.getLsbD (8 * n.val + 1), v.getLsbD (8 * n.val + 2), v.getLsbD (8 * n.val + 3), v.getLsbD (8 * n.val + 4)⟩) ∧
  (s.me.status.mode = true → (s.core j).tq ≠ [] →
    Waits (.mtsTctl a) s .waitUnit .tqEmpty ∧ Waits (.mtsTstat a) s .waitUnit .tqEmpty) ∧
  (s.me.status.mode = false → Raises (.mtsTctl a) s 0x04 (BitVec.ofNat 64 (wordMtsTctl a)) ∧
    Raises (.mtsTstat a) s 0x04 (BitVec.ofNat 64 (wordMtsTstat a)))) ∧
  (∀ (a : GReg) (s : State), s.me.status.mode = true → s.cur < 4096 →
  let j := coreOf s.cur
  let n := ((s.g a).extractLsb' 0 5).toNat
  let old := (s.core j).spsize.toNat
  (16 < n → CompletesAs (.mtsSpcfg a) s s.me (s.me.pc + 4)) ∧
  (n ≤ 16 → old ≤ 16 → ∃ t, exec (.mtsSpcfg a) s = .next t ∧
    t = { s with
      ctxs := t.ctxs, cores := t.cores, spad := t.spad, spoison := t.spoison, hbmOld := t.hbmOld, dir := t.dir, proxies := t.proxies
      cohMsgs := t.cohMsgs } ∧
    (∀ c, c ≠ s.cur → t.ctx c = s.ctx c) ∧ t.me = s.me.completed (s.me.pc + 4) ∧
    (∀ k, t.core k = { s.core k with
      spsize := if k = j then BitVec.ofNat 5 n else (s.core k).spsize, l1 := (t.core k).l1, notices := (t.core k).notices
      rcache := (t.core k).rcache }) ∧
    (let gone := ((s.core j).rcache.drop ((16 - n) * 4096)).map (·.1)
      let stays := fun (m : CohMsg) => match m with | .inval l _ _ | .ack l _ | .dieAck l _ | .crossed l _ _ => !gone.contains l
      (s.core j).rcache.length ≤ (16 - old) * 4096 → (∀ x ∈ (s.core j).rcache, homeCore (x.1 * 128) = j) →
      (∀ l die d, s.dirOf l = some d ∨ s.proxyOf l die = some d → ∀ p ∈ d.ptrs, p.core < 1024) →
      (∀ k l, l ∉ gone → (t.core k).line l = (s.core k).line l) ∧
      (∀ l, l ∉ gone → t.dirOf l = s.dirOf l ∧ ∀ die < 16, t.proxyOf l die = s.proxyOf l die) ∧
      (∀ k, (t.core k).notices.filter (fun x => !gone.contains x.1) = (s.core k).notices.filter (fun x => !gone.contains x.1)) ∧
      t.cohMsgs.filter stays = s.cohMsgs.filter stays ∧ (∀ k, k ≠ j → (t.core k).rcache = (s.core k).rcache) ∧
      (t.core j).rcache = (s.core j).rcache.filter (fun x => !gone.contains x.1) ∧ (∀ l ∈ gone, t.dirOf l = none) ∧
      (∀ pa, SMap.get none t.hbmOld pa = if lineOf pa ∈ gone then none else SMap.get none s.hbmOld pa)) ∧
    (∀ o < 2 ^ 23, t.reads (.spad j o) =
      if min old n * 2 ^ 19 ≤ o ∧ o < max old n * 2 ^ 19 then 0 else s.reads (.spad j o)) ∧
    (∀ k o, k ≠ j → k < 1024 → o < 2 ^ 23 → t.reads (.spad k o) = s.reads (.spad k o)) ∧
    (∀ pa, t.reads (.hbm pa) = s.reads (.hbm pa)))) ∧
  (∀ (a : GReg) (s : State), s.me.status.mode = true →
  let m := (s.g a).extractLsb' 0 10
  let g := s.me.gang.toNat
  (s.me.gang = 0 → CompletesAs (.mtsMember a) s { s.me with member := m } (s.me.pc + 4)) ∧
  (s.me.gang ≠ 0 → s.me.park = .none → ∃ t, exec (.mtsMember a) s = .next t ∧
    let mine := fun (e : Nat × Nat × Nat) => e.1 == g && e.2.1 == m.toNat
    let around := s.regionsOf (s.islandOf (regionOf s.cur))
    let held := (around.map (fun r => (((s.region r).heldDec.filter mine).map (·.2.2)).sum)).sum
    let c := s.me.cntC.toNat
    let ends := fun (k : BarKey) => k ∈ s.bars.map (·.1) ∧ k.gang = g ∧ k.sc ≠ .pod ∧ 0 < t.barExp k ∧ t.barExp k ≤ (s.bar k).arr.toNat
    t = { s with ctxs := t.ctxs, gangs := t.gangs, regions := t.regions, bars := t.bars } ∧ (∀ h, h ≠ g → t.gangOf h = s.gangOf h) ∧
    (t.gangOf g).bdl = (s.gangOf g).bdl ∧
    (∀ e, e ∈ (t.gangOf g).reg ↔ e = (m.toNat, s.cur) ∨ (e ∈ (s.gangOf g).reg ∧ e.1 ≠ m.toNat)) ∧
    (∀ k, (ends k → t.bar k = ⟨(s.bar k).phase + 1, 0, [], resOf ((s.bar k).contribs.map (·.2))⟩) ∧ (¬ ends k → t.bar k = s.bar k)) ∧
    (∀ b, b ≠ s.cur →
      (∀ k gb d since, (s.ctx b).park = .bar k (s.bar k).phase.toNat gb d since none → ends k →
        t.ctx b = { s.ctx b with
          park := .bar k (s.bar k).phase.toNat gb d since (some (t.bar k).res), events := Event.join ⟨.barrier, 0⟩ (s.ctx b).events }) ∧
      ((∀ k gb d since, (s.ctx b).park = .bar k (s.bar k).phase.toNat gb d since none → ¬ ends k) → t.ctx b = s.ctx b)) ∧
    (let y : Ctx := { s.me with member := m, cntC := BitVec.ofNat 16 (c - held) };
      t.me = (if c = 0 ∨ held = 0 then y else y.accept ⟨.counter, 0⟩).completed (s.me.pc + 4)) ∧
    (∀ r, t.region r = { s.region r with
      heldDec := if r ∈ around then (s.region r).heldDec.filter (fun e => !mine e) else (s.region r).heldDec
      stale := if r = regionOf s.cur then satCount (s.region r).stale (held - c) else (s.region r).stale })))

/-- R56, R67, R239, R245, R280. The instructions and register writes of K mode raise 0x04 with their word in U mode; CINV's trap is R280's. -/
def Obligations.PrivilegedFormsTrapInUserMode : Prop := ∀ (s : State) (a b : GReg) (sc : Scope) (num : BitVec 12),
  s.me.status.mode = false →
  let priv := fun (i : Instr) (w : Nat) => Raises i s 0x04 (BitVec.ofNat 64 w)
  priv .eret wordEret ∧ priv (.tlbinv a b sc) (wordTlbinv a b sc) ∧ priv .tlbsync wordTlbsync ∧ priv (.cinv a b) (wordCinv a b) ∧
  priv (.mtsStatus a) (wordMtsStatus a) ∧ priv (.mtsVl a) (wordMtsVl a) ∧ priv (.mtsVtype a) (wordMtsVtype a) ∧
  priv (.mtsVcap a) (wordMtsVcap a) ∧ priv (.mtsMember a) (wordMtsMember a) ∧ priv (.mtsTctl a) (wordMtsTctl a) ∧
  priv (.mtsTstat a) (wordMtsTstat a) ∧ priv (.mtsCntc a) (wordMtsCntc a) ∧ priv (.mtsYctl a) (wordMtsYctl a) ∧
  priv (.mtsSpcfg a) (wordMtsSpcfg a) ∧
  (num.toNat ∈ [0x001, 0x002, 0x003, 0x004, 0x005, 0x006, 0x007, 0x009, 0x00B, 0x00C, 0x039, 0x050, 0x051, 0x052, 0x080] ∨
    (0x070 ≤ num.toNat ∧ num.toNat < 0x080) → priv (.mts a num) (wordMts a num))

/-- R145, R147, R154. With VEN = 1 the four forms of SETVL set VTYPE and VL = min(request, VLMAX), clear VSTART, set VD and give VL to
Ge(d); the .A forms first add VL to STRIPBASE. With `y`, STATUS.YE and a deadline pending they trap 0x0C instead and store `dead` in
YDEAD. With VEN = 0 they raise 0x0A. -/
def Obligations.SetVectorLength : Prop := ∀ (s : State) (d a : GReg) (es grp : Fin 4) (dead : BitVec 8) (y : Bool),
  let x := s.me
  let top := min 2048 (2 ^ grp.val * 2 ^ x.vcap.toNat / (8 * 2 ^ es.val))
  let form := fun (i : Instr) (w : Nat) (strip : Bool) (n : Nat) =>
    (x.status.ven = false → Raises i s 0x0A (BitVec.ofNat 64 w)) ∧
    (x.status.ven = true → ¬ (y = true ∧ x.status.ye = true ∧ x.yPend = true) → ∃ t, exec i s = .next t ∧ OnlyMe s t ∧
      ({ x with
        stripbase := if strip then x.stripbase + x.vl.zeroExtend 64 else x.stripbase
        vl := BitVec.ofNat 12 n, es := BitVec.ofNat 2 es.val, grp := BitVec.ofNat 2 grp.val, vstart := 0
        status := { x.status with vd := true } } : Ctx).Wrote t.me d (BitVec.ofNat 64 n) (x.pc + 4)) ∧
    (x.status.ven = true → y = true → x.status.ye = true → x.yPend = true → ∃ t u, exec i s = .next t ∧
      TrapTaken s u s.cur 0x0C x.pc 0 ∧ OnlyMe u t ∧ t.me = { u.me with ydead := dead, yPend := false, yArmed := none })
  form (.setvl d a es grp dead y) (wordSetvl d a es grp dead y) false (min (s.g a).toNat top) ∧
  form (.setvlA d a es grp dead y) (wordSetvlA d a es grp dead y) true (min (s.g a).toNat top) ∧
  form (.setvlmax d es grp dead y) (wordSetvlmax d es grp dead y) false top ∧
  form (.setvlmaxA d es grp dead y) (wordSetvlmaxA d es grp dead y) true top

/-- R112, R243, R246, R249, R250, R310, R338, R376, R409. INTERRUPT_TAKE: a context with nothing in flight takes the first pending cause of the order 0x12, 0x45,
0x43, 0x41, 0x44, 0x40, 0x42 with EPC at its next instruction and the TVAL of that cause, at a boundary where IE = 1, or whatever IE
holds where it is FREE; an interrupt leaves VSTART 0, but where it is to resume the next instruction it stays, which is the model's reading
of R112 and R409 (assumption 48). No step takes one where the context's next instruction raises a fetch fault or one of the causes 0x01, 0x04 and
0x0A to 0x0C, which come first (that a step which the machine cannot take is a fault, and the schedule, are the model's: assumptions 11
and 1). TRAPPING_DONE makes it READY six cycles later. YIELD_DEADLINE_EXPIRE: once DL ticks have passed since
the start of the deadline, modulo 2^64, the pre-emption interrupt is accepted, once, and nothing else changes. A context acts at once on an
event accepted for it, unless it is being redirected to its trap vector or awaits the result of an atomic (assumption 9): then the event
enters its event queue, where a second of its kind is folded into the first, and it acts on every entry at its next boundary (R310, R338). -/
def Obligations.InterruptsAreTakenInOrder : Prop :=
  ((∀ (s : State) (c : CtxId) (stop : Nat), let x := s.ctx c.val
    (x.st = .free ∨ (x.status.ie = true ∧ (x.st = .ready ∨ x.st = .waitReg ∨ x.st = .waitUnit ∨ x.st = .yielded))) →
    (s.core (coreOf c.val)).fenced = false → (s.region (regionOf c.val)).st = .assigned →
    x.miss = .none → x.park = .none → s.vqOf c.val = [] →
    let err := (s.core (coreOf c.val)).errPend = true ∧ (s.core (coreOf c.val)).errCtx.toNat = c.val % 4
    (err → ∃ t, exec (.interruptTake c stop) s = .next t ∧
      TrapTaken { s with cores := t.cores } t c.val 0x12 x.pc (s.core (coreOf c.val)).errAddr ∧
      ∀ k, t.core k = if k = coreOf c.val then { s.core k with errPend := false } else s.core k) ∧
    (∀ (i : Fin 6) (above : List (Fin 6)),
      (i, above) ∈ [((5 : Fin 6), ([] : List (Fin 6))), (3, [5]), (1, [5, 3]), (4, [5, 3, 1]), (0, [5, 3, 1, 4]), (2, [5, 3, 1, 4, 0])] →
      ¬ err → x.status.ipend.getLsbD i.val = true → (∀ j ∈ above, x.status.ipend.getLsbD j.val = false) →
      ∃ t, exec (.interruptTake c stop) s = .next t ∧
        TrapTaken (s.modCtx c.val (fun y => { y with vstart := if s.resuming c.val then y.vstart else 0 })) t c.val (0x40 + i.val) x.pc
          (x.ipendTval.get i))) ∧
  (∀ (s : State) (c : CtxId) (stop : Nat) (rest : List Turn), s.sched = .event (.interruptTake c stop) :: rest →
    let u : State := { s with sched := rest }
    (u.ctx c.val).st = .ready → u.vqOf c.val = [] → (u.ctx c.val).pc.toNat % 4 = 0 →
    ((∃ t cause, u.fetch c.val = (t, .error cause)) ∨
      (∃ t w, u.fetch c.val = (t, .ok w) ∧ ∀ i, decode (BitVec.ofNat 32 w) ≠ .ok i) ∨
      (∃ t w i code tval, u.fetch c.val = (t, .ok w) ∧ decode (BitVec.ofNat 32 w) = .ok i ∧
        code ∈ [0x01, 0x04, 0x0A, 0x0B, 0x0C] ∧ Raises i { t with cur := c.val } code tval)) →
    step s = .fault (.notEnabled "INTERRUPT_TAKE")) ∧
  (∀ (s : State) (c : CtxId) (since : Nat), (s.ctx c.val).st = .trapping since → since + 6 ≤ s.cycles →
    ∃ t, exec (.trappingDone c) s = .next t ∧ OnlyCtx c.val s t ∧ t.ctx c.val = ({ s.ctx c.val with st := .ready } : Ctx).settled)) ∧
  (∀ (s : State) (c : CtxId) (from_ : Nat), let x := s.ctx c.val
  x.yArmed = some from_ → x.yPend = true → x.yDl ≠ 0 → x.yDl.toNat ≤ (s.time - BitVec.ofNat 64 x.yStart).toNat →
  from_ ≤ (s.time - BitVec.ofNat 64 x.yStart).toNat →
  ∃ t, exec (.yieldDeadlineExpire c) s = .next t ∧ OnlyCtx c.val s t ∧
    t.ctx c.val = Ctx.accept ⟨.cause 1, 0⟩ { x with yArmed := none }) ∧
  (∀ (x : Ctx) (e : Event),
    let y := x.accept e
    let inTrap := ∃ since, x.st = .trapping since
    let inAtomic := ∃ d v, x.miss = .atom d v
    (¬ inTrap → ¬ inAtomic → match e.kind with
      | .cause i => y = { x with
          status := { x.status with ipend := x.status.ipend ||| BitVec.ofNat 6 (2 ^ i.val) }, ipendTval := x.ipendTval.set i.val e.tval }
      | .chan n => y = if x.st = .parked ∧ x.park = .chan n then { x with st := .ready, wait := .again, park := .none } else x
      | .bytes n => y = if x.st = .parked ∧ x.park = .bcwait n then { x with st := .ready, wait := .again, park := .none } else x
      | _ => y = x) ∧
    (inTrap ∨ inAtomic → y = { x with events := y.events } ∧ (∀ z, z ∈ y.events ↔ z = e ∨ (z ∈ x.events ∧ z.kind ≠ e.kind)) ∧
      ((x.events.map (·.kind)).Nodup → (y.events.map (·.kind)).Nodup)) ∧
    x.settled.events = [] ∧
    (∀ i : Fin 6, x.settled.status.ipend.getLsbD i.val = (x.status.ipend.getLsbD i.val || x.events.any (·.kind == .cause i))) ∧
    (x.st ≠ .parked → x.settled = { x with events := [], status := { x.status with ipend := x.settled.status.ipend }, ipendTval := x.settled.ipendTval }))

/-- R55, R135. A fetched word that is no instruction raises 0x01 with the word as TVAL; a fetch that fails raises its cause with the PC as
EPC and TVAL, 0x09 on a word that is poisoned in memory, or was when the instruction cache took the copy it still holds. Nothing but what the fetch itself changes is changed. -/
def Obligations.FetchTraps : Prop := ∀ (s t : State) (c : CtxId),
  (∀ w, s.fetch c.val = (t, .ok w) → (∀ i, decode (BitVec.ofNat 32 w) ≠ .ok i) → ∃ u, exec (.illegalInstruction c) s = .next u ∧
    TrapTaken t u c.val 0x01 (s.ctx c.val).pc (BitVec.ofNat 64 w)) ∧
  (∀ cause, s.fetch c.val = (t, .error cause) → ∃ u, exec (.fetchPageFault c) s = .next u ∧
    TrapTaken t u c.val cause (s.ctx c.val).pc (s.ctx c.val).pc) ∧
  (∀ p ps pa, s.transSpan (s.whoCtx c.val) .fetch (s.ctx c.val).pc.toNat 4 = (t, .ok (p :: ps)) → p.loc = .hbm pa →
    let copy := (t.core (coreOf c.val)).icache.find? (·.line == lineOf pa)
    let now := leNat (t.bytesAt p.loc 4)
    (t.firstPoison p.loc 4 ≠ none → p.uncached = true → s.fetch c.val = (t, .error 0x09)) ∧
    (t.firstPoison p.loc 4 ≠ none → p.uncached = false → copy = none → ∃ u, s.fetch c.val = (u, .error 0x09)) ∧
    (∀ l, p.uncached = false → copy = some l → (l.data.extractLsb' (8 * (pa % 128)) 32).toNat = now →
      s.fetch c.val = (t, if l.bad.getLsbD (pa % 128 / 16) then .error 0x09 else .ok now)))


/-! Vector instructions. -/

/-- R56, R97, R148, R151, R153 to R170, R186, R187. The integer, permutation, reduction and mask instructions: each names its
function, and passes or fails the checks of dispatch as VectorIssues says. -/
def Obligations.VectorIntegerInstructionsIssue : Prop :=
  ∀ (d a b : VReg) (md ma mb : MReg) (gd ga gb : GReg) (mk : MaskSel),
  VectorIssues (.vadd d a b mk) (wordVadd d a b mk) (.int .add d a (.vec b)) mk none (fun _ => 0) (fun _ => 0) ∧
  VectorIssues (.vsub d a b mk) (wordVsub d a b mk) (.int .sub d a (.vec b)) mk none (fun _ => 0) (fun _ => 0) ∧
  VectorIssues (.vmul d a b mk) (wordVmul d a b mk) (.int .mul d a (.vec b)) mk none (fun _ => 0) (fun _ => 0) ∧
  VectorIssues (.vmulh d a b mk) (wordVmulh d a b mk) (.int .mulh d a (.vec b)) mk none (fun _ => 0) (fun _ => 0) ∧
  VectorIssues (.vmulhu d a b mk) (wordVmulhu d a b mk) (.int .mulhu d a (.vec b)) mk none (fun _ => 0) (fun _ => 0) ∧
  VectorIssues (.vmin d a b mk) (wordVmin d a b mk) (.int .min d a (.vec b)) mk none (fun _ => 0) (fun _ => 0) ∧
  VectorIssues (.vmax d a b mk) (wordVmax d a b mk) (.int .max d a (.vec b)) mk none (fun _ => 0) (fun _ => 0) ∧
  VectorIssues (.vminu d a b mk) (wordVminu d a b mk) (.int .minu d a (.vec b)) mk none (fun _ => 0) (fun _ => 0) ∧
  VectorIssues (.vmaxu d a b mk) (wordVmaxu d a b mk) (.int .maxu d a (.vec b)) mk none (fun _ => 0) (fun _ => 0) ∧
  VectorIssues (.vand d a b mk) (wordVand d a b mk) (.int .and d a (.vec b)) mk none (fun _ => 0) (fun _ => 0) ∧
  VectorIssues (.vor d a b mk) (wordVor d a b mk) (.int .or d a (.vec b)) mk none (fun _ => 0) (fun _ => 0) ∧
  VectorIssues (.vxor d a b mk) (wordVxor d a b mk) (.int .xor d a (.vec b)) mk none (fun _ => 0) (fun _ => 0) ∧
  VectorIssues (.vshl d a b mk) (wordVshl d a b mk) (.int .shl d a (.vec b)) mk none (fun _ => 0) (fun _ => 0) ∧
  VectorIssues (.vshr d a b mk) (wordVshr d a b mk) (.int .shr d a (.vec b)) mk none (fun _ => 0) (fun _ => 0) ∧
  VectorIssues (.vsra d a b mk) (wordVsra d a b mk) (.int .sra d a (.vec b)) mk none (fun _ => 0) (fun _ => 0) ∧
  VectorIssues (.vadds d a b mk) (wordVadds d a b mk) (.int .adds d a (.vec b)) mk none (fun _ => 0) (fun _ => 0) ∧
  VectorIssues (.vaddsu d a b mk) (wordVaddsu d a b mk) (.int .addsu d a (.vec b)) mk none (fun _ => 0) (fun _ => 0) ∧
  VectorIssues (.vsubs d a b mk) (wordVsubs d a b mk) (.int .subs d a (.vec b)) mk none (fun _ => 0) (fun _ => 0) ∧
  VectorIssues (.vsubsu d a b mk) (wordVsubsu d a b mk) (.int .subsu d a (.vec b)) mk none (fun _ => 0) (fun _ => 0) ∧
  VectorIssues (.vavg d a b mk) (wordVavg d a b mk) (.int .avg d a (.vec b)) mk none (fun _ => 0) (fun _ => 0) ∧
  VectorIssues (.vabsd d a b mk) (wordVabsd d a b mk) (.int .absd d a (.vec b)) mk none (fun _ => 0) (fun _ => 0) ∧
  VectorIssues (.vaddVx d a gb mk) (wordVaddVx d a gb mk) (.int .add d a .scal) mk none (fun _ => 0) (fun s => s.g gb) ∧
  VectorIssues (.vsubVx d a gb mk) (wordVsubVx d a gb mk) (.int .sub d a .scal) mk none (fun _ => 0) (fun s => s.g gb) ∧
  VectorIssues (.vmulVx d a gb mk) (wordVmulVx d a gb mk) (.int .mul d a .scal) mk none (fun _ => 0) (fun s => s.g gb) ∧
  VectorIssues (.vmulhVx d a gb mk) (wordVmulhVx d a gb mk) (.int .mulh d a .scal) mk none (fun _ => 0) (fun s => s.g gb) ∧
  VectorIssues (.vmulhuVx d a gb mk) (wordVmulhuVx d a gb mk) (.int .mulhu d a .scal) mk none (fun _ => 0) (fun s => s.g gb) ∧
  VectorIssues (.vminVx d a gb mk) (wordVminVx d a gb mk) (.int .min d a .scal) mk none (fun _ => 0) (fun s => s.g gb) ∧
  VectorIssues (.vmaxVx d a gb mk) (wordVmaxVx d a gb mk) (.int .max d a .scal) mk none (fun _ => 0) (fun s => s.g gb) ∧
  VectorIssues (.vminuVx d a gb mk) (wordVminuVx d a gb mk) (.int .minu d a .scal) mk none (fun _ => 0) (fun s => s.g gb) ∧
  VectorIssues (.vmaxuVx d a gb mk) (wordVmaxuVx d a gb mk) (.int .maxu d a .scal) mk none (fun _ => 0) (fun s => s.g gb) ∧
  VectorIssues (.vandVx d a gb mk) (wordVandVx d a gb mk) (.int .and d a .scal) mk none (fun _ => 0) (fun s => s.g gb) ∧
  VectorIssues (.vorVx d a gb mk) (wordVorVx d a gb mk) (.int .or d a .scal) mk none (fun _ => 0) (fun s => s.g gb) ∧
  VectorIssues (.vxorVx d a gb mk) (wordVxorVx d a gb mk) (.int .xor d a .scal) mk none (fun _ => 0) (fun s => s.g gb) ∧
  VectorIssues (.vshlVx d a gb mk) (wordVshlVx d a gb mk) (.int .shl d a .scal) mk none (fun _ => 0) (fun s => s.g gb) ∧
  VectorIssues (.vshrVx d a gb mk) (wordVshrVx d a gb mk) (.int .shr d a .scal) mk none (fun _ => 0) (fun s => s.g gb) ∧
  VectorIssues (.vsraVx d a gb mk) (wordVsraVx d a gb mk) (.int .sra d a .scal) mk none (fun _ => 0) (fun s => s.g gb) ∧
  VectorIssues (.vaddsVx d a gb mk) (wordVaddsVx d a gb mk) (.int .adds d a .scal) mk none (fun _ => 0) (fun s => s.g gb) ∧
  VectorIssues (.vaddsuVx d a gb mk) (wordVaddsuVx d a gb mk) (.int .addsu d a .scal) mk none (fun _ => 0) (fun s => s.g gb) ∧
  VectorIssues (.vsubsVx d a gb mk) (wordVsubsVx d a gb mk) (.int .subs d a .scal) mk none (fun _ => 0) (fun s => s.g gb) ∧
  VectorIssues (.vsubsuVx d a gb mk) (wordVsubsuVx d a gb mk) (.int .subsu d a .scal) mk none (fun _ => 0) (fun s => s.g gb) ∧
  VectorIssues (.vavgVx d a gb mk) (wordVavgVx d a gb mk) (.int .avg d a .scal) mk none (fun _ => 0) (fun s => s.g gb) ∧
  VectorIssues (.vabsdVx d a gb mk) (wordVabsdVx d a gb mk) (.int .absd d a .scal) mk none (fun _ => 0) (fun s => s.g gb) ∧
  VectorIssues (.vceq md a b mk) (wordVceq md a b mk) (.cmp .eq md a b) mk none (fun _ => 0) (fun _ => 0) ∧
  VectorIssues (.vcne md a b mk) (wordVcne md a b mk) (.cmp .ne md a b) mk none (fun _ => 0) (fun _ => 0) ∧
  VectorIssues (.vclt md a b mk) (wordVclt md a b mk) (.cmp .lt md a b) mk none (fun _ => 0) (fun _ => 0) ∧
  VectorIssues (.vcle md a b mk) (wordVcle md a b mk) (.cmp .le md a b) mk none (fun _ => 0) (fun _ => 0) ∧
  VectorIssues (.vcltu md a b mk) (wordVcltu md a b mk) (.cmp .ltu md a b) mk none (fun _ => 0) (fun _ => 0) ∧
  VectorIssues (.vcleu md a b mk) (wordVcleu md a b mk) (.cmp .leu md a b) mk none (fun _ => 0) (fun _ => 0) ∧
  VectorIssues (.vmerge d a b mk) (wordVmerge d a b mk) (.merge d a b) mk none (fun _ => 0) (fun _ => 0) ∧
  VectorIssues (.vredsum d a b mk) (wordVredsum d a b mk) (.red .sum d a b) mk none (fun _ => 0) (fun _ => 0) ∧
  VectorIssues (.vredmax d a b mk) (wordVredmax d a b mk) (.red .max d a b) mk none (fun _ => 0) (fun _ => 0) ∧
  VectorIssues (.vredmin d a b mk) (wordVredmin d a b mk) (.red .min d a b) mk none (fun _ => 0) (fun _ => 0) ∧
  VectorIssues (.vredmaxu d a b mk) (wordVredmaxu d a b mk) (.red .maxu d a b) mk none (fun _ => 0) (fun _ => 0) ∧
  VectorIssues (.vredminu d a b mk) (wordVredminu d a b mk) (.red .minu d a b) mk none (fun _ => 0) (fun _ => 0) ∧
  VectorIssues (.vredand d a b mk) (wordVredand d a b mk) (.red .and d a b) mk none (fun _ => 0) (fun _ => 0) ∧
  VectorIssues (.vredor d a b mk) (wordVredor d a b mk) (.red .or d a b) mk none (fun _ => 0) (fun _ => 0) ∧
  VectorIssues (.vredxor d a b mk) (wordVredxor d a b mk) (.red .xor d a b) mk none (fun _ => 0) (fun _ => 0) ∧
  VectorIssues (.vslideup d a gb mk) (wordVslideup d a gb mk) (.slide true d a) mk none (fun _ => 0) (fun s => s.g gb) ∧
  VectorIssues (.vslidedn d a gb mk) (wordVslidedn d a gb mk) (.slide false d a) mk none (fun _ => 0) (fun s => s.g gb) ∧
  VectorIssues (.vgatherv d a b mk) (wordVgatherv d a b mk) (.gather d a b) mk none (fun _ => 0) (fun _ => 0) ∧
  VectorIssues (.vcompress d a mk) (wordVcompress d a mk) (.compress d a) mk none (fun _ => 0) (fun _ => 0) ∧
  VectorIssues (.vexpand d a mk) (wordVexpand d a mk) (.expand d a) mk none (fun _ => 0) (fun _ => 0) ∧
  VectorIssues (.vbcast d ga mk) (wordVbcast d ga mk) (.bcast d) mk none (fun s => s.g ga) (fun _ => 0) ∧
  VectorIssues (.vext gd a gb) (wordVext gd a gb) (.ext gd a) 0 none (fun _ => 0) (fun s => s.g gb) ∧
  VectorIssues (.vins d ga gb) (wordVins d ga gb) (.ins d) 0 none (fun s => s.g ga) (fun s => s.g gb) ∧
  VectorIssues (.vid d mk) (wordVid d mk) (.vid d) mk none (fun _ => 0) (fun _ => 0) ∧
  VectorIssues (.viota d ma mk) (wordViota d ma mk) (.iota d ma) mk none (fun _ => 0) (fun _ => 0) ∧
  VectorIssues (.vzip d a b mk) (wordVzip d a b mk) (.zip d a b) mk none (fun _ => 0) (fun _ => 0) ∧
  VectorIssues (.vunzip d a b mk) (wordVunzip d a b mk) (.unzip d a b) mk none (fun _ => 0) (fun _ => 0) ∧
  VectorIssues (.vmov d a mk) (wordVmov d a mk) (.mov d a) mk none (fun _ => 0) (fun _ => 0) ∧
  VectorIssues (.mand md ma mb) (wordMand md ma mb) (.mlog .and md ma mb) 0 none (fun _ => 0) (fun _ => 0) ∧
  VectorIssues (.mor md ma mb) (wordMor md ma mb) (.mlog .or md ma mb) 0 none (fun _ => 0) (fun _ => 0) ∧
  VectorIssues (.mxor md ma mb) (wordMxor md ma mb) (.mlog .xor md ma mb) 0 none (fun _ => 0) (fun _ => 0) ∧
  VectorIssues (.mandn md ma mb) (wordMandn md ma mb) (.mlog .andn md ma mb) 0 none (fun _ => 0) (fun _ => 0) ∧
  VectorIssues (.mnot md ma) (wordMnot md ma) (.mnot md ma) 0 none (fun _ => 0) (fun _ => 0) ∧
  VectorIssues (.mpopc gd ma mk) (wordMpopc gd ma mk) (.mpopc gd ma) mk none (fun _ => 0) (fun _ => 0) ∧
  VectorIssues (.mfirst gd ma mk) (wordMfirst gd ma mk) (.mfirst gd ma) mk none (fun _ => 0) (fun _ => 0) ∧
  VectorIssues (.msbf md ma mk) (wordMsbf md ma mk) (.msbf false md ma) mk none (fun _ => 0) (fun _ => 0) ∧
  VectorIssues (.msif md ma mk) (wordMsif md ma mk) (.msbf true md ma) mk none (fun _ => 0) (fun _ => 0) ∧
  VectorIssues (.mset md) (wordMset md) (.mset md true) 0 none (fun _ => 0) (fun _ => 0) ∧
  VectorIssues (.mclr md) (wordMclr md) (.mset md false) 0 none (fun _ => 0) (fun _ => 0) ∧
  VectorIssues (.mmovg md ga) (wordMmovg md ga) (.mmovg md) 0 none (fun s => s.g ga) (fun _ => 0) ∧
  VectorIssues (.mmovm gd ma) (wordMmovm gd ma) (.mmovm gd ma) 0 none (fun _ => 0) (fun _ => 0)

/-- R37, R56, R97, R156, R165, R174 to R192, R211. The instructions that read a format word. -/
def Obligations.VectorFormatInstructionsIssue : Prop :=
  ∀ (d a b c : VReg) (md : MReg) (gb : GReg) (mk : MaskSel) (fr : FmtSel),
  VectorIssues (.vnarrow d a mk fr) (wordVnarrow d a mk fr) (.narrow d a) mk (some fr) (fun _ => 0) (fun _ => 0) ∧
  VectorIssues (.vfadd d a b mk fr) (wordVfadd d a b mk fr) (.fbin .add d a (.vec b)) mk (some fr) (fun _ => 0) (fun _ => 0) ∧
  VectorIssues (.vfsub d a b mk fr) (wordVfsub d a b mk fr) (.fbin .sub d a (.vec b)) mk (some fr) (fun _ => 0) (fun _ => 0) ∧
  VectorIssues (.vfmul d a b mk fr) (wordVfmul d a b mk fr) (.fbin .mul d a (.vec b)) mk (some fr) (fun _ => 0) (fun _ => 0) ∧
  VectorIssues (.vfdiv d a b mk fr) (wordVfdiv d a b mk fr) (.fbin .div d a (.vec b)) mk (some fr) (fun _ => 0) (fun _ => 0) ∧
  VectorIssues (.vfmin d a b mk fr) (wordVfmin d a b mk fr) (.fbin .min d a (.vec b)) mk (some fr) (fun _ => 0) (fun _ => 0) ∧
  VectorIssues (.vfmax d a b mk fr) (wordVfmax d a b mk fr) (.fbin .max d a (.vec b)) mk (some fr) (fun _ => 0) (fun _ => 0) ∧
  VectorIssues (.vfscale d a b mk fr) (wordVfscale d a b mk fr) (.fbin .scale d a (.vec b)) mk (some fr) (fun _ => 0) (fun _ => 0) ∧
  VectorIssues (.vfaddVx d a gb mk fr) (wordVfaddVx d a gb mk fr) (.fbin .add d a .scal) mk (some fr) (fun _ => 0) (fun s => s.g gb) ∧
  VectorIssues (.vfsubVx d a gb mk fr) (wordVfsubVx d a gb mk fr) (.fbin .sub d a .scal) mk (some fr) (fun _ => 0) (fun s => s.g gb) ∧
  VectorIssues (.vfmulVx d a gb mk fr) (wordVfmulVx d a gb mk fr) (.fbin .mul d a .scal) mk (some fr) (fun _ => 0) (fun s => s.g gb) ∧
  VectorIssues (.vfdivVx d a gb mk fr) (wordVfdivVx d a gb mk fr) (.fbin .div d a .scal) mk (some fr) (fun _ => 0) (fun s => s.g gb) ∧
  VectorIssues (.vfminVx d a gb mk fr) (wordVfminVx d a gb mk fr) (.fbin .min d a .scal) mk (some fr) (fun _ => 0) (fun s => s.g gb) ∧
  VectorIssues (.vfmaxVx d a gb mk fr) (wordVfmaxVx d a gb mk fr) (.fbin .max d a .scal) mk (some fr) (fun _ => 0) (fun s => s.g gb) ∧
  VectorIssues (.vfscaleVx d a gb mk fr) (wordVfscaleVx d a gb mk fr) (.fbin .scale d a .scal) mk (some fr) (fun _ => 0) (fun s => s.g gb) ∧
  VectorIssues (.vfsqrt d a mk fr) (wordVfsqrt d a mk fr) (.fun1 .sqrt d a) mk (some fr) (fun _ => 0) (fun _ => 0) ∧
  VectorIssues (.vfrcp d a mk fr) (wordVfrcp d a mk fr) (.fun1 .rcp d a) mk (some fr) (fun _ => 0) (fun _ => 0) ∧
  VectorIssues (.vfrsq d a mk fr) (wordVfrsq d a mk fr) (.fun1 .rsq d a) mk (some fr) (fun _ => 0) (fun _ => 0) ∧
  VectorIssues (.vfexp2 d a mk fr) (wordVfexp2 d a mk fr) (.fun1 .exp2 d a) mk (some fr) (fun _ => 0) (fun _ => 0) ∧
  VectorIssues (.vflog2 d a mk fr) (wordVflog2 d a mk fr) (.fun1 .log2 d a) mk (some fr) (fun _ => 0) (fun _ => 0) ∧
  VectorIssues (.vfabs d a mk fr) (wordVfabs d a mk fr) (.fun1 .abs d a) mk (some fr) (fun _ => 0) (fun _ => 0) ∧
  VectorIssues (.vfneg d a mk fr) (wordVfneg d a mk fr) (.fun1 .neg d a) mk (some fr) (fun _ => 0) (fun _ => 0) ∧
  VectorIssues (.vfsqrtVx d a gb mk fr) (wordVfsqrtVx d a gb mk fr) (.fun1 .sqrt d a) mk (some fr) (fun _ => 0) (fun s => s.g gb) ∧
  VectorIssues (.vfcvt d a b mk fr) (wordVfcvt d a b mk fr) (.cvt d a b) mk (some fr) (fun _ => 0) (fun _ => 0) ∧
  VectorIssues (.vfceq md a b mk fr) (wordVfceq md a b mk fr) (.fcmp .eq md a b) mk (some fr) (fun _ => 0) (fun _ => 0) ∧
  VectorIssues (.vfclt md a b mk fr) (wordVfclt md a b mk fr) (.fcmp .lt md a b) mk (some fr) (fun _ => 0) (fun _ => 0) ∧
  VectorIssues (.vfcle md a b mk fr) (wordVfcle md a b mk fr) (.fcmp .le md a b) mk (some fr) (fun _ => 0) (fun _ => 0) ∧
  VectorIssues (.vfcun md a b mk fr) (wordVfcun md a b mk fr) (.fcmp .un md a b) mk (some fr) (fun _ => 0) (fun _ => 0) ∧
  VectorIssues (.vfclass d a mk fr) (wordVfclass d a mk fr) (.fclass d a) mk (some fr) (fun _ => 0) (fun _ => 0) ∧
  VectorIssues (.vfnf md a mk fr) (wordVfnf md a mk fr) (.nf md a) mk (some fr) (fun _ => 0) (fun _ => 0) ∧
  VectorIssues (.vfma d a b c mk fr) (wordVfma d a b c mk fr) (.fma false d a b c) mk (some fr) (fun _ => 0) (fun _ => 0) ∧
  VectorIssues (.vfnma d a b c mk fr) (wordVfnma d a b c mk fr) (.fma true d a b c) mk (some fr) (fun _ => 0) (fun _ => 0) ∧
  VectorIssues (.vima d a b c mk fr) (wordVima d a b c mk fr) (.ima d a b c) mk (some fr) (fun _ => 0) (fun _ => 0) ∧
  VectorIssues (.vplhead d a mk fr) (wordVplhead d a mk fr) (.plhead d a) mk (some fr) (fun _ => 0) (fun _ => 0) ∧
  VectorIssues (.vplstep d a b c mk fr) (wordVplstep d a b c mk fr) (.plstep d a b c) mk (some fr) (fun _ => 0) (fun _ => 0) ∧
  VectorIssues (.vplresc d a b mk fr) (wordVplresc d a b mk fr) (.plresc d a b) mk (some fr) (fun _ => 0) (fun _ => 0) ∧
  VectorIssues (.vunpk d a mk fr) (wordVunpk d a mk fr) (.unpk d a) mk (some fr) (fun _ => 0) (fun _ => 0) ∧
  VectorIssues (.vfredsum d a b mk fr) (wordVfredsum d a b mk fr) (.fredsum d a b) mk (some fr) (fun _ => 0) (fun _ => 0) ∧
  VectorIssues (.vfredmax d a b mk fr) (wordVfredmax d a b mk fr) (.fredmm true d a b) mk (some fr) (fun _ => 0) (fun _ => 0) ∧
  VectorIssues (.vfredmin d a b mk fr) (wordVfredmin d a b mk fr) (.fredmm false d a b) mk (some fr) (fun _ => 0) (fun _ => 0) ∧
  VectorIssues (.vrand d mk fr) (wordVrand d mk fr) (.rnd d) mk (some fr) (fun _ => 0) (fun _ => 0)

/-- R56, R97, R194 to R210. The vector loads and stores. -/
def Obligations.VectorMemoryInstructionsIssue : Prop :=
  ∀ (d b : VReg) (ga gb : GReg) (mk : MaskSel) (iw mw p kk cnt : Fin 4) (nf rep : Fin 8) (rnd : Bool),
  VectorIssues (.vld d ga mk) (wordVld d ga mk) (.mem false .unit d) mk none (fun s => s.g ga) (fun _ => 0) ∧
  VectorIssues (.vlds d ga gb mk) (wordVlds d ga gb mk) (.mem false .strided d) mk none (fun s => s.g ga) (fun s => s.g gb) ∧
  VectorIssues (.vldx d ga b mk iw) (wordVldx d ga b mk iw) (.mem false (.indexed iw b) d) mk none (fun s => s.g ga) (fun _ => 0) ∧
  VectorIssues (.vldseg d ga mk nf mw) (wordVldseg d ga mk nf mw) (.mem false (.segment nf mw) d) mk none (fun s => s.g ga) (fun _ => 0) ∧
  VectorIssues (.vldff d ga mk) (wordVldff d ga mk) (.mem false .faultFirst d) mk none (fun s => s.g ga) (fun _ => 0) ∧
  VectorIssues (.vldpl d ga gb mk p kk rnd) (wordVldpl d ga gb mk p kk rnd) (.mem false (.planar p kk rnd) d) mk none (fun s => s.g ga) (fun s => s.g gb) ∧
  VectorIssues (.vlde d ga mk rep) (wordVlde d ga mk rep) (.mem false (.expand rep) d) mk none (fun s => s.g ga) (fun _ => 0) ∧
  VectorIssues (.vldw d ga cnt) (wordVldw d ga cnt) (.mem false (.whole cnt) d) 0 none (fun s => s.g ga) (fun _ => 0) ∧
  VectorIssues (.vst d ga mk) (wordVst d ga mk) (.mem true .unit d) mk none (fun s => s.g ga) (fun _ => 0) ∧
  VectorIssues (.vsts d ga gb mk) (wordVsts d ga gb mk) (.mem true .strided d) mk none (fun s => s.g ga) (fun s => s.g gb) ∧
  VectorIssues (.vstx d ga b mk iw) (wordVstx d ga b mk iw) (.mem true (.indexed iw b) d) mk none (fun s => s.g ga) (fun _ => 0) ∧
  VectorIssues (.vstseg d ga mk nf mw) (wordVstseg d ga mk nf mw) (.mem true (.segment nf mw) d) mk none (fun s => s.g ga) (fun _ => 0) ∧
  VectorIssues (.vstpl d ga gb mk p kk) (wordVstpl d ga gb mk p kk) (.mem true (.planar p kk false) d) mk none (fun s => s.g ga) (fun s => s.g gb) ∧
  VectorIssues (.vstw d ga cnt) (wordVstw d ga cnt) (.mem true (.whole cnt) d) 0 none (fun s => s.g ga) (fun _ => 0)

/-- R144, R150, R155, R156, R165, R185, R211. VECTOR_EXECUTE of an integer operation: every active element in [VSTART, VL) of the destination becomes f(x, y)
of the same-index elements (or of the scalar read at dispatch), all others, all other registers and every bit beyond the visible
length keep their contents, and FSTAT gains SAT exactly where some result was clamped. VNARROW and VIMA keep what fits FD, clamp with
SAT = 1 and else wrap (R156, R185); VRAND writes the low bits of Rand(i) (R165); VUNPK cuts the group into samples (R211). -/
def Obligations.VectorIntegerElementwise : Prop :=
  (∀ (s : State) (k : CoreId) (e : VEntry) (rest : List VEntry) (o : VBin) (d a : VReg) (b : VSrc),
  (s.core k.val).vq = e :: rest → coreOf e.ctx = k.val → e.op = .int o d a b → e.sound →
  let w := 8 * 2 ^ e.es
  let x := s.ctx e.ctx
  let operand := fun (i : Nat) => match b with | .vec r => x.lane e w r.val i | .scal => e.y.setWidth w
  let done := fun (i : Nat) => e.pos ≤ i ∧ i < e.vl ∧ (e.mask = 0 ∨ (x.m.get (maskReg e.mask)).getLsbD i = true)
  ∃ t y, exec (.vectorExecute k) s = .next t ∧ VectorDone s t k.val e rest y ∧ y = { x with v := y.v, fstat := y.fstat } ∧
    (∀ i < vlmax e.lenLog e.es e.grp,
      (done i → y.lane e w d.val i = o.fn (x.lane e w a.val i) (operand i)) ∧
      (¬ done i → y.lane e w d.val i = x.lane e w d.val i)) ∧
    (∀ r : VReg, r.val < d.val ∨ d.val + 2 ^ e.grp ≤ r.val → y.v.get r = x.v.get r) ∧
    (∀ (r : VReg) (j : Nat), 2 ^ e.lenLog ≤ j → (y.v.get r).getLsbD j = (x.v.get r).getLsbD j) ∧
    ((∃ i, done i ∧ o.clamps (x.lane e w a.val i) (operand i)) → y.fstat = x.fstat ||| flagSAT) ∧
    ((∀ i, done i → ¬ o.clamps (x.lane e w a.val i) (operand i)) → y.fstat = x.fstat)) ∧
  (∀ (s : State) (k : CoreId) (e : VEntry) (rest : List VEntry) (d a b c : VReg),
  (s.core k.val).vq = e :: rest → coreOf e.ctx = k.val → e.sound →
  let x := s.ctx e.ctx
  let done := e.runs x
  (∀ (wa wd : Nat) (sa sd : Bool), e.op = .narrow d a → faOf e.fw = .int wa sa → fdOf e.fw = .int wd sd →
    LaneWise s k e rest d wd done (fun _ i => fitInt wd sd (fwSat e.fw) 0x01 (intIn sa (x.lane e wa a.val i)))) ∧
  (∀ (wa wb wd : Nat) (sa sb sd : Bool), e.op = .ima d a b c → faOf e.fw = .int wa sa → fbOf e.fw = .int wb sb →
    fdOf e.fw = .int wd sd →
    LaneWise s k e rest d wd done (fun _ i => fitInt wd sd (fwSat e.fw) 0
      (intIn sa (x.lane e wa a.val i) * intIn sb (x.lane e wb b.val i) + intIn sd (x.lane e wd c.val i)))) ∧
  (e.op = .rnd d → LaneWise s k e rest d (8 * 2 ^ e.es) done (fun _ i =>
    (((rand e.seed (fwSalt e.fw) e.stripbase i).setWidth (8 * 2 ^ e.es)).toNat, 0))) ∧
  (∀ p, e.op = .unpk d a → faOf e.fw = .pix p →
    let bit := fun (n : Nat) => (x.v.get (Fin.ofNat 32 (a.val + n / 2 ^ e.lenLog))).getLsbD (n % 2 ^ e.lenLog)
    ∃ f : Nat → Nat, LaneWise s k e rest d 16 done (fun _ i => (f i, 0)) ∧
      ∀ i, f i < 2 ^ p ∧ ∀ j < p, (f i).testBit j = bit (p * i + j)))

/-- R150, R157 to R164. VECTOR_EXECUTE of the moves and permutations writes, for each element performed, the element or the value
that the rule names, reads Fill beyond VL across lanes, and leaves every other element and register. VCOMPRESS moves the selected
elements to the lanes that number them, VEXPAND takes them from there; VIOTA counts set bits; VINS writes one element below VL. -/
def Obligations.VectorMovesAndPermutations : Prop :=
  ∀ (s : State) (k : CoreId) (e : VEntry) (rest : List VEntry) (d a b : VReg),
  (s.core k.val).vq = e :: rest → coreOf e.ctx = k.val → e.sound →
  let w := 8 * 2 ^ e.es
  let x := s.ctx e.ctx
  let fill : BitVec w := e.vfill.setWidth w
  let masked := fun (i : Nat) => (x.m.get (maskReg e.mask)).getLsbD i
  let writes := fun (op : VOp) (governed : Bool) (f : Nat → BitVec w) => e.op = op →
    let done := fun (i : Nat) => e.pos ≤ i ∧ i < e.vl ∧ (governed = false ∨ e.mask = 0 ∨ masked i = true)
    ∃ t y, exec (.vectorExecute k) s = .next t ∧ VectorDone s t k.val e rest y ∧ y = { x with v := y.v } ∧
      (∀ i < vlmax e.lenLog e.es e.grp,
        (done i → y.lane e w d.val i = f i) ∧ (¬ done i → y.lane e w d.val i = x.lane e w d.val i)) ∧
      ∀ r : VReg, r.val < d.val ∨ d.val + 2 ^ e.grp ≤ r.val → y.v.get r = x.v.get r
  let below := fun (i : Nat) => (List.range i).countP masked
  writes (.mov d a) true (x.lane e w a.val) ∧
  writes (.bcast d) true (fun _ => e.x.setWidth w) ∧
  writes (.vid d) true (fun i => BitVec.ofNat w i) ∧
  writes (.merge d a b) false (fun i => if masked i then x.lane e w b.val i else x.lane e w a.val i) ∧
  writes (.slide true d a) true (fun i => if e.y.toNat ≤ i then x.lane e w a.val (i - e.y.toNat) else fill) ∧
  writes (.slide false d a) true (fun i => if i + e.y.toNat < e.vl then x.lane e w a.val (i + e.y.toNat) else fill) ∧
  writes (.gather d a b) true (fun i =>
    let j := (x.lane e w b.val i).toNat
    if j < e.vl then x.lane e w a.val j else fill) ∧
  writes (.zip d a b) true (fun i => if i % 2 = 0 then x.lane e w a.val (i / 2) else x.lane e w b.val (i / 2)) ∧
  writes (.unzip d a b) true (fun i => if 2 * i < e.vl then x.lane e w a.val (2 * i) else x.lane e w b.val (2 * i - e.vl)) ∧
  (e.mask ≠ 0 → writes (.expand d a) true (fun i => x.lane e w a.val (below i))) ∧
  (∀ ma : MReg, writes (.iota d ma) true (fun i => BitVec.ofNat w ((List.range i).countP (fun j =>
    (x.m.get ma).getLsbD j && (e.mask == 0 || masked j))))) ∧
  (e.op = .compress d a → e.mask ≠ 0 →
    let moved := fun (i : Nat) => e.pos ≤ i ∧ i < e.vl ∧ masked i = true
    ∃ t y, exec (.vectorExecute k) s = .next t ∧ VectorDone s t k.val e rest y ∧ y = { x with v := y.v } ∧
      (∀ i, moved i → y.lane e w d.val (below i) = x.lane e w a.val i) ∧
      (∀ j < vlmax e.lenLog e.es e.grp, (∀ i, moved i → below i ≠ j) → y.lane e w d.val j = x.lane e w d.val j) ∧
      ∀ r : VReg, r.val < d.val ∨ d.val + 2 ^ e.grp ≤ r.val → y.v.get r = x.v.get r) ∧
  (e.op = .ins d →
    ∃ t y, exec (.vectorExecute k) s = .next t ∧ VectorDone s t k.val e rest y ∧ y = { x with v := y.v } ∧
      (∀ i < vlmax e.lenLog e.es e.grp, y.lane e w d.val i =
        if i = e.y.toNat ∧ i < e.vl then e.x.setWidth w else x.lane e w d.val i) ∧
      ∀ r : VReg, r.val < d.val ∨ d.val + 2 ^ e.grp ≤ r.val → y.v.get r = x.v.get r)

/-- R149, R157, R163, R166 to R168, R187. VECTOR_EXECUTE of compares and mask instructions writes the mask bits that the rules name and
no register besides; VEXT, MPOPC and MFIRST write their general register; the integer reductions combine every active element with the
initial value in element 0. VFREDSUM adds by the tree of R48, in the model's reading of an infinite initial value with SAT (assumption
65); VFREDMAX and VFREDMIN return the operand that R126 puts highest or lowest (R188, R189). -/
def Obligations.VectorMasksAndReductions : Prop :=
  ∀ (s : State) (k : CoreId) (e : VEntry) (rest : List VEntry) (d a b : VReg) (md ma mb : MReg) (gd : GReg),
  (s.core k.val).vq = e :: rest → coreOf e.ctx = k.val → e.sound →
  let w := 8 * 2 ^ e.es
  let x := s.ctx e.ctx
  let m := fun (r : MReg) (i : Nat) => (x.m.get r).getLsbD i
  let active := fun (i : Nat) => i < e.vl ∧ (e.mask = 0 ∨ m (maskReg e.mask) i = true)
  let runs := fun (op : VOp) (p : Ctx → Prop) => e.op = op →
    ∃ t y, exec (.vectorExecute k) s = .next t ∧ VectorDone s t k.val e rest y ∧ p y
  let bits := fun (y : Ctx) (sel : Nat → Prop) (f : Nat → Prop) =>
    y = { x with m := y.m } ∧ (∀ r, r ≠ md → y.m.get r = x.m.get r) ∧
    ∀ i < 2048, (sel i → ((y.m.get md).getLsbD i = true ↔ f i)) ∧ (¬ sel i → (y.m.get md).getLsbD i = m md i)
  (∀ o : VCmp, runs (.cmp o md a b) (fun y => bits y (fun i => e.pos ≤ i ∧ active i)
    (fun i => o.holds (x.lane e w a.val i) (x.lane e w b.val i)))) ∧
  runs (.mlog .and md ma mb) (fun y => bits y (· < e.vl) (fun i => m ma i = true ∧ m mb i = true)) ∧
  runs (.mlog .or md ma mb) (fun y => bits y (· < e.vl) (fun i => m ma i = true ∨ m mb i = true)) ∧
  runs (.mlog .xor md ma mb) (fun y => bits y (· < e.vl) (fun i => m ma i ≠ m mb i)) ∧
  runs (.mlog .andn md ma mb) (fun y => bits y (· < e.vl) (fun i => m ma i = true ∧ m mb i = false)) ∧
  runs (.mnot md ma) (fun y => bits y (· < e.vl) (fun i => m ma i = false)) ∧
  runs (.msbf false md ma) (fun y => bits y active (fun i => ∀ j ≤ i, active j → m ma j = false)) ∧
  runs (.msbf true md ma) (fun y => bits y active (fun i => ∀ j < i, active j → m ma j = false)) ∧
  runs (.mset md true) (fun y => bits y (· < e.vl) (fun _ => True)) ∧
  runs (.mset md false) (fun y => bits y (· < e.vl) (fun _ => False)) ∧
  runs (.mmovg md) (fun y => bits y (· < 64) (fun i => e.x.getLsbD i = true)) ∧
  runs (.mmovm gd ma) (fun y => y = x.setG gd ((x.m.get ma).setWidth 64)) ∧
  runs (.mfirst gd ma) (fun y =>
    (∀ i, active i → m ma i = true → (∀ j < i, active j → m ma j = false) → y = x.setG gd (BitVec.ofNat 64 i)) ∧
    ((∀ i, active i → m ma i = false) → y = x.setG gd (-1))) ∧
  runs (.mpopc gd ma) (fun y => ∃ n, y = x.setG gd (BitVec.ofNat 64 n) ∧
    n = (List.range e.vl).countP (fun i => (e.mask == 0 || m (maskReg e.mask) i) && m ma i)) ∧
  runs (.ext gd a) (fun y =>
    y = x.setG gd (if e.y.toNat < e.vl then (x.lane e w a.val e.y.toNat).setWidth 64 else (e.vfill.setWidth w).setWidth 64)) ∧
  (∀ (o : VRed) (f : BitVec w → BitVec w → BitVec w),
    (o, f) ∈ [(VRed.sum, VBin.fn .add), (.max, VBin.fn .max), (.min, VBin.fn .min), (.maxu, VBin.fn .maxu), (.minu, VBin.fn .minu),
      (.and, VBin.fn .and), (.or, VBin.fn .or), (.xor, VBin.fn .xor)] →
    runs (.red o d a b) (fun y => y = { x with v := y.v } ∧ (∀ r, r ≠ d → y.v.get r = x.v.get r) ∧
      (∀ i, 0 < i → (i + 1) * w ≤ 2 ^ e.lenLog → y.lane e w d.val i = x.lane e w d.val i) ∧
      y.lane e w d.val 0 = ((List.range e.vl).filter (fun i => e.mask == 0 || m (maskReg e.mask) i)).foldl
        (fun z i => f z (x.lane e w a.val i)) (x.lane e w b.val 0))) ∧
  (∀ (fa fd : FpFmt) (n : Nat) (T : Nat → Nat → Nat), e.op = .fredsum d a b → faOf e.fw = .fp fa → fdOf e.fw = .fp fd →
    e.vl ≤ 2 ^ n → (n = 0 ∨ 2 ^ (n - 1) < e.vl) →
    let rnd : Rounding := ⟨.rne, fwSat e.fw, false, 0⟩
    let cv := fun (i : Nat) =>
      let v := fpVal fa false (x.lane e fa.width a.val i).toNat
      let r := toFp fd rnd v.exact
      (r.1, r.2 ||| sigFlag v)
    let add := fun (p q : Nat) =>
      let r := toFp fd rnd (addNum .rne (fpVal fd false p) (fpVal fd false q))
      (r.1, r.2 ||| sigFlag (fpVal fd false p) ||| sigFlag (fpVal fd false q))
    let half := fun (l : Nat) => 2 ^ (n - l - 1)
    let init := (x.lane e fd.width b.val 0).toNat
    (∀ i < 2 ^ n, (active i → T 0 i = (cv i).1) ∧ (¬ active i → T 0 i = 0)) →
    (∀ l < n, ∀ i < half l, T (l + 1) i = (add (T l i) (T l (i + half l))).1) →
    let flag := fun (j : Nat) => (∃ i, active i ∧ (cv i).2.getLsbD j = true) ∨
      (∃ l < n, ∃ i < half l, (add (T l i) (T l (i + half l))).2.getLsbD j = true) ∨ (add init (T n 0)).2.getLsbD j = true
    ∃ t y, exec (.vectorExecute k) s = .next t ∧ VectorDone s t k.val e rest y ∧ y = { x with v := y.v, fstat := y.fstat } ∧
      y.lane e fd.width d.val 0 = BitVec.ofNat fd.width (add init (T n 0)).1 ∧
      (∀ i, 0 < i → (i + 1) * fd.width ≤ 2 ^ e.lenLog → y.lane e fd.width d.val i = x.lane e fd.width d.val i) ∧
      (∀ r, r ≠ d → y.v.get r = x.v.get r) ∧
      ∀ j < 7, y.fstat.getLsbD j = true ↔ x.fstat.getLsbD j = true ∨ flag j) ∧
  (∀ (fa : FpFmt) (mx : Bool), e.op = .fredmm mx d a b → faOf e.fw = .fp fa → fdOf e.fw = .fp fa →
    let read := fun (z : BitVec fa.width) => fa.readAs (fwFtz e.fw) z.toNat
    let operand := fun (z : Nat) => z = read (x.lane e fa.width b.val 0) ∨ ∃ i, active i ∧ z = read (x.lane e fa.width a.val i)
    ∃ t y z, exec (.vectorExecute k) s = .next t ∧ VectorDone s t k.val e rest y ∧ y = { x with v := y.v, fstat := y.fstat } ∧
      y.lane e fa.width d.val 0 = BitVec.ofNat fa.width z ∧
      ((∀ q, operand q → fa.nanAt q = true) → z = fa.oneNan) ∧
      (∀ q, operand q → fa.nanAt q = false → operand z ∧ fa.nanAt z = false ∧
        if mx then fa.placeOf q ≤ fa.placeOf z else fa.placeOf z ≤ fa.placeOf q) ∧
      (∀ i, 0 < i → (i + 1) * fa.width ≤ 2 ^ e.lenLog → y.lane e fa.width d.val i = x.lane e fa.width d.val i) ∧
      (∀ r, r ≠ d → y.v.get r = x.v.get r) ∧
      ((∃ q, operand q ∧ fa.sigAt q = true) → y.fstat = x.fstat ||| 0x01) ∧
      ((∀ q, operand q → fa.sigAt q = false) → y.fstat = x.fstat))

/-- R97, R148, R206, R242. VECTOR_EXECUTE completes every instruction of the vector unit that accesses no memory, whatever its operands:
only its context's vector, mask and general registers, FSTAT, VSTART and IRET change, and its entry leaves the queue. The values of the
floating-point and planar instructions, lane by lane, with one rounding into FD: arithmetic, conversions, multiply-add and estimates
(R175 to R180, R184, and assumption 66 for UF of an estimate), minimum, maximum and sign (R126, R127), compares, class and non-finite
test on bit patterns (R181 to R183), and block scales, steps and rescaling (R190 to R192). As the model reads the rules, a block scale is
read as the lanes before have left it (assumption 43), a planar significand lies in the low 8P bits (assumption 46), and exp2 and log2 of
an operand round the exact real value (assumption 47). -/
def Obligations.VectorUnitCompletes : Prop := (∀ (s : State) (k : CoreId) (e : VEntry) (rest : List VEntry),
  (s.core k.val).vq = e :: rest → coreOf e.ctx = k.val → (∀ st md d, e.op ≠ .mem st md d) → e.cntL = false → e.cntS = false →
  ∃ t y, exec (.vectorExecute k) s = .next t ∧ VectorDone s t k.val e rest y ∧
    y = { s.ctx e.ctx with v := y.v, m := y.m, g := y.g, fstat := y.fstat }) ∧
  (∀ (s : State) (k : CoreId) (e : VEntry) (rest : List VEntry) (d a b c : VReg) (src : VSrc) (fa fb fd : FpFmt) (rm : RMode),
  (s.core k.val).vq = e :: rest → coreOf e.ctx = k.val → e.sound → faOf e.fw = .fp fa → RMode.ofCode (fwRM e.fw) = some rm →
  let x := s.ctx e.ctx
  let ftz := fwFtz e.fw
  let done := e.runs x
  let A := fun (i : Nat) => fpVal fa ftz (x.lane e fa.width a.val i).toNat
  let second := fun (w i : Nat) => (match src with | .vec r => x.lane e w r.val i | .scal => e.y.setWidth w).toNat
  let B := fun (i : Nat) => fpVal fb ftz (second fb.width i)
  let into := fun (i : Nat) (z : Exact) => toFp fd (e.mode rm i) z
  let two := fun (o : FBin) (f : Machine.Num → Machine.Num → Exact) => e.op = .fbin o d a src → fbOf e.fw = .fp fb → fdOf e.fw = .fp fd →
    LaneWise s k e rest d fd.width done (fun _ i => let r := into i (f (A i) (B i)); (r.1, r.2 ||| sigFlag (A i) ||| sigFlag (B i)))
  let same := fun (o : FBin) (first : Int → Int → Bool) => e.op = .fbin o d a src → fbOf e.fw = .fp fa → fdOf e.fw = .fp fa →
    LaneWise s k e rest d fa.width done (fun _ i =>
      let p := fa.readAs ftz (x.lane e fa.width a.val i).toNat
      let q := fa.readAs ftz (second fa.width i)
      (fa.pickOf first p q, if fa.sigAt p || fa.sigAt q then 0x01 else 0))
  let estimated := fun (o : FUn) (f : Machine.Num → Exact) => e.op = .fun1 o d a → fdOf e.fw = .fp fd →
    LaneWise s k e rest d fd.width done (fun _ i =>
      let v := estimate (f (A i))
      let r := into i v.1
      (r.1, r.2 ||| sigFlag (A i) ||| (if v.2 then 0x10 else 0)))
  let sign := fun (o : FUn) (f : Nat → Nat) => e.op = .fun1 o d a → fdOf e.fw = .fp fa →
    LaneWise s k e rest d fa.width done (fun _ i =>
      let p := fa.readAs ftz (x.lane e fa.width a.val i).toNat
      (f (if fa.nanAt p then fa.oneNan else p), 0))
  two .add (addNum rm) ∧
  two .sub (fun p q => addNum rm p (negNum q)) ∧
  two .mul mulExact ∧
  two .div divExact ∧
  same .min (fun p q => decide (p ≤ q)) ∧
  same .max (fun p q => decide (q ≤ p)) ∧
  (∀ (w : Nat) (sg : Bool), e.op = .fbin .scale d a src → fbOf e.fw = .int w sg → fdOf e.fw = .fp fd →
    LaneWise s k e rest d fd.width done (fun _ i =>
      let z := match A i with
        | .fin n m q => Machine.Num.fin n m (if m = 0 then 0 else q + intIn sg (BitVec.ofNat w (second w i)))
        | v => v
      let r := into i z.exact
      (r.1, r.2 ||| sigFlag (A i)))) ∧
  (e.op = .fun1 .sqrt d a → fdOf e.fw = .fp fd →
    LaneWise s k e rest d fd.width done (fun _ i => let r := into i (sqrtExact (A i)); (r.1, r.2 ||| sigFlag (A i)))) ∧
  estimated .rcp (divExact (.fin false 1 0)) ∧
  estimated .rsq rsqrtExact ∧
  estimated .exp2 exp2Exact ∧
  estimated .log2 log2Exact ∧
  sign .abs fa.magOf ∧
  sign .neg (fun p => p ^^^ 2 ^ (fa.width - 1)) ∧
  (∀ neg : Bool, e.op = .fma neg d a b c → fbOf e.fw = .fp fb → fdOf e.fw = .fp fd →
    LaneWise s k e rest d fd.width done (fun _ i =>
      let q := fpVal fb ftz (x.lane e fb.width b.val i).toNat
      let z := fpVal fd ftz (x.lane e fd.width c.val i).toNat
      let r := into i (fmaExact rm neg (A i) q z)
      (r.1, r.2 ||| sigFlag (A i) ||| sigFlag q ||| sigFlag z))) ∧
  (e.op = .fclass d a → LaneWise s k e rest d (8 * 2 ^ e.es) done (fun _ i =>
    (2 ^ fa.classOf (fa.readAs ftz (x.lane e fa.width a.val i).toNat), 0))) ∧
  (∀ p : Nat, e.op = .plstep d a b c → fdOf e.fw = .pb p →
    LaneWise s k e rest d (Fmt.width (.pb p)) done (fun now i =>
      let S := (now.lane e 8 b.val (i / 32)).toNat
      let q := ((x.lane e (Fmt.width (.pb p)) c.val i).setWidth (8 * p)).toInt
      let u := match A i with
        | .fin n m z => Machine.Num.fin n m (z + (8 * (p : Int) - 1) - ((S : Int) - 127))
        | v => v
      let r := if S = 255 then (0, (0x01 : FFlags)) else toPlanar p (e.mode rm i) 0 (addNum rm (.fin (decide (q < 0)) q.natAbs 0) u)
      (((BitVec.ofNat (8 * p) r.1).signExtend 32).toNat, r.2 ||| sigFlag (A i))))) ∧
  (∀ (s : State) (k : CoreId) (e : VEntry) (rest : List VEntry) (d a b : VReg) (rm : RMode),
  (s.core k.val).vq = e :: rest → coreOf e.ctx = k.val → e.sound → RMode.ofCode (fwRM e.fw) = some rm →
  let x := s.ctx e.ctx
  let held := fun (f : Fmt) (r : Nat) => match f with
    | .pb p => ((BitVec.ofNat (8 * p) r).signExtend 32).toNat
    | _ => r
  (e.op = .cvt d a b → LaneWise s k e rest d (fdOf e.fw).width (e.runs x) (fun now i =>
    let S := (now.lane e 8 b.val (i / 32)).toNat
    let v := fmtVal (faOf e.fw) (fwFtz e.fw) S (x.lane e (faOf e.fw).width a.val i).toNat
    let r := toFmt (fdOf e.fw) (e.mode rm i) S v.exact
    (held (fdOf e.fw) r.1, r.2 ||| sigFlag v))) ∧
  (∀ p q : Nat, e.op = .plresc d a b → faOf e.fw = .pb p → fdOf e.fw = .pb q →
    LaneWise s k e rest d (Fmt.width (.pb q)) (e.runs x) (fun now i =>
      let old := (now.lane e 8 b.val (2 * (i / 32))).toNat
      let new := (now.lane e 8 b.val (2 * (i / 32) + 1)).toNat
      let z := ((x.lane e (Fmt.width (.pb p)) a.val i).setWidth (8 * p)).toInt
      let r := if new = 255 then (0, (0 : FFlags))
        else if old = 255 then (0, 0x01)
        else toPlanar q (e.mode rm i) 0
          (.fin (decide (z < 0)) z.natAbs ((old : Int) - (new : Int) + 8 * (q : Int) - 8 * (p : Int)) false)
      (held (.pb q) r.1, r.2)))) ∧
  (∀ (s : State) (k : CoreId) (e : VEntry) (rest : List VEntry) (a b : VReg) (md : MReg) (fa fb : FpFmt),
  (s.core k.val).vq = e :: rest → coreOf e.ctx = k.val → e.sound → faOf e.fw = .fp fa →
  let x := s.ctx e.ctx
  let read := fun (f : FpFmt) (r : VReg) (i : Nat) => f.readAs (fwFtz e.fw) (x.lane e f.width r.val i).toNat
  let gives := fun (holds : Nat → Bool) (flags : Nat → FFlags) =>
    ∃ t y, exec (.vectorExecute k) s = .next t ∧ VectorDone s t k.val e rest y ∧ y = { x with m := y.m, fstat := y.fstat } ∧
      (∀ r, r ≠ md → y.m.get r = x.m.get r) ∧
      (∀ i < 2048, (e.runs x i → (y.m.get md).getLsbD i = holds i) ∧
        (¬ e.runs x i → (y.m.get md).getLsbD i = (x.m.get md).getLsbD i)) ∧
      ∀ j < 7, y.fstat.getLsbD j = true ↔ x.fstat.getLsbD j = true ∨ ∃ i, e.runs x i ∧ (flags i).getLsbD j = true
  let compares := fun (o : FCmp) (holds : Bool → Nat → Nat → Bool) (quiet : Bool) => e.op = .fcmp o md a b → fbOf e.fw = .fp fb →
    gives (fun i => holds (fa.nanAt (read fa a i) || fb.nanAt (read fb b i)) (read fa a i) (read fb b i))
      (fun i => if (if quiet then fa.sigAt (read fa a i) || fb.sigAt (read fb b i)
        else fa.nanAt (read fa a i) || fb.nanAt (read fb b i)) then 0x01 else 0)
  compares .eq (fun un p q => !un && fpBelow true fa fb p q && fpBelow true fb fa q p) true ∧
  compares .lt (fun un p q => !un && fpBelow false fa fb p q) false ∧
  compares .le (fun un p q => !un && fpBelow true fa fb p q) false ∧
  compares .un (fun un _ _ => un) true ∧
  (e.op = .nf md a → gives (fun i => fa.nanAt (read fa a i) || fa.infAt (read fa a i))
    (fun i => if fa.nanAt (read fa a i) || fa.infAt (read fa a i) then 0x40 else 0))) ∧
  (∀ (s : State) (k : CoreId) (e : VEntry) (rest : List VEntry) (d a : VReg) (fa : FpFmt) (p : Nat),
  (s.core k.val).vq = e :: rest → coreOf e.ctx = k.val → e.sound → e.op = .plhead d a → faOf e.fw = .fp fa → fdOf e.fw = .pb p →
  let x := s.ctx e.ctx
  let z := fun (i : Nat) => fa.readAs (fwFtz e.fw) (x.lane e fa.width a.val i).toNat
  let inBlock := fun (n i : Nat) => i / 32 = n ∧ i < e.vl ∧ (e.mask = 0 ∨ (x.m.get (maskReg e.mask)).getLsbD i = true)
  let bad := fun (i : Nat) => fa.nanAt (z i) = true ∨ fa.infAt (z i) = true
  let fit := fun (n S : Nat) => ∀ i, inBlock n i → fa.fits (z i) p S
  let zero := fun (n : Nat) => ∀ i, inBlock n i → fa.magOf (z i) = 0
  ∃ f : Nat → Nat × FFlags, LaneWise s k e rest d 8 (fun n => e.pos / 32 ≤ n ∧ 32 * n < e.vl) (fun _ n => f n) ∧
    ∀ n, e.pos / 32 ≤ n → 32 * n < e.vl →
      ((∃ i, inBlock n i ∧ bad i) → (f n).1 = 255 ∧
        ((∃ i, inBlock n i ∧ fa.sigAt (z i) = true) → (f n).2 = 0x01) ∧
        ((∀ i, inBlock n i → fa.sigAt (z i) = false) → (f n).2 = 0)) ∧
      ((∀ i, inBlock n i → ¬ bad i) →
        (zero n → f n = (0, 0)) ∧
        (∀ S ≤ 254, ¬ zero n → fit n S → (∀ S' < S, ¬ fit n S') → f n = (S, 0)) ∧
        (¬ zero n → (∀ S ≤ 254, ¬ fit n S) → f n = if fwSat e.fw then (254, 0x20) else (255, 0x04))))

/-- R196, R197, R201, R202, R205 to R208, R210, R362. VECTOR_EXECUTE of a load pins its window and waits for the data without changing a byte
or a vector register; of a store, it writes the window's bytes in order and no other; where the window is the whole of the instruction
it completes. A window holds every performed element up to its end, at the addresses of its form; VLOAD_DATA_RETURN gives each lane the
bytes of its element as its form forms them; an element that fails ends the instruction there with its trap, or cuts a fault-first load
short. One that had no home outside the die at dispatch counts from here on, and waits while its counter is at 65,535 (R362; assumption 98). TVAL of a planar store stays the failing element's own address (assumption 67). -/
def Obligations.VectorMemoryPerforms : Prop := (∀ (s : State) (k : CoreId) (e : VEntry) (rest : List VEntry),
  (s.core k.val).vq = e :: rest → coreOf e.ctx = k.val → (s.ctx e.ctx).sb = [] →
  let w := 8 * 2 ^ e.es
  let x := s.ctx e.ctx
  let v := (s.pinWindow e).2
  let ps := v.elems.flatMap (·.2)
  let active := fun (i : Nat) => (∃ st cnt d, e.op = .mem st (.whole cnt) d) ∨ e.mask = 0 ∨ (x.m.get (maskReg e.mask)).getLsbD i = true
  let stop := match v.fault with | some f => f.1 | none => v.upto
  let room := anyFar k.val ps = false ∨
    ((e.op.isLoad = true → e.cntL = true ∨ x.cntL ≠ 0xFFFF) ∧ (e.op.isStore = true → e.cntS = true ∨ x.cntS ≠ 0xFFFF))
  (∀ st md d, e.op = .mem st md d →
    (v.elems.map (·.1)).Pairwise (· < ·) ∧ (∀ i, i ∈ v.elems.map (·.1) ↔ e.pos ≤ i ∧ i < stop ∧ active i) ∧
    ∀ p ∈ v.elems, (pieceLocs p.2).length = (e.byteAddrs x p.1).length → pieceAddrs p.2 = e.byteAddrs x p.1) ∧
  (e.op.isLoad = true ∨ e.op.isStore = true → ¬ room → ∀ t, exec (.vectorExecute k) s ≠ .next t) ∧
  (e.op.isLoad = true → e.win = none → s.vHeld e v.elems = false → v.elems ≠ [] → room →
    ∃ t, exec (.vectorExecute k) s = .next t ∧ (∀ l : Loc, l.exists_ → t.reads l = s.reads l) ∧
      (∀ j, j ≠ e.ctx → t.ctx j = { s.ctx j with pmcnt := (t.ctx j).pmcnt }) ∧
      t.ctx e.ctx = { s.ctx e.ctx with
        cntL := if anyFar k.val ps ∧ e.cntL = false then (s.ctx e.ctx).cntL + 1 else (s.ctx e.ctx).cntL, pmcnt := (t.ctx e.ctx).pmcnt } ∧
      (t.core k.val).vq = { e with win := some v, cntL := e.cntL || anyFar k.val ps } :: rest) ∧
  (∀ d, e.op = .mem true .unit d → e.win = none → s.vHeld e v.elems = false → room → v.fault = none → e.limit ≤ v.upto →
    (∀ p ∈ v.elems, (pieceLocs p.2).length = 2 ^ e.es) → (pieceLocs ps).Nodup → (s.ctx e.ctx).dlog = false →
    (∀ l ∈ pieceLocs ps, l.exists_ ∧ ∀ pa, l = .hbm pa → s.chanDown pa = false) →
    ∃ t, exec (.vectorExecute k) s = .next t ∧
      (∀ p ∈ v.elems, ∀ j, (h : j < (pieceLocs p.2).length) →
        t.reads ((pieceLocs p.2)[j]'h) = s.kept ((pieceLocs p.2)[j]'h) (((s.ctx e.ctx).lane e w d.val p.1).extractLsb' (8 * j) 8)) ∧
      (∀ l : Loc, l.exists_ → l ∉ pieceLocs ps → t.reads l = s.reads l) ∧
      (∀ j, j ≠ e.ctx → t.ctx j = { s.ctx j with pmcnt := (t.ctx j).pmcnt }) ∧
      (t.ctx e.ctx).vstart = 0 ∧ (t.ctx e.ctx).v = (s.ctx e.ctx).v ∧ (t.ctx e.ctx).g = (s.ctx e.ctx).g ∧
      (t.ctx e.ctx).iret = (s.ctx e.ctx).iret + 1 ∧ (t.core k.val).vq = rest) ∧
  (∀ md d, e.op = .mem true md d → e.win = none → s.vHeld e v.elems = false → room → v.fault.isSome = true ∨ e.limit ≤ v.upto →
    (∀ p ∈ v.elems, (pieceLocs p.2).length = (e.byteAddrs x p.1).length) → (pieceLocs ps).Nodup → x.dlog = false →
    (∀ l ∈ pieceLocs ps, l.exists_ ∧ ∀ pa, l = .hbm pa → s.chanDown pa = false) →
    ∃ t, exec (.vectorExecute k) s = .next t ∧ (t.core k.val).vq = rest ∧
      (∀ p ∈ v.elems, ∀ j, (h : j < (pieceLocs p.2).length) → t.reads ((pieceLocs p.2)[j]'h) =
        s.kept ((pieceLocs p.2)[j]'h) (e.stored x md d p.1 j)) ∧
      (∀ l : Loc, l.exists_ → l ∉ pieceLocs ps → t.reads l = s.reads l) ∧
      (t.ctx e.ctx).v = x.v ∧ (t.ctx e.ctx).g = x.g ∧ (t.ctx e.ctx).m = x.m ∧ (t.ctx e.ctx).fstat = x.fstat ∧
      match v.fault with
      | none => (t.ctx e.ctx).vstart = 0 ∧ (t.ctx e.ctx).pc = x.pc ∧ (t.ctx e.ctx).iret = x.iret + 1
      | some f => x.Trapped { t.ctx e.ctx with vstart := x.vstart, cntL := x.cntL, cntS := x.cntS, acksDue := x.acksDue } s.cycles
          f.2.1 e.pc (BitVec.ofNat 64 f.2.2) ∧ (t.ctx e.ctx).vstart = BitVec.ofNat 12 f.1)) ∧
  (∀ (s : State) (k : CoreId) (e : VEntry) (rest : List VEntry) (md : VMode) (d : VReg) (q : VWin),
  (s.core k.val).vq = e :: rest → coreOf e.ctx = k.val → e.op = .mem false md d → e.win = some q →
  q.poison k.val s = none → q.shut k.val s = none → s.engineOwns (pieceLocs (q.elems.flatMap (·.2))) = false → q.fault.isSome = true ∨ e.limit ≤ q.upto → { e with cntL := false, cntS := false }.sound →
  (q.elems.map (·.1)).Nodup →
  (∀ p ∈ q.elems, p.1 < e.limit ∧ (pieceLocs p.2).length = (e.byteAddrs (s.ctx e.ctx) p.1).length ∧
    ∀ l ∈ pieceLocs p.2, l.exists_) →
  let x := s.ctx e.ctx
  let w := e.memLane md
  let cut := (match md with | .faultFirst => true | _ => false) &&
    q.fault.any (fun f => e.lowest x != some f.1)
  ∃ t, exec (.vloadDataReturn k) s = .next t ∧ (∀ l : Loc, l.exists_ → t.reads l = s.reads l) ∧
    (∀ j, j ≠ e.ctx → t.ctx j = s.ctx j) ∧ (t.core k.val).vq = rest ∧
    (∀ f < md.fields, ∀ i < e.memLanes md,
      (∀ p ∈ q.elems, p.1 = i →
        (t.ctx e.ctx).lane e w (d.val + f * 2 ^ e.grp) i = md.loaded w f ((pieceLocs p.2).map s.reads)) ∧
      ((∀ p ∈ q.elems, p.1 ≠ i) → (t.ctx e.ctx).lane e w (d.val + f * 2 ^ e.grp) i = x.lane e w (d.val + f * 2 ^ e.grp) i)) ∧
    (∀ r : VReg, r.val < d.val ∨ md.fields * e.memLanes md * w ≤ (r.val - d.val) * 2 ^ e.lenLog → (t.ctx e.ctx).v.get r = x.v.get r) ∧
    (t.ctx e.ctx).g = x.g ∧ (t.ctx e.ctx).m = x.m ∧ (t.ctx e.ctx).fstat = x.fstat ∧
    (t.ctx e.ctx).cntL = (if e.cntL then x.cntL - 1 else x.cntL) ∧
    match q.fault with
    | none => (t.ctx e.ctx).vstart = 0 ∧ (t.ctx e.ctx).pc = x.pc ∧ (t.ctx e.ctx).iret = x.iret + 1 ∧ (t.ctx e.ctx).vl = x.vl ∧
        (t.ctx e.ctx).vffe = (if md = .faultFirst then BitVec.ofNat 13 e.vl else x.vffe)
    | some f =>
      if cut then
        (t.ctx e.ctx).vstart = 0 ∧ (t.ctx e.ctx).pc = x.pc ∧ (t.ctx e.ctx).iret = x.iret + 1 ∧
        (t.ctx e.ctx).vl = BitVec.ofNat 12 f.1 ∧ (t.ctx e.ctx).vffe = BitVec.ofNat 13 (4096 + f.1)
      else (t.ctx e.ctx).vstart = BitVec.ofNat 12 f.1 ∧
        x.Trapped { t.ctx e.ctx with v := x.v, vstart := x.vstart, cntL := x.cntL, acksDue := x.acksDue } s.cycles f.2.1 e.pc
          (BitVec.ofNat 64 f.2.2))

/-! Tile instructions. -/

/-- R56, R217, R225, R226, R228, R231. The tile instructions that access no memory: without ownership they raise 0x0B with their address
(0x0A before that where they need the vector unit and VEN is clear); with it, a bad format word raises 0x03, a bad slice 0x02, and
otherwise they enter the tile queue with the masks, cells and format word that they read at issue. -/
def Obligations.TileInstructionsIssue : Prop :=
  ∀ (s : State) (ac : AccReg) (qa qb : PanelReg) (mr mc : MaskSel) (fr : FmtSel) (zero neg clrf col : Bool) (v : VReg) (gi : GReg) (n : Fin 4),
  let x := s.me
  let tq := (s.core (coreOf s.cur)).tq
  let fw := x.getG (fmtReg fr)
  let masked := mr ≠ 0 ∨ mc ≠ 0
  let low := fun (k : MaskSel) => if k = 0 then BitVec.allOnes 64 else (x.m.get (maskReg k)).extractLsb' 0 64
  let cnt := 2 ^ n.val
  let s0 := (s.g gi).toNat
  let regs := (cnt * 2048 + 2 ^ x.vcap.toNat - 1) / 2 ^ x.vcap.toNat
  let badSlice := (if s.vqOf s.cur = [] then x.vstart.toNat else 0) ≠ 0 ∨ 8 < regs ∨ 64 < s0 + cnt ∨ 32 < v.val + regs
  let queued := fun (i : Instr) (op : TOp) (f : Word) (vd : Bool) =>
    (tq.length < 8 → ∃ t, exec i s = .next t ∧ TileQueued s t (tileEntryOf s op f 0 0 [] 0 none) vd) ∧
    (8 ≤ tq.length → Waits i s .waitUnit .tqFull)
  let tmop := Instr.tmop ac qa qb mr mc fr zero neg
  let tmops := Instr.tmops ac qa qb mr mc fr zero neg
  let tslv := Instr.tslv ac v gi n col
  let tvsl := Instr.tvsl ac v gi n col
  (TileOwner s → (masked → x.status.ven = true) → mopFwOk fw = true → (masked → x.vclear = false ∧ s.vqOf s.cur = []) →
    queued tmop (.mop false ac qa qb (low mr) (low mc) (BitVec.allOnes 256) zero neg) fw false ∧
    queued tmops (.mop true ac qa qb (BitVec.allOnes 64) (low mc)  ((x.m.get (maskReg mr)).extractLsb' 0 256) zero neg) fw false) ∧
  (TileOwner s → queued (.tzero ac clrf) (.zero ac clrf) 0 false) ∧
  (TileOwner s → x.status.ven = true → ¬ badSlice → x.vclear = false → s.vqOf s.cur = [] →
    (s.slvPending s.cur [⟨v.val, 16 * regs, true⟩] = false → queued tslv (.slv ac v s0 cnt col) 0 true) ∧
    (s.slvPending s.cur [⟨v.val, 16 * regs, false⟩] = false →
      queued tvsl (.vsl ac s0 cnt col ((List.range (64 * cnt)).map (fun j => BitVec.ofNat 32 (x.elem x.vcap.toNat v.val 32 j)))) 0 false)) ∧
  (TileOwner s → masked → x.status.ven = true → mopFwOk fw = true → x.vclear = true →
    Waits tmop s .waitUnit .vclear ∧ Waits tmops s .waitUnit .vclear) ∧
  (TileOwner s → (masked → x.status.ven = true) → mopFwOk fw = false → Raises tmop s 0x03 fw ∧ Raises tmops s 0x03 fw) ∧
  (TileOwner s → x.status.ven = true → badSlice → Raises tslv s 0x02 (BitVec.ofNat 64 (wordTslv ac v gi n col)) ∧
    Raises tvsl s 0x02 (BitVec.ofNat 64 (wordTvsl ac v gi n col))) ∧
  (x.status.ven = false → Raises tslv s 0x0A (BitVec.ofNat 64 (wordTslv ac v gi n col)) ∧
    Raises tvsl s 0x0A (BitVec.ofNat 64 (wordTvsl ac v gi n col)) ∧
    (masked → Raises tmop s 0x0A (BitVec.ofNat 64 (wordTmop ac qa qb mr mc fr zero neg)) ∧
      Raises tmops s 0x0A (BitVec.ofNat 64 (wordTmops ac qa qb mr mc fr zero neg)))) ∧
  (¬ TileOwner s → (masked → x.status.ven = true) → Raises tmop s 0x0B x.pc ∧ Raises tmops s 0x0B x.pc) ∧
  (¬ TileOwner s → Raises (.tzero ac clrf) s 0x0B x.pc) ∧
  (¬ TileOwner s → x.status.ven = true → Raises tslv s 0x0B x.pc ∧ Raises tvsl s 0x0B x.pc)

/-- R37, R217, R232 to R236. The tile instructions that access memory: each raises 0x0B without ownership (R217); with it, the checks of
R235, the footprint of each, and the entry into the queue. -/
def Obligations.TileMemoryInstructionsIssue : Prop :=
  ∀ (s : State) (q : PanelReg) (ac : AccReg) (a b : GReg) (fr : FmtSel) (zero : Bool) (sc : CastScope) (it : TileItem),
  (¬ TileOwner s → ∀ i ∈ [Instr.tldq q a b fr false, .tldq q a b fr true, .tldqt q a b fr false, .tldqt q a b fr true, .tmcast q a b fr sc,
    .tsta ac a b fr zero, .tsave it a, .trstr it a], Raises i s 0x0B s.me.pc) ∧
  (TileOwner s →
  let fw := s.me.getG (fmtReg fr)
  let x := s.g a
  let y := s.g b
  let fa := faOf fw
  let w := fa.width
  let depth := 1024 / w
  let rows := fun (n len : Nat) => (List.range n).map (fun i => ((x + BitVec.ofNat 64 i * y).toNat, len))
  let panel := fwReservedZero fw = true ∧ ∃ f, Fmt.ofCode (fwFA fw) = some f ∧ f.isPanel = true
  let cells := fwReservedZero fw = true ∧ fwRM fw ≤ 5 ∧ (Fmt.ofCode (fwFA fw) = some (.fp .fp32) ∨ Fmt.ofCode (fwFA fw) = some (.int 32 true)) ∧
    ∃ f, Fmt.ofCode (fwFD fw) = some f ∧ (f.isF = true ∨ f.isI = true)
  let is := fun (op : TOp) (f b' : Word) => fun (v : State) (ps : List Piece) (n : Nat) (e : TEntry) => e = tileEntryOf v op f x b' ps n none
  let size := match it with | .acc _ => 16448 | .panel _ => 8704
  (panel →
    TileMemoryIssues (.tldq q a b fr false) s .load (max 1 (w / 8)) (rows depth (8 * w)) x y (is (.load q false false) fw y) ∧
    TileMemoryIssues (.tldqt q a b fr false) s .load (max 1 (w / 8)) (rows 64 128) x y (is (.load q true false) fw y) ∧
    TileMemoryIssues (.tmcast q a b fr sc) s .load (max 1 (w / 8)) (rows depth (8 * w)) x y
      (fun v ps n e => ∃ c, e = tileEntryOf v (.load q false false) fw x y ps n c ∧ (v.me.gang = 0 → c = none) ∧ (v.me.gang ≠ 0 → c ≠ none))) ∧
  TileMemoryIssues (.tldq q a b fr true) s .load 1 (rows 8 64) x y (is (.load q false true) 0 y) ∧
  TileMemoryIssues (.tldqt q a b fr true) s .load 1 (rows 64 8) x y (is (.load q true true) 0 y) ∧
  (cells → TileMemoryIssues (.tsta ac a b fr zero) s .store ((fdOf fw).width / 8) (rows 64 (8 * (fdOf fw).width)) x y (is (.store ac zero) fw y)) ∧
  TileMemoryIssues (.tsave it a) s .store 64 [(x.toNat, size)] x 0 (is (.save it) 0 0) ∧
  TileMemoryIssues (.trstr it a) s .load 64 [(x.toNat, size)] x 0 (is (.rstr it) 0 0) ∧
  (¬ panel → Raises (.tldq q a b fr false) s 0x03 fw ∧ Raises (.tldqt q a b fr false) s 0x03 fw ∧ Raises (.tmcast q a b fr sc) s 0x03 fw) ∧
  (¬ cells → Raises (.tsta ac a b fr zero) s 0x03 fw))

/-- R49, R213, R223, R225, R226, R228, R229, R231 to R234, R236. TILE_EXECUTE performs the oldest tile instruction and TILE_COMPLETE takes it off the queue
and lowers counter T. TZERO clears its accumulator; TMOP and TMOPS of every format add to every enabled cell its groups of products in
order, each with one rounding, and their flags to TSTAT (R49; the sign of an exact zero sum under RDN is assumption 26, a cell that is a
NaN before a group that is invalid by itself assumption 27), and leave the cells whose row or column is off; an INT8 TMOP without SAT so
adds or subtracts the sum of its 128 products, modulo 2^32. TLDQ and TLDQT write their bytes to a panel or a band, a combined TMCAST the
bytes of the shared read (R233); TVSL writes its captured cells, TSLV an accumulator's cells to vector registers; TSTA stores every cell converted, with the
flags in TSTAT; TSAVE and TRSTR move the image of an accumulator or panel (R232, R234, R236); a TMOP, TMOPS,
TSTA or TSLV over a poisoned accumulator performs nothing, whatever else it would find, and records the error where none is pending. A memory instruction waits for its context's earlier stores, for lines that engines own, and as
a store for reservations (R226, R286, R298, R305). -/
def Obligations.TileUnitExecutesAndCompletes : Prop := ∀ (s : State) (k : CoreId) (e : TEntry) (rest : List TEntry),
  (s.core k.val).tq = e :: rest → coreOf e.ctx = k.val →
  let c := s.core k.val
  let runs := fun (y : State → Prop) => ∃ t, exec (.tileExecute k) s = .next t ∧ (t.core k.val).tq = { e with started := true } :: rest ∧
    (∀ j, (t.ctx j).g = (s.ctx j).g ∧ (t.ctx j).pc = (s.ctx j).pc ∧ (t.ctx j).m = (s.ctx j).m) ∧ y t
  let tile := fun (t : State) (acc : Vector (BitVec 131072) 8) (tstat : Vector TFlags 8) =>
    t = { s with cores := t.cores } ∧ ∀ j, t.core j =
      if j = k.val then { c with tq := { e with started := true } :: rest, acc := acc, tstat := tstat } else s.core j
  let locs := pieceLocs e.pieces
  let free := e.started = false ∧ (e.pieces = [] ∨ ∀ b ∈ (s.ctx e.ctx).sb, e.seq ≤ b.seq) ∧ s.engineOwns locs = false ∧
    (e.op.stores = true → s.heldBack (some e.ctx) (s.dlogLocs e.who e.pieces ++ locs) = false)
  let sound := c.badAcc = 0 ∧ c.badPanel = 0 ∧ c.badBand = 0 ∧ c.badCheck = 0
  (free → runs (fun _ => True)) ∧
  (∀ ac, free → (c.tstat.get ac).poison = true → (∃ comp qa qb rows cols km zero neg, e.op = .mop comp ac qa qb rows cols km zero neg) ∨
      (∃ zero, e.op = .store ac zero) ∨ (∃ v s0 n col, e.op = .slv ac v s0 n col) →
    ∃ t, exec (.tileExecute k) s = .next t ∧ t = { s with cores := t.cores } ∧ t.core k.val =
      let y := { c with tq := { e with started := true } :: rest }
      if c.errPend then y else { y with errPend := true, errCtx := BitVec.ofNat 2 (e.ctx % 4), errAddr := e.pc }) ∧
  (e.started = true → ∃ t, exec (.tileComplete k) s = .next t ∧ (∀ l, t.reads l = s.reads l) ∧ (∀ j, j ≠ e.ctx → t.ctx j = s.ctx j) ∧
    t.ctx e.ctx = { s.ctx e.ctx with
      cntT := (s.ctx e.ctx).cntT - 1, iret := (s.ctx e.ctx).iret + 1, trapRun := 0, pmcnt := (t.ctx e.ctx).pmcnt } ∧
    ∀ j, t.core j = if j = k.val then { c with tq := rest, tlb2 := (t.core j).tlb2 } else s.core j) ∧
  (e.pieces = [] → free → sound →
    (∀ ac clrf, e.op = .zero ac clrf → runs (fun t => tile t (c.acc.set ac.val 0 ac.isLt)
      (if clrf then c.tstat.set ac.val ⟨false, false, false, false, false⟩ ac.isLt else c.tstat))) ∧
    (∀ ac qa qb rows cols km zero neg comp, e.op = .mop comp ac qa qb rows cols km zero neg → (c.tstat.get ac).poison = false →
      runs (fun t => ∃ x f, tile t (c.acc.set ac.val x ac.isLt) (c.tstat.set ac.val f ac.isLt) ∧
        (∀ m < 64, ∀ n < 64, (rows.getLsbD m && cols.getLsbD n) = false →
          x.extractLsb' (32 * (64 * m + n)) 32 = (c.acc.get ac).extractLsb' (32 * (64 * m + n)) 32) ∧
        (∀ sa sb, comp = false → faOf e.fw = .int 8 sa → fbOf e.fw = .int 8 sb → fdOf e.fw = .int 32 true → fwSat e.fw = false →
          ∀ m < 64, ∀ n < 64, (rows.getLsbD m && cols.getLsbD n) = true →
            let el := fun (p : BitVec 65536) (signed : Bool) (kk j : Nat) =>
              let z := p.extractLsb' (8 * (64 * kk + j)) 8
              if signed then z.toInt else (z.toNat : Int)
            let sum : Int := ((List.range 128).map (fun kk => el (c.panel.get qa) sa kk m * el (c.panel.get qb) sb kk n)).sum
            x.extractLsb' (32 * (64 * m + n)) 32 =
              (if zero then 0 else (c.acc.get ac).extractLsb' (32 * (64 * m + n)) 32) + BitVec.ofInt 32 (if neg then -sum else sum)))) ∧
    (∀ ac qa qb rows cols km zero neg comp rm, e.op = .mop comp ac qa qb rows cols km zero neg → (c.tstat.get ac).poison = false →
      mopFwOk e.fw = true → RMode.ofCode (fwRM e.fw) = some rm →
      runs (fun t => ∃ x f, tile t (c.acc.set ac.val x ac.isLt) (c.tstat.set ac.val f ac.isLt) ∧
        MopValues c e.fw rm comp ac qa qb rows cols km zero neg x f)) ∧
    (∀ ac s0 n col cells, e.op = .vsl ac s0 n col cells → s0 + n ≤ 64 → cells.length = 64 * n →
      runs (fun t => ∃ x, tile t (c.acc.set ac.val x ac.isLt) c.tstat ∧ ∀ r < 64, ∀ j < 64,
        let cell := x.extractLsb' (32 * (if col then 64 * j + r else 64 * r + j)) 32
        (s0 ≤ r ∧ r < s0 + n → cells[64 * (r - s0) + j]? = some cell) ∧
        (¬ (s0 ≤ r ∧ r < s0 + n) → cell = (c.acc.get ac).extractLsb' (32 * (if col then 64 * j + r else 64 * r + j)) 32)))) ∧
  (free → (∀ l ∈ locs, l.exists_ ∧ s.closed (regionOf e.ctx) l = false ∧ s.poisonAt (some k.val) l 1 = none) →
    let loads := fun (p : State → Prop) => ∃ t, exec (.tileExecute k) s = .next t ∧ (∀ l : Loc, l.exists_ → t.reads l = s.reads l) ∧
      (∀ j, t.ctx j = { s.ctx j with pmcnt := (t.ctx j).pmcnt }) ∧ p t
    let panels := fun (t : State) (q : PanelReg) =>
      (∀ p, p ≠ q → (t.core k.val).panel.get p = c.panel.get p) ∧ (t.core k.val).acc = c.acc ∧ (t.core k.val).band = c.band ∧
      (t.core k.val).tstat = c.tstat
    let bands := fun (t : State) (q : PanelReg) =>
      (∀ p, p ≠ q → (t.core k.val).band.get p = c.band.get p) ∧ (t.core k.val).acc = c.acc ∧ (t.core k.val).panel = c.panel ∧
      (t.core k.val).tstat = c.tstat
    (∀ q, e.op = .load q false false → e.cast = none → locs.length = 8192 → loads (fun t => panels t q ∧
      ∀ i, (h : i < locs.length) → ((t.core k.val).panel.get q).extractLsb' (8 * i) 8 = s.reads (locs[i]'h))) ∧
    (∀ q i, e.op = .load q false false → e.cast = some i →
      (∀ d, (s.casts.find? (·.id == i)).bind (·.data) = some d → d.length = 8192 → (∀ b ∈ d, b.2 = false) → loads (fun t => panels t q ∧
        t.casts = s.casts ∧ ∀ n b, d[n]? = some b → ((t.core k.val).panel.get q).extractLsb' (8 * n) 8 = b.1)) ∧
      ((s.casts.find? (·.id == i)).bind (·.data) = none → locs.length = 8192 → loads (fun t => panels t q ∧
        (∀ n, (h : n < locs.length) → ((t.core k.val).panel.get q).extractLsb' (8 * n) 8 = s.reads (locs[n]'h)) ∧
        t.casts = s.casts.map (fun r => if r.id = i then { r with data := some (locs.map (fun l => (s.reads l, false))), from_ := e.pieces } else r)))) ∧
    (∀ q, e.op = .load q true false → e.cast = none → locs.length = 8192 → (faOf e.fw).isPanel = true → loads (fun t => panels t q ∧
      let w := (faOf e.fw).width
      ∀ kk < 1024 / w, ∀ m < 64, ∀ j < w, ∀ l, locs[128 * m + (w * kk + j) / 8]? = some l →
        ((t.core k.val).panel.get q).getLsbD (w * (64 * kk + m) + j) = (s.reads l).getLsbD ((w * kk + j) % 8))) ∧
    (∀ q, e.op = .load q false true → e.cast = none → locs.length = 512 → loads (fun t => bands t q ∧
      ∀ i, (h : i < locs.length) → ((t.core k.val).band.get q).extractLsb' (8 * i) 8 = s.reads (locs[i]'h))) ∧
    (∀ q, e.op = .load q true true → e.cast = none → locs.length = 512 → loads (fun t => bands t q ∧
      ∀ b < 8, ∀ j < 64, ∀ l, locs[8 * j + b]? = some l →
        ((t.core k.val).band.get q).extractLsb' (8 * (64 * b + j)) 8 = s.reads l)) ∧
    (∀ ac, e.op = .rstr (.acc ac) → e.cast = none → locs.length = 16448 → loads (fun t =>
      (∀ i < 16384, ∀ l, locs[i]? = some l → ((t.core k.val).acc.get ac).extractLsb' (8 * i) 8 = s.reads l) ∧
      (∀ l, locs[16384]? = some l → (t.core k.val).tstat.get ac = ⟨(s.reads l).getLsbD 0, (s.reads l).getLsbD 1, (s.reads l).getLsbD 2,
        (s.reads l).getLsbD 3, (s.reads l).getLsbD 4⟩) ∧
      (∀ p, p ≠ ac → (t.core k.val).acc.get p = c.acc.get p ∧ (t.core k.val).tstat.get p = c.tstat.get p) ∧
      (t.core k.val).panel = c.panel ∧ (t.core k.val).band = c.band)) ∧
    (∀ q, e.op = .rstr (.panel q) → e.cast = none → locs.length = 8704 → loads (fun t =>
      (∀ i < 8192, ∀ l, locs[i]? = some l → ((t.core k.val).panel.get q).extractLsb' (8 * i) 8 = s.reads l) ∧
      (∀ i < 512, ∀ l, locs[8192 + i]? = some l → ((t.core k.val).band.get q).extractLsb' (8 * i) 8 = s.reads l) ∧
      (∀ p, p ≠ q → (t.core k.val).panel.get p = c.panel.get p ∧ (t.core k.val).band.get p = c.band.get p) ∧
      (t.core k.val).acc = c.acc ∧ (t.core k.val).tstat = c.tstat))) ∧
  (e.pieces = [] → free → sound → ∀ ac v s0 n col, e.op = .slv ac v s0 n col → (c.tstat.get ac).poison = false →
    let L := 2 ^ e.lenLog
    5 ≤ e.lenLog → e.lenLog ≤ 14 → s0 + n ≤ 64 → v.val * L + 2048 * n ≤ 32 * L →
    runs (fun t => t.core k.val = { c with tq := { e with started := true } :: rest } ∧
      t.ctx e.ctx = { s.ctx e.ctx with v := (t.ctx e.ctx).v } ∧ (∀ j, j ≠ e.ctx → t.ctx j = s.ctx j) ∧
      let at_ := fun (x : Ctx) (b : Nat) => (x.v.get (Fin.ofNat 32 (v.val + b / L))).getLsbD (b % L)
      (∀ r < n, ∀ j < 64, ∀ b < 32, at_ (t.ctx e.ctx) (32 * (64 * r + j) + b) =
        (c.acc.get ac).getLsbD (32 * (if col then 64 * j + (s0 + r) else 64 * (s0 + r) + j) + b)) ∧
      (∀ b, 2048 * n ≤ b → b < (32 - v.val) * L → at_ (t.ctx e.ctx) b = at_ (s.ctx e.ctx) b) ∧
      ∀ r : VReg, r < v → (t.ctx e.ctx).v.get r = (s.ctx e.ctx).v.get r)) ∧
  (free → sound → s.closedPiece (regionOf e.ctx) e.pieces = none → locs.Nodup → e.dlog = false → (∀ l ∈ locs, l.exists_ ∧ ∀ pa, l = .hbm pa → s.chanDown pa = false) →
    let stores := fun (byte : Nat → Byte) (p : Core → Prop) => ∃ t, exec (.tileExecute k) s = .next t ∧
      (∀ i, (h : i < locs.length) → t.reads (locs[i]'h) = s.kept (locs[i]'h) (byte i)) ∧ (∀ l : Loc, l.exists_ → l ∉ locs → t.reads l = s.reads l) ∧
      (∀ j, t.ctx j = { s.ctx j with pmcnt := (t.ctx j).pmcnt }) ∧ p (t.core k.val)
    (∀ ac zero, e.op = .store ac zero → (c.tstat.get ac).poison = false → ∀ rm, RMode.ofCode (fwRM e.fw) = some rm →
      let fd := fdOf e.fw
      let nb := fd.width / 8
      (fd.isF = true ∨ fd.isI = true) → locs.length = 4096 * nb →
      let cell := fun (n : Nat) =>
        let v := fmtVal (faOf e.fw) (fwFtz e.fw) 0 ((c.acc.get ac).extractLsb' (32 * n) 32).toNat
        let r := toFmt fd ⟨rm, fwSat e.fw, fwFtz e.fw,
          if rm = .sr then (rand e.seed (fwSalt e.fw) e.stripbase n).toNat % 2 ^ 24 else 0⟩ 0 v.exact
        (r.1, r.2 ||| sigFlag v)
      let rose := fun (j : Nat) => (List.range 4096).any (fun n => (cell n).2.getLsbD j)
      let f := c.tstat.get ac
      stores (fun i => BitVec.ofNat 8 ((cell (i / nb)).1 / 2 ^ (8 * (i % nb)))) (fun y =>
        y.acc = (if zero then c.acc.set ac.val 0 ac.isLt else c.acc) ∧ y.panel = c.panel ∧ y.band = c.band ∧
        y.tstat = c.tstat.set ac.val ⟨f.ovf || rose 2, f.nv || rose 0, f.sat || rose 5, f.nx || rose 4, f.poison⟩ ac.isLt)) ∧
    (∀ ac, e.op = .save (.acc ac) → locs.length = 16448 →
      let f := c.tstat.get ac
      stores (fun i => if i < 16384 then (c.acc.get ac).extractLsb' (8 * i) 8
        else if i = 16384 then BitVec.ofBool f.poison ++ (BitVec.ofBool f.nx ++ (BitVec.ofBool f.sat ++ (BitVec.ofBool f.nv ++
          BitVec.ofBool f.ovf))) |>.setWidth 8
        else 0) (fun y => y.acc = c.acc ∧ y.tstat = c.tstat ∧ y.panel = c.panel ∧ y.band = c.band)) ∧
    (∀ q, e.op = .save (.panel q) → locs.length = 8704 →
      stores (fun i => if i < 8192 then (c.panel.get q).extractLsb' (8 * i) 8 else (c.band.get q).extractLsb' (8 * (i - 8192)) 8)
        (fun y => y.acc = c.acc ∧ y.tstat = c.tstat ∧ y.panel = c.panel ∧ y.band = c.band)))

/-! Barriers, channels, counters. -/

/-- R366 to R372. Gang barriers: an arrival outside any gang raises 0x10; an arrival waits for the context's own stores, is
counted in its phase, and with ARR = EXP completes the phase, whose waiters receive RES and the release in their event queues (R338); GARRIVE gives the phase token and goes on, GBAR
is parked until BARRIER_RELEASE gives it RES; GWAIT is parked unless its phase is complete; BARRIER_TIMEOUT raises 0x10 after the
deadline, counted modulo 2^64 (R376), and withdraws the arrival; so does an interrupt taken before the release is accepted, with EPC at the GBAR (R370; VSTART: assumption 48). At .pod the ranks of the group entry take the place of the members, and an
arrival that the entry does not admit raises 0x10 (R372). That a phase with EXP = 0 never completes is the model's reading
(assumption 16: R367 against R368), and so are the wait for the context's own stores and tile instructions (assumption 18) and that a
GWAIT at .pod needs no admission by the group table (assumption 53). -/
def Obligations.GangBarriers : Prop := ∀ (s : State) (d a : GReg) (id : Fin 32) (sc : BarScope) (comb : Comb) (c : CtxId),
  let code : Nat := match sc with | .core => 0 | .quad => 1 | .die => 2 | .mod => 3 | .pod => 4
  let tval : Word := BitVec.ofNat 64 (id.val + 256 * code)
  let k : BarKey := ⟨s.me.gang.toNat, sc, barInst sc (coreOf s.cur), id.val⟩
  let b := s.bar k
  let full := fun (n : BitVec 18) => 0 < s.barExp k ∧ s.barExp k ≤ n.toNat
  (s.me.gang = 0 → Raises (.gbar d a id sc comb) s 0x10 tval ∧ Raises (.garrive d id sc) s 0x10 tval ∧ Raises (.gwait a id sc) s 0x10 tval) ∧
  (s.me.gang ≠ 0 → sc ≠ .pod → s.me.sb ≠ [] →
    Waits (.gbar d a id sc comb) s .waitUnit .drained ∧ Waits (.garrive d id sc) s .waitUnit .drained) ∧
  (s.me.gang ≠ 0 → sc ≠ .pod → s.me.sb = [] → s.tileMemory s.cur = false → s.me.park = .none →
    (∃ (t : State) (y : Ctx), exec (.garrive d id sc) s = .next t ∧ t = { s with ctxs := t.ctxs, bars := t.bars } ∧
      y = { s.me with pmcnt := y.pmcnt } ∧ y.Wrote t.me d (BitVec.ofNat 64 b.phase.toNat) (s.me.pc + 4) ∧
      (∀ k', k' ≠ k → t.bar k' = s.bar k') ∧
      (full (b.arr + 1) → t.bar k = ⟨b.phase + 1, 0, [], resOf (b.contribs.map (·.2))⟩ ∧
        ∀ j, j ≠ s.cur → t.ctx j = (s.ctx j).receive k b.phase.toNat (resOf (b.contribs.map (·.2)))) ∧
      (¬ full (b.arr + 1) → t.bar k = { b with arr := b.arr + 1 } ∧ ∀ j, j ≠ s.cur → t.ctx j = s.ctx j)) ∧
    (let l := if comb = .none then b.contribs else b.contribs ++ [(s.cur, comb, s.g a)]
      ∃ t res, exec (.gbar d a id sc comb) s = .next t ∧ t = { s with ctxs := t.ctxs, bars := t.bars } ∧
      t.me = { s.me with
        st := .parked, wait := .none, young := false, pmcnt := t.me.pmcnt
        park := .bar k b.phase.toNat true d s.time.toNat res
        events := if res.isSome then Event.join ⟨.barrier, 0⟩ s.me.events else s.me.events } ∧
      (∀ k', k' ≠ k → t.bar k' = s.bar k') ∧
      (full (b.arr + 1) → res = some (resOf (l.map (·.2))) ∧ t.bar k = ⟨b.phase + 1, 0, [], resOf (l.map (·.2))⟩ ∧
        ∀ j, j ≠ s.cur → t.ctx j = (s.ctx j).receive k b.phase.toNat (resOf (l.map (·.2)))) ∧
      (¬ full (b.arr + 1) → res = none ∧ t.bar k = { b with arr := b.arr + 1, contribs := l } ∧
        ∀ j, j ≠ s.cur → t.ctx j = s.ctx j))) ∧
  (s.me.gang ≠ 0 → sc = .pod →
    let r := regionOf s.cur
    let k := s.podKey r id.val
    let p := s.pod k
    let out := s.group r id.val = none ∨ s.digestsAgree r id.val = false ∨ p.differs = true ∨
      ∃ g, s.group r id.val = some g ∧ s.rankOf r g s.cur = none
    (out → Raises (.gbar d a id sc comb) s 0x10 tval ∧ Raises (.garrive d id sc) s 0x10 tval) ∧
    (¬ out → s.me.sb ≠ [] → Waits (.gbar d a id sc comb) s .waitUnit .drained ∧ Waits (.garrive d id sc) s .waitUnit .drained) ∧
    (∀ g rank, ¬ out → s.group r id.val = some g → s.rankOf r g s.cur = some rank → s.me.sb = [] → s.tileMemory s.cur = false →
      s.me.park = .none →
      let i := SMap.get 0 p.counts rank
      let whole := ∀ j < g.n, p.phase < if j = rank then i + 1 else SMap.get 0 p.counts j
      let counted := SMap.put 0 p.counts rank (i + 1)
      let given := fun (x : PodArr) => (((p.arrivals ++ [x]).filter (fun e => e.phase == p.phase)).map (fun e => (e.comb, e.value))).filter
        (fun e => e.1 != .none)
      let arrives := fun (t : State) (x : PodArr) => t = { s with ctxs := t.ctxs, podBars := t.podBars } ∧
        (∀ k', k' ≠ k → t.pod k' = s.pod k') ∧
        (whole → t.pod k = ⟨p.phase + 1, counted, (p.arrivals ++ [x]).filter (fun e => e.phase != p.phase), resOf (given x), p.differs⟩ ∧
          ∀ j, j ≠ s.cur → t.ctx j = (s.ctx j).receive k (p.phase % 65536) (resOf (given x))) ∧
        (¬ whole → t.pod k = { p with counts := counted, arrivals := p.arrivals ++ [x] } ∧
          ∀ j, j ≠ s.cur → t.ctx j = s.ctx j)
      (∃ (t : State) (y : Ctx), exec (.garrive d id sc) s = .next t ∧ arrives t ⟨i, rank, some s.cur, .none, 0⟩ ∧
        y = { s.me with pmcnt := y.pmcnt } ∧ y.Wrote t.me d (BitVec.ofNat 64 (i % 65536)) (s.me.pc + 4)) ∧
      (∃ t res, exec (.gbar d a id sc comb) s = .next t ∧ arrives t ⟨i, rank, some s.cur, comb, s.g a⟩ ∧
        t.me = { s.me with
          st := .parked, wait := .none, young := false, pmcnt := t.me.pmcnt, park := .bar k (i % 65536) true d s.time.toNat res
          events := if res.isSome then Event.join ⟨.barrier, 0⟩ s.me.events else s.me.events } ∧
        (whole → i = p.phase → res = some (t.pod k).res) ∧ (¬ whole → res = none))) ∧
    (let n := (BitVec.ofNat 16 p.phase - (s.g a).extractLsb' 0 16).toNat;
      (1 ≤ n ∧ n ≤ 32768 → CompletesAs (.gwait a id sc) s s.me (s.me.pc + 4)) ∧
      (¬ (1 ≤ n ∧ n ≤ 32768) → ∃ t, exec (.gwait a id sc) s = .next t ∧ OnlyMe s t ∧ t.me = { s.me with
        st := .parked, wait := .none, young := false
        park := .bar k ((s.g a).extractLsb' 0 16).toNat false 0 s.time.toNat none }))) ∧
  (s.me.gang ≠ 0 → sc ≠ .pod →
    let n := (b.phase - (s.g a).extractLsb' 0 16).toNat
    (1 ≤ n ∧ n ≤ 32768 → CompletesAs (.gwait a id sc) s s.me (s.me.pc + 4)) ∧
    (¬ (1 ≤ n ∧ n ≤ 32768) → ∃ t, exec (.gwait a id sc) s = .next t ∧ OnlyMe s t ∧ t.me = { s.me with
      st := .parked, wait := .none, young := false
      park := .bar k ((s.g a).extractLsb' 0 16).toNat false 0 s.time.toNat none })) ∧
  (∀ (o : Comb) (f : Word → Word → Word) (v : Word) (l : List Word),
    (o, f) ∈ [(Comb.add, fun x y => x + y), (.or, fun x y => x ||| y), (.and, fun x y => x &&& y),
      (.max, fun x y => if x.toInt < y.toInt then y else x), (.min, fun x y => if y.toInt < x.toInt then y else x),
      (.maxu, fun x y => if x.toNat < y.toNat then y else x)] →
    resOf ((o, v) :: l.map (fun x => (o, x))) = l.foldl f v) ∧
  resOf [] = 0 ∧
  (∀ l : List (Comb × Word), (∃ e ∈ l, ∃ f ∈ l, e.1 ≠ f.1) → resOf l = 0) ∧
  (∀ k' p g d' t0 r, (s.ctx c.val).park = .bar k' p g d' t0 (some r) → ∃ t, exec (.barrierRelease c) s = .next t ∧ OnlyCtx c.val s t ∧
    let x : Ctx := { s.ctx c.val with events := (s.ctx c.val).events.filter (fun e => e.kind != .barrier) }
    (if g then x.Wrote (t.ctx c.val) d' r (x.pc + 4) else t.ctx c.val = x.completed (x.pc + 4))) ∧
  (∀ k' p g d' since, (s.ctx c.val).park = .bar k' p g d' since none → k'.sc ≠ .pod →
    let bdl := (s.gangOf (s.ctx c.val).gang.toNat).bdl
    bdl ≠ 0 → bdl ≤ (s.time - BitVec.ofNat 64 since).toNat → ∃ t, exec (.barrierTimeout c) s = .next t ∧
      TrapTaken { s with bars := t.bars } t c.val 0x10 (s.ctx c.val).pc (barTval k'.id k'.sc) ∧
      (∀ k'', k'' ≠ k' → t.bar k'' = s.bar k'') ∧
      t.bar k' = if g then { s.bar k' with
        arr := (s.bar k').arr - 1, contribs := (s.bar k').contribs.filter (fun e => e.1 != c.val) } else s.bar k') ∧
  (∀ k' p g d' since, (s.ctx c.val).park = .bar k' p g d' since none → k'.sc = .pod →
    let bdl := (s.gangOf (s.ctx c.val).gang.toNat).bdl
    let x := s.pod k'
    bdl ≠ 0 → bdl ≤ (s.time - BitVec.ofNat 64 since).toNat → ∃ t, exec (.barrierTimeout c) s = .next t ∧
      TrapTaken { s with podBars := t.podBars } t c.val 0x10 (s.ctx c.val).pc (barTval k'.id k'.sc) ∧
      (∀ k'', k'' ≠ k' → t.pod k'' = s.pod k'') ∧ (g = false → t.pod k' = x) ∧
      (g = true → ∀ e, x.arrivals.reverse.find? (fun e => e.ctx == some c.val) = some e → t.pod k' = { x with
        counts := SMap.put 0 x.counts e.rank (SMap.get 0 x.counts e.rank - 1), arrivals := x.arrivals.erase e })) ∧
  (∀ k' p g d' since r stop,
    let x := s.ctx c.val
    let core := s.core (coreOf c.val)
    let y := s.modCtx c.val (fun z => { z with vstart := if s.resuming c.val then z.vstart else 0 })
    x.park = .bar k' p g d' since r → x.st = .parked → x.status.ie = true → core.fenced = false → (s.region (regionOf c.val)).st = .assigned →
    x.miss = .none → s.vqOf c.val = [] → ¬ (core.errPend = true ∧ core.errCtx.toNat = c.val % 4) →
    (∃ i : Fin 6, x.status.ipend.getLsbD i.val = true) →
    (r ≠ none → ∀ t, exec (.interruptTake c stop) s ≠ .next t) ∧
    (r = none → ∃ t, exec (.interruptTake c stop) s = .next t ∧
      (∃ i : Fin 6, x.status.ipend.getLsbD i.val = true ∧
        TrapTaken { y with bars := t.bars, podBars := t.podBars } t c.val (0x40 + i.val) x.pc (x.ipendTval.get i)) ∧
      (∀ k'', k'' ≠ k' ∨ g = false → t.bar k'' = s.bar k'' ∧ t.pod k'' = s.pod k'') ∧
      (g = true → k'.sc ≠ .pod → t.pod k' = s.pod k' ∧ t.bar k' = { s.bar k' with
        arr := (s.bar k').arr - 1, contribs := (s.bar k').contribs.filter (fun e => e.1 != c.val) }) ∧
      (g = true → k'.sc = .pod → t.bar k' = s.bar k' ∧
        ∀ e, (s.pod k').arrivals.reverse.find? (fun e => e.ctx == some c.val) = some e → t.pod k' = { s.pod k' with
          counts := SMap.put 0 (s.pod k').counts e.rank (SMap.get 0 (s.pod k').counts e.rank - 1), arrivals := (s.pod k').arrivals.erase e })))

/-- R333 to R336. Channels: CHWAIT and CHRECV park on an empty channel; CHRECV takes the oldest message into its four registers. CHPOST to a
core that may not be reached, or to an unbound channel, raises 0x08, and to an interrupt channel from U mode 0x04; otherwise its message
goes to the end of the channel, every context parked on the channel becomes READY at its CHWAIT or CHRECV, and an interrupt that the binding
asks for is accepted for its context (R338); with 8 messages it waits, until CHPOST_ACCEPT finds room, at which it counts as issued (R377). That a CHWAIT so woken issues again is the model's
choice (assumption 74). -/
def Obligations.Channels : Prop := ∀ (s : State) (dq aq : Fin 8) (ch : Fin 16) (b : GReg),
  let me := coreOf s.cur
  let bind := s.binding me ch.val
  let may := s.me.status.mode = true ∨ ((bind.mode = 1 ∨ bind.mode = 2) ∧ bind.ctx = s.cur % 4)
  let parks := fun (i : Instr) => ∃ t, exec i s = .next t ∧ OnlyMe s t ∧
    t.me = { s.me with st := .parked, wait := .none, young := false, park := .chan ch }
  (¬ may → Raises (.chwait ch) s 0x04 (BitVec.ofNat 64 (wordChwait ch)) ∧ Raises (.chrecv dq ch) s 0x04 (BitVec.ofNat 64 (wordChrecv dq ch))) ∧
  (may → s.chan me ch = [] → parks (.chwait ch) ∧ parks (.chrecv dq ch)) ∧
  (may → ∀ m rest, s.chan me ch = m :: rest → CompletesAs (.chwait ch) s s.me (s.me.pc + 4) ∧
    ∃ t, exec (.chrecv dq ch) s = .next t ∧ t = { s with ctxs := t.ctxs, cores := t.cores } ∧ (∀ j, j ≠ s.cur → t.ctx j = s.ctx j) ∧
      (∀ r, t.me.getG r = if r = 0 then 0 else if r.val / 4 = dq.val then
        (match r.val % 4 with | 0 => m.m0 | 1 => m.m1 | 2 => m.m2 | _ => m.m3) else s.me.getG r) ∧
      t.me = { s.me.completed (s.me.pc + 4) with g := t.me.g } ∧
      ∀ j, t.core j = if j = me then { s.core j with chans := (s.core j).chans.set ch.val rest ch.isLt } else s.core j) ∧
  (let x := (s.g b).toNat
    let k := x / 2 ^ 4 % 2 ^ 10
    let r := regionOfCore k
    let n : Fin 16 := Fin.ofNat 16 (x % 16)
    let reach := x / 2 ^ 14 = 0 ∧ (s.region r).st = .assigned ∧ s.islandOf r = s.islandOf (regionOf s.cur)
    let tgt := s.binding k n.val
    let msg : ChMsg := ⟨s.g (quadReg aq 0), s.g (quadReg aq 1), s.g (quadReg aq 2), s.g (quadReg aq 3)⟩
    (¬ reach ∨ tgt.mode = 0 → Raises (.chpost aq b) s 0x08 (s.g b)) ∧
    (reach → tgt.mode = 3 → s.me.status.mode = false → Raises (.chpost aq b) s 0x04 (BitVec.ofNat 64 (wordChpost aq b))) ∧
    (reach → tgt.mode ≠ 0 → (tgt.mode = 3 → s.me.status.mode = true) → s.me.sb = [] → s.tileMemory s.cur = false →
      (8 ≤ (s.chan k n).length → Waits (.chpost aq b) s .waitUnit (.post aq b)) ∧
      ((s.chan k n).length < 8 → s.me.park = .none →
        let hit := tgt.mode = 3 ∨ (tgt.mode = 2 ∧ (s.ctx (k * 4 + tgt.ctx)).chmask.getLsbD n.val = true)
        let told := fun (j : Nat) (x : Ctx) =>
          let y := if coreOf j = k then x.accept ⟨.chan n, 0⟩ else x
          if hit ∧ j = k * 4 + tgt.ctx then y.accept ⟨.cause (if tgt.mode = 3 then 4 else 2), BitVec.ofNat 64 n.val⟩ else y
        let put := fun (i : Instr) (me : Ctx) => ∃ t, exec i s = .next t ∧ t = { s with ctxs := t.ctxs, cores := t.cores } ∧
          (∀ j, t.core j = if j = k then { s.core j with chans := (s.core j).chans.set n.val (s.chan k n ++ [msg]) n.isLt } else s.core j) ∧
          t.me = (told s.cur me).completed (s.me.pc + 4) ∧
          (∀ j, j ≠ s.cur → t.ctx j = told j (s.ctx j)) ∧
          ∀ j, j ≠ s.cur → coreOf j = k → (s.ctx j).st = .parked → (s.ctx j).park = .chan n → (s.ctx j).miss = .none →
            (t.ctx j).st = .ready ∧ (t.ctx j).wait = .again ∧ (t.ctx j).park = .none
        put (.chpost aq b) s.me ∧
          (s.me.wait = .post aq b → s.cur < 4096 → put (.chpostAccept (Fin.ofNat 4096 s.cur)) (s.me.count 0x01 1)))))

/-- R299, R336, R337, R363, R364, R373, R375. The arrivals at a core: a KIND-0 reply lowers counter C of its gang member's context (with
GANG 0, of whatever thread the context holds), or adds to the decrements held for the member, of at most 256 pairs, where another thread
runs there; a KIND-1 reply goes to the end of its channel, or is dropped and counted in ROUTE where the binding refuses it; each byte of a
KIND-2 reply lowers its counter by one, sets OVER where that takes it below its range or a posted one below 0, and wakes the contexts in
BCWAIT on it, and the last byte of a weave RUN waits for the RUNs before it (assumption 23). A KIND-0 reply that finds counter C at 0 is discarded and counted in STALE. The command whose reply is delivered, with its last byte for KIND 2, has completed, or its status
word follows. A reply that finds no room, or an earlier one to its place held, is one of at most four that its engine holds; a held
reply is delivered by HELD_REPLY_RETRY once it can be. One whose sender, target or issuer has been reset since is dropped and counted
in STALE. -/
def Obligations.RepliesArrive : Prop := ∀ (s : State) (k : CoreId) (a : Arrival),
  let here := regionOfCore k.val
  let current := (s.region a.region).inc.toNat = a.inc ∧ (s.region (engineRegion a.eng)).inc.toNat = a.sinc ∧
    (s.region here).inc.toNat = a.tinc
  let up := fun (n : Nat) => min (n + 1) (2 ^ 32 - 1)
  let dropped := fun (i : Instr) (p : State → Prop) => ∃ t, exec i s = .next t ∧ Answered s t a.eng a.seq ∧ p t ∧ t.ctxs = s.ctxs ∧
    (t.core k.val).bc = (s.core k.val).bc ∧ (t.core k.val).chans = (s.core k.val).chans ∧
    ((∀ q, a.eng = .weave q → (s.quad q.val).sends = []) → ∀ l, t.reads l = s.reads l)
  let lowered := fun (i : Instr) (c : Nat) (p : State → Prop) => ∃ t, exec i s = .next t ∧ Answered s t a.eng a.seq ∧ p t ∧
    t = { s with ctxs := t.ctxs, cores := t.cores, quads := t.quads, regions := t.regions } ∧ (∀ j, j ≠ c → t.ctx j = s.ctx j) ∧
    t.ctx c = ({ s.ctx c with cntC := (s.ctx c).cntC - 1 } : Ctx).accept ⟨.counter, 0⟩ ∧
    ∀ j, t.core j = { s.core j with arrivals := (t.core j).arrivals, stream := (t.core j).stream }
  let put := fun (i : Instr) (ch : Fin 16) (m : ChMsg) (p : State → Prop) => ∃ t, exec i s = .next t ∧ Answered s t a.eng a.seq ∧ p t ∧
    t = { s with ctxs := t.ctxs, cores := t.cores, quads := t.quads, regions := t.regions } ∧
    t.chan k.val ch = s.chan k.val ch ++ [m] ∧ (∀ n, n ≠ ch → t.chan k.val n = s.chan k.val n) ∧
    ∀ j, (t.ctx j).g = (s.ctx j).g ∧ (t.ctx j).pc = (s.ctx j).pc ∧
      ((t.ctx j).st = (s.ctx j).st ∨ (coreOf j = k.val ∧ (s.ctx j).park = .chan ch ∧ (t.ctx j).st = .ready))
  let unfound := fun (i : Instr) (p : State → Prop) => ∃ t, exec i s = .next t ∧ Answered s t a.eng a.seq ∧ p t ∧ (∀ j, t.ctx j = s.ctx j) ∧
    (∀ j, t.core j = { s.core j with arrivals := (t.core j).arrivals, stream := (t.core j).stream }) ∧
    (t.region here).stale = up (s.region here).stale
  let behind := inOrder a.eng = true ∧ ((s.engine a.eng).running.takeWhile (·.cmd.seq != a.seq)).any (·.counts a.eng) = true
  a.core = k.val →
  (∀ rest, (s.core k.val).arrivals = a :: rest →
    let gone := fun (t : State) => (t.core k.val).arrivals = rest
    let held := fun (i : Instr) => ∃ t, exec i s = .next t ∧ t.ctxs = s.ctxs ∧ gone t ∧ (∀ ch, t.chan k.val ch = s.chan k.val ch) ∧
      (t.engine a.eng).held = (s.engine a.eng).held ++ [a] ∧ (t.engine a.eng).running = (s.engine a.eng).running
    (s.behindHeld a = false → ¬ current ∨ (s.region here).st ≠ .assigned →
      let stale := fun (t : State) => gone t ∧ (t.region here).stale = up (s.region here).stale
      (∀ c g m, a.kind = .cdec c g m → dropped (.cReplyArrival k) stale) ∧
      ∀ ch m0 m1 m2 m3 km, a.kind = .msg ch m0 m1 m2 m3 km → dropped (.channelArrival k) stale) ∧
    (¬ current → ∀ n b, a.kind = .bytes n b →
      dropped (.bcArrival k) (fun t => gone t ∧ (t.region here).stale = up (s.region here).stale)) ∧
    (s.behindHeld a = true → (s.engine a.eng).held.length < 4 →
      (∀ c g m, a.kind = .cdec c g m → held (.cReplyArrival k)) ∧
      ∀ ch m0 m1 m2 m3 km, a.kind = .msg ch m0 m1 m2 m3 km → held (.channelArrival k)) ∧
    (s.behindHeld a = false → current → (s.region here).st = .assigned →
      (∀ c g m, a.kind = .cdec c g m →
        let table := (s.region here).heldDec
        let pair := fun (e : Nat × Nat × Nat) => e.1 == g && e.2.1 == m
        ((s.ctx c).gang.toNat = g ∨ g = 0 → (s.ctx c).cntC ≠ 0 → lowered (.cReplyArrival k) c gone) ∧
        ((s.ctx c).gang.toNat = g ∨ g = 0 → (s.ctx c).cntC = 0 → coreOf c = k.val → unfound (.cReplyArrival k) gone) ∧
        ((s.ctx c).gang.toNat ≠ g → g ≠ 0 → table.any pair = true ∨ table.length < 256 →
          ∃ t, exec (.cReplyArrival k) s = .next t ∧ t.ctxs = s.ctxs ∧ gone t ∧ Answered s t a.eng a.seq ∧
            (t.region here).heldDec = if table.any pair then table.map (fun e => if pair e then (g, m, e.2.2 + 1) else e)
              else table ++ [(g, m, 1)]) ∧
        ((s.ctx c).gang.toNat ≠ g → g ≠ 0 → table.any pair = false → 256 ≤ table.length → (s.engine a.eng).held.length < 4 →
          held (.cReplyArrival k))) ∧
      (∀ ch m0 m1 m2 m3 km, a.kind = .msg ch m0 m1 m2 m3 km →
        ((s.binding k.val ch.val).refuses km = false → (s.chan k.val ch).length < 8 →
          put (.channelArrival k) ch ⟨m0, m1, m2, m3⟩ gone) ∧
        ((s.binding k.val ch.val).refuses km = false → 8 ≤ (s.chan k.val ch).length → (s.engine a.eng).held.length < 4 →
          held (.channelArrival k)) ∧
        ((s.binding k.val ch.val).refuses km = true →
          dropped (.channelArrival k) (fun t => gone t ∧ (t.region here).route = up (s.region here).route)))) ∧
    (current → ∀ n left, a.kind = .bytes n (left + 1) → (left = 0 → ¬ behind) → ∃ t, exec (.bcArrival k) s = .next t ∧
      (let b := (s.core k.val).bc.get n
       let y := (t.core k.val).bc.get n
       y.value = max (b.value - 1) (-2 ^ 39) ∧ y.posted = b.posted ∧
       (y.ovf = true ↔ b.ovf = true ∨ y.value ≤ -2 ^ 39 ∨ (b.posted = true ∧ y.value < 0)) ∧
       ∀ j, let z := s.ctx j
         t.ctx j = if coreOf j ≠ k.val then z
           else if y.value = 0 ∧ y.posted = true ∧ y.ovf = false then z.accept ⟨.bytes n, 0⟩
           else if z.st = .parked ∧ z.park = .bcwait n then { z with st := .ready, wait := .again, park := .none } else z) ∧
      (∀ m, m ≠ n → (t.core k.val).bc.get m = (s.core k.val).bc.get m) ∧
      (left = 0 → Answered s t a.eng a.seq) ∧ (left ≠ 0 → (t.engine a.eng).running = (s.engine a.eng).running) ∧
      (t.core k.val).arrivals = (if left = 0 then rest else { a with kind := .bytes n left } :: rest.map (fun b =>
        if b = a then { b with kind := .bytes n left } else b)))) ∧
  (∀ more, (s.engine a.eng).held = a :: more →
    let gone := fun (t : State) => (t.engine a.eng).held = more
    (¬ current → (∀ n b, a.kind ≠ .bytes n b) →
      dropped (.heldReplyRetry a.eng) (fun t => gone t ∧ (t.region here).stale = up (s.region here).stale)) ∧
    (current → (s.region here).st = .assigned →
      (∀ ch m0 m1 m2 m3 km, a.kind = .msg ch m0 m1 m2 m3 km → (s.binding k.val ch.val).refuses km = false →
        (s.chan k.val ch).length < 8 → put (.heldReplyRetry a.eng) ch ⟨m0, m1, m2, m3⟩ gone) ∧
      ∀ c g m, a.kind = .cdec c g m → (s.ctx c).gang.toNat = g ∨ g = 0 →
        ((s.ctx c).cntC ≠ 0 → lowered (.heldReplyRetry a.eng) c gone) ∧
        ((s.ctx c).cntC = 0 → coreOf c = k.val → unfound (.heldReplyRetry a.eng) gone)))

/-- R338, R364, R365, R373, R374. CWAIT goes on where every counter that it bounds is at or below its bound, and parks otherwise. BCPOST adds its
count and marks the counter posted, by which the contexts parked on it look again, and a completion is an event of the core's contexts
(R338); BCREAD reads value, POSTED and OVER, BCCLR clears; BCWAIT raises 0x11 on OVER, goes on where the
counter is complete and parks otherwise. -/
def Obligations.CountersAndByteCounts : Prop := ∀ (s : State) (bl bs bc bt : Fin 16) (a d : GReg) (id : Fin 16),
  let x := s.me
  let k := coreOf s.cur
  let b := (s.core k).bc.get id
  let ok := (bl = 15 ∨ x.cntL.toNat ≤ bl.val) ∧ (bs = 15 ∨ x.cntS.toNat ≤ bs.val) ∧ (bc = 15 ∨ x.cntC.toNat ≤ bc.val) ∧
    (bt = 15 ∨ x.cntT.toNat ≤ bt.val)
  let parks := fun (i : Instr) (p : Park) => ∃ t, exec i s = .next t ∧ OnlyMe s t ∧
    t.me = { x with st := .parked, wait := .none, young := false, park := p }
  let changes := fun (i : Instr) (f : Bc → Prop) => ∃ t y, exec i s = .next t ∧ t = { s with ctxs := t.ctxs, cores := t.cores } ∧ f y ∧
    (∀ j, t.core j = if j = k then { s.core j with bc := (s.core j).bc.set id.val y id.isLt } else s.core j) ∧
    t.me = x.completed (x.pc + 4) ∧ ∀ j, j ≠ s.cur → let z := s.ctx j
      t.ctx j = if coreOf j ≠ k then z
        else if y.value = 0 ∧ y.posted = true ∧ y.ovf = false then z.accept ⟨.bytes id, 0⟩
        else if z.st = .parked ∧ z.park = .bcwait id then { z with st := .ready, wait := .again, park := .none } else z
  (ok → CompletesAs (.cwait bl bs bc bt) s x (x.pc + 4)) ∧
  (¬ ok → parks (.cwait bl bs bc bt) (.cwait bl bs bc bt)) ∧
  (2 ^ 39 ≤ (s.g a).toNat → Raises (.bcpost a id) s 0x02 (BitVec.ofNat 64 (wordBcpost a id))) ∧
  (x.st = .ready → x.miss = .none → (s.g a).toNat < 2 ^ 39 → changes (.bcpost a id) (fun y =>
    y.value = min (b.value + (s.g a).toNat) (2 ^ 39 - 1) ∧ y.posted = true ∧
    (y.ovf = true ↔ b.ovf = true ∨ y.value ≤ -2 ^ 39 ∨ y.value < 0))) ∧
  (x.st = .ready → x.miss = .none → changes (.bcclr id) (fun y => y = ⟨0, false, false⟩)) ∧
  (∃ t v, exec (.bcread d id) s = .next t ∧ OnlyMe s t ∧ x.Wrote t.me d v (x.pc + 4) ∧ v.extractLsb' 0 40 = BitVec.ofInt 40 b.value ∧
    v.getLsbD 40 = b.posted ∧ v.getLsbD 41 = b.ovf ∧ v.extractLsb' 42 22 = 0) ∧
  (b.ovf = true → Raises (.bcwait id) s 0x11 (BitVec.ofNat 64 id.val)) ∧
  (b.ovf = false → b.value = 0 → b.posted = true → CompletesAs (.bcwait id) s x (x.pc + 4)) ∧
  (b.ovf = false → b.value ≠ 0 ∨ b.posted = false → parks (.bcwait id) (.bcwait id))

/-! Commands of the engines. -/

/-- R55, R296, R312 to R314, R329, R363. SEND: a misaligned block raises 0x05; a tender call without its capability raises 0x0F; a block
that breaks the rules of R314 gives 0x8000_0000_0000_0002 and a full inbox or counter 0x8000_0000_0000_0001, without effect; otherwise
the block and what SEND carries with it enter the inbox of the engine, Ge(d) is its ticket with the engine code, and a KIND-0 command
raises counter C. No byte of memory changes; performance counters may count the misses of its read. -/
def Obligations.SendsEnterTheInbox : Prop := ∀ (s : State) (d a b : GReg),
  let send := fun (i : Instr) (code cmd : Nat) (gb : Word) =>
    let x := s.g a
    (x.toNat % 64 ≠ 0 → Raises i s 0x05 x) ∧
    (∀ u cause va, x.toNat % 64 = 0 → s.transSpan (s.whoCtx s.cur) .load x.toNat 64 = (u, .error (cause, va)) →
      ∃ t, exec i s = .next t ∧ TrapTaken u t u.cur cause u.me.pc x) ∧
    (∀ u ps, x.toNat % 64 = 0 → s.transSpan (s.whoCtx s.cur) .load x.toNat 64 = (u, .ok ps) → u.me.sb = [] →
      u.tileMemory u.cur = false → u.engineOwns (pieceLocs ps) = false → u.piecePoison (some (coreOf u.cur)) ps = none → (∀ p ∈ ps, ∀ f, p.loc ≠ .fabric f) →
      let bytes := (pieceLocs ps).map u.reads
      let word := fun (j : Nat) => leNat ((bytes.drop (8 * j)).take 8)
      let w0 := word 0
      let kind := word 7 % 4
      let e := engineFor s.cur code
      let g := u.engine e
      let cap := u.capability (regionOf s.cur) gb.toNat (word 1 % 256)
      let far := regionOfCore (w0 / 2 ^ 16 % 2 ^ 10)
      let good := kind ≠ 3 ∧ w0 % 2 ^ 6 = cmd ∧ w0 / 2 ^ 6 % 2 ^ 5 = code ∧ w0 / 2 ^ 11 % 2 ^ 5 = 0 ∧ w0 / 2 ^ 27 % 2 ^ 5 = 0 ∧
        (kind = 1 ∨ kind = 2 → w0 / 2 ^ 26 % 2 = 0 →
          ((u.region far).st = .assigned ∨ (u.region far).st = .resetting) ∧ u.islandOf far = u.islandOf (regionOf s.cur)) ∧
        ¬ (kind = 2 ∧ ((code = 1 ∧ cmd = 0) ∨ code = 4 ∨ (code = 3 ∧ word 1 % 256 ≠ 1)))
      let full := inboxSize e ≤ g.inbox.length ∨ (kind = 0 ∧ u.me.cntC = 0xFFFF)
      let still := fun (t : State) => (∀ l : Loc, l.exists_ → t.reads l = u.reads l) ∧ (∀ j, j ≠ s.cur → t.ctx j = u.ctx j)
      (code = 3 → cap = none → ∃ t, exec i s = .next t ∧ still t ∧ u.me.Trapped t.me u.cycles 0x0F u.me.pc gb) ∧
      ((code = 3 → cap ≠ none) → ¬ good → ∃ t, exec i s = .next t ∧ still t ∧ t.engine e = g ∧
        ({ u.me with pmcnt := t.me.pmcnt } : Ctx).Wrote t.me d 0x8000000000000002 (u.me.pc + 4)) ∧
      ((code = 3 → cap ≠ none) → good → full → ∃ t, exec i s = .next t ∧ still t ∧ t.engine e = g ∧
        ({ u.me with pmcnt := t.me.pmcnt } : Ctx).Wrote t.me d 0x8000000000000001 (u.me.pc + 4)) ∧
      ((code = 3 → cap ≠ none) → good → ¬ full → ∃ t c, exec i s = .next t ∧ still t ∧
        t.engine e = { g with inbox := g.inbox ++ [c], accepted := g.accepted + 1 } ∧ t.accSeq = u.accSeq + 1 ∧
        ({ u.me with cntC := if kind = 0 then u.me.cntC + 1 else u.me.cntC, pmcnt := t.me.pmcnt } : Ctx).Wrote t.me d
          (BitVec.ofNat 64 (g.accepted % 2 ^ 32 + code * 2 ^ 32)) (u.me.pc + 4) ∧
        (∀ j : Fin 8, c.w.get j = BitVec.ofNat 64 (word j.val)) ∧ c.ctx = s.cur ∧ c.kmode = u.me.status.mode ∧
        c.asid = u.me.asid.toNat ∧ c.ptOn = u.me.ptOn ∧ c.ptRoot = u.me.ptRoot.toNat ∧ c.dlog = u.me.dlog ∧
        c.gang = u.me.gang.toNat ∧ c.member = u.me.member.toNat ∧ c.inc = (u.region (regionOf s.cur)).inc.toNat ∧ c.gb = gb ∧
        c.ga = x ∧ c.ticket = g.accepted ∧ c.seq = u.accSeq))
  send (.sendStrmCopy d a) 0 0 0 ∧ send (.sendStrmGather d a) 0 1 0 ∧ send (.sendStrmScatter d a) 0 2 0 ∧
  send (.sendStrmFill d a) 0 3 0 ∧ send (.sendStrmUnz d a) 0 4 0 ∧ send (.sendStrmPlane d a) 0 5 0 ∧
  send (.sendWeaveLoad d a) 1 0 0 ∧ send (.sendWeaveRun d a) 1 1 0 ∧ send (.sendCollBmax d a b) 2 0 (s.g b) ∧
  send (.sendCollIsum d a b) 2 1 (s.g b) ∧ send (.sendCollFsum d a b) 2 2 (s.g b) ∧ send (.sendCollBcast d a b) 2 3 (s.g b) ∧
  send (.sendCollOr d a b) 2 4 (s.g b) ∧ send (.sendTendCall d a b) 3 0 (s.g b) ∧ send (.sendLnchGang d a) 4 0 0

/-- R297, R311, R313, R315, R317. Every engine takes the command at the head of its inbox and runs it; one with a bit set that its entry
does not name ends INVALID and changes no byte, whatever else it breaks (assumption 19). STRM.UNZ goes on to the decompressor of the
quad. ENGINE_COMPLETE sends the reply of a command whose effects are performed. Once the reply is delivered the status word is written, and
the command has completed. The moves of a weave run are written when they are counted, with every move of an earlier group, in the order
of groups, rows and columns, or all at a reply that counts none. A byte is the one that its source held at the start of the run, or the
one that software has put there since, by choice; where software has stored to its destination, either stays by choice. RUNs complete in
the order in which they joined, so the last byte of a KIND-2 RUN waits for the RUNs before it. When moves are written and counted, and in
which order, is the model's reading of R301, R314, R317, R326 and R415 (assumption 23). -/
def Obligations.EnginesTakeTheirCommands : Prop := ∀ (s : State) (c : Cmd) (k : CoreId) (q : QuadId) (r : RegionId),
  let takes := fun (i : Instr) (e : EngineId) (op : Nat) (more : Prop) => MayTake s e op c → more →
    (c.clean e = true → ∃ t, exec i s = .next t ∧ Took s t e c (fun _ => True)) ∧
    (c.clean e = false → ∃ t, exec i s = .next t ∧ (∀ l : Loc, l.exists_ → t.reads l = s.reads l) ∧
      Took s t e c (fun y => y.done = true ∧ y.code = 2))
  let svc := c.word 1 % 256
  let inSpad := fun (q : QuadId) => ((s.quad q.val).sends.map (·.id)).Nodup ∧
    ∀ x ∈ (s.quad q.val).sends, x.dst.exists_ ∧ x.src.exists_ ∧ ∃ i a j b, x.dst = .spad i a ∧ x.src = .spad j b
  let settles := fun (q : QuadId) (t : State) (due : Sent → Bool) =>
    let all := (s.quad q.val).sends
    (t.quad q.val).sends.map (·.id) = (all.filter (fun x => !due x)).map (·.id) ∧
    (∀ l : Loc, l.exists_ → t.reads l = (s.settleSends q.val due).reads l) ∧
    (∀ l : Loc, l.exists_ → t.reads l = s.reads l ∨ ∃ x ∈ all, x.dst = l ∧ due x = true ∧
      ∃ z ∈ all, t.reads l = z.old ∨ t.reads l = s.reads z.src ∨ z.val = some (t.reads l)) ∧
    ∀ x ∈ all, due x = true → x.via = none → x.val = none → s.closed 0 x.dst = false →
      (∀ y ∈ all, y.id ≠ x.id → due y = true → y.dst ≠ x.dst ∧ y.dst ≠ x.src) →
      (s.reads x.dst = x.was → t.reads x.dst = x.old ∨ (s.reads x.src ≠ x.seen ∧ t.reads x.dst = s.reads x.src)) ∧
      t.reads x.dst ∈ [x.old, s.reads x.src, s.reads x.dst]
  takes (.strmCopy k) (.stream k) 0 True ∧ takes (.strmGather k) (.stream k) 1 True ∧ takes (.strmScatter k) (.stream k) 2 True ∧
  takes (.strmFill k) (.stream k) 3 True ∧ takes (.strmPlane k) (.stream k) 5 True ∧ takes (.strmUnz q) (.decomp q) 4 True ∧
  takes (.weaveLoad q) (.weave q) 0 ((s.quad q.val).set = []) ∧ takes (.weaveRun q) (.weave q) 1 ((s.quad q.val).set = []) ∧
  takes (.collBmax r) (.coll r) 0 True ∧ takes (.collIsum r) (.coll r) 1 True ∧ takes (.collFsum r) (.coll r) 2 True ∧
  takes (.collBcast r) (.coll r) 3 True ∧ takes (.collOr r) (.coll r) 4 True ∧
  takes (.tendStorageRead r) (.tend r) 0 (svc = 1) ∧ takes (.tendStorageWrite r) (.tend r) 0 (svc = 2) ∧
  takes (.tendMap r) (.tend r) 0 (svc = 3) ∧ takes (.tendUnmap r) (.tend r) 0 (svc = 4) ∧ takes (.tendPost r) (.tend r) 0 (svc = 5) ∧
  takes (.tendTimer r) (.tend r) 0 (svc = 6) ∧ takes (.tendDoorbell r) (.tend r) 0 (svc = 7) ∧
  takes (.tendUnlistedService r) (.tend r) 0 (svc = 0 ∨ 7 < svc) ∧ takes (.lnchGang r) (.lnch r) 0 True ∧
  (∀ rest, (s.core k.val).stream.inbox = c :: rest → c.op = 4 → (s.quad (quadOfCore k.val)).decomp.inbox.length < 16 →
    ∃ t, exec (.strmUnzForward k) s = .next t ∧ t = { s with cores := t.cores, quads := t.quads } ∧
      (∀ j, t.core j = if j = k.val then { s.core j with stream := { (s.core j).stream with inbox := rest } } else s.core j) ∧
      ∀ j, t.quad j = if j = quadOfCore k.val then
        { s.quad j with decomp := { (s.quad j).decomp with inbox := (s.quad j).decomp.inbox ++ [c] } } else s.quad j) ∧
  (∀ (e : EngineId) (n : Nat) (y : Run), (s.engine e).running[n]? = some y →
    let settled := fun (t : State) => match e with
      | .weave q => settles q t (fun _ => y.cmd.word 7 % 4 != 2 || (y.code == 4 && y.bytes == 0))
      | _ => ∀ l : Loc, l.exists_ → t.reads l = s.reads l
    let counts := ∃ a b m, y.reply e = some a ∧ a.kind = .bytes b m
    (y.delivered = false → y.done = true → y.replied = false →
      (¬ counts → inOrder e = true → ((s.engine e).running.take n).any (·.counts e) = false) →
      (∀ q, e = .weave q → inSpad q) →
      (∀ a, y.reply e = some a → ∃ t, exec (.engineComplete e n) s = .next t ∧ t.ctxs = s.ctxs ∧ settled t ∧
        (t.core a.core).arrivals = (s.core a.core).arrivals ++ [{ a with
          sinc := (s.region (engineRegion e)).inc.toNat, tinc := (s.region (regionOfCore a.core)).inc.toNat }] ∧
        (t.engine e).inbox = (s.engine e).inbox ∧
        (t.engine e).running = (s.engine e).running.map (fun z => if z.cmd.seq = y.cmd.seq then { z with replied := true } else z)) ∧
      (y.reply e = none → y.status = none → s.runOf e y.cmd.seq = some y →
        ∃ t, exec (.engineComplete e n) s = .next t ∧ settled t ∧ t.runOf e y.cmd.seq = none)) ∧
    (∀ p, y.delivered = true → s.runOf e y.cmd.seq = some y → y.status = some p → p.len = 8 → s.statusHeld e y = false → s.closed (y.cmd.who e).region p.loc = false →
      y.cmd.dlog = false → (∀ j < 8, (p.loc.plus j).exists_ ∧ ∀ pa, p.loc.plus j = .hbm pa → s.chanDown pa = false) →
      let word := BitVec.ofNat 64 (y.code + y.flags.toNat * 2 ^ 8 + 2 ^ 15 + y.result.toNat % 2 ^ 48 * 2 ^ 16)
      ∃ t, exec (.engineComplete e n) s = .next t ∧ t.runOf e y.cmd.seq = none ∧ SameBytesBut s t p.loc 8 ∧
        ∀ j < 8, t.reads (p.loc.plus j) = s.kept (p.loc.plus j) (word.extractLsb' (8 * j) 8))) ∧
  (∀ a rest b left y, (s.core k.val).arrivals = a :: rest → a.core = k.val → a.kind = .bytes b (left + 1) → a.eng = .weave q →
    s.runOf a.eng a.seq = some y → inSpad q →
    let current := (s.region a.region).inc.toNat = a.inc ∧ (s.region (engineRegion a.eng)).inc.toNat = a.sinc ∧
      (s.region (regionOfCore k.val)).inc.toNat = a.tinc
    let earlier := ((s.engine a.eng).running.takeWhile (·.cmd.seq != a.seq)).any (·.counts a.eng)
    let open_ := if current then left else 0
    let mine := (s.quad q.val).sends.filter (fun x => x.slot == slotOfCore (coreOf y.cmd.ctx))
    let counted := mine.take (mine.length - open_)
    ((left = 0 → current → earlier = false) → ∃ t, exec (.bcArrival k) s = .next t ∧
      settles q t (fun x => (y.code == 4 && open_ == 0) || counted.any (fun z => z.id == x.id || decide (x.group < z.group)))) ∧
    (left = 0 → current → earlier = true → rest = [] → ∀ t, exec (.bcArrival k) s ≠ .next t))

/-- R31, R32, R34, R320 to R328, R391. What commands do. STRM.COPY moves the rows of its array, byte by byte or widening packed
samples to 16 bits; GATHER and SCATTER move elements through an index, of which the highest prevails where they overlap; FILL writes its
pattern to every byte of its destination; PLANE writes the leading planes of a tensor, rounded or truncated; UNZ decodes whole frames,
keeps what its capacity holds and reports the rest as R324's table says, in the format of RFC 8878 (assumption 13); none writes a byte
besides. WEAVE.LOAD replaces its table, or ends INVALID and leaves it. A WEAVE.RUN waits in the gathering set, whose four commands end
alike: INVALID without a table, MISMATCH where they differ, TIMEOUT after 2^20 cycles, FAULT at an offset beyond a scratchpad, all
without a byte written, or with the rows of each group to be moved in turn, and written as EnginesTakeTheirCommands says; that, and that the
rows of one step follow one another, each reading what earlier ones wrote, is the model's reading (assumption 23). A collective command joins the instance of its member's next
number and waits, or ends INVALID without; the result is written to every member when every rank has contributed; members end alike, with
MISMATCH where they disagree, which is judged once all have contributed (assumption 25), with the first RESULT of R328's list that applies; FSUM over one rank adds nothing (assumption 83); and TIMEOUT after the deadline; one whose
destination has been closed meanwhile ends FAULT (assumption 77). -/
def Obligations.CommandEffects : Prop := ∀ (s : State) (c : Cmd) (k : CoreId) (q : QuadId) (r : RegionId) (n : Nat) (x : CollInst),
  let ended := fun (t : State) (e : EngineId) (seq : Nat) (p : Run → Prop) => ∃ r, t.runOf e seq = some r ∧ r.done = true ∧ p r
  (∀ u v ps qs, MayTake s (.stream k) 3 c → c.clean (.stream k) = true → c.dlog = false → 0 < c.word 3 → c.word 3 ≤ 2 ^ 48 →
    let w := c.who (.stream k)
    State.transAll w .store [(c.word 2, c.word 3)] s = (u, .ok qs) → enginePages w qs ≤ 1024 →
    u.transSpan w .store (c.word 2) (c.word 3) = (v, .ok ps) → (pieceLocs ps).length = c.word 3 → (pieceLocs ps).Nodup →
    (∀ l ∈ pieceLocs ps, l.exists_ ∧ ∀ pa, l = .hbm pa → s.chanDown pa = false) →
    ∃ t, exec (.strmFill k) s = .next t ∧ Took s t (.stream k) c (fun r => r.code = 0 ∧ r.result = BitVec.ofNat 64 (c.word 3)) ∧
      (∀ j, (h : j < (pieceLocs ps).length) → t.reads ((pieceLocs ps)[j]'h) =
        s.kept ((pieceLocs ps)[j]'h) ((BitVec.ofNat 64 (c.word 1)).extractLsb' (8 * (j % 8)) 8)) ∧
      (∀ l : Loc, l.exists_ → l ∉ pieceLocs ps → t.reads l = s.reads l)) ∧
  (let e : EngineId := .stream k
   let w := c.who e
   let data := s.readsAt w
   let at_ := fun (z : Nat) => z % 2 ^ 64
   (let n0 := c.word 3 % 2 ^ 32
    let rows := fun (base strides : Nat) => (List.range (c.word 3 / 2 ^ 48)).flatMap (fun p =>
      (List.range (c.word 3 / 2 ^ 32 % 2 ^ 16)).map (fun r =>
        ((base + r * (BitVec.ofNat 32 strides).toInt + p * (BitVec.ofNat 32 (strides / 2 ^ 32)).toInt : Int) % 2 ^ 64).toNat))
    let src := rows (c.word 1) (c.word 4)
    let dst := rows (c.word 2) (c.word 5)
    0 < n0 → src ≠ [] →
    (c.word 6 = 0 → Performs (.strmCopy k) s e 0 c (src.map (·, n0)) (dst.map (·, n0))
      ((src.zip dst).map (fun x => (x.2, data (x.1, n0)))) 0 (src.length * n0)) ∧
    (∀ f b : Nat, (f, b) ∈ [(0x24, 10), (0x25, 12), (0x26, 14)] → c.word 6 = f + 0x04 * 2 ^ 6 →
      let len := (b * n0 + 7) / 8
      Performs (.strmCopy k) s e 0 c (src.map (·, len)) (dst.map (·, 2 * n0))
        ((src.zip dst).map (fun x => (x.2, (List.range n0).flatMap (fun j =>
          let v := leNat (data (x.1, len)) / 2 ^ (b * j) % 2 ^ b
          [BitVec.ofNat 8 v, BitVec.ofNat 8 (v / 2 ^ 8)])))) 0 (src.length * (2 * n0)))) ∧
   (let n := c.word 4 % 2 ^ 32
    let iw := 2 ^ (c.word 4 / 2 ^ 32 % 4)
    let es := c.word 5 % 2 ^ 32
    let index := fun (j : Nat) => (at_ (c.word 3 + j * iw), iw)
    let far := fun (base j : Nat) => at_ (base + leNat (data (index j)) * (c.word 5 / 2 ^ 32))
    let near := fun (base j : Nat) => at_ (base + j * es)
    let all := List.range n
    0 < n → 0 < es → es ≤ 65536 →
    Performs (.strmGather k) s e 1 c (all.map index ++ all.map (fun j => (far (c.word 1) j, es))) [(c.word 2, n * es)]
      (all.map (fun j => (near (c.word 2) j, data (far (c.word 1) j, es)))) 0 (n * es) ∧
    Performs (.strmScatter k) s e 2 c (all.map index ++ all.map (fun j => (near (c.word 1) j, es)))
      (all.map (fun j => (far (c.word 2) j, es))) (all.map (fun j => (far (c.word 2) j, data (near (c.word 1) j, es)))) 0 (n * es)) ∧
   (let n := c.word 5 % 2 ^ 32
    let rnd := c.word 5 / 2 ^ 36 % 2
    let kk : Fin 4 := Fin.ofNat 4 (c.word 5 / 2 ^ 34)
    let pp : Fin 4 := Fin.ofNat 4 (c.word 5 / 2 ^ 32)
    let planes := (if rnd = 1 then pp.val else kk.val) + 1
    let len := fun (b : Nat) => min 32 (n - 32 * b)
    let from_ := fun (b p : Nat) => (at_ (c.word 1 + p * c.word 3 + 32 * b), len b)
    let blocks := List.range ((n + 31) / 32)
    0 < n → kk ≤ pp → c.word 1 % 32 = 0 → c.word 2 % 32 = 0 → c.word 3 % 32 = 0 → c.word 4 % 32 = 0 →
    Performs (.strmPlane k) s e 5 c (blocks.flatMap (fun b => (List.range planes).map (from_ b)))
      ((List.range (kk.val + 1)).map (fun p => (at_ (c.word 2 + p * c.word 4), n)))
      (blocks.flatMap (fun b => (List.range (kk.val + 1)).reverse.map (fun p => (at_ (c.word 2 + p * c.word 4 + 32 * b),
        (List.range (len b)).map (fun i =>
          ((VMode.planar pp kk (rnd == 1)).loaded (8 * (kk.val + 1)) 0
            ((List.range planes).map (fun j => (data (from_ b j)).getD i 0))).extractLsb' (8 * (kk.val - p)) 8))))) 0
      ((kk.val + 1) * n))) ∧
  (let e : EngineId := .decomp q
   let src := (c.word 1, c.word 3)
   let cap := c.word 4
   let bytes := s.readsAt (c.who e) src
   let gives := fun (code : Nat) (out : List Byte) =>
     Performs (.strmUnz q) s e 4 c [src] [(c.word 2, cap)] [(c.word 2, out.take cap)] (if cap < out.length then 8 else code)
       (min cap out.length)
   0 < c.word 3 →
   (let z := zstdGo bytes.length bytes []
    gives z.1 z.2) ∧
   (let magic := leNat (bytes.take 4)
    let skip := 8 + leNat ((bytes.drop 4).take 4)
    (8 ≤ bytes.length → magic ≠ 0xFD2FB528 → magic / 16 ≠ 0x184D2A5 → gives 6 []) ∧
    (magic / 16 = 0x184D2A5 → bytes.length = skip → gives 0 []) ∧ (magic / 16 = 0x184D2A5 → bytes.length < skip → gives 6 []) ∧
    (∀ h, 8 ≤ bytes.length → magic = 0xFD2FB528 → zstdHead bytes = some h →
      (2 ^ 23 < h.window ∨ h.dict ≠ 0 → gives 5 []) ∧
      (let b := zstdBlocks h.window (bytes.drop h.size)
       let last := h.size + b.1
       h.window ≤ 2 ^ 23 → h.dict = 0 → b.2.1 = true → bytes.length = last + (if h.check then 4 else 0) →
       ((∃ n, h.fcs = some n ∧ n ≠ b.2.2.length) → gives 6 b.2.2) ∧
       ((∀ n, h.fcs = some n → n = b.2.2.length) →
         gives (if h.check = true ∧ leNat ((bytes.drop last).take 4) ≠ (xxh64 b.2.2).toNat % 2 ^ 32 then 7 else 0) b.2.2))))) ∧
  (let e : EngineId := .weave q
   let steps := c.word 2 / 4 % 16 + 1
   let bytes := s.readsAt (c.who e) (c.word 1, 16 * steps)
   let field := fun (w hi lo : Nat) => leNat ((bytes.drop (8 * w)).take 8) / 2 ^ lo % 2 ^ (hi + 1 - lo)
   let step := fun (j : Nat) => WStep.mk (field (2 * j) 1 0) (field (2 * j) 3 2) (field (2 * j) 7 4) (field (2 * j) 23 8)
     (field (2 * j) 46 24) (field (2 * j + 1) 22 0) (field (2 * j + 1) 54 32)
   let good := c.word 1 % 8 = 0 ∧ ∀ j < steps, field (2 * j) 63 47 = 0 ∧ field (2 * j + 1) 31 23 = 0 ∧ field (2 * j + 1) 63 55 = 0 ∧
     (step j).gran ∈ [0, 1, 2, 4, 8] ∧ 0 < (step j).len ∧ ((step j).gran = 0 ∨ (step j).len % (step j).gran = 0) ∧
     ∀ i < j, i / 4 = j / 4 → (step i).src ≠ (step j).src ∧ (step i).dst ≠ (step j).dst
   MayTake s e 0 c → c.clean e = true → s.Warm (c.who e) .load (c.word 1, 16 * steps) →
   (∀ m ∈ (s.quad q.val).set, ∀ y, s.runOf e m.2 = some y → y.cmd.word 1 % 4 ≠ c.word 2 % 4) →
   ∃ t, exec (.weaveLoad q) s = .next t ∧ (∀ l : Loc, l.exists_ → t.reads l = s.reads l) ∧
     (good → Took s t e c (fun y => y.done = true ∧ y.code = 0)) ∧ (¬ good → Took s t e c (fun y => y.done = true ∧ y.code = 2)) ∧
     ∀ i : Fin 4, (good → i.val = c.word 2 % 4 → (t.quad q.val).tables.get i = some ((List.range steps).map step)) ∧
       (¬ good ∨ i.val ≠ c.word 2 % 4 → (t.quad q.val).tables.get i = (s.quad q.val).tables.get i)) ∧
  (MayTake s (.weave q) 1 c → c.clean (.weave q) = true → 1 ≤ c.word 2 → c.word 2 ≤ 4096 → (s.quad q.val).set = [] →
    ∃ t, exec (.weaveRun q) s = .next t ∧ Took s t (.weave q) c (fun r => r.done = false ∧ r.wait = true) ∧
      (t.quad q.val).set = [(slotOfCore (coreOf c.ctx), c.seq)] ∧ (t.quad q.val).since = s.cycles) ∧
  (let set := (s.quad q.val).set;
    (∀ m ∈ set, ∃ r, s.runOf (.weave q) m.2 = some r ∧ r.done = false) →
    (set ≠ [] → set.length < 4 → (s.quad q.val).since + 2 ^ 20 ≤ s.cycles → ∃ t, exec (.weaveGatherTimeout q) s = .next t ∧
      (t.quad q.val).set = [] ∧ (∀ l : Loc, l.exists_ → t.reads l = s.reads l) ∧ ∀ m ∈ set, ended t (.weave q) m.2 (fun r => r.code = 10)) ∧
    (4 ≤ set.length → (s.quad q.val).sends = [] → ∃ t code, exec (.weaveRunStart q) s = .next t ∧ (t.quad q.val).set = [] ∧
      (∀ l : Loc, l.exists_ → t.reads l = s.reads l) ∧ (∀ m ∈ set, ended t (.weave q) m.2 (fun r => r.code = code)) ∧
      ∀ m ∈ set, ∀ r, s.runOf (.weave q) m.2 = some r →
        ((∃ m' ∈ set, ∃ r', s.runOf (.weave q) m'.2 = some r' ∧ (r'.cmd.word 1 ≠ r.cmd.word 1 ∨ r'.cmd.word 2 ≠ r.cmd.word 2)) →
          code = 9 ∧ (t.quad q.val).sends = []) ∧
        ((∀ m' ∈ set, ∀ r', s.runOf (.weave q) m'.2 = some r' → r'.cmd.word 1 = r.cmd.word 1 ∧ r'.cmd.word 2 = r.cmd.word 2) →
          (s.quad q.val).tables.get (Fin.ofNat 4 (r.cmd.word 1)) = none → code = 2 ∧ (t.quad q.val).sends = []) ∧
        (∀ tab, (∀ m' ∈ set, ∀ r', s.runOf (.weave q) m'.2 = some r' → r'.cmd.word 1 = r.cmd.word 1 ∧ r'.cmd.word 2 = r.cmd.word 2) →
          (s.quad q.val).tables.get (Fin.ofNat 4 (r.cmd.word 1)) = some tab →
          let rows := r.cmd.word 2
          let group := fun (j : Nat) => (tab.drop (4 * j)).take 4
          let into := fun (slot : Nat) => (((tab.take 16).filter (·.dst == slot)).map (fun w => rows * w.len)).sum
          let fits := ∀ w ∈ tab, ∀ i < rows, w.soff + i * w.stride + w.len ≤ s.spadSize (coreAtSlot q.val w.src) ∧
            w.doff + (i + 1) * w.len ≤ s.spadSize (coreAtSlot q.val w.dst)
          (¬ fits → code = 3 ∧ (t.quad q.val).sends = []) ∧
          (fits → (∀ j < 4, ((group j).map (·.src)).Nodup ∧ ((group j).map (·.dst)).Nodup) →
            (∀ w ∈ tab, (w.gran = 0 ∨ w.len % w.gran = 0) ∧ ∀ i < rows, ∀ b < w.len, (w.dstOf q.val rows i b).exists_ ∧
              (w.srcOf q.val i b).exists_ ∧ s.poisoned (w.srcOf q.val i b) = false) →
            code = 0 ∧ (∀ i ∈ set, ended t (.weave q) i.2 (fun y => y.bytes = into i.1)) ∧
            (∀ i < 4, ((t.quad q.val).sends.filter (·.slot == i)).length = into i) ∧
            ∃ h : Nat → Loc → Byte, h 0 = s.reads ∧ (∀ j < 4, GroupMoved q.val rows (group j) (h j) (h (j + 1))) ∧
              ∀ l : Loc, l.exists_ → (t.settleSends q.val (fun _ => true)).reads l = h 4 l)))) ∧
  (let e : EngineId := .coll r
   let len := c.word 3 * collSize c.op
   let joins := fun (i : Instr) (op : Nat) => MayTake s e op c → c.clean e = true →
     (0 < c.word 3 → c.word 3 ≤ 2 ^ 24 → c.word 1 % collSize op = 0 → c.word 2 % collSize op = 0 → ∀ g rank qs,
       s.group r.val c.gb.toNat = some g → s.rankOf r.val g c.ctx = some rank → s.Warm (c.who e) .load (c.word 1, len) →
       State.transAll (c.who e) .store [(c.word 2, len)] s = (s, .ok qs) → enginePages (c.who e) qs ≤ 1024 →
       let home := s.groupHome r.val c.gb.toNat
       let k := SMap.get 0 s.collCnt (collKey home c.gb.toNat rank)
       let mine : Contrib := ⟨rank, op, c.word 3, c.collPar, s.readsAt (c.who e) (c.word 1, len), false, some (r.val, c.seq)⟩
       let digest := s.digest r.val c.gb.toNat
       let here := fun (y : CollInst) => decide (y.home = home ∧ y.group = c.gb.toNat ∧ y.k = k)
       ∃ t, exec i s = .next t ∧ Took s t e c (fun y => y.done = false ∧ y.wait = true) ∧
         (∀ l : Loc, l.exists_ → t.reads l = s.reads l) ∧ t.collCnt = SMap.put 0 s.collCnt (collKey home c.gb.toNat rank) (k + 1) ∧
         t.collInst = if s.collInst.any here = true then s.collInst.map (fun y => if here y = true then
             { y with contribs := y.contribs ++ [mine], differs := y.differs || y.digest != digest } else y)
           else s.collInst ++ [⟨home, c.gb.toNat, k, g.n, digest, [mine], s.time.toNat, g.dl, false, []⟩]) ∧
     (c.word 3 = 0 ∨ 2 ^ 24 < c.word 3 ∨ c.word 1 % collSize op ≠ 0 ∨ c.word 2 % collSize op ≠ 0 ∨
         (∀ g, s.group r.val c.gb.toNat = some g → s.rankOf r.val g c.ctx = none) →
       ∃ t, exec i s = .next t ∧ Took s t e c (fun y => y.done = true ∧ y.code = 2) ∧ t.collInst = s.collInst ∧ t.collCnt = s.collCnt ∧
         ∀ l : Loc, l.exists_ → t.reads l = s.reads l)
   joins (.collBmax r) 0 ∧ joins (.collIsum r) 1 ∧ joins (.collFsum r) 2 ∧ joins (.collBcast r) 3 ∧ joins (.collOr r) 4) ∧
  (s.collInst[n]? = some x → x.n ≤ x.contribs.length → x.written = [] → ∀ z zs, x.ranked = z :: zs →
    let apart := x.differs = true ∨ ∃ y ∈ x.contribs, ∃ p, y.site = some p ∧ s.digest p.1 x.group ≠ x.digest
    let bad := fun (y : Contrib) => y ∈ z :: zs ∧ (y.fail = true ∨ y.cmd ≠ z.cmd ∨ y.count ≠ z.count ∨ y.par ≠ z.par)
    let noRoot := z.cmd = 3 ∧ x.n ≤ z.par
    (apart ∨ (∃ y, bad y) ∨ noRoot → ∃ t v, exec (.collInstanceStart n) s = .next t ∧ t.collInst = s.collInst.eraseIdx n ∧
      (∀ l, t.reads l = s.reads l) ∧
      (apart → v = 2 ^ 18) ∧ (¬ apart → ∀ y, bad y → (∀ u, bad u → y.rank ≤ u.rank) → v = y.rank) ∧
      (¬ apart → (∀ y, ¬ bad y) → v = z.par) ∧
      ∀ m ∈ s.collSites x, ended t m.eng m.cmd.seq (fun r => r.code = 9 ∧ r.result = BitVec.ofNat 64 v)) ∧
    (let size := collSize z.cmd
     let len := z.count * size
     let col := fun (j : Nat) => (z :: zs).map (fun y => leNat ((y.data.drop (j * size)).take size))
     ¬ apart → (∀ y, ¬ bad y) → ¬ noRoot → (∀ m ∈ s.collSites x, s.siteFree m = true) → ∃ (t : State) (v : Nat → Nat) (fl : Nat → FFlags),
       exec (.collInstanceStart n) s = .next t ∧ t.collInst = s.collInst.eraseIdx n ∧
       (∀ j < z.count, CollGives z.cmd z.par (col j) (v j) (fl j)) ∧
       (∀ m ∈ s.collSites x, (s.closedPiece (m.cmd.who m.eng).region m.dst ≠ none → ended t m.eng m.cmd.seq (fun r => r.code = 3)) ∧
         (s.closedPiece (m.cmd.who m.eng).region m.dst = none → ended t m.eng m.cmd.seq (fun r => r.code = 0 ∧ r.result = 0 ∧
           ∀ i, r.flags.getLsbD i = true ↔ ∃ j < z.count, (fl j).getLsbD i = true))) ∧
       ((∀ m ∈ s.collSites x, m.cmd.dlog = false ∧ s.closedPiece (m.cmd.who m.eng).region m.dst = none ∧ (pieceLocs m.dst).length = len ∧
           ∀ l ∈ pieceLocs m.dst, l.exists_ ∧ ∀ pa, l = .hbm pa → s.chanDown pa = false) →
         Stored s t ((s.collSites x).flatMap (fun m => (pieceLocs m.dst).zip
           ((List.range len).map (fun i => BitVec.ofNat 8 (v (i / size) / 2 ^ (8 * (i % size)))))))))) ∧
  (s.collInst[n]? = some x → x.contribs.length < x.n → x.dl ≠ 0 → x.dl ≤ (s.time - BitVec.ofNat 64 x.start).toNat →
    ∃ t, exec (.groupDeadlineExpire n) s = .next t ∧ t.collInst = s.collInst.eraseIdx n ∧ (∀ l, t.reads l = s.reads l) ∧
      ∀ m ∈ s.collSites x, ended t m.eng m.cmd.seq (fun r => r.code = 10 ∧ r.result = BitVec.ofNat 64 x.contribs.length))

/-- R329 to R331, R375, R376, R391, R398, in the model's reading that a map of length 0 answers OK and that a post reaches any region
(assumption 56) and that a storage call takes the block size of its object's record (assumption 79). The
tender's services: a storage read or write waits for its target, or ends STORAGE where the region's port has failed and INVALID beyond
64 MiB; map and unmap add and take one mapping of the grant, post delivers its message or ends
REFUSED without effect, timer arms or disarms its object, doorbell completes, an unlisted service is INVALID; the answer of a storage
target ends its call, unless the target has been reset since it was made, when the answer is dropped and counted (R375; assumption 56), with the data of a read in its destination as it was translated, or FAULT where that has been closed since
(assumption 77); a timer that expires makes the timer interrupt pending and is armed again by its period. -/
def Obligations.TenderServices : Prop := ∀ (s : State) (c : Cmd) (r : RegionId) (g : Grant),
  let e : EngineId := .tend r
  let svc := c.word 1 % 256
  (MayTake s e 0 c → c.clean e = true → c.cap = some g →
    (svc = 3 → c.word 3 % 4096 = 0 → c.word 2 + c.word 3 ≤ g.rec_.size → ∃ t m, exec (.tendMap r) s = .next t ∧
      Took s t e c (fun y => y.code = 0 ∧ y.result = BitVec.ofNat 64 m.base) ∧ 2 ^ 51 ≤ m.base ∧ m.base < 2 ^ 52 ∧ m.base % 4096 = 0 ∧
      m = ⟨m.base, c.word 3, g.rights.getLsbD 0, g.rights.getLsbD 1, c.gb.toNat⟩ ∧
      (t.region r.val).maps = (s.region r.val).maps ++ [m]) ∧
    (svc = 4 → (∃ m ∈ (s.region r.val).maps, m.base = c.word 2 ∧ m.handle = c.gb.toNat) → ∃ t, exec (.tendUnmap r) s = .next t ∧
      Took s t e c (fun y => y.code = 0) ∧
      (t.region r.val).maps = (s.region r.val).maps.eraseP (fun m => decide (m.base = c.word 2 ∧ m.handle = c.gb.toNat))) ∧
    (svc = 4 → (∀ m ∈ (s.region r.val).maps, ¬ (m.base = c.word 2 ∧ m.handle = c.gb.toNat)) → ∃ t, exec (.tendUnmap r) s = .next t ∧
      Took s t e c (fun y => y.code = 2) ∧ (t.region r.val).maps = (s.region r.val).maps) ∧
    (svc = 5 → g.rec_.inModule = true →
      let k := g.rec_.core.val
      let opens := (s.region (regionOfCore k)).st = .assigned ∧ s.incOf g.rec_.agent = g.inc ∧ (s.chan k g.rec_.chan).length < 8 ∧
        (s.binding k g.rec_.chan.val).refuses c.kmode = false;
      (opens → ∃ t, exec (.tendPost r) s = .next t ∧ Took s t e c (fun y => y.code = 0) ∧
        t.chan k g.rec_.chan = s.chan k g.rec_.chan ++ [⟨c.w.get 2, c.w.get 3, c.w.get 4, c.w.get 5⟩]) ∧
      (¬ opens → ∃ t, exec (.tendPost r) s = .next t ∧ Took s t e c (fun y => y.code = 14) ∧
        t.chan k g.rec_.chan = s.chan k g.rec_.chan ∧ t.ctxs = s.ctxs)) ∧
    (svc = 6 → ∃ t, exec (.tendTimer r) s = .next t ∧ Took s t e c (fun y => y.code = 0) ∧ t.ctxs = s.ctxs ∧
      t.timers = s.timers.filter (fun z => z.obj != g.obj) ++
        (if c.word 2 = 0 then [] else [⟨g.obj, c.word 2, c.word 3, c.ctx, c.gb⟩])) ∧
    (svc = 7 → ∃ t, exec (.tendDoorbell r) s = .next t ∧ Took s t e c (fun y => y.code = 0) ∧ ∀ l : Loc, l.exists_ → t.reads l = s.reads l) ∧
    (svc = 0 ∨ 7 < svc → ∃ t, exec (.tendUnlistedService r) s = .next t ∧ Took s t e c (fun y => y.code = 2) ∧
      ∀ l : Loc, l.exists_ → t.reads l = s.reads l)) ∧
  (∀ qs, MayTake s e 0 c → c.clean e = true → c.cap = some g →
    let len := c.word 3 * g.rec_.block
    let still := fun (t : State) => ∀ l : Loc, l.exists_ → t.reads l = s.reads l
    let starts := fun (i : Instr) =>
      ((s.region r.val).portDown = false → ∃ t, exec i s = .next t ∧ still t ∧ Took s t e c (fun y => y.done = false ∧ y.wait = true)) ∧
      ((s.region r.val).portDown = true → ∃ t, exec i s = .next t ∧ still t ∧ Took s t e c (fun y => y.done = true ∧ y.code = 13))
    let long := fun (i : Instr) => 2 ^ 26 < len →
      ∃ t, exec i s = .next t ∧ still t ∧ Took s t e c (fun y => y.done = true ∧ y.code = 2)
    (svc = 1 → long (.tendStorageRead r) ∧ (len ≤ 2 ^ 26 → State.transAll (c.who e) .store [(c.word 4, len)] s = (s, .ok qs) →
      enginePages (c.who e) qs ≤ 1024 → starts (.tendStorageRead r))) ∧
    (svc = 2 → long (.tendStorageWrite r) ∧ (len ≤ 2 ^ 26 → s.Warm (c.who e) .load (c.word 4, len) → starts (.tendStorageWrite r)))) ∧
  (∀ (n : Nat) (y : Run) (nvme : BitVec 16) (data : List Byte),
    ((s.engine e).running.filter (fun z => z.wait && !z.done))[n]? = some y →
    let total := if y.cmd.word 1 % 256 = 1 then y.cmd.storageBytes else 0
    (s.staleCap y.cmd.cap = true → exec (.tendStorageComplete r n nvme data) s = .next (s.countStale r.val 1)) ∧
    (s.staleCap y.cmd.cap = false → data.length ≤ total → (nvme = 0 → data.length = total) → s.writeHeld (y.cmd.who e) y.dst = false →
    (∀ z ∈ (s.engine e).running, z.cmd.seq = y.cmd.seq → z = y) →
    ∃ t z, exec (.tendStorageComplete r n nvme data) s = .next t ∧ t.runOf e y.cmd.seq = some z ∧ z.done = true ∧
      (s.closedPiece (y.cmd.who e).region y.dst ≠ none → z.code = 3 ∧ ∀ l : Loc, l.exists_ → t.reads l = s.reads l) ∧
      (s.closedPiece (y.cmd.who e).region y.dst = none →
        (nvme = 0 → z.code = 0 ∧ z.result = BitVec.ofNat 64 y.cmd.storageBytes) ∧ (nvme ≠ 0 → z.code = 13 ∧ z.m2 = nvme.zeroExtend 64) ∧
        (y.cmd.dlog = false → (∀ l ∈ pieceLocs y.dst, l.exists_ ∧ ∀ pa, l = .hbm pa → s.chanDown pa = false) →
          Stored s t ((pieceLocs y.dst).zip data))))) ∧
  (∀ z : Timer, s.timers.find? (·.obj == z.obj) = some z → z.expiry ≤ s.time.toNat → ∃ t, exec (.tenderTimerExpire z.obj) s = .next t ∧
    t = { s with ctxs := t.ctxs, timers := t.timers } ∧ (∀ j, j ≠ z.ctx → t.ctx j = s.ctx j) ∧
    t.ctx z.ctx = (s.ctx z.ctx).accept ⟨.cause 0, z.handle⟩ ∧
    ∃ l, t.timers = s.timers.filter (fun y => y.obj != z.obj) ++ l ∧ (z.period = 0 → l = []) ∧
      (z.period ≠ 0 → ∃ m, l = [{ z with expiry := z.expiry + m * z.period }] ∧ s.time.toNat < z.expiry + m * z.period ∧
        z.expiry + (m - 1) * z.period ≤ s.time.toNat))

/-- R102 to R106, R363, R366, R392, R423. A launch initialises FREE contexts only: every other context keeps its registers, and no byte of
memory changes. A descriptor that keeps to R102 and has no placement map puts one member each on as many cores, those of the issuing
region first and the other regions of the island in ascending order, on the lowest FREE context of each, whose registers become what
R105's table says, under the next gang number that no context holds, with the barriers and held decrements of that number gone; with too
few such cores it is NOROOM, and a descriptor that breaks R102 INVALID. A clear that an earlier launch left outstanding stays so. The clear
ends with the vector and mask registers 0. -/
def Obligations.LaunchTakesOnlyFreeContexts : Prop := ∀ (s : State) (c : Cmd) (r : RegionId),
  let e : EngineId := .lnch r
  (MayTake s e 0 c → c.clean e = true → s.gangSeq ≤ 65535 → ∃ t, exec (.lnchGang r) s = .next t ∧
    (∀ l : Loc, l.exists_ → t.reads l = s.reads l) ∧ (∀ k, (t.core k).acc = (s.core k).acc ∧ (t.core k).chans = (s.core k).chans) ∧
    Took s t e c (fun y => y.done = true ∧ ∀ j,
      ((s.ctx j).st ≠ .free ∨ y.code ≠ 0 → t.ctx j = { s.ctx j with pmcnt := (t.ctx j).pmcnt }) ∧
      (y.code = 0 → (s.ctx j).st = .free → t.ctx j = { s.ctx j with pmcnt := (t.ctx j).pmcnt } ∨
        ((t.ctx j).st = .ready ∧ (t.ctx j).status.mode = false ∧ (t.ctx j).status.ie = true ∧ (t.ctx j).gang.toNat = y.result.toNat % 2 ^ 16 ∧
          (t.ctx j).vclear = ((s.ctx j).vclear || (t.ctx j).status.ven) ∧ (t.ctx j).vstart = 0 ∧ (t.ctx j).fstat = 0 ∧
          (t.ctx j).getG 1 = 0 ∧ (t.gangOf y.result.toNat).reg.any (fun p => p.2 == j) = true)))) ∧
  (let bytes := s.readsAt (c.who e) (c.word 1, 64)
   let w := fun (i : Nat) => leNat ((bytes.drop (8 * i)).take 8)
   let count := w 1 % 2 ^ 11
   let good := w 0 % 4 = 0 ∧ 1 ≤ count ∧ count ≤ 1024 ∧ w 1 / 2 ^ 11 % 2 ^ 5 = 0 ∧ w 1 / 2 ^ 21 = 0 ∧ w 3 < 2 ^ 32 ∧ w 4 % 16 = 0 ∧
     w 5 < 2 ^ 32 ∧ w 5 % 16 = 0 ∧ w 6 % 64 = 0
   let home := regionOf c.ctx
   let island := (List.range 32).filter (fun x => decide ((s.region x).st = .assigned ∧ (s.region x).island = (s.region home).island))
   let room := ((island.filter (· == home) ++ island.filter (· != home)).flatMap coresOfRegion).filterMap (fun k =>
     if (s.core k).fenced then none else (ctxsOfCore k).find? (fun j => decide ((s.ctx j).st = .free)))
   MayTake s e 0 c → c.clean e = true → c.word 1 % 64 = 0 → s.Warm (c.who e) .load (c.word 1, 64) → ∃ t, exec (.lnchGang r) s = .next t ∧
     (¬ good → Took s t e c (fun y => y.done = true ∧ y.code = 2)) ∧
     (good → w 6 = 0 → room.length < count → Took s t e c (fun y => y.done = true ∧ y.code = 12)) ∧
     (good → w 6 = 0 → count ≤ room.length → 1 ≤ s.gangSeq → s.gangSeq ≤ 65535 → s.ctxs.length < 65535 → ∃ n : Nat,
       1 ≤ n ∧ n ≤ 65535 ∧ (∀ x ∈ s.ctxs, x.2.gang.toNat ≠ n) ∧
       (∃ i : Nat, n = (s.gangSeq - 1 + i) % 65535 + 1 ∧ ∀ i' < i, ∃ x ∈ s.ctxs, x.2.gang.toNat = (s.gangSeq - 1 + i') % 65535 + 1) ∧
       Took s t e c (fun y => y.done = true ∧ y.code = 0 ∧ y.result = BitVec.ofNat 64 n) ∧ t.gangSeq = n % 65535 + 1 ∧
       t.gangOf n = ⟨w 7 % 2 ^ 32, (List.range count).zip room⟩ ∧ (∀ b ∈ t.bars, b.1.gang ≠ n ∨ b.1.sc = .pod) ∧
       (∀ x < 32, ∀ d ∈ (t.region x).heldDec, d.1 ≠ n) ∧
       ∀ j, (j ∉ room.take count → t.ctx j = { s.ctx j with pmcnt := (t.ctx j).pmcnt }) ∧
         ∀ m < count, room[m]? = some j → t.ctx j = { s.ctx j with
           st := .ready, wait := .none, park := .none, miss := .none, young := false, waited := 0, pc := BitVec.ofNat 64 (w 0)
           g := (t.ctx j).g, member := BitVec.ofNat 10 m, gsize := BitVec.ofNat 11 count, gang := BitVec.ofNat 16 n
           prio := BitVec.ofNat 2 (w 1 / 2 ^ 16)
           status := { (s.ctx j).status with
             mode := false, ie := true, ven := (w 1).testBit 18, vd := false, ten := (w 1).testBit 19, ye := (w 1).testBit 20 }
           yDl := BitVec.ofNat 32 (w 7 / 2 ^ 32), yPend := false, yArmed := none
           vl := 0, es := 0, grp := 0, vstart := 0, vfill := 0, vffe := 0, fstat := 0, seed := 0, stripbase := 0
           asid := BitVec.ofNat 16 c.asid, ptOn := c.ptOn, ptRoot := BitVec.ofNat 40 c.ptRoot
           vclear := (s.ctx j).vclear || (w 1).testBit 18, pmcnt := (t.ctx j).pmcnt } ∧
           ∀ i, (t.ctx j).getG i = if i = 2 then BitVec.ofNat 64 (w 4 + m * w 5) else if i = 3 then BitVec.ofNat 64 (w 2 + m * w 3) else 0)) ∧
  (∀ x : CtxId, (s.ctx x.val).vclear = true → ∃ t, exec (.launchVclearDone x) s = .next t ∧ OnlyCtx x.val s t ∧
    t.ctx x.val = { s.ctx x.val with vclear := false, v := Vector.replicate 32 0, m := Vector.replicate 16 0 })

/-! Coherence, regions, management. -/

/-- R263, R345 to R349, in the model's reading of them (assumption 44): a grant changes every holder in one step, a read takes EXCL from
an entry another holder of which it lowers, and an eviction notice takes it only where it frees a pointer. DIR_READ_MISS: a line without
an entry waits for a discovery probe; otherwise the load is served, the requester then holds its span, the copies of the holders that
the directory names are shared, and the home entry of a requester of the home die changes as the rows of R345 say. DIR_OWNERSHIP_REQUEST
first gives up what the core holds of the line beyond the span, then
sends an invalidation to every holder that R346 names, those of other dies behind the proxy of their die, and waits, or is granted where
there is none: the core then has the pointer to the span, EXCL where no other copy is left. PROBE_ANSWER rebuilds the entry and serves the request. INVALIDATION_RECEIVE removes exactly the span and answers, or is
discarded while the core's own notice for part of the span is outstanding. INVALIDATION_ACK and a notice that covers an invalidation it
crossed are counted, at the home or at the die's proxy, and the count that reaches the number sent grants the request. CACHE_EVICTION
drops a line, silently where it is clean. No byte of memory changes its value. -/
def Obligations.DirectoryProtocol : Prop := ∀ (s : State) (c : CtxId) (k : CoreId) (line : Nat) (span : BitVec 8),
  let quiet := fun (t : State) => t = { s with
    ctxs := t.ctxs, cores := t.cores, dir := t.dir, proxies := t.proxies, txns := t.txns, cohMsgs := t.cohMsgs, hbmOld := t.hbmOld } ∧
    (∀ l, t.reads l = s.reads l) ∧ (∀ j, t.ctx j = { s.ctx j with miss := (t.ctx j).miss, pmcnt := (t.ctx j).pmcnt }) ∧
    (∀ j, t.core j = { s.core j with l1 := (t.core j).l1, notices := (t.core j).notices, rcache := (t.core j).rcache })
  let has := fun (t : State) (j : Nat) (need : BitVec 8) => (((t.core j).line line).m ||| ((t.core j).line line).e |||
    ((t.core j).line line).s) &&& need = need
  let owns := fun (t : State) (j : Nat) (need : BitVec 8) => (((t.core j).line line).m ||| ((t.core j).line line).e) &&& need = need
  let me := coreOf c.val
  let clear := fun (j : Nat) => ∀ n ∈ (s.core j).notices, n.1 ≠ line
  (∀ d n x va pa ent, (s.ctx c.val).miss = .load d n x va (.hbm pa) ent false → lineOf pa = line → spanOf (pa % 128) n = span →
    s.txnOf line = none → s.engineOwns [.hbm pa] = false → clear me →
    (s.dirOf line = none → ∃ t, exec (.dirReadMiss c) s = .next t ∧ t = { s with txns := t.txns } ∧
      t.txnOf line = some ⟨line, me, span, false, true, 0, 0, c.val, []⟩) ∧
    (∀ e, s.dirOf line = some e → ∃ t, exec (.dirReadMiss c) s = .next t ∧ quiet t ∧ t.txnOf line = none ∧ has t me span ∧
      (∀ j, j ≠ c.val → t.ctx j = s.ctx j) ∧ (t.ctx c.val).miss = .load d n x va (.hbm pa) ent true ∧
      (¬ has s me span → (∀ j ∈ s.targets line span me, clear j) → ∀ j, j ≠ me → (t.core j).line line =
        (let y := (s.core j).line line
         if j ∈ s.targets line span me then ⟨y.m &&& ~~~span, y.e &&& ~~~span, y.s ||| ((y.m ||| y.e) &&& span), y.good⟩ else y)) ∧
      (¬ has s me span → dieOfCore me = homeDie line →
        (∀ die < 16, e.dies.getLsbD die = true → ∃ p, s.proxyOf line die = some p ∧ p.tracksNone = false) →
        ∃ e', t.dirOf line = some e' ∧ e'.dies = e.dies ∧
        (e.coarse = false → (∃ p ∈ e.ptrs, p.core = me) → e'.coarse = false ∧
          (e'.excl = true ↔ e.excl = true ∧ e.dies = 0 ∧ ∀ p ∈ e.ptrs, p.core = me ∨ p.span &&& span = 0) ∧
          e'.ptrs = e.ptrs.map (fun p => if p.core = me then ⟨me, p.span ||| span⟩ else p)) ∧
        (e.coarse = false → (∀ p ∈ e.ptrs, p.core ≠ me) → e.ptrs.length < 4 → e'.coarse = false ∧ e'.ptrs = e.ptrs ++ [⟨me, span⟩] ∧
          (e'.excl = true ↔ e.ptrs = [] ∧ e.dies = 0)) ∧
        (e.coarse = false → (∀ p ∈ e.ptrs, p.core ≠ me) → 4 ≤ e.ptrs.length → e'.coarse = true ∧
          (∀ q < 16, e'.qv.getLsbD q = true ↔ quadOfCore me % 16 = q ∨ ∃ p ∈ e.ptrs, quadOfCore p.core % 16 = q) ∧
          (∀ j < 8, e'.span.getLsbD j = true ↔ span.getLsbD j = true ∨ ∃ p ∈ e.ptrs, p.span.getLsbD j = true)) ∧
        (e.coarse = true → e'.coarse = true ∧ e'.span = e.span ||| span ∧
          ∀ q < 16, e'.qv.getLsbD q = true ↔ e.qv.getLsbD q = true ∨ quadOfCore me % 16 = q)))) ∧
  (∀ d n x va l ent, (s.ctx c.val).miss = .load d n x va l ent false → (∀ pa, l ≠ .hbm pa) → ∃ t, exec (.dirReadMiss c) s = .next t ∧
    OnlyCtx c.val s t ∧ t.ctx c.val = { s.ctx c.val with miss := .load d n x va l ent true }) ∧
  (s.wanted c.val = some (line, span) → s.txnOf line = none → s.engineOwns (spanLocs line span) = false → clear me →
    let home := s.homeTargets line span me
    let dies := s.dieTargets line
    let reach := fun (die : Nat) => s.proxyTargets line die span me
    let beyond := fun (t : State) => (((t.core me).line line).m ||| ((t.core me).line line).e ||| ((t.core me).line line).s) &&& ~~~span
    (∃ t, exec (.dirOwnershipRequest c) s = .next t ∧ quiet t ∧ beyond t = 0) ∧
    (beyond s = 0 → s.dirOf line = none → ∃ t, exec (.dirOwnershipRequest c) s = .next t ∧ quiet t ∧ t.cohMsgs = s.cohMsgs ∧ t.cores = s.cores ∧
      t.txnOf line = some ⟨line, me, span, true, true, 0, 0, c.val, []⟩) ∧
    (beyond s = 0 → s.dirOf line ≠ none → home ≠ [] ∨ dies ≠ [] → ∃ t, exec (.dirOwnershipRequest c) s = .next t ∧ quiet t ∧ t.cores = s.cores ∧
      t.dir = s.dir ∧ t.cohMsgs = s.cohMsgs ++ (home ++ dies.flatMap reach).map (fun j => .inval line j span) ++
        (dies.filter (fun die => (reach die).isEmpty)).map (fun die => .dieAck line die) ∧
      t.txnOf line = some ⟨line, me, span, true, false, home.length + dies.length, 0, c.val,
        (dies.filter (fun die => !(reach die).isEmpty)).map (fun die => (die, (reach die).length))⟩) ∧
    (beyond s = 0 → s.dirOf line ≠ none → home = [] → dies = [] → ∃ t, exec (.dirOwnershipRequest c) s = .next t ∧ quiet t ∧
      owns t me span ∧ t.txnOf line = none ∧
      ∀ e, s.dirOf line = some e → e.coarse = false → e.ptrs.length < 4 → dieOfCore me = homeDie line → ∃ e', t.dirOf line = some e' ∧
        e'.coarse = false ∧ (∀ p, p ∈ e'.ptrs ↔ p = ⟨me, span⟩ ∨ (p ∈ e.ptrs ∧ p.core ≠ me ∧ p.span ≠ 0)) ∧
        (e'.excl = true ↔ ∀ p ∈ e'.ptrs, p = ⟨me, span⟩))) ∧
  (∀ x, s.txnOf line = some x → x.probe = true → ∃ t, exec (.probeAnswer line) s = .next t ∧ quiet t ∧ t.dirOf line ≠ none ∧
    (x.write = false → t.txnOf line = none ∧ has t x.core x.span)) ∧
  (∀ pre post, s.cohMsgs = pre ++ .inval line k.val span :: post → (∀ m ∈ pre, ∀ z, m ≠ .inval line k.val z) →
    let out := ((s.core k.val).notices.filter (fun n => n.1 == line)).foldl (fun a n => a ||| n.2) 0
    (out &&& span ≠ 0 → ∃ t, exec (.invalidationReceive k line) s = .next t ∧
      t = { s with cohMsgs := pre ++ post ++ [.crossed line k.val (span &&& out)] }) ∧
    (out &&& span = 0 → ∃ t, exec (.invalidationReceive k line) s = .next t ∧ quiet t ∧ t.ctxs = s.ctxs ∧
      (∀ j, j ≠ k.val → t.core j = { s.core j with rcache := (t.core j).rcache }) ∧
      (t.core k.val).notices = (s.core k.val).notices ∧ (∀ h, h ≠ line → (t.core k.val).line h = (s.core k.val).line h) ∧
      (t.core k.val).line line = (let y := (s.core k.val).line line; ⟨y.m &&& ~~~span, y.e &&& ~~~span, y.s &&& ~~~span, y.good &&& ~~~span⟩) ∧
      t.cohMsgs = pre ++ post ++ [.ack line k.val])) ∧
  (∀ pre post j x m, s.cohMsgs = pre ++ m :: post → m = .ack line j ∨ m = .dieAck line j →
    (∀ y ∈ pre, ∀ z, y ≠ .ack line z ∧ y ≠ .dieAck line z) → s.txnOf line = some x → x.write = true → clear x.core →
    (m = .dieAck line j ∨ dieOfCore j = homeDie line →
      ∃ t, exec (.invalidationAck line) s = .next t ∧ quiet t ∧ t.ctxs = s.ctxs ∧
        (x.acked + 1 < x.sent ∨ ((∀ i, clear i) ∧ ∀ i z, CohMsg.crossed line i z ∉ s.cohMsgs) → t.cohMsgs = pre ++ post) ∧
        (x.acked + 1 < x.sent → t.txnOf line = some { x with acked := x.acked + 1 } ∧ t.cores = s.cores) ∧
        (x.acked + 1 = x.sent → t.txnOf line = none ∧ owns t x.core x.span)) ∧
    (∀ n, m = .ack line j → dieOfCore j ≠ homeDie line → x.fwd.find? (fun f => f.1 == dieOfCore j) = some (dieOfCore j, n) →
      let rest := x.fwd.filter (fun f => f.1 != dieOfCore j)
      ∃ t, exec (.invalidationAck line) s = .next t ∧ t = { s with txns := t.txns, cohMsgs := t.cohMsgs } ∧
        (n ≤ 1 → t.cohMsgs = pre ++ post ++ [.dieAck line (dieOfCore j)] ∧ t.txnOf line = some { x with fwd := rest }) ∧
        (1 < n → t.cohMsgs = pre ++ post ∧ t.txnOf line = some { x with fwd := (dieOfCore j, n - 1) :: rest }))) ∧
  (let y := (s.core k.val).line line;
    y.m ||| y.e ||| y.s ≠ 0 → ∃ t, exec (.cacheEviction k line) s = .next t ∧ t = { s with cores := t.cores } ∧
      (∀ j, j ≠ k.val → t.core j = s.core j) ∧ t.core k.val = { s.core k.val with l1 := (t.core k.val).l1, notices := (t.core k.val).notices } ∧
      (∀ h, h ≠ line → (t.core k.val).line h = (s.core k.val).line h) ∧ (t.core k.val).line line = ⟨0, 0, 0, 0⟩ ∧
      (t.core k.val).notices = (s.core k.val).notices ++ (if y.m = 0 then [] else [(line, y.m)])) ∧
  (∀ pre post, (s.core k.val).notices = pre ++ (line, span) :: post → (∀ n ∈ pre, n.1 ≠ line) →
    ∃ t, exec (.evictionNotice k line) s = .next t ∧ quiet t ∧
      ((∀ z, CohMsg.crossed line k.val z ∉ s.cohMsgs) → t = { s with cores := t.cores, dir := t.dir, proxies := t.proxies, hbmOld := t.hbmOld } ∧
        (∀ j, t.core j = { s.core j with
          notices := if j = k.val then pre ++ post else (s.core j).notices, rcache := (t.core j).rcache }) ∧
        (dieOfCore k.val = homeDie line → (∀ h, h ≠ line → t.dirOf h = s.dirOf h) ∧
          ∀ e, s.dirOf line = some e → ∃ e', t.dirOf line = some e' ∧ (e.coarse = true → e' = e) ∧
            (e.coarse = false → e' = { e with ptrs := e'.ptrs, excl := e'.excl } ∧
              (∀ p, p ∈ e'.ptrs ↔ ∃ p0 ∈ e.ptrs, p.core = p0.core ∧
                ((p0.core ≠ k.val ∧ p.span = p0.span) ∨ (p0.core = k.val ∧ p.span = p0.span &&& ~~~span ∧ p.span ≠ 0))) ∧
              (e'.excl = true ↔ e.excl = true ∧ ∀ p ∈ e.ptrs, p.core = k.val → p.span &&& ~~~span ≠ 0)))) ∧
      (∀ a b z, s.cohMsgs = a ++ .crossed line k.val z :: b → (∀ y ∈ a ++ b, ∀ v, y ≠ .crossed line k.val v) →
        (z &&& ~~~span ≠ 0 → t.cohMsgs = a ++ .crossed line k.val (z &&& ~~~span) :: b ∧ t.txns = s.txns) ∧
        (∀ x, z &&& ~~~span = 0 → dieOfCore k.val = homeDie line → s.txnOf line = some x → x.write = true →
          (x.acked + 1 < x.sent → t.cohMsgs = a ++ b ∧ t.txnOf line = some { x with acked := x.acked + 1 } ∧
            (t.core k.val).notices = pre ++ post) ∧
          (x.acked + 1 = x.sent → t.txnOf line = none ∧ owns t x.core x.span))))

/-- R18, R405, R406. A region over its limit is throttled, and released when it is not, with its current recorded and nothing else
changed. Heat: from 105 °C the limits of the die's two regions are 500 A, which throttles one whose current exceeds it, and HOT is set;
from 115 °C its regions that are not held yet are reset, one in no island too, and held, and TRIP is set; below 100 °C the limits are 625 A again, and below 95 °C the
held regions open, with CYCLE 0 and the kernel image of their assignment placed again (R253; assumption 20), which needs the firmware of every die whose routes that changes (R397). A sensor that shows another temperature changes
DTEMP alone, and no cycle passes before firmware has reacted (assumption 36); that firmware reacts only while its Fanov core
runs is assumption 37. -/
def Obligations.ThrottlingAndTemperature : Prop := ∀ (s : State) (r : RegionId) (d : DieId) (amps : BitVec 11) (deg : BitVec 8),
  let x := s.region r.val
  let only := fun (t : State) (y : Region) => t = { s with regions := t.regions } ∧
    ∀ q, t.region q = if q = r.val then y else s.region q
  let mine := fun (q : Nat) => q = 2 * d.val ∨ q = 2 * d.val + 1
  let limits := fun (t : State) (n : BitVec 11) => t = { s with regions := t.regions, dtemp := t.dtemp, mstatus := t.mstatus } ∧
    t.dtemp = s.dtemp.set d.val deg d.isLt ∧ ∀ q, t.region q = if mine q then
      { s.region q with limit := n, throttled := decide (n < (s.region q).amps) } else s.region q
  let acts := s.mstatus.fwready = true ∧ s.fanovDown.getLsbD d.val = false
  (x.limit < amps → ∃ t, exec (.regionThrottle r amps) s = .next t ∧ only t { x with throttled := true, amps := amps }) ∧
  (x.throttled = true → amps ≤ x.limit → ∃ t, exec (.regionThrottleRelease r amps) s = .next t ∧
    only t { x with throttled := false, amps := amps }) ∧
  (acts → 105 ≤ deg.toNat → deg.toNat < 115 → ∃ t, exec (.tempHot d deg) s = .next t ∧ limits t 1000 ∧
    t.mstatus = { s.mstatus with hot := true }) ∧
  (acts → 115 ≤ deg.toNat → ∃ t, exec (.tempTrip d deg) s = .next t ∧ t.dtemp = s.dtemp.set d.val deg d.isLt ∧
    t.mstatus = { s.mstatus with hot := true, trip := true } ∧ ∀ q, mine q → (t.region q).limit = 1000 ∧
      (t.region q).tripped = true ∧
      ((s.region q).tripped = true ∨ (s.region q).st = .resetting →
        (t.region q).st = (s.region q).st ∧ (t.region q).inc = (s.region q).inc) ∧
      ((s.region q).tripped = false → (s.region q).st ≠ .resetting → (t.region q).inc = (s.region q).inc + 1 ∧ (t.region q).st =
        match (s.region q).st with
        | .assigned | .resetting => .resetting
        | .free => if (s.region q).chanFence = [] then .free else .fenced
        | .fenced => .fenced)) ∧
  (acts → 115 ≤ (s.dtemp.get d).toNat → (∃ q, mine q ∧ (s.region q).tripped = false) → ∀ n, s.mayTick n = false) ∧
  (acts → 105 ≤ (s.dtemp.get d).toNat → (s.dtemp.get d).toNat < 115 → (∃ q, mine q ∧ (s.region q).limit ≠ 1000) → ∀ n, s.mayTick n = false) ∧
  (acts → 95 ≤ deg.toNat → deg.toNat < 100 → ∃ t, exec (.tempRecover d deg) s = .next t ∧ limits t 1250 ∧ t.mstatus = s.mstatus) ∧
  (acts → deg.toNat < 95 → (∀ q, mine q → (s.region q).tripped = true → (s.region q).st = .resetting → s.mayReset q = true) →
    ∃ t, exec (.tempRecover d deg) s = .next t ∧ t.mstatus = s.mstatus ∧
    t.dtemp = s.dtemp.set d.val deg d.isLt ∧ ∀ q, mine q → (t.region q).limit = 1250 ∧
      (t.region q).tripped = false ∧
      ((s.region q).tripped = true → (s.region q).st = .resetting → (s.region q).chanFence = [] → (t.region q).st = .assigned ∧
        (∀ k, regionOfCore k = q → (t.core k).cycle = BitVec.ofNat 64 s.cycles - (s.region q).gated) ∧
        ((∀ p, mine p → ∀ b ∈ (s.region p).image, b.1 / 2 ^ 36 = p) → ((s.region q).image.map (·.1)).Nodup →
          ∀ b ∈ (s.region q).image, b.1 < (s.region q).rta ∨ (s.region q).rta + 2 ^ 21 ≤ b.1 → t.reads (.hbm b.1) = t.kept (.hbm b.1) b.2)) ∧
      ((s.region q).tripped = false ∨ (s.region q).st ≠ .resetting → (t.region q).st = (s.region q).st)) ∧
  (∀ rest, s.sched = .heat d deg :: rest → ∃ t, step s = .next t ∧
    t = { s with sched := rest, dtemp := s.dtemp.set d.val deg d.isLt, regions := t.regions } ∧ ∀ q, t.region q = s.region q)

/-- R22, R253, R388 to R390, R393, R396, in the model's reading of what a reset leaves of a context (assumption 5) and of a fenced pseudo-channel
at the next reset (assumption 34), and that firmware refuses a request while its Fanov core restarts (assumption 37). A region reset, by itself, on the host's request, or of every region of an island whose context entered
its trap vector 16 times in succession: the region is ASSIGNED again under its next incarnation without windows or mappings; its contexts
and cores are at reset with the boot vector in TVEC and CYCLE 0, its scratchpads and its table area read 0, and the kernel image of its
assignment is placed again (assumption 20); TIME and every byte of other regions stay. BOOT is accepted for its event context, RESET for
those of the island's other regions, and 0x45 for every other member of a gang that lost one.
With a pseudo-channel fenced the region becomes FENCED, which needs the firmware of every die whose routes that changes (R397). REGION_EVENT_RETRY delivers the oldest event that firmware holds. -/
def Obligations.RegionResetClearsTheRegion : Prop := ∀ (s : State) (r : RegionId) (c : CtxId),
  let x := s.region r.val
  let acts := fun (q : Nat) => s.mstatus.fwready = true ∧ s.fanovDown.getLsbD (q / 2) = false
  let other := fun (q : Nat) => q < 32 ∧ q ≠ r.val ∧ (s.region q).st = .assigned ∧ (s.region q).island = x.island
  let own := fun (j : Nat) => j < 1024 ∧ regionOfCore j = r.val
  let event := fun (t : State) (q : Nat) (n : Nat) => ∀ k, s.eventCore q = some k → t.Told (4 * k) 3 (BitVec.ofNat 64 n)
  let outside := fun (b : Nat × Byte) => b.1 < x.rta ∨ x.rta + 2 ^ 21 ≤ b.1
  let done := fun (i : Instr) => ∃ t, exec i s = .next t ∧ t.cycles = s.cycles ∧
    t.region r.val = { x with
      inc := x.inc + 1, key := x.key + 1, windows := Vector.replicate 8 none, pending := (t.region r.val).pending
      quiet := (t.region r.val).quiet, lost := (t.region r.val).lost, maps := [], coll := (t.region r.val).coll
      tend := (t.region r.val).tend, lnch := (t.region r.val).lnch, heldDec := [], stale := (t.region r.val).stale
      dlogHead := 0 } ∧
    (∀ j, j < 4096 → own (coreOf j) → let told := s.eventCore r.val = some (coreOf j) ∧ j % 4 = 0
      (¬ told → t.ctx j = { Ctx.reset with tvec := x.boot }) ∧
      (told → t.ctx j = { Ctx.reset with
        tvec := x.boot, status := { Ctx.reset.status with ipend := 8 }
        ipendTval := Ctx.reset.ipendTval.set 3 (BitVec.ofNat 64 (r.val + 1 * 2 ^ 8)) })) ∧
    (∀ k, own k → t.core k = { Core.reset with
      fenced := (s.core k).fenced, chans := (t.core k).chans, cycle := BitVec.ofNat 64 s.cycles - x.gated }) ∧
    (∀ k, own k → (t.core k).chans = Core.reset.chans) ∧
    ((x.image.map (·.1)).Nodup → ∀ b ∈ x.image, outside b → t.reads (.hbm b.1) = t.kept (.hbm b.1) b.2) ∧
    (∀ k o, k < 1024 → o < 2 ^ 23 → t.reads (.spad k o) = if own k then 0 else s.reads (.spad k o)) ∧
    (∀ pa, x.rta ≤ pa → pa < x.rta + 2 ^ 21 → t.reads (.hbm pa) = 0) ∧
    (∀ pa, regionOfPa pa ≠ r.val → t.reads (.hbm pa) = s.reads (.hbm pa)) ∧
    event t r.val (r.val + 1 * 2 ^ 8) ∧
    (∀ q, other q → s.fanovDown.getLsbD (q / 2) = false → event t q (r.val + 2 * 2 ^ 8 + (x.inc + 1).toNat * 2 ^ 16)) ∧
    (∀ j m, ¬ own (coreOf j) → (s.ctx j).gang ≠ 0 →
      (∃ y, y < 4096 ∧ own (coreOf y) ∧ (s.ctx y).gang = (s.ctx j).gang) →
      (∀ y, y < 4096 → own (coreOf y) → (s.ctx y).gang = (s.ctx j).gang → (s.ctx y).member = m) →
      t.Told j 5 (m.zeroExtend 64))
  let still := (∀ k, (s.core k).arrivals = []) ∧ (∀ e, (s.engine e).held = [])
  (acts r.val → x.st = .assigned → x.tripped = false → x.chanFence = [] → x.rta / 2 ^ 36 = r.val → x.rta % 2 ^ 21 = 0 →
    (∀ b ∈ x.image, b.1 / 2 ^ 36 = r.val) → still →
    done (.regionReset r) ∧ done (.mgmtReset r)) ∧
  (s.mayReset r.val = true → x.st = .assigned → x.tripped = false → x.chanFence ≠ [] → ∃ t, exec (.regionReset r) s = .next t ∧ (t.region r.val).st = .fenced ∧
    (t.region r.val).inc = x.inc + 1) ∧
  (x.st = .assigned → s.mstatus.fwready = true → ∃ t, exec (.mgmtReset r) s = .next t ∧
    ((∃ q ∈ s.resetReach r.val, s.fanovDown.getLsbD (q / 2) = true) → ∃ reason, t = { s with mgmtOut := s.mgmtOut ++ [.refused reason] }) ∧
    ((∀ q ∈ s.resetReach r.val, s.fanovDown.getLsbD (q / 2) = false) → t.mgmtOut = s.mgmtOut ++ [.done])) ∧
  (let mine := fun (q : Nat) => q < 32 ∧ (s.region q).st = .assigned ∧ (s.region q).island = s.islandOf (regionOf c.val);
    16 ≤ (s.ctx c.val).trapRun → (s.region (regionOf c.val)).st = .assigned →
    (∀ q, mine q → acts q ∧ (s.region q).tripped = false ∧ (s.region q).chanFence = []) → ∃ t, exec (.trapLoopReset c) s = .next t ∧
      (∀ q, mine q → (t.region q).st = .assigned ∧ (t.region q).inc = (s.region q).inc + 1) ∧
      ∃ reason, t.mgmtOut = s.mgmtOut ++ [.told reason]) ∧
  (∀ m rest k, x.st = .assigned → x.pending = m :: rest → s.eventCore r.val = some k → (s.binding k 15).mode ≠ 0 → (s.chan k 15).length < 8 →
    s.fanovDown.getLsbD (r.val / 2) = false → ∃ t, exec (.regionEventRetry r) s = .next t ∧
      t = { s with ctxs := t.ctxs, cores := t.cores, regions := t.regions } ∧
      (∀ q, t.region q = if q = r.val then { x with pending := rest, lost := false } else s.region q) ∧
      t.chan k 15 = s.chan k 15 ++ [if x.lost then { m with m3 := m.m3 ||| 0x80000000 } else m])

/-- R222, R223, R267, R392 to R394, R397 to R400, with the model's choices that an island is numbered by its lowest region after a failure
(assumption 32), that a failed port sets no REPLACE and UNCORR counts an error when it arises (assumption 35), that the unit marks tile data
in error until they are used (assumption 30), and that a fenced core's contexts are as after a reset (assumption 70). What failures leave: a core fenced on request (refused while a context of it is not FREE or
a counter is not 0) or on failure, which poisons the dirty sectors it held and tells the gangs that lose a member; a region FENCED after
the failure of a slice, its island going on without it; a pseudo-channel whose sectors read as poisoned; a boundary with its windows
withdrawn; a port, whose storage calls in flight end STORAGE; a Fanov core that restarts while FWREADY stands (assumption 91); a poisoned sector, tile data that are bad until they are found, a corrected error that is counted.
REPLACE is set by every fencing. No byte of memory changes but in the failure of a slice, which resets its region (R394). What a fenced core's
L1 held dirty is HBM's value from then on, and a core fenced already is refused: the model's choices (assumption 70). -/
def Obligations.FailuresFenceUnits : Prop := ∀ (s : State) (k : CoreId) (r : RegionId) (ch : Fin 64) (b : LinkId) (d : DieId),
  let acts := fun (q : Nat) => s.mstatus.fwready = true ∧ s.fanovDown.getLsbD (q / 2) = false
  let home := regionOfCore k.val
  let x := s.region r.val
  let event := fun (t : State) (q : Nat) (n : Nat) => t.fanovDown.getLsbD (q / 2) = false → ∀ j, t.eventCore q = some j →
    t.Told (4 * j) 3 (BitVec.ofNat 64 n)
  let still := fun (t : State) => ∀ l : Loc, t.reads l = s.reads l
  let inIsland := fun (q : Nat) => (s.region q).st = .assigned ∨ (s.region q).st = .resetting
  let fenced := fun (t : State) => still t ∧ (t.core k.val).fenced = true ∧ (t.core k.val).spsize = (s.core k.val).spsize ∧
    (∀ c, coreOf c = k.val → t.ctx c = Ctx.reset) ∧ t.mstatus = { s.mstatus with replace := true } ∧
    (inIsland home → ∀ q < 32, inIsland q → (s.region q).island = s.islandOf home → event t q (home + 3 * 2 ^ 8 + k.val * 2 ^ 16))
  let dirty := fun (line j : Nat) => ((s.core k.val).line line).m.getLsbD j = true
  let clean := fun (t : State) => ∀ line, ∀ j < 8, dirty line j → ∀ i < 16, SMap.get none t.hbmOld (line * 128 + 16 * j + i) = none
  let idle := ∀ c, coreOf c = k.val → (s.ctx c).st = .free ∧ (s.ctx c).cntL = 0 ∧ (s.ctx c).cntS = 0 ∧ (s.ctx c).cntC = 0 ∧
    (s.ctx c).cntT = 0
  (acts home → (s.core k.val).fenced = false → idle → ∃ t, exec (.mgmtFenceCore k) s = .next t ∧ fenced t ∧
    clean t ∧ t.mgmtOut = s.mgmtOut ++ [.done] ∧ (¬ inIsland home → ∀ c, coreOf c ≠ k.val → t.ctx c = s.ctx c)) ∧
  (acts home → (s.core k.val).fenced = true ∨ ¬ idle → ∃ t reason, exec (.mgmtFenceCore k) s = .next t ∧
    t = { s with mgmtOut := s.mgmtOut ++ [.refused reason] }) ∧
  (acts home → (s.core k.val).fenced = false → ∃ t, exec (.coreFailure k) s = .next t ∧ fenced t ∧ clean t ∧
    (∀ line, ∀ j < 8, dirty line j → t.poisoned (.hbm (line * 128 + 16 * j)) = true) ∧
    (∀ c y, coreOf c ≠ k.val → coreOf y = k.val → (s.ctx c).gang ≠ 0 → (s.ctx y).gang = (s.ctx c).gang →
      ∃ v, t.Told c 5 v)) ∧
  (let rest := fun (q : Nat) => q < 32 ∧ q ≠ home ∧ inIsland q ∧ (s.region q).island = s.islandOf home;
    (∀ q ∈ home :: s.rewired (s.islandOf home), acts q) → inIsland home → ∃ t, exec (.sliceFailure k) s = .next t ∧ (t.region home).st = .fenced ∧
      (t.region home).inc = (s.region home).inc + 1 ∧ t.mstatus = { s.mstatus with replace := true } ∧
      ∀ q, rest q → (t.region q).st = (s.region q).st ∧ rest (t.region q).island ∧ (∀ p, rest p → (t.region q).island ≤ p) ∧
        event t q ((t.region q).island + 7 * 2 ^ 8)) ∧
  (acts home → (s.region home).st = .free → ∃ t, exec (.sliceFailure k) s = .next t ∧
    t.mstatus = { s.mstatus with replace := true } ∧ (t.region home).st = .fenced ∧ (t.region home).inc = (s.region home).inc + 1 ∧
    (t.region home).key = (s.region home).key + 1 ∧
    ∀ q, q ≠ home → (t.region q).st = (s.region q).st ∧ (t.region q).inc = (s.region q).inc) ∧
  (acts r.val → ch.val ∉ x.chanFence → ∃ t, exec (.pseudoChannelFailure r ch) s = .next t ∧ still t ∧
    t.mstatus = { s.mstatus with replace := true } ∧ (t.region r.val).chanFence = ch.val :: x.chanFence ∧
    (∀ pa, regionOfPa pa = r.val → (Config.pseudoChannel (pa % 2 ^ 36 / 256)).val = ch.val → t.poisoned (.hbm pa) = true) ∧
    (inIsland r.val → ∀ q < 32, inIsland q → (s.region q).island = x.island → event t q (r.val + 4 * 2 ^ 8 + ch.val * 2 ^ 16))) ∧
  (acts (2 * (linkDies b.val).1) → acts (2 * (linkDies b.val).2) → s.links.getLsbD b.val = false →
    (∀ (q : RegionId) (n : Fin 8) w, (s.region q.val).windows.get n = some w → w.link = b.val →
        acts q.val ∧ s.windowQuiet q.val w = true) →
    ∃ t, exec (.boundaryFailure b) s = .next t ∧ still t ∧ t.mstatus = { s.mstatus with replace := true } ∧
      t.links = s.links ||| (1#22 <<< b.val) ∧ ∀ (q : RegionId) (n : Fin 8) w, (s.region q.val).windows.get n = some w →
        (t.region q.val).windows.get n = if w.link = b.val then none else some w) ∧
  (x.portDown = false → ∃ t, exec (.fabricPortFailure r) s = .next t ∧ t = { s with regions := t.regions, fresh := t.fresh } ∧
    (∀ q, t.region q = if q = r.val then { x with portDown := true, tend := (t.region q).tend } else s.region q) ∧
    (∀ (i : Nat) (y : Run), x.tend.running[i]? = some y → ∃ z : Run, (t.region r.val).tend.running[i]? = some z ∧ z.cmd = y.cmd ∧
      (y.wait = true → y.done = false → z.done = true ∧ z.code = 13) ∧ (y.done = true → z = y))) ∧
  (s.mstatus.fwready = true → s.fanovDown.getLsbD d.val = false → ∃ t, exec (.fanovSramError d) s = .next t ∧
    t = { s with fanovDown := s.fanovDown ||| (1#16 <<< d.val) }) ∧
  (s.fanovDown.getLsbD d.val = true → ∃ t, exec (.fanovRestartDone d) s = .next t ∧ still t ∧
    t.fanovDown = s.fanovDown &&& ~~~(1#16 <<< d.val) ∧
    ∀ q < 32, event t q (8 * 2 ^ 8)) ∧
  (∀ pa, pa < 2 ^ 41 →
    let clean := ∀ i < 16, SMap.get none s.hbmOld (pa / 16 * 16 + i) = none
    let counted := fun (t : State) => ∀ q, t.region q =
      if q = regionOfPa pa then { s.region q with uncorr := min ((s.region q).uncorr + 1) (2 ^ 32 - 1) } else s.region q
    (clean → s.poisoned (.hbm pa) = false → ∃ t, exec (.uncorrectableError (.hbm pa)) s = .next t ∧ counted t ∧
      t = { s with poison := t.poison, regions := t.regions, cores := t.cores } ∧
      (∀ a, t.poisoned (.hbm a) = (s.poisoned (.hbm a) || a / 16 == pa / 16)) ∧
      ∀ j, t.core j = { s.core j with l1 := (t.core j).l1 } ∧ ∀ line, (t.core j).line line =
        (let y := (s.core j).line line
         if line = pa / 128 then { y with good := y.good ||| ((y.m ||| y.e ||| y.s) &&& (1#8 <<< (pa % 128 / 16))) } else y)) ∧
    (clean → s.poisoned (.hbm pa) = true → ∃ t, exec (.uncorrectableError (.hbm pa)) s = .next t ∧ counted t ∧
      t = { s with regions := t.regions }) ∧
    (¬ clean → ∃ t, exec (.uncorrectableError (.hbm pa)) s = .next t ∧ counted t ∧ t = { s with hbmOld := t.hbmOld, regions := t.regions } ∧
      ∀ a, SMap.get none t.hbmOld a =
        if a / 16 = pa / 16 then (SMap.get none s.hbmOld a).map (fun z => (z.1, true)) else SMap.get none s.hbmOld a)) ∧
  (∀ off, off < s.spadSize k.val → off < 2 ^ 23 → ∃ t, exec (.uncorrectableError (.spad k off)) s = .next t ∧
    t = { s with spoison := t.spoison, regions := t.regions } ∧
    (∀ j, ∀ o < 2 ^ 23, t.poisoned (.spad j o) = (s.poisoned (.spad j o) || (j == k.val && o / 16 == off / 16)))) ∧
  (∀ (q : PanelReg) (a : AccReg),
    (∃ t, exec (.uncorrectableError (.panel k q)) s = .next t ∧ still t ∧
      t.core k.val = { s.core k.val with badPanel := (s.core k.val).badPanel ||| (1#16 <<< q.val) }) ∧
    (∃ t, exec (.uncorrectableError (.acc k a)) s = .next t ∧ still t ∧
      t.core k.val = { s.core k.val with badAcc := (s.core k.val).badAcc ||| (1#8 <<< a.val) }) ∧
    (∃ t, exec (.uncorrectableError (.band k q)) s = .next t ∧ still t ∧
      t.core k.val = { s.core k.val with badBand := (s.core k.val).badBand ||| (1#16 <<< q.val) }) ∧
    (∃ t, exec (.uncorrectableError (.residue k a)) s = .next t ∧ still t ∧
      t.core k.val = { s.core k.val with badCheck := (s.core k.val).badCheck ||| (1#8 <<< a.val) })) ∧
  (∀ rest, s.sched = .corrected r :: rest → ∃ t, step s = .next t ∧ t = { s with sched := rest, regions := t.regions } ∧
    ∀ q, t.region q = if q = r.val then { s.region q with corr := min ((s.region q).corr + 1) (2 ^ 32 - 1) } else s.region q)

/-- R4, R352, R359, R378, R381 to R386, R397, R401, R403 to R405, with the model's choices of what a reset leaves (assumption 5), of the order
of an assignment and its image (assumption 20), of an island's number (assumption 32), of refusing a set that is not connected without a
region that a fenced pseudo-channel keeps out, and of that region's end as FENCED (assumption 34, R398), of a
request during a restart (assumptions 37, 93), of accesses performed before a change (assumption 38) and of clearing the counts (assumption
73). The management host. Power-on leaves FWREADY, or BOOTERR. A request is refused while a
Fanov core concerned restarts. An assignment of FREE regions that are connected makes them one island under its lowest number, each
reset with its boot vector, table area and image; a resize adds, removes and renumbers; both are refused, without effect, where a
condition fails. A window is granted over a boundary that joins the two islands, and withdrawn once it is quiet. The attestation report
holds the nonce and the time and ends with its signature. Objects, MSTATUS, endpoint identifiers and host incarnations change alone. The
registers of R405's map read their fields, with every "—" bit 0; the full error counts are read, and cleared, by a request. -/
def Obligations.ManagementRequests : Prop := ∀ (s : State) (r : RegionId) (n : Fin 8) (rs : List AssignRec) (obj : BitVec 16)
    (o : Option ObjectRec) (nonce : BitVec 512) (ep : BitVec 18) (w : Word) (rw : Bool) (island base size : Nat) (link : LinkId),
  let l := rs.map (·.region.val)
  let fw := s.mstatus.fwready = true
  let up := fun (q : Nat) => s.fanovDown.getLsbD (q / 2) = false
  let refused := fun (i : Instr) => ∃ t reason, exec i s = .next t ∧ t = { s with mgmtOut := s.mgmtOut ++ [.refused reason] }
  let low := fun (q : Nat) => q ∈ l ∧ ∀ p ∈ l, q ≤ p
  let good := fun (a : AssignRec) => a.rta / 2 ^ 36 = a.region.val ∧ a.rta % 2 ^ 21 = 0 ∧ ∀ b ∈ a.image, b.1 / 2 ^ 36 = a.region.val
  let free := fun (q : Nat) => (s.region q).st = .free ∧ (s.region q).tripped = false ∧ (s.region q).chanFence = []
  let inIsland := fun (q i : Nat) => q < 32 ∧ ((s.region q).st = .assigned ∨ (s.region q).st = .resetting) ∧ (s.region q).island = i
  let quiet := (∀ c, (s.ctx c).sb = [] ∧ (s.ctx c).miss = .none) ∧ (∀ k, (s.core k).tq = [] ∧ (s.core k).vq = []) ∧
    ∀ e : EngineId, ∀ y ∈ (s.engine e).running, (y.done = true ∨ y.dst = []) ∧ y.status = none
  let x := s.region r.val
  (s.mstatus.fwready = false → s.mstatus.booterr = false →
    (∃ t, exec (.modulePowerOn true) s = .next t ∧ t = { s with mstatus := { s.mstatus with fwready := true } }) ∧
    (∃ t, exec (.modulePowerOn false) s = .next t ∧ t = { s with mstatus := { s.mstatus with booterr := true } })) ∧
  (fw → ¬ up r.val → refused (.mgmtWindowGrant r n rw island base size link) ∧ refused (.mgmtWindowWithdraw r n) ∧
    (r.val ∈ l → refused (.mgmtAssign rs))) ∧
  (fw → (∀ q ∈ l, up q) → (∀ a ∈ rs, good a) → l.Nodup → connected s.links l = true → (∀ q ∈ l, free q) →
    (∀ k, (s.core k).arrivals = []) → (∀ e, (s.engine e).held = []) → ∃ t, exec (.mgmtAssign rs) s = .next t ∧
      t.mgmtOut = s.mgmtOut ++ [.done] ∧ ∀ a ∈ rs, let y := t.region a.region.val
        y.st = .assigned ∧ low y.island ∧ y.boot = (a.boot &&& 0xFFFFFFFFFFF00) ∧ y.rta = a.rta ∧
        y.inc = (s.region a.region.val).inc + 1 ∧ y.image = a.image ∧
        (∀ k, regionOfCore k = a.region.val → (t.core k).cycle = BitVec.ofNat 64 s.cycles - y.gated) ∧
        (∀ c < 4096, regionOf c = a.region.val → let told := s.eventCore a.region.val = some (coreOf c) ∧ c % 4 = 0
          (¬ told → t.ctx c = { Ctx.reset with tvec := y.boot }) ∧
          (told → t.ctx c = { Ctx.reset with
            tvec := y.boot, status := { Ctx.reset.status with ipend := 8 }, ipendTval := (t.ctx c).ipendTval })) ∧
        ((a.image.map (·.1)).Nodup → ∀ b ∈ a.image, b.1 < a.rta ∨ a.rta + 2 ^ 21 ≤ b.1 → t.reads (.hbm b.1) = t.kept (.hbm b.1) b.2)) ∧
  (fw → (∀ q ∈ l, up q) → ¬ l.Nodup ∨ connected s.links (s.lasting [] l) = false ∨ (∃ q ∈ l, (s.region q).st ≠ .free) →
    refused (.mgmtAssign rs)) ∧
  (let was := fun (q : Nat) => inIsland q island
    let affected := fun (q : Nat) => was q ∨ q ∈ l
    fw → (∀ q, affected q → up q) →
    ((∃ c < 4096, affected (regionOf c) ∧ (s.ctx c).gang ≠ 0) ∨ connected s.links (s.lasting (s.regionsOf island) l) = false ∨
      (∃ c < 4096, was (regionOf c) ∧ regionOf c ∉ l ∧ (s.ctx c).st ≠ .free) → refused (.mgmtResize island rs)) ∧
    ((∃ q, was q) → (∀ q ∈ s.rewired island, up q) → (∀ a ∈ rs, good a) → l.Nodup → connected s.links l = true → (∀ q ∈ l, ¬ was q → free q) →
      (∀ c < 4096, affected (regionOf c) → (s.ctx c).gang = 0) → (∀ c < 4096, was (regionOf c) → regionOf c ∉ l → (s.ctx c).st = .free) →
      quiet → ∃ t, exec (.mgmtResize island rs) s = .next t ∧
        t.mgmtOut = s.mgmtOut ++ [.done] ∧ (∀ q ∈ l, low (t.region q).island ∧ (¬ was q → (t.region q).st = .assigned)) ∧
        (∀ q, was q → q ∉ l → (t.region q).st = (if (s.region q).chanFence = [] then .free else .fenced) ∧
          (t.region q).inc = (s.region q).inc + 1) ∧
        (∀ q ∈ l, was q → (t.region q).st = (s.region q).st ∧ (t.region q).inc = (s.region q).inc))) ∧
  (let own := s.islandOf r.val
    let fits := x.st = .assigned ∧ own ≠ island ∧ base + size ≤ 2 ^ 15 ∧ s.links.getLsbD link.val = false ∧
      linkJoins link.val (s.regionsOf own) (s.regionsOf island) ≠ none
    let all := ∀ q ∈ s.windowReach r.val ++ s.regionsOf island, up q
    fw → up r.val →
    (¬ all ∨ ¬ fits → refused (.mgmtWindowGrant r n rw island base size link)) ∧
    (all → fits → x.windows.get n = none → ∃ t, exec (.mgmtWindowGrant r n rw island base size link) s = .next t ∧
      t = { s with regions := t.regions, routes := t.routes, lock := t.lock, mgmtOut := s.mgmtOut ++ [.done] } ∧
      ∀ q, t.region q = if q = r.val then { x with windows := x.windows.set n.val (some ⟨rw, island, base, size, link.val⟩) n.isLt }
        else s.region q) ∧
    (x.windows.get n = none → refused (.mgmtWindowWithdraw r n)) ∧
    ((∃ q ∈ s.windowReach r.val, ¬ up q) → refused (.mgmtWindowWithdraw r n)) ∧
    (∀ v, x.windows.get n = some v → quiet → (∀ q ∈ s.windowReach r.val, up q) → ∃ t, exec (.mgmtWindowWithdraw r n) s = .next t ∧ t.mgmtOut = s.mgmtOut ++ [.done] ∧ (∀ l, t.reads l = s.reads l) ∧
        (t.region r.val).windows = x.windows.set n.val none n.isLt)) ∧
  (fw → up 0 → ∃ t R, exec (.mgmtAttest nonce) s = .next t ∧
    t = { s with mgmtOut := s.mgmtOut ++ [.report (R ++ leBytes 132 (Config.signReport R).toNat)] } ∧ R.length = 400 ∧
    (R.drop 328).take 64 = leBytes 64 nonce.toNat ∧ R.drop 392 = leBytes 8 s.time.toNat) ∧
  (fw → up 0 → ∃ t, exec (.mgmtObjectAssign obj o) s = .next t ∧
    t = { s with objects := t.objects, mgmtOut := s.mgmtOut ++ [.done] } ∧
    ∀ j, SMap.get none t.objects j = if j = obj.toNat then o else SMap.get none s.objects j) ∧
  (∃ t, exec (.mstatusWrite w) s = .next t ∧ t = { s with mstatus := { s.mstatus with
    hot := s.mstatus.hot && !w.getLsbD 3, trip := s.mstatus.trip && !w.getLsbD 4 } }) ∧
  (∃ t, exec (.endpointIdAssign r ep) s = .next t ∧ t = { s with regions := t.regions } ∧
    ∀ q, t.region q = if q = r.val then { x with ep := ep } else s.region q) ∧
  (fw → ∃ t, exec (.hostEndpointReset ep) s = .next t ∧ t = { s with hostInc := t.hostInc } ∧
    ∀ j, SMap.get 0 t.hostInc j = SMap.get 0 s.hostInc j + if j = ep.toNat then 1 else 0) ∧
  (let reads := fun (off : Nat) (v : Word) => ∀ rest, s.sched = .mgmtRead off :: rest →
    step s = .next { s with sched := rest, mgmtOut := s.mgmtOut ++ [.value v] }
   (∃ v : Word, reads 0 v ∧ ∀ j < 64, v.getLsbD j = ([s.mstatus.replace, s.mstatus.fwready, s.mstatus.booterr, s.mstatus.hot,
     s.mstatus.trip].getD j false)) ∧
   reads (0x008 + 8 * r.val) (x.amps.zeroExtend 64) ∧ reads (0x108 + 8 * r.val) x.gated ∧
   (∀ d : DieId, reads (0x208 + 8 * d.val) ((s.dtemp.get d).zeroExtend 64)) ∧
   reads (0x288 + 8 * r.val) (BitVec.ofNat 16 x.route ++ BitVec.ofNat 16 x.stale ++ BitVec.ofNat 16 x.uncorr ++ BitVec.ofNat 16 x.corr) ∧
   ∀ clear rest, s.sched = .mgmtCounts r clear :: rest → fw → up r.val → ∃ t, step s = .next t ∧
     t = { s with sched := rest, regions := t.regions, mgmtOut := s.mgmtOut ++ [.counts x.corr x.uncorr x.stale x.route] } ∧
     ∀ q, t.region q = if q = r.val ∧ clear = true then { x with corr := 0, uncorr := 0, stale := 0, route := 0 } else s.region q)

/-- R319, R327, R354, R372, R375, R401, R402, in the model's form of what other modules send (assumption 72) and with its choice that a message
that its channel refuses or finds full is answered REFUSED and counted nowhere (assumption 39). What arrives over the fabric. A
message of an earlier incarnation of its sender or target is dropped and counted in STALE alone. An inbound request of at most 256 bytes
within a memory grant that the region hosts, with the grant's rights, is performed at its home: a read changes no byte, a write its bytes
alone, an atomic its aligned 4 or 8 bytes as its operation says; a message enters the exported channel; a read, write, atomic or message
that no object hosted by the region grants is dropped and counted in ROUTE alone. A contribution of a rank held elsewhere joins the rank's next instance, also where its own source has failed; a
digest that differs is noted; the reset of the region of a rank held elsewhere ends the group's instances with RESET for the members of this
module (R319, assumption 92); an arrival at a .pod barrier is counted for its rank, and its withdrawal takes it back. -/
def Obligations.FabricTraffic : Prop := ∀ (s : State) (r : RegionId) (h : FabricHead) (obj addr n : Nat) (data : List Byte)
    (v m0 m1 m2 m3 : Word) (kmode : Bool) (o : ObjectRec) (g k rank cmd count par : Nat) (fail : Bool) (comb : Comb) (x : Group),
  let me := s.region r.val
  let now := s.incOf h.sender = h.senderInc ∧ me.inc = h.targetInc
  let gateOpen := me.portDown = false ∧ now ∧ me.st = .assigned
  let hosted := fun (o : ObjectRec) => SMap.get none s.objects obj = some o ∧ o.agent = .region r
  let grants := fun (len : Nat) (need : BitVec 5) (o : ObjectRec) => hosted o ∧ o.kind = .grant ∧ o.rights &&& need = need ∧ 0 < len ∧ len ≤ 256 ∧
    o.base ≤ addr ∧ addr + len ≤ o.base + o.size ∧ addr / 2 ^ 36 = r.val ∧ (addr + len - 1) / 2 ^ 36 = r.val
  let exports := fun (o : ObjectRec) => hosted o ∧ o.kind = .channel ∧ o.rights &&& 4 = 4 ∧ o.inModule = true ∧ regionOfCore o.core.val = r.val
  let counts := fun (i : Instr) (f : Region → Region) => ∃ t, exec i s = .next t ∧ t = { s with regions := t.regions } ∧
    ∀ j, t.region j = if j = r.val then f (s.region j) else s.region j
  let drops := fun (req : FabricReq) => counts (.fabricInbound r ⟨h, req⟩) (fun y => { y with route := min (y.route + 1) (2 ^ 32 - 1) })
  let stale := fun (i : Instr) => counts i (fun y => { y with stale := min (y.stale + 1) (2 ^ 32 - 1) })
  let locs := fun (len : Nat) => pieceLocs [⟨addr, .hbm addr, len, true, 0, 12⟩]
  let free := fun (len : Nat) => s.heldBack none (locs len) = false ∧ s.engineOwns (locs len) = false ∧ ∀ j < len, s.chanDown (addr + j) = false
  (me.portDown = false → ¬ now → ∀ req, stale (.fabricInbound r ⟨h, req⟩)) ∧
  (gateOpen → grants n 1 o → s.engineOwns (locs n) = false → ∃ t, exec (.fabricInbound r ⟨h, .read obj addr n⟩) s = .next t ∧
    (∀ l, t.reads l = s.reads l) ∧ t.ctxs = s.ctxs) ∧
  (gateOpen → grants data.length 2 o → free data.length →
    ∃ t, exec (.fabricInbound r ⟨h, .write obj addr data⟩) s = .next t ∧ t.bytesAt (.hbm addr) data.length = s.keptAll (.hbm addr) data ∧
      SameBytesBut s t (.hbm addr) data.length ∧ t.ctxs = s.ctxs) ∧
  (∀ dw : Bool,
    let len := if dw then 8 else 4
    let old := BitVec.ofNat (8 * len) (leNat (s.bytesAt (.hbm addr) len))
    let val := v.setWidth (8 * len)
    let gives := fun (op : Amo) (z : BitVec (8 * len)) => ∃ t, exec (.fabricInbound r ⟨h, .atomic obj addr op dw v⟩) s = .next t ∧
      t.bytesAt (.hbm addr) len = s.keptAll (.hbm addr) (leBytes len z.toNat) ∧ SameBytesBut s t (.hbm addr) len ∧ t.ctxs = s.ctxs
    (gateOpen → grants len 3 o → addr % len = 0 → free len → s.firstPoison (.hbm addr) len = none →
      gives .swap val ∧ gives .add (old + val) ∧ gives .and (old &&& val) ∧ gives .or (old ||| val) ∧ gives .xor (old ^^^ val) ∧
      gives .min (if old.toInt ≤ val.toInt then old else val) ∧ gives .max (if old.toInt ≤ val.toInt then val else old) ∧
      gives .minu (if old.toNat ≤ val.toNat then old else val) ∧ gives .maxu (if old.toNat ≤ val.toNat then val else old) ∧
      ∀ e : Word, gives (.cas e) (if old = e.setWidth (8 * len) then val else old)) ∧
    (gateOpen → addr % len ≠ 0 ∨ (∀ o, ¬ grants len 3 o) → ∀ op, drops (.atomic obj addr op dw v))) ∧
  (gateOpen → exports o → (s.binding o.core.val o.chan.val).refuses kmode = false →
    ((s.chan o.core.val o.chan).length < 8 → ∃ t, exec (.fabricInbound r ⟨h, .message obj m0 m1 m2 m3 kmode⟩) s = .next t ∧
      t = { s with ctxs := t.ctxs, cores := t.cores } ∧
      t.chan o.core.val o.chan = s.chan o.core.val o.chan ++ [⟨m0, m1, m2, m3⟩]) ∧
    (8 ≤ (s.chan o.core.val o.chan).length → exec (.fabricInbound r ⟨h, .message obj m0 m1 m2 m3 kmode⟩) s = .next s)) ∧
  (me.portDown = false → now → me.st ≠ .assigned → ∀ req, drops req) ∧
  (gateOpen → (∀ o, ¬ grants n 1 o) → drops (.read obj addr n)) ∧
  (gateOpen → (∀ o, ¬ grants data.length 2 o) → drops (.write obj addr data)) ∧
  (gateOpen → exports o → (s.binding o.core.val o.chan.val).refuses kmode = true →
    exec (.fabricInbound r ⟨h, .message obj m0 m1 m2 m3 kmode⟩) s = .next s) ∧
  (gateOpen → (∀ o, ¬ exports o) → drops (.message obj m0 m1 m2 m3 kmode)) ∧
  (me.portDown = false → me.st = .assigned → ¬ now → ∀ m, collTarget m = r.val → stale (.fabricCollectiveArrival ⟨h, m⟩)) ∧
  (let home := s.groupHome r.val g
   let key := s.podKey r.val g
   let outside := rank < x.n ∧ ∀ j < 32, ((s.region j).st = .assigned ∨ (s.region j).st = .resetting) → (s.region j).island = me.island →
     bitsOf (s.rankWord r.val x rank) 17 0 ≠ (s.region j).ep.toNat
   me.portDown = false → me.st = .assigned → now →
   (s.group r.val g = some x → outside → k = SMap.get 0 s.collCnt (collKey home g rank) → cmd < 5 → 0 < count →
     count ≤ 2 ^ 24 → (fail = false → data.length = count * collSize cmd) →
     ∃ t, exec (.fabricCollectiveArrival ⟨h, .contrib r.val g k rank cmd count par data fail⟩) s = .next t ∧
       t = { s with collCnt := t.collCnt, collInst := t.collInst } ∧
       (∀ j, SMap.get 0 t.collCnt j = if j = collKey home g rank then k + 1 else SMap.get 0 s.collCnt j) ∧
       ∃ y ∈ t.collInst, y.home = home ∧ y.group = g ∧ y.k = k ∧ ⟨rank, cmd, count, par, data, fail, none⟩ ∈ y.contribs) ∧
   ((∃ y ∈ s.collInst, y.home = home ∧ y.group = g ∧ y.k = k) →
     ∃ t, exec (.fabricCollectiveArrival ⟨h, .digestDiffers r.val g k⟩) s = .next t ∧ t = { s with collInst := s.collInst.map (fun y =>
       if y.home = home ∧ y.group = g ∧ y.k = k then { y with differs := true } else y) }) ∧
   (s.group r.val g = some x → outside → g < 8 →
     ∃ t, exec (.fabricCollectiveArrival ⟨h, .podArrival r.val g rank comb v⟩) s = .next t ∧
       t = { s with ctxs := t.ctxs, podBars := t.podBars } ∧
       ∀ j, SMap.get 0 (t.pod key).counts j = SMap.get 0 (s.pod key).counts j + if j = rank then 1 else 0) ∧
   (s.group r.val g = some x → outside →
     let mine := fun (y : CollInst) => y.home = home ∧ y.group = g
     ∃ t, exec (.fabricCollectiveArrival ⟨h, .memberReset r.val g rank⟩) s = .next t ∧
       (∀ y, y ∈ t.collInst ↔ y ∈ s.collInst ∧ ¬ mine y) ∧ (∀ j < 131072, SMap.get 0 t.collCnt (collKey home g j) = 0) ∧
       (∀ l, t.reads l = s.reads l) ∧ t.ctxs = s.ctxs ∧
       ∀ y ∈ s.collInst, mine y → ∀ m ∈ s.collSites y, ∃ z, t.runOf m.eng m.cmd.seq = some z ∧ z.done = true ∧ z.code = 11) ∧
   ((∃ y ∈ (s.pod key).arrivals, y.ctx = none ∧ y.rank = rank) →
     ∃ t, exec (.fabricCollectiveArrival ⟨h, .podWithdraw r.val g rank⟩) s = .next t ∧ t = { s with podBars := t.podBars } ∧
       (t.pod key).arrivals.length + 1 = (s.pod key).arrivals.length ∧
       ∀ j, SMap.get 0 (t.pod key).counts j = SMap.get 0 (s.pod key).counts j - if j = rank then 1 else 0) ∧
   (g < 8 → ∃ t, exec (.fabricCollectiveArrival ⟨h, .podDiffers r.val g⟩) s = .next t ∧ t = { s with podBars := t.podBars } ∧
     t.pod key = { s.pod key with differs := true }))
end

