-- ==== Sys2Proof/Laws/Maps.lean ====
section
/-! SUPPORT. The laws of sparse maps: what a map reads as after a change, and that every change keeps the canonical form. -/

namespace Sys2Proof

variable {α : Type}

@[simp] theorem SMap.get_nil (d : α) (i : Nat) : SMap.get d [] i = d := rfl

theorem SMap.get_cons (d : α) (k : Nat) (v : α) (t : SMap α) (i : Nat) :
    SMap.get d ((k, v) :: t) i = if i = k then v else SMap.get d t i := rfl

theorem SMap.get_filter (d : α) (p : Nat → Bool) (m : SMap α) (i : Nat) :
    SMap.get d (m.filter (fun kv => p kv.1)) i = if p i then SMap.get d m i else d := by
  induction m with
  | nil => simp
  | cons e t ih =>
    obtain ⟨k, v⟩ := e
    by_cases hk : p k = true
    · by_cases hi : i = k
      · subst hi; simp [hk, SMap.get_cons]
      · simp [hk, SMap.get_cons, hi, ih]
    · by_cases hi : i = k
      · subst hi; simp [hk, ih]
      · simp [hk, SMap.get_cons, hi, ih]

theorem SMap.get_del (d : α) (m : SMap α) (i j : Nat) : SMap.get d (SMap.del m i) j = if j = i then d else SMap.get d m j := by
  have h := SMap.get_filter d (fun k => k != i) m j
  simp only [bne_iff_ne, ne_eq, ite_not] at h
  exact h

theorem SMap.get_ins (d : α) (i : Nat) (x : α) (m : SMap α) (hm : ∀ y, (i, y) ∉ m) (j : Nat) :
    SMap.get d (SMap.ins i x m) j = if j = i then x else SMap.get d m j := by
  induction m with
  | nil => simp [SMap.ins, SMap.get_cons]
  | cons e t ih =>
    obtain ⟨k, v⟩ := e
    have hk : i ≠ k := fun h => hm v (by simp [h])
    have ht : ∀ y, (i, y) ∉ t := fun y h => hm y (by simp [h])
    unfold SMap.ins
    split
    · simp [SMap.get_cons]
    · simp only [SMap.get_cons, ih ht]
      by_cases h : j = k
      · simp [h, Ne.symm hk]
      · simp [h]

/-- What a map reads as after one key is set. -/
theorem SMap.get_put [DecidableEq α] (d : α) (m : SMap α) (i : Nat) (x : α) (j : Nat) :
    SMap.get d (SMap.put d m i x) j = if j = i then x else SMap.get d m j := by
  unfold SMap.put
  split
  · rename_i h; subst h; exact SMap.get_del x m i j
  · rw [SMap.get_ins]
    · by_cases h : j = i <;> simp [h, SMap.get_del]
    · intro y h; simp [SMap.del] at h

@[simp] theorem SMap.get_put_same [DecidableEq α] (d : α) (m : SMap α) (i : Nat) (x : α) :
    SMap.get d (SMap.put d m i x) i = x := by simp [SMap.get_put]

@[simp] theorem SMap.get_put_other [DecidableEq α] (d : α) (m : SMap α) (i : Nat) (x : α) (j : Nat) (h : j ≠ i) :
    SMap.get d (SMap.put d m i x) j = SMap.get d m j := by simp [SMap.get_put, h]

theorem SMap.wfAbove_mono [DecidableEq α] (d : α) {n n' : Int} (h : n' ≤ n) (m : SMap α) (hm : SMap.wfAbove d n m = true) :
    SMap.wfAbove d n' m = true := by
  cases m with
  | nil => rfl
  | cons e t => simp [SMap.wfAbove] at hm ⊢; exact ⟨⟨by omega, hm.1.2⟩, hm.2⟩

theorem SMap.wfAbove_filter [DecidableEq α] (d : α) (p : Nat × α → Bool) (n : Int) (m : SMap α)
    (hm : SMap.wfAbove d n m = true) : SMap.wfAbove d n (m.filter p) = true := by
  induction m generalizing n with
  | nil => rfl
  | cons e t ih =>
    simp only [SMap.wfAbove, Bool.and_eq_true, decide_eq_true_eq] at hm
    by_cases h : p e = true
    · simp [h, SMap.wfAbove, hm.1, ih _ hm.2]
    · simp [h]; exact SMap.wfAbove_mono d (by omega) _ (ih _ hm.2)

/-- Entries taken away leave the canonical form. -/
theorem SMap.wf_filter [DecidableEq α] (d : α) (p : Nat × α → Bool) (m : SMap α) (hm : SMap.wf d m = true) :
    SMap.wf d (m.filter p) = true := SMap.wfAbove_filter d p _ m hm

theorem SMap.wf_drop [DecidableEq α] (d : α) (p : Nat → Bool) (m : SMap α) (hm : SMap.wf d m = true) :
    SMap.wf d (SMap.drop p m) = true := SMap.wf_filter d _ m hm

theorem SMap.wfAbove_ins [DecidableEq α] (d : α) (i : Nat) (x : α) (hx : x ≠ d) (n : Int) (hn : n < i) (m : SMap α)
    (hi : ∀ y, (i, y) ∉ m) (hm : SMap.wfAbove d n m = true) : SMap.wfAbove d n (SMap.ins i x m) = true := by
  induction m generalizing n with
  | nil => simp [SMap.ins, SMap.wfAbove, hn, hx]
  | cons e t ih =>
    obtain ⟨k, v⟩ := e
    simp only [SMap.wfAbove, Bool.and_eq_true, decide_eq_true_eq] at hm
    have hk : i ≠ k := fun h => hi v (by simp [h])
    unfold SMap.ins
    split
    · rename_i h
      simp [SMap.wfAbove, hn, hx, hm.1.2, hm.2, h]
    · simp only [SMap.wfAbove, Bool.and_eq_true, decide_eq_true_eq]
      exact ⟨hm.1, ih k (by omega) (fun y h => hi y (by simp [h])) hm.2⟩

/-- Setting a key keeps the canonical form: the value that an unlisted key reads as is never listed. -/
theorem SMap.wf_put [DecidableEq α] (d : α) (m : SMap α) (i : Nat) (x : α) (hm : SMap.wf d m = true) :
    SMap.wf d (SMap.put d m i x) = true := by
  unfold SMap.put
  split
  · exact SMap.wf_filter d _ m hm
  · rename_i h
    refine SMap.wfAbove_ins d i x h (-1) (by omega) _ ?_ (SMap.wf_filter d _ m hm)
    intro y hy; simp [SMap.del] at hy

end Sys2Proof
end

