-- ==== Sys2Proof/Laws/State.lean ====
section
/-! SUPPORT. What the accessors of the state read after each update: one lemma per field and update, and the units by number. -/

namespace Sys2Proof.Machine

theorem State.modCtx_eq (s : State) (c : Nat) (f : Ctx → Ctx) : s.modCtx c f = s.setCtx c (f (s.ctx c)) := rfl
theorem State.modCore_eq (s : State) (k : Nat) (f : Core → Core) : s.modCore k f = s.setCore k (f (s.core k)) := rfl
theorem State.modQuad_eq (s : State) (q : Nat) (f : Quad → Quad) : s.modQuad q f = s.setQuad q (f (s.quad q)) := rfl
theorem State.modRegion_eq (s : State) (r : Nat) (f : Region → Region) : s.modRegion r f = s.setRegion r (f (s.region r)) := rfl

@[simp] theorem State.setCtx_cur (s : State) (c : Nat) (x : Ctx) : (s.setCtx c x).cur = s.cur := rfl
@[simp] theorem State.setCtx_turn (s : State) (c : Nat) (x : Ctx) : (s.setCtx c x).turn = s.turn := rfl
@[simp] theorem State.setCtx_sched (s : State) (c : Nat) (x : Ctx) : (s.setCtx c x).sched = s.sched := rfl
@[simp] theorem State.setCtx_fresh (s : State) (c : Nat) (x : Ctx) : (s.setCtx c x).fresh = s.fresh := rfl
@[simp] theorem State.setCtx_issueSeq (s : State) (c : Nat) (x : Ctx) : (s.setCtx c x).issueSeq = s.issueSeq := rfl
@[simp] theorem State.setCtx_accSeq (s : State) (c : Nat) (x : Ctx) : (s.setCtx c x).accSeq = s.accSeq := rfl
@[simp] theorem State.setCtx_cycles (s : State) (c : Nat) (x : Ctx) : (s.setCtx c x).cycles = s.cycles := rfl
@[simp] theorem State.setCtx_cores (s : State) (c : Nat) (x : Ctx) : (s.setCtx c x).cores = s.cores := rfl
@[simp] theorem State.setCtx_quads (s : State) (c : Nat) (x : Ctx) : (s.setCtx c x).quads = s.quads := rfl
@[simp] theorem State.setCtx_regions (s : State) (c : Nat) (x : Ctx) : (s.setCtx c x).regions = s.regions := rfl
@[simp] theorem State.setCtx_mem (s : State) (c : Nat) (x : Ctx) : (s.setCtx c x).mem = s.mem := rfl
@[simp] theorem State.setCtx_hbmOld (s : State) (c : Nat) (x : Ctx) : (s.setCtx c x).hbmOld = s.hbmOld := rfl
@[simp] theorem State.setCtx_spad (s : State) (c : Nat) (x : Ctx) : (s.setCtx c x).spad = s.spad := rfl
@[simp] theorem State.setCtx_poison (s : State) (c : Nat) (x : Ctx) : (s.setCtx c x).poison = s.poison := rfl
@[simp] theorem State.setCtx_spoison (s : State) (c : Nat) (x : Ctx) : (s.setCtx c x).spoison = s.spoison := rfl
@[simp] theorem State.setCtx_resv (s : State) (c : Nat) (x : Ctx) : (s.setCtx c x).resv = s.resv := rfl
@[simp] theorem State.setCtx_dir (s : State) (c : Nat) (x : Ctx) : (s.setCtx c x).dir = s.dir := rfl
@[simp] theorem State.setCtx_proxies (s : State) (c : Nat) (x : Ctx) : (s.setCtx c x).proxies = s.proxies := rfl
@[simp] theorem State.setCtx_txns (s : State) (c : Nat) (x : Ctx) : (s.setCtx c x).txns = s.txns := rfl
@[simp] theorem State.setCtx_cohMsgs (s : State) (c : Nat) (x : Ctx) : (s.setCtx c x).cohMsgs = s.cohMsgs := rfl
@[simp] theorem State.setCtx_bars (s : State) (c : Nat) (x : Ctx) : (s.setCtx c x).bars = s.bars := rfl
@[simp] theorem State.setCtx_podBars (s : State) (c : Nat) (x : Ctx) : (s.setCtx c x).podBars = s.podBars := rfl
@[simp] theorem State.setCtx_gangs (s : State) (c : Nat) (x : Ctx) : (s.setCtx c x).gangs = s.gangs := rfl
@[simp] theorem State.setCtx_gangSeq (s : State) (c : Nat) (x : Ctx) : (s.setCtx c x).gangSeq = s.gangSeq := rfl
@[simp] theorem State.setCtx_casts (s : State) (c : Nat) (x : Ctx) : (s.setCtx c x).casts = s.casts := rfl
@[simp] theorem State.setCtx_castSeq (s : State) (c : Nat) (x : Ctx) : (s.setCtx c x).castSeq = s.castSeq := rfl
@[simp] theorem State.setCtx_collCnt (s : State) (c : Nat) (x : Ctx) : (s.setCtx c x).collCnt = s.collCnt := rfl
@[simp] theorem State.setCtx_collInst (s : State) (c : Nat) (x : Ctx) : (s.setCtx c x).collInst = s.collInst := rfl
@[simp] theorem State.setCtx_timers (s : State) (c : Nat) (x : Ctx) : (s.setCtx c x).timers = s.timers := rfl
@[simp] theorem State.setCtx_objects (s : State) (c : Nat) (x : Ctx) : (s.setCtx c x).objects = s.objects := rfl
@[simp] theorem State.setCtx_modInc (s : State) (c : Nat) (x : Ctx) : (s.setCtx c x).modInc = s.modInc := rfl
@[simp] theorem State.setCtx_hostInc (s : State) (c : Nat) (x : Ctx) : (s.setCtx c x).hostInc = s.hostInc := rfl
@[simp] theorem State.setCtx_links (s : State) (c : Nat) (x : Ctx) : (s.setCtx c x).links = s.links := rfl
@[simp] theorem State.setCtx_fanovDown (s : State) (c : Nat) (x : Ctx) : (s.setCtx c x).fanovDown = s.fanovDown := rfl
@[simp] theorem State.setCtx_routes (s : State) (c : Nat) (x : Ctx) : (s.setCtx c x).routes = s.routes := rfl
@[simp] theorem State.setCtx_lock (s : State) (c : Nat) (x : Ctx) : (s.setCtx c x).lock = s.lock := rfl
@[simp] theorem State.setCtx_mstatus (s : State) (c : Nat) (x : Ctx) : (s.setCtx c x).mstatus = s.mstatus := rfl
@[simp] theorem State.setCtx_dtemp (s : State) (c : Nat) (x : Ctx) : (s.setCtx c x).dtemp = s.dtemp := rfl
@[simp] theorem State.setCtx_mgmtOut (s : State) (c : Nat) (x : Ctx) : (s.setCtx c x).mgmtOut = s.mgmtOut := rfl
@[simp] theorem State.setCtx_core (s : State) (c : Nat) (x : Ctx) (i : Nat) : (s.setCtx c x).core i = s.core i := rfl
@[simp] theorem State.setCtx_quad (s : State) (c : Nat) (x : Ctx) (i : Nat) : (s.setCtx c x).quad i = s.quad i := rfl
@[simp] theorem State.setCtx_region (s : State) (c : Nat) (x : Ctx) (i : Nat) : (s.setCtx c x).region i = s.region i := rfl
theorem State.setCtx_ctx (s : State) (c : Nat) (x : Ctx) (i : Nat) :
    (s.setCtx c x).ctx i = if i = c then x else s.ctx i := SMap.get_put Ctx.reset s.ctxs c x i
@[simp] theorem State.setCtx_ctx_same (s : State) (c : Nat) (x : Ctx) : (s.setCtx c x).ctx c = x := by
  simp [State.setCtx_ctx]
@[simp] theorem State.setCtx_ctx_other (s : State) (c : Nat) (x : Ctx) (i : Nat) (h : i ≠ c) :
    (s.setCtx c x).ctx i = s.ctx i := by simp [State.setCtx_ctx, h]
@[simp] theorem State.modCtx_cur (s : State) (c : Nat) (f : Ctx → Ctx) : (s.modCtx c f).cur = s.cur := rfl
@[simp] theorem State.modCtx_turn (s : State) (c : Nat) (f : Ctx → Ctx) : (s.modCtx c f).turn = s.turn := rfl
@[simp] theorem State.modCtx_sched (s : State) (c : Nat) (f : Ctx → Ctx) : (s.modCtx c f).sched = s.sched := rfl
@[simp] theorem State.modCtx_fresh (s : State) (c : Nat) (f : Ctx → Ctx) : (s.modCtx c f).fresh = s.fresh := rfl
@[simp] theorem State.modCtx_issueSeq (s : State) (c : Nat) (f : Ctx → Ctx) : (s.modCtx c f).issueSeq = s.issueSeq := rfl
@[simp] theorem State.modCtx_accSeq (s : State) (c : Nat) (f : Ctx → Ctx) : (s.modCtx c f).accSeq = s.accSeq := rfl
@[simp] theorem State.modCtx_cycles (s : State) (c : Nat) (f : Ctx → Ctx) : (s.modCtx c f).cycles = s.cycles := rfl
@[simp] theorem State.modCtx_cores (s : State) (c : Nat) (f : Ctx → Ctx) : (s.modCtx c f).cores = s.cores := rfl
@[simp] theorem State.modCtx_quads (s : State) (c : Nat) (f : Ctx → Ctx) : (s.modCtx c f).quads = s.quads := rfl
@[simp] theorem State.modCtx_regions (s : State) (c : Nat) (f : Ctx → Ctx) : (s.modCtx c f).regions = s.regions := rfl
@[simp] theorem State.modCtx_mem (s : State) (c : Nat) (f : Ctx → Ctx) : (s.modCtx c f).mem = s.mem := rfl
@[simp] theorem State.modCtx_hbmOld (s : State) (c : Nat) (f : Ctx → Ctx) : (s.modCtx c f).hbmOld = s.hbmOld := rfl
@[simp] theorem State.modCtx_spad (s : State) (c : Nat) (f : Ctx → Ctx) : (s.modCtx c f).spad = s.spad := rfl
@[simp] theorem State.modCtx_poison (s : State) (c : Nat) (f : Ctx → Ctx) : (s.modCtx c f).poison = s.poison := rfl
@[simp] theorem State.modCtx_spoison (s : State) (c : Nat) (f : Ctx → Ctx) : (s.modCtx c f).spoison = s.spoison := rfl
@[simp] theorem State.modCtx_resv (s : State) (c : Nat) (f : Ctx → Ctx) : (s.modCtx c f).resv = s.resv := rfl
@[simp] theorem State.modCtx_dir (s : State) (c : Nat) (f : Ctx → Ctx) : (s.modCtx c f).dir = s.dir := rfl
@[simp] theorem State.modCtx_proxies (s : State) (c : Nat) (f : Ctx → Ctx) : (s.modCtx c f).proxies = s.proxies := rfl
@[simp] theorem State.modCtx_txns (s : State) (c : Nat) (f : Ctx → Ctx) : (s.modCtx c f).txns = s.txns := rfl
@[simp] theorem State.modCtx_cohMsgs (s : State) (c : Nat) (f : Ctx → Ctx) : (s.modCtx c f).cohMsgs = s.cohMsgs := rfl
@[simp] theorem State.modCtx_bars (s : State) (c : Nat) (f : Ctx → Ctx) : (s.modCtx c f).bars = s.bars := rfl
@[simp] theorem State.modCtx_podBars (s : State) (c : Nat) (f : Ctx → Ctx) : (s.modCtx c f).podBars = s.podBars := rfl
@[simp] theorem State.modCtx_gangs (s : State) (c : Nat) (f : Ctx → Ctx) : (s.modCtx c f).gangs = s.gangs := rfl
@[simp] theorem State.modCtx_gangSeq (s : State) (c : Nat) (f : Ctx → Ctx) : (s.modCtx c f).gangSeq = s.gangSeq := rfl
@[simp] theorem State.modCtx_casts (s : State) (c : Nat) (f : Ctx → Ctx) : (s.modCtx c f).casts = s.casts := rfl
@[simp] theorem State.modCtx_castSeq (s : State) (c : Nat) (f : Ctx → Ctx) : (s.modCtx c f).castSeq = s.castSeq := rfl
@[simp] theorem State.modCtx_collCnt (s : State) (c : Nat) (f : Ctx → Ctx) : (s.modCtx c f).collCnt = s.collCnt := rfl
@[simp] theorem State.modCtx_collInst (s : State) (c : Nat) (f : Ctx → Ctx) : (s.modCtx c f).collInst = s.collInst := rfl
@[simp] theorem State.modCtx_timers (s : State) (c : Nat) (f : Ctx → Ctx) : (s.modCtx c f).timers = s.timers := rfl
@[simp] theorem State.modCtx_objects (s : State) (c : Nat) (f : Ctx → Ctx) : (s.modCtx c f).objects = s.objects := rfl
@[simp] theorem State.modCtx_modInc (s : State) (c : Nat) (f : Ctx → Ctx) : (s.modCtx c f).modInc = s.modInc := rfl
@[simp] theorem State.modCtx_hostInc (s : State) (c : Nat) (f : Ctx → Ctx) : (s.modCtx c f).hostInc = s.hostInc := rfl
@[simp] theorem State.modCtx_links (s : State) (c : Nat) (f : Ctx → Ctx) : (s.modCtx c f).links = s.links := rfl
@[simp] theorem State.modCtx_fanovDown (s : State) (c : Nat) (f : Ctx → Ctx) : (s.modCtx c f).fanovDown = s.fanovDown := rfl
@[simp] theorem State.modCtx_routes (s : State) (c : Nat) (f : Ctx → Ctx) : (s.modCtx c f).routes = s.routes := rfl
@[simp] theorem State.modCtx_lock (s : State) (c : Nat) (f : Ctx → Ctx) : (s.modCtx c f).lock = s.lock := rfl
@[simp] theorem State.modCtx_mstatus (s : State) (c : Nat) (f : Ctx → Ctx) : (s.modCtx c f).mstatus = s.mstatus := rfl
@[simp] theorem State.modCtx_dtemp (s : State) (c : Nat) (f : Ctx → Ctx) : (s.modCtx c f).dtemp = s.dtemp := rfl
@[simp] theorem State.modCtx_mgmtOut (s : State) (c : Nat) (f : Ctx → Ctx) : (s.modCtx c f).mgmtOut = s.mgmtOut := rfl
@[simp] theorem State.modCtx_core (s : State) (c : Nat) (f : Ctx → Ctx) (i : Nat) : (s.modCtx c f).core i = s.core i := rfl
@[simp] theorem State.modCtx_quad (s : State) (c : Nat) (f : Ctx → Ctx) (i : Nat) : (s.modCtx c f).quad i = s.quad i := rfl
@[simp] theorem State.modCtx_region (s : State) (c : Nat) (f : Ctx → Ctx) (i : Nat) : (s.modCtx c f).region i = s.region i := rfl
theorem State.modCtx_ctx (s : State) (c : Nat) (f : Ctx → Ctx) (i : Nat) :
    (s.modCtx c f).ctx i = if i = c then f (s.ctx c) else s.ctx i := State.setCtx_ctx s c _ i
@[simp] theorem State.modCtx_ctx_same (s : State) (c : Nat) (f : Ctx → Ctx) : (s.modCtx c f).ctx c = f (s.ctx c) := by
  simp [State.modCtx_ctx]
@[simp] theorem State.modCtx_ctx_other (s : State) (c : Nat) (f : Ctx → Ctx) (i : Nat) (h : i ≠ c) :
    (s.modCtx c f).ctx i = s.ctx i := by simp [State.modCtx_ctx, h]

@[simp] theorem State.setCore_cur (s : State) (k : Nat) (x : Core) : (s.setCore k x).cur = s.cur := rfl
@[simp] theorem State.setCore_turn (s : State) (k : Nat) (x : Core) : (s.setCore k x).turn = s.turn := rfl
@[simp] theorem State.setCore_sched (s : State) (k : Nat) (x : Core) : (s.setCore k x).sched = s.sched := rfl
@[simp] theorem State.setCore_fresh (s : State) (k : Nat) (x : Core) : (s.setCore k x).fresh = s.fresh := rfl
@[simp] theorem State.setCore_issueSeq (s : State) (k : Nat) (x : Core) : (s.setCore k x).issueSeq = s.issueSeq := rfl
@[simp] theorem State.setCore_accSeq (s : State) (k : Nat) (x : Core) : (s.setCore k x).accSeq = s.accSeq := rfl
@[simp] theorem State.setCore_cycles (s : State) (k : Nat) (x : Core) : (s.setCore k x).cycles = s.cycles := rfl
@[simp] theorem State.setCore_ctxs (s : State) (k : Nat) (x : Core) : (s.setCore k x).ctxs = s.ctxs := rfl
@[simp] theorem State.setCore_quads (s : State) (k : Nat) (x : Core) : (s.setCore k x).quads = s.quads := rfl
@[simp] theorem State.setCore_regions (s : State) (k : Nat) (x : Core) : (s.setCore k x).regions = s.regions := rfl
@[simp] theorem State.setCore_mem (s : State) (k : Nat) (x : Core) : (s.setCore k x).mem = s.mem := rfl
@[simp] theorem State.setCore_hbmOld (s : State) (k : Nat) (x : Core) : (s.setCore k x).hbmOld = s.hbmOld := rfl
@[simp] theorem State.setCore_spad (s : State) (k : Nat) (x : Core) : (s.setCore k x).spad = s.spad := rfl
@[simp] theorem State.setCore_poison (s : State) (k : Nat) (x : Core) : (s.setCore k x).poison = s.poison := rfl
@[simp] theorem State.setCore_spoison (s : State) (k : Nat) (x : Core) : (s.setCore k x).spoison = s.spoison := rfl
@[simp] theorem State.setCore_resv (s : State) (k : Nat) (x : Core) : (s.setCore k x).resv = s.resv := rfl
@[simp] theorem State.setCore_dir (s : State) (k : Nat) (x : Core) : (s.setCore k x).dir = s.dir := rfl
@[simp] theorem State.setCore_proxies (s : State) (k : Nat) (x : Core) : (s.setCore k x).proxies = s.proxies := rfl
@[simp] theorem State.setCore_txns (s : State) (k : Nat) (x : Core) : (s.setCore k x).txns = s.txns := rfl
@[simp] theorem State.setCore_cohMsgs (s : State) (k : Nat) (x : Core) : (s.setCore k x).cohMsgs = s.cohMsgs := rfl
@[simp] theorem State.setCore_bars (s : State) (k : Nat) (x : Core) : (s.setCore k x).bars = s.bars := rfl
@[simp] theorem State.setCore_podBars (s : State) (k : Nat) (x : Core) : (s.setCore k x).podBars = s.podBars := rfl
@[simp] theorem State.setCore_gangs (s : State) (k : Nat) (x : Core) : (s.setCore k x).gangs = s.gangs := rfl
@[simp] theorem State.setCore_gangSeq (s : State) (k : Nat) (x : Core) : (s.setCore k x).gangSeq = s.gangSeq := rfl
@[simp] theorem State.setCore_casts (s : State) (k : Nat) (x : Core) : (s.setCore k x).casts = s.casts := rfl
@[simp] theorem State.setCore_castSeq (s : State) (k : Nat) (x : Core) : (s.setCore k x).castSeq = s.castSeq := rfl
@[simp] theorem State.setCore_collCnt (s : State) (k : Nat) (x : Core) : (s.setCore k x).collCnt = s.collCnt := rfl
@[simp] theorem State.setCore_collInst (s : State) (k : Nat) (x : Core) : (s.setCore k x).collInst = s.collInst := rfl
@[simp] theorem State.setCore_timers (s : State) (k : Nat) (x : Core) : (s.setCore k x).timers = s.timers := rfl
@[simp] theorem State.setCore_objects (s : State) (k : Nat) (x : Core) : (s.setCore k x).objects = s.objects := rfl
@[simp] theorem State.setCore_modInc (s : State) (k : Nat) (x : Core) : (s.setCore k x).modInc = s.modInc := rfl
@[simp] theorem State.setCore_hostInc (s : State) (k : Nat) (x : Core) : (s.setCore k x).hostInc = s.hostInc := rfl
@[simp] theorem State.setCore_links (s : State) (k : Nat) (x : Core) : (s.setCore k x).links = s.links := rfl
@[simp] theorem State.setCore_fanovDown (s : State) (k : Nat) (x : Core) : (s.setCore k x).fanovDown = s.fanovDown := rfl
@[simp] theorem State.setCore_routes (s : State) (k : Nat) (x : Core) : (s.setCore k x).routes = s.routes := rfl
@[simp] theorem State.setCore_lock (s : State) (k : Nat) (x : Core) : (s.setCore k x).lock = s.lock := rfl
@[simp] theorem State.setCore_mstatus (s : State) (k : Nat) (x : Core) : (s.setCore k x).mstatus = s.mstatus := rfl
@[simp] theorem State.setCore_dtemp (s : State) (k : Nat) (x : Core) : (s.setCore k x).dtemp = s.dtemp := rfl
@[simp] theorem State.setCore_mgmtOut (s : State) (k : Nat) (x : Core) : (s.setCore k x).mgmtOut = s.mgmtOut := rfl
@[simp] theorem State.setCore_ctx (s : State) (k : Nat) (x : Core) (i : Nat) : (s.setCore k x).ctx i = s.ctx i := rfl
@[simp] theorem State.setCore_quad (s : State) (k : Nat) (x : Core) (i : Nat) : (s.setCore k x).quad i = s.quad i := rfl
@[simp] theorem State.setCore_region (s : State) (k : Nat) (x : Core) (i : Nat) : (s.setCore k x).region i = s.region i := rfl
theorem State.setCore_core (s : State) (k : Nat) (x : Core) (i : Nat) :
    (s.setCore k x).core i = if i = k then x else s.core i := SMap.get_put Core.reset s.cores k x i
@[simp] theorem State.setCore_core_same (s : State) (k : Nat) (x : Core) : (s.setCore k x).core k = x := by
  simp [State.setCore_core]
@[simp] theorem State.setCore_core_other (s : State) (k : Nat) (x : Core) (i : Nat) (h : i ≠ k) :
    (s.setCore k x).core i = s.core i := by simp [State.setCore_core, h]
@[simp] theorem State.modCore_cur (s : State) (k : Nat) (f : Core → Core) : (s.modCore k f).cur = s.cur := rfl
@[simp] theorem State.modCore_turn (s : State) (k : Nat) (f : Core → Core) : (s.modCore k f).turn = s.turn := rfl
@[simp] theorem State.modCore_sched (s : State) (k : Nat) (f : Core → Core) : (s.modCore k f).sched = s.sched := rfl
@[simp] theorem State.modCore_fresh (s : State) (k : Nat) (f : Core → Core) : (s.modCore k f).fresh = s.fresh := rfl
@[simp] theorem State.modCore_issueSeq (s : State) (k : Nat) (f : Core → Core) : (s.modCore k f).issueSeq = s.issueSeq := rfl
@[simp] theorem State.modCore_accSeq (s : State) (k : Nat) (f : Core → Core) : (s.modCore k f).accSeq = s.accSeq := rfl
@[simp] theorem State.modCore_cycles (s : State) (k : Nat) (f : Core → Core) : (s.modCore k f).cycles = s.cycles := rfl
@[simp] theorem State.modCore_ctxs (s : State) (k : Nat) (f : Core → Core) : (s.modCore k f).ctxs = s.ctxs := rfl
@[simp] theorem State.modCore_quads (s : State) (k : Nat) (f : Core → Core) : (s.modCore k f).quads = s.quads := rfl
@[simp] theorem State.modCore_regions (s : State) (k : Nat) (f : Core → Core) : (s.modCore k f).regions = s.regions := rfl
@[simp] theorem State.modCore_mem (s : State) (k : Nat) (f : Core → Core) : (s.modCore k f).mem = s.mem := rfl
@[simp] theorem State.modCore_hbmOld (s : State) (k : Nat) (f : Core → Core) : (s.modCore k f).hbmOld = s.hbmOld := rfl
@[simp] theorem State.modCore_spad (s : State) (k : Nat) (f : Core → Core) : (s.modCore k f).spad = s.spad := rfl
@[simp] theorem State.modCore_poison (s : State) (k : Nat) (f : Core → Core) : (s.modCore k f).poison = s.poison := rfl
@[simp] theorem State.modCore_spoison (s : State) (k : Nat) (f : Core → Core) : (s.modCore k f).spoison = s.spoison := rfl
@[simp] theorem State.modCore_resv (s : State) (k : Nat) (f : Core → Core) : (s.modCore k f).resv = s.resv := rfl
@[simp] theorem State.modCore_dir (s : State) (k : Nat) (f : Core → Core) : (s.modCore k f).dir = s.dir := rfl
@[simp] theorem State.modCore_proxies (s : State) (k : Nat) (f : Core → Core) : (s.modCore k f).proxies = s.proxies := rfl
@[simp] theorem State.modCore_txns (s : State) (k : Nat) (f : Core → Core) : (s.modCore k f).txns = s.txns := rfl
@[simp] theorem State.modCore_cohMsgs (s : State) (k : Nat) (f : Core → Core) : (s.modCore k f).cohMsgs = s.cohMsgs := rfl
@[simp] theorem State.modCore_bars (s : State) (k : Nat) (f : Core → Core) : (s.modCore k f).bars = s.bars := rfl
@[simp] theorem State.modCore_podBars (s : State) (k : Nat) (f : Core → Core) : (s.modCore k f).podBars = s.podBars := rfl
@[simp] theorem State.modCore_gangs (s : State) (k : Nat) (f : Core → Core) : (s.modCore k f).gangs = s.gangs := rfl
@[simp] theorem State.modCore_gangSeq (s : State) (k : Nat) (f : Core → Core) : (s.modCore k f).gangSeq = s.gangSeq := rfl
@[simp] theorem State.modCore_casts (s : State) (k : Nat) (f : Core → Core) : (s.modCore k f).casts = s.casts := rfl
@[simp] theorem State.modCore_castSeq (s : State) (k : Nat) (f : Core → Core) : (s.modCore k f).castSeq = s.castSeq := rfl
@[simp] theorem State.modCore_collCnt (s : State) (k : Nat) (f : Core → Core) : (s.modCore k f).collCnt = s.collCnt := rfl
@[simp] theorem State.modCore_collInst (s : State) (k : Nat) (f : Core → Core) : (s.modCore k f).collInst = s.collInst := rfl
@[simp] theorem State.modCore_timers (s : State) (k : Nat) (f : Core → Core) : (s.modCore k f).timers = s.timers := rfl
@[simp] theorem State.modCore_objects (s : State) (k : Nat) (f : Core → Core) : (s.modCore k f).objects = s.objects := rfl
@[simp] theorem State.modCore_modInc (s : State) (k : Nat) (f : Core → Core) : (s.modCore k f).modInc = s.modInc := rfl
@[simp] theorem State.modCore_hostInc (s : State) (k : Nat) (f : Core → Core) : (s.modCore k f).hostInc = s.hostInc := rfl
@[simp] theorem State.modCore_links (s : State) (k : Nat) (f : Core → Core) : (s.modCore k f).links = s.links := rfl
@[simp] theorem State.modCore_fanovDown (s : State) (k : Nat) (f : Core → Core) : (s.modCore k f).fanovDown = s.fanovDown := rfl
@[simp] theorem State.modCore_routes (s : State) (k : Nat) (f : Core → Core) : (s.modCore k f).routes = s.routes := rfl
@[simp] theorem State.modCore_lock (s : State) (k : Nat) (f : Core → Core) : (s.modCore k f).lock = s.lock := rfl
@[simp] theorem State.modCore_mstatus (s : State) (k : Nat) (f : Core → Core) : (s.modCore k f).mstatus = s.mstatus := rfl
@[simp] theorem State.modCore_dtemp (s : State) (k : Nat) (f : Core → Core) : (s.modCore k f).dtemp = s.dtemp := rfl
@[simp] theorem State.modCore_mgmtOut (s : State) (k : Nat) (f : Core → Core) : (s.modCore k f).mgmtOut = s.mgmtOut := rfl
@[simp] theorem State.modCore_ctx (s : State) (k : Nat) (f : Core → Core) (i : Nat) : (s.modCore k f).ctx i = s.ctx i := rfl
@[simp] theorem State.modCore_quad (s : State) (k : Nat) (f : Core → Core) (i : Nat) : (s.modCore k f).quad i = s.quad i := rfl
@[simp] theorem State.modCore_region (s : State) (k : Nat) (f : Core → Core) (i : Nat) : (s.modCore k f).region i = s.region i := rfl
theorem State.modCore_core (s : State) (k : Nat) (f : Core → Core) (i : Nat) :
    (s.modCore k f).core i = if i = k then f (s.core k) else s.core i := State.setCore_core s k _ i
@[simp] theorem State.modCore_core_same (s : State) (k : Nat) (f : Core → Core) : (s.modCore k f).core k = f (s.core k) := by
  simp [State.modCore_core]
@[simp] theorem State.modCore_core_other (s : State) (k : Nat) (f : Core → Core) (i : Nat) (h : i ≠ k) :
    (s.modCore k f).core i = s.core i := by simp [State.modCore_core, h]

@[simp] theorem State.setQuad_cur (s : State) (q : Nat) (x : Quad) : (s.setQuad q x).cur = s.cur := rfl
@[simp] theorem State.setQuad_turn (s : State) (q : Nat) (x : Quad) : (s.setQuad q x).turn = s.turn := rfl
@[simp] theorem State.setQuad_sched (s : State) (q : Nat) (x : Quad) : (s.setQuad q x).sched = s.sched := rfl
@[simp] theorem State.setQuad_fresh (s : State) (q : Nat) (x : Quad) : (s.setQuad q x).fresh = s.fresh := rfl
@[simp] theorem State.setQuad_issueSeq (s : State) (q : Nat) (x : Quad) : (s.setQuad q x).issueSeq = s.issueSeq := rfl
@[simp] theorem State.setQuad_accSeq (s : State) (q : Nat) (x : Quad) : (s.setQuad q x).accSeq = s.accSeq := rfl
@[simp] theorem State.setQuad_cycles (s : State) (q : Nat) (x : Quad) : (s.setQuad q x).cycles = s.cycles := rfl
@[simp] theorem State.setQuad_ctxs (s : State) (q : Nat) (x : Quad) : (s.setQuad q x).ctxs = s.ctxs := rfl
@[simp] theorem State.setQuad_cores (s : State) (q : Nat) (x : Quad) : (s.setQuad q x).cores = s.cores := rfl
@[simp] theorem State.setQuad_regions (s : State) (q : Nat) (x : Quad) : (s.setQuad q x).regions = s.regions := rfl
@[simp] theorem State.setQuad_mem (s : State) (q : Nat) (x : Quad) : (s.setQuad q x).mem = s.mem := rfl
@[simp] theorem State.setQuad_hbmOld (s : State) (q : Nat) (x : Quad) : (s.setQuad q x).hbmOld = s.hbmOld := rfl
@[simp] theorem State.setQuad_spad (s : State) (q : Nat) (x : Quad) : (s.setQuad q x).spad = s.spad := rfl
@[simp] theorem State.setQuad_poison (s : State) (q : Nat) (x : Quad) : (s.setQuad q x).poison = s.poison := rfl
@[simp] theorem State.setQuad_spoison (s : State) (q : Nat) (x : Quad) : (s.setQuad q x).spoison = s.spoison := rfl
@[simp] theorem State.setQuad_resv (s : State) (q : Nat) (x : Quad) : (s.setQuad q x).resv = s.resv := rfl
@[simp] theorem State.setQuad_dir (s : State) (q : Nat) (x : Quad) : (s.setQuad q x).dir = s.dir := rfl
@[simp] theorem State.setQuad_proxies (s : State) (q : Nat) (x : Quad) : (s.setQuad q x).proxies = s.proxies := rfl
@[simp] theorem State.setQuad_txns (s : State) (q : Nat) (x : Quad) : (s.setQuad q x).txns = s.txns := rfl
@[simp] theorem State.setQuad_cohMsgs (s : State) (q : Nat) (x : Quad) : (s.setQuad q x).cohMsgs = s.cohMsgs := rfl
@[simp] theorem State.setQuad_bars (s : State) (q : Nat) (x : Quad) : (s.setQuad q x).bars = s.bars := rfl
@[simp] theorem State.setQuad_podBars (s : State) (q : Nat) (x : Quad) : (s.setQuad q x).podBars = s.podBars := rfl
@[simp] theorem State.setQuad_gangs (s : State) (q : Nat) (x : Quad) : (s.setQuad q x).gangs = s.gangs := rfl
@[simp] theorem State.setQuad_gangSeq (s : State) (q : Nat) (x : Quad) : (s.setQuad q x).gangSeq = s.gangSeq := rfl
@[simp] theorem State.setQuad_casts (s : State) (q : Nat) (x : Quad) : (s.setQuad q x).casts = s.casts := rfl
@[simp] theorem State.setQuad_castSeq (s : State) (q : Nat) (x : Quad) : (s.setQuad q x).castSeq = s.castSeq := rfl
@[simp] theorem State.setQuad_collCnt (s : State) (q : Nat) (x : Quad) : (s.setQuad q x).collCnt = s.collCnt := rfl
@[simp] theorem State.setQuad_collInst (s : State) (q : Nat) (x : Quad) : (s.setQuad q x).collInst = s.collInst := rfl
@[simp] theorem State.setQuad_timers (s : State) (q : Nat) (x : Quad) : (s.setQuad q x).timers = s.timers := rfl
@[simp] theorem State.setQuad_objects (s : State) (q : Nat) (x : Quad) : (s.setQuad q x).objects = s.objects := rfl
@[simp] theorem State.setQuad_modInc (s : State) (q : Nat) (x : Quad) : (s.setQuad q x).modInc = s.modInc := rfl
@[simp] theorem State.setQuad_hostInc (s : State) (q : Nat) (x : Quad) : (s.setQuad q x).hostInc = s.hostInc := rfl
@[simp] theorem State.setQuad_links (s : State) (q : Nat) (x : Quad) : (s.setQuad q x).links = s.links := rfl
@[simp] theorem State.setQuad_fanovDown (s : State) (q : Nat) (x : Quad) : (s.setQuad q x).fanovDown = s.fanovDown := rfl
@[simp] theorem State.setQuad_routes (s : State) (q : Nat) (x : Quad) : (s.setQuad q x).routes = s.routes := rfl
@[simp] theorem State.setQuad_lock (s : State) (q : Nat) (x : Quad) : (s.setQuad q x).lock = s.lock := rfl
@[simp] theorem State.setQuad_mstatus (s : State) (q : Nat) (x : Quad) : (s.setQuad q x).mstatus = s.mstatus := rfl
@[simp] theorem State.setQuad_dtemp (s : State) (q : Nat) (x : Quad) : (s.setQuad q x).dtemp = s.dtemp := rfl
@[simp] theorem State.setQuad_mgmtOut (s : State) (q : Nat) (x : Quad) : (s.setQuad q x).mgmtOut = s.mgmtOut := rfl
@[simp] theorem State.setQuad_ctx (s : State) (q : Nat) (x : Quad) (i : Nat) : (s.setQuad q x).ctx i = s.ctx i := rfl
@[simp] theorem State.setQuad_core (s : State) (q : Nat) (x : Quad) (i : Nat) : (s.setQuad q x).core i = s.core i := rfl
@[simp] theorem State.setQuad_region (s : State) (q : Nat) (x : Quad) (i : Nat) : (s.setQuad q x).region i = s.region i := rfl
theorem State.setQuad_quad (s : State) (q : Nat) (x : Quad) (i : Nat) :
    (s.setQuad q x).quad i = if i = q then x else s.quad i := SMap.get_put Quad.reset s.quads q x i
@[simp] theorem State.setQuad_quad_same (s : State) (q : Nat) (x : Quad) : (s.setQuad q x).quad q = x := by
  simp [State.setQuad_quad]
@[simp] theorem State.setQuad_quad_other (s : State) (q : Nat) (x : Quad) (i : Nat) (h : i ≠ q) :
    (s.setQuad q x).quad i = s.quad i := by simp [State.setQuad_quad, h]
@[simp] theorem State.modQuad_cur (s : State) (q : Nat) (f : Quad → Quad) : (s.modQuad q f).cur = s.cur := rfl
@[simp] theorem State.modQuad_turn (s : State) (q : Nat) (f : Quad → Quad) : (s.modQuad q f).turn = s.turn := rfl
@[simp] theorem State.modQuad_sched (s : State) (q : Nat) (f : Quad → Quad) : (s.modQuad q f).sched = s.sched := rfl
@[simp] theorem State.modQuad_fresh (s : State) (q : Nat) (f : Quad → Quad) : (s.modQuad q f).fresh = s.fresh := rfl
@[simp] theorem State.modQuad_issueSeq (s : State) (q : Nat) (f : Quad → Quad) : (s.modQuad q f).issueSeq = s.issueSeq := rfl
@[simp] theorem State.modQuad_accSeq (s : State) (q : Nat) (f : Quad → Quad) : (s.modQuad q f).accSeq = s.accSeq := rfl
@[simp] theorem State.modQuad_cycles (s : State) (q : Nat) (f : Quad → Quad) : (s.modQuad q f).cycles = s.cycles := rfl
@[simp] theorem State.modQuad_ctxs (s : State) (q : Nat) (f : Quad → Quad) : (s.modQuad q f).ctxs = s.ctxs := rfl
@[simp] theorem State.modQuad_cores (s : State) (q : Nat) (f : Quad → Quad) : (s.modQuad q f).cores = s.cores := rfl
@[simp] theorem State.modQuad_regions (s : State) (q : Nat) (f : Quad → Quad) : (s.modQuad q f).regions = s.regions := rfl
@[simp] theorem State.modQuad_mem (s : State) (q : Nat) (f : Quad → Quad) : (s.modQuad q f).mem = s.mem := rfl
@[simp] theorem State.modQuad_hbmOld (s : State) (q : Nat) (f : Quad → Quad) : (s.modQuad q f).hbmOld = s.hbmOld := rfl
@[simp] theorem State.modQuad_spad (s : State) (q : Nat) (f : Quad → Quad) : (s.modQuad q f).spad = s.spad := rfl
@[simp] theorem State.modQuad_poison (s : State) (q : Nat) (f : Quad → Quad) : (s.modQuad q f).poison = s.poison := rfl
@[simp] theorem State.modQuad_spoison (s : State) (q : Nat) (f : Quad → Quad) : (s.modQuad q f).spoison = s.spoison := rfl
@[simp] theorem State.modQuad_resv (s : State) (q : Nat) (f : Quad → Quad) : (s.modQuad q f).resv = s.resv := rfl
@[simp] theorem State.modQuad_dir (s : State) (q : Nat) (f : Quad → Quad) : (s.modQuad q f).dir = s.dir := rfl
@[simp] theorem State.modQuad_proxies (s : State) (q : Nat) (f : Quad → Quad) : (s.modQuad q f).proxies = s.proxies := rfl
@[simp] theorem State.modQuad_txns (s : State) (q : Nat) (f : Quad → Quad) : (s.modQuad q f).txns = s.txns := rfl
@[simp] theorem State.modQuad_cohMsgs (s : State) (q : Nat) (f : Quad → Quad) : (s.modQuad q f).cohMsgs = s.cohMsgs := rfl
@[simp] theorem State.modQuad_bars (s : State) (q : Nat) (f : Quad → Quad) : (s.modQuad q f).bars = s.bars := rfl
@[simp] theorem State.modQuad_podBars (s : State) (q : Nat) (f : Quad → Quad) : (s.modQuad q f).podBars = s.podBars := rfl
@[simp] theorem State.modQuad_gangs (s : State) (q : Nat) (f : Quad → Quad) : (s.modQuad q f).gangs = s.gangs := rfl
@[simp] theorem State.modQuad_gangSeq (s : State) (q : Nat) (f : Quad → Quad) : (s.modQuad q f).gangSeq = s.gangSeq := rfl
@[simp] theorem State.modQuad_casts (s : State) (q : Nat) (f : Quad → Quad) : (s.modQuad q f).casts = s.casts := rfl
@[simp] theorem State.modQuad_castSeq (s : State) (q : Nat) (f : Quad → Quad) : (s.modQuad q f).castSeq = s.castSeq := rfl
@[simp] theorem State.modQuad_collCnt (s : State) (q : Nat) (f : Quad → Quad) : (s.modQuad q f).collCnt = s.collCnt := rfl
@[simp] theorem State.modQuad_collInst (s : State) (q : Nat) (f : Quad → Quad) : (s.modQuad q f).collInst = s.collInst := rfl
@[simp] theorem State.modQuad_timers (s : State) (q : Nat) (f : Quad → Quad) : (s.modQuad q f).timers = s.timers := rfl
@[simp] theorem State.modQuad_objects (s : State) (q : Nat) (f : Quad → Quad) : (s.modQuad q f).objects = s.objects := rfl
@[simp] theorem State.modQuad_modInc (s : State) (q : Nat) (f : Quad → Quad) : (s.modQuad q f).modInc = s.modInc := rfl
@[simp] theorem State.modQuad_hostInc (s : State) (q : Nat) (f : Quad → Quad) : (s.modQuad q f).hostInc = s.hostInc := rfl
@[simp] theorem State.modQuad_links (s : State) (q : Nat) (f : Quad → Quad) : (s.modQuad q f).links = s.links := rfl
@[simp] theorem State.modQuad_fanovDown (s : State) (q : Nat) (f : Quad → Quad) : (s.modQuad q f).fanovDown = s.fanovDown := rfl
@[simp] theorem State.modQuad_routes (s : State) (q : Nat) (f : Quad → Quad) : (s.modQuad q f).routes = s.routes := rfl
@[simp] theorem State.modQuad_lock (s : State) (q : Nat) (f : Quad → Quad) : (s.modQuad q f).lock = s.lock := rfl
@[simp] theorem State.modQuad_mstatus (s : State) (q : Nat) (f : Quad → Quad) : (s.modQuad q f).mstatus = s.mstatus := rfl
@[simp] theorem State.modQuad_dtemp (s : State) (q : Nat) (f : Quad → Quad) : (s.modQuad q f).dtemp = s.dtemp := rfl
@[simp] theorem State.modQuad_mgmtOut (s : State) (q : Nat) (f : Quad → Quad) : (s.modQuad q f).mgmtOut = s.mgmtOut := rfl
@[simp] theorem State.modQuad_ctx (s : State) (q : Nat) (f : Quad → Quad) (i : Nat) : (s.modQuad q f).ctx i = s.ctx i := rfl
@[simp] theorem State.modQuad_core (s : State) (q : Nat) (f : Quad → Quad) (i : Nat) : (s.modQuad q f).core i = s.core i := rfl
@[simp] theorem State.modQuad_region (s : State) (q : Nat) (f : Quad → Quad) (i : Nat) : (s.modQuad q f).region i = s.region i := rfl
theorem State.modQuad_quad (s : State) (q : Nat) (f : Quad → Quad) (i : Nat) :
    (s.modQuad q f).quad i = if i = q then f (s.quad q) else s.quad i := State.setQuad_quad s q _ i
@[simp] theorem State.modQuad_quad_same (s : State) (q : Nat) (f : Quad → Quad) : (s.modQuad q f).quad q = f (s.quad q) := by
  simp [State.modQuad_quad]
@[simp] theorem State.modQuad_quad_other (s : State) (q : Nat) (f : Quad → Quad) (i : Nat) (h : i ≠ q) :
    (s.modQuad q f).quad i = s.quad i := by simp [State.modQuad_quad, h]

@[simp] theorem State.setRegion_cur (s : State) (r : Nat) (x : Region) : (s.setRegion r x).cur = s.cur := rfl
@[simp] theorem State.setRegion_turn (s : State) (r : Nat) (x : Region) : (s.setRegion r x).turn = s.turn := rfl
@[simp] theorem State.setRegion_sched (s : State) (r : Nat) (x : Region) : (s.setRegion r x).sched = s.sched := rfl
@[simp] theorem State.setRegion_fresh (s : State) (r : Nat) (x : Region) : (s.setRegion r x).fresh = s.fresh := rfl
@[simp] theorem State.setRegion_issueSeq (s : State) (r : Nat) (x : Region) : (s.setRegion r x).issueSeq = s.issueSeq := rfl
@[simp] theorem State.setRegion_accSeq (s : State) (r : Nat) (x : Region) : (s.setRegion r x).accSeq = s.accSeq := rfl
@[simp] theorem State.setRegion_cycles (s : State) (r : Nat) (x : Region) : (s.setRegion r x).cycles = s.cycles := rfl
@[simp] theorem State.setRegion_ctxs (s : State) (r : Nat) (x : Region) : (s.setRegion r x).ctxs = s.ctxs := rfl
@[simp] theorem State.setRegion_cores (s : State) (r : Nat) (x : Region) : (s.setRegion r x).cores = s.cores := rfl
@[simp] theorem State.setRegion_quads (s : State) (r : Nat) (x : Region) : (s.setRegion r x).quads = s.quads := rfl
@[simp] theorem State.setRegion_mem (s : State) (r : Nat) (x : Region) : (s.setRegion r x).mem = s.mem := rfl
@[simp] theorem State.setRegion_hbmOld (s : State) (r : Nat) (x : Region) : (s.setRegion r x).hbmOld = s.hbmOld := rfl
@[simp] theorem State.setRegion_spad (s : State) (r : Nat) (x : Region) : (s.setRegion r x).spad = s.spad := rfl
@[simp] theorem State.setRegion_poison (s : State) (r : Nat) (x : Region) : (s.setRegion r x).poison = s.poison := rfl
@[simp] theorem State.setRegion_spoison (s : State) (r : Nat) (x : Region) : (s.setRegion r x).spoison = s.spoison := rfl
@[simp] theorem State.setRegion_resv (s : State) (r : Nat) (x : Region) : (s.setRegion r x).resv = s.resv := rfl
@[simp] theorem State.setRegion_dir (s : State) (r : Nat) (x : Region) : (s.setRegion r x).dir = s.dir := rfl
@[simp] theorem State.setRegion_proxies (s : State) (r : Nat) (x : Region) : (s.setRegion r x).proxies = s.proxies := rfl
@[simp] theorem State.setRegion_txns (s : State) (r : Nat) (x : Region) : (s.setRegion r x).txns = s.txns := rfl
@[simp] theorem State.setRegion_cohMsgs (s : State) (r : Nat) (x : Region) : (s.setRegion r x).cohMsgs = s.cohMsgs := rfl
@[simp] theorem State.setRegion_bars (s : State) (r : Nat) (x : Region) : (s.setRegion r x).bars = s.bars := rfl
@[simp] theorem State.setRegion_podBars (s : State) (r : Nat) (x : Region) : (s.setRegion r x).podBars = s.podBars := rfl
@[simp] theorem State.setRegion_gangs (s : State) (r : Nat) (x : Region) : (s.setRegion r x).gangs = s.gangs := rfl
@[simp] theorem State.setRegion_gangSeq (s : State) (r : Nat) (x : Region) : (s.setRegion r x).gangSeq = s.gangSeq := rfl
@[simp] theorem State.setRegion_casts (s : State) (r : Nat) (x : Region) : (s.setRegion r x).casts = s.casts := rfl
@[simp] theorem State.setRegion_castSeq (s : State) (r : Nat) (x : Region) : (s.setRegion r x).castSeq = s.castSeq := rfl
@[simp] theorem State.setRegion_collCnt (s : State) (r : Nat) (x : Region) : (s.setRegion r x).collCnt = s.collCnt := rfl
@[simp] theorem State.setRegion_collInst (s : State) (r : Nat) (x : Region) : (s.setRegion r x).collInst = s.collInst := rfl
@[simp] theorem State.setRegion_timers (s : State) (r : Nat) (x : Region) : (s.setRegion r x).timers = s.timers := rfl
@[simp] theorem State.setRegion_objects (s : State) (r : Nat) (x : Region) : (s.setRegion r x).objects = s.objects := rfl
@[simp] theorem State.setRegion_modInc (s : State) (r : Nat) (x : Region) : (s.setRegion r x).modInc = s.modInc := rfl
@[simp] theorem State.setRegion_hostInc (s : State) (r : Nat) (x : Region) : (s.setRegion r x).hostInc = s.hostInc := rfl
@[simp] theorem State.setRegion_links (s : State) (r : Nat) (x : Region) : (s.setRegion r x).links = s.links := rfl
@[simp] theorem State.setRegion_fanovDown (s : State) (r : Nat) (x : Region) : (s.setRegion r x).fanovDown = s.fanovDown := rfl
@[simp] theorem State.setRegion_routes (s : State) (r : Nat) (x : Region) : (s.setRegion r x).routes = s.routes := rfl
@[simp] theorem State.setRegion_lock (s : State) (r : Nat) (x : Region) : (s.setRegion r x).lock = s.lock := rfl
@[simp] theorem State.setRegion_mstatus (s : State) (r : Nat) (x : Region) : (s.setRegion r x).mstatus = s.mstatus := rfl
@[simp] theorem State.setRegion_dtemp (s : State) (r : Nat) (x : Region) : (s.setRegion r x).dtemp = s.dtemp := rfl
@[simp] theorem State.setRegion_mgmtOut (s : State) (r : Nat) (x : Region) : (s.setRegion r x).mgmtOut = s.mgmtOut := rfl
@[simp] theorem State.setRegion_ctx (s : State) (r : Nat) (x : Region) (i : Nat) : (s.setRegion r x).ctx i = s.ctx i := rfl
@[simp] theorem State.setRegion_core (s : State) (r : Nat) (x : Region) (i : Nat) : (s.setRegion r x).core i = s.core i := rfl
@[simp] theorem State.setRegion_quad (s : State) (r : Nat) (x : Region) (i : Nat) : (s.setRegion r x).quad i = s.quad i := rfl
theorem State.setRegion_region (s : State) (r : Nat) (x : Region) (i : Nat) :
    (s.setRegion r x).region i = if i = r then x else s.region i := SMap.get_put Region.reset s.regions r x i
@[simp] theorem State.setRegion_region_same (s : State) (r : Nat) (x : Region) : (s.setRegion r x).region r = x := by
  simp [State.setRegion_region]
@[simp] theorem State.setRegion_region_other (s : State) (r : Nat) (x : Region) (i : Nat) (h : i ≠ r) :
    (s.setRegion r x).region i = s.region i := by simp [State.setRegion_region, h]
@[simp] theorem State.modRegion_cur (s : State) (r : Nat) (f : Region → Region) : (s.modRegion r f).cur = s.cur := rfl
@[simp] theorem State.modRegion_turn (s : State) (r : Nat) (f : Region → Region) : (s.modRegion r f).turn = s.turn := rfl
@[simp] theorem State.modRegion_sched (s : State) (r : Nat) (f : Region → Region) : (s.modRegion r f).sched = s.sched := rfl
@[simp] theorem State.modRegion_fresh (s : State) (r : Nat) (f : Region → Region) : (s.modRegion r f).fresh = s.fresh := rfl
@[simp] theorem State.modRegion_issueSeq (s : State) (r : Nat) (f : Region → Region) : (s.modRegion r f).issueSeq = s.issueSeq := rfl
@[simp] theorem State.modRegion_accSeq (s : State) (r : Nat) (f : Region → Region) : (s.modRegion r f).accSeq = s.accSeq := rfl
@[simp] theorem State.modRegion_cycles (s : State) (r : Nat) (f : Region → Region) : (s.modRegion r f).cycles = s.cycles := rfl
@[simp] theorem State.modRegion_ctxs (s : State) (r : Nat) (f : Region → Region) : (s.modRegion r f).ctxs = s.ctxs := rfl
@[simp] theorem State.modRegion_cores (s : State) (r : Nat) (f : Region → Region) : (s.modRegion r f).cores = s.cores := rfl
@[simp] theorem State.modRegion_quads (s : State) (r : Nat) (f : Region → Region) : (s.modRegion r f).quads = s.quads := rfl
@[simp] theorem State.modRegion_mem (s : State) (r : Nat) (f : Region → Region) : (s.modRegion r f).mem = s.mem := rfl
@[simp] theorem State.modRegion_hbmOld (s : State) (r : Nat) (f : Region → Region) : (s.modRegion r f).hbmOld = s.hbmOld := rfl
@[simp] theorem State.modRegion_spad (s : State) (r : Nat) (f : Region → Region) : (s.modRegion r f).spad = s.spad := rfl
@[simp] theorem State.modRegion_poison (s : State) (r : Nat) (f : Region → Region) : (s.modRegion r f).poison = s.poison := rfl
@[simp] theorem State.modRegion_spoison (s : State) (r : Nat) (f : Region → Region) : (s.modRegion r f).spoison = s.spoison := rfl
@[simp] theorem State.modRegion_resv (s : State) (r : Nat) (f : Region → Region) : (s.modRegion r f).resv = s.resv := rfl
@[simp] theorem State.modRegion_dir (s : State) (r : Nat) (f : Region → Region) : (s.modRegion r f).dir = s.dir := rfl
@[simp] theorem State.modRegion_proxies (s : State) (r : Nat) (f : Region → Region) : (s.modRegion r f).proxies = s.proxies := rfl
@[simp] theorem State.modRegion_txns (s : State) (r : Nat) (f : Region → Region) : (s.modRegion r f).txns = s.txns := rfl
@[simp] theorem State.modRegion_cohMsgs (s : State) (r : Nat) (f : Region → Region) : (s.modRegion r f).cohMsgs = s.cohMsgs := rfl
@[simp] theorem State.modRegion_bars (s : State) (r : Nat) (f : Region → Region) : (s.modRegion r f).bars = s.bars := rfl
@[simp] theorem State.modRegion_podBars (s : State) (r : Nat) (f : Region → Region) : (s.modRegion r f).podBars = s.podBars := rfl
@[simp] theorem State.modRegion_gangs (s : State) (r : Nat) (f : Region → Region) : (s.modRegion r f).gangs = s.gangs := rfl
@[simp] theorem State.modRegion_gangSeq (s : State) (r : Nat) (f : Region → Region) : (s.modRegion r f).gangSeq = s.gangSeq := rfl
@[simp] theorem State.modRegion_casts (s : State) (r : Nat) (f : Region → Region) : (s.modRegion r f).casts = s.casts := rfl
@[simp] theorem State.modRegion_castSeq (s : State) (r : Nat) (f : Region → Region) : (s.modRegion r f).castSeq = s.castSeq := rfl
@[simp] theorem State.modRegion_collCnt (s : State) (r : Nat) (f : Region → Region) : (s.modRegion r f).collCnt = s.collCnt := rfl
@[simp] theorem State.modRegion_collInst (s : State) (r : Nat) (f : Region → Region) : (s.modRegion r f).collInst = s.collInst := rfl
@[simp] theorem State.modRegion_timers (s : State) (r : Nat) (f : Region → Region) : (s.modRegion r f).timers = s.timers := rfl
@[simp] theorem State.modRegion_objects (s : State) (r : Nat) (f : Region → Region) : (s.modRegion r f).objects = s.objects := rfl
@[simp] theorem State.modRegion_modInc (s : State) (r : Nat) (f : Region → Region) : (s.modRegion r f).modInc = s.modInc := rfl
@[simp] theorem State.modRegion_hostInc (s : State) (r : Nat) (f : Region → Region) : (s.modRegion r f).hostInc = s.hostInc := rfl
@[simp] theorem State.modRegion_links (s : State) (r : Nat) (f : Region → Region) : (s.modRegion r f).links = s.links := rfl
@[simp] theorem State.modRegion_fanovDown (s : State) (r : Nat) (f : Region → Region) : (s.modRegion r f).fanovDown = s.fanovDown := rfl
@[simp] theorem State.modRegion_routes (s : State) (r : Nat) (f : Region → Region) : (s.modRegion r f).routes = s.routes := rfl
@[simp] theorem State.modRegion_lock (s : State) (r : Nat) (f : Region → Region) : (s.modRegion r f).lock = s.lock := rfl
@[simp] theorem State.modRegion_mstatus (s : State) (r : Nat) (f : Region → Region) : (s.modRegion r f).mstatus = s.mstatus := rfl
@[simp] theorem State.modRegion_dtemp (s : State) (r : Nat) (f : Region → Region) : (s.modRegion r f).dtemp = s.dtemp := rfl
@[simp] theorem State.modRegion_mgmtOut (s : State) (r : Nat) (f : Region → Region) : (s.modRegion r f).mgmtOut = s.mgmtOut := rfl
@[simp] theorem State.modRegion_ctx (s : State) (r : Nat) (f : Region → Region) (i : Nat) : (s.modRegion r f).ctx i = s.ctx i := rfl
@[simp] theorem State.modRegion_core (s : State) (r : Nat) (f : Region → Region) (i : Nat) : (s.modRegion r f).core i = s.core i := rfl
@[simp] theorem State.modRegion_quad (s : State) (r : Nat) (f : Region → Region) (i : Nat) : (s.modRegion r f).quad i = s.quad i := rfl
theorem State.modRegion_region (s : State) (r : Nat) (f : Region → Region) (i : Nat) :
    (s.modRegion r f).region i = if i = r then f (s.region r) else s.region i := State.setRegion_region s r _ i
@[simp] theorem State.modRegion_region_same (s : State) (r : Nat) (f : Region → Region) : (s.modRegion r f).region r = f (s.region r) := by
  simp [State.modRegion_region]
@[simp] theorem State.modRegion_region_other (s : State) (r : Nat) (f : Region → Region) (i : Nat) (h : i ≠ r) :
    (s.modRegion r f).region i = s.region i := by simp [State.modRegion_region, h]

/-- A unit read after a change of other fields. -/
theorem State.ctx_congr (s t : State) (h : s.ctxs = t.ctxs) (i : Nat) : s.ctx i = t.ctx i := by simp [State.ctx, h]
/-- A unit read after a change of other fields. -/
theorem State.core_congr (s t : State) (h : s.cores = t.cores) (i : Nat) : s.core i = t.core i := by simp [State.core, h]
/-- A unit read after a change of other fields. -/
theorem State.quad_congr (s t : State) (h : s.quads = t.quads) (i : Nat) : s.quad i = t.quad i := by simp [State.quad, h]
/-- A unit read after a change of other fields. -/
theorem State.region_congr (s t : State) (h : s.regions = t.regions) (i : Nat) : s.region i = t.region i := by simp [State.region, h]

/-! The acting context. -/

@[simp] theorem State.modMe_me (s : State) (f : Ctx → Ctx) : (s.modMe f).me = f s.me := by
  simp [State.modMe, State.me]
@[simp] theorem State.modMe_ctx_other (s : State) (f : Ctx → Ctx) (c : Nat) (h : c ≠ s.cur) : (s.modMe f).ctx c = s.ctx c := by
  simp [State.modMe, h]
theorem State.modMe_modMe (s : State) (f g : Ctx → Ctx) (c : Nat) :
    ((s.modMe f).modMe g).ctx c = (s.modMe (fun x => g (f x))).ctx c := by
  by_cases h : c = s.cur
  · subst h; simp [State.modMe]
  · have h2 : c ≠ (s.modMe f).cur := h
    simp [h2, h]

@[simp] theorem State.modMe_cur (s : State) (f : Ctx → Ctx) : (s.modMe f).cur = s.cur := rfl
@[simp] theorem State.modMe_turn (s : State) (f : Ctx → Ctx) : (s.modMe f).turn = s.turn := rfl
@[simp] theorem State.modMe_sched (s : State) (f : Ctx → Ctx) : (s.modMe f).sched = s.sched := rfl
@[simp] theorem State.modMe_fresh (s : State) (f : Ctx → Ctx) : (s.modMe f).fresh = s.fresh := rfl
@[simp] theorem State.modMe_issueSeq (s : State) (f : Ctx → Ctx) : (s.modMe f).issueSeq = s.issueSeq := rfl
@[simp] theorem State.modMe_accSeq (s : State) (f : Ctx → Ctx) : (s.modMe f).accSeq = s.accSeq := rfl
@[simp] theorem State.modMe_cycles (s : State) (f : Ctx → Ctx) : (s.modMe f).cycles = s.cycles := rfl
@[simp] theorem State.modMe_cores (s : State) (f : Ctx → Ctx) : (s.modMe f).cores = s.cores := rfl
@[simp] theorem State.modMe_quads (s : State) (f : Ctx → Ctx) : (s.modMe f).quads = s.quads := rfl
@[simp] theorem State.modMe_regions (s : State) (f : Ctx → Ctx) : (s.modMe f).regions = s.regions := rfl
@[simp] theorem State.modMe_mem (s : State) (f : Ctx → Ctx) : (s.modMe f).mem = s.mem := rfl
@[simp] theorem State.modMe_hbmOld (s : State) (f : Ctx → Ctx) : (s.modMe f).hbmOld = s.hbmOld := rfl
@[simp] theorem State.modMe_spad (s : State) (f : Ctx → Ctx) : (s.modMe f).spad = s.spad := rfl
@[simp] theorem State.modMe_poison (s : State) (f : Ctx → Ctx) : (s.modMe f).poison = s.poison := rfl
@[simp] theorem State.modMe_spoison (s : State) (f : Ctx → Ctx) : (s.modMe f).spoison = s.spoison := rfl
@[simp] theorem State.modMe_resv (s : State) (f : Ctx → Ctx) : (s.modMe f).resv = s.resv := rfl
@[simp] theorem State.modMe_dir (s : State) (f : Ctx → Ctx) : (s.modMe f).dir = s.dir := rfl
@[simp] theorem State.modMe_proxies (s : State) (f : Ctx → Ctx) : (s.modMe f).proxies = s.proxies := rfl
@[simp] theorem State.modMe_txns (s : State) (f : Ctx → Ctx) : (s.modMe f).txns = s.txns := rfl
@[simp] theorem State.modMe_cohMsgs (s : State) (f : Ctx → Ctx) : (s.modMe f).cohMsgs = s.cohMsgs := rfl
@[simp] theorem State.modMe_bars (s : State) (f : Ctx → Ctx) : (s.modMe f).bars = s.bars := rfl
@[simp] theorem State.modMe_podBars (s : State) (f : Ctx → Ctx) : (s.modMe f).podBars = s.podBars := rfl
@[simp] theorem State.modMe_gangs (s : State) (f : Ctx → Ctx) : (s.modMe f).gangs = s.gangs := rfl
@[simp] theorem State.modMe_gangSeq (s : State) (f : Ctx → Ctx) : (s.modMe f).gangSeq = s.gangSeq := rfl
@[simp] theorem State.modMe_casts (s : State) (f : Ctx → Ctx) : (s.modMe f).casts = s.casts := rfl
@[simp] theorem State.modMe_castSeq (s : State) (f : Ctx → Ctx) : (s.modMe f).castSeq = s.castSeq := rfl
@[simp] theorem State.modMe_collCnt (s : State) (f : Ctx → Ctx) : (s.modMe f).collCnt = s.collCnt := rfl
@[simp] theorem State.modMe_collInst (s : State) (f : Ctx → Ctx) : (s.modMe f).collInst = s.collInst := rfl
@[simp] theorem State.modMe_timers (s : State) (f : Ctx → Ctx) : (s.modMe f).timers = s.timers := rfl
@[simp] theorem State.modMe_objects (s : State) (f : Ctx → Ctx) : (s.modMe f).objects = s.objects := rfl
@[simp] theorem State.modMe_modInc (s : State) (f : Ctx → Ctx) : (s.modMe f).modInc = s.modInc := rfl
@[simp] theorem State.modMe_hostInc (s : State) (f : Ctx → Ctx) : (s.modMe f).hostInc = s.hostInc := rfl
@[simp] theorem State.modMe_links (s : State) (f : Ctx → Ctx) : (s.modMe f).links = s.links := rfl
@[simp] theorem State.modMe_fanovDown (s : State) (f : Ctx → Ctx) : (s.modMe f).fanovDown = s.fanovDown := rfl
@[simp] theorem State.modMe_routes (s : State) (f : Ctx → Ctx) : (s.modMe f).routes = s.routes := rfl
@[simp] theorem State.modMe_lock (s : State) (f : Ctx → Ctx) : (s.modMe f).lock = s.lock := rfl
@[simp] theorem State.modMe_mstatus (s : State) (f : Ctx → Ctx) : (s.modMe f).mstatus = s.mstatus := rfl
@[simp] theorem State.modMe_dtemp (s : State) (f : Ctx → Ctx) : (s.modMe f).dtemp = s.dtemp := rfl
@[simp] theorem State.modMe_mgmtOut (s : State) (f : Ctx → Ctx) : (s.modMe f).mgmtOut = s.mgmtOut := rfl
@[simp] theorem State.modMe_core (s : State) (f : Ctx → Ctx) (i : Nat) : (s.modMe f).core i = s.core i := rfl
@[simp] theorem State.modMe_quad (s : State) (f : Ctx → Ctx) (i : Nat) : (s.modMe f).quad i = s.quad i := rfl
@[simp] theorem State.modMe_region (s : State) (f : Ctx → Ctx) (i : Nat) : (s.modMe f).region i = s.region i := rfl

/-! General registers (R118, R119). -/

@[simp] theorem Ctx.getG_zero (c : Ctx) : c.getG 0 = 0 := rfl
@[simp] theorem Ctx.setG_zero (c : Ctx) (x : Word) : c.setG 0 x = c := rfl
/-- What a general register reads as after a write of one. -/
theorem Ctx.getG_setG (c : Ctx) (d r : GReg) (x : Word) :
    (c.setG d x).getG r = if r = 0 then 0 else if r = d then x else c.getG r := by
  unfold Ctx.setG Ctx.getG
  by_cases hr : r = 0
  · simp [hr]
  · by_cases hd : d = 0
    · simp [hd, hr]
    · by_cases h : r = d
      · subst h; simp [hr, Vector.get]
      · have hv : d.val ≠ r.val := fun e => h (Fin.ext e.symm)
        simp only [hr, hd, h, if_false]
        show (c.g.set d.val x d.isLt)[r.val] = c.g[r.val]
        exact Vector.getElem_set_ne _ _ hv

@[simp] theorem Ctx.setG_st (c : Ctx) (d : GReg) (x : Word) : (c.setG d x).st = c.st := by unfold Ctx.setG; split <;> rfl
@[simp] theorem Ctx.setG_wait (c : Ctx) (d : GReg) (x : Word) : (c.setG d x).wait = c.wait := by unfold Ctx.setG; split <;> rfl
@[simp] theorem Ctx.setG_park (c : Ctx) (d : GReg) (x : Word) : (c.setG d x).park = c.park := by unfold Ctx.setG; split <;> rfl
@[simp] theorem Ctx.setG_miss (c : Ctx) (d : GReg) (x : Word) : (c.setG d x).miss = c.miss := by unfold Ctx.setG; split <;> rfl
@[simp] theorem Ctx.setG_pc (c : Ctx) (d : GReg) (x : Word) : (c.setG d x).pc = c.pc := by unfold Ctx.setG; split <;> rfl
@[simp] theorem Ctx.setG_status (c : Ctx) (d : GReg) (x : Word) : (c.setG d x).status = c.status := by unfold Ctx.setG; split <;> rfl
@[simp] theorem Ctx.setG_ipendTval (c : Ctx) (d : GReg) (x : Word) : (c.setG d x).ipendTval = c.ipendTval := by unfold Ctx.setG; split <;> rfl
@[simp] theorem Ctx.setG_events (c : Ctx) (d : GReg) (x : Word) : (c.setG d x).events = c.events := by unfold Ctx.setG; split <;> rfl
@[simp] theorem Ctx.setG_epc (c : Ctx) (d : GReg) (x : Word) : (c.setG d x).epc = c.epc := by unfold Ctx.setG; split <;> rfl
@[simp] theorem Ctx.setG_cause (c : Ctx) (d : GReg) (x : Word) : (c.setG d x).cause = c.cause := by unfold Ctx.setG; split <;> rfl
@[simp] theorem Ctx.setG_tval (c : Ctx) (d : GReg) (x : Word) : (c.setG d x).tval = c.tval := by unfold Ctx.setG; split <;> rfl
@[simp] theorem Ctx.setG_tvec (c : Ctx) (d : GReg) (x : Word) : (c.setG d x).tvec = c.tvec := by unfold Ctx.setG; split <;> rfl
@[simp] theorem Ctx.setG_kscr (c : Ctx) (d : GReg) (x : Word) : (c.setG d x).kscr = c.kscr := by unfold Ctx.setG; split <;> rfl
@[simp] theorem Ctx.setG_gang (c : Ctx) (d : GReg) (x : Word) : (c.setG d x).gang = c.gang := by unfold Ctx.setG; split <;> rfl
@[simp] theorem Ctx.setG_member (c : Ctx) (d : GReg) (x : Word) : (c.setG d x).member = c.member := by unfold Ctx.setG; split <;> rfl
@[simp] theorem Ctx.setG_gsize (c : Ctx) (d : GReg) (x : Word) : (c.setG d x).gsize = c.gsize := by unfold Ctx.setG; split <;> rfl
@[simp] theorem Ctx.setG_prio (c : Ctx) (d : GReg) (x : Word) : (c.setG d x).prio = c.prio := by unfold Ctx.setG; split <;> rfl
@[simp] theorem Ctx.setG_cntL (c : Ctx) (d : GReg) (x : Word) : (c.setG d x).cntL = c.cntL := by unfold Ctx.setG; split <;> rfl
@[simp] theorem Ctx.setG_cntS (c : Ctx) (d : GReg) (x : Word) : (c.setG d x).cntS = c.cntS := by unfold Ctx.setG; split <;> rfl
@[simp] theorem Ctx.setG_cntC (c : Ctx) (d : GReg) (x : Word) : (c.setG d x).cntC = c.cntC := by unfold Ctx.setG; split <;> rfl
@[simp] theorem Ctx.setG_cntT (c : Ctx) (d : GReg) (x : Word) : (c.setG d x).cntT = c.cntT := by unfold Ctx.setG; split <;> rfl
@[simp] theorem Ctx.setG_yDl (c : Ctx) (d : GReg) (x : Word) : (c.setG d x).yDl = c.yDl := by unfold Ctx.setG; split <;> rfl
@[simp] theorem Ctx.setG_yPend (c : Ctx) (d : GReg) (x : Word) : (c.setG d x).yPend = c.yPend := by unfold Ctx.setG; split <;> rfl
@[simp] theorem Ctx.setG_yStart (c : Ctx) (d : GReg) (x : Word) : (c.setG d x).yStart = c.yStart := by unfold Ctx.setG; split <;> rfl
@[simp] theorem Ctx.setG_yArmed (c : Ctx) (d : GReg) (x : Word) : (c.setG d x).yArmed = c.yArmed := by unfold Ctx.setG; split <;> rfl
@[simp] theorem Ctx.setG_ydead (c : Ctx) (d : GReg) (x : Word) : (c.setG d x).ydead = c.ydead := by unfold Ctx.setG; split <;> rfl
@[simp] theorem Ctx.setG_ptOn (c : Ctx) (d : GReg) (x : Word) : (c.setG d x).ptOn = c.ptOn := by unfold Ctx.setG; split <;> rfl
@[simp] theorem Ctx.setG_ptRoot (c : Ctx) (d : GReg) (x : Word) : (c.setG d x).ptRoot = c.ptRoot := by unfold Ctx.setG; split <;> rfl
@[simp] theorem Ctx.setG_asid (c : Ctx) (d : GReg) (x : Word) : (c.setG d x).asid = c.asid := by unfold Ctx.setG; split <;> rfl
@[simp] theorem Ctx.setG_dlog (c : Ctx) (d : GReg) (x : Word) : (c.setG d x).dlog = c.dlog := by unfold Ctx.setG; split <;> rfl
@[simp] theorem Ctx.setG_chmask (c : Ctx) (d : GReg) (x : Word) : (c.setG d x).chmask = c.chmask := by unfold Ctx.setG; split <;> rfl
@[simp] theorem Ctx.setG_iret (c : Ctx) (d : GReg) (x : Word) : (c.setG d x).iret = c.iret := by unfold Ctx.setG; split <;> rfl
@[simp] theorem Ctx.setG_pmsel (c : Ctx) (d : GReg) (x : Word) : (c.setG d x).pmsel = c.pmsel := by unfold Ctx.setG; split <;> rfl
@[simp] theorem Ctx.setG_pmcnt (c : Ctx) (d : GReg) (x : Word) : (c.setG d x).pmcnt = c.pmcnt := by unfold Ctx.setG; split <;> rfl
@[simp] theorem Ctx.setG_vl (c : Ctx) (d : GReg) (x : Word) : (c.setG d x).vl = c.vl := by unfold Ctx.setG; split <;> rfl
@[simp] theorem Ctx.setG_es (c : Ctx) (d : GReg) (x : Word) : (c.setG d x).es = c.es := by unfold Ctx.setG; split <;> rfl
@[simp] theorem Ctx.setG_grp (c : Ctx) (d : GReg) (x : Word) : (c.setG d x).grp = c.grp := by unfold Ctx.setG; split <;> rfl
@[simp] theorem Ctx.setG_vstart (c : Ctx) (d : GReg) (x : Word) : (c.setG d x).vstart = c.vstart := by unfold Ctx.setG; split <;> rfl
@[simp] theorem Ctx.setG_vfill (c : Ctx) (d : GReg) (x : Word) : (c.setG d x).vfill = c.vfill := by unfold Ctx.setG; split <;> rfl
@[simp] theorem Ctx.setG_vcap (c : Ctx) (d : GReg) (x : Word) : (c.setG d x).vcap = c.vcap := by unfold Ctx.setG; split <;> rfl
@[simp] theorem Ctx.setG_vffe (c : Ctx) (d : GReg) (x : Word) : (c.setG d x).vffe = c.vffe := by unfold Ctx.setG; split <;> rfl
@[simp] theorem Ctx.setG_stripbase (c : Ctx) (d : GReg) (x : Word) : (c.setG d x).stripbase = c.stripbase := by unfold Ctx.setG; split <;> rfl
@[simp] theorem Ctx.setG_seed (c : Ctx) (d : GReg) (x : Word) : (c.setG d x).seed = c.seed := by unfold Ctx.setG; split <;> rfl
@[simp] theorem Ctx.setG_fstat (c : Ctx) (d : GReg) (x : Word) : (c.setG d x).fstat = c.fstat := by unfold Ctx.setG; split <;> rfl
@[simp] theorem Ctx.setG_v (c : Ctx) (d : GReg) (x : Word) : (c.setG d x).v = c.v := by unfold Ctx.setG; split <;> rfl
@[simp] theorem Ctx.setG_m (c : Ctx) (d : GReg) (x : Word) : (c.setG d x).m = c.m := by unfold Ctx.setG; split <;> rfl
@[simp] theorem Ctx.setG_sb (c : Ctx) (d : GReg) (x : Word) : (c.setG d x).sb = c.sb := by unfold Ctx.setG; split <;> rfl
@[simp] theorem Ctx.setG_acksDue (c : Ctx) (d : GReg) (x : Word) : (c.setG d x).acksDue = c.acksDue := by unfold Ctx.setG; split <;> rfl
@[simp] theorem Ctx.setG_vclear (c : Ctx) (d : GReg) (x : Word) : (c.setG d x).vclear = c.vclear := by unfold Ctx.setG; split <;> rfl
@[simp] theorem Ctx.setG_young (c : Ctx) (d : GReg) (x : Word) : (c.setG d x).young = c.young := by unfold Ctx.setG; split <;> rfl
@[simp] theorem Ctx.setG_waited (c : Ctx) (d : GReg) (x : Word) : (c.setG d x).waited = c.waited := by unfold Ctx.setG; split <;> rfl
@[simp] theorem Ctx.setG_lastIssue (c : Ctx) (d : GReg) (x : Word) : (c.setG d x).lastIssue = c.lastIssue := by unfold Ctx.setG; split <;> rfl
@[simp] theorem Ctx.setG_yieldedAt (c : Ctx) (d : GReg) (x : Word) : (c.setG d x).yieldedAt = c.yieldedAt := by unfold Ctx.setG; split <;> rfl
@[simp] theorem Ctx.setG_trapRun (c : Ctx) (d : GReg) (x : Word) : (c.setG d x).trapRun = c.trapRun := by unfold Ctx.setG; split <;> rfl
@[simp] theorem Ctx.count_st (c : Ctx) (ev n : Nat) : (c.count ev n).st = c.st := rfl
@[simp] theorem Ctx.count_wait (c : Ctx) (ev n : Nat) : (c.count ev n).wait = c.wait := rfl
@[simp] theorem Ctx.count_park (c : Ctx) (ev n : Nat) : (c.count ev n).park = c.park := rfl
@[simp] theorem Ctx.count_miss (c : Ctx) (ev n : Nat) : (c.count ev n).miss = c.miss := rfl
@[simp] theorem Ctx.count_pc (c : Ctx) (ev n : Nat) : (c.count ev n).pc = c.pc := rfl
@[simp] theorem Ctx.count_g (c : Ctx) (ev n : Nat) : (c.count ev n).g = c.g := rfl
@[simp] theorem Ctx.count_status (c : Ctx) (ev n : Nat) : (c.count ev n).status = c.status := rfl
@[simp] theorem Ctx.count_ipendTval (c : Ctx) (ev n : Nat) : (c.count ev n).ipendTval = c.ipendTval := rfl
@[simp] theorem Ctx.count_events (c : Ctx) (ev n : Nat) : (c.count ev n).events = c.events := rfl
@[simp] theorem Ctx.count_epc (c : Ctx) (ev n : Nat) : (c.count ev n).epc = c.epc := rfl
@[simp] theorem Ctx.count_cause (c : Ctx) (ev n : Nat) : (c.count ev n).cause = c.cause := rfl
@[simp] theorem Ctx.count_tval (c : Ctx) (ev n : Nat) : (c.count ev n).tval = c.tval := rfl
@[simp] theorem Ctx.count_tvec (c : Ctx) (ev n : Nat) : (c.count ev n).tvec = c.tvec := rfl
@[simp] theorem Ctx.count_kscr (c : Ctx) (ev n : Nat) : (c.count ev n).kscr = c.kscr := rfl
@[simp] theorem Ctx.count_gang (c : Ctx) (ev n : Nat) : (c.count ev n).gang = c.gang := rfl
@[simp] theorem Ctx.count_member (c : Ctx) (ev n : Nat) : (c.count ev n).member = c.member := rfl
@[simp] theorem Ctx.count_gsize (c : Ctx) (ev n : Nat) : (c.count ev n).gsize = c.gsize := rfl
@[simp] theorem Ctx.count_prio (c : Ctx) (ev n : Nat) : (c.count ev n).prio = c.prio := rfl
@[simp] theorem Ctx.count_cntL (c : Ctx) (ev n : Nat) : (c.count ev n).cntL = c.cntL := rfl
@[simp] theorem Ctx.count_cntS (c : Ctx) (ev n : Nat) : (c.count ev n).cntS = c.cntS := rfl
@[simp] theorem Ctx.count_cntC (c : Ctx) (ev n : Nat) : (c.count ev n).cntC = c.cntC := rfl
@[simp] theorem Ctx.count_cntT (c : Ctx) (ev n : Nat) : (c.count ev n).cntT = c.cntT := rfl
@[simp] theorem Ctx.count_yDl (c : Ctx) (ev n : Nat) : (c.count ev n).yDl = c.yDl := rfl
@[simp] theorem Ctx.count_yPend (c : Ctx) (ev n : Nat) : (c.count ev n).yPend = c.yPend := rfl
@[simp] theorem Ctx.count_yStart (c : Ctx) (ev n : Nat) : (c.count ev n).yStart = c.yStart := rfl
@[simp] theorem Ctx.count_yArmed (c : Ctx) (ev n : Nat) : (c.count ev n).yArmed = c.yArmed := rfl
@[simp] theorem Ctx.count_ydead (c : Ctx) (ev n : Nat) : (c.count ev n).ydead = c.ydead := rfl
@[simp] theorem Ctx.count_ptOn (c : Ctx) (ev n : Nat) : (c.count ev n).ptOn = c.ptOn := rfl
@[simp] theorem Ctx.count_ptRoot (c : Ctx) (ev n : Nat) : (c.count ev n).ptRoot = c.ptRoot := rfl
@[simp] theorem Ctx.count_asid (c : Ctx) (ev n : Nat) : (c.count ev n).asid = c.asid := rfl
@[simp] theorem Ctx.count_dlog (c : Ctx) (ev n : Nat) : (c.count ev n).dlog = c.dlog := rfl
@[simp] theorem Ctx.count_chmask (c : Ctx) (ev n : Nat) : (c.count ev n).chmask = c.chmask := rfl
@[simp] theorem Ctx.count_iret (c : Ctx) (ev n : Nat) : (c.count ev n).iret = c.iret := rfl
@[simp] theorem Ctx.count_pmsel (c : Ctx) (ev n : Nat) : (c.count ev n).pmsel = c.pmsel := rfl
@[simp] theorem Ctx.count_vl (c : Ctx) (ev n : Nat) : (c.count ev n).vl = c.vl := rfl
@[simp] theorem Ctx.count_es (c : Ctx) (ev n : Nat) : (c.count ev n).es = c.es := rfl
@[simp] theorem Ctx.count_grp (c : Ctx) (ev n : Nat) : (c.count ev n).grp = c.grp := rfl
@[simp] theorem Ctx.count_vstart (c : Ctx) (ev n : Nat) : (c.count ev n).vstart = c.vstart := rfl
@[simp] theorem Ctx.count_vfill (c : Ctx) (ev n : Nat) : (c.count ev n).vfill = c.vfill := rfl
@[simp] theorem Ctx.count_vcap (c : Ctx) (ev n : Nat) : (c.count ev n).vcap = c.vcap := rfl
@[simp] theorem Ctx.count_vffe (c : Ctx) (ev n : Nat) : (c.count ev n).vffe = c.vffe := rfl
@[simp] theorem Ctx.count_stripbase (c : Ctx) (ev n : Nat) : (c.count ev n).stripbase = c.stripbase := rfl
@[simp] theorem Ctx.count_seed (c : Ctx) (ev n : Nat) : (c.count ev n).seed = c.seed := rfl
@[simp] theorem Ctx.count_fstat (c : Ctx) (ev n : Nat) : (c.count ev n).fstat = c.fstat := rfl
@[simp] theorem Ctx.count_v (c : Ctx) (ev n : Nat) : (c.count ev n).v = c.v := rfl
@[simp] theorem Ctx.count_m (c : Ctx) (ev n : Nat) : (c.count ev n).m = c.m := rfl
@[simp] theorem Ctx.count_sb (c : Ctx) (ev n : Nat) : (c.count ev n).sb = c.sb := rfl
@[simp] theorem Ctx.count_acksDue (c : Ctx) (ev n : Nat) : (c.count ev n).acksDue = c.acksDue := rfl
@[simp] theorem Ctx.count_vclear (c : Ctx) (ev n : Nat) : (c.count ev n).vclear = c.vclear := rfl
@[simp] theorem Ctx.count_young (c : Ctx) (ev n : Nat) : (c.count ev n).young = c.young := rfl
@[simp] theorem Ctx.count_waited (c : Ctx) (ev n : Nat) : (c.count ev n).waited = c.waited := rfl
@[simp] theorem Ctx.count_lastIssue (c : Ctx) (ev n : Nat) : (c.count ev n).lastIssue = c.lastIssue := rfl
@[simp] theorem Ctx.count_yieldedAt (c : Ctx) (ev n : Nat) : (c.count ev n).yieldedAt = c.yieldedAt := rfl
@[simp] theorem Ctx.count_trapRun (c : Ctx) (ev n : Nat) : (c.count ev n).trapRun = c.trapRun := rfl
@[simp] theorem Ctx.done_pc (c : Ctx) : c.done.pc = c.pc := rfl
@[simp] theorem Ctx.done_g (c : Ctx) : c.done.g = c.g := rfl
@[simp] theorem Ctx.done_status (c : Ctx) : c.done.status = c.status := rfl
@[simp] theorem Ctx.done_ipendTval (c : Ctx) : c.done.ipendTval = c.ipendTval := rfl
@[simp] theorem Ctx.done_events (c : Ctx) : c.done.events = c.events := rfl
@[simp] theorem Ctx.done_epc (c : Ctx) : c.done.epc = c.epc := rfl
@[simp] theorem Ctx.done_cause (c : Ctx) : c.done.cause = c.cause := rfl
@[simp] theorem Ctx.done_tval (c : Ctx) : c.done.tval = c.tval := rfl
@[simp] theorem Ctx.done_tvec (c : Ctx) : c.done.tvec = c.tvec := rfl
@[simp] theorem Ctx.done_kscr (c : Ctx) : c.done.kscr = c.kscr := rfl
@[simp] theorem Ctx.done_gang (c : Ctx) : c.done.gang = c.gang := rfl
@[simp] theorem Ctx.done_member (c : Ctx) : c.done.member = c.member := rfl
@[simp] theorem Ctx.done_gsize (c : Ctx) : c.done.gsize = c.gsize := rfl
@[simp] theorem Ctx.done_prio (c : Ctx) : c.done.prio = c.prio := rfl
@[simp] theorem Ctx.done_cntL (c : Ctx) : c.done.cntL = c.cntL := rfl
@[simp] theorem Ctx.done_cntS (c : Ctx) : c.done.cntS = c.cntS := rfl
@[simp] theorem Ctx.done_cntC (c : Ctx) : c.done.cntC = c.cntC := rfl
@[simp] theorem Ctx.done_cntT (c : Ctx) : c.done.cntT = c.cntT := rfl
@[simp] theorem Ctx.done_yDl (c : Ctx) : c.done.yDl = c.yDl := rfl
@[simp] theorem Ctx.done_yPend (c : Ctx) : c.done.yPend = c.yPend := rfl
@[simp] theorem Ctx.done_yStart (c : Ctx) : c.done.yStart = c.yStart := rfl
@[simp] theorem Ctx.done_yArmed (c : Ctx) : c.done.yArmed = c.yArmed := rfl
@[simp] theorem Ctx.done_ydead (c : Ctx) : c.done.ydead = c.ydead := rfl
@[simp] theorem Ctx.done_ptOn (c : Ctx) : c.done.ptOn = c.ptOn := rfl
@[simp] theorem Ctx.done_ptRoot (c : Ctx) : c.done.ptRoot = c.ptRoot := rfl
@[simp] theorem Ctx.done_asid (c : Ctx) : c.done.asid = c.asid := rfl
@[simp] theorem Ctx.done_dlog (c : Ctx) : c.done.dlog = c.dlog := rfl
@[simp] theorem Ctx.done_chmask (c : Ctx) : c.done.chmask = c.chmask := rfl
@[simp] theorem Ctx.done_pmsel (c : Ctx) : c.done.pmsel = c.pmsel := rfl
@[simp] theorem Ctx.done_pmcnt (c : Ctx) : c.done.pmcnt = c.pmcnt := rfl
@[simp] theorem Ctx.done_vl (c : Ctx) : c.done.vl = c.vl := rfl
@[simp] theorem Ctx.done_es (c : Ctx) : c.done.es = c.es := rfl
@[simp] theorem Ctx.done_grp (c : Ctx) : c.done.grp = c.grp := rfl
@[simp] theorem Ctx.done_vstart (c : Ctx) : c.done.vstart = c.vstart := rfl
@[simp] theorem Ctx.done_vfill (c : Ctx) : c.done.vfill = c.vfill := rfl
@[simp] theorem Ctx.done_vcap (c : Ctx) : c.done.vcap = c.vcap := rfl
@[simp] theorem Ctx.done_vffe (c : Ctx) : c.done.vffe = c.vffe := rfl
@[simp] theorem Ctx.done_stripbase (c : Ctx) : c.done.stripbase = c.stripbase := rfl
@[simp] theorem Ctx.done_seed (c : Ctx) : c.done.seed = c.seed := rfl
@[simp] theorem Ctx.done_fstat (c : Ctx) : c.done.fstat = c.fstat := rfl
@[simp] theorem Ctx.done_v (c : Ctx) : c.done.v = c.v := rfl
@[simp] theorem Ctx.done_m (c : Ctx) : c.done.m = c.m := rfl
@[simp] theorem Ctx.done_sb (c : Ctx) : c.done.sb = c.sb := rfl
@[simp] theorem Ctx.done_acksDue (c : Ctx) : c.done.acksDue = c.acksDue := rfl
@[simp] theorem Ctx.done_vclear (c : Ctx) : c.done.vclear = c.vclear := rfl
@[simp] theorem Ctx.done_waited (c : Ctx) : c.done.waited = c.waited := rfl
@[simp] theorem Ctx.done_lastIssue (c : Ctx) : c.done.lastIssue = c.lastIssue := rfl
@[simp] theorem Ctx.done_yieldedAt (c : Ctx) : c.done.yieldedAt = c.yieldedAt := rfl

end Sys2Proof.Machine
end

