-- ==== Sys2Proof/Laws/Claims.lean ====
section
/-! SUPPORT. What the shared operations of Ops.lean do, in the terms of Safety.lean: the completion of an instruction, the write
of a result, waiting, and the taking of a trap. -/

namespace Sys2Proof.Machine

theorem onlyMe_modMe (s : State) (f : Ctx → Ctx) : OnlyMe s (s.modMe f) :=
  ⟨rfl, fun c h => State.modMe_ctx_other s f c h⟩

theorem OnlyMe.refl (s : State) : OnlyMe s s := ⟨rfl, fun _ _ => rfl⟩

theorem OnlyMe.trans {s t u : State} (h : OnlyMe s t) (h' : OnlyMe t u) : OnlyMe s u := by
  have hc : t.cur = s.cur := by rw [h.1]
  refine ⟨?_, fun c hne => (h'.2 c (by rw [hc]; exact hne)).trans (h.2 c hne)⟩
  have h1 := h'.1; rw [h.1] at h1; exact h1

/-- retireTo completes the instruction at a PC and does nothing else. -/
theorem retireTo_spec (s : State) (pc : Word) : OnlyMe s (s.retireTo pc) ∧ (s.retireTo pc).me = s.me.completed pc :=
  ⟨onlyMe_modMe s _, by simp [State.retireTo]; rfl⟩

/-- retire completes the instruction at the next word and does nothing else. -/
theorem retire_spec (s : State) : OnlyMe s s.retire ∧ s.retire.me = s.me.completed (s.me.pc + 4) :=
  ⟨onlyMe_modMe s _, by simp [State.retire]; rfl⟩

/-- setG writes one register and does nothing else. -/
theorem setG_spec (s : State) (d : GReg) (x : Word) : OnlyMe s (s.setG d x) ∧ (s.setG d x).me = s.me.setG d x :=
  ⟨onlyMe_modMe s _, by simp [State.setG]⟩

theorem wrote_completed (c : Ctx) (d : GReg) (x pc : Word) : c.Wrote ((c.setG d x).completed pc) d x pc := by
  refine ⟨fun r => Ctx.getG_setG c d r x, ?_⟩
  unfold Ctx.completed Ctx.setG
  split <;> rfl

/-- finish writes one register, completes the instruction and does nothing else. -/
theorem finish_spec (s : State) (d : GReg) (x : Word) :
    OnlyMe s (s.finish d x) ∧ s.me.Wrote (s.finish d x).me d x (s.me.pc + 4) := by
  have h := setG_spec s d x
  have h' := retire_spec (s.setG d x)
  refine ⟨h.1.trans h'.1, ?_⟩
  show s.me.Wrote (s.setG d x).retire.me d x (s.me.pc + 4)
  rw [h'.2, h.2, Ctx.setG_pc]
  exact wrote_completed _ _ _ _

/-- hold puts the acting context into a waiting state and does nothing else. -/
theorem hold_spec (s : State) (st : CtxSt) (w : WaitOn) :
    OnlyMe s (s.hold st w) ∧ (s.hold st w).me = { s.me with st := st, wait := w } :=
  ⟨onlyMe_modMe s _, by simp [State.hold]⟩

/-- parkOn parks the acting context and does nothing else. -/
theorem parkOn_spec (s : State) (p : Park) :
    OnlyMe s (s.parkOn p) ∧ (s.parkOn p).me = { s.me with st := .parked, wait := .none, park := p, young := false } :=
  ⟨onlyMe_modMe s _, by simp [State.parkOn]⟩

@[simp] theorem dropResv_ctx (s : State) (c j : Nat) : (s.dropResv c).ctx j = s.ctx j := rfl

theorem trap_ctx (s : State) (c code : Nat) (epc tval : Word) (j : Nat) :
    (s.trap c code epc tval).ctx j = if j = c then ((s.ctx c).count 0x0D 1).enter s.cycles code epc tval else s.ctx j := by
  by_cases hj : j = c
  · subst hj; simp [State.trap, State.count]
  · simp [State.trap, hj, State.count]

/-- trap takes the trap and does nothing else. -/
theorem trap_spec (s : State) (c code : Nat) (epc tval : Word) : TrapTaken s (s.trap c code epc tval) c code epc tval := by
  refine ⟨rfl, fun j h => ?_, rfl, ?_⟩
  · rw [trap_ctx, if_neg h]
  · rw [trap_ctx, if_pos rfl]; rfl

/-- An instruction whose meaning raises a cause takes that trap. -/
theorem raises_of_raise (i : Instr) (s : State) (code : Nat) (tval : Word) (h : exec i s = raise code tval s) :
    Raises i s code tval := ⟨_, h, trap_spec _ _ _ _ _⟩

/-- An instruction whose meaning only writes a register and completes. -/
theorem gives_of_finish (i : Instr) (d : GReg) (v : State → Word) (h : ∀ s, exec i s = .next (s.finish d (v s))) : Gives i d v :=
  fun s => ⟨_, h s, finish_spec s d _⟩

end Sys2Proof.Machine
end

