-- ==== Sys2Proof/Laws/Memory.lean ====
section
/-! SUPPORT. The bytes of memory: what one write, and a performed write of many bytes, leaves behind; that the caches and the
directory hold no bytes of their own; and that every memory operation keeps the canonical form of the byte stores. -/

namespace Sys2Proof.Machine

/-! What reading a byte depends on. -/

theorem byteAt_congr {s t : State} (hm : t.mem = s.mem) (hs : t.spad = s.spad) (hr : t.regions = s.regions)
    (hf : t.fresh = s.fresh) (l : Loc) : t.byteAt l = s.byteAt l := by
  cases l with
  | hbm pa =>
    have e : ∀ i, t.region i = s.region i := fun i => State.region_congr t s hr i
    simp [State.byteAt, State.hbmByte, State.pad, State.inRta, hm, e]
  | spad k o => simp [State.byteAt, hs]
  | fabric a => simp [State.byteAt, hf]

theorem bytesAt_congr {s t : State} (hm : t.mem = s.mem) (hs : t.spad = s.spad) (hr : t.regions = s.regions)
    (hf : t.fresh = s.fresh) (l : Loc) (n : Nat) : t.bytesAt l n = s.bytesAt l n := by
  simp [State.bytesAt, byteAt_congr hm hs hr hf]

theorem chanDown_congr {s t : State} (hr : t.regions = s.regions) (pa : Nat) : t.chanDown pa = s.chanDown pa := by
  simp [State.chanDown, State.region_congr t s hr]

theorem writeMask_congr {s t : State} (hr : t.regions = s.regions) (pa : Nat) : t.writeMask pa = s.writeMask pa := by
  simp [State.writeMask, State.region_congr t s hr]

theorem kept_congr {s t : State} (hr : t.regions = s.regions) (l : Loc) (b : Byte) : t.kept l b = s.kept l b := by
  cases l <;> simp [State.kept, writeMask_congr hr]

theorem pad_congr {s t : State} (hr : t.regions = s.regions) (pa : Nat) : t.pad pa = s.pad pa := by
  simp [State.pad, State.inRta, State.region_congr t s hr]

/-! Writes of bytes. -/

/-- The store that a place lies in, with its key there; none for fabric space. -/
def Loc.key : Loc → Option (Bool × Nat)
  | .hbm pa => some (true, pa)
  | .spad k o => some (false, spadKey k o)
  | .fabric _ => none

theorem Loc.key_inj {a b : Loc} (ha : a.exists_) (hb : b.exists_) (h : a.key = b.key) : a = b := by
  cases a <;> cases b <;> simp_all [Loc.key, Loc.exists_, spadKey]
  omega

/-- Whether a write to a place is kept. -/
def State.keeps (s : State) : Loc → Prop
  | .hbm pa => s.chanDown pa = false
  | .spad _ _ => True
  | .fabric _ => False

@[simp] theorem putByte_regions (s : State) (l : Loc) (b : Byte) : (s.putByte l b).regions = s.regions := by
  cases l <;> simp only [State.putByte] <;> split <;> rfl
@[simp] theorem putByte_fresh (s : State) (l : Loc) (b : Byte) : (s.putByte l b).fresh = s.fresh := by
  cases l <;> simp only [State.putByte] <;> split <;> rfl

/-- putByte changes the byte stores only. -/
theorem putByte_frame (s : State) (l : Loc) (b : Byte) :
    s.putByte l b = { s with mem := (s.putByte l b).mem, spad := (s.putByte l b).spad } := by
  cases l <;> simp only [State.putByte] <;> split <;> rfl

theorem putByte_same (s : State) (l : Loc) (b : Byte) (h : s.keeps l) : (s.putByte l b).byteAt l = s.kept l b := by
  cases l with
  | hbm pa =>
    have h' : s.chanDown pa = false := h
    have e : (s.putByte (.hbm pa) b).pad pa = s.pad pa := pad_congr (by simp) pa
    simp only [State.byteAt, State.hbmByte, e]
    simp [State.putByte, h']
  | spad k o => simp [State.byteAt, State.putByte, State.kept]
  | fabric a => exact absurd h id

theorem putByte_other (s : State) (l l' : Loc) (b : Byte) (h : l'.key ≠ l.key ∨ l'.key = none) :
    (s.putByte l b).byteAt l' = s.byteAt l' := by
  cases l' with
  | hbm pa' =>
    have e : (s.putByte l b).pad pa' = s.pad pa' := pad_congr (by simp) pa'
    simp only [State.byteAt, State.hbmByte, e]
    cases l with
    | hbm pa =>
      have hne : pa' ≠ pa := by rintro rfl; simp [Loc.key] at h
      simp only [State.putByte]; split <;> simp [hne]
    | spad k o => rfl
    | fabric a => rfl
  | spad k' o' =>
    cases l with
    | hbm pa => simp only [State.putByte]; split <;> rfl
    | spad k o =>
      have hne : spadKey k' o' ≠ spadKey k o := by intro e; simp [Loc.key, e] at h
      simp [State.byteAt, State.putByte, hne]
    | fabric a => rfl
  | fabric a => simp [State.byteAt]

@[simp] theorem putBytes_regions (s : State) (ws : List (Loc × Byte)) : (s.putBytes ws).regions = s.regions := by
  induction ws generalizing s with
  | nil => rfl
  | cons w t ih => obtain ⟨l, b⟩ := w; simp [State.putBytes, ih]
@[simp] theorem putBytes_fresh (s : State) (ws : List (Loc × Byte)) : (s.putBytes ws).fresh = s.fresh := by
  induction ws generalizing s with
  | nil => rfl
  | cons w t ih => obtain ⟨l, b⟩ := w; simp [State.putBytes, ih]

/-- putBytes changes the byte stores only. -/
theorem putBytes_frame (s : State) (ws : List (Loc × Byte)) :
    s.putBytes ws = { s with mem := (s.putBytes ws).mem, spad := (s.putBytes ws).spad } := by
  induction ws generalizing s with
  | nil => rfl
  | cons w t ih =>
    obtain ⟨l, b⟩ := w
    simp only [State.putBytes]
    have h1 := ih (s.putByte l b)
    rw [putByte_frame s l b] at h1 ⊢
    exact h1

theorem putBytes_other (s : State) (ws : List (Loc × Byte)) (l : Loc) (h : ∀ w ∈ ws, l.key ≠ w.1.key ∨ l.key = none) :
    (s.putBytes ws).byteAt l = s.byteAt l := by
  induction ws generalizing s with
  | nil => rfl
  | cons w t ih =>
    obtain ⟨m, b⟩ := w
    simp only [State.putBytes]
    rw [ih _ (fun w hw => h w (by simp [hw])), putByte_other _ _ _ _ (h (m, b) (by simp))]

/-- Each byte of a write over distinct places that keep writes is there afterwards. -/
theorem putBytes_get (s : State) (ws : List (Loc × Byte)) (hn : (ws.map (fun w => w.1.key)).Nodup)
    (hk : ∀ w ∈ ws, s.keeps w.1) : ∀ w ∈ ws, (s.putBytes ws).byteAt w.1 = s.kept w.1 w.2 := by
  induction ws generalizing s with
  | nil => simp
  | cons w t ih =>
    obtain ⟨m, b⟩ := w
    simp only [List.map_cons, List.nodup_cons, List.mem_map, not_exists, not_and] at hn
    simp only [State.putBytes]
    have keeps : ∀ l, s.keeps l → (s.putByte m b).keeps l := by
      intro l hl
      cases l with
      | hbm pa => show (s.putByte m b).chanDown pa = false; rw [chanDown_congr (putByte_regions s m b)]; exact hl
      | spad k o => trivial
      | fabric a => exact hl
    intro w hw
    rcases List.mem_cons.mp hw with rfl | hw
    · rw [putBytes_other]
      · exact putByte_same _ _ _ (hk (m, b) (by simp))
      · intro w hw; exact Or.inl (fun e => hn.1 w hw e.symm)
    · rw [ih _ hn.2 (fun w hw => keeps _ (hk w (by simp [hw]))) w hw, kept_congr (putByte_regions s m b)]

/-! Performed writes. -/

/-- A state that differs from s in caches, directories, coherence messages, poison, reservations and stored HBM values only. -/
def SameMemory (s t : State) : Prop :=
  t = { s with cores := t.cores, dir := t.dir, proxies := t.proxies, hbmOld := t.hbmOld, poison := t.poison
               spoison := t.spoison, resv := t.resv, cohMsgs := t.cohMsgs }

theorem SameMemory.refl (s : State) : SameMemory s s := rfl
theorem SameMemory.trans {s t u : State} (h : SameMemory s t) (h' : SameMemory t u) : SameMemory s u := by
  unfold SameMemory at *; rw [h] at h'; exact h'
theorem SameMemory.ite {p : Prop} [Decidable p] {s t u : State} (ht : SameMemory s t) (hu : SameMemory s u) :
    SameMemory s (if p then t else u) := by split <;> assumption
theorem SameMemory.ctx {s t : State} (h : SameMemory s t) (c : Nat) : t.ctx c = s.ctx c := by
  have : t.ctxs = s.ctxs := by rw [h]
  exact State.ctx_congr t s this c
theorem SameMemory.byteAt {s t : State} (h : SameMemory s t) (l : Loc) : t.byteAt l = s.byteAt l := by
  apply byteAt_congr <;> rw [h]
theorem SameMemory.bytesAt {s t : State} (h : SameMemory s t) (l : Loc) (n : Nat) : t.bytesAt l n = s.bytesAt l n := by
  apply bytesAt_congr <;> rw [h]
theorem SameMemory.chanDown {s t : State} (h : SameMemory s t) (pa : Nat) : t.chanDown pa = s.chanDown pa :=
  chanDown_congr (by rw [h]) pa
theorem SameMemory.kept {s t : State} (h : SameMemory s t) (l : Loc) (b : Byte) : t.kept l b = s.kept l b :=
  kept_congr (by rw [h]) l b

theorem setPoison_spec (s : State) (l : Loc) (p : Bool) : SameMemory s (s.setPoison l p) := by cases l <;> rfl
theorem healed_spec (s : State) (ws : List (Loc × Byte)) (ls : List Loc) : SameMemory s (s.healed ws ls) := by
  induction ls generalizing s with
  | nil => exact SameMemory.refl s
  | cons l t ih =>
    simp only [State.healed]
    split
    · exact (setPoison_spec s _ _).trans (ih _)
    · exact ih _
theorem loseResv_spec (s : State) (who : Option Nat) (ws : List (Loc × Byte)) : SameMemory s (s.loseResv who ws) := by
  unfold State.loseResv; split <;> rfl

/-- perform writes the bytes and leaves everything but poison and reservations. -/
theorem perform_spec (s : State) (who : Option Nat) (ws : List (Loc × Byte)) : SameMemory (s.putBytes ws) (s.perform who ws) :=
  (healed_spec _ _ _).trans (loseResv_spec _ _ _)

/-! The caches and the directory. -/

theorem setCore_spec (s : State) (k : Nat) (x : Core) : SameMemory s (s.setCore k x) := rfl
theorem modCore_spec (s : State) (k : Nat) (f : Core → Core) : SameMemory s (s.modCore k f) := rfl
theorem setDir_spec (s : State) (line : Nat) (d : Option DirEnt) : SameMemory s (s.setDir line d) := rfl
theorem setProxy_spec (s : State) (line die : Nat) (d : Option DirEnt) : SameMemory s (s.setProxy line die d) := rfl
theorem others_spec (s : State) (line k : Nat) (f : L1Line → L1Line) (ks : List Nat) : SameMemory s (s.others line k f ks) := by
  induction ks generalizing s with
  | nil => exact SameMemory.refl s
  | cons j t ih =>
    simp only [State.others]
    split
    · exact ih _
    · exact (modCore_spec s _ _).trans (ih _)
theorem putProxy_spec (s : State) (line die : Nat) (p : DirEnt) : SameMemory s (s.putProxy line die p) := by
  unfold State.putProxy
  simp only
  split
  · exact setProxy_spec _ _ _ _
  · exact (setProxy_spec _ _ _ _).trans (setDir_spec _ _ _)
theorem modProxies_spec (s : State) (line : Nat) (f : DirEnt → DirEnt) (dies : List Nat) : SameMemory s (s.modProxies line f dies) := by
  induction dies generalizing s with
  | nil => rfl
  | cons d t ih =>
    simp only [State.modProxies]
    split
    · exact (putProxy_spec _ _ _ _).trans (ih _)
    · exact ih _
theorem dropOld_spec (s : State) (l : List Loc) : SameMemory s (s.dropOld l) := by
  induction l generalizing s with
  | nil => rfl
  | cons x t ih =>
    cases x with
    | hbm pa => exact SameMemory.trans (t := { s with hbmOld := SMap.put none s.hbmOld pa none }) rfl (ih _)
    | spad k o => exact ih _
    | fabric a => exact ih _
theorem writeBack_spec (s : State) (l : List (Nat × BitVec 8)) : SameMemory s (s.writeBack l) := by
  induction l generalizing s with
  | nil => rfl
  | cons x t ih => obtain ⟨a, m⟩ := x; exact (dropOld_spec _ _).trans (ih _)
theorem rcacheFit_spec (s : State) (k : Nat) : SameMemory s (s.rcacheFit k) := (modCore_spec _ _ _).trans (writeBack_spec _ _)
theorem homeDirty_spec (s : State) (line : Nat) (span : BitVec 8) : SameMemory s (s.homeDirty line span) := by
  unfold State.homeDirty
  simp only
  split
  · exact dropOld_spec _ _
  · exact (modCore_spec _ _ _).trans (rcacheFit_spec _ _)
theorem homeDirtyAll_spec (s : State) (l : List (Nat × BitVec 8)) : SameMemory s (s.homeDirtyAll l) := by
  induction l generalizing s with
  | nil => rfl
  | cons x t ih => obtain ⟨a, m⟩ := x; exact (homeDirty_spec _ _ _).trans (ih _)
theorem asked_spec (s : State) (line : Nat) (span : BitVec 8) (write : Bool) (ks : List Nat) :
    SameMemory s (s.asked line span write ks) := by
  induction ks generalizing s with
  | nil => rfl
  | cons j t ih =>
    have h : SameMemory s (if (s.core j).line line = L1Line.none then s else s.modCore j (fun c =>
        c.setLine line (if write then ((s.core j).line line).drop span else ((s.core j).line line).share span))) := by
      split
      · rfl
      · exact modCore_spec _ _ _
    show SameMemory s (State.asked (if ((s.core j).line line).m &&& span = 0 then _ else State.homeDirty _ line _) line span write t)
    refine SameMemory.trans ?_ (ih _)
    split
    · exact h
    · exact h.trans (homeDirty_spec _ _ _)
theorem cohMsgs_spec (s : State) (l : List CohMsg) : SameMemory s { s with cohMsgs := l } := rfl
theorem noticeIn_spec (s : State) (k line : Nat) (n : BitVec 8) : SameMemory s (s.noticeIn k line n).1 := by
  have h1 : ∀ u : State, SameMemory u (match u.dirOf line with
      | some d => u.setDir line (some (d.evict k n))
      | none => u) := by
    intro u; split
    · exact setDir_spec _ _ _
    · rfl
  have h2 : ∀ u : State, SameMemory u (if dieOfCore k = homeDie line then
      (match u.dirOf line with
        | some d => u.setDir line (some (d.evict k n))
        | none => u)
      else u.modProxies line (·.evict k n) [dieOfCore k]) := by
    intro u; split
    · exact h1 u
    · exact modProxies_spec _ _ _ _
  unfold State.noticeIn
  simp only
  have h3 := (modCore_spec s k (fun c => { c with notices := c.notices.erase (line, n) })).trans ((h2 _).trans (homeDirty_spec _ line n))
  split
  · split
    · exact h3.trans (cohMsgs_spec _ _)
    · exact h3.trans (cohMsgs_spec _ _)
  · exact h3
theorem noticesIn_spec (s : State) (k line : Nat) (l : List (Nat × BitVec 8)) : SameMemory s (s.noticesIn k line l) := by
  induction l generalizing s with
  | nil => rfl
  | cons x t ih =>
    simp only [State.noticesIn]
    split
    · refine SameMemory.trans ?_ (ih _)
      split
      · exact (noticeIn_spec _ _ _ _).trans (cohMsgs_spec _ _)
      · exact noticeIn_spec _ _ _ _
    · exact ih _
theorem collect_spec (s : State) (line : Nat) (ks : List Nat) : SameMemory s (s.collect line ks) := by
  induction ks generalizing s with
  | nil => rfl
  | cons k t ih => exact (noticesIn_spec _ _ _ _).trans (ih _)
theorem giveUp_spec (s : State) (k line : Nat) (span : BitVec 8) : SameMemory s (s.giveUp k line span) :=
  SameMemory.ite (SameMemory.refl s) (modCore_spec _ _ _)
theorem approach_spec (s : State) (k line : Nat) (span : BitVec 8) (write : Bool) : SameMemory s (s.approach k line span write) :=
  (SameMemory.ite (giveUp_spec _ _ _ _) (SameMemory.refl s)).trans (noticesIn_spec _ _ _ _)
theorem backInvalidate_spec (s : State) (line die : Nat) : SameMemory s (s.backInvalidate line die) := by
  unfold State.backInvalidate
  split
  · exact (((collect_spec _ _ _).trans (asked_spec _ _ _ _ _)).trans (modProxies_spec _ _ _ _)).trans (setDir_spec _ _ _)
  · exact ((collect_spec _ _ _).trans (asked_spec _ _ _ _ _)).trans (modProxies_spec _ _ _ _)
theorem dirReplace_spec (s : State) (line die : Nat) : SameMemory s (s.dirReplace line die) := by
  unfold State.dirReplace
  simp only
  split
  · rfl
  · split
    · exact setDir_spec _ _ _
    · split
      · rfl
      · exact backInvalidate_spec _ _ _
theorem rebuild_spec (s : State) (line : Nat) : SameMemory s (s.rebuild line) := rfl
theorem entryFor_spec (s : State) (line : Nat) : SameMemory s (s.entryFor line) := by
  unfold State.entryFor
  split
  · rfl
  · exact (dirReplace_spec _ _ _).trans (rebuild_spec _ _)
theorem dirGrant_spec (s : State) (line c : Nat) (span : BitVec 8) (write : Bool) : SameMemory s (s.dirGrant line c span write) := by
  exact SameMemory.ite ((modProxies_spec _ _ _ _).trans (setDir_spec _ _ _)) (SameMemory.trans
    (SameMemory.ite ((modProxies_spec _ _ _ _).trans (setDir_spec _ _ _))
      (((modProxies_spec _ _ _ _).trans (setDir_spec _ _ _)).trans (dirReplace_spec _ _ _))) (putProxy_spec _ _ _ _))
theorem l1Gain_spec (s : State) (k line : Nat) (span : BitVec 8) (excl : Bool) : SameMemory s (s.l1Gain k line span excl) := rfl
/-- A request served changes caches, directory and coherence messages. -/
theorem serve_spec (s : State) (k line : Nat) (span : BitVec 8) (write : Bool) : SameMemory s (s.serve k line span write) := by
  show SameMemory s (if covers (if write then ((s.core k).line line).m ||| ((s.core k).line line).e else ((s.core k).line line).all) span
    then s else _)
  generalize covers _ span = b
  cases b
  · exact (((((approach_spec _ _ _ _ _).trans (entryFor_spec _ _)).trans (collect_spec _ _ _)).trans (asked_spec _ _ _ _ _)).trans
      (dirGrant_spec _ _ _ _ _)).trans (l1Gain_spec _ _ _ _ _)
  · rfl
/-- Sectors recalled change caches, directory and coherence messages. -/
theorem recall_spec (s : State) (line : Nat) (span : BitVec 8) (write : Bool) : SameMemory s (s.recall line span write) := by
  unfold State.recall
  simp only
  split
  · exact (((entryFor_spec _ _).trans (collect_spec _ _ _)).trans (asked_spec _ _ _ _ _)).trans (modProxies_spec _ _ _ _)
  · exact ((((entryFor_spec _ _).trans (collect_spec _ _ _)).trans (asked_spec _ _ _ _ _)).trans (modProxies_spec _ _ _ _)).trans
      (setDir_spec _ _ _)
theorem serveAll_spec (s : State) (k : Nat) (write : Bool) (l : List (Nat × BitVec 8)) : SameMemory s (s.serveAll k write l) := by
  induction l generalizing s with
  | nil => rfl
  | cons x t ih => obtain ⟨a, m⟩ := x; exact (serve_spec _ _ _ _ _).trans (ih _)
theorem recallAll_spec (s : State) (write : Bool) (l : List (Nat × BitVec 8)) : SameMemory s (s.recallAll write l) := by
  induction l generalizing s with
  | nil => rfl
  | cons x t ih => obtain ⟨a, m⟩ := x; exact (recall_spec _ _ _ _).trans (ih _)
theorem dirtyL1_spec (s : State) (k : Nat) (l : List (Nat × BitVec 8)) : SameMemory s (s.dirtyL1 k l) := by
  induction l generalizing s with
  | nil => rfl
  | cons x t ih => obtain ⟨a, m⟩ := x; exact (modCore_spec _ _ _).trans (ih _)
theorem keepOld_spec (s : State) (l : List Loc) : SameMemory s (s.keepOld l) := by
  induction l generalizing s with
  | nil => rfl
  | cons x t ih =>
    cases x with
    | hbm pa =>
      simp only [State.keepOld]
      split
      · exact ih _
      · exact SameMemory.trans (t := { s with hbmOld := SMap.put none s.hbmOld pa (some (s.hbmByte pa, s.hbmBad pa)) }) rfl (ih _)
    | spad k o => exact ih _
    | fabric a => exact ih _
theorem setPoisons_spec (s : State) (f : Nat → Loc) (p : Nat → Bool) (b : Bool) (l : List Nat) :
    SameMemory s (l.foldl (fun u j => if p j then u.setPoison (f j) b else u) s) := by
  induction l generalizing s with
  | nil => rfl
  | cons j t ih => exact (SameMemory.ite (setPoison_spec _ _ _) (SameMemory.refl s)).trans (ih _)
theorem ownGood_spec (s : State) (k : Nat) (l : List (Nat × BitVec 8)) : SameMemory s (s.ownGood k l) := by
  induction l generalizing s with
  | nil => rfl
  | cons x t ih => obtain ⟨a, m⟩ := x; exact ((setPoisons_spec _ _ _ _ _).trans (modCore_spec _ _ _)).trans (ih _)
/-- What a write at the home or through a core's cache does to memory: its bytes, and nothing else. -/
theorem homeWrite_spec (s : State) (who : Option Nat) (ps : List Piece) (data : List Byte) :
    ∃ u, SameMemory s u ∧ SameMemory (u.putBytes (pieceWrites ps data)) (s.homeWrite who ps data) :=
  ⟨_, ((recallAll_spec _ _ _).trans (keepOld_spec _ _)).trans (dropOld_spec _ _), (perform_spec _ _ _).trans (homeDirtyAll_spec _ _)⟩
theorem coreWriteOf_spec (s : State) (c : Nat) (want : List (Nat × BitVec 8)) (ps : List Piece) (data : List Byte) :
    ∃ u, SameMemory (s.countMiss c want) u ∧ SameMemory (u.putBytes (pieceWrites ps data)) (s.coreWriteOf c want ps data) :=
  ⟨_, ((((serveAll_spec _ _ _ _).trans (recallAll_spec _ _ _)).trans (keepOld_spec _ _)).trans (ownGood_spec _ _ _)).trans (dropOld_spec _ _),
    (perform_spec _ _ _).trans (dirtyL1_spec _ _ _)⟩
theorem coreWrite_spec (s : State) (c : Nat) (ps : List Piece) (data : List Byte) :
    ∃ u, SameMemory (s.countMiss c (cachedLines ps)) u ∧ SameMemory (u.putBytes (pieceWrites ps data)) (s.coreWrite c ps data) :=
  coreWriteOf_spec s c _ ps data
/-- A read through a core's cache leaves memory, its misses counted; one that reaches fabric space draws a free value. -/
theorem coreReadOf_spec (s : State) (c : Nat) (want : List (Nat × BitVec 8)) (ps : List Piece) :
    SameMemory (s.countMiss c want) (s.coreReadOf c want ps) ∨
    SameMemory { s.countMiss c want with fresh := s.fresh + 1 } (s.coreReadOf c want ps) := by
  have h := serveAll_spec (s.countMiss c want) (coreOf c) false want
  unfold State.coreReadOf
  simp only
  split
  · right; unfold SameMemory at h ⊢; rw [h]; rfl
  · left; exact h
theorem coreRead_spec (s : State) (c : Nat) (ps : List Piece) :
    SameMemory (s.countMiss c (cachedLines ps)) (s.coreRead c ps) ∨
    SameMemory { s.countMiss c (cachedLines ps) with fresh := s.fresh + 1 } (s.coreRead c ps) := coreReadOf_spec s c _ ps

/-! The canonical form. -/

theorem putByte_memOk (s : State) (l : Loc) (b : Byte) (h : s.memOk = true) : (s.putByte l b).memOk = true := by
  simp only [State.memOk, Bool.and_eq_true] at *
  cases l with
  | hbm pa => simp only [State.putByte]; split
              · exact h
              · exact ⟨SMap.wf_put 0 _ _ _ h.1, h.2⟩
  | spad k o => exact ⟨h.1, SMap.wf_put 0 _ _ _ h.2⟩
  | fabric a => exact h
theorem putBytes_memOk (s : State) (ws : List (Loc × Byte)) (h : s.memOk = true) : (s.putBytes ws).memOk = true := by
  induction ws generalizing s with
  | nil => exact h
  | cons w t ih => obtain ⟨l, b⟩ := w; exact ih _ (putByte_memOk s l b h)
theorem SameMemory.memOk {s t : State} (h : SameMemory s t) (hs : s.memOk = true) : t.memOk = true := by
  have hm : t.mem = s.mem := by rw [h]
  have hp : t.spad = s.spad := by rw [h]
  simpa [State.memOk, hm, hp] using hs
/-- A performed write keeps the canonical form. -/
theorem perform_memOk (s : State) (who : Option Nat) (ws : List (Loc × Byte)) (h : s.memOk = true) : (s.perform who ws).memOk = true :=
  (perform_spec s who ws).memOk (putBytes_memOk s ws h)
theorem homeWrite_memOk (s : State) (who : Option Nat) (ps : List Piece) (data : List Byte) (h : s.memOk = true) :
    (s.homeWrite who ps data).memOk = true := by
  obtain ⟨u, h1, h2⟩ := homeWrite_spec s who ps data
  exact h2.memOk (putBytes_memOk _ _ (h1.memOk h))
theorem coreWriteOf_memOk (s : State) (c : Nat) (want : List (Nat × BitVec 8)) (ps : List Piece) (data : List Byte) (h : s.memOk = true) :
    (s.coreWriteOf c want ps data).memOk = true := by
  obtain ⟨u, h1, h2⟩ := coreWriteOf_spec s c want ps data
  exact h2.memOk (putBytes_memOk _ _ (h1.memOk h))
theorem coreWrite_memOk (s : State) (c : Nat) (ps : List Piece) (data : List Byte) (h : s.memOk = true) :
    (s.coreWrite c ps data).memOk = true := coreWriteOf_memOk s c _ ps data h
theorem unrow_spec (s : State) (k : Nat) (l : List (Nat × BitVec 8)) : SameMemory s (s.unrow k l) := by
  induction l generalizing s with
  | nil => rfl
  | cons x t ih => obtain ⟨a, m⟩ := x; exact (((backInvalidate_spec _ _ _).trans (dropOld_spec _ _)).trans (modCore_spec _ _ _)).trans (ih _)
/-- A new split of a slice keeps it. -/
theorem resplit_memOk (s : State) (k new : Nat) (h : s.memOk = true) : (s.resplit k new).memOk = true := by
  have hu := (unrow_spec s k ((s.core k).rcache.drop ((16 - new) * 4096))).memOk h
  refine (modCore_spec _ _ _).memOk ?_
  simp only [State.memOk, Bool.and_eq_true] at *
  exact ⟨hu.1, SMap.wf_drop 0 _ _ hu.2⟩
/-- The clearing of a region keeps it. -/
theorem clearRegion_memOk (s : State) (r : Nat) (h : s.memOk = true) : (s.clearRegion r).memOk = true := by
  simp only [State.memOk, Bool.and_eq_true] at *
  exact ⟨SMap.wf_filter 0 _ _ h.1, SMap.wf_filter 0 _ _ h.2⟩

end Sys2Proof.Machine
end

