-- ==== Sys2Proof/Laws/Events.lean ====
section
/-! SUPPORT. What the event queue of a context does with an event (R310, R338), and what the writing of a weave's pending moves
does to memory (R326, R415). -/

namespace Sys2Proof.Machine

/-- After an event joins a queue, the queue holds it and the entries of the other kinds. -/
theorem Event.mem_join (e z : Event) (l : List Event) : z ∈ e.join l ↔ z = e ∨ (z ∈ l ∧ z.kind ≠ e.kind) := by
  unfold Event.join
  by_cases h : l.any (·.kind == e.kind) = true
  · rw [if_pos h]
    obtain ⟨y, hy, hk⟩ : ∃ y ∈ l, y.kind = e.kind := by simpa using h
    rw [List.mem_map]
    constructor
    · rintro ⟨x, hx, rfl⟩
      by_cases hxe : x.kind = e.kind
      · left; rw [if_pos hxe]
      · right; rw [if_neg hxe]; exact ⟨hx, hxe⟩
    · rintro (rfl | ⟨hz, hne⟩)
      · exact ⟨y, hy, if_pos hk⟩
      · exact ⟨z, hz, if_neg hne⟩
  · rw [if_neg h]
    have hn : ∀ x ∈ l, x.kind ≠ e.kind := by simpa using h
    simp only [List.mem_append, List.mem_singleton]
    constructor
    · rintro (hz | rfl)
      · exact .inr ⟨hz, hn z hz⟩
      · exact .inl rfl
    · rintro (rfl | ⟨hz, -⟩)
      · exact .inr rfl
      · exact .inl hz

/-- Acting on an event changes what is pending and, of a context that is parked, the park. -/
theorem Ctx.act_frame (c : Ctx) (e : Event) : c.act e = { c with
    status := { c.status with ipend := (c.act e).status.ipend }, ipendTval := (c.act e).ipendTval
    st := (c.act e).st, wait := (c.act e).wait, park := (c.act e).park } := by
  unfold Ctx.act Ctx.wakeOn
  cases e.kind <;> simp only <;> (try split) <;> rfl

@[simp] theorem Ctx.act_events (c : Ctx) (e : Event) : (c.act e).events = c.events := by rw [Ctx.act_frame]
@[simp] theorem Ctx.act_g (c : Ctx) (e : Event) : (c.act e).g = c.g := by rw [Ctx.act_frame]
@[simp] theorem Ctx.act_pc (c : Ctx) (e : Event) : (c.act e).pc = c.pc := by rw [Ctx.act_frame]
@[simp] theorem Ctx.act_miss (c : Ctx) (e : Event) : (c.act e).miss = c.miss := by rw [Ctx.act_frame]

theorem Ctx.accept_acts (c : Ctx) (e : Event) (h : c.atBoundary = true) : c.accept e = c.act e := if_pos h
theorem Ctx.accept_holds (c : Ctx) (e : Event) (h : c.atBoundary = false) : c.accept e = { c with events := e.join c.events } :=
  if_neg (by simp [h])

@[simp] theorem Ctx.settled_events (c : Ctx) : c.settled.events = [] := by
  have h : ∀ (l : List Event) (x : Ctx), (l.foldl Ctx.act x).events = x.events := by
    intro l
    induction l with
    | nil => exact fun _ => rfl
    | cons e t ih => exact fun x => (ih _).trans (Ctx.act_events x e)
  exact h c.events { c with events := [] }

/-- The writing of one move keeps the canonical form of memory. -/
theorem putSent_memOk (s : State) (x : Sent) (b : Byte) (h : s.memOk = true) : (s.putSent x b).memOk = true := by
  have hp := perform_memOk s none [(x.dst, b)] h
  unfold State.putSent
  simp only
  split
  · exact h
  · split
    · exact (setPoison_spec _ _ _).memOk hp
    · exact hp
/-- So does the writing of all that are due. -/
theorem settleSends_memOk (s : State) (q : Nat) (due : Sent → Bool) (h : s.memOk = true) : (s.settleSends q due).memOk = true := by
  have go : ∀ (n : Nat) (s : State), s.memOk = true → (State.settleGo q due n s).memOk = true := by
    intro n
    induction n with
    | zero => exact fun _ h => h
    | succ n ih =>
      intro s h
      unfold State.settleGo
      simp only
      split
      · exact h
      · exact ih _ (putSent_memOk s _ _ h)
  exact go _ s h
/-- Where none is due nothing is written. -/
theorem settleSends_none (s : State) (q : Nat) (due : Sent → Bool) (h : ∀ x ∈ (s.quad q).sends, due x = false) : s.settleSends q due = s := by
  have hf : (s.quad q).sends.find? due = none := by simpa using h
  unfold State.settleSends
  cases hl : (s.quad q).sends with
  | nil => rfl
  | cons x l => rw [hl] at hf; simp [State.settleGo, hl, hf]
/-- A quad without moves has none to write. -/
theorem settleSends_empty (s : State) (q : Nat) (due : Sent → Bool) (h : (s.quad q).sends = []) : s.settleSends q due = s :=
  settleSends_none s q due (by simp [h])

end Sys2Proof.Machine
end

