-- ==== Sys2Proof/Laws/Regions.lean ====
section
/-! SUPPORT. What the writing of routes does to a state: the routing tables and their locks change, and nothing else. -/

namespace Sys2Proof.Machine

/-- A state that differs from s in routing tables and locks only. -/
def Rerouted (s t : State) : Prop := t = { s with routes := t.routes, lock := t.lock }

theorem Rerouted.refl (s : State) : Rerouted s s := rfl
theorem Rerouted.trans {s t u : State} (h : Rerouted s t) (h' : Rerouted t u) : Rerouted s u := by
  unfold Rerouted at *; rw [h] at h'; exact h'
theorem Rerouted.region {s t : State} (h : Rerouted s t) (r : Nat) : t.region r = s.region r :=
  State.region_congr t s (by rw [h]) r

theorem relock_spec (dies : List Nat) (l : List RouteEntry) (s : State) : Rerouted s (s.relock dies l) := rfl
theorem reroute_spec (s : State) (inside dests : List Nat) : Rerouted s (s.reroute inside dests) := rfl
theorem windowRoutes_spec (s : State) (w b : Nat) (own other : List Nat) : Rerouted s (s.windowRoutes w b own other) := by
  unfold State.windowRoutes; split
  · rfl
  · exact relock_spec _ _ _
theorem routeWindows_spec (s : State) (w : Nat) : Rerouted s (s.routeWindows w) := by
  unfold State.routeWindows
  generalize (s.windowsOf w).reverse = l
  induction l generalizing s with
  | nil => rfl
  | cons y t ih => exact (windowRoutes_spec _ _ _ _ _).trans (ih _)
theorem rewindow_spec (s : State) (x : Nat) : Rerouted s (s.rewindow x) := by
  unfold State.rewindow
  generalize List.range 32 = l
  induction l generalizing s with
  | nil => rfl
  | cons w t ih =>
    refine Rerouted.trans ?_ (ih _)
    show Rerouted s (if s.concerns w x then s.routeWindows w else s)
    split
    · exact routeWindows_spec _ _
    · rfl

end Sys2Proof.Machine
end

