-- ==== Sys2Proof/Tests/Slice0.lean ====
section
/-! SUPPORT. Tests of the model: the smoke test of WellFormed, words written out from the encodings, single steps with results worked
out from the rules by hand, and for every statement with hypotheses a state and operands that meet them. -/

namespace Sys2Proof.Tests
open Sys2Proof.Machine
set_option Elab.async false

/-- Whether an outcome is a next state with a property. -/
def nextB (o : Host.Outcome State Fault Refusal) (p : State → Bool) : Bool :=
  match o with
  | .next t => p t
  | _ => false
/-- Region 0 assigned, context 0 of core 0 READY in K mode at 0x1000. -/
def base : State := { State.reset with
  regions := [(0, { Region.reset with st := .assigned })], ctxs := [(0, { Ctx.reset with st := .ready, pc := 0x1000 })] }
/-- The same with context 0 changed. -/
def me (f : Ctx → Ctx) : State := base.modMe f
/-- The same with registers g1, g2 and g3 of context 0 set. -/
def regs (x y z : Word) : State := me (fun c => ((c.setG 1 x).setG 2 y).setG 3 z)
/-- The same in U mode. -/
def user (s : State) : State := s.modMe (fun c => { c with status := { c.status with mode := false } })
/-- Firmware runs. -/
def fw (s : State) : State := { s with mstatus := { s.mstatus with fwready := true } }
/-- Whether context c has taken a trap or interrupt with this cause and value. -/
def took (c : Nat) (cause : BitVec 8) (tval : Word) (t : State) : Bool :=
  (t.ctx c).cause == cause && (t.ctx c).tval == tval && (t.ctx c).status.mode && decide ((t.ctx c).trapRun = 1)

/-! WellFormed refuses what no word stands for. -/

theorem test_ill_formed_scalar : wellFormed (.fcvtff 1 2 .fp32 .fp32 .rne) = false ∧
    wellFormed (.fence false false .die false false false false) = false ∧ wellFormed (.mts 1 0x020) = false := by decide +kernel
theorem test_ill_formed_sync : wellFormed (.gbar 1 2 8 .pod .add) = false ∧ wellFormed (.garrive 1 8 .pod) = false ∧
    wellFormed (.gwait 1 8 .pod) = false ∧ wellFormed (.chrecv 0 3) = false := by decide +kernel
theorem test_ill_formed_vector : wellFormed (.vmerge 1 2 3 0) = false ∧ wellFormed (.vcompress 1 2 0) = false ∧
    wellFormed (.vexpand 1 2 0) = false ∧ wellFormed (.vldpl 1 2 3 0 1 2 false) = false ∧ wellFormed (.vstpl 1 2 3 0 1 2) = false ∧
    wellFormed (.vlde 1 2 0 6) = false := by decide +kernel
theorem test_ill_formed_tile : wellFormed (.tmops 0 1 2 0 0 0 false false) = false := by decide +kernel
theorem test_well_formed_neighbours : wellFormed (.gbar 1 2 7 .pod .add) = true ∧ wellFormed (.vldpl 1 2 3 0 2 2 false) = true ∧
    wellFormed (.vlde 1 2 0 5) = true ∧ wellFormed (.mts 1 0x001) = true ∧ wellFormed (.fence true false .die false false false false) = true := by
  decide +kernel

/-! Words written out from the encodings of spec/03_encoding.md and from the spec's own listings. -/

theorem test_decode_alu : decode 0x04C42800#32 = .ok (.add 6 4 5) ∧ decode 0x04C42812#32 = .ok (.mulh 6 4 5) := by decide +kernel
theorem test_decode_imm : decode 0x09290004#32 = .ok (.addi 9 9 4) := by decide +kernel
theorem test_decode_load : decode 0x4CE2FFF0#32 = .ok (.ld 7 2 0xFFF0) := by decide +kernel
theorem test_decode_atomic : decode 0x71434964#32 = .ok (.amoswap 10 3 9 true true false .die) ∧
    decode 0x700306C4#32 = .ok (.strel 3 0 true .die) := by decide +kernel
theorem test_decode_fence : decode 0x74000026#32 = .ok (.fence false false .die false true true false) := by decide +kernel
theorem test_decode_system : decode 0xA4000002#32 = .ok .eret ∧ decode 0xA4003800#32 = .ok (.trap 7) ∧
    decode 0xA9200001#32 = .ok (.mfs 9 0x001) ∧ decode 0xAC090001#32 = .ok (.mts 9 0x001) := by decide +kernel
theorem test_decode_sync : decode 0xB0A6100C#32 = .ok (.gbar 5 6 2 .quad .max) ∧ decode 0xB0041980#32 = .ok (.bcpost 4 3) ∧
    decode 0xB5230000#32 = .ok (.sendStrmCopy 9 3) ∧ decode 0xB800FF02#32 = .ok (.cwait 15 15 0 2) := by decide +kernel
theorem test_decode_vector : decode 0xC0A49F09#32 = .ok (.setvlA 5 4 2 1 0xF0 true) ∧ decode 0xD0886320#32 = .ok (.vfadd 4 8 12 3 1) ∧
    decode 0xFA0530BE#32 = .ok (.vstpl 16 5 6 0 3 3) := by decide +kernel
theorem test_decode_tile : decode 0xFD2294A0#32 = .ok (.tmop 2 4 5 1 2 2 true false) := by decide +kernel
theorem test_decode_illegal : decode 0x04A63818#32 = .error .illegalField ∧ decode 0x00000000#32 = .error .illegalMajor ∧
    decode 0x04000020#32 = .error .illegalFunction := by decide +kernel
theorem test_step_runs_probe_word : nextB (step (State.reset.withFetchWord 32 0x09290004)) (fun t =>
    (t.ctx 0).getG 9 == 4 && (t.ctx 0).pc == 0x400004#64) = true := by decide +kernel

/-! Reset. -/

theorem test_reset_mem : State.reset.memOk = true := by decide
theorem test_reset_vcap : (State.reset.ctx 4095).vcap = 14 ∧ (State.reset.ctx 4095).status.mode = true ∧
    (State.reset.ctx 4095).st = .free := by decide +kernel

/-! Scalar instructions. -/

theorem test_add_wraps : nextB (exec (.add 3 1 2) (regs (-1) 2 7)) (fun t => t.me.getG 3 == 1 && t.me.pc == 0x1004) = true := by decide +kernel
theorem test_g0_is_zero : nextB (exec (.addi 0 1 5) (regs 4 0 0)) (fun t => t.me.getG 0 == 0 && t.me.iret == 1) = true := by decide +kernel
theorem test_div_overflow : nextB (exec (.div 3 1 2) (regs 0x8000000000000000 (-1) 0)) (fun t => t.me.getG 3 == 0x8000000000000000) = true := by
  decide +kernel
theorem test_div_rounds_to_zero : nextB (exec (.div 3 1 2) (regs (-7) 2 0)) (fun t => t.me.getG 3 == -3) = true := by decide +kernel
theorem test_rem_sign : nextB (exec (.rem 3 1 2) (regs (-7) 2 0)) (fun t => t.me.getG 3 == -1) = true := by decide +kernel
theorem test_divu : nextB (exec (.divu 3 1 2) (regs 0xFFFFFFFFFFFFFFF9 2 0)) (fun t => t.me.getG 3 == 0x7FFFFFFFFFFFFFFC) = true := by decide +kernel
theorem test_sltiu_all_ones : nextB (exec (.sltiu 3 1 0xFFFF) (regs 5 0 0)) (fun t => t.me.getG 3 == 1) = true := by decide +kernel
theorem test_mulh_sign : nextB (exec (.mulh 3 1 2) (regs (-1) 1 0)) (fun t => t.me.getG 3 == -1) = true := by decide +kernel
theorem test_clz : nextB (exec (.clz 3 1) (regs 1 0 0)) (fun t => t.me.getG 3 == 63) = true := by decide +kernel
theorem test_bswap : nextB (exec (.bswap 3 1) (regs 0x0102030405060708 0 0)) (fun t => t.me.getG 3 == 0x0807060504030201) = true := by decide +kernel
theorem test_lih : nextB (exec (.lih 3 0x8000) base) (fun t => t.me.getG 3 == 0xFFFFFFFF80000000) = true := by decide +kernel
theorem test_fadd : nextB (exec (.fadd 3 1 2 .fp32 .rne) (regs 0x3F800000 0x40000000 0)) (fun t => t.me.getG 3 == 0x40400000) = true := by decide +kernel
theorem witness_nan_operand : (fpVal (sizeFmt .fp32) false ((regs 0x7FC00000 0x40000000 0).g 1).toNat).isNan = true ∧
    nextB (exec (.fma 3 2 2 1 .fp32 .rne false false) (regs 0x7FC00000 0x40000000 0)) (fun t =>
      t.me.getG 3 == BitVec.ofNat 64 (sizeFmt .fp32).canonNan && t.me.fstat == 0) = true := by decide +kernel
theorem test_branch_taken : nextB (exec (.beq 1 2 0xFFFF) (regs 3 3 0)) (fun t => t.me.pc == 0xFFC) = true ∧
    nextB (exec (.beq 1 2 0xFFFF) (regs 3 4 0)) (fun t => t.me.pc == 0x1004) = true := by decide +kernel
theorem test_jalr_reads_first : nextB (exec (.jalr 1 1 3) (regs 0x2000 0 0)) (fun t => t.me.pc == 0x2000 && t.me.getG 1 == 0x1004) = true := by
  decide +kernel

/-! Scalar memory accesses. -/

/-- Context 0 with g1 = 0x40, the eight bytes there, and its line in the data cache. -/
def loaded : State := (((regs 0x40 0x1122334455667788 0).putBytes (spread (.hbm 0x40) (leBytes 8 0xF1E2D3C4B5A69788))).l1Gain 0 0 0xFF true)

theorem witness_physical_access : base.cur < 4096 ∧ base.me.status.mode = true ∧ base.me.ptOn = false ∧
    (base.region (regionOf base.cur)).st = .assigned ∧ 0x40 / 2 ^ 36 = regionOf base.cur ∧
    base.transSpan (base.whoCtx base.cur) .load 0x40 8 = (base, .ok [⟨0x40, .hbm 0x40, 8, false, 0, 12⟩]) := by decide +kernel
theorem witness_translation_for_context : (base.whoCtx base.cur).eng = none := by decide +kernel
theorem witness_load_hits : loaded.transSpan (loaded.whoCtx 0) .load 0x40 8 = (loaded, .ok [⟨0x40, .hbm 0x40, 8, false, 0, 12⟩]) ∧
    loaded.tileOverlaps 0 (pieceLocs [⟨0x40, .hbm 0x40, 8, false, 0, 12⟩]) = false ∧ loaded.loadHits 0 (.hbm 0x40) 8 = true ∧
    (loaded.view 0).firstPoison (.hbm 0x40) 8 = none ∧
    nextB (exec (.ld 3 1 0) loaded) (fun t => t.me.getG 3 == 0xF1E2D3C4B5A69788) = true ∧
    nextB (exec (.lb 3 1 7) loaded) (fun t => t.me.getG 3 == 0xFFFFFFFFFFFFFFF1) = true := by decide +kernel
theorem witness_load_poisoned : (let s := loaded.setPoison (.hbm 0x40) true
    (s.view 0).firstPoison (.hbm 0x40) 8 = some 0 ∧ nextB (exec (.ld 3 1 0) s) (took 0 0x09 0x40) = true) := by decide +kernel
theorem witness_load_misses : (let s := regs 0x40 0 0
    s.transSpan (s.whoCtx 0) .load 0x40 8 = (s, .ok [⟨0x40, .hbm 0x40, 8, false, 0, 12⟩]) ∧ s.loadHits 0 (.hbm 0x40) 8 = false ∧
    nextB (exec (.ld 3 1 0) s) (fun t => decide (t.me.st = .waitMiss)) = true) := by decide +kernel
theorem witness_load_fill : (let s := me (fun c => { c with st := .waitMiss, miss := .load 3 8 true 0x40 (.hbm 0x40) 0 true })
    (s.view 0).firstPoison (.hbm 0x40) 8 = none ∧ nextB (exec (.loadMissFill 0) s) (fun t => decide (t.me.st = .ready) && t.me.pc == 0x1004) = true) := by
  decide +kernel
theorem witness_misaligned : nextB (exec (.lw 3 1 2) (regs 0x40 0 0)) (took 0 0x05 0x42) = true ∧
    nextB (exec (.lr 3 1 true false .die) (regs 0x44 0 0)) (took 0 0x05 0x44) = true := by decide +kernel
/-- A buffered write of two bytes. -/
def twoBytes : SbEntry := ⟨.write [0xAA, 0xBB], [⟨0x40, .hbm 0x40, 2, false, 0, 12⟩], false, 0, false, 0⟩
theorem witness_store : (let s := regs 0x40 0xBBAA 0
    s.transSpan (s.whoCtx 0) .store 0x40 2 = (s, .ok [⟨0x40, .hbm 0x40, 2, false, 0, 12⟩]) ∧ s.tileOverlaps 0 (pieceLocs [⟨0x40, .hbm 0x40, 2, false, 0, 12⟩]) = false ∧
    anyFar 0 [⟨0x40, .hbm 0x40, 2, false, 0, 12⟩] = false ∧ s.me.sb.length < 8 ∧
    nextB (exec (.sh 2 1 0) s) (fun t => decide (t.me.sb = [twoBytes])) = true) := by decide +kernel
theorem witness_store_full : (let s := (regs 0x40 0xBBAA 0).modMe (fun c => { c with sb := List.replicate 8 twoBytes })
    8 ≤ s.me.sb.length ∧ nextB (exec (.sh 2 1 0) s) (fun t => decide (t.me.wait = .sbFull)) = true) := by decide +kernel
/-- Context 0 with that write buffered and its sectors owned. -/
def buffered : State := (me (fun c => { c with sb := [twoBytes] })).l1Gain 0 0 0xFF true
theorem witness_store_perform : buffered.owned 0 twoBytes = true ∧ buffered.heldBack (some 0) (pieceLocs twoBytes.pieces) = false ∧
    (pieceLocs twoBytes.pieces).Nodup ∧ (pieceLocs twoBytes.pieces).length = 2 ∧ buffered.chanDown 0x41 = false ∧
    nextB (exec (.storePerform 0) buffered) (fun t => t.byteAt (.hbm 0x40) == 0xAA && t.byteAt (.hbm 0x41) == 0xBB &&
      t.byteAt (.hbm 0x42) == 0 && t.me.sb.isEmpty) = true := by decide +kernel
theorem witness_store_ack : nextB (exec (.storeAck 0) (me (fun c => { c with acksDue := 1, cntS := 1 }))) (fun t => t.me.cntS == 0) = true := by
  decide +kernel
theorem witness_atomic : (let s := regs 0x40 5 7
    s.transSpan (s.whoCtx 0) .rw 0x40 4 = (s, .ok [⟨0x40, .hbm 0x40, 4, false, 0, 12⟩]) ∧ s.chanDown 0x40 = false ∧ s.me.sb = [] ∧
    s.tileOverlaps 0 (pieceLocs [⟨0x40, .hbm 0x40, 4, false, 0, 12⟩]) = false ∧ s.tileMemory 0 = false ∧
    s.heldBack (some 0) (pieceLocs [⟨0x40, .hbm 0x40, 4, false, 0, 12⟩]) = false ∧ s.firstPoison (.hbm 0x40) 4 = none ∧ s.me.dlog = false ∧
    nextB (exec (.amoadd 3 1 2 false true true .die) s) (fun t => t.byteAt (.hbm 0x40) == 5 && decide (t.me.miss = .atom 3 0)) = true ∧
    nextB (exec (.amocas 3 1 2 false true true .die) s) (fun t => t.byteAt (.hbm 0x40) == 0) = true) := by decide +kernel
theorem witness_lr : (let s := regs 0x40 5 7
    s.physCheck (s.whoCtx 0) .load 0x40 ≠ .ok true ∧
    nextB (exec (.lr 3 1 true false .die) s) (fun t => decide ((t.resv.map (fun e => (e.1, e.2.pa, e.2.ctx))) = [(homeCore 0x40, 0x40, 0)])) = true) := by
  decide +kernel
/-- Context 0 with a reservation of the eight bytes at 0x40, taken in cycle 0. -/
def reserved : State := { (regs 0x40 5 7) with resv := [(homeCore 0x40, { pa := 0x40, dword := true, ctx := 0, since := 0, hold := true, inc := 0, num := 0 })] }
theorem witness_sc : reserved.physCheck (reserved.whoCtx 0) .store 0x40 ≠ .ok true ∧
    nextB (exec (.sc 3 1 2 true false .die) reserved) (fun t => t.byteAt (.hbm 0x40) == 5 && decide (t.me.miss = .atom 3 0) && t.resv.isEmpty) = true ∧
    nextB (exec (.sc 3 1 2 true false .die) (regs 0x40 5 7)) (fun t => t.byteAt (.hbm 0x40) == 0 && decide (t.me.miss = .atom 3 1)) = true := by
  decide +kernel
theorem witness_atomic_complete : nextB (exec (.atomicComplete 0) (me (fun c => { c with st := .waitMiss, miss := .atom 3 9 })))
    (fun t => t.me.getG 3 == 9 && decide (t.me.st = .ready)) = true := by decide +kernel
theorem witness_reservation_ages : nextB (exec (.reservationExpire 0) { reserved with cycles := 4096 }) (fun t => t.resv.isEmpty) = true ∧
    nextB (exec (.reservationHoldEnd 0) { reserved with cycles := 128 }) (fun t => t.resv.any (fun e => !e.2.hold)) = true := by decide +kernel
theorem witness_acquire_release : nextB (exec (.ldacq 3 1 true .die) (regs 0x40 5 7)) (fun t => decide (t.me.miss = .atom 3 0)) = true ∧
    nextB (exec (.strel 1 2 true .die) (regs 0x40 5 7)) (fun t => t.byteAt (.hbm 0x40) == 5 && t.me.pc == 0x1004) = true ∧
    nextB (exec (.strel 1 2 true .die) ((regs 0x40 5 7).modMe (fun c => { c with sb := [twoBytes] }))) (fun t => decide (t.me.wait = .drained)) = true := by
  decide +kernel
theorem witness_span : nextB (exec (.czero 1 2) (regs 0x40 0x20 0)) (fun t => decide (t.me.sb.map (·.kind) = [.zero])) = true ∧
    nextB (exec (.cinv 1 2) (regs 0x40 0 0)) (fun t => t.me.sb.isEmpty && t.me.pc == 0x1004) = true ∧
    nextB (exec (.cflush 1 2) (regs 0x40 65537 0)) (took 0 0x02 (BitVec.ofNat 64 (wordCflush 1 2))) = true ∧
    nextB (exec (.cinv 1 2) (user (regs 0x40 16 0))) (took 0 0x04 (BitVec.ofNat 64 (wordCinv 1 2))) = true := by decide +kernel
theorem witness_prefetch : nextB (exec (.cpfr 1 2) (regs 0x40 32 0)) (fun t => t.me.pc == 0x1004) = true ∧
    nextB (exec (.cpfw 1 2) (regs 0x40 65537 0)) (took 0 0x02 (BitVec.ofNat 64 (wordCpfw 1 2))) = true ∧
    nextB (exec (.iflush 1 2) ((regs 0x40 16 0).modCore 0 (fun c => { c with icache := [⟨0, 0, 0⟩, ⟨1, 0, 0⟩] })))
      (fun t => decide ((t.core 0).icache = [⟨1, 0, 0⟩])) = true := by decide +kernel
theorem witness_fence : nextB (exec (.fence false false .die false true false false) base) (fun t => t.me.pc == 0x1004) = true ∧
    nextB (exec (.fence false false .die false true false false) buffered) (fun t => decide (t.me.wait = .fence)) = true := by decide +kernel

/-! System instructions, traps, interrupts. -/

theorem test_trap_saves : nextB (exec (.trap 7) (user (me (fun c => { c with tvec := 0x8000, status := { c.status with ie := true } })))) (fun t =>
    t.me.epc == 0x1000 && t.me.cause == 0x0E && t.me.tval == 7 && t.me.pc == 0x8000 && t.me.status.mode && !t.me.status.ie &&
    t.me.status.pie && !t.me.status.pmode) = true := by decide +kernel
theorem witness_eret : nextB (exec .eret (me (fun c => { c with epc := 0x2000, status := { c.status with pie := true } }))) (fun t =>
    t.me.pc == 0x2000 && t.me.status.ie && !t.me.status.mode) = true ∧
    nextB (exec .eret (user base)) (took 0 0x04 (BitVec.ofNat 64 wordEret)) = true := by decide +kernel
theorem witness_wfi : nextB (exec .wfi (me (fun c => { c with status := { c.status with ipend := 1 } }))) (fun t => t.me.pc == 0x1004) = true ∧
    nextB (exec .wfi base) (fun t => decide (t.me.st = .free)) = true ∧
    nextB (exec .wfi (user base)) (fun t => decide (t.me.st = .parked ∧ t.me.park = .wfi)) = true := by decide +kernel
/-- A translation of one 4 KiB page, pinned so often. -/
def page (va pins : Nat) : TlbEnt := ⟨va, 12, 5, false, true, true, true, true, false, 0, false, pins, [], 0⟩
theorem witness_tlbinv : (let s := (regs 0x1000 5 0).modCore 0 (fun c => { c with dtlb := [page 0x1000 0, page 0x2000 0], tlb2 := [page 0x1000 1, page 0x1000 0] })
    s.me.sb = [] ∧ s.tileStores 0 = false ∧ nextB (exec (.tlbinv 1 2 .die) s) (fun t =>
      decide ((t.core 0).dtlb = [page 0x2000 0] ∧ (t.core 0).tlb2 = [{ page 0x1000 1 with removed := [0] }])) = true) := by decide +kernel
theorem witness_tlb_waits : nextB (exec (.tlbinv 1 2 .die) buffered) (fun t => decide (t.me.wait = .drained)) = true ∧
    nextB (exec .tlbsync base) (fun t => t.me.pc == 0x1004) = true ∧
    nextB (exec .tlbsync (base.modCore 0 (fun c => { c with tlb2 := [{ page 0x1000 1 with removed := [0] }] }))) (fun t => decide (t.me.wait = .pins)) = true ∧
    nextB (exec .tlbsync (user base)) (took 0 0x04 (BitVec.ofNat 64 wordTlbsync)) = true := by decide +kernel
theorem witness_mfs : base.me.status.mode = true ∧ base.vqOf 0 = [] ∧ (base.core 0).tq = [] ∧
    nextB (exec (.mfs 3 0x015) base) (fun t => t.me.getG 3 == 14) = true ∧
    nextB (exec (.mfs 3 0x016) base) (fun t => t.me.getG 3 == 2048) = true ∧
    nextB (exec (.mfs 3 0x041) base) (fun t => t.me.getG 3 == 0xFFFFF00000000000) = true ∧
    nextB (exec (.mfs 3 0x000) base) (fun t => t.me.getG 3 == 1) = true := by decide +kernel
theorem witness_mfs_traps : nextB (exec (.mfs 3 0x007) (user base)) (took 0 0x04 (BitVec.ofNat 64 (wordMfs 3 0x007))) = true ∧
    nextB (exec (.mfs 3 0x00D) base) (took 0 0x01 (BitVec.ofNat 64 (wordMfs 3 0x00D))) = true ∧
    nextB (exec (.mfs 3 0x082) (user base)) (took 0 0x01 (BitVec.ofNat 64 (wordMfs 3 0x082))) = true ∧
    nextB (exec (.mfs 3 0x008) (user base)) (fun t => t.me.getG 3 == 0) = true := by decide +kernel
theorem witness_mts : nextB (exec (.mtsVl 1) (regs 0x1001 0 0)) (fun t => t.me.vl == 2048 && t.me.status.vd) = true ∧
    nextB (exec (.mtsVcap 1) (regs 7 0 0)) (fun t => t.me.vcap == 7) = true ∧
    nextB (exec (.mtsVcap 1) (regs 6 0 0)) (fun t => t.me.vcap == 14) = true ∧
    nextB (exec (.mts 1 0x001) (regs 0x2003 0 0)) (fun t => t.me.epc == 0x2000) = true ∧
    nextB (exec (.mtsStatus 1) (regs 2 0 0)) (fun t => t.me.status.mode && t.me.status.ie) = true := by decide +kernel
theorem witness_mts_yctl : (let armed := fun (v : Word) => (regs v 0 0).modMe (fun c => { c with yPend := true, yDl := 4 })
    nextB (exec (.mtsYctl 1) (regs 4 0 0)) (fun t => t.me.yDl == 4 && !t.me.yPend) = true ∧
    nextB (exec (.mtsYctl 1) (regs 0x100000004 0 0)) (fun t => t.me.yPend && t.me.yArmed == some 0) = true ∧
    nextB (exec (.mtsYctl 1) (armed 0x100000004)) (fun t => t.me.yArmed == none && t.me.yDl == 4) = true ∧
    nextB (exec (.mtsYctl 1) (armed 0x100000005)) (fun t => t.me.yArmed == some 1 && t.me.yDl == 5) = true) := by decide +kernel
/-- A queued TZERO of context 0. -/
def tzeroEntry : TEntry := tileEntryOf base (.zero 0 false) 0 0 0 [] 0 none
theorem witness_mts_core : nextB (exec (.mtsTctl 1) (regs 5 0 0)) (fun t => (t.core 0).owner == 1 && (t.core 0).owned) = true ∧
    nextB (exec (.mtsTstat 1) (regs 0x11 0 0)) (fun t => decide ((t.core 0).tstat.get 0 = ⟨true, false, false, false, true⟩)) = true ∧
    nextB (exec (.mtsTctl 1) ((regs 5 0 0).modCore 0 (fun c => { c with tq := [tzeroEntry] }))) (fun t => decide (t.me.wait = .tqEmpty)) = true ∧
    nextB (exec (.mtsTctl 1) (user base)) (took 0 0x04 (BitVec.ofNat 64 (wordMtsTctl 1))) = true := by decide +kernel
theorem witness_spcfg : base.cur < 4096 ∧ (base.core 0).spsize.toNat ≤ 16 ∧
    nextB (exec (.mtsSpcfg 1) (regs 16 0 0)) (fun t => (t.core 0).spsize == 16) = true ∧
    nextB (exec (.mtsSpcfg 1) (regs 17 0 0)) (fun t => (t.core 0).spsize == 0) = true ∧
    nextB (exec (.mtsSpcfg 1) (((regs 1 0 0).modCore 0 (fun c => { c with spsize := 2 })).putByte (.spad 0 0x80000) 7)) (fun t =>
      t.byteAt (.spad 0 0x80000) == 0) = true := by decide +kernel
theorem witness_member : base.bars = [] ∧ (base.region 0).heldDec = [] ∧
    nextB (exec (.mtsMember 1) (regs 3 0 0)) (fun t => t.me.member == 3 && (t.gangOf 0).reg.isEmpty) = true ∧
    nextB (exec (.mtsMember 1) ((regs 3 0 0).modMe (fun c => { c with gang := 9 }))) (fun t => decide ((t.gangOf 9).reg = [(3, 0)])) = true := by
  decide +kernel
theorem witness_held_decrements (r : Nat) : (base.region r).heldDec = [] := by
  by_cases h : r = 0
  · subst h; rfl
  · have : base.region r = Region.reset := by
      simp [State.region, base, SMap.get_cons, h]
    rw [this]; rfl
theorem witness_privileged : nextB (exec (.mts 1 0x07F) (user base)) (took 0 0x04 (BitVec.ofNat 64 (wordMts 1 0x07F))) = true ∧
    nextB (exec (.mtsVcap 1) (user base)) (took 0 0x04 (BitVec.ofNat 64 (wordMtsVcap 1))) = true := by decide +kernel
/-- Context 0 with the vector unit. -/
def venBase : State := (regs 100 0 0).modMe (fun c => { c with status := { c.status with ven := true } })
theorem witness_setvl : nextB (exec (.setvl 5 1 2 0 0 false) venBase) (fun t => t.me.vl == 100 && t.me.getG 5 == 100 && t.me.es == 2) = true ∧
    nextB (exec (.setvlmaxA 5 3 0 0 false) (venBase.modMe (fun c => { c with vl := 7 }))) (fun t => t.me.vl == 256 && t.me.stripbase == 7) = true ∧
    nextB (exec (.setvl 5 1 2 0 0 false) base) (took 0 0x0A (BitVec.ofNat 64 (wordSetvl 5 1 2 0 0 false))) = true ∧
    nextB (exec (.setvl 5 1 2 0 0xF0 true) (venBase.modMe (fun c => { c with yPend := true, status := { c.status with ye := true } }))) (fun t =>
      took 0 0x0C 0 t && t.me.ydead == 0xF0 && !t.me.yPend) = true := by decide +kernel
/-- Context 0 with interrupts on and these pending. -/
def pends (n : BitVec 6) : State := me (fun c => { c with status := { c.status with ie := true, ipend := n } })
theorem witness_interrupts : (pends 0x3F).me.miss = .none ∧ (pends 0x3F).me.park = .none ∧ (pends 0x3F).vqOf 0 = [] ∧
    nextB (exec (.interruptTake 0 0) (pends 0x3F)) (fun t => took 0 0x45 0 t && t.me.pc == 0x100) = true ∧
    nextB (exec (.interruptTake 0 0) (pends 0x1F)) (took 0 0x43 0) = true ∧ nextB (exec (.interruptTake 0 0) (pends 0x17)) (took 0 0x41 0) = true ∧
    nextB (exec (.interruptTake 0 0) (pends 0x15)) (took 0 0x44 0) = true ∧ nextB (exec (.interruptTake 0 0) (pends 0x05)) (took 0 0x40 0) = true ∧
    nextB (exec (.interruptTake 0 0) (pends 0x04)) (took 0 0x42 0) = true := by decide +kernel
theorem witness_tile_error_first : nextB (exec (.interruptTake 0 0) ((pends 0x3F).modCore 0 (fun c => { c with errPend := true, errAddr := 0x30 })))
    (took 0 0x12 0x30) = true ∧
    nextB (exec (.interruptTake 0 0) (me (fun c => { c with st := .free, status := { c.status with ipend := 8 } }))) (took 0 0x43 0) = true := by
  decide +kernel
theorem witness_trapping : nextB (exec (.trappingDone 0) { (me (fun c => { c with st := .trapping 4 })) with cycles := 10 }) (fun t =>
    decide (t.me.st = .ready)) = true := by decide +kernel
theorem witness_yield_deadline : nextB (exec (.yieldDeadlineExpire 0)
    { (me (fun c => { c with yArmed := some 0, yPend := true, yDl := 2, yStart := 0 })) with cycles := 32 }) (fun t =>
    t.me.status.ipend == 2) = true := by decide +kernel
theorem witness_fetch_traps : (base.fetch 0).2 = .ok 0 ∧ nextB (exec (.illegalInstruction 0) base) (took 0 0x01 0) = true ∧
    ((user base).fetch 0).2 = .error 0x13 ∧ nextB (exec (.fetchPageFault 0) (user base)) (took 0 0x13 0x1000) = true ∧
    ((base.setPoison (.hbm 0x1000) true).fetch 0).2 = .error 0x09 := by decide +kernel

/-! Vector instructions. -/

/-- Context 0 with the vector unit and VL = 4 elements of 32 bits. -/
def vec : State := venBase.modMe (fun c => { c with vl := 4, es := 2 })
theorem witness_vector_checks : nextB (exec (.vadd 3 1 2 0) (regs 0 0 0)) (took 0 0x0A (BitVec.ofNat 64 (wordVadd 3 1 2 0))) = true ∧
    nextB (exec (.vfadd 3 1 2 0 0) vec) (took 0 0x03 0) = true ∧
    nextB (exec (.vadd 3 1 2 0) (vec.modMe (fun c => { c with grp := 1 }))) (took 0 0x02 (BitVec.ofNat 64 (wordVadd 3 1 2 0))) = true := by
  decide +kernel
theorem witness_vector_waits : nextB (exec (.vadd 3 1 2 0) (vec.modMe (fun c => { c with vclear := true }))) (fun t => decide (t.me.wait = .vclear)) = true ∧
    nextB (exec (.vadd 3 1 2 0) (vec.modCore 0 (fun c => { c with tq := [{ tzeroEntry with op := .slv 0 3 0 1 false }] }))) (fun t =>
      decide (t.me.wait = .vReg)) = true := by decide +kernel
/-- A queue entry of context 0 over v3, v1, v2 with scalar operands 0x55 and 2. -/
def ventry (op : VOp) (mask : MaskSel) : VEntry := {
  ctx := 0, op := op, mask := mask, pc := 0x1000, vl := 4, es := 2, grp := 0, vstart := 0, vfill := 9, stripbase := 0, seed := 0
  lenLog := 14, fw := 0, x := 0x55, y := 2, first := 0, pos := 0, win := none, last := true, cntL := false, cntS := false }
theorem witness_vector_dispatch : (vec.core 0).vq.length < 4 ∧ nextB (exec (.vadd 3 1 2 0) vec) (fun t =>
      decide ((t.core 0).vq.map (·.op) = [.int .add 3 1 (.vec 2)]) && t.me.pc == 0x1004 && t.me.status.vd) = true ∧
    nextB (exec (.vadd 3 1 2 0) (vec.modCore 0 (fun c => { c with vq := List.replicate 4 (ventry (.vid 1) 0) }))) (fun t =>
      decide (t.me.wait = .vqFull)) = true := by decide +kernel
/-- That entry alone in the queue, with v1 = 1, 2, 3, 0x7FFFFFFF, v2 = 10, 20, 30, 40 and m1 = 0101. -/
def queued (op : VOp) (mask : MaskSel) : State := (vec.modMe (fun c => { c with
    v := (c.v.set 1 0x7FFFFFFF000000030000000200000001).set 2 0x000000280000001E000000140000000A, m := c.m.set 1 5 })).modCore 0
  (fun c => { c with vq := [ventry op mask] })
theorem witness_entry_sound : (ventry (.int .adds 3 1 (.vec 2)) 0).sound ∧ (ventry (.merge 3 1 2) 1).sound ∧ (ventry (.cmp .lt 2 1 2) 0).sound ∧
    (ventry (.ext 5 1) 0).sound ∧ (ventry (.red .sum 3 1 2) 1).sound := by
  unfold VEntry.sound; decide +kernel
theorem witness_vector_execute : nextB (exec (.vectorExecute 0) (queued (.int .adds 3 1 (.vec 2)) 0)) (fun t =>
      t.me.v.get 3 == 0x7FFFFFFF00000021000000160000000B && t.me.fstat == flagSAT && (t.core 0).vq.isEmpty) = true ∧
    nextB (exec (.vectorExecute 0) (queued (.int .add 3 1 .scal) 1)) (fun t => t.me.v.get 3 == 0x00000000000000050000000000000003 && t.me.fstat == 0) = true := by
  decide +kernel
theorem witness_vector_moves : nextB (exec (.vectorExecute 0) (queued (.merge 3 1 2) 1)) (fun t =>
      t.me.v.get 3 == 0x7FFFFFFF0000001E000000020000000A) = true ∧
    nextB (exec (.vectorExecute 0) (queued (.slide false 3 1) 0)) (fun t => t.me.v.get 3 == 0x00000009000000097FFFFFFF00000003) = true ∧
    nextB (exec (.vectorExecute 0) (queued (.slide true 3 1) 0)) (fun t => t.me.v.get 3 == 0x00000002000000010000000900000009) = true ∧
    nextB (exec (.vectorExecute 0) (queued (.gather 3 1 2) 0)) (fun t => t.me.v.get 3 == 0x00000009000000090000000900000009) = true ∧
    nextB (exec (.vectorExecute 0) (queued (.zip 3 1 2) 0)) (fun t => t.me.v.get 3 == 0x0000001400000002 * 0x10000000000000000 + 0x0000000A00000001) = true ∧
    nextB (exec (.vectorExecute 0) (queued (.unzip 3 1 2) 0)) (fun t => t.me.v.get 3 == 0x0000001E0000000A0000000300000001) = true := by decide +kernel
theorem witness_vector_moves_plain : nextB (exec (.vectorExecute 0) (queued (.mov 3 1) 0)) (fun t => t.me.v.get 3 == t.me.v.get 1) = true ∧
    nextB (exec (.vectorExecute 0) (queued (.bcast 3) 1)) (fun t => t.me.v.get 3 == 0x00000000000000550000000000000055) = true ∧
    nextB (exec (.vectorExecute 0) (queued (.vid 3) 0)) (fun t => t.me.v.get 3 == 0x00000003000000020000000100000000) = true := by decide +kernel
theorem witness_masks : nextB (exec (.vectorExecute 0) (queued (.cmp .lt 2 1 2) 0)) (fun t => t.me.m.get 2 == 7) = true ∧
    nextB (exec (.vectorExecute 0) (queued (.mnot 1 1) 0)) (fun t => t.me.m.get 1 == 10) = true ∧
    nextB (exec (.vectorExecute 0) (queued (.mset 2 true) 0)) (fun t => t.me.m.get 2 == 15) = true ∧
    nextB (exec (.vectorExecute 0) (queued (.mfirst 5 1) 0)) (fun t => t.me.getG 5 == 0) = true ∧
    nextB (exec (.vectorExecute 0) (queued (.mfirst 5 2) 0)) (fun t => t.me.getG 5 == -1) = true ∧
    nextB (exec (.vectorExecute 0) (queued (.mpopc 5 1) 0)) (fun t => t.me.getG 5 == 2) = true ∧
    nextB (exec (.vectorExecute 0) (queued (.mmovg 2) 0)) (fun t => t.me.m.get 2 == 0x55) = true ∧
    nextB (exec (.vectorExecute 0) (queued (.mlog .andn 2 1 1) 0)) (fun t => t.me.m.get 2 == 0) = true := by decide +kernel
theorem witness_ext_and_reduction : nextB (exec (.vectorExecute 0) (queued (.ext 5 1) 0)) (fun t => t.me.getG 5 == 3) = true ∧
    nextB (exec (.vectorExecute 0) (queued (.red .sum 3 1 2) 1)) (fun t => t.me.v.get 3 == 14) = true := by decide +kernel
/-- A queued load or store of one 64-bit element at 0x40. -/
def vmem (op : VOp) : State := (vec.modMe (fun c => { c with v := c.v.set 3 0x1122334455667788 })).modCore 0
  (fun c => { c with vq := [{ ventry op 0 with vl := 1, es := 3, x := 0x40, last := false }] })
theorem witness_vector_memory : (let s := vmem (.mem true .unit 3); let e := { ventry (.mem true .unit 3) 0 with vl := 1, es := 3, x := 0x40, last := false }
    let v := (s.pinWindow e).2
    s.me.sb = [] ∧ v.fault = none ∧ e.limit ≤ v.upto ∧ v.elems = [(0, [⟨0x40, .hbm 0x40, 8, false, 0, 12⟩])] ∧
    s.heldBack (some 0) (pieceLocs (v.elems.flatMap (·.2))) = false ∧ s.tileOverlaps 0 (pieceLocs (v.elems.flatMap (·.2))) = false ∧
    (pieceLocs (v.elems.flatMap (·.2))).Nodup ∧
    nextB (exec (.vectorExecute 0) s) (fun t => t.byteAt (.hbm 0x40) == 0x88 && t.byteAt (.hbm 0x47) == 0x11 && (t.core 0).vq.isEmpty) = true) := by
  decide +kernel
theorem witness_vector_load : nextB (exec (.vectorExecute 0) ((vmem (.mem false .unit 4)).putByte (.hbm 0x41) 7)) (fun t =>
    decide ((t.core 0).vq.map (fun e => e.win) = [some ⟨1, [(0, [⟨0x40, .hbm 0x40, 8, false, 0, 12⟩])], none⟩]) &&
    nextB (exec (.vloadDataReturn 0) t) (fun u => u.me.v.get 4 == 0x700 && (u.core 0).vq.isEmpty)) = true := by decide +kernel

/-! Tile instructions. -/

/-- Context 0 owns the tile unit of its core, with VEN, an INT8 format word in g24 and g1 = 0. -/
def tile : State := (me (fun c => { c.setG 24 0x5041 with status := { c.status with ven := true, ten := true } })).modCore 0
  (fun c => { c with owned := true, owner := 0 })
theorem witness_tile_owner : TileOwner tile ∧ ¬ TileOwner vec := by unfold TileOwner; decide +kernel
theorem witness_tile_issue : mopFwOk (tile.me.getG 24) = true ∧ nextB (exec (.tmop 2 4 5 0 0 0 true false) tile) (fun t =>
      (t.core 0).tq.length == 1 && t.me.cntT == 1) = true ∧
    nextB (exec (.tmop 2 4 5 0 0 1 true false) tile) (took 0 0x03 0) = true ∧
    nextB (exec (.tmop 2 4 5 1 0 0 true false) (tile.modMe (fun c => { c with status := { c.status with ven := false } })))
      (took 0 0x0A (BitVec.ofNat 64 (wordTmop 2 4 5 1 0 0 true false))) = true ∧
    nextB (exec (.tzero 0 true) vec) (took 0 0x0B 0x1000) = true := by decide +kernel
theorem witness_tile_slices : nextB (exec (.tslv 0 3 1 0 false) tile) (fun t => (t.core 0).tq.length == 1 && t.me.status.vd) = true ∧
    nextB (exec (.tvsl 0 3 1 0 false) tile) (fun t => (t.core 0).tq.length == 1) = true ∧
    nextB (exec (.tslv 0 3 1 0 false) (tile.modMe (fun c => c.setG 1 64))) (took 0 0x02 (BitVec.ofNat 64 (wordTslv 0 3 1 0 false))) = true ∧
    nextB (exec (.tzero 0 true) (tile.modCore 0 (fun c => { c with tq := List.replicate 8 tzeroEntry }))) (fun t => decide (t.me.wait = .tqFull)) = true := by
  decide +kernel
theorem witness_tile_memory : nextB (exec (.tldq 1 1 2 0 true) tile) (fun t => (t.core 0).tq.map (fun e => (e.pieces.length, e.pages)) == [(8, 0)]) = true ∧
    nextB (exec (.tsave (.panel 1) 1) (tile.modMe (fun c => c.setG 1 32))) (took 0 0x05 32) = true ∧
    nextB (exec (.tldq 1 1 2 1 false) tile) (took 0 0x03 0) = true ∧
    nextB (exec (.tldq 1 1 2 0 true) (user tile)) (took 0 0x08 0) = true := by decide +kernel
theorem witness_tile_memory_waits : nextB (exec (.tldq 1 1 2 0 true) (tile.modCore 0 (fun c => { c with tq := List.replicate 8 tzeroEntry }))) (fun t =>
      decide (t.me.wait = .tqFull)) = true ∧
    nextB (exec (.tldq 1 1 2 0 true) (tile.modCore 0 (fun c => { c with tq := [{ tzeroEntry with pages := 513 }] }))) (fun t =>
      decide (t.me.wait = .tilePins)) = true := by decide +kernel
/-- Accumulator a0 full of ones, with this instruction alone in the tile queue. -/
def tiled (e : TEntry) : State := tile.modCore 0 (fun c => { c with acc := c.acc.set 0 (BitVec.allOnes 131072), tq := [e] })
theorem witness_tile_execute : nextB (exec (.tileExecute 0) (tiled tzeroEntry)) (fun t => (t.core 0).acc.get 0 == 0 &&
      (t.core 0).tq.all (·.started)) = true ∧
    nextB (exec (.tileComplete 0) (tiled { tzeroEntry with started := true })) (fun t => (t.core 0).tq.isEmpty) = true := by decide +kernel
theorem witness_tile_poison : nextB (exec (.tileExecute 0) ((tiled { tzeroEntry with op := .mop false 1 2 3 1 1 0 true false, fw := 0x5041 }).modCore 0
    (fun c => { c with tstat := c.tstat.set 1 ⟨false, false, false, false, true⟩ }))) (fun t => (t.core 0).errPend && (t.core 0).errAddr == 0x1000) = true := by
  decide +kernel
theorem witness_tile_vsl : nextB (exec (.tileExecute 0) (tiled { tzeroEntry with op := .vsl 0 1 1 false (List.replicate 64 5) })) (fun t =>
    ((t.core 0).acc.get 0).extractLsb' 2048 32 == 5#32 && ((t.core 0).acc.get 0).extractLsb' 4096 32 == 0xFFFFFFFF#32) = true := by decide +kernel

theorem witness_tile_product : (let s := ((tiled { tzeroEntry with op := .mop false 1 2 3 1 1 0 true false, fw := 0x5041 }).modCore 0
      (fun c => { c with panel := (c.panel.set 2 0xFE).set 3 3 }))
    ((s.core 0).tstat.get 1).poison = false ∧ faOf 0x5041 = .int 8 true ∧ fbOf 0x5041 = .int 8 true ∧ fdOf 0x5041 = .int 32 true ∧
    fwSat 0x5041 = false ∧ nextB (exec (.tileExecute 0) s) (fun t => ((t.core 0).acc.get 1).extractLsb' 0 32 == -6#32) = true) := by decide +kernel
theorem witness_tile_load : (let e := { tzeroEntry with op := .load 1 false false, pieces := [⟨0, .hbm 0, 8192, false, 0, 12⟩] }
    (tiled e).me.sb = [] ∧ (pieceLocs e.pieces).length = 8192 ∧ (pieceLocs e.pieces).all (fun l => !(tiled e).poisoned l) = true) := by decide +kernel

/-! Barriers, channels, counters. -/

/-- Context 0 as the one member of gang 9, so that EXP = 1; g1 = 5. -/
def ganged (g : Gang) : State := { ((regs 5 0 0).modMe (fun c => { c with gang := 9 })) with gangs := [(9, some g)] }
/-- The core barrier 2 of that gang. -/
def key : BarKey := ⟨9, .core, 0, 2⟩
theorem witness_barrier_traps : nextB (exec (.gbar 3 1 2 .core .add) base) (took 0 0x10 2) = true ∧
    nextB (exec (.gwait 1 2 .die) base) (took 0 0x10 0x202) = true ∧
    nextB (exec (.garrive 3 2 .core) ((ganged ⟨0, []⟩).modMe (fun c => { c with sb := [twoBytes] }))) (fun t => decide (t.me.wait = .drained)) = true := by
  decide +kernel
theorem witness_barrier_completes : (ganged ⟨0, [(0, 0)]⟩).barExp key = 1 ∧
    nextB (exec (.gbar 3 1 2 .core .add) (ganged ⟨0, [(0, 0)]⟩)) (fun t => decide (t.me.park = .bar key 0 true 3 0 (some 5) ∧ t.bar key = ⟨1, 0, [], 5⟩)) = true ∧
    nextB (exec (.garrive 3 2 .core) (ganged ⟨0, [(0, 0)]⟩)) (fun t => t.me.getG 3 == 0 && decide (t.bar key = ⟨1, 0, [], 0⟩)) = true := by decide +kernel
theorem witness_barrier_waits : nextB (exec (.gbar 3 1 2 .core .add) (ganged ⟨0, [(0, 0), (1, 1)]⟩)) (fun t =>
      decide (t.me.park = .bar key 0 true 3 0 none ∧ t.bar key = ⟨0, 1, [(0, .add, 5)], 0⟩)) = true ∧
    nextB (exec (.gwait 1 2 .core) ((ganged ⟨0, []⟩).modMe (fun c => c.setG 1 0))) (fun t => decide (t.me.park = .bar key 0 false 0 0 none)) = true ∧
    nextB (exec (.gwait 1 2 .core) { (ganged ⟨0, []⟩) with bars := [(key, ⟨6, 0, [], 0⟩)] }) (fun t => t.me.pc == 0x1004) = true := by decide +kernel
theorem witness_barrier_results : resOf [(.add, 3), (.add, 4)] = 7 ∧ resOf [(.add, 3), (.max, 4)] = 0 := by decide +kernel
theorem witness_barrier_release : nextB (exec (.barrierRelease 0) ((ganged ⟨0, []⟩).modMe (fun c => { c with
      st := .parked, park := .bar key 0 true 3 0 (some 8) }))) (fun t => t.me.getG 3 == 8 && t.me.pc == 0x1004) = true ∧
    nextB (exec (.barrierTimeout 0) { ((ganged ⟨1, []⟩).modMe (fun c => { c with st := .parked, park := .bar key 0 true 3 0 none })) with
      bars := [(key, ⟨0, 1, [(0, .add, 5)], 0⟩)], cycles := 16 }) (fun t => took 0 0x10 2 t && decide (t.bar key = ⟨0, 0, [], 0⟩)) = true := by
  decide +kernel
/-- Channel 3 of core 0 bound with a mode to context 0, and a message in it where one is given; g1 names it. -/
def chan (mode : Byte) (l : List ChMsg) : State := ((regs 3 0 0).putByte (.hbm 48) mode).modCore 0 (fun c => { c with chans := c.chans.set 3 l })
theorem witness_channel_receive : nextB (exec (.chrecv 1 3) (chan 1 [⟨6, 7, 8, 9⟩])) (fun t => t.me.getG 4 == 6 && t.me.getG 7 == 9 &&
      ((t.core 0).chans.get 3).isEmpty) = true ∧
    nextB (exec (.chwait 3) (chan 1 [])) (fun t => decide (t.me.park = .chan 3)) = true ∧
    nextB (exec (.chwait 3) (user (chan 3 []))) (took 0 0x04 (BitVec.ofNat 64 (wordChwait 3))) = true := by decide +kernel
theorem witness_channel_post : (chan 3 []).binding 0 3 = ⟨3, 0⟩ ∧ nextB (exec (.chpost 2 1) (chan 3 [])) (fun t =>
      ((t.core 0).chans.get 3).length == 1 && t.me.status.ipend == 0x10 && t.me.pc == 0x1004) = true ∧
    nextB (exec (.chpost 2 1) (chan 0 [])) (took 0 0x08 3) = true ∧
    nextB (exec (.chpost 2 1) (user (chan 3 []))) (took 0 0x04 (BitVec.ofNat 64 (wordChpost 2 1))) = true ∧
    nextB (exec (.chpost 2 1) (chan 1 (List.replicate 8 ⟨0, 0, 0, 0⟩))) (fun t => decide (t.me.wait = .post 2 1)) = true ∧
    nextB (exec (.chpostAccept 0) ((chan 1 []).modMe (fun c => { c with st := .waitUnit, wait := .post 2 1 }))) (fun t =>
      ((t.core 0).chans.get 3).length == 1) = true := by decide +kernel
/-- An arrival at core 0 from its stream engine. -/
def arrives (k : ArrKind) (s : State) : State := s.modCore 0 (fun c => { c with arrivals := [⟨k, 0, 0, 0, .stream 0, 7, 0, 0⟩] })
theorem witness_reply_counter : (let s := arrives (.cdec 0 9 0) ((ganged ⟨0, [(0, 0)]⟩).modMe (fun c => { c with cntC := 2 }))
    s.behindHeld ⟨.cdec 0 9 0, 0, 0, 0, .stream 0, 7, 0, 0⟩ = false ∧
    s.runOf (.stream 0) 7 = none ∧ nextB (exec (.cReplyArrival 0) s) (fun t => t.me.cntC == 1 && (t.core 0).arrivals.isEmpty) = true) ∧
    nextB (exec (.cReplyArrival 0) (arrives (.cdec 0 8 2) base)) (fun t => decide ((t.region 0).heldDec = [(8, 2, 1)])) = true := by decide +kernel
theorem witness_reply_channel : nextB (exec (.channelArrival 0) (arrives (.msg 3 1 2 3 4 true) (chan 1 []))) (fun t =>
      decide ((t.core 0).chans.get 3 = [⟨1, 2, 3, 4⟩])) = true ∧
    nextB (exec (.channelArrival 0) (arrives (.msg 3 1 2 3 4 true) (chan 1 (List.replicate 8 ⟨0, 0, 0, 0⟩)))) (fun t =>
      (t.engine (.stream 0)).held.length == 1) = true ∧
    nextB (exec (.heldReplyRetry (.stream 0)) ((chan 1 []).modEngine (.stream 0) (fun e => { e with held := [⟨.msg 3 1 2 3 4 true, 0, 0, 0, .stream 0, 7, 0, 0⟩] })))
      (fun t => decide ((t.core 0).chans.get 3 = [⟨1, 2, 3, 4⟩])) = true := by decide +kernel
theorem witness_reply_bytes : nextB (exec (.bcArrival 0) (arrives (.bytes 2 1) base)) (fun t => decide (((t.core 0).bc.get 2).value = -1) &&
      (t.core 0).arrivals.isEmpty) = true ∧
    nextB (exec (.bcArrival 0) (arrives (.bytes 2 5) base)) (fun t => decide ((t.core 0).arrivals.map (·.kind) = [.bytes 2 4])) = true := by decide +kernel
theorem witness_counters : nextB (exec (.cwait 0 15 15 15) base) (fun t => t.me.pc == 0x1004) = true ∧
    nextB (exec (.cwait 0 15 15 15) (me (fun c => { c with cntL := 1 }))) (fun t => decide (t.me.st = .parked)) = true ∧
    nextB (exec (.bcpost 1 2) (regs 0x1000 0 0)) (fun t => decide ((t.core 0).bc.get 2 = ⟨4096, true, false⟩)) = true ∧
    nextB (exec (.bcpost 1 2) (regs 0x8000000000 0 0)) (took 0 0x02 (BitVec.ofNat 64 (wordBcpost 1 2))) = true := by decide +kernel
/-- Byte counter 2 of core 0 with a value. -/
def counter (b : Bc) : State := base.modCore 0 (fun c => { c with bc := c.bc.set 2 b })
theorem witness_bcwait : nextB (exec (.bcwait 2) (counter ⟨0, true, false⟩)) (fun t => t.me.pc == 0x1004) = true ∧
    nextB (exec (.bcwait 2) (counter ⟨0, false, false⟩)) (fun t => decide (t.me.park = .bcwait 2)) = true ∧
    nextB (exec (.bcwait 2) (counter ⟨-1, true, true⟩)) (took 0 0x11 2) = true ∧
    nextB (exec (.bcread 3 2) (counter ⟨-1, true, false⟩)) (fun t => t.me.getG 3 == 0x1FFFFFFFFFF) = true := by decide +kernel

/-! Commands of the engines. -/

/-- A command block of zeros at 0x40 but for its first word. -/
def block (w0 : Byte) : State := (regs 0x40 0 0).putByte (.hbm 0x40) w0
theorem witness_send : nextB (exec (.sendStrmCopy 3 1) (block 0)) (fun t => t.me.getG 3 == 0 && t.me.cntC == 1 && (t.engine (.stream 0)).inbox.length == 1) = true ∧
    nextB (exec (.sendStrmCopy 3 1) (block 1)) (fun t => t.me.getG 3 == 0x8000000000000002) = true ∧
    nextB (exec (.sendStrmCopy 3 1) ((block 0).modMe (fun c => { c with cntC := 0xFFFF }))) (fun t => t.me.getG 3 == 0x8000000000000001) = true := by
  decide +kernel
theorem witness_send_traps : nextB (exec (.sendStrmCopy 3 1) (regs 0x41 0 0)) (took 0 0x05 0x41) = true ∧
    nextB (exec (.sendStrmCopy 3 1) (user (block 0))) (took 0 0x08 0x40) = true ∧
    nextB (exec (.sendTendCall 3 1 2) (block 0xC0)) (took 0 0x0F 0) = true := by decide +kernel
/-- A command of context 0 with these words. -/
def cmd (w0 w1 w2 w3 : Word) (cap : Option Grant) : Cmd :=
  ⟨(((Vector.replicate 8 0).set 0 w0).set 1 w1 |>.set 2 w2).set 3 w3, 0, true, 0, false, 0, false, 0, 0, 0, 0, 0, 0, 0, cap⟩
/-- That command in an inbox. -/
def sent (e : EngineId) (c : Cmd) : State := base.modEngine e (fun x => { x with inbox := [c] })
/-- Whether an engine may take a command. -/
def may (s : State) (e : EngineId) (op : Nat) (c : Cmd) : Bool := decide (s.nextCmd e op = some c) && s.linesFree e c &&
  !s.cmdHeld e c && decide (c.word 7 / 64 = 0)
theorem witness_may_take (s : State) (e : EngineId) (op : Nat) (c : Cmd) (h : may s e op c = true) : MayTake s e op c := by
  simpa [may, MayTake, and_assoc] using h
/-- Whether an engine takes a clean command of these words, and one with every bit set. -/
def takesBoth (i : Instr) (e : EngineId) (op : Nat) (w1 : Word) : Bool :=
  let c := cmd (BitVec.ofNat 64 op) w1 0 0 none
  let d := { c with w := (((Vector.replicate 8 (-1)).set 0 (BitVec.ofNat 64 op)).set 1 (w1 ||| 0xFFFFFFFFFFFFFF00)).set 7 0 }
  c.clean e && may (sent e c) e op c && !d.clean e && nextB (exec i (sent e c)) (fun t => (t.engine e).inbox.isEmpty) &&
    nextB (exec i (sent e d)) (fun t => (t.engine e).running.all (fun r => r.done && r.code == 2))
theorem witness_engines_take : takesBoth (.collBmax 0) (.coll 0) 0 0 = true ∧ takesBoth (.collIsum 0) (.coll 0) 1 0 = true ∧
    takesBoth (.collFsum 0) (.coll 0) 2 0 = true ∧ takesBoth (.collBcast 0) (.coll 0) 3 0 = true ∧ takesBoth (.collOr 0) (.coll 0) 4 0 = true := by
  decide +kernel

theorem witness_stream_take : takesBoth (.strmCopy 0) (.stream 0) 0 0 = true ∧ takesBoth (.strmGather 0) (.stream 0) 1 0 = true ∧
    takesBoth (.strmScatter 0) (.stream 0) 2 0 = true ∧ takesBoth (.strmFill 0) (.stream 0) 3 0 = true ∧
    takesBoth (.strmPlane 0) (.stream 0) 5 0 = true ∧ takesBoth (.strmUnz 0) (.decomp 0) 4 0 = true := by decide +kernel
theorem witness_weave_take : (base.quad 0).set = [] ∧ takesBoth (.weaveLoad 0) (.weave 0) 0 0 = true ∧
    takesBoth (.weaveRun 0) (.weave 0) 1 0 = true := by decide +kernel
theorem witness_tender_takes : takesBoth (.tendStorageRead 0) (.tend 0) 0 1 = true ∧ takesBoth (.tendStorageWrite 0) (.tend 0) 0 2 = true ∧
    takesBoth (.tendMap 0) (.tend 0) 0 3 = true ∧ takesBoth (.tendUnmap 0) (.tend 0) 0 4 = true ∧
    takesBoth (.tendPost 0) (.tend 0) 0 5 = true ∧ takesBoth (.tendTimer 0) (.tend 0) 0 6 = true ∧
    takesBoth (.tendDoorbell 0) (.tend 0) 0 7 = true ∧ takesBoth (.tendUnlistedService 0) (.tend 0) 0 0 = true ∧
    takesBoth (.tendUnlistedService 0) (.tend 0) 0 8 = true ∧ takesBoth (.lnchGang 0) (.lnch 0) 0 0 = true := by decide +kernel
theorem witness_unz_forward : ∃ c : Cmd, ((sent (.stream 0) c).core 0).stream.inbox = [c] ∧ c.op = 4 ∧
    ((sent (.stream 0) c).quad (quadOfCore 0)).decomp.inbox.length < 16 ∧ nextB (exec (.strmUnzForward 0) (sent (.stream 0) c)) (fun t =>
      (t.core 0).stream.inbox.isEmpty && (t.quad 0).decomp.inbox.length == 1) = true :=
  ⟨cmd 4 0 0 0 none, by decide +kernel⟩
/-- A command that has run, or goes on outside its engine. -/
def ran (c : Cmd) (wait : Bool) : Run := ⟨c, !wait, wait, 0, 0, 0, 0, none, 0, [], [], false, false, []⟩
/-- An engine with these running commands. -/
def runs (e : EngineId) (l : List Run) : State := base.modEngine e (fun x => { x with running := l })
theorem witness_engine_complete : let s := runs (.stream 0) [ran (cmd 0 0 0 0 none) false]
    (s.engine (.stream 0)).running[0]? = some (ran (cmd 0 0 0 0 none) false) ∧
    ((ran (cmd 0 0 0 0 none) false).reply (.stream 0)).isSome = true ∧ nextB (exec (.engineComplete (.stream 0) 0) s) (fun t =>
      (t.core 0).arrivals.map (·.kind) == [.cdec 0 0 0] && (t.engine (.stream 0)).running.all (·.replied)) = true := by decide +kernel
/-- STRM.FILL of 16 bytes at 0x302000. -/
def fill : Cmd := cmd 3 0x0807060504030201 0x302000 16 none
theorem witness_fill : let s := sent (.stream 0) fill; let w := fill.who (.stream 0)
    may s (.stream 0) 3 fill = true ∧ fill.clean (.stream 0) = true ∧ fill.dlog = false ∧ 0 < fill.word 3 ∧ fill.word 3 ≤ 2 ^ 48 ∧
    (match State.transAll w .store [(fill.word 2, fill.word 3)] s with
      | (u, .ok qs) => decide (enginePages w qs ≤ 1024) && (match u.transSpan w .store (fill.word 2) (fill.word 3) with
        | (_, .ok ps) => decide ((pieceLocs ps).length = fill.word 3 ∧ (pieceLocs ps).Nodup) && (pieceLocs ps).all (fun l => match l with
          | .hbm pa => decide (pa < 2 ^ 41) && !s.chanDown pa
          | _ => false)
        | _ => false)
      | _ => false) = true ∧
    nextB (exec (.strmFill 0) s) (fun t => t.reads (.hbm 0x302000) == 1 && t.reads (.hbm 0x30200F) == 8 && t.reads (.hbm 0x302010) == 0) = true := by
  decide +kernel
theorem witness_weave_run : may (sent (.weave 0) (cmd 1 0 8 0 none)) (.weave 0) 1 (cmd 1 0 8 0 none) = true ∧
    (cmd 1 0 8 0 none).clean (.weave 0) = true ∧ nextB (exec (.weaveRun 0) (sent (.weave 0) (cmd 1 0 8 0 none))) (fun t =>
      (t.quad 0).set == [(0, 0)]) = true := by decide +kernel
/-- The gathering set of quad 0 with n runs, the last naming table w. -/
def gather (n : Nat) (w : Word) : State :=
  ((runs (.weave 0) ((List.range n).map (fun j =>
      ran { cmd 1 (if j + 1 = n then w else 0) 8 0 none with seq := j, ctx := 4 * coreAtSlot 0 j } true))).modQuad 0 (fun x => { x with
    set := (List.range n).map (fun j => (j, j)) }))
theorem witness_weave_set : (((gather 4 1).quad 0).set.all (fun m => match (gather 4 1).runOf (.weave 0) m.2 with
      | some r => !r.done
      | none => false)) = true ∧ ((gather 4 0).quad 0).tables.get 0 = none ∧
    nextB (exec (.weaveRunStart 0) (gather 4 1)) (fun t => (t.engine (.weave 0)).running.all (fun r => r.done && r.code == 9)) = true ∧
    nextB (exec (.weaveRunStart 0) (gather 4 0)) (fun t => (t.engine (.weave 0)).running.all (fun r => r.done && r.code == 2)) = true ∧
    nextB (exec (.weaveGatherTimeout 0) { gather 2 0 with cycles := 2 ^ 20 }) (fun t =>
      (t.engine (.weave 0)).running.all (fun r => r.done && r.code == 10)) = true := by decide +kernel
/-- A collective instance of two ranks, one of them command 7 of region 0, and the waiting run of that command. -/
def together (l : List Contrib) (differs : Bool) (dl : Nat) : State :=
  { runs (.coll 0) [ran { cmd 4 0 0x302000 1 none with seq := 7 } true] with collInst := [⟨0, 0, 0, 2, 0, l, 0, dl, differs, []⟩] }
/-- Its contributions. -/
def both : List Contrib := [⟨0, 4, 1, 0, [1, 0, 0, 0, 0, 0, 0, 0], false, some (0, 7)⟩, ⟨1, 4, 1, 0, [2, 0, 0, 0, 0, 0, 0, 0], false, none⟩]
theorem witness_instance : ((together both true 0).collInst.map (fun x => decide (x.n ≤ x.contribs.length ∧ x.ranked ≠ []) &&
      ((together both true 0).collSites x).all (together both true 0).siteFree && (together both true 0).collMismatch x == some (2 ^ 18))) = [true] ∧
    nextB (exec (.collInstanceStart 0) (together both true 0)) (fun t => t.collInst.isEmpty &&
      (t.engine (.coll 0)).running.all (fun r => r.done && r.code == 9 && r.result == 0x40000)) = true ∧
    nextB (exec (.groupDeadlineExpire 0) { together (both.take 1) false 5 with cycles := 10000 }) (fun t => t.collInst.isEmpty &&
      (t.engine (.coll 0)).running.all (fun r => r.done && r.code == 10 && r.result == 1)) = true := by decide +kernel

/-- A capability: object 9 of region 0, of size 0x4000 at 0x10000, naming channel 3 of core 0. -/
def grant : Grant := ⟨9, ⟨.channel, 0, 3, .region 0, 0x10000, 0x4000, 0, 3, true, 512, 0, 0, 0, 0⟩, 3, 0⟩
/-- Tender call of service v by that capability. -/
def call (v w2 w3 : Word) : Cmd := cmd 0 v w2 w3 (some grant)
/-- Whether the tender may take a call, clean, and what the step after it shows. -/
def serves (i : Instr) (s : State) (c : Cmd) (p : State → Run → Bool) : Bool :=
  let t := s.modEngine (.tend 0) (fun x => { x with inbox := [c] })
  may t (.tend 0) 0 c && c.clean (.tend 0) && c.cap == some grant && nextB (exec i t) (fun u => (u.engine (.tend 0)).running.all (p u))
theorem witness_map : serves (.tendMap 0) base (call 3 0 0x1000) (fun t r => r.code == 0 && (t.region 0).maps.length == 1) = true ∧
    serves (.tendUnmap 0) (base.modRegion 0 (fun x => { x with maps := [⟨0x8000000000000, 4096, true, false, 0⟩] })) (call 4 0x8000000000000 0)
      (fun t r => r.code == 0 && (t.region 0).maps.isEmpty) = true ∧
    serves (.tendUnmap 0) base (call 4 0x8000000000000 0) (fun _ r => r.code == 2) = true := by decide +kernel
theorem witness_post : (grant.rec_.inModule = true ∧ ((chan 1 []).region (regionOfCore 0)).st = .assigned ∧
      (chan 1 []).incOf grant.rec_.agent = grant.inc ∧ ((chan 1 []).chan 0 3).length < 8 ∧ ((chan 1 []).binding 0 3).refuses true = false) ∧
    serves (.tendPost 0) (chan 1 []) (call 5 7 8) (fun t r => r.code == 0 && t.chan 0 3 == [⟨7, 8, 0, 0⟩]) = true ∧
    serves (.tendPost 0) base (call 5 7 8) (fun _ r => r.code == 14) = true := by decide +kernel
theorem witness_timer : serves (.tendTimer 0) base (call 6 100 10) (fun t r => r.code == 0 && t.timers == [⟨9, 100, 10, 0, 0⟩]) = true ∧
    serves (.tendTimer 0) { base with timers := [⟨9, 100, 10, 0, 0⟩] } (call 6 0 0) (fun t _ => t.timers.isEmpty) = true ∧
    serves (.tendDoorbell 0) base (call 7 1 0) (fun _ r => r.code == 0) = true ∧
    serves (.tendUnlistedService 0) base (call 8 0 0) (fun _ r => r.code == 2) = true := by decide +kernel
theorem witness_storage_complete : let s := runs (.tend 0) [ran (cmd 0 2 0 1 (some grant)) true]
    ((s.engine (.tend 0)).running.filter (fun z => z.wait && !z.done)).length = 1 ∧
    s.cmdHeld (.tend 0) (cmd 0 2 0 1 (some grant)) = false ∧
    nextB (exec (.tendStorageComplete 0 0 0 []) s) (fun t => (t.engine (.tend 0)).running.all (fun r => r.done && r.code == 0)) = true ∧
    nextB (exec (.tendStorageComplete 0 0 5 []) s) (fun t => (t.engine (.tend 0)).running.all (fun r => r.code == 13 && r.m2 == 5)) = true := by
  decide +kernel
theorem witness_timer_expires : let s := fun (p : Nat) => { base with timers := [⟨9, 1, p, 0, 77⟩], cycles := 1000 }
    (s 0).timers.find? (·.obj == 9) = some ⟨9, 1, 0, 0, 77⟩ ∧ 1 ≤ (s 0).time.toNat ∧
    nextB (exec (.tenderTimerExpire 9) (s 0)) (fun t => t.timers.isEmpty && t.me.status.ipend == 1 && t.me.ipendTval.get 0 == 77) = true ∧
    nextB (exec (.tenderTimerExpire 9) (s 1)) (fun t => t.timers.all (fun z => decide (t.time.toNat < z.expiry))) = true := by decide +kernel
theorem witness_launch : may (sent (.lnch 0) (cmd 0 0x1000 0 0 none)) (.lnch 0) 0 (cmd 0 0x1000 0 0 none) = true ∧
    (cmd 0 0x1000 0 0 none).clean (.lnch 0) = true ∧ base.gangSeq ≤ 65535 := by decide +kernel
theorem witness_launch_clear : nextB (exec (.launchVclearDone 0) (me (fun c => { c with vclear := true, v := c.v.set 3 9 }))) (fun t =>
    t.me.v.get 3 == 0 && !t.me.vclear) = true := by decide +kernel
/-- R102 to R106: a descriptor at 0x302000 of two members that start at 0x400 with VEN. -/
def described : State := ((sent (.lnch 0) (cmd 0 0x302000 0 0 none)).putByte (.hbm 0x302001) 4 |>.putByte (.hbm 0x302008) 2).putByte (.hbm 0x30200A) 4
theorem test_launch : nextB (exec (.lnchGang 0) described) (fun t => (t.engine (.lnch 0)).running.all (fun r => r.code == 0 && r.result != 0) &&
    [1, 4].all (fun j => decide ((t.ctx j).st = .ready) && (t.ctx j).pc == 0x400 && (t.ctx j).gsize == 2 && (t.ctx j).status.ven &&
      !(t.ctx j).status.mode) && (t.ctx 4).member == 1 && decide ((t.ctx 2).st = .free)) = true := by decide +kernel

/-! Coherence: the line of 0x300000. -/

/-- Context 0 misses a load of 8 bytes of the line, whose home entry is this one. -/
def misses (d : Option DirEnt) : State :=
  (me (fun c => { c with miss := .load 3 8 false 0x300000 (.hbm 0x300000) 0 false })).setDir 0x6000 d
/-- A home entry with pointers of these cores to the whole line. -/
def pointers (l : List Nat) : Option DirEnt := some ⟨false, l.length == 1, l.map (fun k => ⟨k, 1⟩), 0, 0, 0, 0⟩
/-- The marked quads and span of a coarse entry, or the pointers. -/
def entry (t : State) : Option (Bool × Bool × List DirPtr × BitVec 16 × BitVec 8) :=
  (t.dirOf 0x6000).map (fun d => (d.coarse, d.excl, d.ptrs, d.qv, d.span))
theorem witness_read_miss : lineOf 0x300000 = 0x6000 ∧ spanOf (0x300000 % 128) 8 = 1 ∧ homeDie 0x6000 = 0 ∧ (misses none).txnOf 0x6000 = none ∧
    nextB (exec (.dirReadMiss 0) (misses none)) (fun t => t.txns == [⟨0x6000, 0, 1, false, true, 0, 0, 0, []⟩]) = true ∧
    nextB (exec (.dirReadMiss 0) (misses (pointers []))) (fun t => entry t == some (false, true, [⟨0, 1⟩], 0, 0) &&
      ((t.core 0).line 0x6000).e == 1 && t.me.miss == .load 3 8 false 0x300000 (.hbm 0x300000) 0 true) = true ∧
    nextB (exec (.dirReadMiss 0) (misses (pointers [0]))) (fun t => entry t == some (false, true, [⟨0, 1⟩], 0, 0)) = true ∧
    nextB (exec (.dirReadMiss 0) (misses (pointers [1]))) (fun t => entry t == some (false, false, [⟨1, 1⟩, ⟨0, 1⟩], 0, 0) &&
      ((t.core 0).line 0x6000).s == 1) = true ∧
    nextB (exec (.dirReadMiss 0) (misses (pointers [1, 2, 4, 6]))) (fun t => entry t == some (true, false, [], 0xF, 1)) = true ∧
    nextB (exec (.dirReadMiss 0) (misses (some ⟨true, false, [], 2, 4, 0, 0⟩))) (fun t => entry t == some (true, false, [], 3, 5)) = true ∧
    nextB (exec (.dirReadMiss 0) (me (fun c => { c with miss := .load 3 8 false 0 (.fabric 0x8000000000000) 0 false }))) (fun t =>
      t.me.miss == .load 3 8 false 0 (.fabric 0x8000000000000) 0 true) = true := by decide +kernel
theorem witness_read_shares : nextB (exec (.dirReadMiss 0) ((misses (pointers [1])).modCore 1 (fun c => c.setLine 0x6000 ⟨1, 2, 0, 0⟩))) (fun t =>
    (t.core 1).line 0x6000 == ⟨0, 2, 1, 0⟩) = true := by decide +kernel
/-- Context 0 has a store to the line in its buffer. -/
def stores (d : Option DirEnt) : State :=
  (me (fun c => { c with sb := [⟨.write [1], [⟨0x300000, .hbm 0x300000, 1, false, 0, 12⟩], false, 0, false, 0⟩] })).setDir 0x6000 d
theorem witness_ownership : (stores none).wanted 0 = some (0x6000, 1) ∧ (stores (pointers [1])).targets 0x6000 1 0 = [1] ∧
    nextB (exec (.dirOwnershipRequest 0) (stores none)) (fun t => t.txns == [⟨0x6000, 0, 1, true, true, 0, 0, 0, []⟩]) = true ∧
    nextB (exec (.dirOwnershipRequest 0) (stores (pointers [1]))) (fun t => t.cohMsgs == [.inval 0x6000 1 1] &&
      t.txns == [⟨0x6000, 0, 1, true, false, 1, 0, 0, []⟩]) = true ∧
    nextB (exec (.dirOwnershipRequest 0) (stores (pointers []))) (fun t => ((t.core 0).line 0x6000).e == 1 &&
      entry t == some (false, true, [⟨0, 1⟩], 0, 0)) = true := by decide +kernel
/-- A read request of core 0 for the line waits for its probe, and core 1 has a dirty sector of it. -/
def probed : State := ({ misses none with txns := [⟨0x6000, 0, 1, false, true, 0, 0, 0, []⟩] }).modCore 1 (fun c => c.setLine 0x6000 ⟨1, 0, 0, 0⟩)
theorem witness_probe : nextB (exec (.probeAnswer 0x6000) probed) (fun t => t.txns.isEmpty &&
    entry t == some (false, false, [⟨1, 1⟩, ⟨0, 1⟩], 0, 0) && (t.core 1).line 0x6000 == ⟨0, 0, 1, 0⟩) = true := by decide +kernel
/-- Core 1 holds sectors 0 and 1 dirty and core 0 waits for n acknowledgements of its request for sector 0, with these messages. -/
def invalidated (n : Nat) (l : List CohMsg) : State :=
  ({ stores (pointers [1]) with txns := [⟨0x6000, 0, 1, true, false, n, 0, 0, []⟩], cohMsgs := l }).modCore 1 (fun c => c.setLine 0x6000 ⟨3, 0, 0, 0⟩)
/-- The same with core 1's notice for sector 0 on its way. -/
def noticed (n : Nat) (l : List CohMsg) : State := (invalidated n l).modCore 1 (fun c => { c with notices := [(0x6000, 1)] })
theorem witness_invalidation : nextB (exec (.invalidationReceive 1 0x6000) (invalidated 1 [.inval 0x6000 1 1])) (fun t =>
      t.cohMsgs == [.ack 0x6000 1] && (t.core 1).line 0x6000 == ⟨2, 0, 0, 0⟩) = true ∧
    nextB (exec (.invalidationReceive 1 0x6000) (noticed 1 [.inval 0x6000 1 1])) (fun t => t.cohMsgs == [.crossed 0x6000 1 1]) = true ∧
    nextB (exec (.invalidationAck 0x6000) (invalidated 2 [.ack 0x6000 1])) (fun t => t.txns.map (·.acked) == [1]) = true ∧
    nextB (exec (.invalidationAck 0x6000) (invalidated 1 [.ack 0x6000 1])) (fun t => t.txns.isEmpty && ((t.core 0).line 0x6000).e == 1) = true := by
  decide +kernel
theorem witness_eviction : nextB (exec (.cacheEviction 1 0x6000) (invalidated 1 [])) (fun t => (t.core 1).notices == [(0x6000, 3)] &&
      (t.core 1).line 0x6000 == ⟨0, 0, 0, 0⟩) = true ∧
    nextB (exec (.cacheEviction 1 0x6000) (base.modCore 1 (fun c => c.setLine 0x6000 ⟨0, 0, 1, 0⟩))) (fun t => (t.core 1).notices.isEmpty) = true ∧
    nextB (exec (.evictionNotice 1 0x6000) (noticed 1 [])) (fun t => entry t == some (false, false, [], 0, 0) && t.txns.length == 1) = true ∧
    nextB (exec (.evictionNotice 1 0x6000) (noticed 2 [.crossed 0x6000 1 1])) (fun t => t.txns.map (·.acked) == [1]) = true ∧
    nextB (exec (.evictionNotice 1 0x6000) (noticed 1 [.crossed 0x6000 1 1])) (fun t => t.txns.isEmpty && ((t.core 0).line 0x6000).e == 1) = true := by
  decide +kernel

/-! Regions, failures, management. -/

theorem witness_throttle : let hot := fw base
    nextB (exec (.regionThrottle 0 1251) base) (fun t => (t.region 0).throttled && (t.region 0).amps == 1251) = true ∧
    nextB (exec (.regionThrottleRelease 0 1250) (base.modRegion 0 (fun x => { x with throttled := true }))) (fun t =>
      !(t.region 0).throttled) = true ∧
    (hot.mstatus.fwready = true ∧ hot.fanovDown.getLsbD 0 = false) ∧
    nextB (exec (.tempHot 0 105) hot) (fun t => (t.region 0).limit == 1000 && (t.region 2).limit == 1250 && t.mstatus.hot && t.dtemp.get 0 == 105) = true ∧
    nextB (exec (.tempRecover 0 99) hot) (fun t => (t.region 1).limit == 1250 && t.dtemp.get 0 == 99) = true := by decide +kernel
theorem witness_trip : nextB (exec (.tempTrip 0 115) (fw base)) (fun t => decide ((t.region 0).st = .resetting) && (t.region 0).tripped &&
      t.mstatus.trip && (t.region 0).inc == 1) = true ∧
    nextB (exec (.tempRecover 0 94) (fw (base.modRegion 0 (fun x => { x with st := .resetting, tripped := true })))) (fun t =>
      decide ((t.region 0).st = .assigned) && !(t.region 0).tripped) = true := by decide +kernel
/-- No reply is on its way or held. -/
def still (s : State) : Prop := (∀ k, (s.core k).arrivals = []) ∧ (∀ e, (s.engine e).held = [])
theorem witness_still : still (fw base) := by
  refine ⟨fun k => rfl, fun e => ?_⟩
  have h : ∀ r, (fw base).region r = if r = 0 then { Region.reset with st := .assigned } else Region.reset := by
    intro r
    by_cases h : r = 0
    · subst h; rfl
    · simp [State.region, fw, base, SMap.get_cons, h]
  cases e <;> simp [State.engine, h] <;> first | rfl | (split <;> rfl)
/-- Regions 0 and 1 are one island, and contexts of each are members of gang 5. -/
def pair : State := fw { State.reset with
  regions := [(0, { Region.reset with st := .assigned, rta := 0x200000, boot := 0x4000 }),
    (1, { Region.reset with st := .assigned, rta := 0x1000200000 })]
  ctxs := [(0, { Ctx.reset with st := .ready, gang := 5, member := 7 }), (16, { Ctx.reset with st := .ready, gang := 5, member := 8 })] }
theorem witness_pair : (pair.region 0).st = .assigned ∧ (pair.region 0).chanFence = [] ∧ (pair.region 0).rta / 2 ^ 36 = 0 ∧
    (pair.region 0).rta % 2 ^ 21 = 0 ∧ regionOf 0 = 0 ∧ regionOf 16 = 1 := by decide +kernel
theorem witness_region_reset : nextB (exec (.regionReset 0) (pair.putByte (.hbm 0x200005) 9)) (fun t => decide ((t.region 0).st = .assigned) &&
    (t.region 0).inc == 1 && (t.ctx 0).tvec == 0x4000 && decide ((t.ctx 0).st = .free) && (t.ctx 0).ipendTval.get 3 == 0x100 &&
    t.reads (.hbm 0x200005) == 0 && (t.ctx 16).ipendTval.get 3 == 0x10200 && (t.ctx 16).ipendTval.get 5 == 7 &&
    (t.ctx 16).status.ipend == 0x28) = true := by decide +kernel
theorem witness_reset_requests : nextB (exec (.mgmtReset 0) pair) (fun t => (t.region 0).inc == 1 && t.mgmtOut == [.done]) = true ∧
    nextB (exec (.mgmtReset 0) { pair with fanovDown := 1 }) (fun t => (t.region 0).inc == 0 && t.mgmtOut.length == 1) = true ∧
    nextB (exec (.regionReset 0) (pair.modRegion 0 (fun x => { x with chanFence := [3] }))) (fun t =>
      decide ((t.region 0).st = .fenced) && (t.region 1).island == 1) = true := by decide +kernel
theorem witness_trap_loop : nextB (exec (.trapLoopReset 0) (fw (me (fun c => { c with trapRun := 16 })))) (fun t =>
    (t.region 0).inc == 1 && t.mgmtOut.length == 1) = true := by decide +kernel
/-- Channel 15 of core 0 bound, and an event that firmware holds for region 0. -/
def event : State := (base.putByte (.hbm 240) 5).modRegion 0 (fun x => { x with pending := [⟨1, 2, 3, 4⟩], lost := true })
theorem witness_event_retry : event.eventCore 0 = some 0 ∧ (event.binding 0 15).mode ≠ 0 ∧ (event.chan 0 15).length < 8 ∧
    nextB (exec (.regionEventRetry 0) event) (fun t => (t.region 0).pending.isEmpty && t.chan 0 15 == [⟨1, 2, 3, 0x80000004⟩]) = true := by
  decide +kernel
theorem witness_fence_core : (∀ j, j < 4 → (pair.ctx (4 + j)).st = .free ∧ (pair.ctx (4 + j)).cntL = 0) ∧
    nextB (exec (.mgmtFenceCore 1) pair) (fun t => (t.core 1).fenced && t.mstatus.replace && (t.ctx 0).ipendTval.get 3 == 0x10300 &&
      t.mgmtOut == [.done]) = true ∧
    nextB (exec (.mgmtFenceCore 0) pair) (fun t => !(t.core 0).fenced && t.mgmtOut.length == 1) = true ∧
    nextB (exec (.mgmtFenceCore 1) (pair.modCore 1 (fun c => { c with fenced := true }))) (fun t => t.mgmtOut.length == 1) = true := by decide +kernel
theorem witness_core_failure : nextB (exec (.coreFailure 0) (pair.modCore 0 (fun c => c.setLine 0x6000 ⟨2, 0, 0, 0⟩))) (fun t =>
    (t.core 0).fenced && t.poisoned (.hbm 0x300010) && !t.poisoned (.hbm 0x300000) && (t.ctx 16).ipendTval.get 5 == 7 &&
    decide ((t.ctx 0).st = .free)) = true := by decide +kernel
theorem witness_slice_failure : nextB (exec (.sliceFailure 0) pair) (fun t => decide ((t.region 0).st = .fenced) && (t.region 1).island == 1 &&
    (t.ctx 16).ipendTval.get 3 == 0x701 && t.mstatus.replace) = true := by decide +kernel
theorem witness_channel_failure : nextB (exec (.pseudoChannelFailure 0 (Config.pseudoChannel 0)) pair) (fun t => t.mstatus.replace) = true := by decide +kernel
theorem witness_boundary_failure : linkDies 0 = (0, 1) ∧ nextB (exec (.boundaryFailure 0) (pair.modRegion 0 (fun x => { x with
    windows := x.windows.set 2 (some ⟨true, 2, 0, 1, 0⟩) }))) (fun t => t.links == 1 && ((t.region 0).windows.get 2).isNone) = true := by decide +kernel
theorem witness_port_failure : nextB (exec (.fabricPortFailure 0) pair) (fun t => (t.region 0).portDown) = true ∧
    nextB (exec (.fanovSramError 0) pair) (fun t => t.fanovDown == 1) = true ∧
    nextB (exec (.fanovRestartDone 0) { pair with fanovDown := 1 }) (fun t => t.fanovDown == 0 && (t.ctx 0).ipendTval.get 3 == 0x800) = true := by
  decide +kernel
theorem witness_uncorrectable : nextB (exec (.uncorrectableError (.hbm 0x300000)) pair) (fun t => t.poisoned (.hbm 0x30000F) &&
      !t.poisoned (.hbm 0x300010) && (t.region 0).uncorr == 1) = true ∧
    nextB (exec (.uncorrectableError (.spad 0 16)) (pair.modCore 0 (fun c => { c with spsize := 1 }))) (fun t => t.poisoned (.spad 0 31)) = true ∧
    nextB (exec (.uncorrectableError (.panel 0 3)) pair) (fun t => (t.core 0).badPanel == 8) = true ∧
    nextB (exec (.uncorrectableError (.acc 0 3)) pair) (fun t => (t.core 0).badAcc == 8) = true := by decide +kernel
/-- Whether a request leaves one refusal and nothing else that the answers show. -/
def refusedB (i : Instr) (s : State) : Bool := nextB (exec i s) (fun t => match t.mgmtOut with | [.refused _] => true | _ => false)
theorem witness_power_on : nextB (exec (.modulePowerOn true) State.reset) (fun t => t.mstatus.fwready) = true ∧
    nextB (exec (.modulePowerOn false) State.reset) (fun t => t.mstatus.booterr) = true ∧
    nextB (exec (.mstatusWrite 8) { base with mstatus := ⟨false, true, false, true, true⟩ }) (fun t => !t.mstatus.hot && t.mstatus.trip) = true ∧
    nextB (exec (.endpointIdAssign 0 9) base) (fun t => (t.region 0).ep == 9) = true ∧
    nextB (exec (.hostEndpointReset 9) (fw base)) (fun t => SMap.get 0 t.hostInc 9 == 1) = true ∧
    nextB (exec (.mgmtObjectAssign 3 (some grant.rec_)) (fw base)) (fun t => SMap.get none t.objects 3 == some grant.rec_) = true := by decide +kernel
/-- Records of regions 0 and 1. -/
def records : List AssignRec := [⟨0, 0x40FF, 0x200000, [(0x300000, 9)]⟩, ⟨1, 0, 0x1000200000, []⟩]
theorem witness_assign : connected 0 [0, 1] = true ∧ nextB (exec (.mgmtAssign records) (fw State.reset)) (fun t => t.mgmtOut == [.done] &&
      decide ((t.region 0).st = .assigned ∧ (t.region 1).island = 0 ∧ (t.region 0).boot = 0x4000) && (t.ctx 0).tvec == 0x4000 &&
      (t.region 0).image == [(0x300000, 9)] && t.reads (.hbm 0x300000) == 0) = true ∧
    refusedB (.mgmtAssign records) { fw State.reset with fanovDown := 1 } = true ∧ refusedB (.mgmtAssign (records ++ records)) (fw State.reset) = true ∧
    refusedB (.mgmtAssign records) pair = true ∧ refusedB (.mgmtAssign []) (fw State.reset) = true := by decide +kernel
theorem witness_assign_connected : refusedB (.mgmtAssign [⟨0, 0, 0x200000, []⟩, ⟨3, 0, 0x3000200000, []⟩]) (fw State.reset) = true := by decide +kernel
theorem witness_resize : nextB (exec (.mgmtResize 0 records) (fw base)) (fun t => t.mgmtOut == [.done] && (t.region 1).island == 0 &&
      decide ((t.region 1).st = .assigned) && (t.region 0).inc == 0) = true ∧
    nextB (exec (.mgmtResize 0 (records.drop 1)) (fw (me (fun c => { c with st := .free })))) (fun t =>
      decide ((t.region 0).st = .free ∧ (t.region 1).st = .assigned ∧ (t.region 1).island = 1)) = true ∧
    refusedB (.mgmtResize 0 records) pair = true ∧ refusedB (.mgmtResize 0 (records.drop 1)) (fw base) = true ∧
    refusedB (.mgmtResize 0 []) (fw base) = true := by decide +kernel
/-- Regions 1 and 2, islands of their own, on the two sides of boundary 0. -/
def apart : State := fw { State.reset with regions := [(1, { Region.reset with st := .assigned, island := 1 }), (2, { Region.reset with st := .assigned, island := 2 })] }
theorem witness_windows : linkJoins 0 (apart.regionsOf 1) (apart.regionsOf 2) ≠ none ∧
    nextB (exec (.mgmtWindowGrant 1 3 true 2 0 4 0) apart) (fun t => t.mgmtOut == [.done] && (t.region 1).windows.get 3 == some ⟨true, 2, 0, 4, 0⟩) = true ∧
    nextB (exec (.mgmtWindowWithdraw 1 3) (apart.modRegion 1 (fun x => { x with windows := x.windows.set 3 (some ⟨true, 2, 0, 4, 0⟩) }))) (fun t =>
      t.mgmtOut == [.done] && ((t.region 1).windows.get 3).isNone) = true ∧
    refusedB (.mgmtWindowGrant 1 3 true 2 0 4 1) apart = true ∧ refusedB (.mgmtWindowWithdraw 1 3) apart = true := by decide +kernel
theorem witness_attest : nextB (exec (.mgmtAttest 5) (fw base)) (fun t => t.mgmtOut.length == 1) = true := by decide +kernel

/-- Object 1 is a memory grant of 0x1000 bytes at 0x300000 and object 2 channel 3 of core 0, which is bound for both modes. -/
def exported : State := { chan 1 [] with objects := [(1, some ⟨.grant, 0, 3, .region 0, 0x300000, 0x1000, 0, 0, true, 512, 0, 0, 0, 0⟩),
  (2, some ⟨.channel, 0, 4, .region 0, 0, 0, 0, 3, true, 512, 0, 0, 0, 0⟩)] }
/-- What region 1 sends in its present life to a region in its first. -/
def head : FabricHead := ⟨.region 1, 0, 0⟩
/-- Whether a request is dropped and counted. -/
def dropped (s : State) (i : Instr) : Bool := nextB (exec i s) (fun t => (t.region 0).route == 1)
theorem witness_inbound : nextB (exec (.fabricInbound 0 ⟨head, .read 1 0x300000 256⟩) exported) (fun t => (t.region 0).route == 0) = true ∧
    (exported.heldBack none (pieceLocs [⟨0x300FFF, .hbm 0x300FFF, 1, true, 0, 12⟩]) = false ∧ exported.firstPoison (.hbm 0x300008) 8 = none) ∧
    nextB (exec (.fabricInbound 0 ⟨head, .write 1 0x300FFF [9]⟩) exported) (fun t => t.reads (.hbm 0x300FFF) == 9) = true ∧
    nextB (exec (.fabricInbound 0 ⟨head, .atomic 1 0x300008 .add true 0x1FF⟩) exported) (fun t => t.bytesAt (.hbm 0x300008) 2 == [0xFF, 1]) = true ∧
    nextB (exec (.fabricInbound 0 ⟨head, .message 2 1 2 3 4 true⟩) exported) (fun t => t.chan 0 3 == [⟨1, 2, 3, 4⟩]) = true := by decide +kernel
theorem witness_inbound_dropped : [FabricReq.read 3 0x300000 1, .read 1 0x2FFFFF 1, .read 1 0x300000 257, .write 3 0x300000 [1], .write 2 0x300000 [1],
      .atomic 1 0x300004 .add true 1].all (fun q => dropped exported (.fabricInbound 0 ⟨head, q⟩)) = true ∧
    [FabricReq.read 1 0x300000 1, .write 1 0x300000 [1], .atomic 1 0x300000 .add true 1, .message 2 1 2 3 4 true].all (fun q => dropped State.reset (.fabricInbound 0 ⟨head, q⟩)) = true := by decide +kernel
/-- Group 0 of region 0 with the ranks 0 and 1: one entry each of this module's endpoint 5 and another module's 6. -/
def grouped : State := let s := base.modRegion 0 (fun x => { x with ep := 5 });
  [(0x4000, 5), (0x100000, 5), (0x100003, 0x40), (0x100008, 6), (0x10000B, 0x40)].foldl (fun t (x : Nat × Nat) => t.putByte (.hbm x.1) (BitVec.ofNat 8 x.2)) s
theorem witness_group : grouped.groupHome 0 0 = 0 ∧ grouped.group 0 0 = some ⟨2, 0, 0⟩ ∧ bitsOf (grouped.rankWord 0 ⟨2, 0, 0⟩ 1) 17 0 = 6 ∧
    nextB (exec (.fabricCollectiveArrival ⟨head, .contrib 0 0 0 1 4 1 0 [1, 2, 3, 4, 5, 6, 7, 8] false⟩) grouped) (fun t =>
      t.collInst.map (fun x => x.contribs.map (·.rank)) == [[1]] && SMap.get 0 t.collCnt (collKey 0 0 1) == 1) = true ∧
    nextB (exec (.fabricCollectiveArrival ⟨head, .podArrival 0 0 1 .add 7⟩) grouped) (fun t =>
      SMap.get 0 (t.pod (t.podKey 0 0)).counts 1 == 1) = true ∧
    nextB (exec (.fabricCollectiveArrival ⟨head, .digestDiffers 0 0 0⟩) (together [] false 0)) (fun t => t.collInst.all (·.differs)) = true := by decide +kernel

/-! Steps and forms. -/

theorem witness_step : let s := { base.withFetchWord 32 0x09290004 with cur := 0 }; let x := { s with sched := [.issue 0], turn := 0 }
    (s.region (regionOfCore 0)).st = .assigned ∧ (x.core 0).fenced = false ∧ x.select 0 = some 0 ∧ x.pendingCause 0 = none ∧
    nextB (step x) (fun t => t.me.pc == (s.ctx 0).pc + 4) = true := by decide +kernel
theorem witness_encode : wellFormed (.addi 9 9 4) = true ∧ encode (.addi 9 9 4) = some 0x09290004 := by decide +kernel
theorem witness_memory_form : base.memOk = true ∧ nextB (exec (.addi 9 9 4) base) State.memOk = true ∧ Memory.wf [(3, 1), (7, 2)] = true := by
  decide +kernel

/-! More forms: a state and operands for each further clause of a statement. -/

/-- Region 1 is an island of its own and grants a window on its first bytes to region 0, whose context 0 addresses it. -/
def windowed : State := (regs 0x1000000040 7 0).modRegion 1 (fun x => { x with st := .assigned, island := 1, windows := x.windows.set 0 (some ⟨true, 0, 0, 4, 0⟩) })
theorem witness_load_uncached : (let ps := [⟨0x1000000040, .hbm 0x1000000040, 8, true, 0, 12⟩]
    windowed.transSpan (windowed.whoCtx 0) .load 0x1000000040 8 = (windowed, .ok ps) ∧ windowed.me.uncachedTo ⟨0x1000000040, .hbm 0x1000000040, 8, true, 0, 12⟩ = false ∧
    windowed.tileFirst 0 true ps = false ∧
    nextB (exec (.ld 3 1 0) windowed) (fun t => decide (t.me.st = .waitMiss)) = true ∧
    nextB (exec (.ld 3 1 0) (windowed.modMe (fun c => { c with sb := [⟨.write [1], ps, true, 0, false, 0⟩] })))
      (fun t => decide (t.me.wait = .drained)) = true) := by decide +kernel
theorem witness_load_fabric : (let s := me (fun c => { c with st := .waitMiss, miss := .load 3 8 true 64 (.fabric 0x8000000000000) 0 true })
    s.engineOwns [.fabric 0x8000000000000] = false ∧ nextB (exec (.loadMissFill 0) s) (fun u => decide (u.me.st = .ready) && u.fresh == 1) = true) := by
  decide +kernel
theorem witness_load_closed : (let w := me (fun c => { c with st := .waitMiss, miss := .load 3 8 true 0x40 (.hbm 0x40) 0 true })
    let s := w.modRegion 0 (fun x => { x with st := .resetting })
    s.closed 0 (.hbm 0x40) = true ∧ nextB (exec (.loadMissFill 0) s) (took 0 0x08 0x40) = true) := by decide +kernel
theorem witness_misaligned_more : nextB (exec (.amoadd 3 1 2 true true true .die) (regs 0x44 0 0)) (took 0 0x05 0x44) = true ∧
    nextB (exec (.czero 1 2) (regs 0x40 8 0)) (took 0 0x05 0x40) = true := by decide +kernel
theorem witness_atomic_free : (let s := regs 0x40 5 7; let p : Piece := ⟨0x40, .hbm 0x40, 4, false, 0, 12⟩
    s.tileFirst 0 false [p] = false ∧ s.tileFirst 0 true [p] = false ∧ s.engineOwns (pieceLocs [p]) = false ∧ p.loc.plus 3 = .hbm 0x43) ∧
    buffered.engineOwns (pieceLocs twoBytes.pieces) = false ∧ buffered.tileEarlier 0 twoBytes = false ∧
    buffered.closed 0 (.hbm 0x40) = false := by decide +kernel
theorem witness_early_trap_first : (let s := { base with sched := [.event (.interruptTake 0 0)] }
    (base.ctx 0).st = .ready ∧ base.vqOf 0 = [] ∧ (base.ctx 0).pc.toNat % 4 = 0 ∧ (base.fetch 0).2 = .ok 0 ∧
    (decode (BitVec.ofNat 32 0)).toOption = none ∧ (match step s with | .fault (.notEnabled "INTERRUPT_TAKE") => true | _ => false) = true) := by
  decide +kernel

/-! Vector values. -/

/-- A queue entry with this format word. -/
def fentry (op : VOp) (mask : MaskSel) (fw : Word) : VEntry := { ventry op mask with fw := fw }
/-- FP32 throughout, and INT32 throughout. -/
def fpWord : Word := 0x12492
def intWord : Word := 0x05145
theorem witness_float_sound : (∀ o ∈ ([.fbin .add 3 1 (.vec 2), .fbin .min 3 1 .scal, .fun1 .rcp 3 1, .fun1 .neg 3 1, .fma true 3 1 2 4, .fclass 3 1,
      .cvt 3 1 2, .fcmp .lt 2 1 2, .nf 2 1, .fredsum 3 1 2, .fredmm true 3 1 2] : List VOp), (fentry o 0 fpWord).sound) ∧ faOf fpWord = .fp .fp32 ∧ fbOf fpWord = .fp .fp32 ∧ fdOf fpWord = .fp .fp32 ∧
    RMode.ofCode (fwRM fpWord) = some .rne := by unfold VEntry.sound; decide +kernel
theorem witness_int_sound : (∀ o ∈ ([.narrow 3 1, .ima 3 1 2 4, .rnd 3, .bcast 3, .ins 3, .vid 3, .iota 3 1, .mov 3 1, .slide true 3 1, .gather 3 1 2,
      .compress 3 1, .expand 3 1, .zip 3 1 2, .unzip 3 1 2, .msbf true 2 1, .mmovm 3 1, .mlog .xor 2 1 1] : List VOp), (fentry o 1 intWord).sound) ∧ faOf intWord = .int 32 true := by unfold VEntry.sound; decide +kernel
/-- The queue with v1 = 1.0, 2.0, 3.0, 4.0 and v2 = 0.5, 0.5, 0.5, 0.5 in FP32. -/
def floats (op : VOp) (fw : Word) : State := (vec.modMe (fun c => { c with
    v := (c.v.set 1 0x4080000040400000400000003F800000).set 2 0x3F0000003F0000003F0000003F000000 })).modCore 0
  (fun c => { c with vq := [fentry op 0 fw] })
theorem test_float_vectors : nextB (exec (.vectorExecute 0) (floats (.fbin .add 3 1 (.vec 2)) fpWord)) (fun t =>
      t.me.v.get 3 == 0x4090000040600000402000003FC00000 && t.me.fstat == 0) = true ∧
    nextB (exec (.vectorExecute 0) (floats (.fredsum 3 1 2) fpWord)) (fun t => (t.me.v.get 3).extractLsb' 0 32 == 0x41280000#32) = true ∧
    nextB (exec (.vectorExecute 0) (floats (.fcmp .lt 2 2 1) fpWord)) (fun t => t.me.m.get 2 == 15) = true ∧
    nextB (exec (.vectorExecute 0) (floats (.fun1 .neg 3 2) fpWord)) (fun t => (t.me.v.get 3).extractLsb' 96 32 == 0xBF000000#32) = true := by
  decide +kernel
/-- The entry of `vmem`, and its window there. -/
def mentry (store : Bool) (md : VMode) : VEntry := { ventry (.mem store md 3) 0 with
  vl := 1, es := if md = .planar 1 1 false then 1 else 3, x := 0x40, y := 0x40, last := false }
def mstate (store : Bool) (md : VMode) : State := (vmem (.mem store md 3)).modCore 0 (fun c => { c with vq := [mentry store md] })
def window (store : Bool) (md : VMode) : VWin := ((mstate store md).pinWindow (mentry store md)).2
/-- A form of every kind, but for the whole registers. -/
def forms : List VMode := [.unit, .strided, .indexed 3 2, .segment 1 3, .planar 1 1 false, .expand 1]
theorem witness_vector_stores : forms.all (fun md =>
      let s := mstate true md; let e := mentry true md; let v := window true md
      !s.vHeld e v.elems && v.fault.isNone && decide (e.limit ≤ v.upto) && v.elems.all (fun p =>
        (pieceLocs p.2).length == (e.byteAddrs (s.ctx 0) p.1).length && (pieceLocs p.2).all (fun l =>
          match l with | .hbm pa => decide (pa < 2 ^ 41) && !s.chanDown pa | _ => false)) && decide (pieceLocs (v.elems.flatMap (·.2))).Nodup &&
      nextB (exec (.vectorExecute 0) s) (fun t => (t.core 0).vq.isEmpty)) = true := by decide +kernel
theorem witness_vector_loads : (∀ md ∈ .faultFirst :: forms, (mentry false md).sound) ∧ (.faultFirst :: forms).all (fun md =>
      let e := mentry false md; let q := window false md
      let s := (mstate false md).modCore 0 (fun c => { c with vq := [{ e with win := some q }] })
      (q.poison 0 s).isNone && !s.engineOwns (pieceLocs (q.elems.flatMap (·.2))) && (q.shut 0 s).isNone && q.fault.isNone && decide (e.limit ≤ q.upto) && decide (q.elems.map (·.1)).Nodup &&
      q.elems.all (fun p => decide (p.1 < e.limit) && (pieceLocs p.2).length == (e.byteAddrs (s.ctx 0) p.1).length) &&
      nextB (exec (.vloadDataReturn 0) s) (fun t => (t.core 0).vq.isEmpty)) = true := by
  unfold VEntry.sound; decide +kernel
theorem witness_vector_fault : (let e := { mentry false .faultFirst with vl := 2, x := 0xFFFFFFFF8 }
    let s := (vmem (.mem false .faultFirst 3)).modCore 0 (fun c => { c with vq := [e] })
    let q := (s.pinWindow e).2
    q.fault = some (1, 0x08, 0x1000000000) ∧ e.lowest (s.ctx 0) = some 0 ∧
    nextB (exec (.vectorExecute 0) s) (fun t => nextB (exec (.vloadDataReturn 0) t) (fun u => u.me.vl == 1 && u.me.vffe == 4097)) = true) := by
  decide +kernel

/-! Tile values. -/

/-- One piece of HBM from address 0: its places differ and exist. -/
theorem one_piece (n : Nat) (h : n ≤ 2 ^ 41) : (pieceLocs [⟨0, .hbm 0, n, false, 0, 12⟩]).length = n ∧
    (pieceLocs [⟨0, .hbm 0, n, false, 0, 12⟩]).Nodup ∧ ∀ l ∈ pieceLocs [⟨0, .hbm 0, n, false, 0, 12⟩], l.exists_ ∧ ∃ pa, l = .hbm pa := by
  refine ⟨by simp [pieceLocs], ?_, ?_⟩
  · simp only [pieceLocs, List.flatMap_cons, List.flatMap_nil, List.append_nil]
    exact List.nodup_range.map (fun a b h => by simpa [Loc.plus] using h)
  · intro l hl
    simp only [pieceLocs, List.flatMap_cons, List.flatMap_nil, List.append_nil, List.mem_map, List.mem_range] at hl
    obtain ⟨i, hi, rfl⟩ := hl
    exact ⟨by simp [Loc.plus, Loc.exists_]; omega, i, by simp [Loc.plus]⟩
/-- A queued tile instruction over n bytes from address 0. -/
def tentry (op : TOp) (fw : Word) (n : Nat) : TEntry := { tzeroEntry with op := op, fw := fw, pieces := [⟨0, .hbm 0, n, false, 0, 12⟩] }
theorem witness_tile_forms : ([(.load 1 true false, 0x01, 8192), (.load 1 false true, 0, 512), (.load 1 true true, 0, 512), (.rstr (.acc 1), 0, 16448),
      (.rstr (.panel 1), 0, 8704), (.store 0 true, 0x01005, 4096), (.save (.acc 0), 0, 16448), (.save (.panel 1), 0, 8704)] : List (TOp × Word × Nat)).all
      (fun o => let e := tentry o.1 o.2.1 o.2.2; let c := (tiled e).core 0
        !(tiled e).engineOwns (pieceLocs e.pieces) && !(tiled e).heldBack (some 0) ((tiled e).dlogLocs e.who e.pieces ++ pieceLocs e.pieces) &&
        c.badAcc == 0 && c.badPanel == 0 && c.badBand == 0 && c.badCheck == 0 && (tiled e).me.sb.isEmpty && !e.dlog) = true ∧
    (faOf 0x01).isPanel = true ∧ (fdOf 0x01005).isI = true ∧ (fdOf 0x01005).width = 8 ∧ RMode.ofCode (fwRM 0x01005) = some .rne ∧
    tzeroEntry.cast = none := by decide +kernel
theorem witness_tile_slv : nextB (exec (.tileExecute 0) (tiled { tzeroEntry with op := .slv 0 3 1 1 false, lenLog := 14 })) (fun t =>
    (t.me.v.get 3).extractLsb' 0 64 == -1#64 && (t.me.v.get 4) == 0) = true := by decide +kernel
theorem witness_tile_band : nextB (exec (.tileExecute 0) ((tiled (tentry (.load 1 true true) 0 512)).putByte (.hbm 9) 7)) (fun t =>
    ((t.core 0).band.get 1).extractLsb' (8 * 65) 8 == 7#8) = true := by decide +kernel

/-! What commands do. -/

/-- Whether n bytes at an address are as `State.Warm` says. -/
def warmB (s : State) (w : Who) (k : Acc) (r : Nat × Nat) : Bool :=
  decide ((s.transSpan w k r.1 r.2).1 = s ∧ (s.places w k r.1 r.2).length = r.2) && (s.places w k r.1 r.2).all (fun l =>
    match l with | .hbm pa => decide (pa < 2 ^ 41) && !s.poisoned (.hbm pa) && !s.chanDown pa | _ => false)
theorem warm_of_warmB {s : State} {w : Who} {k : Acc} {r : Nat × Nat} (h : warmB s w k r = true) : s.Warm w k r := by
  simp only [warmB, Bool.and_eq_true, decide_eq_true_eq, List.all_eq_true] at h
  refine ⟨h.1.1, h.1.2, fun l hl => ?_⟩
  have := h.2 l hl
  cases l <;> simp_all [Loc.exists_]
/-- Whether a command meets every hypothesis of `Performs`. -/
def performs (s : State) (e : EngineId) (op : Nat) (c : Cmd) (rs all : List (Nat × Nat)) (ws : List (Nat × List Byte)) : Bool :=
  let w := c.who e
  may s e op c && c.clean e && !c.dlog && rs.all (fun r => warmB s w .load r && (s.places w .load r.1 r.2).all (fun l =>
      !((s.cellsOf w ws).map (·.1)).contains l)) && ws.all (fun x => warmB s w .store (x.1, x.2.length)) &&
    (match State.transAll w .store all s with | (t, .ok qs) => decide (t = s) && decide (enginePages w qs ≤ 1024) | _ => false)
theorem witness_performs {s : State} {e : EngineId} {op : Nat} {c : Cmd} {rs all : List (Nat × Nat)} {ws : List (Nat × List Byte)}
    (h : performs s e op c rs all ws = true) : MayTake s e op c ∧ c.clean e = true ∧ c.dlog = false ∧
      (∀ r ∈ rs, s.Warm (c.who e) .load r ∧ ∀ l ∈ s.places (c.who e) .load r.1 r.2, l ∉ (s.cellsOf (c.who e) ws).map (·.1)) ∧
      (∀ x ∈ ws, s.Warm (c.who e) .store (x.1, x.2.length)) ∧
      ∃ qs, State.transAll (c.who e) .store all s = (s, .ok qs) ∧ enginePages (c.who e) qs ≤ 1024 := by
  simp only [performs, Bool.and_eq_true, List.all_eq_true, Bool.not_eq_true'] at h
  obtain ⟨⟨⟨⟨⟨h1, h2⟩, h3⟩, h4⟩, h5⟩, h6⟩ := h
  refine ⟨witness_may_take s e op c h1, h2, h3, fun r hr => ⟨warm_of_warmB (h4 r hr).1, fun l hl hc => ?_⟩, fun x hx => warm_of_warmB (h5 x hx), ?_⟩
  · have := (h4 r hr).2 l hl
    simp_all
  · split at h6
    · rename_i t qs heq
      simp only [Bool.and_eq_true, decide_eq_true_eq] at h6
      exact ⟨qs, by rw [heq, h6.1], h6.2⟩
    · cases h6
/-- A command with seven words. -/
def long (w0 w1 w2 w3 w4 w5 w6 : Word) : Cmd :=
  { cmd w0 w1 w2 w3 none with w := ((((cmd w0 w1 w2 w3 none).w.set 4 w4).set 5 w5).set 6 w6) }
/-- It waits in the inbox, over a few bytes at 0x301000. -/
def primed (e : EngineId) (c : Cmd) (l : List Nat) : State :=
  (sent e c).putBytes (spread (.hbm 0x301000) (l.map (BitVec.ofNat 8)))
/-- Two rows of four bytes; one of four samples of 10 bits. -/
def copyRows : Cmd := long 0 0x301000 0x302000 0x0001000200000004 8 16 0
def copyWide : Cmd := long 0 0x301000 0x302000 0x0001000100000004 0 0 0x124
/-- Two elements of four bytes, by an index of bytes. -/
def gather2 : Cmd := long 1 0x301010 0x302000 0x301000 2 0x0000000400000004 0
def scatter2 : Cmd := long 2 0x301010 0x302000 0x301000 2 0x0000000400000004 0
/-- One plane of two elements from one plane. -/
def plane1 : Cmd := long 5 0x301000 0x302000 0 0 2 0
/-- A frame to be skipped. -/
def skips : Cmd := long 4 0x301000 0x302000 8 16 0 0
/-- The bytes 1 to 24 there, but 1 and 0 first; and a frame's head. -/
def data24 : List Nat := 1 :: 0 :: (List.range 22).map (· + 3)
def head8 : List Nat := [0x50, 0x2A, 0x4D, 0x18, 0, 0, 0, 0]
theorem witness_copy : (let e : EngineId := .stream 0
    performs (primed e copyRows data24) e 0 copyRows [(0x301000, 4), (0x301008, 4)] [(0x302000, 4), (0x302010, 4)]
      [(0x302000, [1, 0, 3, 4]), (0x302010, [9, 10, 11, 12])] = true ∧
    performs (primed e copyWide data24) e 0 copyWide [(0x301000, 5)] [(0x302000, 8)] [(0x302000, [1, 0, 192, 0, 64, 0, 20, 0])] = true ∧
    nextB (exec (.strmCopy 0) (primed e copyWide data24)) (fun t => t.bytesAt (.hbm 0x302000) 8 == [1, 0, 192, 0, 64, 0, 20, 0]) = true) := by
  decide +kernel
theorem witness_gather_scatter : (let e : EngineId := .stream 0
    performs (primed e gather2 data24) e 1 gather2 [(0x301000, 1), (0x301001, 1), (0x301014, 4), (0x301010, 4)] [(0x302000, 8)]
      [(0x302000, [21, 22, 23, 24]), (0x302004, [17, 18, 19, 20])] = true ∧
    nextB (exec (.strmGather 0) (primed e gather2 data24)) (fun t => t.bytesAt (.hbm 0x302000) 8 == [21, 22, 23, 24, 17, 18, 19, 20]) = true ∧
    performs (primed e scatter2 data24) e 2 scatter2 [(0x301000, 1), (0x301001, 1), (0x301010, 4), (0x301014, 4)] [(0x302004, 4), (0x302000, 4)]
      [(0x302004, [17, 18, 19, 20]), (0x302000, [21, 22, 23, 24])] = true) := by decide +kernel
theorem witness_plane_unz : performs (primed (.stream 0) plane1 data24) (.stream 0) 5 plane1 [(0x301000, 2)] [(0x302000, 2)]
      [(0x302000, [1, 0])] = true ∧
    nextB (exec (.strmPlane 0) (primed (.stream 0) plane1 data24)) (fun t => t.bytesAt (.hbm 0x302000) 3 == [1, 0, 0]) = true ∧
    performs (primed (.decomp 0) skips head8) (.decomp 0) 4 skips [(0x301000, 8)] [(0x302000, 16)] [(0x302000, [])] = true ∧
    nextB (exec (.strmUnz 0) (primed (.decomp 0) skips head8)) (fun t =>
      (t.engine (.decomp 0)).running.all (fun r => r.done && r.code == 0 && r.result == 0)) = true := by decide +kernel
/-- A frame header of one segment: window and content size 1, no dictionary, no checksum. -/
theorem witness_frame : (zstdHead [0x28, 0xB5, 0x2F, 0xFD, 0x20, 1, 9, 0]).map (fun h => (h.window, h.dict, h.fcs, h.check)) =
    some (1, 0, some 1, false) := by decide +kernel
/-- Weave command 7, done and delivered, whose status word goes to 0x302000. -/
def told : Run := { ran (cmd 0 0 0 0 none) false with
  code := 9, result := 3, replied := true, delivered := true, status := some ⟨0x302000, .hbm 0x302000, 8, false, 0, 12⟩ }
theorem witness_status_word : (let s := runs (.stream 0) [told]
    s.runOf (.stream 0) told.cmd.seq = some told ∧ s.statusHeld (.stream 0) told = false ∧
    nextB (exec (.engineComplete (.stream 0) 0) s) (fun t => (t.engine (.stream 0)).running.isEmpty &&
      t.bytesAt (.hbm 0x302000) 8 == [9, 0x80, 3, 0, 0, 0, 0, 0]) = true) := by decide +kernel
/-- An instance whose members agree, and the state with it. -/
def inst : CollInst := ⟨0, 0, 0, 2, (together both false 0).digest 0 0, both, 0, 0, false, []⟩
def agreed : State := { together both false 0 with collInst := [inst] }
theorem witness_instance_result : agreed.collMismatch inst = none ∧
    (agreed.collSites inst).all (fun m => agreed.siteFree m && !m.cmd.dlog && m.cmd.word 2 == 0x302000) = true ∧
    (agreed.collSites inst).map (fun m => m.cmd.who m.eng) = [⟨0, true, false, 0, 0, false, some (.coll 0)⟩] ∧
    agreed.transSpan ⟨0, true, false, 0, 0, false, some (.coll 0)⟩ .store 0x302000 8 = (agreed, .ok [⟨0x302000, .hbm 0x302000, 8, false, 0, 12⟩]) := by
  refine ⟨?_, by decide +kernel, by decide +kernel, by rfl⟩
  have h : agreed.digest 0 0 = inst.digest := congrArg Config.groupDigest (by decide +kernel)
  have r : inst.ranked = both := by decide +kernel
  simp only [State.collMismatch, r]
  simp [inst, both]
  simpa [inst, both] using h

/-! Directories of other dies, failures, management, the fabric. -/

/-- The line's home entry has a pointer of core 1 and names die 1, whose proxy has a pointer of core 64. -/
def abroad : State := (stores (some ⟨false, false, [⟨1, 1⟩], 0, 0, 2, 0⟩)).setProxy 0x6000 1 (some ⟨false, false, [⟨64, 1⟩], 0, 0, 0, 0⟩)
theorem witness_proxy : dieOfCore 64 = 1 ∧ abroad.homeTargets 0x6000 1 0 = [1] ∧ abroad.dieTargets 0x6000 = [1] ∧
    abroad.proxyTargets 0x6000 1 1 0 = [64] ∧ nextB (exec (.dirOwnershipRequest 0) abroad) (fun t =>
      t.cohMsgs == [.inval 0x6000 1 1, .inval 0x6000 64 1] && t.txns == [⟨0x6000, 0, 1, true, false, 2, 0, 0, [(1, 1)]⟩]) = true ∧
    nextB (exec (.invalidationAck 0x6000) { abroad with txns := [⟨0x6000, 0, 1, true, false, 2, 0, 0, [(1, 1)]⟩], cohMsgs := [.ack 0x6000 64] })
      (fun t => t.cohMsgs == [.dieAck 0x6000 1] && t.txns == [⟨0x6000, 0, 1, true, false, 2, 0, 0, []⟩]) = true ∧
    nextB (exec (.invalidationAck 0x6000) { abroad with txns := [⟨0x6000, 0, 1, true, false, 2, 1, 0, []⟩], cohMsgs := [.dieAck 0x6000 1] })
      (fun t => t.txns.isEmpty && ((t.core 0).line 0x6000).e == 1) = true := by decide +kernel
theorem witness_notice_in_part : nextB (exec (.evictionNotice 1 0x6000) (noticed 2 [.crossed 0x6000 1 3])) (fun t =>
    t.cohMsgs == [.crossed 0x6000 1 2] && t.txns.map (·.acked) == [0]) = true := by decide +kernel
theorem witness_more_errors : nextB (exec (.uncorrectableError (.band 0 3)) pair) (fun t => (t.core 0).badBand == 8) = true ∧
    nextB (exec (.uncorrectableError (.residue 0 3)) pair) (fun t => (t.core 0).badCheck == 8) = true ∧
    nextB (step { pair with sched := [.corrected 0] }) (fun t => (t.region 0).corr == 1) = true ∧
    nextB (exec (.sliceFailure 64) pair) (fun t => decide ((t.region (regionOfCore 64)).st = .fenced) && t.mstatus.replace) = true ∧
    (pair.region (regionOfCore 64)).st = .free ∧
    nextB (exec (.tempTrip 1 115) (fw base)) (fun t => decide ((t.region 2).st = .free) && (t.region 2).tripped) = true := by decide +kernel
theorem witness_registers_read : (let s : State := { (fw base).modRegion 0 (fun x => { x with corr := 0x10003, stale := 5, amps := 9 }) with dtemp := base.dtemp.set 0 77 }
    let reads := fun (off : Nat) (v : Word) => nextB (step { s with sched := [.mgmtRead off] }) (fun t => t.mgmtOut == [.value v])
    reads 0 2 = true ∧ reads 8 9 = true ∧ reads 0x108 0 = true ∧ reads 0x208 77 = true ∧ reads 0x288 0x500000003 = true ∧
    nextB (step { s with sched := [.mgmtCounts 0 true] }) (fun t => t.mgmtOut == [.counts 0x10003 0 5 0] && (t.region 0).corr == 0 &&
      (t.region 0).amps == 9) = true) := by decide +kernel
/-- Two arrivals of ranks of the pod at barrier 0 of the group. -/
noncomputable def podded : State := match exec (.fabricCollectiveArrival ⟨head, .podArrival 0 0 1 .add 7⟩) grouped with | .next t => t | _ => grouped
theorem witness_fabric_stale : nextB (exec (.fabricInbound 0 ⟨⟨.region 1, 1, 0⟩, .write 1 0x300000 [1]⟩) exported) (fun t =>
      (t.region 0).stale == 1 && (t.region 0).route == 0 && t.reads (.hbm 0x300000) == 0) = true ∧
    nextB (exec (.fabricCollectiveArrival ⟨⟨.region 1, 0, 1⟩, .podArrival 0 0 1 .add 7⟩) grouped) (fun t => (t.region 0).stale == 1) = true := by decide +kernel
theorem witness_pod_withdraw : (podded.pod (podded.podKey 0 0)).arrivals.length = 1 ∧
    nextB (exec (.fabricCollectiveArrival ⟨head, .podWithdraw 0 0 1⟩) podded) (fun t => (t.pod (t.podKey 0 0)).arrivals.isEmpty) = true ∧
    nextB (exec (.fabricCollectiveArrival ⟨head, .podDiffers 0 0⟩) grouped) (fun t => (t.pod (t.podKey 0 0)).differs) = true ∧
    nextB (exec (.fabricCollectiveArrival ⟨head, .contrib 0 0 0 1 4 1 0 [] true⟩) grouped) (fun t =>
      t.collInst.map (fun x => x.contribs.map (·.fail)) == [[true]]) = true := by decide +kernel
theorem witness_fabric_atomics : (let at_ := fun (op : Amo) => nextB (exec (.fabricInbound 0 ⟨head, .atomic 1 0x300004 op false 5⟩)
      (exported.putByte (.hbm 0x300004) 3))
    at_ .swap (fun t => t.bytesAt (.hbm 0x300004) 4 == [5, 0, 0, 0]) = true ∧ at_ .xor (fun t => t.bytesAt (.hbm 0x300004) 4 == [6, 0, 0, 0]) = true ∧
    at_ (.cas 3) (fun t => t.bytesAt (.hbm 0x300004) 4 == [5, 0, 0, 0]) = true ∧
    at_ (.cas 4) (fun t => t.bytesAt (.hbm 0x300004) 4 == [3, 0, 0, 0]) = true) := by decide +kernel

/-! Further forms and conditions: states that meet them. -/

theorem witness_step_slot : let s := { base.withFetchWord 32 0x09290004 with cur := 0, sched := [.issue 0], turn := 0 }
    let v := (({ s with sched := [], turn := 1 } : State).wakeCore 0).restart 0
    ({ s with sched := [] } : State).dueIn 0 0 = false ∧ (s.region (regionOfCore 0)).throttled = false ∧ v.select 0 = some 0 ∧
    v.pendingCause 0 = none ∧ ((v.charge 0 (some 0)).fetch 0).2 = .ok 0x09290004 ∧ nextB (step s) (fun t => t.me.getG 9 == 4) = true := by
  decide +kernel
theorem witness_fetch_memory : base.firstPoison (.hbm 0x1000) 4 = none ∧ (base.core 0).icache = [] ∧ (base.fetch 0).2 = .ok 0 := by decide +kernel
theorem witness_load_hits_more : loaded.tileFirst 0 true [⟨0x40, .hbm 0x40, 8, false, 0, 12⟩] = false ∧
    (loaded.view 0).poisonAt (some 0) (.hbm 0x40) 8 = none ∧
    ((loaded.setPoison (.hbm 0x40) true).view 0).poisonAt (some 0) (.hbm 0x40) 8 = some 0 := by decide +kernel
theorem witness_miss_counted : nextB (exec (.ld 3 1 0) ((regs 0x40 0 0).modMe (fun c => { c with pmsel := c.pmsel.set 2 0x206 })))
    (fun t => t.me.pmcnt.get 2 == 1 && t.me.pmcnt.get 0 == 0) = true := by decide +kernel
theorem witness_load_fill_poisoned : (let s := (me (fun c => { c with st := .waitMiss, miss := .load 3 8 true 0x40 (.hbm 0x40) 0 true })).setPoison (.hbm 0x43) true
    s.closed 0 (.hbm 0x40) = false ∧ (s.view 0).poisonAt (some 0) (.hbm 0x40) 8 = some 0 ∧
    nextB (exec (.loadMissFill 0) s) (took 0 0x09 0x40) = true) := by decide +kernel
theorem witness_span_performs : buffered.closedPiece 0 twoBytes.pieces = none ∧ buffered.heldBack (some 0) (buffered.dlogLocs (twoBytes.who 0) twoBytes.pieces ++
    pieceLocs twoBytes.pieces) = false := by decide +kernel
/-- Context 0 stores one byte at 0x300000 under DLOG, through an entry of the data TLB that has not been logged. -/
def logging : State := ((me (fun c => { c with
    dlog := true, ptOn := true, sb := [⟨.write [7], [⟨0x9000, .hbm 0x300000, 1, false, 3, 12⟩], false, 5, true, 0⟩] })).modRegion 0 (fun r =>
    { r with rta := 0x200000 })).modCore 0 (fun k => { k with dtlb := [{ page 0x9000 0 with id := 3 }] }) |>.l1Gain 0 0x6000 1 true
theorem witness_dirty_log : (let e : SbEntry := ⟨.write [7], [⟨0x9000, .hbm 0x300000, 1, false, 3, 12⟩], false, 5, true, 0⟩
    let w := e.who 0
    logging.owned 0 e = true ∧ logging.heldBack (some 0) (logging.dlogLocs w e.pieces ++ pieceLocs e.pieces) = false ∧
    logging.engineOwns (pieceLocs e.pieces) = false ∧ logging.tileEarlier 0 e = false ∧ logging.closedPiece 0 e.pieces = none ∧
    (logging.tlbOf w).any (fun x => x.id == 3 && x.logged) = false ∧ logging.hbmWord 0x202010 % 2 = 0 ∧
    ((pieceLocs e.pieces).zip [(7 : Byte)] ++ (spread (.hbm 0x280000) (leBytes 8 0x5000000000009) ++ spread (.hbm 0x202000) (leBytes 8 1)) |>.map (·.1)).Nodup ∧
    nextB (exec (.storePerform 0) logging) (fun t => t.hbmWord 0x280000 == 0x5000000000009 && t.hbmWord 0x202000 == 1 &&
      t.byteAt (.hbm 0x300000) == 7 && (t.region 0).dlogHead == 1 && (t.tlbOf w).all (·.logged) && t.me.sb.isEmpty) = true) := by decide +kernel
/-- Context 0 with a span operation over two lines from 0x300000 in its buffer; its core owns them and wrote 9 over 5 there. -/
def spans (k : SbKind) (n : Nat) : State := ({ (me (fun c => { c with
    sb := [⟨k, [⟨0x300000, .hbm 0x300000, n, false, 0, 12⟩], false, 0, false, 0⟩] })) with hbmOld := [(0x300000, some (5, false))] }.putByte (.hbm 0x300000) 9
  |>.l1Gain 0 0x6000 0xFF true |>.l1Gain 0 0x6001 0xFF true).setDir 0x6000 (some ⟨false, true, [⟨0, 0xFF⟩], 0, 0, 0, 0⟩)
  |>.setDir 0x6001 (some ⟨false, true, [⟨0, 0xFF⟩], 0, 0, 0, 0⟩) |>.modCore 0 (fun c => c.setLine 0x6000 ⟨0xFF, 0, 0, 0⟩)
  |>.modCore (homeCore 0x300000) (fun c => { c with rcache := [(0x6000, 1)] })
/-- Whether STORE_PERFORM may perform the first part of the buffered entry. -/
def performsB (s : State) : Bool := match (s.ctx 0).sb with
  | e :: _ => let p := e.split.1
    s.owned 0 p && !s.heldBack (some 0) (s.dlogLocs (e.who 0) p.pieces ++ pieceLocs p.pieces) && !s.engineOwns (pieceLocs p.pieces) &&
    !s.tileEarlier 0 p && (s.closedPiece 0 p.pieces).isNone && decide (pieceLocs p.pieces).Nodup && decide (e.dlog = false)
  | [] => false
theorem witness_czero : performsB (spans .zero 256) = true ∧ nextB (exec (.storePerform 0) (spans .zero 256)) (fun t =>
    t.byteAt (.hbm 0x300000) == 0 && t.me.sb.map (fun e => e.pieces.map (fun p => (p.va, p.len))) == [[(0x300080, 128)]] && performsB t) = true ∧
    performsB (spans .zero 16) = true ∧ nextB (exec (.storePerform 0) (spans .zero 16)) (fun t => t.me.sb.isEmpty) = true := by decide +kernel
theorem witness_cache_spans : hbmLines [⟨0x300000, .hbm 0x300000, 16, false, 0, 12⟩] = [(0x6000, 1)] ∧
    ((spans .flush 16).dirOf 0x6000).isSome = true ∧ ((spans .flush 16).core 0).notices = [] ∧ 0 ∈ (spans .flush 16).targets 0x6000 1 1024 ∧
    ([SbKind.clean, .flush, .inv].all (fun k => performsB (spans k 16))) = true ∧
    nextB (exec (.storePerform 0) (spans .clean 16)) (fun t => t.byteAt (.hbm 0x300000) == 9 && t.hbmOld.isEmpty &&
      decide ((t.core 0).line 0x6000 = ⟨0xFE, 1, 0, 0⟩)) = true ∧
    nextB (exec (.storePerform 0) (spans .flush 16)) (fun t => t.byteAt (.hbm 0x300000) == 9 && t.hbmOld.isEmpty &&
      decide ((t.core 0).line 0x6000 = ⟨0xFE, 0, 0, 0⟩) && (t.core (homeCore 0x300000)).rcache.all (fun x => x.2 == 0)) = true ∧
    nextB (exec (.storePerform 0) (spans .inv 16)) (fun t => t.byteAt (.hbm 0x300000) == 5 && t.hbmOld.isEmpty &&
      decide ((t.core 0).line 0x6000 = ⟨0xFE, 0, 0, 0⟩)) = true := by decide +kernel
theorem witness_atomics_clear : (regs 0x40 5 7).tileOpen 0 = false ∧ (regs 0x40 5 7).poisonAt (some 0) (.hbm 0x40) 4 = none ∧
    reserved.tileOpen 0 = false ∧ reserved.tileFirst 0 false [⟨0x40, .hbm 0x40, 4, false, 0, 12⟩] = false ∧
    reserved.heldBack (some 0) [.hbm 0x40] = false ∧ reserved.engineOwns [.hbm 0x40] = false := by decide +kernel
theorem witness_wfi_drains : (queued (.vid 1) 0).me.status.mode = true ∧ nextB (exec .wfi (queued (.vid 1) 0)) (fun t => decide (t.me.wait = .vecDone)) = true := by
  decide +kernel
theorem witness_tlbinv_engines : nextB (exec (.tlbinv 1 2 .die) (((regs 0x1000 5 0).modEngine (.weave 0) (fun e => { e with tlb := [page 0x1000 0] })).modEngine
      (.coll 0) (fun e => { e with tlb := [page 0x1000 1, page 0x2000 0] }))) (fun t =>
    (t.engine (.weave 0)).tlb.isEmpty && decide ((t.engine (.coll 0)).tlb = [{ page 0x1000 1 with removed := [0] }, page 0x2000 0])) = true ∧
    nextB (exec (.tlbinv 1 2 .core) ((regs 0x1000 5 0).modEngine (.weave 0) (fun e => { e with tlb := [page 0x1000 0] }))) (fun t =>
      (t.engine (.weave 0)).tlb.length == 1) = true := by decide +kernel
/-- The slice of core 0 has 15 scratchpad steps, and one line of its region cache is dirty. -/
def split15 : State := { ((regs 16 0 0).modCore 0 (fun c => { c with spsize := 15, rcache := [(0, 1)] })) with hbmOld := [(0, some (3, false))] }
theorem witness_split_frees : homeCore 0 = 0 ∧ (split15.core 0).rcache.length ≤ (16 - 15) * 4096 ∧ split15.dirOf 0 = none ∧
    nextB (exec (.mtsSpcfg 1) split15) (fun t => (t.core 0).rcache.isEmpty && t.hbmOld.isEmpty && (t.core 0).spsize == 16) = true := by decide +kernel
/-- Context 0 of gang 9 waits with member 3 at a barrier that member 1 has already reached, and decrements are held for member 1. -/
def joining : State := ({ (regs 1 0 0) with
    gangs := [(9, some ⟨0, [(3, 1)]⟩)], bars := [(key, ⟨0, 2, [], 0⟩)] }.modMe (fun c => { c with gang := 9, cntC := 1 })).modRegion 0 (fun r =>
    { r with heldDec := [(9, 1, 3), (9, 2, 1)] }) |>.modCtx 1 (fun c => { c with st := .parked, park := .bar key 0 true 3 0 none })
theorem witness_member_in_gang : nextB (exec (.mtsMember 1) joining) (fun t => (t.gangOf 9).reg.length == 2 && decide (t.bar key = ⟨1, 0, [], 0⟩) &&
    decide ((t.ctx 1).park = .bar key 0 true 3 0 (some 0)) && t.me.cntC == 0 && decide ((t.region 0).heldDec = [(9, 2, 1)]) && (t.region 0).stale == 2) = true := by
  decide +kernel
theorem witness_fetch_copies : (let copy := fun (bad : BitVec 8) => base.modCore 0 (fun c => { c with icache := [⟨0x20, 0, bad⟩] })
    ((copy 1).fetch 0).2 = .error 0x09 ∧ ((copy 0).fetch 0).2 = .ok 0 ∧ base.transSpan (base.whoCtx 0) .fetch 0x1000 4 = (base, .ok [⟨0x1000, .hbm 0x1000, 4, false, 0, 12⟩])) := by
  decide +kernel

/-- One enabled cell of a TMOP or TMOPS in a format, over these first elements of panels 2 and 3 with these first scale bytes. -/
def product (comp : Bool) (fw : Word) (km : BitVec 256) (sc : BitVec 4096) (x y : BitVec 65536) : State :=
  (tiled { tzeroEntry with op := .mop comp 1 2 3 1 1 km true false, fw := fw }).modCore 0 (fun c => { c with
    panel := (c.panel.set 2 x).set 3 y, band := (c.band.set 2 sc).set 3 sc })
/-- Whether its cell then holds a value. -/
noncomputable def productIs (comp : Bool) (fw : Word) (km : BitVec 256) (sc : BitVec 4096) (x y : BitVec 65536) (v : BitVec 32) : Bool :=
  mopFwOk fw && (RMode.ofCode (fwRM fw)).isSome && !(((product comp fw km sc x y).core 0).tstat.get 1).poison &&
    nextB (exec (.tileExecute 0) (product comp fw km sc x y)) (fun t => ((t.core 0).acc.get 1).extractLsb' 0 32 == v)
/-- R49, R228, R229: 1.0 · 2.0 in FP16; 0.5 · 0.5 in PB8 with both scales 2^0; 2 · 2 in FX4 of type 00 with both scales 2^0; the kept element of TMOPS. -/
theorem witness_tile_values : productIs false 0x12410 0 0 0x3C00 0x4000 0x40000000 = true ∧ productIs false 0x12820 0 127 0x40 0x40 0x3E800000 = true ∧
    productIs false 0x12618 0 31 2 2 0x40800000 = true ∧ productIs true 0x12410 2 0 0x3C00 (0x4000 <<< 1024) 0x40000000 = true := by decide +kernel
/-- A queued TMCAST of member 4 of a combined read, whose bytes are known or not. -/
def casting (d : Option (List (Byte × Bool))) : State := { (tiled { tentry (.load 1 false false) 0x01 8192 with cast := some 4 }) with
  casts := [⟨4, 9, 0, 0, 0, 0, 1, 0, d, [], []⟩] }
theorem witness_tile_cast : ((casting none).casts.find? (·.id == 4)).bind (·.data) = none ∧
    (pieceLocs (tentry (.load 1 false false) 0x01 8192).pieces).length = 8192 ∧ (List.replicate 8192 ((3 : Byte), false)).length = 8192 ∧
    nextB (exec (.tileExecute 0) (casting (some (List.replicate 8192 (3, false))))) (fun t => ((t.core 0).panel.get 1).extractLsb' 72 8 == 3#8) = true := by
  decide +kernel

/-- The two ranks of group 0 are context 0 of this module, in gang 9, and a context of another. -/
def podReady : State := grouped.modMe (fun c => { c with gang := 9 })
theorem witness_pod_arrival : podReady.digestsAgree 0 0 = true ∧ (podReady.pod (podReady.podKey 0 0)).differs = false ∧
    podReady.group 0 0 = some ⟨2, 0, 0⟩ ∧ podReady.rankOf 0 ⟨2, 0, 0⟩ 0 = some 0 ∧ podReady.tileMemory 0 = false ∧ podReady.me.sb = [] ∧
    podReady.group 0 1 = none ∧ podReady.rankOf 0 ⟨2, 0, 0⟩ 1 = none ∧
    nextB (exec (.gbar 3 1 1 .pod .add) podReady) (took 0 0x10 0x401) = true ∧
    nextB (exec (.gwait 1 0 .pod) podReady) (fun t => decide (t.me.st = .parked)) = true ∧
    nextB (exec (.gwait 1 0 .pod) { podReady with podBars := [(podReady.podKey 0 0, ⟨5, [], [], 0, false⟩)] }) (fun t => t.me.pc == 0x1004) = true := by
  refine ⟨?_, by decide +kernel⟩
  have h : podReady.groupRegions 0 0 = [0] := by decide +kernel
  simp [State.digestsAgree, h]
theorem witness_pod_timeout : (let s := { (podReady.modMe (fun c => { c with st := .parked, park := .bar (podReady.podKey 0 0) 0 true 3 0 none })) with
      gangs := [(9, some ⟨1, []⟩)], cycles := 16, podBars := [(podReady.podKey 0 0, ⟨0, [(0, 1)], [⟨0, 0, some 0, .add, 5⟩], 0, false⟩)] }
    nextB (exec (.barrierTimeout 0) s) (fun t => took 0 0x10 0x400 t && (t.pod (podReady.podKey 0 0)).arrivals.isEmpty &&
      SMap.get 0 (t.pod (podReady.podKey 0 0)).counts 0 == 0) = true) := by decide +kernel
theorem witness_channel_wakes : nextB (exec (.chpost 2 1) ((chan 3 []).modCtx 1 (fun c => { c with st := .parked, park := .chan 3 }))) (fun t =>
    decide ((t.ctx 1).st = .ready ∧ (t.ctx 1).wait = .again ∧ (t.ctx 1).park = .none)) = true := by decide +kernel

/-- Command 7 of the stream engine, whose reply is on its way and whose status word goes to a place or nowhere. -/
def answering (p : Option Piece) (s : State) : State :=
  s.modEngine (.stream 0) (fun e => { e with running := [{ ran { cmd 0 0 0 0 none with seq := 7 } false with replied := true, status := p }] })
/-- What is left of it. -/
def left (t : State) : List Bool := (t.engine (.stream 0)).running.map (·.delivered)
/-- An arrival at core 0 from its stream engine. -/
def arrival (k : ArrKind) : Arrival := ⟨k, 0, 0, 0, .stream 0, 7, 0, 0⟩
/-- The stream engine holds this reply. -/
def holds (k : ArrKind) (s : State) : State := s.modEngine (.stream 0) (fun e => { e with held := [arrival k] })
/-- A place for a status word. -/
def there : Piece := ⟨0x302000, .hbm 0x302000, 8, false, 0, 12⟩
theorem witness_reply_ends_command : (let s := arrives (.cdec 0 0 0) (answering none (me (fun c => { c with cntC := 2 })))
    (s.runOf (.stream 0) 7).isSome = true ∧ s.behindHeld (arrival (.cdec 0 0 0)) = false ∧
    nextB (exec (.cReplyArrival 0) s) (fun t => t.me.cntC == 1 && left t == []) = true) ∧
    nextB (exec (.cReplyArrival 0) (arrives (.cdec 0 0 0) (answering (some there) (me (fun c => { c with cntC := 2 }))))) (fun t => left t == [true]) = true ∧
    nextB (exec (.channelArrival 0) (arrives (.msg 3 1 2 3 4 true) (answering none (chan 1 [])))) (fun t => left t == [] && (t.chan 0 3).length == 1) = true ∧
    nextB (exec (.bcArrival 0) (arrives (.bytes 2 1) (answering (some there) base))) (fun t => left t == [true]) = true ∧
    nextB (exec (.bcArrival 0) (arrives (.bytes 2 2) (answering (some there) base))) (fun t => left t == [false]) = true := by decide +kernel
theorem witness_reply_stale : (let s := arrives (.cdec 0 0 0) (base.modRegion 0 (fun r => { r with inc := 1 }))
    (s.region 0).inc.toNat ≠ (arrival (.cdec 0 0 0)).inc ∧
    nextB (exec (.cReplyArrival 0) s) (fun t => (t.region 0).stale == 1 && t.me.cntC == 0 && (t.core 0).arrivals.isEmpty) = true ∧
    nextB (exec (.channelArrival 0) (arrives (.msg 3 1 2 3 4 true) s)) (fun t => (t.region 0).stale == 1 && (t.chan 0 3).isEmpty) = true ∧
    nextB (exec (.bcArrival 0) (arrives (.bytes 2 5) s)) (fun t => (t.region 0).stale == 1 && ((t.core 0).bc.get 2).value == 0) = true ∧
    nextB (exec (.heldReplyRetry (.stream 0)) (holds (.cdec 0 0 0) s)) (fun t => (t.region 0).stale == 1 && (t.engine (.stream 0)).held.isEmpty) = true) := by
  decide +kernel
theorem witness_reply_held : (let s := holds (.msg 3 0 0 0 0 true) (chan 1 []); let a := arrival (.msg 3 1 2 3 4 true)
    s.behindHeld a = true ∧ nextB (exec (.channelArrival 0) (arrives a.kind s)) (fun t => (t.engine (.stream 0)).held.length == 2 && (t.chan 0 3).isEmpty) = true) ∧
    (let s := holds (.cdec 0 9 0) base
     s.behindHeld (arrival (.cdec 0 9 0)) = true ∧ nextB (exec (.cReplyArrival 0) (arrives (.cdec 0 9 0) s)) (fun t => (t.engine (.stream 0)).held.length == 2) = true) ∧
    (let s := arrives (.cdec 0 300 2) (base.modRegion 0 (fun r => { r with heldDec := (List.range 256).map (fun g => (g + 1, 5, 1)) }))
     ((s.region 0).heldDec.any (fun e => e.1 == 300 && e.2.1 == 2)) = false ∧ 256 ≤ (s.region 0).heldDec.length ∧
     nextB (exec (.cReplyArrival 0) s) (fun t => (t.engine (.stream 0)).held.length == 1) = true) ∧
    nextB (exec (.cReplyArrival 0) (arrives (.cdec 0 8 2) (base.modRegion 0 (fun r => { r with heldDec := [(8, 2, 1)] })))) (fun t =>
      decide ((t.region 0).heldDec = [(8, 2, 2)])) = true := by decide +kernel
theorem witness_held_retry : nextB (exec (.heldReplyRetry (.stream 0)) (holds (.msg 3 1 2 3 4 true) (answering none (chan 1 [])))) (fun t =>
      t.chan 0 3 == [⟨1, 2, 3, 4⟩] && left t == [] && (t.engine (.stream 0)).held.isEmpty) = true ∧
    nextB (exec (.heldReplyRetry (.stream 0)) (holds (.cdec 0 0 0) (me (fun c => { c with cntC := 2 })))) (fun t => t.me.cntC == 1) = true := by decide +kernel
theorem witness_reply_refused : (chan 0 []).binding 0 3 = ⟨0, 0⟩ ∧ nextB (exec (.channelArrival 0) (arrives (.msg 3 1 2 3 4 true) (chan 0 []))) (fun t =>
    (t.region 0).route == 1 && (t.chan 0 3).isEmpty) = true := by decide +kernel
theorem witness_send_conditions : (block 0).engineOwns [.hbm 0x40] = false ∧
    (block 0).piecePoison (some 0) [⟨0x40, .hbm 0x40, 64, false, 0, 12⟩] = none := by decide +kernel

/-! What commands do, further. -/

/-- A table of one step for WEAVE.LOAD: four bytes of each row, rows 8 apart from 0 in slot 0, go to 0x10 on in slot 1. -/
def stepBytes : List Nat := [0x04, 4, 0, 0, 0, 0, 0, 0, 0x10, 0, 0, 0, 8, 0, 0, 0]
def stepRead : WStep := ⟨0, 1, 0, 4, 0, 0x10, 8⟩
def loadTable : Cmd := cmd 0 0x301000 1 0 none
theorem witness_weave_load : (let s := primed (.weave 0) loadTable stepBytes
    may s (.weave 0) 0 loadTable = true ∧ loadTable.clean (.weave 0) = true ∧ warmB s (loadTable.who (.weave 0)) .load (0x301000, 16) = true ∧
    (s.quad 0).set = [] ∧ nextB (exec (.weaveLoad 0) s) (fun t => (t.engine (.weave 0)).running.all (fun r => r.done && r.code == 0) &&
      decide ((t.quad 0).tables.get 1 = some [stepRead]) && decide ((t.quad 0).tables.get 0 = none)) = true) ∧
    (let s := primed (.weave 0) loadTable (0x34 :: stepBytes.drop 1)
     nextB (exec (.weaveLoad 0) s) (fun t => (t.engine (.weave 0)).running.all (fun r => r.done && r.code == 2) &&
       decide ((t.quad 0).tables.get 1 = none)) = true) := by decide +kernel
/-- The complete gathering set of eight rows by that table, with scratchpads or without. -/
def weaving (sp : BitVec 5) : State := (((gather 4 0).modQuad 0 (fun q => { q with tables := q.tables.set 0 (some [stepRead]) })).modCore
    (coreAtSlot 0 0) (fun c => { c with spsize := sp })).modCore (coreAtSlot 0 1) (fun c => { c with spsize := sp })
theorem witness_weave_rows : (stepRead.dstOf 0 8 1 0 = .spad (coreAtSlot 0 1) 0x14 ∧ stepRead.srcOf 0 1 0 = .spad (coreAtSlot 0 0) 8) ∧
    stepRead.soff + 7 * stepRead.stride + stepRead.len ≤ (weaving 1).spadSize (coreAtSlot 0 0) ∧
    stepRead.doff + 8 * stepRead.len ≤ (weaving 1).spadSize (coreAtSlot 0 1) ∧ ((weaving 1).poisoned (.spad 0 8)) = false ∧
    nextB (exec (.weaveRunStart 0) ((weaving 1).putByte (.spad (coreAtSlot 0 0) 8) 7)) (fun t =>
      let u := t.settleSends 0 (·.id == 4)
      (t.engine (.weave 0)).running.all (fun r => r.done && r.code == 0) && (t.quad 0).sends.length == 32 &&
      t.byteAt (.spad (coreAtSlot 0 1) 0x14) == 0 && u.byteAt (.spad (coreAtSlot 0 1) 0x14) == 7 && u.byteAt (.spad (coreAtSlot 0 1) 0x13) == 0) = true ∧
    ((weaving 1).quad 0).sends = [] ∧
    (weaving 0).spadSize (coreAtSlot 0 0) = 0 ∧ nextB (exec (.weaveRunStart 0) (weaving 0)) (fun t =>
      (t.engine (.weave 0)).running.all (fun r => r.done && r.code == 3)) = true := by decide +kernel
/-- A collective command of context 0, whose group has it at rank 0. -/
def collCmd (op n : Word) : Cmd := cmd op 0x301000 0x302000 n none
def collState (op n : Word) : State := (grouped.modEngine (.coll 0) (fun x => { x with inbox := [collCmd op n] })).putByte (.hbm 0x301000) 9
/-- Whether it joins an instance as its first member, with the bytes of one element. -/
def joins (i : Instr) (op : Nat) (first : List Byte) : Bool :=
  let w : Word := BitVec.ofNat 64 op
  let s := collState w 1
  let c := collCmd w 1
  let n := collSize op
  may s (.coll 0) op c && c.clean (.coll 0) && warmB s (c.who (.coll 0)) .load (0x301000, n) &&
    (match State.transAll (c.who (.coll 0)) .store [(0x302000, n)] s with | (t, .ok qs) => decide (t = s) && decide (enginePages (c.who (.coll 0)) qs ≤ 1024) | _ => false) &&
    s.group 0 0 == some ⟨2, 0, 0⟩ && s.rankOf 0 ⟨2, 0, 0⟩ 0 == some 0 &&
    nextB (exec i s) (fun t => t.collInst.map (fun x => (x.n, x.contribs.map (fun y => (y.rank, y.data)))) == [(2, [(0, first)])] &&
      (t.engine (.coll 0)).running.all (fun r => r.wait && !r.done) && SMap.get 0 t.collCnt (collKey 0 0 0) == 1) &&
    nextB (exec i (collState w 0)) (fun t => t.collInst.isEmpty && (t.engine (.coll 0)).running.all (fun r => r.done && r.code == 2))
theorem witness_coll_joins : joins (.collBmax 0) 0 [9] = true ∧ joins (.collIsum 0) 1 [9, 0, 0, 0] = true ∧
    joins (.collFsum 0) 2 [9, 0, 0, 0] = true ∧ joins (.collBcast 0) 3 [9] = true ∧
    joins (.collOr 0) 4 [9, 0, 0, 0, 0, 0, 0, 0] = true := by decide +kernel
/-- The instance of `agreed`, whose member of this module has its destination pinned, in a region that is assigned or reset. -/
def pinned (st : RegSt) : State := (agreed.modEngine (.coll 0) (fun x => { x with running := x.running.map (fun r => { r with dst := [there] }) })).modRegion 0
  (fun r => { r with st := st })
theorem witness_instance_written : (pinned .assigned).collMismatch inst = none ∧ ((pinned .assigned).collSites inst).all (fun m => (pinned .assigned).siteFree m && !m.cmd.dlog &&
      ((pinned .assigned).closedPiece (m.cmd.who m.eng).region m.dst).isNone && (pieceLocs m.dst).length == 8 && (pieceLocs m.dst).all (fun l => match l with
        | .hbm pa => decide (pa < 2 ^ 41) && !(pinned .assigned).chanDown pa | _ => false)) = true ∧
    ((pinned .assigned).collSites inst).length = 1 ∧ ((pinned .resetting).collSites inst).length = 1 ∧
    ((pinned .resetting).collSites inst).all (fun m => (pinned .resetting).siteFree m && ((pinned .resetting).closedPiece (m.cmd.who m.eng).region m.dst).isSome) = true := by
  refine ⟨?_, by decide +kernel⟩
  have h : (pinned .assigned).digest 0 0 = inst.digest := congrArg Config.groupDigest (by decide +kernel)
  have r : inst.ranked = both := by decide +kernel
  simp only [State.collMismatch, r]
  simp [inst, both]
  simpa [inst, both] using h

/-- A storage call of service v for n blocks at an address. -/
def disk (v n a : Word) : Cmd := { long 0 v 0 n a 0 0 with cap := some grant }
/-- Whether the tender takes it and what its run shows. -/
def starts (i : Instr) (s : State) (c : Cmd) (p : Run → Bool) : Bool :=
  let t := s.modEngine (.tend 0) (fun x => { x with inbox := [c] })
  may t (.tend 0) 0 c && c.clean (.tend 0) && nextB (exec i t) (fun u => (u.engine (.tend 0)).running.all p)
theorem witness_storage_starts : ([(Instr.tendStorageRead 0, (1 : Word)), (.tendStorageWrite 0, 2)] : List (Instr × Word)).all (fun x =>
      starts x.1 base (disk x.2 1 0x302000) (fun r => r.wait && !r.done) &&
      starts x.1 (base.modRegion 0 (fun r => { r with portDown := true })) (disk x.2 1 0x302000) (fun r => r.done && r.code == 13) &&
      starts x.1 base (disk x.2 0x20001 (2 ^ 60)) (fun r => r.done && r.code == 2)) = true ∧
    warmB base ((disk 2 1 0x302000).who (.tend 0)) .load (0x302000, 512) = true ∧
    State.transAll ((disk 1 1 0x302000).who (.tend 0)) .store [(0x302000, 512)] base = (base, .ok [⟨0x302000, .hbm 0x302000, 512, false, 0, 12⟩]) ∧
    enginePages ((disk 1 1 0x302000).who (.tend 0)) [⟨0x302000, .hbm 0x302000, 512, false, 0, 12⟩] ≤ 1024 := by decide +kernel
/-- A storage read of one block of 8 bytes that waits, its destination translated. -/
def reads8 (st : RegSt) : State := ((runs (.tend 0) [{ ran { disk 1 1 0x302000 with
    cap := some { grant with rec_ := { grant.rec_ with block := 8 } } } true with dst := [there] }])).modRegion 0 (fun r => { r with st := st })
theorem witness_storage_answer : (reads8 .assigned).writeHeld ((disk 1 1 0x302000).who (.tend 0)) [there] = false ∧
    nextB (exec (.tendStorageComplete 0 0 0 [1, 2, 3, 4, 5, 6, 7, 8]) (reads8 .assigned)) (fun t => t.byteAt (.hbm 0x302007) == 8 &&
      (t.engine (.tend 0)).running.all (fun r => r.done && r.code == 0 && r.result == 8)) = true ∧
    nextB (exec (.tendStorageComplete 0 0 5 [1, 2]) (reads8 .assigned)) (fun t => t.byteAt (.hbm 0x302001) == 2 &&
      (t.engine (.tend 0)).running.all (fun r => r.done && r.code == 13 && r.m2 == 5)) = true ∧
    nextB (exec (.tendStorageComplete 0 0 0 [1, 2, 3, 4, 5, 6, 7, 8]) (reads8 .resetting)) (fun t => t.byteAt (.hbm 0x302007) == 0 &&
      (t.engine (.tend 0)).running.all (fun r => r.done && r.code == 3)) = true := by decide +kernel

/-- The descriptor of `described` with other bytes of its count. -/
def describe (lo hi : Byte) : State := (described.putByte (.hbm 0x302008) lo).putByte (.hbm 0x302009) hi
theorem witness_launch_descriptor : (let c := cmd 0 0x302000 0 0 none
    warmB described (c.who (.lnch 0)) .load (0x302000, 64) = true ∧ may described (.lnch 0) 0 c = true ∧ described.gangSeq = 1 ∧
    described.ctxs.length < 65535 ∧ (∀ x ∈ described.ctxs, x.2.gang.toNat ≠ 1) ∧
    nextB (exec (.lnchGang 0) described) (fun t => t.gangSeq == 2 && decide (t.gangOf 1 = ⟨0, [(0, 1), (1, 4)]⟩) && (t.ctx 1).vclear && (t.ctx 4).gang == 1 &&
      (t.ctx 4).status.ie && !(t.ctx 4).status.ten) = true ∧
    nextB (exec (.lnchGang 0) (describe 0 4)) (fun t => (t.engine (.lnch 0)).running.all (fun r => r.done && r.code == 12)) = true ∧
    nextB (exec (.lnchGang 0) (describe 0 0)) (fun t => (t.engine (.lnch 0)).running.all (fun r => r.done && r.code == 2)) = true ∧
    nextB (exec (.lnchGang 0) (described.modCtx 1 (fun x => { x with vclear := true }))) (fun t => (t.ctx 1).vclear) = true) := by decide +kernel

/-! Directories, failures, management, the fabric, further. -/

/-- A pointer of core 1 to sector 1 only; core 0 keeps a shared copy of sector 2 or nothing. -/
def apartSectors (keep : BitVec 8) : State := (stores (some ⟨false, false, [⟨1, 2⟩], 0, 0, 0, 0⟩)).modCore 0 (fun c => c.setLine 0x6000 ⟨0, 0, keep, 0⟩)
theorem witness_write_row : (apartSectors 0).homeTargets 0x6000 1 0 = [] ∧ (apartSectors 0).dieTargets 0x6000 = [] ∧ dieOfCore 0 = homeDie 0x6000 ∧
    nextB (exec (.dirOwnershipRequest 0) (apartSectors 0)) (fun t => entry t == some (false, false, [⟨1, 2⟩, ⟨0, 1⟩], 0, 0) ||
      entry t == some (false, false, [⟨0, 1⟩, ⟨1, 2⟩], 0, 0)) = true ∧
    nextB (exec (.dirOwnershipRequest 0) (apartSectors 4)) (fun t => ((t.core 0).line 0x6000).s &&& ~~~1 == 0) = true := by decide +kernel
theorem witness_notice_row : (noticed 1 []).dirOf 0x6000 = some ⟨false, true, [⟨1, 1⟩], 0, 0, 0, 0⟩ ∧
    nextB (exec (.evictionNotice 1 0x6000) (noticed 1 [])) (fun t => entry t == some (false, false, [], 0, 0)) = true := by decide +kernel
theorem witness_heat : nextB (step { base with sched := [.heat 3 77] }) (fun t => t.dtemp.get 3 == 77 && t.dtemp.get 0 == 0) = true := by decide +kernel
theorem witness_slice_of_free : nextB (exec (.sliceFailure 64) pair) (fun t => (t.region 2).inc == 1 && (t.region 2).key == 1 &&
    decide ((t.region 0).inc = (pair.region 0).inc)) = true := by decide +kernel
theorem witness_boundary_conditions : (let w : Window := ⟨true, 2, 0, 1, 0⟩
    let s := pair.modRegion 0 (fun x => { x with windows := x.windows.set 2 (some w) })
    s.windowQuiet 0 w = true ∧ s.mstatus.fwready = true ∧ s.fanovDown = 0) := by decide +kernel
theorem witness_port_ends_calls : (let s := pair.modEngine (.tend 0) (fun x => { x with running := [ran (call 1 0 1) true, ran (call 7 1 0) false] })
    nextB (exec (.fabricPortFailure 0) s) (fun t => (t.engine (.tend 0)).running.map (fun r => (r.done, r.code)) == [(true, 13), (true, 0)]) = true) := by
  decide +kernel
/-- A byte of the sector of 0x300000 lies dirty in a cache. -/
def dirty : State := { pair with hbmOld := [(0x300003, some (1, false))] }
theorem witness_uncorrectable_dirty : nextB (exec (.uncorrectableError (.hbm 0x300000)) dirty) (fun t => !t.poisoned (.hbm 0x300003) &&
      decide (SMap.get none t.hbmOld 0x300003 = some (1, true)) && (t.region 0).uncorr == 1) = true ∧
    nextB (exec (.uncorrectableError (.hbm 0x300000)) (pair.modCore 0 (fun c => c.setLine 0x6000 ⟨0, 0, 3, 0⟩))) (fun t =>
      decide ((t.core 0).line 0x6000 = ⟨0, 0, 3, 1⟩) && t.poisoned (.hbm 0x300003)) = true ∧
    nextB (exec (.uncorrectableError (.hbm 0x300000)) (pair.setPoison (.hbm 0x300003) true)) (fun t => (t.region 0).uncorr == 1) = true := by decide +kernel
theorem witness_restarting : refusedB (.mgmtWindowGrant 1 3 true 2 0 4 0) { apart with fanovDown := 2 } = true ∧
    refusedB (.mgmtWindowWithdraw 1 3) { apart with fanovDown := 1 } = true ∧ refusedB (.mgmtAssign records) { fw State.reset with fanovDown := 1 } = true ∧
    connected State.reset.links ((fw State.reset).lasting [] [0, 3]) = false := by decide +kernel
theorem witness_message_refused : (let s := { exported with mem := [] }
    (s.binding 0 3).refuses true = true ∧ nextB (exec (.fabricInbound 0 ⟨head, .message 2 1 2 3 4 true⟩) s) (fun t => decide (t = s)) = true) ∧
    (let s := exported.modCore 0 (fun c => { c with chans := c.chans.set 3 (List.replicate 8 ⟨0, 0, 0, 0⟩) })
     8 ≤ (s.chan 0 3).length ∧ nextB (exec (.fabricInbound 0 ⟨head, .message 2 1 2 3 4 true⟩) s) (fun t => decide (t = s)) = true) ∧
    (exported.region 0).portDown = false := by decide +kernel
theorem witness_completion_closed : (let s := runs (.stream 0) [told]
    s.closed 0 (.hbm 0x302000) = false ∧ told.delivered = true ∧ SameBytesBut s s (.hbm 0x302000) 8) := by
  refine ⟨by decide +kernel, by decide +kernel, fun _ _ _ => rfl⟩
/-- A byte of slot 1 that a weave run has still to write from slot 0, and the run, which has still to report. -/
def sending : State := ((runs (.weave 0) [ran (cmd 1 1 8 0 none) false]).modQuad 0 (fun q => { q with
    sends := [⟨0, 0, 1, 0, .spad (coreAtSlot 0 1) 0, .spad 0 0, none, false, 5, 0, 0, none⟩] })).modCore (coreAtSlot 0 1) (fun c => { c with spsize := 1 })
theorem witness_weave_settles : ((sending.quad 0).sends.all (fun x => match x.dst, x.src with
      | .spad k o, .spad j b => decide (k < 1024 ∧ o < 2 ^ 23 ∧ j < 1024 ∧ b < 2 ^ 23) && !sending.closed 0 x.dst && sending.reads x.dst == x.was
      | _, _ => false)) = true ∧ ((sending.quad 0).sends.map (·.id)).Nodup ∧
    ((ran (cmd 1 1 8 0 none) false).reply (.weave 0)).isSome = true ∧ (ran (cmd 1 1 8 0 none) false).done = true ∧
    (sending.engine (.weave 0)).running[0]? = some (ran (cmd 1 1 8 0 none) false) ∧
    nextB (exec (.engineComplete (.weave 0) 0) sending) (fun t => t.reads (.spad (coreAtSlot 0 1) 0) == 5 && (t.quad 0).sends.isEmpty) = true := by decide +kernel

/-! The points of the third review. -/

theorem witness_tile_unowned : [Instr.tldq 1 1 2 0 false, .tldq 1 1 2 0 true, .tldqt 1 1 2 0 false, .tldqt 1 1 2 0 true, .tmcast 1 1 2 0 .die,
    .tsta 0 1 2 0 false, .tsave (.acc 0) 1, .trstr (.panel 1) 1].all (fun i => nextB (exec i base) (took 0 0x0B 0x1000)) = true := by decide +kernel
/-- R4, R356: HEAD's upper word and all but ALL-DIRTY of w2 read 0, whatever is stored there. -/
theorem test_dirty_log_control : (base.putByte (.hbm 0x2004) 0xFF).reads (.hbm 0x2004) = 0 ∧
    (base.putByte (.hbm 0x2010) 0xFF).reads (.hbm 0x2010) = 1 ∧ (base.putByte (.hbm 0x2008) 0xFF).reads (.hbm 0x2008) = 0xFF := by decide +kernel
theorem witness_stale_storage : nextB (exec (.tendStorageComplete 0 0 0 []) ((reads8 .assigned).modRegion 0 (fun r => { r with inc := 5 })))
    (fun t => (t.region 0).stale == 1 && (t.engine (.tend 0)).running.all (fun r => !r.done)) = true := by decide +kernel
/-- R406: a region already held is not reset again; one in no island is; and no cycle passes before firmware has reacted. -/
theorem witness_heat_waits : nextB (exec (.tempTrip 0 116) (fw (base.modRegion 0 (fun x => { x with st := .resetting, tripped := true })))) (fun t =>
      (t.region 0).inc == 0 && (t.region 1).inc == 1 && decide ((t.region 1).st = .free) && (t.region 1).tripped) = true ∧
    ({ fw base with dtemp := (fw base).dtemp.set 0 116 } : State).mayTick 1 = false ∧
    ({ fw base with dtemp := (fw base).dtemp.set 0 106 } : State).mayTick 1 = false ∧
    (fw (base.modRegion 0 (fun x => { x with st := .resetting, tripped := true }))).mayReset 0 = true := by decide +kernel
/-- Dies 0 and 8 are one island, dies 1 and 9 another, which region 0 grants windows over boundaries 0 and 7. -/
def twoLinks : State := fw { State.reset with
  regions := [(0, { Region.reset with
    st := .assigned, windows := Vector.ofFn (fun n => if n.val < 2 then some ⟨true, 2, 0, 1, 7 * n.val⟩ else none) })] ++
  [1, 2, 3, 16, 17, 18, 19].map (fun r => (r, { Region.reset with st := .assigned, island := if r % 16 < 2 then 0 else 2 })) }
/-- R384, R387: the first entry's link carries the window; when it is withdrawn, the other's does. -/
theorem test_window_routes : ((twoLinks.routeWindows 0).pathOver 0 true 0 32 1 && !(twoLinks.routeWindows 0).pathOver 7 true 0 32 9 &&
      (twoLinks.routeWindows 0).routesOver 2 15) = true ∧
    nextB (exec (.mgmtWindowWithdraw 0 0) (twoLinks.routeWindows 0)) (fun t => t.pathOver 7 true 0 32 1 && !t.pathOver 0 true 0 32 1) = true ∧
    refusedB (.mgmtWindowWithdraw 0 0) { twoLinks with fanovDown := 0x200 } = true := by decide +kernel
/-- R389, R400: the reset of a region in no island leaves the memory of others. -/
theorem test_free_slice_keeps_others : nextB (exec (.sliceFailure 64) (pair.putByte (.hbm 0x100) 9)) (fun t => t.reads (.hbm 0x100) == 9) = true := by
  decide +kernel
/-- Context 0 in K mode at VLD v8, [g1], with VSTART = 3. -/
noncomputable def resumes (f : Ctx → Ctx) : State :=
  (me (fun c => f { c with vstart := 3, vl := 8, status := { c.status with ven := true } })).putBytes
    (spread (.hbm 0x1000) (bytesOfWord ((encode (.vld 8 1 0)).getD 0)))
/-- R91, R97: a vector load that waited for a scalar result waits no longer once it can issue. -/
theorem test_wait_for_scalar_ends : ((resumes (fun c => { c with st := .waitReg, wait := .gReg })).endWait 0).me.st = .ready := by decide +kernel
/-- R250, R409: a pending interrupt comes before the resumed instruction has issued, and leaves VSTART. -/
theorem test_interrupt_before_resumption : nextB (exec (.interruptTake 0 0) (resumes (fun c => { c with
    status := { c.status with ie := true, ipend := 1 } }))) (fun t => took 0 0x40 0 t && t.me.epc == 0x1000 && t.me.vstart == 3) = true := by decide +kernel
/-- R334, R377: a CHPOST that waited for room counts as issued when it is accepted. -/
theorem test_chpost_counts : nextB (exec (.chpostAccept 0) ((chan 1 []).modMe (fun c => { c with
    st := .waitUnit, wait := .post 2 1, pmsel := c.pmsel.set 0 0x201 }))) (fun t => t.me.pmcnt.get 0 == 1) = true := by decide +kernel
/-- R377: an instruction that traps with an early cause has not issued. -/
theorem test_early_trap_not_counted : nextB (countIssue 0 (user (me (fun c => { c with pmsel := c.pmsel.set 0 0x301 }))).me
      (exec .eret (user (me (fun c => { c with pmsel := c.pmsel.set 0 0x301 }))))) (fun t => took 0 0x04 (BitVec.ofNat 64 wordEret) t && t.me.pmcnt.get 0 == 0) = true := by
  decide +kernel
/-- R398: a load of fabric space that waits when the port fails raises 0x08. -/
theorem test_fabric_load_closed : nextB (exec (.loadMissFill 0) ((me (fun c => { c with
    st := .waitMiss, miss := .load 3 8 true 64 (.fabric 0x8000000000000) 0 true })).modRegion 0 (fun r => { r with portDown := true })))
    (took 0 0x08 64) = true := by decide +kernel
/-- R226, R233: no context joins a combined read of its own. -/
theorem test_cast_not_own : (let s := (me (fun c => { c with gang := 9 }))
    let t := (s.joinCast .die 0 0 0).1
    let u := ({ t with cur := 1 } : State).modMe (fun c => { c with gang := 9 })
    (t.joinCast .die 0 0 0).2 = some 1 ∧ (u.joinCast .die 0 0 0).2 = some 0) := by
  decide +kernel
/-- R22: a region reset takes away what combined reads have read in its stack. -/
theorem test_reset_drops_casts : nextB (exec (.regionReset 0) { pair with casts := [⟨4, 9, 0, 0, 0, 0, 1, 0, none, [], [⟨0x300000, .hbm 0x300000, 8, false, 0, 12⟩]⟩] })
    (fun t => t.casts.isEmpty) = true := by decide +kernel
/-- R140, R298: a buffered CFLUSH gives a load nothing. -/
theorem test_flush_gives_nothing : (SbEntry.gives ⟨.flush, [⟨0x40, .hbm 0x40, 16, false, 0, 12⟩], false, 0, false, 0⟩ (.hbm 0x40)) = false ∧
    SbEntry.gives ⟨.zero, [⟨0x40, .hbm 0x40, 16, false, 0, 12⟩], false, 0, false, 0⟩ (.hbm 0x40) = true := by decide +kernel
/-- R235: a row that passes the top of the address space is translated from address 0 on first. -/
theorem test_foot_wraps : footOf [(2 ^ 64 - 4, 8), (16, 8)] = [(0, 4), (16, 8), (2 ^ 64 - 4, 4)] := by decide +kernel

/-! The points of the fourth review. -/

/-- Context 0 waits for the result of an atomic. -/
def inAtomic : State := (chan 3 []).modMe (fun c => { c with st := .waitMiss, miss := .atom 3 9 })
/-- R310, R338: what is accepted for a context in an atomic enters its event queue, where a second of its kind is folded; the context acts
on all of it at its boundary. -/
theorem test_event_queue : (((inAtomic.raiseInt 0 0x40 1).raiseInt 0 0x41 2).raiseInt 0 0x40 3).me.events = [⟨.cause 0, 3⟩, ⟨.cause 1, 2⟩] ∧
    (inAtomic.raiseInt 0 0x40 1).me.status.ipend = 0 ∧
    nextB (exec (.atomicComplete 0) (inAtomic.raiseInt 0 0x40 7)) (fun t => t.me.getG 3 == 9 && t.me.status.ipend == 1 && t.me.ipendTval.get 0 == 7 &&
      t.me.events.isEmpty) = true := by decide +kernel
theorem test_event_in_trap_entry : nextB (exec (.chpostAccept 1) ((chan 3 []).modCtx 0 (fun c => { c with st := .trapping 0 }) |>.modCtx 1 (fun c =>
      { (c.setG 1 3) with st := .waitUnit, wait := .post 2 1 }))) (fun t =>
      (t.ctx 1).pc == 4 && decide ((t.ctx 0).events = [⟨.chan 3, 0⟩, ⟨.cause 4, 3⟩]) && (t.ctx 0).status.ipend == 0) = true ∧
    nextB (exec (.trappingDone 0) { me (fun c => { c with st := .trapping 0, events := [⟨.cause 4, 3⟩] }) with cycles := 6 }) (fun t =>
      t.me.status.ipend == 0x10 && t.me.events.isEmpty && decide (t.me.st = .ready)) = true := by decide +kernel
theorem test_release_event : nextB (exec (.gbar 3 1 2 .core .add) (ganged ⟨0, [(0, 0)]⟩)) (fun t => decide (t.me.events = [⟨.barrier, 0⟩])) = true ∧
    nextB (exec (.barrierRelease 0) ((ganged ⟨0, []⟩).modMe (fun c => { c with
      st := .parked, park := .bar key 0 true 3 0 (some 8), events := [⟨.barrier, 0⟩] }))) (fun t => t.me.events.isEmpty && t.me.getG 3 == 8) = true := by
  decide +kernel
/-- R140, R298: behind a buffered CINV a load finds neither the earlier store nor the copy that the CINV is to remove. -/
theorem test_cinv_takes : (let sd : SbEntry := ⟨.write [1, 2], [⟨0x40, .hbm 0x40, 2, false, 0, 12⟩], false, 0, false, 0⟩
    let ci : SbEntry := ⟨.inv, [⟨0x40, .hbm 0x40, 16, false, 0, 12⟩], false, 0, false, 0⟩
    let buf := fun (l : List SbEntry) => loaded.modMe (fun c => { c with sb := l })
    (buf [sd, ci]).loadHits 0 (.hbm 0x40) 2 = false ∧ (buf [ci]).loadHits 0 (.hbm 0x48) 2 = false ∧ (buf [ci]).loadHits 0 (.hbm 0x50) 2 = true ∧
    (buf [ci, sd]).loadHits 0 (.hbm 0x40) 2 = true) := by decide +kernel
/-- R265, R277: LDACQ waits for a buffered store to the same uncached page, and for none to another. -/
theorem test_uncached_page : (let store := fun (pa : Nat) => (⟨.write [1], [⟨pa, .hbm pa, 1, true, 0, 12⟩], false, 0, false, 0⟩ : SbEntry)
    let s := fun (e : SbEntry) => windowed.modMe (fun c => { c with sb := [e] })
    nextB (exec (.ldacq 3 1 true .die) (s (store 0x1000000080))) (fun t => decide (t.me.wait = .overlap)) = true ∧
    nextB (exec (.ldacq 3 1 true .die) (s (store 0x1000003000))) (fun t => decide (t.me.st = .waitMiss)) = true) := by decide +kernel
/-- R279, R305: an SC whose own hold has ended waits for another context's. -/
theorem test_sc_late : (let s := { reserved with cycles := 200, resv := reserved.resv ++ [(homeCore 0x40, ⟨0, 1, true, 0x40, 0, 150, true⟩)] }
    s.holds 0 = false ∧ s.heldBack (some 0) [.hbm 0x40] = true ∧
    nextB (exec (.sc 3 1 2 true false .die) s) (fun t => decide (t.me.wait = .engineLine) && t.byteAt (.hbm 0x40) == 0) = true ∧
    nextB (exec (.sc 3 1 2 true false .die) { s with cycles := 300 }) (fun t => t.byteAt (.hbm 0x40) == 5) = true) := by decide +kernel
/-- R275: under ALL-DIRTY nothing is appended, and the entry's logged flag stays clear. -/
theorem test_all_dirty : (logging.putByte (.hbm 0x202010) 1).hbmWord 0x202010 % 2 = 1 ∧
    nextB (exec (.storePerform 0) (logging.putByte (.hbm 0x202010) 1)) (fun t => (t.region 0).dlogHead == 0 && t.hbmWord 0x280000 == 0 &&
      t.byteAt (.hbm 0x300000) == 7 && (t.core 0).dtlb.all (fun x => !x.logged) && t.me.sb.isEmpty) = true := by decide +kernel
/-- R242, R253: the kernel image is placed and CYCLE reads 0 whenever the region leaves reset. -/
theorem test_image_again : (let s := ({ pair with cycles := 50 } : State).modRegion 0 (fun x => { x with image := [(0x5000, 7)] })
    ((s.region 0).image.all (fun b => decide (b.1 / 2 ^ 36 = 0 ∧ b.1 < (s.region 0).rta)) && decide ((s.region 0).image.map (·.1)).Nodup) = true ∧
    (s.leaveReset 0).reads (.hbm 0x5000) = 7 ∧ ((s.leaveReset 0).core 3).cycle = 50 ∧ ((s.leaveReset 0).core 4).cycle = 0 ∧
    nextB (exec (.tempRecover 0 94) (s.modRegion 0 (fun x => { x with st := .resetting, tripped := true }))) (fun t =>
      t.reads (.hbm 0x5000) == 7 && (t.core 3).cycle == 50) = true) := by decide +kernel
/-- R319: the reset of the region of a rank in another module ends the group's instances with RESET. -/
theorem test_member_reset : (let s := { grouped.modEngine (.coll 0) (fun x => { x with running := [ran { cmd 4 0 0x302000 1 none with seq := 7 } true] }) with
      collInst := [⟨0, 0, 0, 2, 0, [⟨0, 4, 1, 0, [1, 0, 0, 0, 0, 0, 0, 0], false, some (0, 7)⟩], 0, 0, false, []⟩], collCnt := [(collKey 0 0 0, 1)] }
    (s.collInst.flatMap s.collSites).length = 1 ∧ nextB (exec (.fabricCollectiveArrival ⟨head, .memberReset 0 0 1⟩) s) (fun t =>
      t.collInst.isEmpty && t.collCnt.isEmpty && (t.engine (.coll 0)).running.all (fun r => r.done && r.code == 11)) = true) := by decide +kernel
/-- R319: an instance whose contributors' group entry names the region ends, whatever the region's own entry says. -/
theorem test_contributor_names_region : (let s := (grouped.modRegion 1 (fun x => { x with st := .assigned, ep := 6, rta := 0x1000200000 }))
    s.group 1 0 = none ∧ s.groupTouches 1 (s.groupHome 0 0) 0 = true) := by decide +kernel
/-- R235: one ascending pass translates the rows, whose pieces then stand in their order of transfer. -/
theorem test_tile_pieces : (let w := base.whoCtx 0; let rows := [(0x300080, 16), (0x300000, 16)]
    (match State.transEach w .load (footOf rows) base with
      | (t, .ok l) => decide (t = base) && decide ((rowPieces l rows).map (·.va) = [0x300080, 0x300000])
      | _ => false) = true ∧
    (match State.transEach w .load [(0x300000, 16), (0x1000000000, 16)] base with
      | (_, .error e) => decide (e = (0x08, 0x1000000000))
      | _ => false) = true) := by decide +kernel
/-- Move i of a run: its group, its slot, its places, the move that writes its source first, and the byte to be moved. -/
def move (i g n : Nat) (dst src : Loc) (via : Option Nat) (old : Byte) : Sent := ⟨i, g, n, 0, dst, src, via, false, old, 0, 0, none⟩
/-- R326: a byte of a later group comes through the move that writes its source. -/
theorem test_sent_via : (let a := move 0 0 1 (.spad 1 0) (.spad 0 0) none 5
    let l := [move 0 1 2 (.spad 2 0) (.spad 1 0) none 5, move 0 1 2 (.spad 2 1) (.spad 1 9) none 6]
    (linkMoves 0 [a] l).map (fun x => (x.id, x.via)) = [(1, some 0), (2, none)]) := by decide +kernel
/-- Slots 0 to 2 of quad 0 with a scratchpad each, and two moves: the second of a later group, from where the first goes. -/
def passing : State := ([0, 1, 8].foldl (fun s k => s.modCore k (fun c => { c with spsize := 1 })) base).modQuad 0 (fun q => { q with
  sends := [move 0 0 1 (.spad 1 0) (.spad 0 0) none 5, move 1 1 2 (.spad 8 0) (.spad 1 0) (some 0) 9] })
/-- R326: the second delivers the byte of the first, which delivers it too, and each is written once. -/
theorem test_sent_goes_on : coreAtSlot 0 2 = 8 ∧ (let t := passing.settleSends 0 (fun _ => true)
    t.byteAt (.spad 1 0) = 5 ∧ t.byteAt (.spad 8 0) = 5 ∧ (t.quad 0).sends = []) ∧
    (let t := passing.settleSends 0 (·.slot == 2)
     t.byteAt (.spad 1 0) = 0 ∧ t.byteAt (.spad 8 0) = 5 ∧ (t.quad 0).sends.map (·.val) = [some 5]) := by decide +kernel
/-- R314, R415: at a part count the bytes counted, and those of earlier groups, are settled, and the others stay open. -/
theorem test_part_count : (let x := fun (i g n o : Nat) => move i g n (.spad n o) (.spad 0 o) none 5
    let all := [x 0 0 2 0, x 1 1 1 0, x 2 1 1 1, x 3 1 2 1]
    all.map (countedSends all 1 1) = [true, true, false, false] ∧ all.map (countedSends all 1 0) = [true, true, true, false]) := by decide +kernel
/-- Two bytes that a run has still to write, its command counting them. -/
def counting : State := (runs (.weave 0) [ran { cmd 1 1 8 0 none with ctx := 4 * coreAtSlot 0 1, w := (cmd 1 1 8 0 none).w.set 7 2 } false]).modQuad 0 (fun q =>
  { q with sends := [move 0 0 1 (.spad (coreAtSlot 0 1) 0) (.spad 0 0) none 0, move 1 0 1 (.spad (coreAtSlot 0 1) 1) (.spad 0 1) none 0] })
theorem test_count_settles : (let a : Arrival := ⟨.bytes 2 2, 0, 0, 0, .weave 0, 0, 0, 0⟩
    let s := counting.modCore 0 (fun c => { c with arrivals := [a] })
    (s.runOf (.weave 0) 0).isSome = true ∧ nextB (exec (.bcArrival 0) s) (fun t => (t.quad 0).sends.map (·.dst) == [.spad (coreAtSlot 0 1) 1] && decide (((t.core 0).bc.get 2).value = -1)) = true ∧
    nextB (exec (.engineComplete (.weave 0) 0) counting) (fun t => (t.quad 0).sends.length == 2) = true ∧
    nextB (exec (.engineComplete (.weave 0) 0) (counting.modEngine (.weave 0) (fun e => { e with running := [ran (cmd 1 1 8 0 none) false] })))
      (fun t => (t.quad 0).sends.isEmpty) = true) := by decide +kernel
/-- R317: of a command behind one that has not completed, a byte before the last is counted, and the last waits. -/
theorem test_last_count_waits : (let a := fun (left : Nat) => (⟨.bytes 2 left, 0, 0, 0, .weave 0, 1, 0, 0⟩ : Arrival)
    let s := fun (left : Nat) => (runs (.weave 0) [ran (cmd 1 1 8 0 none) false, ran { cmd 1 1 8 0 none with seq := 1 } false]).modCore 0 (fun c =>
      { c with arrivals := [a left] })
    ((s 1).engine (.weave 0)).running.takeWhile (·.cmd.seq != 1) = [ran (cmd 1 1 8 0 none) false] ∧
    nextB (exec (.bcArrival 0) (s 2)) (fun t => (t.core 0).arrivals == [a 1]) = true ∧ nextB (exec (.bcArrival 0) (s 1)) (fun _ => true) = false ∧
    nextB (exec (.engineComplete (.weave 0) 1) (s 1)) (fun _ => true) = false) := by decide +kernel
/-- R338: a completed byte count is an event of the core's contexts. -/
theorem test_bytes_event : nextB (exec (.bcArrival 0) ((arrives (.bytes 2 1) ((counter ⟨1, true, false⟩).modCtx 1 (fun c => { c with st := .trapping 0 }))).modCtx 2 (fun c =>
      { c with st := .parked, park := .bcwait 2 }))) (fun t => decide ((t.ctx 1).events = [⟨.bytes 2, 0⟩]) && decide ((t.ctx 2).st = .ready)) = true := by
  decide +kernel

/-! The points of the fifth review. -/

/-- R223, R229: a TMOP on a poisoned accumulator performs nothing, though its panel and the accumulator hold errors not yet found. -/
theorem test_poison_first : (let s := (tiled { tzeroEntry with op := .mop false 1 2 3 1 1 0 true false, fw := 0x5041 }).modCore 0 (fun c =>
      { c with badAcc := 2, badPanel := 4, badCheck := 2, tstat := c.tstat.set 1 ⟨false, false, false, false, true⟩ })
    nextB (exec (.tileExecute 0) s) (fun t => (t.core 0).acc.get 1 == (s.core 0).acc.get 1 && (t.core 0).badAcc == 2 && (t.core 0).errPend) = true) := by
  decide +kernel
/-- R217: an unmasked TMOP, or a TZERO, of a context that does not own the unit, whatever VEN holds. -/
theorem witness_unmasked_unowned : base.me.status.ven = false ∧ nextB (exec (.tmop 1 2 3 0 0 0 false false) base) (took 0 0x0B 0x1000) = true ∧
    nextB (exec (.tzero 1 false) base) (took 0 0x0B 0x1000) = true := by decide +kernel
/-- R362: the home of a page that a store may not write is known all the same. -/
theorem test_home_of_denied : (let s := (me (fun c => { c with ptOn := true })).modCore 0 (fun k => { k with
      dtlb := [{ page 0x9000 0 with asid := 0, frame := 0x300000, w := false }] })
    s.home (s.whoCtx 0) .store 0x9008 = some (.hbm 0x300008)) := by decide +kernel
/-- R393: what a failed core held dirty is poisoned in HBM, with no older value left. -/
theorem test_failure_leaves_no_old : nextB (exec (.coreFailure 0) { (pair.modCore 0 (fun c => c.setLine 0x6000 ⟨2, 0, 0, 0⟩)) with
      hbmOld := [(0x300000, some (4, false)), (0x300010, some (5, false))] }) (fun t =>
      t.poisoned (.hbm 0x300010) && t.hbmOld == [(0x300000, some (4, false))]) = true ∧
    nextB (exec (.mgmtFenceCore 1) { (pair.modCore 1 (fun c => c.setLine 0x6000 ⟨2, 0, 0, 0⟩)) with
      hbmOld := [(0x300010, some (5, false))] }) (fun t => !t.poisoned (.hbm 0x300010) && t.hbmOld == []) = true := by decide +kernel
/-- R402: requests that no object of the region grants. -/
theorem witness_inbound_ungranted : (let deny := fun (o : ObjectRec) (q : FabricReq) => dropped { exported with objects := [(1, some o)] } (.fabricInbound 0 ⟨head, q⟩)
    let g : ObjectRec := ⟨.grant, 0, 3, .region 0, 0x300000, 0x1000, 0, 0, true, 512, 0, 0, 0, 0⟩
    deny g (.write 1 0x301000 [1]) && deny g (.write 1 0x300000 (List.replicate 257 1)) && deny g (.write 1 0x300000 []) &&
      deny { g with rights := 2 } (.read 1 0x300000 8) && deny { g with rights := 1 } (.write 1 0x300000 [1]) &&
      deny { g with rights := 2 } (.atomic 1 0x300000 .add true 1) && deny g (.atomic 1 0x301000 .add true 1) &&
      deny { g with agent := .region 1 } (.read 1 0x300000 8) && deny g (.message 1 1 2 3 4 true) &&
      deny { g with kind := .channel, rights := 0 } (.message 1 1 2 3 4 true)) = true := by decide +kernel
/-- R328: the RESULT of a MISMATCH: the lowest rank that disagrees, and a root beyond the group. -/
theorem witness_mismatch_results : ((both.map (·.rank)) = [0, 1]) ∧
    (let s := fun (l : List Contrib) => { together l false 0 with collInst := [⟨0, 0, 0, 2, (together l false 0).digest 0 0, l, 0, 0, false, []⟩] }
     ∀ l v, (l, v) ∈ [([⟨0, 4, 1, 0, [], false, some (0, 7)⟩, ⟨1, 4, 2, 0, [], false, none⟩], 1), ([⟨0, 4, 1, 0, [], true, some (0, 7)⟩, ⟨1, 4, 1, 0, [], false, none⟩], 0),
        ([⟨0, 3, 1, 2, [], false, some (0, 7)⟩, ⟨1, 3, 1, 2, [], false, none⟩], 2)] → ∀ x ∈ (s l).collInst, (s l).collMismatch x = some v) := by
  refine ⟨by decide +kernel, ?_⟩
  intro s l v h x hx
  simp only [List.mem_cons, Prod.mk.injEq, List.not_mem_nil, or_false] at h
  obtain rfl := List.mem_singleton.1 hx
  have hd : (s l).digest 0 0 = (together l false 0).digest 0 0 := rfl
  rcases h with ⟨rfl, rfl⟩ | ⟨rfl, rfl⟩ | ⟨rfl, rfl⟩ <;> simp [State.collMismatch, hd, CollInst.ranked, List.range_succ]
/-- R239, R245: what U mode may read and write of the system registers. -/
theorem witness_user_registers : nextB (exec (.mfs 4 0x060) (user { base with cycles := 33 })) (fun t => t.me.getG 4 == 2) = true ∧
    nextB (exec (.mfs 4 0x021) (user base)) (took 0 0x0B 0x1000) = true ∧
    nextB (exec (.mfs 4 0x021) (user ((me (fun c => { c with status := { c.status with ten := true } })).modCore 0 (fun k => { k with owned := true }))))
      (fun t => t.me.pc == 0x1004) = true ∧
    nextB (exec (.mts 1 0x019) (user (regs 7 0 0))) (fun t => t.me.stripbase == 7 && t.me.status.vd) = true ∧
    nextB (exec (.mts 1 0x060) (user (regs 7 0 0))) (took 0 0x04 (BitVec.ofNat 64 (wordMts 1 0x060))) = true ∧
    nextB (exec (.mts 1 0x017) (regs 7 0 0)) (took 0 0x01 (BitVec.ofNat 64 (wordMts 1 0x017))) = true := by decide +kernel
/-- R373, R374: a byte that takes a posted counter below 0 sets OVER and wakes its waiter; R363: a reply that finds C = 0 is stale. -/
theorem witness_over_and_stale : nextB (exec (.bcArrival 0) ((arrives (.bytes 2 1) (counter ⟨0, true, false⟩)).modCtx 2 (fun c =>
      { c with st := .parked, park := .bcwait 2 }))) (fun t => ((t.core 0).bc.get 2).ovf && decide ((t.ctx 2).st = .ready)) = true ∧
    nextB (exec (.cReplyArrival 0) (arrives (.cdec 0 0 0) base)) (fun t => t.me.cntC == 0 && (t.region 0).stale == 1 && (t.core 0).arrivals.isEmpty) = true ∧
    nextB (exec (.heldReplyRetry (.stream 0)) (holds (.cdec 0 0 0) base)) (fun t => (t.region 0).stale == 1) = true := by decide +kernel
/-- R370: an interrupt withdraws a parked GBAR, but none is taken once its release has been accepted. -/
theorem witness_interrupt_withdraws : (let s := fun (r : Option Word) => { ((ganged ⟨0, []⟩).modMe (fun c => { c with
      st := .parked, park := .bar key 0 true 3 0 r, status := { c.status with ie := true, ipend := 1 } })) with
      bars := [(key, ⟨0, 1, [(0, .add, 5)], 0⟩)] }
    nextB (exec (.interruptTake 0 0) (s none)) (fun t => took 0 0x40 0 t && t.me.epc == 0x1000 && decide (t.bar key = ⟨0, 0, [], 0⟩)) = true ∧
    nextB (exec (.interruptTake 0 0) (s (some 5))) (fun _ => true) = false) := by decide +kernel

/-- R253, R343: the record of an image with a byte outside the table area, which is placed, and one inside, which is not. -/
theorem witness_image : (let a : AssignRec := ⟨0, 0x40FF, 0x200000, [(0x400000, 7), (0x300000, 9)]⟩
    let x : Region := { Region.reset with rta := a.rta, image := a.image }
    a.rta / 2 ^ 36 = 0 ∧ a.rta % 2 ^ 21 = 0 ∧ (∀ b ∈ a.image, b.1 / 2 ^ 36 = 0) ∧ (a.image.map (·.1)).Nodup ∧ x.placed = [(0x400000, 7)]) := by decide
end Sys2Proof.Tests
end

section
/-! PROOF. O7: what every unit of the machine holds at power-on. -/

namespace Sys2Proof.Machine

@[simp] theorem State.reset_ctx (c : Nat) : State.reset.ctx c = Ctx.reset := rfl
@[simp] theorem State.reset_core (k : Nat) : State.reset.core k = Core.reset := rfl
@[simp] theorem State.reset_region (r : Nat) : State.reset.region r = Region.reset := rfl

/-- Every general register of a context reads 0 after reset, g0 among them (R118). -/
@[simp] theorem Ctx.reset_getG (r : GReg) : Ctx.reset.getG r = 0 := by
  unfold Ctx.getG
  split
  · rfl
  · exact Vector.get_replicate 32 0 r

end Sys2Proof.Machine
end

section
open Sys2Proof Sys2Proof.Machine

/-- Settles O7: no unit is listed at power-on, so every context, core and region reads as its own reset value. -/
theorem resetLeavesTheStatedValues : Obligations.ResetLeavesTheStatedValues := by
  unfold Obligations.ResetLeavesTheStatedValues
  refine ⟨fun c => ?context, fun k => ?core, fun r => ?region, rfl, rfl, rfl, Vector.get_replicate 16 0⟩
  case context =>
    simp only [State.reset_ctx, State.reset_region, Ctx.reset_getG]
    simp [Ctx.reset, Region.reset]
  case core => simp [Core.reset]
  case region => simp [Region.reset]

end

section
/-! PROOF. O18 fails: what CINV puts back of a byte is its HBM value less the "—" bits of a dirty-log control, and the machine
comes to hold an HBM value with such bits. -/

namespace Sys2Proof

/-- What a sparse map reads as at a key is listed there, or the default. -/
theorem SMap.get_listed_or_default {α : Type} (d : α) (m : SMap α) (i : Nat) : (i, SMap.get d m i) ∈ m ∨ SMap.get d m i = d := by
  induction m with
  | nil => exact .inr rfl
  | cons e m ih =>
    obtain ⟨k, v⟩ := e
    by_cases h : i = k
    · simp [SMap.get_cons, h]
    · rw [SMap.get_cons, if_neg h]
      exact ih.imp_left (List.mem_cons_of_mem _)

end Sys2Proof

namespace Sys2Proof.Machine

/-- The state after some instructions and events, taken in order; one that gives no next state is passed over. -/
def State.taking (s : State) : List Instr → State
  | [] => s
  | i :: rest =>
    match exec i s with
    | .next t => t.taking rest
    | _ => s.taking rest

/-- What holds of a core after reset, and of every core that a state lists, holds of every core. -/
theorem State.forall_core {P : Nat → Core → Prop} (s : State) (hreset : ∀ k, P k Core.reset) (hlisted : ∀ x ∈ s.cores, P x.1 x.2)
    (k : Nat) : P k (s.core k) := by
  rcases SMap.get_listed_or_default Core.reset s.cores k with h | h
  · exact hlisted _ h
  · exact (congrArg (P k) h).mpr (hreset k)

/-- No address of a region without a fenced pseudo-channel lies in one. -/
theorem State.chanDown_of_noFence (s : State) (pa : Nat) (h : (s.region (regionOfPa pa)).chanFence = []) : s.chanDown pa = false := by
  simp [State.chanDown, h]

namespace CinvMasked

/-- The sector of 0x2014. -/
def sector : Piece := ⟨0x2010, .hbm 0x2010, 16, false, 0, 12⟩
/-- A CINV of that sector, in a store buffer. -/
def cinv : SbEntry := ⟨.inv, [sector], false, 0, false, 1⟩
/-- A store of one byte at 0x2014, in a store buffer. -/
def store : SbEntry := ⟨.write [7], [⟨0x2014, .hbm 0x2014, 1, false, 0, 12⟩], false, 0, false, 0⟩
/-- Regions 0 and 1 are one island. Byte 0x2014 of region 0 holds 0xFF, and context 16, of region 1, has buffered the store and the
CINV. -/
def island : State := ({ State.reset with
  regions := [(0, { Region.reset with st := .assigned, rta := 0x200000 }), (1, { Region.reset with st := .assigned, rta := 0x1000200000 })]
  ctxs := [(16, { Ctx.reset with st := .ready, sb := [store, cinv] })]
  mstatus := { State.reset.mstatus with fwready := true } } : State).putByte (.hbm 0x2014) 0xFF
/-- A slice of region 0 fails, which leaves the region FENCED with its table area at 0 (R394), and so 0x2014 among the "—" bytes of a
dirty-log control; then the store is performed. The HBM value kept under it is the 0xFF that was there. -/
noncomputable def stored : State := island.taking [.sliceFailure 0, .dirOwnershipRequest 16, .probeAnswer 0x40, .storePerform 16]

/-- What STORE_PERFORM asks of the CINV, which comes next. -/
theorem stored_may_perform : (stored.ctx 16).sb = [cinv] ∧ stored.owned 16 cinv = true ∧
    stored.heldBack (some 16) (stored.dlogLocs (cinv.who 16) [sector] ++ pieceLocs [sector]) = false ∧
    stored.engineOwns (pieceLocs [sector]) = false ∧ stored.tileEarlier 16 cinv = false ∧
    stored.closedPiece (regionOf 16) [sector] = none ∧ (stored.region 0).chanFence = [] := by decide +kernel

/-- The directory tracks the one copy of the line, and no notice is outstanding. -/
theorem stored_tracked : (stored.dirOf 0x40).isSome = true ∧ (∀ x ∈ stored.cores, ∀ n ∈ x.2.notices, n.1 ≠ 0x40) ∧
    ∀ x ∈ stored.cores, (x.2.line 0x40).all &&& 2 ≠ 0 → x.1 ∈ stored.targets 0x40 2 1024 := by decide +kernel

/-- The HBM value of 0x2014, and what the byte reads as once the CINV is performed. -/
theorem stored_cinv_byte : SMap.get none stored.hbmOld 0x2014 = some (0xFF, false) ∧
    (stored.taking [.storePerform 16]).reads (.hbm 0x2014) = 0 := by decide +kernel

theorem sector_places : ∀ l ∈ pieceLocs [sector], l.exists_ ∧ ∀ pa, l = .hbm pa → stored.chanDown pa = false := by
  intro l hl
  obtain ⟨i, hi, rfl⟩ : ∃ i < 16, l = .hbm (0x2010 + i) := by simpa [pieceLocs, sector, Loc.plus, eq_comm] using hl
  refine ⟨show _ < _ by omega, ?_⟩
  rintro pa ⟨rfl⟩
  have hr : regionOfPa (0x2010 + i) = 0 := Nat.div_eq_of_lt (by omega)
  obtain ⟨-, -, -, -, -, -, hfence⟩ := stored_may_perform
  exact stored.chanDown_of_noFence _ (hr ▸ hfence)

end CinvMasked
end Sys2Proof.Machine
end

section
open Sys2Proof Sys2Proof.Machine CinvMasked

/-- Refutes O18: the statement has CINV give every byte its HBM value, but the model's CINV writes that value as any other write does,
and so without the "—" bits of a dirty-log control (R4, R356). In the state `stored` the HBM value of byte 0x2014 is 0xFF, and the
CINV of its sector leaves 0 there. -/
theorem not_storePerformWritesItsBytesOnly : ¬ Obligations.StorePerformWritesItsBytesOnly := by
  unfold Obligations.StorePerformWritesItsBytesOnly
  rintro ⟨perform, -⟩
  obtain ⟨hsb, howned, hheld, hengine, htile, hclosed, -⟩ := stored_may_perform
  obtain ⟨hdir, hnotices, htargets⟩ := stored_tracked
  obtain ⟨hold, hreads⟩ := stored_cinv_byte
  obtain ⟨-, -, -, -, spans⟩ := perform stored 16 cinv [] hsb howned hheld hengine htile hclosed (by decide) sector_places
  obtain ⟨-, -, inv⟩ := spans sector 0x2010 0x40 2 rfl rfl rfl rfl (by decide)
  have notices := stored.forall_core (P := fun _ x => ∀ n ∈ x.notices, n.1 ≠ 0x40) (by simp [Core.reset]) hnotices
  have targets := stored.forall_core (P := fun k x => (x.line 0x40).all &&& 2 ≠ 0 → k ∈ stored.targets 0x40 2 1024)
    (fun _ h => absurd rfl h) htargets
  obtain ⟨t, ht, -, -, -, bytes, -⟩ := inv rfl ⟨hdir, notices, targets⟩
  have hmem : Loc.hbm 0x2014 ∈ pieceLocs [sector] := by decide
  have h0 : t.reads (.hbm 0x2014) = 0 := by simpa [State.taking, ht] using hreads
  have hFF : t.reads (.hbm 0x2014) = 0xFF := by
    rw [bytes (.hbm 0x2014) (show _ < _ by decide)]
    simp only [hold]
    exact if_pos hmem
  exact absurd (h0.symm.trans hFF) (by decide)

end

section
/-! PROOF. O57 fails: the withdrawal of a GBAR makes its context READY whatever state it is in, also one that stands at no instruction
boundary, whose cause 0x45 has just gone to its event queue. -/

namespace Sys2Proof.Machine

/-- What a property holds of after reset, and of every region that a state lists, it holds of every region. -/
theorem State.forall_region {P : Region → Prop} (s : State) (hreset : P Region.reset) (hlisted : ∀ x ∈ s.regions, P x.2) (r : Nat) :
    P (s.region r) := by
  rcases SMap.get_listed_or_default Region.reset s.regions r with h | h
  · exact hlisted _ h
  · exact (congrArg P h).mpr hreset

/-- None of a region's own engines holds a reply. -/
abbrev Region.holdsNoReply (x : Region) : Prop := x.coll.held = [] ∧ x.tend.held = [] ∧ x.lnch.held = []

/-- No engine holds a reply where no core has left its reset state, no quad has, and no region's own engine holds one. -/
theorem State.held_of_regions (s : State) (hcores : s.cores = []) (hquads : s.quads = [])
    (hregions : ∀ r, (s.region r).holdsNoReply) (e : EngineId) : (s.engine e).held = [] := by
  cases e with
  | stream k => simp [State.engine, State.core, hcores, Core.reset, Engine.idle]
  | decomp q => simp [State.engine, State.quad, hquads, Quad.reset, Engine.idle]
  | weave q => simp [State.engine, State.quad, hquads, Quad.reset, Engine.idle]
  | coll r => obtain ⟨h, -, -⟩ := hregions r; exact h
  | tend r => obtain ⟨-, h, -⟩ := hregions r; exact h
  | lnch r => obtain ⟨-, -, h⟩ := hregions r; exact h

namespace TrappingAtBarrier

/-- Regions 0 and 1 are one island; gang 5 has context 0, of region 0, as its member 7, and context 16, of region 1. The latter is being
redirected to its trap vector, and its park still names the GBAR of the gang. -/
def island : State := { State.reset with
  regions := [(0, { Region.reset with st := .assigned, rta := 0x200000 }), (1, { Region.reset with st := .assigned, rta := 0x1000200000 })]
  ctxs := [(0, { Ctx.reset with st := .ready, gang := 5, member := 7 }),
    (16, { Ctx.reset with st := .trapping 0, park := .bar ⟨5, .mod, 0, 0⟩ 0 true 3 0 none, gang := 5, member := 8 })]
  mstatus := { State.reset.mstatus with fwready := true } }

/-- No reply is on its way or held. -/
theorem island_still : (∀ k, (island.core k).arrivals = []) ∧ ∀ e, (island.engine e).held = [] :=
  ⟨fun _ => rfl, island.held_of_regions rfl rfl (island.forall_region (P := Region.holdsNoReply) (by decide) (by decide))⟩

/-- Context 0 is the one member of its gang that region 0 holds. -/
theorem island_member (y : Nat) (hy : y < 4096) (hown : coreOf y < 1024 ∧ regionOfCore (coreOf y) = 0) (hgang : (island.ctx y).gang = 5) :
    (island.ctx y).member = 7 := by
  by_cases h0 : y = 0
  · subst h0; rfl
  · by_cases h16 : y = 16
    · subst h16; exact absurd hown.2 (by decide)
    · have hreset : island.ctx y = Ctx.reset := by simp [State.ctx, island, SMap.get_cons, h0, h16]
      rw [hreset] at hgang
      exact absurd hgang (by decide)

/-- The reset of region 0 leaves context 16 READY, which is an instruction boundary, with 0x45 not pending. -/
theorem reset_leaves_event_queued : ((island.taking [.regionReset 0]).ctx 16).atBoundary = true ∧
    ((island.taking [.regionReset 0]).ctx 16).status.ipend.getLsbD 5 = false := by decide +kernel

end TrappingAtBarrier
end Sys2Proof.Machine
end

section
open Sys2Proof Sys2Proof.Machine TrappingAtBarrier

/-- Refutes O57: the statement has 0x45 accepted for every other member of a gang that lost one, in every state. In the state `island`
a member is TRAPPING with the GBAR of its gang in its park, so the event goes to its queue (R338), and the withdrawal of the GBAR
(R370, R393) then makes the context READY with the event still there and not pending. Taking a trap clears the park (R246), so a machine
that runs from reset comes to no such state; the statement has no hypothesis that leaves it out. -/
theorem not_regionResetClearsTheRegion : ¬ Obligations.RegionResetClearsTheRegion := by
  unfold Obligations.RegionResetClearsTheRegion
  intro h
  obtain ⟨reset, -⟩ := h island 0 0
  obtain ⟨⟨t, ht, -, -, -, -, -, -, -, -, -, -, -, told⟩, -⟩ := reset (by decide) rfl rfl rfl rfl rfl (by decide) island_still
  obtain ⟨hboundary, hpending⟩ := reset_leaves_event_queued
  have htold : t.Told 16 5 ((7 : BitVec 10).zeroExtend 64) :=
    told 16 7 (by decide) (by decide) ⟨0, by decide⟩ island_member
  simp only [State.taking, ht] at hboundary hpending
  rw [State.Told, if_pos hboundary] at htold
  exact absurd (htold.1.symm.trans hpending) (by decide)

end

section
/-! PROOF. What the steps of a region reset (R389) and the events that it raises (R387) leave of the regions, of the time and of the
module's status: one lemma per operation, for O56. -/

namespace Sys2Proof

/-! Keys that a sparse map lists once. A map that steps have made lists every key once; a state that a statement speaks of need not. -/

variable {α : Type}

/-- Key q is listed at most once. -/
def SMap.Single (m : SMap α) (q : Nat) : Prop := m.Pairwise (fun a b => a.1 = q → b.1 ≠ q)

theorem SMap.ins_perm (i : Nat) (x : α) (m : SMap α) : (SMap.ins i x m).Perm ((i, x) :: m) := by
  induction m with
  | nil => exact .refl _
  | cons e m ih =>
    obtain ⟨k, v⟩ := e
    unfold SMap.ins
    split
    · exact .refl _
    · exact (ih.cons _).trans (.swap _ _ _)

theorem SMap.Single.ins {m : SMap α} {q : Nat} (h : m.Single q) (i : Nat) (x : α) (hi : ∀ e ∈ m, e.1 ≠ i) : (SMap.ins i x m).Single q := by
  refine ((SMap.ins_perm i x m).pairwise_iff fun hab ha hb => hab hb ha).2 (List.pairwise_cons.2 ⟨?_, h⟩)
  rintro e he rfl
  exact hi e he

theorem SMap.ne_of_mem_del {m : SMap α} {i : Nat} {e : Nat × α} (h : e ∈ SMap.del m i) : e.1 ≠ i := by simpa using (List.mem_filter.1 h).2

theorem SMap.Single.put [DecidableEq α] {m : SMap α} {q : Nat} (h : m.Single q) (d : α) (i : Nat) (x : α) : (SMap.put d m i x).Single q := by
  have hdel : (SMap.del m i).Single q := List.Pairwise.filter _ h
  unfold SMap.put
  split
  · exact hdel
  · exact hdel.ins i x fun _ => SMap.ne_of_mem_del

/-- A key that has been set is listed once. -/
theorem SMap.single_put_same [DecidableEq α] (d : α) (m : SMap α) (i : Nat) (x : α) : (SMap.put d m i x).Single i := by
  have hdel : (SMap.del m i).Single i := List.pairwise_of_forall_mem_list fun a ha _ _ h => absurd h (SMap.ne_of_mem_del ha)
  unfold SMap.put
  split
  · exact hdel
  · exact hdel.ins i x fun _ => SMap.ne_of_mem_del

end Sys2Proof

namespace Sys2Proof.Machine

/-! The relation. -/

/-- Region y is x but for its island and windows, its engines, the events that firmware holds for it, its dirty-log position, and what it
has counted as stale: what happens to other regions changes nothing else of it. -/
def Region.Steady (x y : Region) : Prop :=
  y = { x with
    island := y.island, windows := y.windows, coll := y.coll, tend := y.tend, lnch := y.lnch, pending := y.pending, quiet := y.quiet
    lost := y.lost, dlogHead := y.dlogHead, stale := y.stale }

namespace Region.Steady
variable {x y z : Region}

theorem refl (x : Region) : x.Steady x := rfl
theorem trans (h : x.Steady y) (h' : y.Steady z) : x.Steady z := by
  unfold Region.Steady at *; rw [h] at h'; exact h'
theorem st (h : x.Steady y) : y.st = x.st := by rw [h]
theorem inc (h : x.Steady y) : y.inc = x.inc := by rw [h]
theorem rta (h : x.Steady y) : y.rta = x.rta := by rw [h]
theorem key (h : x.Steady y) : y.key = x.key := by rw [h]
theorem image (h : x.Steady y) : y.image = x.image := by rw [h]
theorem gated (h : x.Steady y) : y.gated = x.gated := by rw [h]
theorem limit (h : x.Steady y) : y.limit = x.limit := by rw [h]
theorem tripped (h : x.Steady y) : y.tripped = x.tripped := by rw [h]
theorem chanFence (h : x.Steady y) : y.chanFence = x.chanFence := by rw [h]
theorem afterReset (h : x.Steady y) : x.afterReset.Steady y.afterReset := by
  unfold Region.Steady Region.afterReset at *; rw [h]
end Region.Steady

/-- Region q is listed once. -/
abbrev State.Single (s : State) (q : Nat) : Prop := SMap.Single s.regions q

/-- The module's status, its temperatures and the time are in t what they are in s, and so is every region, as far as it is steady; all
but region r where there is one. -/
def State.SteadyBut (r : Option Nat) (s t : State) : Prop :=
  t.mstatus = s.mstatus ∧ t.dtemp = s.dtemp ∧ t.cycles = s.cycles ∧
  ∀ q, some q ≠ r → s.Single q → t.Single q ∧ (s.region q).Steady (t.region q)

/-- The same without an exception. -/
abbrev State.Steady (s t : State) : Prop := s.SteadyBut none t

namespace State.SteadyBut
variable {s t u : State} {r : Option Nat}

theorem trans (h : s.SteadyBut r t) (h' : t.SteadyBut r u) : s.SteadyBut r u := by
  obtain ⟨hm, hd, hc, hr⟩ := h
  obtain ⟨hm', hd', hc', hr'⟩ := h'
  refine ⟨hm'.trans hm, hd'.trans hd, hc'.trans hc, fun q hne hq => ?_⟩
  obtain ⟨ht, hst⟩ := hr q hne hq
  obtain ⟨hu, htu⟩ := hr' q hne ht
  exact ⟨hu, hst.trans htu⟩
theorem mstatus (h : s.SteadyBut r t) : t.mstatus = s.mstatus := by obtain ⟨h, -⟩ := h; exact h
theorem dtemp (h : s.SteadyBut r t) : t.dtemp = s.dtemp := by obtain ⟨-, h, -⟩ := h; exact h
theorem cycles (h : s.SteadyBut r t) : t.cycles = s.cycles := by obtain ⟨-, -, h, -⟩ := h; exact h
theorem single (h : s.SteadyBut r t) {q : Nat} (hne : some q ≠ r) (hq : s.Single q) : t.Single q := by
  obtain ⟨-, -, -, h⟩ := h
  exact (h q hne hq).1
theorem region (h : s.SteadyBut r t) {q : Nat} (hne : some q ≠ r) (hq : s.Single q) : (s.region q).Steady (t.region q) := by
  obtain ⟨-, -, -, h⟩ := h
  exact (h q hne hq).2
end State.SteadyBut

namespace State.Steady
variable {s t u : State}

theorem refl (s : State) : s.Steady s := ⟨rfl, rfl, rfl, fun _ _ hq => ⟨hq, rfl⟩⟩
theorem trans (h : s.Steady t) (h' : t.Steady u) : s.Steady u := State.SteadyBut.trans h h'
theorem but (h : s.Steady t) (r : Option Nat) : s.SteadyBut r t := by
  obtain ⟨hm, hd, hc, hr⟩ := h
  exact ⟨hm, hd, hc, fun q _ => hr q nofun⟩
theorem ite {p : Prop} [Decidable p] (ht : s.Steady t) (hu : s.Steady u) : s.Steady (if p then t else u) := by split <;> assumption
theorem foldl {α : Type} {f : State → α → State} (h : ∀ (s : State) (a : α), s.Steady (f s a)) (l : List α) (s : State) : s.Steady (l.foldl f s) := by
  induction l generalizing s with
  | nil => exact refl s
  | cons a l ih => exact (h s a).trans (ih _)
end State.Steady

/-- A state with the same regions, status, temperatures and time. -/
theorem steady_of_eq {s t : State} (hm : t.mstatus = s.mstatus) (hd : t.dtemp = s.dtemp) (hc : t.cycles = s.cycles)
    (hr : t.regions = s.regions) : s.Steady t :=
  ⟨hm, hd, hc, fun q _ hq => ⟨by rwa [State.Single, hr], by rw [State.region_congr t s hr q]; rfl⟩⟩
theorem SameMemory.steady {s t : State} (h : SameMemory s t) : s.Steady t := by apply steady_of_eq <;> rw [h]
theorem Rerouted.steady {s t : State} (h : Rerouted s t) : s.Steady t := by apply steady_of_eq <;> rw [h]

/-! The units. -/

theorem modCtx_steady (s : State) (c : Nat) (f : Ctx → Ctx) : s.Steady (s.modCtx c f) := .refl s
theorem modCore_steady (s : State) (k : Nat) (f : Core → Core) : s.Steady (s.modCore k f) := .refl s
theorem modQuad_steady (s : State) (q : Nat) (f : Quad → Quad) : s.Steady (s.modQuad q f) := .refl s
theorem modRegion_single (s : State) (r : Nat) (f : Region → Region) : (s.modRegion r f).Single r := SMap.single_put_same _ _ _ _
theorem modRegion_steadyBut (s : State) (r : Nat) (f : Region → Region) : s.SteadyBut (some r) (s.modRegion r f) := by
  refine ⟨rfl, rfl, rfl, fun q hne hq => ⟨hq.put _ _ _, ?_⟩⟩
  have hqr : q ≠ r := fun h => hne (congrArg some h)
  rw [State.modRegion_region_other _ _ _ _ hqr]
  exact .refl _
theorem modRegion_steady (s : State) (r : Nat) (f : Region → Region) (h : ∀ x, Region.Steady x (f x)) : s.Steady (s.modRegion r f) := by
  refine ⟨rfl, rfl, rfl, fun q _ hq => ⟨hq.put _ _ _, ?_⟩⟩
  by_cases hqr : q = r
  · subst hqr
    rw [State.modRegion_region_same]
    exact h _
  · rw [State.modRegion_region_other _ _ _ _ hqr]
    exact .refl _
theorem modEngine_steady (s : State) (e : EngineId) (f : Engine → Engine) : s.Steady (s.modEngine e f) := by
  cases e with
  | stream k => exact modCore_steady _ _ _
  | decomp q => exact modQuad_steady _ _ _
  | weave q => exact modQuad_steady _ _ _
  | coll r => exact modRegion_steady _ _ _ (fun _ => rfl)
  | tend r => exact modRegion_steady _ _ _ (fun _ => rfl)
  | lnch r => exact modRegion_steady _ _ _ (fun _ => rfl)
theorem modCtxs_steady (f : Ctx → Ctx) (l : List Nat) (s : State) : s.Steady (State.modCtxs f l s) := by
  induction l generalizing s with
  | nil => exact .refl s
  | cons c l ih => exact (modCtx_steady s c f).trans (ih _)
theorem countStale_steady (s : State) (r n : Nat) : s.Steady (s.countStale r n) := modRegion_steady _ _ _ (fun _ => rfl)
theorem raiseInt_steady (s : State) (c code : Nat) (v : Word) : s.Steady (s.raiseInt c code v) := modCtx_steady _ _ _

/-! Writes of bytes, and the dirty log. -/

theorem putBytes_steady (s : State) (ws : List (Loc × Byte)) : s.Steady (s.putBytes ws) := by
  apply steady_of_eq <;> rw [putBytes_frame]
theorem perform_steady (s : State) (who : Option Nat) (ws : List (Loc × Byte)) : s.Steady (s.perform who ws) :=
  (putBytes_steady s ws).trans (perform_spec s who ws).steady
theorem homeWrite_steady (s : State) (who : Option Nat) (ps : List Piece) (data : List Byte) : s.Steady (s.homeWrite who ps data) := by
  obtain ⟨u, h, h'⟩ := homeWrite_spec s who ps data
  exact (h.steady.trans (putBytes_steady _ _)).trans h'.steady
theorem dlogAppend_steady (s : State) (r entry : Nat) : s.Steady (s.dlogAppend r entry) := by
  unfold State.dlogAppend
  refine .ite (.refl s) (.ite (perform_steady _ _ _) ?_)
  exact ((perform_steady _ _ _).trans (perform_steady _ _ _)).trans (modRegion_steady _ _ _ (fun _ => rfl))
theorem setLogged_steady (s : State) (w : Who) (id : Nat) : s.Steady (s.setLogged w id) := by
  unfold State.setLogged
  simp only
  split
  · exact modEngine_steady _ _ _
  · exact modCore_steady _ _ _
theorem dlogPiece_steady (s : State) (w : Who) (p : Piece) : s.Steady (s.dlogPiece w p) :=
  .ite (.refl s) (.ite (.refl s)
    (.ite ((dlogAppend_steady _ _ _).trans (setLogged_steady _ _ _)) (dlogAppend_steady _ _ _)))
theorem dlogPieces_steady (s : State) (w : Who) (ps : List Piece) : s.Steady (s.dlogPieces w ps) := by
  induction ps generalizing s with
  | nil => exact .refl s
  | cons p ps ih => exact (dlogPiece_steady s w p).trans (ih _)
theorem dropWrite_steady (s : State) (l : Loc) : s.Steady (s.dropWrite l) := by
  cases l with
  | hbm pa => exact countStale_steady _ _ _
  | spad k o => exact .refl s
  | fabric a => exact .refl s
theorem pinPieces_steady (s : State) (w : Who) (on : Bool) (ps : List Piece) : s.Steady (s.pinPieces w on ps) := by
  unfold State.pinPieces
  simp only
  split
  · exact modEngine_steady _ _ _
  · exact modCore_steady _ _ _

/-! Translation. -/

theorem fill_steady (s : State) (w : Who) (k : Acc) (e : TlbEnt) (seen : List WalkEnt) : s.Steady (s.fill w k e seen) := by
  unfold State.fill
  split
  · exact modEngine_steady _ _ _
  · exact modCore_steady _ _ _
theorem lookup_steady (s : State) (w : Who) (k : Acc) (va : Nat) : s.Steady (s.lookup w k va).1 := by
  have hfill : ∀ (u : State) (e : TlbEnt) (seen : List WalkEnt), u.Steady (({ u with fresh := u.fresh + 1 } : State).fill w k e seen) :=
    fun u e seen => State.Steady.trans (.refl u) (fill_steady _ w k e seen)
  have hcount : s.Steady (if k = .fetch then s else s.count w.ctx 0x07 1) := .ite (.refl s) (modCtx_steady _ _ _)
  unfold State.lookup
  simp only
  split
  · split
    · exact .ite (.refl s) (modEngine_steady _ _ _)
    · split
      · exact hfill _ _ _
      · exact .refl s
  · split
    · exact .ite (.refl s) (modCore_steady _ _ _)
    · split
      · exact hcount.trans (modCore_steady _ _ _)
      · have hboth := hcount.trans (modCtx_steady _ w.ctx (·.count 0x08 1))
        split
        · exact hboth.trans (hfill _ _ _)
        · exact hboth.trans (.refl _)
theorem placed_steady (s : State) (w : Who) (k : Acc) (pa : Nat) (u : Bool) (left ent log : Nat) :
    s.Steady (s.placed w k pa u left ent log).1 := by
  unfold State.placed
  simp only
  split
  · exact .refl s
  · split <;> exact .refl s
theorem translate_steady (s : State) (w : Who) (k : Acc) (va : Nat) : s.Steady (s.translate w k va).1 := by
  have hlookup := lookup_steady s w k va
  unfold State.translate
  simp only
  split
  · split
    · exact .refl s
    · exact placed_steady _ _ _ _ _ _ _ _
  · split
    · split
      · exact .refl s
      · split <;> exact .refl s
    · split
      · exact .refl s
      · split <;> rename_i h <;> rw [h] at hlookup
        · exact hlookup
        · exact hlookup
        · split
          · exact hlookup
          · exact hlookup.trans (placed_steady _ _ _ _ _ _ _ _)
theorem transRun_steady (w : Who) (k : Acc) (n : Nat) (s : State) (lo va len : Nat) : s.Steady (State.transRun w k n s lo va len).1 := by
  induction n generalizing s lo va len with
  | zero => exact .refl s
  | succ n ih =>
    have htranslate := translate_steady s w k va
    unfold State.transRun
    split
    · exact .refl s
    · split <;> rename_i h <;> rw [h] at htranslate
      · exact htranslate
      · simp only
        split <;> rename_i h' <;> exact htranslate.trans (congrArg Prod.fst h' ▸ ih _ _ _ _)
theorem transSpan_steady (s : State) (w : Who) (k : Acc) (va len : Nat) : s.Steady (s.transSpan w k va len).1 := transRun_steady _ _ _ _ _ _ _

end Sys2Proof.Machine
end

section
namespace Sys2Proof.Machine

/-! Commands and their completion. -/

theorem endRun_steady (s : State) (e : EngineId) (seq : Nat) (x : Fx) : s.Steady (s.endRun e seq x) := modEngine_steady _ _ _
theorem finishRun_steady (s : State) (e : EngineId) (seq : Nat) : s.Steady (s.finishRun e seq) := by
  unfold State.finishRun
  split
  · exact .refl s
  · refine State.Steady.trans ?_ ((pinPieces_steady _ _ _ _).trans (modEngine_steady _ _ _))
    split
    · exact .refl s
    · exact .ite (dropWrite_steady _ _) ((dlogPieces_steady _ _ _).trans (homeWrite_steady _ _ _ _))
theorem answerRun_steady (s : State) (e : EngineId) (seq : Nat) : s.Steady (s.answerRun e seq) := by
  unfold State.answerRun
  split
  · exact .refl s
  · exact .ite (finishRun_steady _ _ _) (modEngine_steady _ _ _)
theorem putSent_steady (s : State) (x : Sent) (b : Byte) : s.Steady (s.putSent x b) :=
  .ite (.refl s) (.ite ((perform_steady _ _ _).trans (setPoison_spec _ _ _).steady) (perform_steady _ _ _))
theorem settleGo_steady (q : Nat) (due : Sent → Bool) (n : Nat) (s : State) : s.Steady (State.settleGo q due n s) := by
  induction n generalizing s with
  | zero => exact .refl s
  | succ n ih =>
    have hdraw : ∀ u : State, u.Steady { u with fresh := s.fresh + 1 } := fun u => .refl u
    unfold State.settleGo
    simp only
    split
    · exact .refl s
    · exact (((putSent_steady _ _ _).trans (hdraw _)).trans (modQuad_steady _ _ _)).trans (ih _)
theorem settleCounted_steady (s : State) (e : EngineId) (seq left : Nat) : s.Steady (s.settleCounted e seq left) := by
  unfold State.settleCounted
  split
  · exact settleGo_steady _ _ _ _
  · exact .refl s
theorem invalidFx_steady (s : State) (e : EngineId) : s.Steady (s.invalidFx e).1 := by cases e <;> exact .refl s
theorem statusPiece_steady (s : State) (e : EngineId) (c : Cmd) : s.Steady (s.statusPiece e c).1 := by
  have h := transSpan_steady s (c.who e) .store (c.word 7 / 64 * 64) 8
  unfold State.statusPiece
  simp only
  split
  · exact .refl s
  · split <;> rename_i hspan <;> exact congrArg Prod.fst hspan ▸ h
theorem addRun_steady (s : State) (e : EngineId) (c : Cmd) (st : Option Piece) (x : Fx) : s.Steady (s.addRun e c st x) :=
  ((recallAll_spec _ _ _).steady.trans (modEngine_steady _ _ _)).trans (pinPieces_steady _ _ _ _)
theorem startCmd_steady (s : State) (e : EngineId) (c : Cmd) (f : State → State × Fx) (hf : ∀ u : State, u.Steady (f u).1) :
    s.Steady (s.startCmd e c f) := by
  have h := statusPiece_steady s e c
  unfold State.startCmd
  split <;> rename_i hpiece <;> rw [hpiece] at h
  · exact h.trans (.ite (addRun_steady _ _ _ _ _) ((invalidFx_steady _ _).trans (addRun_steady _ _ _ _ _)))
  · exact h.trans (.ite ((hf _).trans (addRun_steady _ _ _ _ _)) ((invalidFx_steady _ _).trans (addRun_steady _ _ _ _ _)))

/-! Coherence. -/

theorem grant_steady (s : State) (t : Txn) : s.Steady (s.grant t) := by
  have h : s.Steady ((s.serve t.core t.line t.span t.write).setTxn t.line none) := (serve_spec _ _ _ _ _).steady.trans (.refl _)
  exact h.trans (.ite (.refl _) (modCtx_steady _ _ _))
theorem setTxn_steady (s : State) (line : Nat) (t : Option Txn) : s.Steady (s.setTxn line t) := .refl s
theorem ackCount_steady (s : State) (line : Nat) : s.Steady (s.ackCount line) := by
  unfold State.ackCount
  split
  · exact .refl s
  · exact .ite (grant_steady _ _) (setTxn_steady _ _ _)
theorem answered_steady (s : State) (line k : Nat) : s.Steady (s.answered line k) := by
  unfold State.answered
  refine .ite (ackCount_steady _ _) ?_
  split
  · exact .refl s
  · split
    · exact .refl s
    · exact .ite (.refl s) (setTxn_steady _ _ _)

/-! The losses of members (R393). -/

theorem withdraw_steady (s : State) (c : Nat) : s.Steady (s.withdraw c) := by
  unfold State.withdraw
  split
  · refine .ite ?_ (.refl s)
    unfold State.podWithdraw
    simp only
    split <;> exact .refl s
  · exact .refl s
theorem unpark_steady (s : State) (c : Nat) : s.Steady (s.unpark c) := by
  unfold State.unpark
  split
  · exact (withdraw_steady _ _).trans (modCtx_steady _ _ _)
  · exact .refl s
theorem tellLoss_steady (lost : List Nat) (s : State) (c : Nat) : s.Steady (State.tellLoss lost s c) := by
  unfold State.tellLoss
  split
  · exact .refl s
  · exact (State.Steady.foldl (fun t _ => raiseInt_steady t _ _ _) _ s).trans (unpark_steady _ _)
theorem loseMembers_steady (s : State) (lost : List Nat) : s.Steady (s.loseMembers lost) :=
  .foldl (tellLoss_steady lost) _ s

/-! The steps of a reset before it clears the region (R389). -/

theorem writeHome_steady (s : State) (r : Nat) : s.Steady (s.writeHome r) := by
  refine .foldl (fun t k => ?_) _ s
  refine State.Steady.trans (.foldl (fun u n => ?_) _ t) (.foldl (fun u l => ?_) _ _)
  · exact .ite ((noticeIn_spec _ _ _ _).steady.trans (answered_steady _ _ _)) (noticeIn_spec _ _ _ _).steady
  · exact (modCore_steady _ _ _).trans (homeDirty_spec _ _ _).steady
theorem dropArrival_steady (s : State) (a : Arrival) : s.Steady (s.dropArrival a) :=
  ((settleCounted_steady _ _ _ _).trans (countStale_steady _ _ _)).trans (answerRun_steady _ _ _)
theorem dropReplies_steady (s : State) (r : Nat) : s.Steady (s.dropReplies r) :=
  State.Steady.trans (.foldl (fun t _ => .ite (.refl t) (modEngine_steady t _ _)) _ s) (.foldl dropArrival_steady _ _)
theorem endAll_steady (x : Fx) (l : List CollSite) (s : State) : s.Steady (State.endAll x l s) := by
  induction l generalizing s with
  | nil => exact .refl s
  | cons m l ih => exact (endRun_steady s _ _ _).trans (ih _)
theorem endInstances_steady (s : State) (hit : CollInst → Bool) (gone : Nat → Nat → Bool) : s.Steady (s.endInstances hit gone) :=
  State.Steady.trans (.refl s) (endAll_steady _ _ _)
theorem resetCalls_steady (s : State) (r : Nat) : s.Steady (s.resetCalls r) := by
  refine .foldl (fun t q => .ite (.refl t) ?_) _ s
  exact State.Steady.trans (.foldl (fun u x => endRun_steady u _ _ _) _ t)
    (.foldl (fun u c => startCmd_steady u _ _ _ (fun v => .refl v)) _ _)
theorem staleCoherence_steady (s : State) (r : Nat) : s.Steady (s.staleCoherence r) := by
  refine State.Steady.trans (.foldl (fun t m => ?_) _ s) (.foldl (fun t c => .foldl (fun u _ => countStale_steady u _ _) _ t) _ _)
  split
  · exact .ite (countStale_steady _ _ _) (.refl t)
  · exact .refl t
theorem answerFor_steady (s : State) (r : Nat) : s.Steady (s.answerFor r) := by
  refine State.Steady.trans (.foldl (fun t m => ?_) _ s) (.foldl (fun t x => .foldl (fun u f => ?_) _ t) _ _)
  · cases m with
    | inval l k span => exact .ite (answered_steady _ _ _) (.refl t)
    | ack l k => exact .ite (answered_steady _ _ _) (.refl t)
    | dieAck l die => exact .ite (ackCount_steady _ _) (.refl t)
    | crossed l k span => exact .ite (answered_steady _ _ _) (.refl t)
  · split
    · exact (setTxn_steady _ _ _).trans (ackCount_steady _ _)
    · exact .refl u
theorem purge_steady (s : State) (r : Nat) : s.Steady (s.purge r) := .refl s

end Sys2Proof.Machine
end

section
namespace Sys2Proof.Machine

/-! Region events (R387) and the renumbering of islands (R357). -/

/-- Memory holds the same bytes in t as in s, every core's CYCLE runs from where it did, and the regions are steady. -/
def State.Notified (s t : State) : Prop := s.Steady t ∧ t.mem = s.mem ∧ ∀ k, (t.core k).cycle = (s.core k).cycle

namespace State.Notified
variable {s t u : State}

theorem refl (s : State) : s.Notified s := ⟨.refl s, rfl, fun _ => rfl⟩
theorem trans (h : s.Notified t) (h' : t.Notified u) : s.Notified u := by
  obtain ⟨hs, hm, hc⟩ := h
  obtain ⟨hs', hm', hc'⟩ := h'
  exact ⟨hs.trans hs', hm'.trans hm, fun k => (hc' k).trans (hc k)⟩
theorem ite {p : Prop} [Decidable p] (ht : s.Notified t) (hu : s.Notified u) : s.Notified (if p then t else u) := by split <;> assumption
theorem steady (h : s.Notified t) : s.Steady t := by obtain ⟨h, -⟩ := h; exact h
end State.Notified

theorem Rerouted.notified {s t : State} (h : Rerouted s t) : s.Notified t :=
  ⟨h.steady, by rw [h], fun k => by rw [State.core_congr t s (by rw [h])]⟩
theorem modCtx_notified (s : State) (c : Nat) (f : Ctx → Ctx) : s.Notified (s.modCtx c f) := .refl s
theorem modCtxs_notified (f : Ctx → Ctx) (l : List Nat) (s : State) : s.Notified (State.modCtxs f l s) := by
  induction l generalizing s with
  | nil => exact .refl s
  | cons c l ih => exact (modCtx_notified s c f).trans (ih _)
theorem raiseInt_notified (s : State) (c code : Nat) (v : Word) : s.Notified (s.raiseInt c code v) := modCtx_notified _ _ _
theorem modRegion_notified (s : State) (r : Nat) (f : Region → Region) (h : ∀ x, Region.Steady x (f x)) : s.Notified (s.modRegion r f) :=
  ⟨modRegion_steady s r f h, rfl, fun _ => rfl⟩
theorem modCore_notified (s : State) (k : Nat) (f : Core → Core) (h : ∀ x, (f x).cycle = x.cycle) : s.Notified (s.modCore k f) := by
  refine ⟨modCore_steady _ _ _, rfl, fun j => ?_⟩
  rw [State.modCore_core]
  split
  · rename_i hj; rw [h, hj]
  · rfl
theorem chanPut_notified (s : State) (k : Nat) (n : Fin 16) (m : ChMsg) : s.Notified (s.chanPut k n m) := by
  refine State.Notified.trans ((modCore_notified s k (fun c => c.setChan n (c.chans.get n ++ [m])) fun _ => rfl).trans
    (modCtxs_notified (Ctx.accept ⟨.chan n, 0⟩) (ctxsOfCore k) _)) ?_
  exact .ite (.ite (raiseInt_notified _ _ _ _) (.refl _)) (.ite (raiseInt_notified _ _ _ _) (.refl _))
theorem eventRetry_notified (s : State) (r : Nat) : s.Notified ((s.eventRetry r).getD s) := by
  unfold State.eventRetry
  split
  · split
    · exact .refl s
    · show s.Notified (State.chanPut _ _ _ _)
      exact (modRegion_notified s r (fun x => { x with pending := _, lost := false }) fun _ => rfl).trans (chanPut_notified _ _ _ _)
  · exact .refl s
theorem regionEvent_notified (s : State) (r kind subject arg : Nat) : s.Notified (s.regionEvent r kind subject arg) := by
  unfold State.regionEvent
  split
  · exact .refl s
  · simp only
    refine State.Notified.trans ?_ (.ite (eventRetry_notified _ r) (.refl _))
    exact State.Notified.trans (.ite (.refl s) (raiseInt_notified _ _ _ _)) (modRegion_notified _ _ _ fun _ => rfl)
theorem regionEvents_notified (kind subject arg : Nat) (l : List Nat) (s : State) : s.Notified (State.regionEvents kind subject arg l s) := by
  induction l generalizing s with
  | nil => exact .refl s
  | cons r l ih => exact (regionEvent_notified s r _ _ _).trans (ih _)

section
variable {α : Type} [DecidableEq α]

theorem mapVals_cons (d : α) (f : Nat → α → α) (k : Nat) (v : α) (m : SMap α) :
    mapVals d f ((k, v) :: m) = if f k v = d then mapVals d f m else (k, f k v) :: mapVals d f m := by
  by_cases h : f k v = d <;> simp [mapVals, h]
theorem mapVals_single {m : SMap α} {q : Nat} (h : m.Single q) (d : α) (f : Nat → α → α) : (mapVals d f m).Single q :=
  List.Pairwise.filter _ (List.pairwise_map.2 h)
/-- What a key that is listed once reads as when the values have been changed. -/
theorem get_mapVals (d : α) (f : Nat → α → α) (m : SMap α) (q : Nat) (hd : f q d = d) (hq : m.Single q) :
    SMap.get d (mapVals d f m) q = f q (SMap.get d m q) := by
  induction m with
  | nil => exact hd.symm
  | cons e m ih =>
    obtain ⟨k, v⟩ := e
    obtain ⟨hk, hm⟩ := List.pairwise_cons.1 hq
    rw [mapVals_cons, SMap.get_cons]
    by_cases hqk : q = k
    · subst hqk
      have hrest : SMap.get d m q = d := (SMap.get_listed_or_default d m q).resolve_left fun h => hk _ h rfl rfl
      by_cases hv : f q v = d
      · rw [if_pos hv, if_pos rfl, ih hm, hrest, hd, hv]
      · rw [if_neg hv, if_pos rfl, SMap.get_cons, if_pos rfl]
    · by_cases hv : f k v = d
      · rw [if_pos hv, if_neg hqk, ih hm]
      · rw [if_neg hv, if_neg hqk, SMap.get_cons, if_neg hqk, ih hm]
end

theorem renumber_notified (s : State) (old new : Nat) : s.Notified (s.renumber old new) := by
  unfold State.renumber
  refine .ite (.refl s) ⟨⟨rfl, rfl, rfl, fun q _ hq => ⟨?_, ?_⟩⟩, rfl, fun _ => rfl⟩
  · simp only [State.Single]
    exact mapVals_single hq _ _
  · simp only [State.region]
    rw [get_mapVals _ _ _ _ (by simp [Region.reset]) hq]
    rfl
theorem without_notified (s : State) (old r : Nat) : s.Notified (s.without old r) := by
  refine .ite (reroute_spec _ _ _).notified ?_
  exact ((reroute_spec _ _ _).notified.trans (renumber_notified _ _ _)).trans (rewindow_spec _ _).notified

/-! The reset of a region, and what heat makes of it (R389, R406). -/

theorem clearRegion_steadyBut (s : State) (r : Nat) : s.SteadyBut (some r) (s.clearRegion r) := modRegion_steadyBut _ r Region.afterReset
theorem clearRegion_region (s : State) (r : Nat) : (s.clearRegion r).region r = (s.region r).afterReset := State.modRegion_region_same _ _ _

/-- What the steps of a reset before the clearing leave. -/
theorem closeRegion_clears (s : State) (r : Nat) : ∃ u, (s.modRegion r (fun y => { y with st := .resetting })).Steady u ∧
    s.closeRegion r = u.clearRegion r := by
  refine ⟨_, ?_, rfl⟩
  refine State.Steady.trans ?_ (.foldl (fun t _ => (regionEvents_notified _ _ _ _ t).steady) _ _)
  exact (loseMembers_steady _ _).trans ((writeHome_steady _ _).trans ((dropReplies_steady _ _).trans ((endInstances_steady _ _ _).trans
    ((resetCalls_steady _ _).trans ((staleCoherence_steady _ _).trans ((answerFor_steady _ _).trans (purge_steady _ _)))))))
theorem closeRegion_steadyBut (s : State) (r : Nat) : s.SteadyBut (some r) (s.closeRegion r) := by
  obtain ⟨u, hu, h⟩ := closeRegion_clears s r
  rw [h]
  exact ((modRegion_steadyBut _ _ _).trans (hu.but _)).trans (clearRegion_steadyBut _ _)
theorem closeRegion_region (s : State) (r : Nat) :
    (Region.afterReset { s.region r with st := .resetting }).Steady ((s.closeRegion r).region r) := by
  obtain ⟨u, hu, h⟩ := closeRegion_clears s r
  have hr := hu.region nofun (modRegion_single _ _ _)
  rw [State.modRegion_region_same] at hr
  rw [h, clearRegion_region]
  exact hr.afterReset

/-- The state in which a region that is reset because of heat is held (R406): one in no island stays out of any. -/
def Region.trippedSt (x : Region) : RegSt :=
  match x.st with
  | .assigned | .resetting => .resetting
  | .free => if x.chanFence = [] then .free else .fenced
  | .fenced => .fenced
theorem trippedSt_of_free {x : Region} (h : x.st = .free ∨ x.st = .fenced) :
    (if x.chanFence.isEmpty then x.st else .fenced) = x.trippedSt := by
  rcases h with h | h <;> simp [Region.trippedSt, h]
/-- Region y is x reset and held, or held where it is held already or in reset. -/
def Region.Held (x y : Region) : Prop :=
  y.limit = x.limit ∧ y.tripped = true ∧
  (x.tripped = true ∨ x.st = .resetting → y.st = x.st ∧ y.inc = x.inc) ∧
  (x.tripped = false → x.st ≠ .resetting → y.inc = x.inc + 1 ∧ y.st = x.trippedSt)

theorem leave_steadyBut (s : State) (r : Nat) (st : RegSt) : s.SteadyBut (some r) (s.leave r st) := by
  unfold State.leave
  exact (closeRegion_steadyBut _ _).trans (modRegion_steadyBut _ _ _)
theorem leave_region (s : State) (r : Nat) (st : RegSt) :
    ((s.leave r st).region r).st = (if (s.region r).chanFence.isEmpty then st else .fenced) ∧
    ((s.leave r st).region r).inc = (s.region r).inc + 1 ∧ ((s.leave r st).region r).limit = (s.region r).limit := by
  have h := closeRegion_region s r
  rw [State.leave, State.modRegion_region_same]
  exact ⟨by rw [h.chanFence]; rfl, h.inc, h.limit⟩
theorem trip_steadyBut (s : State) (r : Nat) : s.SteadyBut (some r) (s.trip r) := by
  unfold State.trip
  simp only
  split
  · exact (State.Steady.refl s).but _
  · refine State.SteadyBut.trans ?_ (modRegion_steadyBut _ _ _)
    split
    · exact closeRegion_steadyBut _ _
    · exact leave_steadyBut _ _ _
    · exact leave_steadyBut _ _ _
    · exact (State.Steady.refl s).but _
theorem Region.Held.of_ended {x y : Region} (htripped : ¬ x.tripped = true) (hout : x.st ≠ .resetting) (hst : y.st = x.trippedSt)
    (hinc : y.inc = x.inc + 1) (hlimit : y.limit = x.limit) : x.Held { y with tripped := true } :=
  ⟨hlimit, rfl, fun h => (h.elim htripped hout).elim, fun _ _ => ⟨hinc, hst⟩⟩
theorem trip_region (s : State) (r : Nat) : (s.region r).Held ((s.trip r).region r) := by
  unfold State.trip
  simp only
  split
  next htripped => exact ⟨rfl, htripped, fun _ => ⟨rfl, rfl⟩, fun h => absurd (htripped.symm.trans h) nofun⟩
  next htripped =>
    rw [State.modRegion_region_same]
    have hout (hst : (s.region r).st = .free ∨ (s.region r).st = .fenced) :
        (s.region r).Held { (s.leave r (s.region r).st).region r with tripped := true } := by
      obtain ⟨st, inc, limit⟩ := leave_region s r (s.region r).st
      exact .of_ended htripped (by rcases hst with hst | hst <;> simp [hst]) (st.trans (trippedSt_of_free hst)) inc limit
    split
    next hst =>
      have h := closeRegion_region s r
      exact .of_ended htripped (by simp [hst]) (by simp only [Region.trippedSt, hst]; exact h.st) h.inc h.limit
    next hst => exact hout (.inl hst)
    next hst => exact hout (.inr hst)
    next hst => exact ⟨rfl, rfl, fun _ => ⟨rfl, rfl⟩, fun _ h => absurd hst h⟩

end Sys2Proof.Machine
end

section
namespace Sys2Proof.Machine

/-! A region that leaves reset (R253), and the opening of the regions that heat has held (R406). -/

theorem mem_coresOfRegion (r k : Nat) : k ∈ coresOfRegion r ↔ regionOfCore k = r := by
  simp only [coresOfRegion, List.mem_map, List.mem_range, regionOfCore, coreOfRegion, dieOfCore, colOfCore]
  constructor
  · rintro ⟨h, hh, rfl⟩
    omega
  · rintro rfl
    exact ⟨posInRegion k, by unfold posInRegion rowOfCore colOfCore; omega, by unfold posInRegion rowOfCore colOfCore; omega⟩

/-- What a byte reads as, and what is kept of a byte written, depend on these values of the region that holds it. -/
theorem hbmByte_of_region {s t : State} {pa : Nat} (hmem : SMap.get 0 t.mem pa = SMap.get 0 s.mem pa)
    (hst : (t.region (regionOfPa pa)).st = .free ↔ (s.region (regionOfPa pa)).st = .free)
    (hrta : (t.region (regionOfPa pa)).rta = (s.region (regionOfPa pa)).rta)
    (hkey : (t.region (regionOfPa pa)).key = (s.region (regionOfPa pa)).key) : t.hbmByte pa = s.hbmByte pa := by
  have harea : t.inRta pa = s.inRta pa := by simp only [State.inRta, ne_eq, hst, hrta]
  simp only [State.hbmByte, State.pad, hmem, harea, hkey]
theorem kept_of_region {s t : State} {pa : Nat} (b : Byte)
    (hst : (t.region (regionOfPa pa)).st = .free ↔ (s.region (regionOfPa pa)).st = .free)
    (hrta : (t.region (regionOfPa pa)).rta = (s.region (regionOfPa pa)).rta) : t.kept (.hbm pa) b = s.kept (.hbm pa) b := by
  simp only [State.kept, State.writeMask, hst, hrta]
theorem Region.Steady.free {x y : Region} (h : x.Steady y) : y.st = .free ↔ x.st = .free := by rw [h.st]

/-- What the CYCLE of a core counts from, once it has been set in some cores. -/
theorem setCycle_cycle (now : Word) (l : List Nat) (s : State) (j : Nat) :
    ((l.foldl (fun t k => t.modCore k (fun c => { c with cycle := now })) s).core j).cycle = if j ∈ l then now else (s.core j).cycle := by
  induction l generalizing s with
  | nil => simp
  | cons k l ih =>
    rw [List.foldl_cons, ih, State.modCore_core]
    by_cases hl : j ∈ l <;> by_cases hk : j = k <;> simp [hl, hk]
theorem setCycle_spec (now : Word) (l : List Nat) (s : State) :
    SameMemory s (l.foldl (fun t k => t.modCore k (fun c => { c with cycle := now })) s) := by
  induction l generalizing s with
  | nil => rfl
  | cons k l ih => exact (modCore_spec s k _).trans (ih _)

/-- The writes that place a region's image. -/
def Region.imageWrites (x : Region) : List (Loc × Byte) := x.placed.map (fun b => (.hbm b.1, b.2))
/-- The image of region r placed, and the region ASSIGNED: what it leaves reset with but for CYCLE. -/
def State.placeImage (s : State) (r : Nat) : State :=
  (s.putBytes (s.region r).imageWrites).modRegion r (fun y => { y with st := .assigned })

theorem placeImage_region_same (s : State) (r : Nat) : (s.placeImage r).region r = { s.region r with st := .assigned } := by
  rw [State.placeImage, State.modRegion_region_same, State.region_congr _ s (putBytes_regions _ _)]
theorem placeImage_region_other (s : State) (r q : Nat) (h : q ≠ r) : (s.placeImage r).region q = s.region q := by
  rw [State.placeImage, State.modRegion_region_other _ _ _ _ h, State.region_congr _ s (putBytes_regions _ _)]
theorem leaveReset_spec (s : State) (r : Nat) : SameMemory (s.placeImage r) (s.leaveReset r) := setCycle_spec _ _ _
theorem leaveReset_steadyBut (s : State) (r : Nat) : s.SteadyBut (some r) (s.leaveReset r) :=
  (((putBytes_steady _ _).but _).trans (modRegion_steadyBut _ _ _)).trans ((leaveReset_spec s r).steady.but _)
theorem leaveReset_regions (s : State) (r : Nat) : (s.leaveReset r).regions = (s.placeImage r).regions := by rw [leaveReset_spec s r]
theorem leaveReset_region (s : State) (r : Nat) : (s.leaveReset r).region r = { s.region r with st := .assigned } := by
  rw [State.region_congr _ _ (leaveReset_regions s r), placeImage_region_same]
theorem leaveReset_cycle (s : State) (r k : Nat) : ((s.leaveReset r).core k).cycle =
    if regionOfCore k = r then BitVec.ofNat 64 s.cycles - (s.region r).gated else (s.core k).cycle := by
  have hcores : (s.placeImage r).core k = s.core k := State.core_congr _ _ (by rw [State.placeImage, putBytes_frame]; rfl) k
  rw [State.leaveReset, setCycle_cycle, ← hcores]
  simp only [mem_coresOfRegion]
  rfl

/-- The placing of an image that lies in its region's stack leaves the bytes of other regions. -/
theorem leaveReset_reads_other (s : State) (r pa : Nat) (himage : ∀ b ∈ (s.region r).image, regionOfPa b.1 = r) (hpa : regionOfPa pa ≠ r) :
    (s.leaveReset r).reads (.hbm pa) = s.reads (.hbm pa) := by
  have hplace : (s.placeImage r).hbmByte pa = (s.putBytes (s.region r).imageWrites).hbmByte pa := by
    refine hbmByte_of_region (by rfl) ?_ ?_ ?_ <;>
      rw [placeImage_region_other _ _ _ hpa, State.region_congr _ s (putBytes_regions _ _)]
  refine ((leaveReset_spec s r).byteAt _).trans (hplace.trans (putBytes_other s _ (.hbm pa) ?_))
  intro w hw
  obtain ⟨b, hb, rfl⟩ := List.mem_map.1 hw
  refine .inl fun h => hpa ?_
  obtain rfl : pa = b.1 := by simpa [Loc.key] using h
  exact himage b (List.mem_filter.1 hb).1

/-- Of an image that lies in its region's stack, with one byte for an address and no pseudo-channel fenced, every byte outside the table
area is in place when the region leaves reset. -/
theorem leaveReset_reads_image (s : State) (r : Nat) (hst : (s.region r).st = .resetting) (hfence : (s.region r).chanFence = [])
    (himage : ∀ b ∈ (s.region r).image, regionOfPa b.1 = r) (hnodup : ((s.region r).image.map (·.1)).Nodup) {b : Nat × Byte}
    (hb : b ∈ (s.region r).image) (hout : b.1 < (s.region r).rta ∨ (s.region r).rta + 2 ^ 21 ≤ b.1) :
    (s.leaveReset r).reads (.hbm b.1) = (s.leaveReset r).kept (.hbm b.1) b.2 := by
  have hspec := leaveReset_spec s r
  have hb' : b ∈ (s.region r).placed := List.mem_filter.2 ⟨hb, decide_eq_true hout⟩
  have hr := himage b hb
  have hput : (s.putBytes (s.region r).imageWrites).byteAt (.hbm b.1) = s.kept (.hbm b.1) b.2 := by
    refine putBytes_get s _ ?_ ?_ (.hbm b.1, b.2) (List.mem_map_of_mem hb')
    · have hsub : ((s.region r).placed.map (·.1)).Nodup := hnodup.sublist (List.filter_sublist.map _)
      have hkeys : (s.region r).imageWrites.map (fun w => w.1.key) = ((s.region r).placed.map (·.1)).map (fun a => some (true, a)) := by
        simp [Region.imageWrites, Loc.key, Function.comp_def]
      rw [hkeys]
      exact hsub.map fun _ _ h => by simpa using h
    · intro w hw
      obtain ⟨c, hc, rfl⟩ := List.mem_map.1 hw
      refine State.chanDown_of_noFence s c.1 ?_
      rw [himage c (List.mem_filter.1 hc).1, hfence]
  have hplace : (s.placeImage r).hbmByte b.1 = (s.putBytes (s.region r).imageWrites).hbmByte b.1 := by
    refine hbmByte_of_region (by rfl) ?_ ?_ ?_ <;> rw [hr, placeImage_region_same, State.region_congr _ s (putBytes_regions _ _)]
    simp [hst]
  have hkept : (s.placeImage r).kept (.hbm b.1) b.2 = s.kept (.hbm b.1) b.2 := by
    apply kept_of_region <;> rw [hr, placeImage_region_same]
    simp [hst]
  rw [hspec.kept, hkept, ← hput]
  exact (hspec.byteAt _).trans hplace

end Sys2Proof.Machine
end

section
namespace Sys2Proof.Machine

/-! The two regions of a die, changed one after the other. -/

/-- CYCLE of region q's cores runs in t from where it did in s, and where `own` holds every byte of its stack reads as it did. -/
def State.Spares (own : Prop) (q : Nat) (s t : State) : Prop :=
  (∀ k, regionOfCore k = q → (t.core k).cycle = (s.core k).cycle) ∧
  (own → ∀ pa, regionOfPa pa = q → t.reads (.hbm pa) = s.reads (.hbm pa))

theorem State.Spares.trans {own : Prop} {q : Nat} {s t u : State} (h : State.Spares own q s t) (h' : State.Spares own q t u) :
    State.Spares own q s u := by
  obtain ⟨hc, hm⟩ := h
  obtain ⟨hc', hm'⟩ := h'
  exact ⟨fun k hk => (hc' k hk).trans (hc k hk), fun hown pa hpa => (hm' hown pa hpa).trans (hm hown pa hpa)⟩
theorem State.Notified.spares {s t : State} (h : s.Notified t) (own : Prop) {q : Nat} (hq : s.Single q) : State.Spares own q s t := by
  obtain ⟨hs, hm, hc⟩ := h
  refine ⟨fun k _ => hc k, fun _ pa hpa => ?_⟩
  subst hpa
  have hr := hs.region nofun hq
  exact hbmByte_of_region (by rw [hm]) hr.free hr.rta hr.key
theorem modRegion_spares (s : State) (r : Nat) (f : Region → Region) (own : Prop) {q : Nat} (hne : q ≠ r) :
    State.Spares own q s (s.modRegion r f) := by
  refine ⟨fun _ _ => rfl, fun _ pa hpa => ?_⟩
  subst hpa
  refine hbmByte_of_region (by rfl) ?_ ?_ ?_ <;> rw [State.modRegion_region_other _ _ _ _ hne]
theorem leaveReset_spares (s : State) (r : Nat) (own : Prop) (himage : own → ∀ b ∈ (s.region r).image, regionOfPa b.1 = r) {q : Nat}
    (hne : q ≠ r) : State.Spares own q s (s.leaveReset r) := by
  refine ⟨fun k hk => ?_, fun hown pa hpa => leaveReset_reads_other s r pa (himage hown) (by rwa [hpa])⟩
  rw [leaveReset_cycle, if_neg (by rwa [hk])]

/-- What leaving reset gives to region q, whose record was x, at a time (R242, R253). -/
def State.Opened (t : State) (own : Prop) (q : Nat) (x : Region) (now : Word) : Prop :=
  (t.region q).st = .assigned ∧ (∀ k, regionOfCore k = q → (t.core k).cycle = now - x.gated) ∧
  (own → (x.image.map (·.1)).Nodup → ∀ b ∈ x.image, b.1 < x.rta ∨ x.rta + 2 ^ 21 ≤ b.1 →
    t.reads (.hbm b.1) = t.kept (.hbm b.1) b.2)

theorem leaveReset_opened (s : State) (r : Nat) (own : Prop) (hst : (s.region r).st = .resetting) (hfence : (s.region r).chanFence = [])
    (himage : own → ∀ b ∈ (s.region r).image, regionOfPa b.1 = r) :
    (s.leaveReset r).Opened own r (s.region r) (BitVec.ofNat 64 s.cycles) :=
  ⟨by rw [leaveReset_region], fun k hk => by rw [leaveReset_cycle, if_pos hk],
    fun hown hnodup _ hb hout => leaveReset_reads_image s r hst hfence (himage hown) hnodup hb hout⟩
theorem State.Opened.mono {t u : State} {own : Prop} {q : Nat} {x : Region} {now : Word} (h : t.Opened own q x now)
    (himage : own → ∀ b ∈ x.image, regionOfPa b.1 = q) (hr : (t.region q).Steady (u.region q)) (hspares : State.Spares own q t u) :
    u.Opened own q x now := by
  obtain ⟨hst, hcycle, hplaced⟩ := h
  obtain ⟨hc, hm⟩ := hspares
  refine ⟨hr.st.trans hst, fun k hk => (hc k hk).trans (hcycle k hk), fun hown hnodup b hb hout => ?_⟩
  have hbq := himage hown b hb
  rw [hm hown _ hbq, hplaced hown hnodup b hb hout]
  subst hbq
  exact (kept_of_region b.2 hr.free hr.rta).symm

/-- A region whose pseudo-channels all work leaves reset; one with a fenced pseudo-channel becomes FENCED. Events follow. -/
theorem openRegion_notified (s : State) (r : Nat) (h : (s.region r).tripped = false) :
    (if (s.region r).chanFence.isEmpty then s.leaveReset r else s.modRegion r (fun y => { y with st := .fenced, island := r })).Notified
      (s.openRegion r) := by
  by_cases hfence : (s.region r).chanFence.isEmpty = true
  · simp only [State.openRegion, h, hfence, Bool.false_eq_true, if_false, if_true]
    exact (regionEvent_notified _ _ _ _ _).trans (regionEvents_notified _ _ _ _ _)
  · simp only [State.openRegion, h, hfence, Bool.false_eq_true, if_false]
    exact (without_notified _ _ _).trans (regionEvents_notified _ _ _ _ _)

/-- A region held because of heat is held no more, and opens where it is in reset (R406). -/
def State.reopen (s : State) (r : Nat) : State :=
  let t := s.modRegion r (fun x => { x with tripped := false })
  if (s.region r).tripped ∧ (s.region r).st = .resetting then t.openRegion r else t

/-- The same before the events of the opening. -/
def State.unheld (s : State) (r : Nat) : State :=
  let t := s.modRegion r (fun x => { x with tripped := false })
  if (s.region r).tripped ∧ (s.region r).st = .resetting then
    (if (s.region r).chanFence.isEmpty then t.leaveReset r else t.modRegion r (fun y => { y with st := .fenced, island := r }))
  else t

theorem unheld_notified (s : State) (r : Nat) : (s.unheld r).Notified (s.reopen r) := by
  have h := openRegion_notified (s.modRegion r (fun x => { x with tripped := false })) r (by rw [State.modRegion_region_same])
  rw [State.modRegion_region_same] at h
  unfold State.unheld State.reopen
  simp only
  split
  · exact h
  · exact .refl _
theorem unheld_steadyBut (s : State) (r : Nat) : s.SteadyBut (some r) (s.unheld r) := by
  have h := modRegion_steadyBut s r (fun x => { x with tripped := false })
  unfold State.unheld
  simp only
  split
  · split
    · exact h.trans (leaveReset_steadyBut _ _)
    · exact h.trans (modRegion_steadyBut _ _ _)
  · exact h
theorem reopen_steadyBut (s : State) (r : Nat) : s.SteadyBut (some r) (s.reopen r) :=
  (unheld_steadyBut s r).trans ((unheld_notified s r).steady.but _)

/-- The reopening of another region spares a region. -/
theorem reopen_spares (s : State) (r : Nat) (own : Prop) (himage : own → ∀ b ∈ (s.region r).image, regionOfPa b.1 = r) {q : Nat} (hne : q ≠ r)
    (hq : s.Single q) : State.Spares own q s (s.reopen r) := by
  have h := modRegion_spares s r (fun x => { x with tripped := false }) own hne
  refine State.Spares.trans ?_ ((unheld_notified s r).spares own ((unheld_steadyBut s r).single (by simpa using hne) hq))
  unfold State.unheld
  simp only
  split
  · split
    · exact h.trans (leaveReset_spares _ r own (by simpa using himage) hne)
    · exact h.trans (modRegion_spares _ _ _ _ hne)
  · exact h

/-- Region q has been reopened since s: what its record and what it holds are now. -/
def State.Reopened (own : Prop) (s t : State) (q : Nat) : Prop :=
  t.Single q ∧ (t.region q).limit = (s.region q).limit ∧ (t.region q).tripped = false ∧
  ((s.region q).tripped = true → (s.region q).st = .resetting → (s.region q).chanFence = [] →
    t.Opened own q (s.region q) (BitVec.ofNat 64 s.cycles)) ∧
  ((s.region q).tripped = false ∨ (s.region q).st ≠ .resetting → (t.region q).st = (s.region q).st)

theorem State.Reopened.mono {own : Prop} {s t u : State} {q : Nat} (h : State.Reopened own s t q)
    (himage : own → ∀ b ∈ (s.region q).image, regionOfPa b.1 = q) {r : Option Nat} (hne : some q ≠ r) (htu : t.SteadyBut r u)
    (hspares : State.Spares own q t u) : State.Reopened own s u q := by
  obtain ⟨hsingle, hlimit, htripped, hopened, hst⟩ := h
  have hr := htu.region hne hsingle
  exact ⟨htu.single hne hsingle, hr.limit.trans hlimit, hr.tripped.trans htripped,
    fun h h' h'' => (hopened h h' h'').mono himage hr hspares, fun h => hr.st.trans (hst h)⟩
theorem State.Reopened.of_steady {own : Prop} {s s' t : State} {q : Nat} (h : State.Reopened own s' t q) {r : Option Nat} (hne : some q ≠ r)
    (hs : s.SteadyBut r s') (hq : s.Single q) : State.Reopened own s t q := by
  have hr := hs.region hne hq
  unfold State.Reopened State.Opened at h ⊢
  rwa [hr.limit, hr.tripped, hr.st, hr.chanFence, hr.image, hr.gated, hr.rta, hs.cycles] at h

theorem unheld_reopened (s : State) (r : Nat) (own : Prop) (himage : own → ∀ b ∈ (s.region r).image, regionOfPa b.1 = r) :
    State.Reopened own s (s.unheld r) r := by
  have hregion := State.modRegion_region_same s r (fun x => { x with tripped := false })
  have hopen := leaveReset_opened (s.modRegion r (fun x => { x with tripped := false })) r own
  rw [hregion] at hopen
  unfold State.unheld
  simp only
  split
  next hheld =>
    obtain ⟨htripped, hst⟩ := hheld
    have hno : ¬ ((s.region r).tripped = false ∨ (s.region r).st ≠ .resetting) := by simp [htripped, hst]
    split
    next hfence =>
      have h := hopen hst (by simpa using hfence) himage
      refine ⟨?_, by rw [leaveReset_region, hregion], by rw [leaveReset_region, hregion], fun _ _ _ => h, fun h => (hno h).elim⟩
      rw [State.Single, leaveReset_regions]
      exact modRegion_single _ _ _
    next hfence =>
      refine ⟨modRegion_single _ _ _, ?_, ?_, fun _ _ h => (hfence (by simp [h])).elim, fun h => (hno h).elim⟩ <;>
        rw [State.modRegion_region_same, hregion]
  next hheld =>
    exact ⟨modRegion_single _ _ _, by rw [hregion], by rw [hregion], fun h h' _ => (hheld ⟨h, h'⟩).elim, fun _ => by rw [hregion]⟩
theorem reopen_reopened (s : State) (r : Nat) (own : Prop) (himage : own → ∀ b ∈ (s.region r).image, regionOfPa b.1 = r) :
    State.Reopened own s (s.reopen r) r := by
  have h := unheld_reopened s r own himage
  have hn := unheld_notified s r
  have hsingle : (s.unheld r).Single r := by obtain ⟨h, -⟩ := h; exact h
  exact h.mono (r := none) himage nofun hn.steady (hn.spares own hsingle)

/-- Two regions reopened one after the other are both reopened. -/
theorem reopen_both (s : State) (a b : Nat) (own : Prop) (hab : a ≠ b) (hb : s.Single b)
    (himage : own → ∀ q, q = a ∨ q = b → ∀ c ∈ (s.region q).image, regionOfPa c.1 = q) :
    ((s.reopen a).reopen b).dtemp = s.dtemp ∧ ((s.reopen a).reopen b).mstatus = s.mstatus ∧
    ∀ q, q = a ∨ q = b → State.Reopened own s ((s.reopen a).reopen b) q := by
  have hfirst := reopen_steadyBut s a
  have hsecond := reopen_steadyBut (s.reopen a) b
  have hne : some b ≠ some a := by simpa using hab.symm
  have himageb : own → ∀ c ∈ ((s.reopen a).region b).image, regionOfPa c.1 = b := by
    rw [(hfirst.region hne hb).image]
    exact fun h => himage h b (.inr rfl)
  refine ⟨hsecond.dtemp.trans hfirst.dtemp, hsecond.mstatus.trans hfirst.mstatus, fun q hq => ?_⟩
  rcases hq with rfl | rfl
  · have h := reopen_reopened s q own fun h => himage h q (.inl rfl)
    have hsingle : (s.reopen q).Single q := by obtain ⟨h, -⟩ := h; exact h
    exact h.mono (fun h => himage h q (.inl rfl)) (by simpa using hab) hsecond (reopen_spares _ _ own himageb hab hsingle)
  · exact (reopen_reopened _ q own himageb).of_steady hne hfirst hb

end Sys2Proof.Machine
end

section
namespace Sys2Proof.Machine

/-! Heat (R406). -/

/-- Whether region q lies on die d. -/
def onDie (d q : Nat) : Prop := q = 2 * d ∨ q = 2 * d + 1

/-- A temperature shown changes the record of the die's regions and nothing else of a region. -/
theorem setTemp_region (s : State) (d : DieId) (deg : BitVec 8) (f : Region → Region) (q : Nat) :
    (s.setTemp d deg f).region q = if q = 2 * d.val ∨ q = 2 * d.val + 1 then f (s.region q) else s.region q := by
  simp only [State.setTemp, State.modRegion_region]
  by_cases h : q = 2 * d.val
  · subst h; simp; rfl
  · by_cases h' : q = 2 * d.val + 1
    · subst h'; simp; rfl
    · simp [h, h']; rfl
theorem setTemp_single (s : State) (d : DieId) (deg : BitVec 8) (f : Region → Region) {q : Nat} (hq : onDie d.val q) :
    (s.setTemp d deg f).Single q := by
  rcases hq with rfl | rfl
  · exact (SMap.single_put_same _ _ _ _).put _ _ _
  · exact modRegion_single _ _ _

/-- Firmware of a die acts for its regions. -/
theorem firmware_of_die (s : State) (d : DieId) (h : s.mstatus.fwready = true ∧ s.fanovDown.getLsbD d.val = false) :
    s.firmware (2 * d.val) = true := by
  obtain ⟨hready, hup⟩ := h
  have hdie : 2 * d.val / 2 = d.val := by omega
  rw [State.firmware, hdie, hready, hup]
  rfl

/-- The state with the limits of a hot die's regions lowered, and HOT and TRIP set: what TEMP_TRIP resets the regions in. -/
def State.tooHot (s : State) (d : DieId) (deg : BitVec 8) : State :=
  { (s.setTemp d deg (·.setLimit 1000)) with mstatus := { s.mstatus with hot := true, trip := true } }

theorem tooHot_single (s : State) (d : DieId) (deg : BitVec 8) {q : Nat} (hq : onDie d.val q) : (s.tooHot d deg).Single q :=
  setTemp_single s d deg (·.setLimit 1000) hq
theorem tooHot_region (s : State) (d : DieId) (deg : BitVec 8) {q : Nat} (hq : onDie d.val q) :
    (s.tooHot d deg).region q = (s.region q).setLimit 1000 := (setTemp_region s d deg (·.setLimit 1000) q).trans (if_pos hq)

theorem tempHot_next (s : State) (d : DieId) (deg : BitVec 8) (hacts : s.mstatus.fwready = true ∧ s.fanovDown.getLsbD d.val = false)
    (hlow : 105 ≤ deg.toNat) (hhigh : deg.toNat < 115) : exec (.tempHot d deg) s =
      .next { (s.setTemp d deg (·.setLimit 1000)) with mstatus := { s.mstatus with hot := true } } := by
  refine if_neg ?_
  simp only [firmware_of_die s d hacts, BitVec.lt_def, BitVec.le_def]
  simp
  omega
theorem tempTrip_next (s : State) (d : DieId) (deg : BitVec 8) (hacts : s.mstatus.fwready = true ∧ s.fanovDown.getLsbD d.val = false)
    (hlow : 115 ≤ deg.toNat) : exec (.tempTrip d deg) s =
      .next (((s.tooHot d deg).trip (2 * d.val)).trip (2 * d.val + 1)) := by
  refine if_neg ?_
  simp only [firmware_of_die s d hacts, BitVec.lt_def]
  simp
  omega
theorem tempRecover_next (s : State) (d : DieId) (deg : BitVec 8) (hacts : s.mstatus.fwready = true ∧ s.fanovDown.getLsbD d.val = false)
    (hhigh : deg.toNat < 100) (hreset : deg.toNat < 95 → ∀ q, onDie d.val q → (s.region q).tripped = true → (s.region q).st = .resetting →
      s.mayReset q = true) : exec (.tempRecover d deg) s =
      .next (if 95 ≤ deg.toNat then s.setTemp d deg (·.setLimit 1250)
        else ((s.setTemp d deg (·.setLimit 1250)).reopen (2 * d.val)).reopen (2 * d.val + 1)) := by
  have hopens : ([2 * d.val, 2 * d.val + 1].filter (fun r => decide (deg < 95 ∧ (s.region r).tripped ∧ (s.region r).st = .resetting))).all
      s.mayReset = true := by
    rw [List.all_eq_true]
    intro q hq
    obtain ⟨hmem, hcond⟩ := List.mem_filter.1 hq
    obtain ⟨hdeg, htripped, hst⟩ := of_decide_eq_true hcond
    exact hreset (by simpa [BitVec.lt_def] using hdeg) q (by simpa [onDie] using hmem) htripped hst
  refine (if_neg ?_).trans ?_
  · rw [hopens, firmware_of_die s d hacts]
    simp [BitVec.le_def]
    omega
  · simp only [BitVec.le_def]
    rfl

/-- The limits of a die's regions lowered or returned, by a temperature. -/
theorem setTemp_limit_region (s : State) (d : DieId) (deg : BitVec 8) (n : BitVec 11) (q : Nat) :
    (s.setTemp d deg (·.setLimit n)).region q = if q = 2 * d.val ∨ q = 2 * d.val + 1 then
      { s.region q with limit := n, throttled := decide (n < (s.region q).amps) } else s.region q := setTemp_region _ _ _ _ _

theorem Region.Held.mono {x y z : Region} (h : x.Held y) (hz : y.Steady z) : x.Held z := by
  unfold Region.Held at *
  rwa [hz.limit, hz.tripped, hz.st, hz.inc]
theorem Region.Held.of_steady {x y z : Region} (h : y.Held z) (hy : x.Steady y) : x.Held z := by
  unfold Region.Held Region.trippedSt at *
  rwa [hy.limit, hy.tripped, hy.st, hy.inc, hy.chanFence] at h
theorem trip_single (s : State) (r : Nat) (h : s.Single r) : (s.trip r).Single r := by
  unfold State.trip
  simp only
  split
  · exact h
  · exact modRegion_single _ _ _
/-- Two regions tripped one after the other are both held. -/
theorem trip_both (s : State) (a b : Nat) (hab : a ≠ b) (ha : s.Single a) (hb : s.Single b) :
    ((s.trip a).trip b).dtemp = s.dtemp ∧ ((s.trip a).trip b).mstatus = s.mstatus ∧
    ∀ q, q = a ∨ q = b → (s.region q).Held (((s.trip a).trip b).region q) := by
  have hfirst := trip_steadyBut s a
  have hsecond := trip_steadyBut (s.trip a) b
  refine ⟨hsecond.dtemp.trans hfirst.dtemp, hsecond.mstatus.trans hfirst.mstatus, fun q hq => ?_⟩
  rcases hq with rfl | rfl
  · exact (trip_region s q).mono (hsecond.region (by simpa using hab) (trip_single s q ha))
  · exact (trip_region _ q).of_steady (hfirst.region (by simpa using hab.symm) hb)

/-! No cycle passes before firmware has reacted (assumption 36). -/

/-- What a die's temperature calls for, where firmware can do it, comes before the next cycle. -/
theorem mayTick_of_heatDue (s : State) (d : DieId) (i : Instr) (hdue : i ∈ s.heatDue d) {t : State} (hnext : exec i s = .next t) (n : Nat) :
    s.mayTick n = false := by
  have hlate : s.late = true := by
    refine List.any_eq_true.2 ⟨i, ?_, by rw [hnext]⟩
    exact List.mem_append_right _ (List.mem_flatMap.2 ⟨d, List.mem_finRange d, hdue⟩)
  simp [State.mayTick, hlate]
theorem die_any (s : State) (d : DieId) (p : Region → Bool) {q : Nat} (hq : onDie d.val q) (h : p (s.region q) = true) :
    [s.region (2 * d.val), s.region (2 * d.val + 1)].any p = true :=
  List.any_eq_true.2 ⟨s.region q, by rcases hq with rfl | rfl <;> simp, h⟩
theorem tempTrip_due (s : State) (d : DieId) (hdeg : 115 ≤ (s.dtemp.get d).toNat) {q : Nat} (hq : onDie d.val q)
    (hheld : (s.region q).tripped = false) : .tempTrip d (s.dtemp.get d) ∈ s.heatDue d := by
  refine List.mem_append_left _ (List.mem_append_left _ ?_)
  rw [if_pos ⟨BitVec.le_def.2 hdeg, die_any s d (fun x => !x.tripped) hq (by simp [hheld])⟩]
  exact List.mem_singleton_self _
theorem tempHot_due (s : State) (d : DieId) (hlow : 105 ≤ (s.dtemp.get d).toNat) (hhigh : (s.dtemp.get d).toNat < 115) {q : Nat}
    (hq : onDie d.val q) (hlimit : (s.region q).limit ≠ 1000) : .tempHot d (s.dtemp.get d) ∈ s.heatDue d := by
  refine List.mem_append_left _ (List.mem_append_right _ ?_)
  rw [if_pos ⟨BitVec.le_def.2 hlow, BitVec.lt_def.2 hhigh, die_any s d (fun x => x.limit != 1000) hq (bne_iff_ne.2 hlimit)⟩]
  exact List.mem_singleton_self _

end Sys2Proof.Machine
end

section
open Sys2Proof Sys2Proof.Machine

/-- Settles O56. A reset because of heat and the opening of a held region are each a change of one region that leaves the other region
of the die steady; everything else is a change of the two records. -/
theorem throttlingAndTemperature : Obligations.ThrottlingAndTemperature := by
  unfold Obligations.ThrottlingAndTemperature
  intro s r d amps deg x only mine limits acts
  refine ⟨fun hover => ?throttle, fun hthrottled hunder => ?release, fun hacts hlow hhigh => ?hot, fun hacts hlow => ?trip,
    fun hacts hdeg hq n => ?noTickTrip, fun hacts hlow hhigh hq n => ?noTickHot, fun hacts hlow hhigh => ?recover,
    fun hacts hdeg hreset => ?reopen, fun rest hsched => ?sensor⟩
  case throttle =>
    exact ⟨_, if_neg (by simpa using hover), rfl, fun q => State.modRegion_region _ _ _ _⟩
  case release =>
    exact ⟨_, if_neg (by simpa using ⟨hthrottled, hunder⟩), rfl, fun q => State.modRegion_region _ _ _ _⟩
  case hot =>
    refine ⟨_, tempHot_next s d deg hacts hlow hhigh, ?_⟩
    have hlimit := setTemp_limit_region s d deg 1000
    refine ⟨⟨?_, ?_, hlimit⟩, ?_⟩
    · rfl
    · rfl
    · rfl
  case trip =>
    obtain ⟨hdtemp, hmstatus, hheld⟩ := trip_both (s.tooHot d deg) (2 * d.val) (2 * d.val + 1) (by omega)
      (tooHot_single s d deg (.inl rfl)) (tooHot_single s d deg (.inr rfl))
    refine ⟨_, tempTrip_next s d deg hacts hlow, by rw [hdtemp]; rfl, by rw [hmstatus]; rfl, fun q hq => ?_⟩
    have h := hheld q hq
    rw [tooHot_region s d deg hq] at h
    exact h
  case noTickTrip =>
    obtain ⟨q, hq, hheld⟩ := hq
    exact mayTick_of_heatDue s d _ (tempTrip_due s d hdeg hq hheld) (tempTrip_next s d _ hacts hdeg) n
  case noTickHot =>
    obtain ⟨q, hq, hlimit⟩ := hq
    exact mayTick_of_heatDue s d _ (tempHot_due s d hlow hhigh hq hlimit) (tempHot_next s d _ hacts hlow hhigh) n
  case recover =>
    refine ⟨_, tempRecover_next s d deg hacts hhigh (fun h => absurd h (by omega)), ?_⟩
    rw [if_pos hlow]
    exact ⟨⟨rfl, rfl, setTemp_limit_region s d deg 1250⟩, rfl⟩
  case reopen =>
    refine ⟨_, tempRecover_next s d deg hacts (by omega) (fun _ => hreset), ?_⟩
    rw [if_neg (by omega)]
    have hregion : ∀ q, mine q → (s.setTemp d deg (·.setLimit 1250)).region q = (s.region q).setLimit 1250 :=
      fun q hq => (setTemp_region s d deg _ q).trans (if_pos hq)
    obtain ⟨hdtemp, hmstatus, hreopened⟩ := reopen_both (s.setTemp d deg (·.setLimit 1250)) (2 * d.val) (2 * d.val + 1)
      (∀ p, mine p → ∀ b ∈ (s.region p).image, b.1 / 2 ^ 36 = p) (by omega) (setTemp_single s d deg _ (.inr rfl))
      (fun h p hp => by rw [hregion p hp]; exact h p hp)
    refine ⟨by rw [hmstatus]; rfl, by rw [hdtemp]; rfl, fun q hq => ?_⟩
    obtain ⟨-, hlimit, htripped, hopened, hst⟩ := hreopened q hq
    rw [hregion q hq] at hlimit hopened hst
    exact ⟨hlimit, htripped, hopened, hst⟩
  case sensor =>
    refine ⟨({ s with sched := rest } : State).setTemp d deg id, by rw [step, hsched]; rfl, rfl, fun q => ?_⟩
    exact (setTemp_region _ d deg id q).trans (ite_self _)

end

section
/-! PROOF. Floating-point patterns by their fields (R24 to R30): the value, the order and the class of a pattern, rounding to an integer,
and the conversions that need no rounding, for O5. -/

namespace Sys2Proof.Machine

/-! Patterns by their fields (R24 to R26). -/

theorem FpFmt.width_eq (f : FpFmt) : f.width = f.ebits + f.mbits + 1 := by cases f <;> rfl

theorem FpFmt.oneNan_eq_canonNan (f : FpFmt) : f.oneNan = f.canonNan := by cases f <;> rfl

/-- The largest exponent is that of two biases and one more. -/
theorem FpFmt.two_bias (f : FpFmt) : 2 * f.bias + 2 = 2 ^ f.ebits := by cases f <;> rfl

theorem FpFmt.expOf_lt (f : FpFmt) (b : Nat) : f.expOf b < 2 ^ f.ebits := Nat.mod_lt _ (Nat.two_pow_pos _)

theorem FpFmt.fracOf_lt (f : FpFmt) (b : Nat) : f.fracOf b < 2 ^ f.mbits := Nat.mod_lt _ (Nat.two_pow_pos _)

theorem FpFmt.magOf_eq (f : FpFmt) (b : Nat) : f.magOf b = 2 ^ f.mbits * f.expOf b + f.fracOf b := by
  have hw : f.width - 1 = f.mbits + f.ebits := by rw [f.width_eq]; omega
  rw [FpFmt.magOf, hw, Nat.pow_add, Nat.mod_mul, Nat.add_comm]
  rfl

/-- The exponent and the fraction are those of the magnitude. -/
theorem FpFmt.magOf_div (f : FpFmt) (b : Nat) : f.magOf b / 2 ^ f.mbits = f.expOf b := by
  rw [f.magOf_eq, Nat.mul_add_div (Nat.two_pow_pos _), Nat.div_eq_of_lt (f.fracOf_lt b), Nat.add_zero]

theorem FpFmt.magOf_mod (f : FpFmt) (b : Nat) : f.magOf b % 2 ^ f.mbits = f.fracOf b := by
  rw [f.magOf_eq, Nat.mul_add_mod, Nat.mod_eq_of_lt (f.fracOf_lt b)]

@[simp] theorem FpFmt.fracOf_low (f : FpFmt) (b : Nat) : f.fracOf (b % 2 ^ f.width) = f.fracOf b :=
  Nat.mod_mod_of_dvd _ (Nat.pow_dvd_pow 2 (by rw [f.width_eq]; omega))

@[simp] theorem FpFmt.expOf_low (f : FpFmt) (b : Nat) : f.expOf (b % 2 ^ f.width) = f.expOf b := by
  have hw : f.width = f.mbits + (f.ebits + 1) := by rw [f.width_eq]; omega
  rw [FpFmt.expOf, hw, Nat.pow_add, Nat.mod_mul_right_div_self]
  exact Nat.mod_mod_of_dvd _ (Nat.pow_dvd_pow 2 (Nat.le_succ _))

@[simp] theorem FpFmt.signOf_low (f : FpFmt) (b : Nat) : f.signOf (b % 2 ^ f.width) = f.signOf b := by
  have hw : f.width - 1 < f.width := by rw [f.width_eq]; omega
  simp [FpFmt.signOf, Nat.testBit_mod_two_pow, hw]

theorem FpFmt.signOf_eq (f : FpFmt) (b : Nat) : f.signOf b = (b / 2 ^ (f.width - 1) % 2 == 1) := by
  rw [FpFmt.signOf, Nat.testBit_eq_decide_div_mod_eq]
  rfl

theorem FpFmt.sigOf_eq_zero (f : FpFmt) (b : Nat) : f.sigOf b = 0 ↔ f.magOf b = 0 := by
  have hpow := Nat.two_pow_pos f.mbits
  rw [FpFmt.sigOf, f.magOf_eq]
  split <;> simp_all

/-- A pattern of the smallest exponents has the scale of the subnormals. -/
theorem FpFmt.scaleOf_eq (f : FpFmt) (b : Nat) : f.scaleOf b = f.qmin + ((max (f.expOf b) 1 - 1 : Nat) : Int) := by
  unfold FpFmt.scaleOf FpFmt.qmin
  omega

/-- The value of a pattern, by its fields. -/
theorem fpVal_eq (f : FpFmt) (b : Nat) : fpVal f false b =
    if f.nanAt b then .nan (f.sigAt b) else if f.infAt b then .inf (f.signOf b)
    else if f.sigOf b = 0 then .fin (f.signOf b) 0 0 else .fin (f.signOf b) (f.sigOf b) (f.scaleOf b) := by
  have hbig : 0 ≠ 2 ^ f.ebits - 1 := by cases f <;> decide
  have hquiet : (f.fracOf b / 2 ^ (f.mbits - 1) == 0) = decide (f.fracOf b < 2 ^ (f.mbits - 1)) := by
    rw [beq_eq_decide, decide_eq_decide, Nat.div_eq_zero_iff_lt (Nat.two_pow_pos _)]
  have hfin : ∀ he : f.expOf b ≠ 0, f.sigOf b = 2 ^ f.mbits + f.fracOf b ∧ f.sigOf b ≠ 0 ∧
      f.scaleOf b = f.qmin + ((f.expOf b : Int) - 1) := by
    intro he
    have hsig : f.sigOf b = 2 ^ f.mbits + f.fracOf b := by rw [FpFmt.sigOf, if_neg he, Nat.add_comm]
    have hpow := Nat.two_pow_pos f.mbits
    refine ⟨hsig, by omega, ?_⟩
    rw [f.scaleOf_eq]
    omega
  unfold fpVal
  simp only [← FpFmt.signOf_eq, ← show f.expOf b = b / 2 ^ f.mbits % 2 ^ f.ebits from rfl,
    ← show f.fracOf b = b % 2 ^ f.mbits from rfl, hquiet]
  by_cases htop : f.expOf b = 2 ^ f.ebits - 1
  · obtain ⟨hsig, hsig0, hscale⟩ := hfin (htop ▸ hbig.symm)
    by_cases h4 : f = .e4
    · subst h4
      by_cases h7 : FpFmt.fracOf .e4 b = 7
      · simp [htop, h7, FpFmt.nanAt, FpFmt.sigAt, FpFmt.mbits]
      · simp [htop, h7, FpFmt.nanAt, FpFmt.infAt, hbig.symm, hsig0]
        simp [hsig, hscale, htop]
    · by_cases h0 : f.fracOf b = 0
      · simp [htop, h4, h0, FpFmt.nanAt, FpFmt.infAt]
      · simp [htop, h4, h0, FpFmt.nanAt, FpFmt.sigAt]
  · have hnan : f.nanAt b = false := by simp [FpFmt.nanAt, htop]
    have hinf : f.infAt b = false := by simp [FpFmt.infAt, htop]
    by_cases he : f.expOf b = 0
    · have hscale : f.scaleOf b = f.qmin := by rw [f.scaleOf_eq, he]; simp
      by_cases h0 : f.fracOf b = 0 <;> simp [hbig, hnan, hinf, he, h0, FpFmt.sigOf, hscale]
    · obtain ⟨hsig, hsig0, hscale⟩ := hfin he
      simp [htop, hnan, hinf, he, hsig0]
      simp [hsig, hscale]

/-- What is read is the pattern's low bits. -/
@[simp] theorem fpVal_low (f : FpFmt) (b : Nat) : fpVal f false (b % 2 ^ f.width) = fpVal f false b := by
  simp [fpVal_eq, FpFmt.nanAt, FpFmt.sigAt, FpFmt.infAt, FpFmt.sigOf, FpFmt.scaleOf]

theorem isNan_fpVal (f : FpFmt) (b : Nat) : (fpVal f false b).isNan = f.nanAt b := by
  rw [fpVal_eq]
  split
  · simp [Num.isNan, *]
  · split <;> [skip; split] <;> simp_all [Num.isNan]

theorem sigFlag_fpVal (f : FpFmt) (b : Nat) : sigFlag (fpVal f false b) = if f.sigAt b then 0x01 else 0 := by
  rw [fpVal_eq]
  by_cases hn : f.nanAt b = true
  · cases h : f.sigAt b <;> simp [hn, sigFlag, flagNV]
  · have h : f.sigAt b = false := by simp [FpFmt.sigAt, hn]
    by_cases hi : f.infAt b = true <;> by_cases h0 : f.sigOf b = 0 <;> simp [hn, h, hi, h0, sigFlag]

/-! The order of values. -/

/-- A finite magnitude in the smallest units of its format. -/
def FpFmt.unitMag (f : FpFmt) (mag : Nat) : Nat :=
  (if mag / 2 ^ f.mbits = 0 then mag % 2 ^ f.mbits else mag % 2 ^ f.mbits + 2 ^ f.mbits) * 2 ^ (max (mag / 2 ^ f.mbits) 1 - 1)

/-- A finite magnitude is its significand at its scale. -/
theorem FpFmt.unitMag_magOf (f : FpFmt) (b : Nat) : f.unitMag (f.magOf b) = f.sigOf b * 2 ^ (f.scaleOf b - f.qmin).toNat := by
  have hscale : (f.scaleOf b - f.qmin).toNat = max (f.expOf b) 1 - 1 := by rw [f.scaleOf_eq]; omega
  rw [FpFmt.unitMag, f.magOf_div, f.magOf_mod, hscale]
  rfl

@[simp] theorem FpFmt.unitMag_zero (f : FpFmt) : f.unitMag 0 = 0 := by simp [FpFmt.unitMag]

/-- A larger magnitude has the larger value: either its fraction is larger, or its exponent, and then its fraction may be smaller. -/
theorem FpFmt.unitMag_strictMono (f : FpFmt) : StrictMono f.unitMag := by
  refine strictMono_nat_of_lt_succ fun n => ?_
  have hpow := Nat.two_pow_pos f.mbits
  have hdiv := Nat.div_add_mod n (2 ^ f.mbits)
  have hmod := Nat.mod_lt n hpow
  unfold FpFmt.unitMag
  generalize he : n / 2 ^ f.mbits = e at *
  generalize hr : n % 2 ^ f.mbits = r at *
  by_cases hroom : r + 1 < 2 ^ f.mbits
  · have hn : n + 1 = 2 ^ f.mbits * e + (r + 1) := by omega
    rw [hn, Nat.mul_add_div hpow, Nat.mul_add_mod, Nat.div_eq_of_lt hroom, Nat.mod_eq_of_lt hroom, Nat.add_zero]
    exact Nat.mul_lt_mul_of_pos_right (by split <;> omega) (Nat.two_pow_pos _)
  · have hn : n + 1 = 2 ^ f.mbits * (e + 1) := by rw [Nat.mul_add]; omega
    rw [hn, Nat.mul_div_cancel_left _ hpow, Nat.mul_mod_right]
    rcases Nat.eq_zero_or_pos e with rfl | hpos
    · simp; omega
    · have h2 : 2 ^ e = 2 * 2 ^ (e - 1) := by rw [← Nat.pow_succ', Nat.succ_eq_add_one, Nat.sub_add_cancel hpos]
      rw [if_neg (by omega), if_neg (by omega), show max e 1 - 1 = e - 1 by omega, show max (e + 1) 1 - 1 = e by omega, h2]
      calc _ < (2 ^ f.mbits + 2 ^ f.mbits) * 2 ^ (e - 1) := Nat.mul_lt_mul_of_pos_right (by omega) (Nat.two_pow_pos _)
        _ = _ := by ring

/-- A natural number with a sign put on. -/
abbrev signed (n : Bool) (m : Nat) : Int := if n then -(m : Int) else m

/-- A sum in its own units, counted in smaller ones. -/
theorem dyadicAdd_units (n₁ : Bool) (m₁ : Nat) (e₁ : Int) (n₂ : Bool) (m₂ : Nat) (e₂ q : Int) (h₁ : q ≤ e₁) (h₂ : q ≤ e₂) :
    (dyadicAdd n₁ m₁ e₁ n₂ m₂ e₂).1 * 2 ^ (min e₁ e₂ - q).toNat =
      signed n₁ (m₁ * 2 ^ (e₁ - q).toNat) + signed n₂ (m₂ * 2 ^ (e₂ - q).toNat) := by
  have hpow : ∀ e, min e₁ e₂ ≤ e → (2 : Int) ^ (e - min e₁ e₂).toNat * 2 ^ (min e₁ e₂ - q).toNat = 2 ^ (e - q).toNat := by
    intro e he
    rw [← pow_add]
    congr 1
    omega
  have hp₁ := hpow e₁ (min_le_left _ _)
  have hp₂ := hpow e₂ (min_le_right _ _)
  simp only [dyadicAdd, signed]
  push_cast
  rw [← hp₁, ← hp₂]
  split <;> split <;> ring

theorem sign_congr {a b : Int} (hneg : a < 0 ↔ b < 0) (hpos : 0 < a ↔ 0 < b) : a.sign = b.sign := by
  rcases lt_trichotomy b 0 with h | rfl | h
  · rw [Int.sign_eq_neg_one_of_neg h, Int.sign_eq_neg_one_of_neg (hneg.2 h)]
  · rw [show a = 0 by omega]
  · rw [Int.sign_eq_one_of_pos h, Int.sign_eq_one_of_pos (hpos.2 h)]

/-- Signed magnitudes compare as their images under a function that rises from 0 do. -/
theorem sign_of_strictMono {u : Nat → Nat} (hu : StrictMono u) (h0 : u 0 = 0) (s t : Bool) (x y : Nat) :
    Int.sign (signed s (u x) - signed t (u y)) = Int.sign (signed s x - signed t y) := by
  have hlt := hu.lt_iff_lt (a := x) (b := y)
  have hgt := hu.lt_iff_lt (a := y) (b := x)
  have hx := hu.lt_iff_lt (a := 0) (b := x)
  have hy := hu.lt_iff_lt (a := 0) (b := y)
  rw [h0] at hx hy
  refine sign_congr ?_ ?_ <;> cases s <;> cases t <;> simp only [signed, if_true, Bool.false_eq_true, if_false] <;> omega

theorem FpFmt.rankOf_eq (f : FpFmt) (b : Nat) : f.rankOf b = signed (f.signOf b) (f.magOf b) := rfl

/-- The value of a finite pattern is a number whose magnitude, in the smallest units, is that of the pattern. -/
theorem fpVal_finite (f : FpFmt) (b : Nat) (hnan : f.nanAt b = false) (hinf : f.infAt b = false) :
    ∃ m e, fpVal f false b = .fin (f.signOf b) m e ∧ f.qmin ≤ e ∧ m * 2 ^ (e - f.qmin).toNat = f.unitMag (f.magOf b) := by
  rw [fpVal_eq, hnan, hinf]
  by_cases h0 : f.sigOf b = 0
  · refine ⟨0, 0, by simp [h0], by cases f <;> decide, ?_⟩
    rw [(f.sigOf_eq_zero b).1 h0]
    simp
  · exact ⟨_, _, by simp [h0], by rw [f.scaleOf_eq]; omega, (f.unitMag_magOf b).symm⟩

theorem FpFmt.magOf_of_inf (f : FpFmt) (b : Nat) (h : f.infAt b = true) : f.magOf b = 2 ^ f.mbits * (2 ^ f.ebits - 1) := by
  simp only [FpFmt.infAt, Bool.and_eq_true, beq_iff_eq] at h
  rw [f.magOf_eq, h.1.2, h.2, Nat.add_zero]

/-- A finite pattern has no largest exponent; in E4 it may have. -/
theorem FpFmt.expOf_lt_of_finite (f : FpFmt) (b : Nat) (h4 : f ≠ .e4) (hnan : f.nanAt b = false) (hinf : f.infAt b = false) :
    f.expOf b < 2 ^ f.ebits - 1 := by
  have htop : f.expOf b ≠ 2 ^ f.ebits - 1 := by
    intro htop
    simp [FpFmt.nanAt, FpFmt.infAt, h4, htop] at hnan hinf
    exact hinf hnan
  have hexp := f.expOf_lt b
  omega

/-- Every finite magnitude is below that of an infinity. -/
theorem FpFmt.magOf_lt_of_finite (f : FpFmt) (a b : Nat) (ha : f.infAt a = true) (hnan : f.nanAt b = false) (hinf : f.infAt b = false) :
    f.magOf b < f.magOf a := by
  have h4 : f ≠ .e4 := by
    rintro rfl
    simp [FpFmt.infAt] at ha
  have hexp := f.expOf_lt_of_finite b h4 hnan hinf
  rw [f.magOf_of_inf a ha, f.magOf_eq b]
  calc _ < 2 ^ f.mbits * f.expOf b + 2 ^ f.mbits := Nat.add_lt_add_left (f.fracOf_lt b) _
    _ = 2 ^ f.mbits * (f.expOf b + 1) := by ring
    _ ≤ _ := Nat.mul_le_mul_left _ (by omega)

/-- Of two signed magnitudes the larger decides. -/
theorem sign_signed_sub (s t : Bool) {x y : Nat} (h : y < x) : Int.sign (signed s x - signed t y) = if s then -1 else 1 := by
  cases s
  · exact Int.sign_eq_one_of_pos (by cases t <;> simp only [signed, if_true, Bool.false_eq_true, if_false] <;> omega)
  · exact Int.sign_eq_neg_one_of_neg (by cases t <;> simp only [signed, if_true, Bool.false_eq_true, if_false] <;> omega)

theorem fpVal_infinite (f : FpFmt) (b : Nat) (hnan : f.nanAt b = false) (hinf : f.infAt b = true) :
    fpVal f false b = .inf (f.signOf b) := by simp [fpVal_eq, hnan, hinf]

/-- Patterns that are no NaN compare as their places in the order of values do (R128). -/
theorem cmpNum_fpVal (f : FpFmt) (a b : Nat) (ha : f.nanAt a = false) (hb : f.nanAt b = false) :
    cmpNum (fpVal f false a) (fpVal f false b) = Int.sign (f.rankOf a - f.rankOf b) := by
  simp only [FpFmt.rankOf_eq]
  cases hia : f.infAt a with
  | true =>
    rw [fpVal_infinite f a ha hia]
    cases hib : f.infAt b with
    | true =>
      rw [fpVal_infinite f b hb hib, f.magOf_of_inf b hib, ← f.magOf_of_inf a hia]
      have hpos : 0 < f.magOf a := by rw [f.magOf_of_inf a hia]; cases f <;> decide
      cases f.signOf a <;> cases f.signOf b <;> simp only [cmpNum, signed, if_true, Bool.false_eq_true, if_false]
      · simp
      · exact (Int.sign_eq_one_of_pos (by omega)).symm
      · exact (Int.sign_eq_neg_one_of_neg (by omega)).symm
      · simp
    | false =>
      obtain ⟨m, e, hval, -⟩ := fpVal_finite f b hb hib
      rw [hval, sign_signed_sub _ _ (f.magOf_lt_of_finite a b hia hb hib)]
      rfl
  | false =>
    obtain ⟨m₁, e₁, hval₁, he₁, hm₁⟩ := fpVal_finite f a ha hia
    rw [hval₁]
    cases hib : f.infAt b with
    | true =>
      rw [fpVal_infinite f b hb hib, ← neg_sub, Int.sign_neg, sign_signed_sub _ _ (f.magOf_lt_of_finite b a hib ha hia)]
      cases f.signOf b <;> rfl
    | false =>
      obtain ⟨m₂, e₂, hval₂, he₂, hm₂⟩ := fpVal_finite f b hb hib
      have h := dyadicAdd_units (f.signOf a) m₁ e₁ (!f.signOf b) m₂ e₂ f.qmin he₁ he₂
      have hpow : (0 : Int) < 2 ^ (min e₁ e₂ - f.qmin).toNat := by positivity
      rw [hval₂, cmpNum, ← sign_of_strictMono f.unitMag_strictMono f.unitMag_zero, ← hm₁, ← hm₂]
      calc _ = Int.sign ((dyadicAdd (f.signOf a) m₁ e₁ (!f.signOf b) m₂ e₂).1 * 2 ^ (min e₁ e₂ - f.qmin).toNat) := by
            rw [Int.sign_mul, Int.sign_eq_one_of_pos hpow, mul_one]
        _ = _ := by rw [h]; cases f.signOf b <;> simp [signed, sub_eq_add_neg]

/-! Minimum, maximum, sign and class on patterns (R126, R127, R129). -/

theorem sign_fpVal (f : FpFmt) (b : Nat) (hnan : f.nanAt b = false) : (fpVal f false b).sign = f.signOf b := by
  cases hinf : f.infAt b with
  | true => rw [fpVal_infinite f b hnan hinf]; rfl
  | false =>
    obtain ⟨m, e, hval, -⟩ := fpVal_finite f b hnan hinf
    rw [hval]
    rfl

/-- What flushing reads of a pattern (R44). -/
theorem flushBits_eq (f : FpFmt) (ftz : Bool) (b : Nat) : flushBits f ftz b = f.readAs ftz (b % 2 ^ f.width) := by
  have hbit : b % 2 ^ f.width / 2 ^ (f.width - 1) < 2 := by
    rw [Nat.div_lt_iff_lt_mul (Nat.two_pow_pos _), ← Nat.pow_succ', Nat.succ_eq_add_one, Nat.sub_add_cancel (by rw [f.width_eq]; omega)]
    exact Nat.mod_lt _ (Nat.two_pow_pos _)
  simp only [flushBits, FpFmt.readAs, FpFmt.signOf_eq, FpFmt.expOf]
  congr 1
  interval_cases h : b % 2 ^ f.width / 2 ^ (f.width - 1) <;> simp

/-- Flushing leaves of a subnormal the zero of its sign, and every other pattern as it is (R44). -/
theorem fpVal_flush (f : FpFmt) (ftz : Bool) (b : Nat) : fpVal f ftz b = fpVal f false (f.readAs ftz (b % 2 ^ f.width)) := by
  by_cases h : ftz = true ∧ f.expOf b = 0
  · obtain ⟨rfl, hexp⟩ := h
    have hzero : ∀ z, z = 0 ∨ z = 2 ^ (f.width - 1) → fpVal f false z = .fin (z != 0) 0 0 := by
      rintro z (rfl | rfl) <;> cases f <;> decide
    have hbig : 0 ≠ 2 ^ f.ebits - 1 := by cases f <;> decide
    have hleft : fpVal f true b = .fin (f.signOf b) 0 0 := by
      unfold fpVal
      simp only [← FpFmt.signOf_eq, ← show f.expOf b = b / 2 ^ f.mbits % 2 ^ f.ebits from rfl]
      simp [hexp, hbig]
    rw [hleft, FpFmt.readAs, if_pos ⟨rfl, by simpa using hexp⟩, FpFmt.signOf_low]
    cases f.signOf b
    · exact (hzero 0 (.inl rfl)).symm
    · simp [hzero _ (.inr rfl)]
  · rw [FpFmt.readAs, if_neg (by simpa using h), fpVal_low]
    cases ftz with
    | false => rfl
    | true =>
      have hexp : b / 2 ^ f.mbits % 2 ^ f.ebits ≠ 0 := fun h0 => h ⟨rfl, h0⟩
      simp [fpVal, hexp]

theorem cmpNum_fpVal_neg (f : FpFmt) (x y : Nat) (hx : f.nanAt x = false) (hy : f.nanAt y = false) :
    cmpNum (fpVal f false x) (fpVal f false y) < 0 ↔ f.rankOf x < f.rankOf y := by
  rw [cmpNum_fpVal f x y hx hy, Int.sign_neg_iff, sub_neg]

theorem cmpNum_fpVal_zero (f : FpFmt) (x y : Nat) (hx : f.nanAt x = false) (hy : f.nanAt y = false) :
    cmpNum (fpVal f false x) (fpVal f false y) = 0 ↔ f.rankOf x = f.rankOf y := by
  rw [cmpNum_fpVal f x y hx hy, Int.sign_eq_zero_iff_zero, sub_eq_zero]

/-- The places of two patterns, by their ranks: only −0 and +0 have one rank and two places. -/
theorem FpFmt.placeOf_le (f : FpFmt) (x y : Nat) : f.placeOf x ≤ f.placeOf y ↔
    f.rankOf x < f.rankOf y ∨ f.rankOf x = f.rankOf y ∧ (f.signOf x = true ∨ f.signOf y = false) := by
  cases hs : f.signOf x <;> cases ht : f.signOf y <;>
    simp [FpFmt.rankOf, FpFmt.placeOf, hs, ht] <;> omega

/-- Which operand FMIN or FMAX returns, by the places of its operands. -/
theorem minMaxPick_fpVal (f : FpFmt) (max : Bool) (x y : Nat) (hx : f.nanAt x = false) (hy : f.nanAt y = false) :
    minMaxPick max (fpVal f false x) (fpVal f false y) =
      some (if max then decide (f.placeOf y ≤ f.placeOf x) else decide (f.placeOf x ≤ f.placeOf y)) := by
  have hlt := cmpNum_fpVal_neg f x y hx hy
  have heq := cmpNum_fpVal_zero f x y hx hy
  have hle := f.placeOf_le x y
  have hge : f.placeOf y ≤ f.placeOf x ↔
      ¬ (f.rankOf x < f.rankOf y ∨ f.rankOf x = f.rankOf y ∧ f.signOf x = true ∧ f.signOf y = false) := by
    rw [f.placeOf_le y x]
    cases f.signOf x <;> cases f.signOf y <;> simp <;> omega
  simp only [minMaxPick, isNan_fpVal, hx, hy, sign_fpVal, hle, hge, ← hlt, ← heq]
  generalize cmpNum (fpVal f false x) (fpVal f false y) = c
  refine congrArg some (Bool.eq_iff_iff.2 ?_)
  cases max <;> cases f.signOf x <;> cases f.signOf y <;> simp

/-- FMIN and FMAX return the operand that lies lower or higher (R126). -/
theorem minMaxBits_eq (f : FpFmt) (max ftz : Bool) (a b : Nat) :
    let x := f.readAs ftz (a % 2 ^ f.width)
    let y := f.readAs ftz (b % 2 ^ f.width)
    minMaxBits f max ftz a b = (f.pickOf (fun p q => if max then decide (q ≤ p) else decide (p ≤ q)) x y,
      if f.sigAt x || f.sigAt y then 0x01 else 0) := by
  intro x y
  have hflags : sigFlag (fpVal f false x) ||| sigFlag (fpVal f false y) = if f.sigAt x || f.sigAt y then 0x01 else 0 := by
    rw [sigFlag_fpVal, sigFlag_fpVal]
    cases f.sigAt x <;> cases f.sigAt y <;> rfl
  rw [minMaxBits, flushBits_eq, flushBits_eq, fpVal_flush, fpVal_flush f ftz b, hflags, FpFmt.pickOf, f.oneNan_eq_canonNan]
  congr 1
  change (match minMaxPick max (fpVal f false x) (fpVal f false y) with | none => _ | some true => x | some false => y) = _
  generalize x = x at *
  generalize y = y at *
  cases hx : f.nanAt x with
  | true => cases hy : f.nanAt y <;> simp [minMaxPick, isNan_fpVal, hx, hy]
  | false =>
    cases hy : f.nanAt y with
    | true => simp [minMaxPick, isNan_fpVal, hx, hy]
    | false =>
      rw [minMaxPick_fpVal f max x y hx hy]
      generalize (if max then decide (f.placeOf y ≤ f.placeOf x) else decide (f.placeOf x ≤ f.placeOf y)) = p
      cases p <;> rfl

/-- A sign inverted, or cleared, with the canonical NaN for every NaN (R127). -/
theorem signBits_eq (f : FpFmt) (a : Nat) (neg : Bool) :
    let x := a % 2 ^ f.width
    signBits f neg false a =
      if neg then (if f.nanAt x then f.oneNan else x) ^^^ 2 ^ (f.width - 1) else if f.nanAt x then f.oneNan else f.magOf x := by
  intro x
  have hnan : f.oneNan % 2 ^ (f.width - 1) = f.oneNan := by cases f <;> rfl
  rw [signBits, flushBits_eq, show f.readAs false (a % 2 ^ f.width) = x from rfl, isNan_fpVal, ← f.oneNan_eq_canonNan]
  cases neg
  · cases f.nanAt x <;> simp [FpFmt.magOf, hnan]
  · rfl

/-- The class of a pattern is one of ten bits (R129). -/
theorem classBits_eq (f : FpFmt) (x : Nat) : classBits f false x = 2 ^ f.classOf x := by
  rw [classBits, fpVal_eq, FpFmt.classOf]
  have hzero := f.sigOf_eq_zero x
  cases f.nanAt x
  · cases f.infAt x
    · by_cases h0 : f.magOf x = 0
      · cases f.signOf x <;> simp [h0, hzero]
      · by_cases he : f.expOf x = 0 <;> cases f.signOf x <;> simp_all [FpFmt.expOf]
    · cases f.signOf x <;> rfl
  · cases f.sigAt x <;> rfl

/-- A comparison for order of two patterns (R128). -/
theorem cmpLt_fpVal (f : FpFmt) (orEq : Bool) (x y : Nat) : cmpLt orEq (fpVal f false x) (fpVal f false y) =
    (!(f.nanAt x || f.nanAt y) && (if orEq then decide (f.rankOf x ≤ f.rankOf y) else decide (f.rankOf x < f.rankOf y)),
      if f.nanAt x || f.nanAt y then 0x01 else 0) := by
  rw [cmpLt, isNan_fpVal, isNan_fpVal]
  cases hx : f.nanAt x with
  | true => rfl
  | false =>
    cases hy : f.nanAt y with
    | true => rfl
    | false =>
      simp only [cmpNum_fpVal_neg f x y hx hy, beq_eq_decide, cmpNum_fpVal_zero f x y hx hy]
      cases orEq <;> simp [le_iff_lt_or_eq]

/-- A comparison for equality of two patterns (R128). -/
theorem cmpEq_fpVal (f : FpFmt) (x y : Nat) : cmpEq (fpVal f false x) (fpVal f false y) =
    (!(f.nanAt x || f.nanAt y) && decide (f.rankOf x = f.rankOf y), if f.sigAt x || f.sigAt y then 0x01 else 0) := by
  rw [cmpEq, isNan_fpVal, isNan_fpVal, sigFlag_fpVal, sigFlag_fpVal]
  refine Prod.ext ?_ ?_
  · cases hx : f.nanAt x with
    | true => rfl
    | false =>
      cases hy : f.nanAt y with
      | true => rfl
      | false => simp [beq_eq_decide, cmpNum_fpVal_zero f x y hx hy]
  · cases f.sigAt x <;> cases f.sigAt y <;> rfl

/-! Rounding to an integer (R39, R130). -/

/-- A magnitude without a fraction of a unit rounds to itself. -/
theorem roundUnits_whole (rm : RMode) (u : Nat) (neg : Bool) (m : Nat) (e q : Int) (h : q ≤ e) (hsmall : (e - q).toNat ≤ 4096) :
    roundUnits rm u neg m e false q = (m * 2 ^ (e - q).toNat, false) := by
  simp [roundUnits, h, roundsUp, Nat.min_eq_left hsmall]

/-- A magnitude in fractions of a unit, rounded in a scalar mode. -/
theorem roundsUp_scalar (rm : ScalarRm) (neg : Bool) (n d : Nat) (hd : 0 < d) :
    (if roundsUp (scalarMode rm) 0 neg (n / d % 2 == 1) (n % d) d false then n / d + 1 else n / d) = roundedMag rm neg n d := by
  have hr := Nat.mod_lt n hd
  unfold roundedMag roundsUp
  by_cases h0 : n % d = 0
  · cases rm <;> cases neg <;> simp [h0]
  · cases rm <;> cases neg <;> simp [h0, scalarMode] <;> split <;> split <;> omega

/-- A magnitude rounded to an integer in a scalar mode. -/
theorem roundUnits_scalar (rm : ScalarRm) (neg : Bool) (m : Nat) (e : Int) (he : e ≤ 4096) :
    let n := m * 2 ^ e.toNat
    let d := 2 ^ (-e).toNat
    roundUnits (scalarMode rm) 0 neg m e false 0 = (roundedMag rm neg n d, decide (n % d ≠ 0)) := by
  intro n d
  by_cases h : 0 ≤ e
  · have hd : d = 1 := by
      show 2 ^ (-e).toNat = 1
      rw [show (-e).toNat = 0 by omega, pow_zero]
    have hmag : roundedMag rm neg n 1 = n := by
      rw [← roundsUp_scalar rm neg n 1 one_pos, Nat.mod_one, Nat.div_one]
      simp [roundsUp]
    rw [roundUnits_whole _ _ _ _ _ _ h (by omega), hd, hmag, sub_zero]
    simp [Nat.mod_one, n]
  · have hn : n = m := by
      show m * 2 ^ e.toNat = m
      rw [show e.toNat = 0 by omega, pow_zero, mul_one]
    have hk : (0 - e).toNat = (-e).toNat := by rw [zero_sub]
    unfold roundUnits
    simp only [if_neg h, hk]
    by_cases hfar : m.log2 + 64 < (-e).toNat
    · have hm : 2 * m < d := by
        calc 2 * m < 2 * 2 ^ (m.log2 + 1) := Nat.mul_lt_mul_of_pos_left Nat.lt_log2_self two_pos
          _ = 2 ^ (m.log2 + 2) := by ring
          _ ≤ d := Nat.pow_le_pow_right two_pos (by omega)
      have hdiv : n / d = 0 := Nat.div_eq_of_lt (by omega)
      have hmod : n % d = m := by rw [hn]; exact Nat.mod_eq_of_lt (by omega)
      simp only [if_pos hfar, roundedMag, hdiv, hmod, Nat.zero_div, Nat.zero_mod]
      by_cases h0 : m = 0
      · cases rm <;> simp [roundsUp, h0]
      · have hhalf : 2 * m < d ∨ 2 * m = d ∧ 0 % 2 = 0 := .inl hm
        cases rm <;> cases neg <;> simp [roundsUp, h0, scalarMode, hm]
    · rw [if_neg hfar]
      rw [← roundsUp_scalar rm neg n d (Nat.two_pow_pos _), hn]
      simp only [Bool.or_false]
      split <;> exact Prod.ext rfl (by simp [d, bne, beq_eq_decide])

/-! Values that a format holds exactly (R130). -/

/-- Pattern r of f holds the number (−1)^neg · m · 2^e. -/
def FpFmt.Holds (f : FpFmt) (r : Nat) (neg : Bool) (m : Nat) (e : Int) : Prop :=
  r < 2 ^ f.width ∧ f.signOf r = neg ∧ f.expOf r < 2 ^ f.ebits - 1 ∧
    f.sigOf r * 2 ^ (f.scaleOf r - e).toNat = m * 2 ^ (e - f.scaleOf r).toNat

/-- A sign put on a magnitude leaves it, and is read back. -/
theorem withSign_fields (f : FpFmt) (neg : Bool) (b : Nat) (h : b < 2 ^ (f.width - 1)) :
    withSign f neg b < 2 ^ f.width ∧ f.signOf (withSign f neg b) = neg ∧ f.magOf (withSign f neg b) = b := by
  have hw : 2 ^ f.width = 2 * 2 ^ (f.width - 1) := by
    rw [← Nat.pow_succ', Nat.succ_eq_add_one, Nat.sub_add_cancel (by rw [f.width_eq]; omega)]
  cases neg
  · refine ⟨by simp [withSign]; omega, ?_, by simp [withSign, FpFmt.magOf, Nat.mod_eq_of_lt h]⟩
    simp [withSign, f.signOf_eq, Nat.div_eq_of_lt h]
  · refine ⟨by simp [withSign]; omega, ?_, by simp [withSign, FpFmt.magOf, Nat.mod_eq_of_lt h]⟩
    simp [withSign, f.signOf_eq, Nat.add_div_right _ (Nat.two_pow_pos _), Nat.div_eq_of_lt h]

/-- A magnitude of finite patterns with the value m · 2^e holds it. -/
theorem holds_of_unitMag (f : FpFmt) (neg : Bool) (b m : Nat) (e : Int) (he : f.qmin ≤ e) (hfin : b < (2 ^ f.ebits - 1) * 2 ^ f.mbits)
    (hval : f.unitMag b = m * 2 ^ (e - f.qmin).toNat) : f.Holds (withSign f neg b) neg m e := by
  have hb : b < 2 ^ (f.width - 1) := by
    have : f.width - 1 = f.ebits + f.mbits := by rw [f.width_eq]; omega
    rw [this, pow_add]
    exact hfin.trans_le (Nat.mul_le_mul_right _ (Nat.sub_le _ _))
  obtain ⟨hlow, hsign, hmag⟩ := withSign_fields f neg b hb
  generalize withSign f neg b = r at *
  subst hmag
  refine ⟨hlow, hsign, ?_, ?_⟩
  · rw [← f.magOf_div]
    exact (Nat.div_lt_iff_lt_mul (Nat.two_pow_pos _)).2 hfin
  · have hscale : f.qmin ≤ f.scaleOf r := by rw [f.scaleOf_eq]; omega
    rw [f.unitMag_magOf] at hval
    rcases le_total e (f.scaleOf r) with h | h
    · have hsplit : (f.scaleOf r - f.qmin).toNat = (f.scaleOf r - e).toNat + (e - f.qmin).toNat := by omega
      rw [hsplit, pow_add, ← mul_assoc] at hval
      rw [show (e - f.scaleOf r).toNat = 0 by omega, pow_zero, mul_one]
      exact Nat.eq_of_mul_eq_mul_right (Nat.two_pow_pos _) hval
    · have hsplit : (e - f.qmin).toNat = (e - f.scaleOf r).toNat + (f.scaleOf r - f.qmin).toNat := by omega
      rw [hsplit, pow_add, ← mul_assoc] at hval
      rw [show (f.scaleOf r - e).toNat = 0 by omega, pow_zero, mul_one]
      exact Nat.eq_of_mul_eq_mul_right (Nat.two_pow_pos _) hval

/-- The value of a pattern put together from an exponent and a significand with its leading bit. -/
theorem FpFmt.unitMag_normal (f : FpFmt) (k n : Nat) (hlo : 2 ^ f.mbits ≤ n) (hhi : n < 2 * 2 ^ f.mbits) :
    f.unitMag (k * 2 ^ f.mbits + n) = n * 2 ^ k := by
  obtain ⟨r, rfl⟩ := Nat.exists_eq_add_of_le hlo
  have hr : r < 2 ^ f.mbits := by omega
  have hsum : k * 2 ^ f.mbits + (2 ^ f.mbits + r) = 2 ^ f.mbits * (k + 1) + r := by ring
  rw [FpFmt.unitMag, hsum, Nat.mul_add_div (Nat.two_pow_pos _), Nat.mul_add_mod, Nat.div_eq_of_lt hr, Nat.mod_eq_of_lt hr]
  simp [Nat.add_comm r]

/-- A number that a format holds is converted to it without a flag (R43). -/
theorem finToFp_exact (f : FpFmt) (r : Rounding) (neg : Bool) (m : Nat) (e : Int) (hftz : r.ftz = false)
    (hsig : m < 2 ^ (f.mbits + 1)) (hmin : f.qmin ≤ e) (hmax : m ≠ 0 → e + m.log2 ≤ f.bias) :
    ∃ b, finToFp f r neg m e false = (b, 0) ∧ f.Holds b neg m e := by
  by_cases h0 : m = 0
  · subst h0
    exact ⟨withSign f neg 0, by simp [finToFp], holds_of_unitMag f neg 0 0 e hmin (by cases f <;> decide) (by simp)⟩
  specialize hmax h0
  have hlog : m.log2 ≤ f.mbits := Nat.le_of_lt_succ ((Nat.log2_lt h0).2 hsig)
  have hlow : 2 ^ m.log2 ≤ m := Nat.log2_self_le h0
  have hhigh : m < 2 ^ (m.log2 + 1) := Nat.lt_log2_self
  have hmb : f.mbits ≤ 52 := by cases f <;> decide
  -- the significand moved up to its leading bit, in units of its last place
  obtain ⟨i, hi⟩ := Nat.exists_eq_add_of_le hlog
  have hbits : 2 ^ f.mbits = 2 ^ m.log2 * 2 ^ i := by rw [hi, pow_add]
  have hlo : 2 ^ f.mbits ≤ m * 2 ^ i := hbits ▸ Nat.mul_le_mul_right _ hlow
  have hhi : m * 2 ^ i < 2 * 2 ^ f.mbits := by
    rw [hbits, ← mul_assoc, ← pow_succ']
    exact Nat.mul_lt_mul_of_pos_right hhigh (Nat.two_pow_pos _)
  have hqn : e + (m.log2 : Int) - f.mbits = e - i := by omega
  have hnx : roundUnits r.rm r.u neg m e false (e - i) = (m * 2 ^ i, false) := by
    rw [roundUnits_whole _ _ _ _ _ _ (by omega) (by omega), show (e - (e - i)).toNat = i by omega]
  have hne : (m * 2 ^ i == 2 ^ (f.mbits + 1)) = false := by rw [beq_eq_false_iff_ne, pow_succ']; omega
  unfold finToFp
  simp only [hqn, hnx, hne, h0, false_and, if_false, decide_false, Bool.and_false, Bool.not_false, Bool.and_true, Bool.false_or]
  by_cases htiny : e - i < f.qmin
  · have hs : roundUnits r.rm r.u neg m e false f.qmin = (m * 2 ^ (e - f.qmin).toNat, false) :=
      roundUnits_whole _ _ _ _ _ _ hmin (by omega)
    have hsub : m * 2 ^ (e - f.qmin).toNat < 2 ^ f.mbits := by
      calc _ < 2 ^ (m.log2 + 1) * 2 ^ (e - f.qmin).toNat := Nat.mul_lt_mul_of_pos_right hhigh (Nat.two_pow_pos _)
        _ = 2 ^ (m.log2 + 1 + (e - f.qmin).toNat) := (pow_add ..).symm
        _ ≤ _ := Nat.pow_le_pow_right two_pos (by omega)
    simp only [htiny, hftz, hs, decide_true, if_true, Bool.false_eq_true, if_false]
    refine ⟨_, rfl, holds_of_unitMag f neg _ m e hmin ?_ ?_⟩
    · exact hsub.trans_le (Nat.le_mul_of_pos_left _ (by cases f <;> decide))
    · simp [FpFmt.unitMag, Nat.div_eq_of_lt hsub, Nat.mod_eq_of_lt hsub]
  · have hk : (e - i - f.qmin).toNat + 1 ≤ 2 * f.bias := by
      have hqmin : f.qmin = 1 - (f.bias : Int) - f.mbits := rfl
      omega
    have hval := f.unitMag_normal (e - i - f.qmin).toNat (m * 2 ^ i) hlo hhi
    have hfin : (e - i - f.qmin).toNat * 2 ^ f.mbits + m * 2 ^ i < (2 ^ f.ebits - 1) * 2 ^ f.mbits := by
      calc _ < ((e - i - f.qmin).toNat + 2) * 2 ^ f.mbits := by rw [Nat.add_mul]; omega
        _ ≤ _ := Nat.mul_le_mul_right _ (by rw [← f.two_bias]; omega)
    have hmaxFin : ¬ f.maxFin < (e - i - f.qmin).toNat * 2 ^ f.mbits + m * 2 ^ i := by
      have : (2 ^ f.ebits - 1) * 2 ^ f.mbits - 1 ≤ f.maxFin := by cases f <;> decide
      omega
    have htop : ¬ ((f.bias : Int) + 1 < e + (m.log2 : Int)) := by omega
    simp only [htiny, hmaxFin, htop, decide_false, Bool.or_false, Bool.false_eq_true, if_false]
    refine ⟨_, rfl, holds_of_unitMag f neg _ m e hmin hfin ?_⟩
    rw [hval, mul_assoc, ← pow_add]
    congr 2
    omega

/-- A magnitude below 2^(q + b) rounds to at most 2^b units 2^q. -/
theorem roundUnits_le (rm : RMode) (u : Nat) (neg : Bool) (m : Nat) (e : Int) (stick : Bool) (q : Int) (b : Nat)
    (h : m ≠ 0 → e + m.log2 < q + b) : (roundUnits rm u neg m e stick q).1 ≤ 2 ^ b := by
  have hone : 0 < 2 ^ b := Nat.two_pow_pos b
  have hround : ∀ (c : Bool) (n : Nat) (i j : Bool), n < 2 ^ b → (if c then (n + 1, i) else (n, j)).1 ≤ 2 ^ b := by
    intro c n i j hn
    cases c <;> simp <;> omega
  have hhigh : m < 2 ^ (m.log2 + 1) := Nat.lt_log2_self
  unfold roundUnits
  by_cases hq : q ≤ e
  · rw [if_pos hq]
    refine hround _ _ _ _ ?_
    rcases Nat.eq_zero_or_pos m with rfl | hm
    · simp
    · specialize h hm.ne'
      calc _ < 2 ^ (m.log2 + 1) * 2 ^ min (e - q).toNat 4096 := Nat.mul_lt_mul_of_pos_right hhigh (Nat.two_pow_pos _)
        _ = 2 ^ (m.log2 + 1 + min (e - q).toNat 4096) := (pow_add ..).symm
        _ ≤ _ := Nat.pow_le_pow_right two_pos (by omega)
  · rw [if_neg hq]
    by_cases hfar : m.log2 + 64 < (q - e).toNat
    · simp only [if_pos hfar]
      exact hround _ _ _ _ (by simp)
    · simp only [if_neg hfar]
      refine hround _ _ _ _ ((Nat.div_lt_iff_lt_mul (Nat.two_pow_pos _)).2 ?_)
      rcases Nat.eq_zero_or_pos m with rfl | hm
      · simp
      · specialize h hm.ne'
        rw [← pow_add]
        exact hhigh.trans_le (Nat.pow_le_pow_right two_pos (by omega))

/-- A finite result is a pattern of its format. -/
theorem finToFp_lt (f : FpFmt) (r : Rounding) (neg : Bool) (m : Nat) (e : Int) (stick : Bool) :
    (finToFp f r neg m e stick).1 < 2 ^ f.width := by
  have hmag : ∀ b, b < 2 ^ (f.width - 1) → withSign f neg b < 2 ^ f.width := fun b hb => (withSign_fields f neg b hb).1
  have hmax : f.maxFin < 2 ^ (f.width - 1) := by cases f <;> decide
  have hinf : f.infBits < 2 ^ (f.width - 1) := by cases f <;> decide
  have hsub : 2 ^ f.mbits < 2 ^ (f.width - 1) := by cases f <;> decide
  have hzero : 0 < 2 ^ (f.width - 1) := Nat.two_pow_pos _
  unfold finToFp
  split
  · exact hmag _ hzero
  · dsimp only
    split
    case isTrue htiny =>
      split
      · exact hmag _ hzero
      · refine hmag _ ((roundUnits_le _ _ _ _ _ _ _ f.mbits fun h0 => ?_).trans_lt hsub)
        simp only [h0, decide_false, Bool.false_or, Bool.and_eq_true, decide_eq_true_eq] at htiny
        omega
    case isFalse =>
      generalize (if e + (m.log2 : Int) - f.mbits < f.qmin then 2 ^ f.mbits else _) = bits
      split
      case isTrue =>
        split
        · exact hmag _ hmax
        · split
          case isTrue h4 => subst h4; exact (by decide : 0x7F < 2 ^ 8)
          case isFalse => exact hmag _ (by split <;> [skip; split; split; skip] <;> assumption)
      case isFalse hovf =>
        simp only [Bool.or_eq_true, decide_eq_true_eq, not_or, not_lt] at hovf
        exact hmag _ (hovf.2.trans_lt hmax)

/-- Every result delivered in a format is a pattern of it. -/
theorem toFp_lt (f : FpFmt) (r : Rounding) (x : Exact) : (toFp f r x).1 < 2 ^ f.width := by
  have hmag : ∀ neg b, b < 2 ^ (f.width - 1) → withSign f neg b < 2 ^ f.width := fun neg b hb => (withSign_fields f neg b hb).1
  cases x with
  | nan => exact (by cases f <;> decide : f.canonNan < 2 ^ f.width)
  | invalid => exact (by cases f <;> decide : f.canonNan < 2 ^ f.width)
  | inf neg dz =>
    simp only [toFp]
    split
    · exact hmag _ _ (by cases f <;> decide)
    · split
      case isTrue h4 => subst h4; exact (by decide : 0x7F < 2 ^ 8)
      case isFalse => exact hmag _ _ (by cases f <;> decide)
  | fin neg m e stick => exact finToFp_lt f r neg m e stick

/-! What the rules ask of the instructions, in the terms of Safety.lean. -/

/-- An instruction whose meaning only writes a result with its flags and completes. -/
theorem givesFp_of_finishFp {i : Instr} {d : GReg} {u v : State → Nat × FFlags} (h : ∀ s, exec i s = .next (s.finishFp d (u s)))
    (huv : ∀ s, u s = v s) : GivesFp i d v := fun s => by
  obtain ⟨hme, hwrote⟩ := finish_spec (s.setFlags (v s).2) d (BitVec.ofNat 64 (v s).1)
  have hflags : OnlyMe s (s.setFlags (v s).2) := onlyMe_modMe s _
  have hset : (s.setFlags (v s).2).me = { s.me with fstat := s.me.fstat ||| (v s).2 } := by simp [State.setFlags]
  rw [hset] at hwrote
  exact ⟨_, (h s).trans (by rw [huv]; rfl), hflags.trans hme, hwrote⟩

theorem Gives.congr {i : Instr} {d : GReg} {u v : State → Word} (h : Gives i d u) (huv : ∀ s, u s = v s) : Gives i d v :=
  (funext huv : u = v) ▸ h

/-- What an instruction with a result and flags leaves in its register and in FSTAT. -/
theorem GivesFp.result {i : Instr} {d : GReg} {v : State → Nat × FFlags} (h : GivesFp i d v) (s : State) :
    ∃ t, exec i s = .next t ∧ t.g d = (if d = 0 then 0 else BitVec.ofNat 64 (v s).1) ∧ t.me.fstat = s.me.fstat ||| (v s).2 := by
  obtain ⟨t, ht, ⟨-, -⟩, hreg, hctx⟩ := h s
  refine ⟨t, ht, ?_, by rw [hctx]; rfl⟩
  have hd := hreg d
  rwa [if_pos rfl] at hd

/-- A compare writes its truth value with its flags. -/
theorem fpCmp_eq (f : Num → Num → Bool × FFlags) (d a b : GReg) (sz : FpSize) (s : State) :
    let r := f (s.fp (sizeFmt sz) a) (s.fp (sizeFmt sz) b)
    fpCmp f d a b sz s = .next (s.finishFp d (if r.1 then 1 else 0, r.2)) := by
  intro r
  unfold fpCmp State.finishFp
  cases hr : r.1 <;> simp [boolWord, r, hr]

/-- A number rounded to INT64 in a scalar mode: NX where it has a fraction, NV where it lies outside (R43, R130). -/
theorem toInt_fin (rm : ScalarRm) (neg : Bool) (m : Nat) (e : Int) (he : e ≤ 4096) :
    let n := m * 2 ^ e.toNat
    let d := 2 ^ (-e).toNat
    let z := signed neg (roundedMag rm neg n d)
    toInt 64 true (scalarRounding rm) (.fin neg m e false) =
      ((z % 2 ^ 64).toNat, if -2 ^ 63 ≤ z ∧ z < 2 ^ 63 then (if n % d = 0 then 0 else 0x10) else 0x01) := by
  intro n d z
  have hround := roundUnits_scalar rm neg m e he
  have hz : (if neg then -((roundedMag rm neg n d : Nat) : Int) else (roundedMag rm neg n d : Nat)) = z := rfl
  have hrange : intMin 64 true ≤ z ∧ z ≤ intMax 64 true ↔ -2 ^ 63 ≤ z ∧ z < 2 ^ 63 := by
    simp only [intMin, intMax, if_true]
    omega
  simp only [toInt, scalarRounding, hround]
  change (if intMin 64 true ≤ z ∧ z ≤ intMax 64 true then (wrapBits 64 z, flagIf (decide (n % d ≠ 0)) flagNX)
    else intToInt 64 true false flagNV z) = _
  by_cases hin : -2 ^ 63 ≤ z ∧ z < 2 ^ 63
  · rw [if_pos (hrange.2 hin), if_pos hin]
    by_cases h0 : n % d = 0 <;> simp [h0, flagIf, flagNX, wrapBits]
  · rw [if_neg (mt hrange.1 hin), intToInt, if_neg (mt hrange.1 hin), if_neg hin]
    rfl

@[simp] theorem roundedMag_zero (rm : ScalarRm) (neg : Bool) (d : Nat) : roundedMag rm neg 0 d = 0 := by
  cases rm <;> simp [roundedMag]

theorem FpFmt.scaleOf_le (f : FpFmt) (x : Nat) : f.scaleOf x ≤ 4096 := by
  have h := f.expOf_lt x
  have hsmall : 2 ^ f.ebits ≤ 2048 := by cases f <;> decide
  unfold FpFmt.scaleOf
  omega

/-- FCVTI on patterns: 0 for a NaN, the ends of INT64 for the infinities, and otherwise the rounded integer (R130). -/
theorem toInt_fpVal (f : FpFmt) (rm : ScalarRm) (x : Nat) : toInt 64 true (scalarRounding rm) (fpVal f false x).exact =
    if f.nanAt x then (0, 0x01) else if f.infAt x then (if f.signOf x then 2 ^ 63 else 2 ^ 63 - 1, 0x01)
    else
      let n := f.sigOf x * 2 ^ (f.scaleOf x).toNat
      let m := 2 ^ (-f.scaleOf x).toNat
      let z : Int := signed (f.signOf x) (roundedMag rm (f.signOf x) n m)
      ((z % 2 ^ 64).toNat, if -2 ^ 63 ≤ z ∧ z < 2 ^ 63 then (if n % m = 0 then 0 else 0x10) else 0x01) := by
  rw [fpVal_eq]
  cases f.nanAt x
  · cases f.infAt x
    · by_cases h0 : f.sigOf x = 0
      · simp only [h0, if_true, Bool.false_eq_true, if_false, Num.exact]
        rw [toInt_fin _ _ _ _ (by decide)]
        simp
      · simp only [h0, Bool.false_eq_true, if_false, Num.exact]
        exact toInt_fin _ _ _ _ (f.scaleOf_le x)
    · cases f.signOf x <;> rfl
  · rfl

/-- The place of the leading bit of a pattern's significand. -/
theorem FpFmt.sigOf_lt (f : FpFmt) (x : Nat) : f.sigOf x < 2 ^ (f.mbits + 1) := by
  have h := f.fracOf_lt x
  rw [FpFmt.sigOf, pow_succ]
  split <;> omega

/-- A format with no shorter significand and no narrower range of exponents holds the number of every finite pattern (R130). -/
theorem toFp_widens (g f : FpFmt) (r : Rounding) (w : Nat) (hr : r.ftz = false) (hm : g.mbits ≤ f.mbits)
    (hq : f.qmin ≤ g.qmin) (hb : g.bias ≤ f.bias) (hw : g.expOf w < 2 ^ g.ebits - 1) :
    ∃ b, toFp f r (fpVal g false w).exact = (b, 0) ∧ f.Holds b (g.signOf w) (g.sigOf w) (g.scaleOf w) := by
  have hnan : g.nanAt w = false := by simp [FpFmt.nanAt, hw.ne]
  have hinf : g.infAt w = false := by simp [FpFmt.infAt, hw.ne]
  have hscale : g.qmin ≤ g.scaleOf w := by rw [g.scaleOf_eq]; omega
  have hsig : g.sigOf w < 2 ^ (f.mbits + 1) := (g.sigOf_lt w).trans_le (Nat.pow_le_pow_right two_pos (by omega))
  have htop : g.sigOf w ≠ 0 → g.scaleOf w + (g.sigOf w).log2 ≤ f.bias := by
    intro h0
    have hlog : (g.sigOf w).log2 ≤ g.mbits := Nat.le_of_lt_succ ((Nat.log2_lt h0).2 (g.sigOf_lt w))
    have hbias := g.two_bias
    have hpos : 0 < g.bias := by cases g <;> decide
    have hqmin : g.qmin = 1 - (g.bias : Int) - g.mbits := rfl
    rw [g.scaleOf_eq]
    omega
  obtain ⟨b, hb, hholds⟩ := finToFp_exact f r (g.signOf w) (g.sigOf w) (g.scaleOf w) hr hsig (hq.trans hscale) htop
  refine ⟨b, ?_, hholds⟩
  rw [fpVal_eq, hnan, hinf]
  by_cases h0 : g.sigOf w = 0
  · rw [h0] at hb
    simpa [h0, Num.exact, toFp, finToFp] using hb
  · simpa [h0, Num.exact, toFp] using hb

/-- An integer that fits a significand is converted to it exactly (R130). -/
theorem toFp_int (f : FpFmt) (r : Rounding) (z : Int) (hr : r.ftz = false) (hf : f ≠ .e4) (hz : z.natAbs < 2 ^ (f.mbits + 1)) :
    ∃ b, toFp f r (numOfInt z).exact = (b, 0) ∧ f.Holds b (decide (z < 0)) z.natAbs 0 := by
  refine finToFp_exact f r _ _ _ hr hz (by cases f <;> decide) fun h0 => ?_
  have hlog : z.natAbs.log2 ≤ f.mbits := Nat.le_of_lt_succ ((Nat.log2_lt h0).2 hz)
  have hbias : f.mbits ≤ f.bias := by cases f <;> decide
  omega

/-- A number that is an integer has no fraction of a unit. -/
theorem FpFmt.Holds.int {f : FpFmt} {b : Nat} {neg : Bool} {m : Nat} (h : f.Holds b neg m 0) (hm : m < 2 ^ (f.mbits + 1)) :
    f.sigOf b = m * 2 ^ (-f.scaleOf b).toNat := by
  obtain ⟨-, -, -, hval⟩ := h
  rw [sub_zero, zero_sub] at hval
  rcases le_or_gt (f.scaleOf b) 0 with hs | hs
  · rwa [show (f.scaleOf b).toNat = 0 by omega, pow_zero, mul_one] at hval
  · -- a number with its last place above the units has more bits than the significand
    have hqmin : f.qmin ≤ 0 := by cases f <;> decide
    have hexp : f.expOf b ≠ 0 := by
      intro h0
      rw [f.scaleOf_eq, h0] at hs
      omega
    have hnorm : 2 ^ f.mbits ≤ f.sigOf b := by rw [FpFmt.sigOf, if_neg hexp]; omega
    rw [show (-f.scaleOf b).toNat = 0 by omega, pow_zero, mul_one] at hval ⊢
    have h2 : 2 ≤ 2 ^ (f.scaleOf b).toNat := le_self_pow₀ (by norm_num) (by omega)
    have : 2 ^ f.mbits * 2 ≤ f.sigOf b * 2 ^ (f.scaleOf b).toNat := Nat.mul_le_mul hnorm h2
    rw [pow_succ] at hm
    omega

theorem sizeFmt_ne_e4 (sz : FpSize) : sizeFmt sz ≠ .e4 := by cases sz <;> decide

/-- The formats of scalar floating point with no fewer exponent bits have no narrower range of exponents. -/
theorem sizeFmt_range (src sz : FpSize) (hm : (sizeFmt src).mbits ≤ (sizeFmt sz).mbits) (he : (sizeFmt src).ebits ≤ (sizeFmt sz).ebits) :
    (sizeFmt sz).qmin ≤ (sizeFmt src).qmin ∧ (sizeFmt src).bias ≤ (sizeFmt sz).bias := by
  revert hm he
  cases src <;> cases sz <;> decide

theorem FpFmt.nanAt_of_inf (f : FpFmt) (b : Nat) (hinf : f.infAt b = true) : f.nanAt b = false := by
  simp only [FpFmt.infAt, Bool.and_eq_true, bne_iff_ne, beq_iff_eq] at hinf
  simp [FpFmt.nanAt, hinf.1.1, hinf.2]

/-- A conversion of a NaN delivers the canonical NaN (R26, R43). -/
theorem toFp_nan (g f : FpFmt) (r : Rounding) (w : Nat) (hnan : g.nanAt w = true) :
    toFp f r (fpVal g false w).exact = (f.oneNan, 0) := by simp [fpVal_eq, hnan, Num.exact, toFp, f.oneNan_eq_canonNan]

/-- A conversion of an infinity delivers that infinity (R43). -/
theorem toFp_infinite (g f : FpFmt) (rm : ScalarRm) (w : Nat) (hf : f ≠ .e4) (hinf : g.infAt w = true) :
    ∃ b, toFp f (scalarRounding rm) (fpVal g false w).exact = (b, 0) ∧ f.infAt b = true ∧ f.signOf b = g.signOf w ∧ b < 2 ^ f.width := by
  refine ⟨withSign f (g.signOf w) f.infBits, ?_, ?_⟩
  · simp [fpVal_infinite g w (g.nanAt_of_inf w hinf) hinf, Num.exact, toFp, scalarRounding, hf, flagIf]
  · cases g.signOf w <;> cases f <;> simp at hf <;> decide

end Sys2Proof.Machine
end

section
open Sys2Proof Sys2Proof.Machine

/-- Settles O5: the value of a pattern is read off its fields, values that are no NaN compare as the places of their patterns do, and a
number that a format holds is converted to it without rounding. -/
theorem scalarFloatComparesAndConverts : Obligations.ScalarFloatComparesAndConverts := by
  unfold Obligations.ScalarFloatComparesAndConverts
  intro d a b src sz rm f x y nv sig nan pick test
  have hx : ∀ s : State, s.fp f a = fpVal f false (x s) := fun s => (fpVal_low f _).symm
  have hy : ∀ s : State, s.fp f b = fpVal f false (y s) := fun s => (fpVal_low f _).symm
  have hcmp : ∀ (g : Machine.Num → Machine.Num → Bool × FFlags) (s : State), fpCmp g d a b sz s =
      .next (s.finishFp d (if (g (s.fp f a) (s.fp f b)).1 then 1 else 0, (g (s.fp f a) (s.fp f b)).2)) :=
    fun g s => fpCmp_eq g d a b sz s
  have hcvtf := givesFp_of_finishFp (i := .fcvtf d a sz rm) (d := d) (fun _ => rfl) fun _ => rfl
  have hcvtff := givesFp_of_finishFp (i := .fcvtff d a src sz rm) (d := d) (fun _ => rfl) fun _ => rfl
  refine ⟨?fmin, ?fmax, ?fceq, ?fclt, ?fcle, ?fclass, ?fneg, ?fabs, ?fcvti, ?fcvtf, ?fcvtff, ?whole, ?widened⟩
  case fmin => exact givesFp_of_finishFp (fun _ => rfl) fun s => minMaxBits_eq f false false _ _
  case fmax => exact givesFp_of_finishFp (fun _ => rfl) fun s => minMaxBits_eq f true false _ _
  case fceq => exact givesFp_of_finishFp (hcmp cmpEq) fun s => by rw [hx, hy, cmpEq_fpVal]
  case fclt => exact givesFp_of_finishFp (hcmp (cmpLt false)) fun s => by rw [hx, hy, cmpLt_fpVal]; rfl
  case fcle => exact givesFp_of_finishFp (hcmp (cmpLt true)) fun s => by rw [hx, hy, cmpLt_fpVal]; rfl
  case fclass => exact (gives_of_finish _ d _ fun _ => rfl).congr fun s => congrArg (BitVec.ofNat 64) (classBits_eq f (x s))
  case fneg => exact (gives_of_finish _ d _ fun _ => rfl).congr fun s => congrArg (BitVec.ofNat 64) (signBits_eq f _ true)
  case fabs => exact (gives_of_finish _ d _ fun _ => rfl).congr fun s => congrArg (BitVec.ofNat 64) (signBits_eq f _ false)
  case fcvti => exact givesFp_of_finishFp (fun _ => rfl) fun s => (congrArg _ (congrArg _ (hx s))).trans (toInt_fpVal f rm (x s))
  case fcvtf => exact hcvtf
  case fcvtff => exact hcvtff
  case whole =>
    intro s hsmall
    obtain ⟨r, hr, hholds⟩ := toFp_int f (scalarRounding rm) _ rfl (sizeFmt_ne_e4 sz) hsmall
    have hint := hholds.int hsmall
    obtain ⟨hlow, hsign, hexp, -⟩ := hholds
    obtain ⟨t, ht, hd, hfstat⟩ := hcvtf.result s
    rw [hr] at hd hfstat
    exact ⟨t, r, ht, hd, hfstat.trans (BitVec.or_zero ..), hlow, hsign, hexp, hint⟩
  case widened =>
    intro s g w
    obtain ⟨t, ht, hd, hfstat⟩ := hcvtff.result s
    have hw : s.fp (sizeFmt src) a = fpVal g false w := (fpVal_low g _).symm
    rw [hw] at hd hfstat
    generalize hr : toFp (sizeFmt sz) (scalarRounding rm) (fpVal g false w).exact = r at hd hfstat
    have hlow : r.1 < 2 ^ f.width := hr ▸ toFp_lt _ _ _
    rw [sigFlag_fpVal] at hfstat
    refine ⟨t, r.1, ht, hd, hlow, fun hnan => ?nan, fun hinf => ?inf, fun hm he hnan hinf => ?finite⟩
    case nan =>
      rw [toFp_nan g _ _ w hnan] at hr
      rw [← hr] at hfstat
      exact ⟨by rw [← hr], hfstat.trans (congrArg _ (BitVec.zero_or ..))⟩
    case inf =>
      obtain ⟨b, hb, hinfb, hsign, -⟩ := toFp_infinite g (sizeFmt sz) rm w (sizeFmt_ne_e4 sz) hinf
      have hsig : g.sigAt w = false := by simp [FpFmt.sigAt, g.nanAt_of_inf w hinf]
      rw [hb] at hr
      rw [← hr] at hfstat ⊢
      exact ⟨hinfb, hsign, by simpa [hsig] using hfstat⟩
    case finite =>
      obtain ⟨hq, hbias⟩ := sizeFmt_range src sz hm he
      have hexp : g.expOf w < 2 ^ g.ebits - 1 := g.expOf_lt_of_finite w (sizeFmt_ne_e4 src) hnan hinf
      obtain ⟨b, hb, -, hsign, hexpb, hval⟩ := toFp_widens g (sizeFmt sz) (scalarRounding rm) w rfl hm hq hbias hexp
      have hsig : g.sigAt w = false := by simp [FpFmt.sigAt, hnan]
      rw [hb] at hr
      rw [← hr] at hfstat ⊢
      exact ⟨hexpb, hsign, by simpa [hsig] using hfstat, hval⟩

end

section
/-! PROOF. What a translation leaves unchanged, said once for every relation that the changes of TLBs keep; and the entry of the tile
instructions that access memory into their queue (R217, R235), for O44. -/

namespace Sys2Proof.Machine

/-! Translation, up to a relation of states. -/

/-- Relation R holds across every change that a translation for w makes: a free value drawn, an event counted, entries of TLBs and of the
walk cache. -/
structure Who.Caching (w : Who) (R : State → State → Prop) : Prop where
  refl : ∀ s, R s s
  trans : ∀ {s t u}, R s t → R t u → R s u
  fresh : ∀ s, R s { s with fresh := s.fresh + 1 }
  count : w.eng = none → ∀ s ev, R s (s.count w.ctx ev 1)
  core : w.eng = none → ∀ (s : State) (f : Core → Core),
    (∀ c, f c = { c with itlb := (f c).itlb, dtlb := (f c).dtlb, tlb2 := (f c).tlb2, walks := (f c).walks }) →
    R s (s.modCore (coreOf w.ctx) f)
  engine : ∀ g, w.eng = some g → ∀ (s : State) (f : Engine → Engine), (∀ x, f x = { x with tlb := (f x).tlb }) → R s (s.modEngine g f)

namespace Who.Caching
variable {w : Who} {R : State → State → Prop} (hR : w.Caching R)
include hR

theorem fill (s : State) (k : Acc) (e : TlbEnt) (seen : List WalkEnt) : R s (s.fill w k e seen) := by
  unfold State.fill
  split
  case h_1 g hg => exact hR.engine g hg _ _ fun _ => rfl
  case h_2 hg => exact hR.core hg _ _ fun _ => rfl

theorem lookup (s : State) (k : Acc) (va : Nat) : R s (s.lookup w k va).1 := by
  have hfill : ∀ (u : State) (e : TlbEnt) (seen : List WalkEnt), R u (({ u with fresh := u.fresh + 1 } : State).fill w k e seen) :=
    fun u e seen => hR.trans (hR.fresh u) (hR.fill _ k e seen)
  unfold State.lookup
  dsimp only
  split
  case h_1 g hg =>
    split
    · dsimp only
      split
      · exact hR.refl s
      · exact hR.engine g hg _ _ fun _ => rfl
    · split
      · exact hfill _ _ _
      · exact hR.fresh s
  case h_2 hg =>
    have hcount : R s (if k = .fetch then s else s.count w.ctx 0x07 1) := by
      split
      · exact hR.refl s
      · exact hR.count hg s _
    split
    · dsimp only
      split
      · exact hR.refl s
      · exact hR.core hg _ _ fun _ => rfl
    · split
      · refine hR.trans hcount ?_
        dsimp only
        exact hR.core hg _ _ fun _ => rfl
      · have hboth := hR.trans hcount (hR.count hg _ 0x08)
        split
        · exact hR.trans hboth (hfill _ _ _)
        · exact hR.trans hboth (hR.fresh _)

theorem placed (s : State) (k : Acc) (pa : Nat) (u : Bool) (left ent log : Nat) : R s (s.placed w k pa u left ent log).1 := by
  unfold State.placed
  dsimp only
  split
  · exact hR.refl s
  · split
    · exact hR.refl s
    · exact hR.fresh s

theorem translate (s : State) (k : Acc) (va : Nat) : R s (s.translate w k va).1 := by
  have hlookup := hR.lookup s k va
  unfold State.translate
  dsimp only
  split
  · split
    · exact hR.refl s
    · exact hR.placed ..
  · split
    · split
      · exact hR.refl s
      · split <;> exact hR.refl s
    · split
      · exact hR.refl s
      · split <;> rename_i h <;> rw [h] at hlookup
        · exact hlookup
        · exact hlookup
        · split
          · exact hlookup
          · exact hR.trans hlookup (hR.placed ..)

theorem transRun (k : Acc) (n : Nat) (s : State) (lo va len : Nat) : R s (State.transRun w k n s lo va len).1 := by
  induction n generalizing s lo va len with
  | zero => exact hR.refl s
  | succ n ih =>
    have htranslate := hR.translate s k va
    unfold State.transRun
    split
    · exact hR.refl s
    · split <;> rename_i h <;> rw [h] at htranslate
      · exact htranslate
      · dsimp only
        split <;> rename_i h' <;> exact hR.trans htranslate (congrArg Prod.fst h' ▸ ih _ _ _ _)

theorem transSpan (s : State) (k : Acc) (va len : Nat) : R s (s.transSpan w k va len).1 := hR.transRun ..

theorem transEach (k : Acc) (rows : List (Nat × Nat)) (s : State) : R s (State.transEach w k rows s).1 := by
  induction rows generalizing s with
  | nil => exact hR.refl s
  | cons r rows ih =>
    have hspan := hR.transSpan s k r.1 r.2
    unfold State.transEach
    split <;> rename_i h <;> rw [h] at hspan
    · exact hspan
    · split <;> rename_i h' <;> exact hR.trans hspan (congrArg Prod.fst h' ▸ ih _)

end Who.Caching

/-- A translation leaves the acting context the acting one. -/
theorem caching_cur (w : Who) : w.Caching (fun s t => t.cur = s.cur) where
  refl _ := rfl
  trans h h' := h'.trans h
  fresh _ := rfl
  count _ _ _ := rfl
  core _ _ _ _ := rfl
  engine g _ s f _ := by cases g <;> rfl

/-! The checks at issue. -/

theorem exec_tldq (s : State) (q : PanelReg) (a b : GReg) (fr : FmtSel) (sb : Bool) : exec (.tldq q a b fr sb) s =
    tileLoad false sb (fun s _ => (s, none)) (wordTldq q a b fr sb) q a b fr s := rfl
theorem exec_tldqt (s : State) (q : PanelReg) (a b : GReg) (fr : FmtSel) (sb : Bool) : exec (.tldqt q a b fr sb) s =
    tileLoad true sb (fun s _ => (s, none)) (wordTldqt q a b fr sb) q a b fr s := rfl
theorem exec_tmcast (s : State) (q : PanelReg) (a b : GReg) (fr : FmtSel) (sc : CastScope) : exec (.tmcast q a b fr sc) s =
    tileLoad false false (fun s fw => s.joinCast sc (s.g a) (s.g b) fw) (wordTmcast q a b fr sc) q a b fr s := rfl
theorem exec_tsta (s : State) (ac : AccReg) (a b : GReg) (fr : FmtSel) (zero : Bool) :
    exec (.tsta ac a b fr zero) s = execTsta ac a b fr zero s := rfl
theorem exec_tsave (s : State) (t : TileItem) (a : GReg) : exec (.tsave t a) s = execTsave t a s := rfl
theorem exec_trstr (s : State) (t : TileItem) (a : GReg) : exec (.trstr t a) s = execTrstr t a s := rfl

theorem ownsTile_iff (s : State) : s.ownsTile = true ↔ TileOwner s := by
  simp [State.ownsTile, TileOwner, and_assoc]

/-- An owner's tile instruction without vector operands passes the gate. -/
theorem tileGate_of_owner (w : Nat) (s : State) (f : Out) (h : TileOwner s) : tileGate false w s f = f := by
  simp [tileGate, (ownsTile_iff s).2 h]

/-- Another context's raises 0x0B (R217). -/
theorem tileGate_of_not_owner (w : Nat) (s : State) (f : Out) (h : ¬ TileOwner s) : tileGate false w s f = raise 0x0B s.me.pc s := by
  simp [tileGate, mt (ownsTile_iff s).1 h]

/-- The pins that a tile queue holds. -/
theorem pages_foldl (tq : List TEntry) : tq.foldl (fun t e => t + e.pages) 0 = (tq.map (·.pages)).sum := by
  rw [List.sum_eq_foldl, List.foldl_map]

/-- What TSTA reads of its format word (R234). -/
def tstaRule : FwRule :=
  ⟨some (fun x => decide (x = .fp .fp32 ∨ x = .int 32 true)), none, some (fun _ y => y.isF || y.isI), some 5⟩

/-- The format words that TSTA accepts (R37, R234). -/
theorem tsta_fwOk (fw : Word) :
    fwOk tstaRule fw = true ↔
      fwReservedZero fw = true ∧ fwRM fw ≤ 5 ∧ (Fmt.ofCode (fwFA fw) = some (.fp .fp32) ∨ Fmt.ofCode (fwFA fw) = some (.int 32 true)) ∧
        ∃ f, Fmt.ofCode (fwFD fw) = some f ∧ (f.isF = true ∨ f.isI = true) := by
  unfold fwOk tstaRule
  cases Fmt.ofCode (fwFA fw) <;> cases Fmt.ofCode (fwFD fw) <;> simp [and_assoc]

/-- The format words that the tile loads accept (R37, R232). -/
def panelWord (fw : Word) : Prop := fwReservedZero fw = true ∧ ∃ f, Fmt.ofCode (fwFA fw) = some f ∧ f.isPanel = true

/-- A tile load of an owner with an accepted format word. -/
theorem tileLoad_panel {s : State} (hown : TileOwner s) {fr : FmtSel} (hfw : panelWord (s.g (fmtReg fr))) (trans : Bool)
    (cast : State → Word → State × Option Nat) (w : Nat) (q : PanelReg) (a b : GReg) :
    let fw := s.g (fmtReg fr)
    tileLoad trans false cast w q a b fr s =
      tileMem .load (max 1 ((faOf fw).width / 8)) (loadRows trans false (faOf fw).width (s.g a) (s.g b)) (s.g a) (s.g b)
        (fun s' ps n => ((cast s' fw).1, s'.tEntry (.load q trans false) fw (s.g a) (s.g b) ps n (cast s' fw).2)) s := by
  intro fw
  obtain ⟨hzero, f, hf, hpanel⟩ := hfw
  rw [tileLoad, tileGate_of_owner _ _ _ hown]
  simp [hzero, hf, hpanel, fw]

/-- A tile load of an owner with another format word raises 0x03 (R37). -/
theorem tileLoad_bad {s : State} (hown : TileOwner s) {fr : FmtSel} (hfw : ¬ panelWord (s.g (fmtReg fr))) (trans : Bool)
    (cast : State → Word → State × Option Nat) (w : Nat) (q : PanelReg) (a b : GReg) :
    tileLoad trans false cast w q a b fr s = raise 0x03 (s.g (fmtReg fr)) s := by
  rw [tileLoad, tileGate_of_owner _ _ _ hown]
  unfold panelWord at hfw
  cases hzero : fwReservedZero (s.g (fmtReg fr)) <;> cases hf : Fmt.ofCode (fwFA (s.g (fmtReg fr))) <;> simp_all

/-- A load of a scale band reads no format word (R232). -/
theorem tileLoad_band {s : State} (hown : TileOwner s) (fr : FmtSel) (trans : Bool) (cast : State → Word → State × Option Nat) (w : Nat)
    (q : PanelReg) (a b : GReg) : tileLoad trans true cast w q a b fr s =
      tileMem .load 1 (loadRows trans true (faOf 0).width (s.g a) (s.g b)) (s.g a) (s.g b)
        (fun s' ps n => ((cast s' 0).1, s'.tEntry (.load q trans true) 0 (s.g a) (s.g b) ps n (cast s' 0).2)) s := by
  rw [tileLoad, tileGate_of_owner _ _ _ hown]
  rfl

/-- A TSTA of an owner, by its format word (R37, R234). -/
theorem execTsta_of_owner {s : State} (hown : TileOwner s) (ac : AccReg) (a b : GReg) (fr : FmtSel) (zero : Bool) :
    let fw := s.g (fmtReg fr)
    execTsta ac a b fr zero s =
      if fwOk tstaRule fw = true then
        tileMem .store ((fdOf fw).width / 8) (rowsOf (s.g a) (s.g b) 64 (8 * (fdOf fw).width)) (s.g a) (s.g b)
          (fun s' ps n => (s', s'.tEntry (.store ac zero) fw (s.g a) (s.g b) ps n none)) s
      else raise 0x03 fw s := by
  intro fw
  rw [execTsta, tileGate_of_owner _ _ _ hown]
  change (if (!fwOk tstaRule fw) = true then _ else _) = _
  cases fwOk tstaRule fw <;> rfl

/-- What the entry of a tile instruction with its pages pinned leaves behind: its queue one longer, counter T one higher, and the pins. -/
theorem tilePush_pinned (u : State) (casts : List Cast) (castSeq : Nat) (e : TEntry) (ps : List Piece) (w : Who) (hw : w.eng = none)
    (hctx : w.ctx = u.cur) (hroom : (u.core (coreOf u.cur)).tq.length < 8) :
    ∃ t, tilePush e false (({ u with casts := casts, castSeq := castSeq } : State).pinPieces w true ps) = .next t ∧
      TileQueued { u with casts := t.casts, castSeq := t.castSeq } t e false := by
  obtain ⟨f, hf, hpin⟩ : ∃ f : Core → Core, (∀ c, f c = { c with tlb2 := (f c).tlb2 }) ∧
      ({ u with casts := casts, castSeq := castSeq } : State).pinPieces w true ps =
        ({ u with casts := casts, castSeq := castSeq } : State).modCore (coreOf u.cur) f := by
    rw [State.pinPieces, hw, hctx]
    exact ⟨_, fun _ => rfl, rfl⟩
  generalize hv : ({ u with casts := casts, castSeq := castSeq } : State) = v at *
  have hcore : ∀ k, v.core k = u.core k := fun k => by rw [← hv]; rfl
  have hctxs : ∀ j, v.ctx j = u.ctx j := fun j => by rw [← hv]; rfl
  have hcur : v.cur = u.cur := by rw [← hv]
  have hnot : ¬ 8 ≤ ((v.modCore (coreOf u.cur) f).core (coreOf (v.modCore (coreOf u.cur) f).cur)).tq.length := by
    rw [State.modCore_cur, hcur, State.modCore_core_same, hf, hcore]
    exact not_le.2 hroom
  refine ⟨_, by rw [hpin, tilePush, if_neg hnot], by rw [← hv]; rfl, fun j hj => ?_, ?_, fun k => ?_⟩
  · have hne : j ≠ ((v.modCore (coreOf u.cur) f).modCore (coreOf (v.modCore (coreOf u.cur) f).cur)
        (fun k => { k with tq := k.tq ++ [e] })).cur := by simpa [hcur] using hj
    rw [State.modMe_ctx_other _ _ _ hne]
    exact hctxs j
  · have hme : v.me = u.me := by rw [State.me, hcur, hctxs]; rfl
    rw [State.modMe_me]
    change _ = { u.me with
      st := .ready, wait := .none, pc := u.me.pc + 4, young := false, cntT := u.me.cntT + 1
      status := { u.me.status with vd := u.me.status.vd || false } }
    rw [← hme]
    rfl
  · generalize ht : State.modMe _ _ = t
    have htcore : t.core k = if k = coreOf u.cur then { f (u.core k) with tq := (f (u.core k)).tq ++ [e] } else u.core k := by
      rw [← ht, State.modMe_core]
      by_cases hk : k = coreOf u.cur
      · subst hk
        simp [hcur, hcore]
      · simp [hcur, hcore, hk]
    by_cases hk : k = coreOf u.cur
    · rw [if_pos hk] at htcore
      refine Eq.trans ?_ (if_pos hk).symm
      rw [htcore, hf]
      rfl
    · rw [if_neg hk] at htcore
      exact htcore.trans (if_neg hk).symm

/-- The checks and the entry of a tile instruction that accesses memory, whose entry `mk` makes without a change but to the combined
reads. -/
theorem tileMem_issues {i : Instr} {s : State} {k : Acc} {align : Nat} {rows : List (Nat × Nat)} {a b : Word}
    {mk : State → List Piece → Nat → State × TEntry} {entry : State → List Piece → Nat → TEntry → Prop}
    (hexec : exec i s = tileMem k align rows a b mk s)
    (hmk : ∀ u ps n, ∃ casts castSeq, (mk u ps n).1 = { u with casts := casts, castSeq := castSeq } ∧ entry u ps n (mk u ps n).2) :
    TileMemoryIssues i s k align rows a b entry := by
  have haligned : a.toNat % align = 0 → b.toNat % align = 0 → ¬ (a.toNat % align ≠ 0 ∨ b.toNat % align ≠ 0) := by omega
  refine ⟨fun hmis => ?misaligned, ?_, ?_⟩
  case misaligned => exact raises_of_raise i s _ _ (by rw [hexec, tileMem, if_pos hmis])
  · intro pages ha hb hpages
    refine ⟨s.hold .waitUnit .tilePins, ?_, hold_spec s _ _⟩
    rw [hexec, tileMem, if_neg (haligned ha hb), pages_foldl]
    exact if_pos hpages
  · intro pages ha hb hpages u r htrans
    have hcur : u.cur = s.cur := by
      have h := (caching_cur (s.whoCtx s.cur)).transEach k (footOf rows) s
      rwa [htrans] at h
    have hrun : exec i s = match (u, r) with
        | (s', .error e) => raise e.1 (BitVec.ofNat 64 (s'.footLow (s.whoCtx s.cur) (footOf rows) e.2)) s'
        | (s', .ok l) =>
          if 8 ≤ (s'.core (coreOf s'.cur)).tq.length then .next (s'.hold .waitUnit .tqFull)
          else tilePush (mk s' (rowPieces l rows) (pageCount (rowPieces l rows))).2 false
            ((mk s' (rowPieces l rows) (pageCount (rowPieces l rows))).1.pinPieces (s.whoCtx s.cur) true (rowPieces l rows)) := by
      rw [hexec, tileMem, if_neg (haligned ha hb), pages_foldl, ← htrans]
      exact if_neg (not_lt.2 hpages)
    refine ⟨?_, ?_⟩
    · rintro cause va rfl
      exact ⟨_, hrun, trap_spec _ _ _ _ _⟩
    · rintro l rfl
      refine ⟨fun hfull => ⟨_, hrun.trans (if_pos hfull), hold_spec u _ _⟩, fun hroom => ?_⟩
      obtain ⟨casts, castSeq, hstate, hentry⟩ := hmk u (rowPieces l rows) (pageCount (rowPieces l rows))
      obtain ⟨t, ht, hqueued⟩ := tilePush_pinned u casts castSeq (mk u (rowPieces l rows) (pageCount (rowPieces l rows))).2
        (rowPieces l rows) (s.whoCtx s.cur) rfl hcur.symm hroom
      refine ⟨t, _, ?_, hentry, hqueued⟩
      rw [hrun]
      dsimp only
      rw [if_neg (not_le.2 hroom), hstate]
      exact ht

/-- Joining a combined read, or beginning one, changes nothing but the combined reads; outside any gang there is none (R233). -/
theorem joinCast_spec (s : State) (sc : CastScope) (a b fw : Word) :
    (∃ casts castSeq, (s.joinCast sc a b fw).1 = { s with casts := casts, castSeq := castSeq }) ∧
      (s.me.gang = 0 → (s.joinCast sc a b fw).2 = none) ∧ (s.me.gang ≠ 0 → (s.joinCast sc a b fw).2 ≠ none) := by
  unfold State.joinCast
  by_cases hgang : s.me.gang = 0
  · simp only [hgang, if_true]
    exact ⟨⟨_, _, rfl⟩, fun _ => trivial, fun h => absurd rfl h⟩
  · simp only [hgang, if_false]
    split
    · exact ⟨⟨_, _, rfl⟩, fun h => h.elim, fun _ => nofun⟩
    · exact ⟨⟨_, _, rfl⟩, fun h => h.elim, fun _ => nofun⟩

end Sys2Proof.Machine
end

section
open Sys2Proof Sys2Proof.Machine

/-- Settles O44: behind the gate of R217 and the check of the format word, each of these instructions is one `tileMem` over its own rows,
whose checks and entry `tileMem_issues` says once. -/
theorem tileMemoryInstructionsIssue : Obligations.TileMemoryInstructionsIssue := by
  unfold Obligations.TileMemoryInstructionsIssue
  intro s q ac a b fr zero sc it
  refine ⟨fun hnot i hi => ?_, fun hown => ?_⟩
  · refine raises_of_raise i s _ _ ?_
    simp only [List.mem_cons, List.not_mem_nil, or_false] at hi
    rcases hi with rfl | rfl | rfl | rfl | rfl | rfl | rfl | rfl <;>
      simp only [exec_tldq, exec_tldqt, exec_tmcast, exec_tsta, exec_tsave, exec_trstr, execTsta, execTsave, execTrstr, tileLoad,
        tileGate_of_not_owner _ _ _ hnot]
  · intro fw x y fa w depth rows panel cells is size
    have hcells := tsta_fwOk fw
    -- an entry that no combined read takes part in
    have hplain : ∀ (op : TOp) (f b' : Word) (u : State) (ps : List Piece) (n : Nat),
        ∃ casts castSeq, u = { u with casts := casts, castSeq := castSeq } ∧ is op f b' u ps n (u.tEntry op f x b' ps n none) :=
      fun op f b' u ps n => ⟨u.casts, u.castSeq, rfl, rfl⟩
    refine ⟨fun hp => ⟨?tldq, ?tldqt, ?tmcast⟩, ?band, ?bandT, fun hc => ?tsta, ?tsave, ?trstr, fun hp => ⟨?_, ?_, ?_⟩, fun hc => ?_⟩
    case tldq => exact tileMem_issues ((exec_tldq ..).trans (tileLoad_panel hown hp false _ _ q a b)) (hplain (.load q false false) fw y)
    case tldqt => exact tileMem_issues ((exec_tldqt ..).trans (tileLoad_panel hown hp true _ _ q a b)) (hplain (.load q true false) fw y)
    case tmcast =>
      refine tileMem_issues ((exec_tmcast ..).trans (tileLoad_panel hown hp false _ _ q a b)) fun u ps n => ?_
      obtain ⟨⟨casts, castSeq, hstate⟩, hnone, hsome⟩ := joinCast_spec u sc (u.g a) (u.g b) fw
      exact ⟨casts, castSeq, hstate, _, rfl, hnone, hsome⟩
    case band => exact tileMem_issues ((exec_tldq ..).trans (tileLoad_band hown fr false _ _ q a b)) (hplain (.load q false true) 0 y)
    case bandT => exact tileMem_issues ((exec_tldqt ..).trans (tileLoad_band hown fr true _ _ q a b)) (hplain (.load q true true) 0 y)
    case tsta =>
      exact tileMem_issues (((exec_tsta ..).trans (execTsta_of_owner hown ac a b fr zero)).trans (if_pos (hcells.2 hc)))
        (hplain (.store ac zero) fw y)
    case tsave => exact tileMem_issues ((exec_tsave ..).trans (tileGate_of_owner _ s _ hown)) (hplain (.save it) 0 0)
    case trstr => exact tileMem_issues ((exec_trstr ..).trans (tileGate_of_owner _ s _ hown)) (hplain (.rstr it) 0 0)
    · exact raises_of_raise _ s _ _ ((exec_tldq ..).trans (tileLoad_bad hown hp false _ _ q a b))
    · exact raises_of_raise _ s _ _ ((exec_tldqt ..).trans (tileLoad_bad hown hp true _ _ q a b))
    · exact raises_of_raise _ s _ _ ((exec_tmcast ..).trans (tileLoad_bad hown hp false _ _ q a b))
    · exact raises_of_raise _ s _ _
        (((exec_tsta ..).trans (execTsta_of_owner hown ac a b fr zero)).trans (if_neg (mt hcells.1 hc)))

end

section
/-! PROOF. What the dispatch of a vector instruction does, once for every vector instruction (R56, R97, R148), for O36. -/

namespace Sys2Proof.Machine

theorem waits_of_hold {i : Instr} {s : State} {st : CtxSt} {w : WaitOn} (h : exec i s = .next (s.hold st w)) : Waits i s st w :=
  ⟨_, h, hold_spec s st w⟩

/-- An entry in the vector queue of the acting context's core, and the context past its instruction. -/
theorem dispatched_of_issued (s : State) (e : VEntry) :
    Dispatched s ((s.modCore (coreOf s.cur) (fun k => { k with vq := k.vq ++ [e] })).modMe (fun c =>
      { (c.issued e) with
        cntL := if e.cntL then c.cntL + 1 else c.cntL, cntS := if e.cntS then c.cntS + 1 else c.cntS })) e e.op.setsVd (!e.op.whole) := by
  refine ⟨rfl, fun j hj => State.modMe_ctx_other _ _ _ hj, ?_, fun k => ?_⟩
  · rw [State.modMe_me]
    rfl
  · rw [State.modMe_core, State.modCore_core]
    split
    case isTrue h => rw [h]
    case isFalse => rfl

/-- A vector instruction that `vDispatch` performs issues as R56 and R97 say. -/
theorem vectorIssues_of_vDispatch {i : Instr} {w : Nat} {op : VOp} {mask : MaskSel} {fr : Option FmtSel} {x y : State → Word}
    (h : ∀ s, exec i s = vDispatch w op mask fr (x s) (y s) s) : VectorIssues i w op mask fr x y := by
  intro s c fw format vs reserved blocked full e far counted
  have hvs : s.effVstart s.cur = vs := by
    change _ = if s.vqOf s.cur = [] then _ else _
    unfold State.effVstart
    cases s.vqOf s.cur <;> rfl
  clear_value vs
  subst hvs
  have hrun : exec i s = needVec w s (
      if !format then raise 0x03 fw s
      else if reserved then raise 0x02 (BitVec.ofNat 64 w) s
      else if c.vclear then .next (s.hold .waitUnit .vclear)
      else if blocked then .next (s.hold .waitReg .vReg)
      else if full then .next (s.hold .waitUnit .vqFull)
      else if (far && op.isLoad && c.cntL == 0xFFFF) || (far && op.isStore && c.cntS == 0xFFFF) then .next (s.hold .waitUnit .cntFull)
      else .next ((s.modCore (coreOf s.cur) (fun k => { k with vq := k.vq ++
          [{ e with cntL := far && op.isLoad, cntS := far && op.isStore }] })).modMe (fun c =>
        { (c.issued { e with cntL := far && op.isLoad, cntS := far && op.isStore }) with
          cntL := if far && op.isLoad then c.cntL + 1 else c.cntL, cntS := if far && op.isStore then c.cntS + 1 else c.cntS }))) :=
    h s
  have hcount : ((far && op.isLoad && c.cntL == 0xFFFF) || (far && op.isStore && c.cntS == 0xFFFF)) = false ↔ counted := by
    change _ ↔ _ ∨ _
    cases far <;> simp
  have hopen : c.status.ven = true → ∀ f, needVec w s f = f := fun hven f => if_pos hven
  clear_value far
  refine ⟨fun hven => ?_, fun hven hf => ?_, fun hven hf hr => ?_, fun hven hf hr hv => ?_, fun hven hf hr hv hb => ?_,
    fun hven hf hr hv hb hfull => ?_, fun hven hf hr hv hb hfull hc => ?_, fun hven hf hr hv hb hfull hc => ?_⟩
  · exact raises_of_raise i s _ _ (hrun.trans (if_neg (by simp only [c] at hven; simp [hven])))
  all_goals rw [hopen hven, hf] at hrun
  · exact raises_of_raise i s _ _ hrun
  all_goals rw [hr] at hrun
  · exact raises_of_raise i s _ _ hrun
  all_goals rw [hv] at hrun
  · exact waits_of_hold hrun
  all_goals rw [hb] at hrun
  · exact waits_of_hold hrun
  · exact waits_of_hold (hrun.trans (if_pos hfull))
  · exact ⟨_, (hrun.trans (if_neg hfull)).trans (if_neg (by rw [hcount.2 hc]; exact Bool.false_ne_true)), dispatched_of_issued s _⟩
  · exact waits_of_hold ((hrun.trans (if_neg hfull)).trans (if_pos (Bool.of_not_eq_false (mt hcount.1 hc))))

end Sys2Proof.Machine
end

section
open Sys2Proof Sys2Proof.Machine

/-- Settles O36: each of these instructions is one `vDispatch`. -/
theorem vectorFormatInstructionsIssue : Obligations.VectorFormatInstructionsIssue := by
  unfold Obligations.VectorFormatInstructionsIssue
  intro d a b c md gb mk fr
  and_intros <;> exact vectorIssues_of_vDispatch fun _ => rfl

end

section
/-! PROOF. Fields of long registers, elements and masks, and the completion of an instruction that accesses no memory, for O40. -/

namespace Sys2Proof.Machine

/-! Elements of vector registers (R144). -/

theorem getLsbD_putBits {n : Nat} (r : BitVec n) (off w x i : Nat) (hi : i < n) :
    (putBits r off w x).getLsbD i = if off ≤ i ∧ i < off + w then x.testBit (i - off) else r.getLsbD i := by
  have hn : i - off < n := by omega
  simp only [putBits, BitVec.getLsbD_or, BitVec.getLsbD_and, BitVec.getLsbD_not, BitVec.getLsbD_shiftLeft, BitVec.getLsbD_ofNat,
    Nat.testBit_mod_two_pow, Nat.testBit_two_pow_sub_one, hi, hn, decide_true, Bool.true_and]
  by_cases hlow : i < off
  · simp [hlow, not_le.2 hlow]
  · have hin : i - off < w ↔ i < off + w := by omega
    by_cases hw : i < off + w <;> simp [hlow, not_lt.1 hlow, hin, hw]

/-- A field as it was written. -/
theorem extract_putBits_same {n : Nat} (r : BitVec n) (off w x : Nat) (h : off + w ≤ n) :
    (putBits r off w x).extractLsb' off w = BitVec.ofNat w x := by
  refine BitVec.eq_of_getLsbD_eq fun i hi => ?_
  rw [BitVec.getLsbD_extractLsb', getLsbD_putBits _ _ _ _ _ (by omega), if_pos (by omega), BitVec.getLsbD_ofNat]
  simp [hi]

/-- A field beside the one written. -/
theorem extract_putBits_other {n : Nat} (r : BitVec n) (off off' w x : Nat) (h : off' + w ≤ n) (hne : off' + w ≤ off ∨ off + w ≤ off') :
    (putBits r off w x).extractLsb' off' w = r.extractLsb' off' w := by
  refine BitVec.eq_of_getLsbD_eq fun i hi => ?_
  rw [BitVec.getLsbD_extractLsb', BitVec.getLsbD_extractLsb', getLsbD_putBits _ _ _ _ _ (by omega), if_neg (by omega)]

theorem setElem_other (c : Ctx) (L n w i x : Nat) (r : VReg) (h : r.val ≠ (n + i * w / 2 ^ L) % 32) :
    (c.setElem L n w i x).v.get r = c.v.get r :=
  Vector.getElem_set_ne (Fin.ofNat 32 _).isLt r.isLt h.symm

/-- The elements of the register that an element 0 is written to. -/
theorem lane_setElem_zero (c : Ctx) (e : VEntry) (d : VReg) (w x i : Nat) (hlen : e.lenLog ≤ 14) (hi : (i + 1) * w ≤ 2 ^ e.lenLog) :
    (c.setElem e.lenLog d.val w 0 x).lane e w d.val i = if i = 0 then BitVec.ofNat w x else c.lane e w d.val i := by
  have hbits : 2 ^ e.lenLog ≤ 16384 := (Nat.pow_le_pow_right (by decide) hlen).trans (by decide : 2 ^ 14 ≤ 16384)
  have hnext : i * w + w ≤ 2 ^ e.lenLog := by rwa [Nat.add_mul, Nat.one_mul] at hi
  rcases Nat.eq_zero_or_pos w with rfl | hw
  · exact Subsingleton.elim _ _
  have hreg : ∀ j, j * w < 2 ^ e.lenLog → Fin.ofNat 32 (d.val + j * w / 2 ^ e.lenLog) = d := fun j hj => by
    rw [Nat.div_eq_of_lt hj, Nat.add_zero]
    exact Fin.ofNat_val_eq_self d
  have hwritten : (c.setElem e.lenLog d.val w 0 x).v.get d = putBits (c.v.get d) 0 w x := by
    simp only [Ctx.setElem, hreg 0 (by omega)]
    simp only [Nat.zero_mul, Nat.zero_mod]
    exact Vector.getElem_set_self d.isLt
  rw [Ctx.lane, Ctx.lane, hreg i (by omega), hwritten, Nat.mod_eq_of_lt (by omega)]
  rcases Nat.eq_zero_or_pos i with rfl | hpos
  · rw [if_pos rfl, Nat.zero_mul]
    exact extract_putBits_same _ _ _ _ (by omega)
  · rw [if_neg (by omega)]
    have hle : w ≤ i * w := Nat.le_mul_of_pos_left w hpos
    exact extract_putBits_other _ _ _ _ _ (by omega) (.inr (by omega))

/-! Masks (R149, R150). -/

/-- Bits of a mask register, as an instruction leaves them that writes those of `sel` by `f`. -/
theorem mask_setM (x : Ctx) (md : MReg) (z : BitVec 2048) {sel f : Nat → Prop}
    (h : ∀ i < 2048, (sel i → (z.getLsbD i = true ↔ f i)) ∧ (¬ sel i → z.getLsbD i = (x.m.get md).getLsbD i)) :
    let y := x.setM md z
    y = { x with m := y.m } ∧ (∀ r, r ≠ md → y.m.get r = x.m.get r) ∧
      ∀ i < 2048, (sel i → ((y.m.get md).getLsbD i = true ↔ f i)) ∧ (¬ sel i → (y.m.get md).getLsbD i = (x.m.get md).getLsbD i) := by
  refine ⟨rfl, fun r hr => Vector.getElem_set_ne md.isLt r.isLt fun hval => hr (Fin.ext hval.symm), fun i hi => ?_⟩
  have hget : (x.setM md z).m.get md = z := Vector.getElem_set_self md.isLt
  rw [hget]
  exact h i hi

theorem getLsbD_maskWrite (old new sel : BitVec 2048) (i : Nat) (hi : i < 2048) :
    (maskWrite old new sel).getLsbD i = if sel.getLsbD i = true then new.getLsbD i else old.getLsbD i := by
  simp only [maskWrite, BitVec.getLsbD_or, BitVec.getLsbD_and, BitVec.getLsbD_not, hi, decide_true, Bool.true_and]
  cases sel.getLsbD i <;> simp

theorem getLsbD_lowMask (vl i : Nat) (hi : i < 2048) : (lowMask vl).getLsbD i = true ↔ i < vl := by
  simp only [lowMask, BitVec.getLsbD_ofNat, Nat.testBit_two_pow_sub_one, hi, decide_true, Bool.true_and, decide_eq_true_eq]

theorem active_iff (c : Ctx) (k : MaskSel) (i : Nat) :
    c.active k i = true ↔ k = 0 ∨ (c.m.get (maskReg k)).getLsbD i = true := by
  simp [Ctx.active, Ctx.mbit]

theorem getLsbD_activeBits (e : VEntry) (c : Ctx) (i : Nat) (hi : i < 2048) :
    (e.activeBits c).getLsbD i = true ↔ i < e.vl ∧ (e.mask = 0 ∨ (c.m.get (maskReg e.mask)).getLsbD i = true) := by
  unfold VEntry.activeBits
  split
  case isTrue h => simp only [h, getLsbD_lowMask _ _ hi, true_or, and_true]
  case isFalse h => simp only [h, BitVec.getLsbD_and, Bool.and_eq_true, getLsbD_lowMask _ _ hi, false_or]

/-- No bit below i is set exactly where i does not lie above the lowest set one. -/
theorem le_firstBit_iff (x : BitVec 2048) (n i : Nat) (hi : i ≤ n) : i ≤ firstBit x n ↔ ∀ j < i, x.getLsbD j = false := by
  unfold firstBit
  cases h : (List.range n).find? fun i => x.getLsbD i with
  | none =>
    have hnone := List.find?_eq_none.1 h
    simp only [List.mem_range] at hnone
    exact ⟨fun _ j hj => Bool.eq_false_of_not_eq_true (hnone j (by omega)), fun _ => hi⟩
  | some a =>
    obtain ⟨hset, hlow, hnone⟩ := List.find?_range_eq_some.1 h
    refine ⟨fun hle j hj => by simpa using hnone j (lt_of_lt_of_le hj hle), fun hclear => ?_⟩
    by_contra hgt
    simp [hclear a (not_le.1 hgt)] at hset

theorem firstBit_le (x : BitVec 2048) (n : Nat) : firstBit x n ≤ n := by
  unfold firstBit
  cases h : (List.range n).find? fun i => x.getLsbD i with
  | none => exact le_refl n
  | some a => exact (List.mem_range.1 (List.find?_range_eq_some.1 h).2.1).le

theorem popGo_eq_countP (x n : Nat) : popGo x n = (List.range n).countP fun i => x.testBit i := by
  induction n with
  | zero => rfl
  | succ n ih =>
    rw [popGo, ih, List.range_succ, List.countP_append, List.countP_singleton, Nat.add_comm]
    congr 1
    rw [Nat.testBit_eq_decide_div_mod_eq]
    rcases Nat.mod_two_eq_zero_or_one (x / 2 ^ n) with h | h <;> simp [h]

/-! Completion (R97, R148, R242). -/

/-- State t is s but for its contexts and cores. -/
def UnitsOnly (s t : State) : Prop := t = { s with ctxs := t.ctxs, cores := t.cores }

theorem State.modCtx_units (s : State) (c : Nat) (f : Ctx → Ctx) : UnitsOnly s (s.modCtx c f) := rfl

theorem State.modCore_units (s : State) (k : Nat) (f : Core → Core) : UnitsOnly s (s.modCore k f) := rfl

theorem UnitsOnly.trans {s t u : State} (h : UnitsOnly s t) (h' : UnitsOnly t u) : UnitsOnly s u := by
  unfold UnitsOnly at *
  rw [h', h]

theorem vComplete_units (s : State) (e : VEntry) : UnitsOnly s (s.vComplete e) :=
  (State.modCore_units s _ _).trans (State.modCtx_units _ _ _)

/-- An instruction that counts nowhere stops counting nowhere. -/
theorem uncount_of_uncounted (c : Ctx) {e : VEntry} (stop : Nat) (hL : e.cntL = false) (hS : e.cntS = false) : c.uncount e stop = c := by
  simp [Ctx.uncount, hL, hS]

theorem vComplete_ctx_same (s : State) {e : VEntry} (hmem : ∀ st md d, e.op ≠ .mem st md d) (hL : e.cntL = false)
    (hS : e.cntS = false) :
    (s.vComplete e).ctx e.ctx = { s.ctx e.ctx with vstart := 0, iret := (s.ctx e.ctx).iret + 1, trapRun := 0 } := by
  rw [State.vComplete, State.modCtx_ctx_same, uncount_of_uncounted _ _ hL hS, State.setVq, State.modCore_ctx]
  split
  case h_1 hop => exact absurd hop (hmem _ _ _)
  case h_2 => rfl

/-- VECTOR_EXECUTE of an instruction that accesses no memory performs it and takes it off the queue. -/
theorem vectorDone_arith {s : State} {k : CoreId} {e : VEntry} {rest : List VEntry} (hvq : (s.core k.val).vq = e :: rest)
    (hcore : coreOf e.ctx = k.val) (hmem : ∀ st md d, e.op ≠ .mem st md d) (hL : e.cntL = false) (hS : e.cntS = false) :
    ∃ t, exec (.vectorExecute k) s = .next t ∧ VectorDone s t k.val e rest (e.arith (s.ctx e.ctx) e.limit) := by
  have hacc : (!(e.op.isLoad || e.op.isStore)) = true := by
    cases hop : e.op with
    | mem store md d => exact absurd hop (hmem _ _ _)
    | _ => rfl
  have hrun : exec (.vectorExecute k) s =
      .next (((s.modCtx e.ctx (fun c => e.arith c e.limit)).count e.ctx 0x09 (e.performed (s.ctx e.ctx) e.limit)).vComplete e) := by
    change execVectorExecute k s = _
    rw [execVectorExecute, hvq]
    exact if_pos hacc
  refine ⟨_, hrun, ?_, fun j hj => ?_, ?_, fun j => ?_⟩
  · exact ((State.modCtx_units s _ _).trans (State.modCtx_units _ _ _)).trans (vComplete_units _ e)
  · simp [State.vComplete, State.setVq, State.count, hj]
  · generalize ht : State.vComplete _ e = t
    have hctx : t.ctx e.ctx = { (e.arith (s.ctx e.ctx) e.limit).count 0x09 (e.performed (s.ctx e.ctx) e.limit) with
        vstart := 0, iret := (e.arith (s.ctx e.ctx) e.limit).iret + 1, trapRun := 0 } := by
      rw [← ht, vComplete_ctx_same _ hmem hL hS, State.count, State.modCtx_ctx_same, State.modCtx_ctx_same]
      rfl
    rw [hctx]
    rfl
  · simp only [State.vComplete, State.setVq, State.count, State.modCtx_core, State.modCore_core, hcore]
    split
    case isTrue h => rw [h, hvq]; rfl
    case isFalse => rfl

end Sys2Proof.Machine
end

section
/-! PROOF. Compares, masks and reductions as VECTOR_EXECUTE performs them (R157, R163, R166 to R168, R187 to R189), for O40. -/

namespace Sys2Proof.Machine

/-! Integers in elements. -/

theorem intOf_toNat {w : Nat} (x : BitVec w) (hw : 0 < w) : intOf w true x.toNat = x.toInt := by
  have hhalf : 2 ^ w = 2 * 2 ^ (w - 1) := by rw [← Nat.pow_succ', Nat.succ_eq_add_one, Nat.sub_add_cancel hw]
  rw [intOf, Nat.mod_eq_of_lt x.isLt, BitVec.toInt_eq_toNat_cond]
  by_cases h : 2 * x.toNat < 2 ^ w
  · rw [if_pos h, if_neg (by simp; omega)]
  · rw [if_neg h, if_pos ⟨rfl, by omega⟩]
    norm_cast

theorem VCmp.eval_iff (o : VCmp) {w : Nat} (x y : BitVec w) (hw : 0 < w) : o.eval w x.toNat y.toNat = true ↔ o.holds x y := by
  cases o <;> simp [VCmp.eval, VCmp.holds, intOf_toNat _ hw, BitVec.toNat_eq]

/-- The combination of R187, with its function of R155. -/
def VRed.bin : VRed → VBin
  | .sum => .add | .max => .max | .min => .min | .maxu => .maxu | .minu => .minu | .and => .and | .or => .or | .xor => .xor

theorem VRed.eval_toNat (o : VRed) {w : Nat} (x y : BitVec w) (hw : 0 < w) :
    o.eval w x.toNat y.toNat = (o.bin.fn x y).toNat := by
  cases o with
  | sum | and | or | xor => simp [VRed.eval, VRed.bin, VBin.fn]
  | max | min | maxu | minu =>
    simp only [VRed.eval, VRed.bin, VBin.fn, intOf_toNat _ hw]
    split <;> rfl

theorem foldl_eval (o : VRed) {w : Nat} (hw : 0 < w) (g : Nat → BitVec w) (l : List Nat) (z : BitVec w) :
    l.foldl (fun x i => o.eval w x (g i).toNat) z.toNat = (l.foldl (fun x i => o.bin.fn x (g i)) z).toNat := by
  induction l generalizing z with
  | nil => rfl
  | cons i l ih => rw [List.foldl_cons, List.foldl_cons, o.eval_toNat _ _ hw, ih]

/-! Compares, element by element. -/

theorem setM_get (c : Ctx) (r : MReg) : c.setM r (c.m.get r) = c := by
  have h : c.m.set r.val (c.m.get r) r.isLt = c.m := Vector.set_getElem_self r.isLt
  rw [Ctx.setM, h]

theorem setM_setM (c : Ctx) (r : MReg) (x y : BitVec 2048) : (c.setM r x).setM r y = c.setM r y := by
  simp [Ctx.setM]

theorem setM_get_same (c : Ctx) (r : MReg) (x : BitVec 2048) : (c.setM r x).m.get r = x := Vector.getElem_set_self r.isLt

theorem setM_get_other (c : Ctx) {r r' : MReg} (x : BitVec 2048) (h : r' ≠ r) : (c.setM r x).m.get r' = c.m.get r' :=
  Vector.getElem_set_ne r.isLt r'.isLt fun hval => h (Fin.ext hval.symm)

/-- The elements i to i + n − 1 of a compare: the bits of the performed ones, and no other. -/
theorem runFrom_cmp (e : VEntry) (o : VCmp) (md : MReg) (a b : VReg) (hop : e.op = .cmp o md a b) (n i : Nat) (c : Ctx)
    (hlim : i + n ≤ max 2048 i) : ∃ z, e.runFrom n i c = c.setM md z ∧ ∀ j < 2048, z.getLsbD j =
      if i ≤ j ∧ j < i + n ∧ c.active e.mask j = true then
        o.eval (ewOf e.es) (c.elem e.lenLog a.val (ewOf e.es) j) (c.elem e.lenLog b.val (ewOf e.es) j)
      else (c.m.get md).getLsbD j := by
  induction n generalizing i c with
  | zero => exact ⟨c.m.get md, (setM_get c md).symm, fun j _ => by rw [if_neg (by omega)]⟩
  | succ n ih =>
    have hperf : e.performs c i = c.active e.mask i := by rw [VEntry.performs, hop]
    have helem : e.element c i = c.setM md (putBits (c.m.get md) i 1
        (if o.eval (ewOf e.es) (c.elem e.lenLog a.val (ewOf e.es) i) (c.elem e.lenLog b.val (ewOf e.es) i) then 1 else 0)) := by
      rw [VEntry.element, hop]
      rfl
    obtain ⟨z, hz, hbits⟩ : ∃ z, (if e.performs c i then e.element c i else c) = c.setM md z ∧ ∀ j < 2048, z.getLsbD j =
        if i = j ∧ c.active e.mask i = true then
          o.eval (ewOf e.es) (c.elem e.lenLog a.val (ewOf e.es) i) (c.elem e.lenLog b.val (ewOf e.es) i)
        else (c.m.get md).getLsbD j := by
      rw [hperf, helem]
      split
      case isTrue hact =>
        refine ⟨_, rfl, fun j hj => ?_⟩
        rw [getLsbD_putBits _ _ _ _ _ hj]
        by_cases hij : i = j
        · subst hij
          refine (if_pos ⟨le_refl i, Nat.lt_succ_self i⟩).trans (Eq.trans ?_ (if_pos ⟨rfl, hact⟩).symm)
          rw [Nat.sub_self]
          cases o.eval (ewOf e.es) (c.elem e.lenLog a.val (ewOf e.es) i) (c.elem e.lenLog b.val (ewOf e.es) i) <;> rfl
        · rw [if_neg (by omega), if_neg fun h => hij h.1]
      case isFalse hact => exact ⟨_, (setM_get c md).symm, fun j _ => (if_neg fun h => hact h.2).symm⟩
    obtain ⟨y, hy, hrest⟩ := ih (i + 1) (c.setM md z) (by omega)
    have hactive : ∀ j < 2048, i < j → (c.setM md z).active e.mask j = c.active e.mask j := fun j hj hij => by
      rw [Ctx.active, Ctx.active, Ctx.mbit, Ctx.mbit]
      by_cases hmask : maskReg e.mask = md
      · rw [hmask, setM_get_same, hbits j hj, if_neg fun h => by omega]
      · rw [setM_get_other _ _ hmask]
    refine ⟨y, by rw [VEntry.runFrom, hz, hy, setM_setM], fun j hj => ?_⟩
    rw [hrest j hj, setM_get_same, hbits j hj]
    by_cases hij : i = j
    · subst hij
      rw [if_neg (by omega)]
      exact if_congr (by simp) rfl rfl
    · rw [if_neg fun h : i = j ∧ _ => hij h.1]
      refine if_congr ?_ rfl rfl
      constructor <;> rintro ⟨h1, h2, h3⟩ <;> rw [hactive j hj (by omega)] at * <;> exact ⟨by omega, by omega, h3⟩

/-! The tree of R48. -/

theorem ceilLog2_eq {k n : Nat} (hle : k ≤ 2 ^ n) (hlt : n = 0 ∨ 2 ^ (n - 1) < k) : ceilLog2 k = n := by
  unfold ceilLog2
  cases n with
  | zero => exact if_pos (by simpa using hle)
  | succ n =>
    have hlow : 2 ^ n < k := by simpa using hlt
    have hpos : 0 < 2 ^ n := Nat.two_pow_pos n
    have hlog : (k - 1).log2 = n := (Nat.log2_eq_iff (by omega)).2 ⟨by omega, by omega⟩
    rw [if_neg (by omega), hlog]

/-- A flag of several results. -/
theorem getLsbD_foldl_or {α : Type} (g : α → FFlags) (l : List α) (z : FFlags) (j : Nat) :
    (l.foldl (fun f x => f ||| g x) z).getLsbD j = true ↔ z.getLsbD j = true ∨ ∃ x ∈ l, (g x).getLsbD j = true := by
  induction l generalizing z with
  | nil => simp
  | cons x l ih => simp [ih, or_assoc]

/-- The tree over the values T 0 i, whose level l is T l: its root, and the flags of all its additions. -/
theorem treeSum_levels (f : FpFmt) (sat : Bool) (n : Nat) (T : Nat → Nat → Nat) (fl : FFlags)
    (hT : ∀ l < n, ∀ i < 2 ^ (n - l - 1), T (l + 1) i = (treeAdd f sat (T l i) (T l (i + 2 ^ (n - l - 1)))).1) :
    let r := treeSum f sat n ((List.range (2 ^ n)).map (T 0)) fl
    r.1 = T n 0 ∧ ∀ j, r.2.getLsbD j = true ↔ fl.getLsbD j = true ∨
      ∃ l < n, ∃ i < 2 ^ (n - l - 1), (treeAdd f sat (T l i) (T l (i + 2 ^ (n - l - 1)))).2.getLsbD j = true := by
  induction n generalizing T fl with
  | zero => simp [treeSum]
  | succ n ih =>
    have hpairs : ((List.range (2 ^ (n + 1))).map (T 0) |>.take (2 ^ n)).zipWith (fun x y => treeAdd f sat x y)
        ((List.range (2 ^ (n + 1))).map (T 0) |>.drop (2 ^ n)) =
        (List.range (2 ^ n)).map fun i => treeAdd f sat (T 0 i) (T 0 (i + 2 ^ n)) := by
      have h2 : 2 ^ (n + 1) = 2 ^ n + 2 ^ n := by omega
      refine List.ext_getElem (by simp [h2]) fun i h h' => ?_
      simp [Nat.add_comm]
    have hnext : ((List.range (2 ^ n)).map fun i => treeAdd f sat (T 0 i) (T 0 (i + 2 ^ n))).map (·.1) = (List.range (2 ^ n)).map (T 1) := by
      rw [List.map_map]
      exact List.map_congr_left fun i hi => (hT 0 (by omega) i (by simpa using hi)).symm
    obtain ⟨hroot, hflags⟩ := ih (fun l => T (l + 1))
      (((List.range (2 ^ n)).map fun i => treeAdd f sat (T 0 i) (T 0 (i + 2 ^ n))).foldl (fun a x => a ||| x.2) fl)
      fun l hl i hi => by
        have h := hT (l + 1) (by omega) i (by rwa [show n + 1 - (l + 1) - 1 = n - l - 1 by omega])
        rwa [show n + 1 - (l + 1) - 1 = n - l - 1 by omega] at h
    intro r
    have hr : r = treeSum f sat n ((List.range (2 ^ n)).map (T 1))
        (((List.range (2 ^ n)).map fun i => treeAdd f sat (T 0 i) (T 0 (i + 2 ^ n))).foldl (fun a x => a ||| x.2) fl) := by
      rw [← hnext, ← hpairs]
      rfl
    rw [hr]
    refine ⟨hroot, fun j => ?_⟩
    rw [hflags, getLsbD_foldl_or, or_assoc]
    refine or_congr_right ⟨?_, ?_⟩
    · rintro (⟨x, hx, hbit⟩ | ⟨l, hl, i, hi, hbit⟩)
      · obtain ⟨i, hi, rfl⟩ := List.mem_map.1 hx
        exact ⟨0, by omega, i, by simpa using hi, by simpa using hbit⟩
      · have hlevel : n + 1 - (l + 1) - 1 = n - l - 1 := by omega
        exact ⟨l + 1, by omega, i, by rwa [hlevel], by rwa [hlevel]⟩
    · rintro ⟨l, hl, i, hi, hbit⟩
      cases l with
      | zero => exact .inl ⟨_, List.mem_map.2 ⟨i, List.mem_range.2 (by simpa using hi), rfl⟩, by simpa using hbit⟩
      | succ l =>
        have hlevel : n + 1 - (l + 1) - 1 = n - l - 1 := by omega
        rw [hlevel] at hi hbit
        exact .inr ⟨l, by omega, i, hi, hbit⟩

/-! The greatest and the least of several patterns. -/

/-- A pattern as flushing leaves it: it reads as itself. -/
def FpFmt.Flushed (f : FpFmt) (ftz : Bool) (b : Nat) : Prop := f.readAs ftz (b % 2 ^ f.width) = b

theorem FpFmt.flushed_readAs (f : FpFmt) (ftz : Bool) {b : Nat} (hb : b < 2 ^ f.width) : f.Flushed ftz (f.readAs ftz b) := by
  have hsign : 2 ^ (f.width - 1) % 2 ^ f.width = 2 ^ (f.width - 1) := by cases f <;> rfl
  by_cases h : ftz = true ∧ f.expOf b = 0
  · rw [FpFmt.Flushed, FpFmt.readAs.eq_def _ _ b, if_pos h]
    cases ftz <;> cases f.signOf b <;> cases f <;> simp at h <;> decide
  · rw [FpFmt.Flushed, FpFmt.readAs.eq_def _ _ b, if_neg h, Nat.mod_eq_of_lt hb, FpFmt.readAs, if_neg h]

/-- Place q does not lie beyond place p, in the direction that VFREDMAX or VFREDMIN looks. -/
def within (mx : Bool) (q p : Int) : Prop := if mx then q ≤ p else p ≤ q

theorem within_refl (mx : Bool) (p : Int) : within mx p p := by cases mx <;> exact le_refl p

theorem within_trans {mx : Bool} {p q r : Int} (h : within mx p q) (h' : within mx q r) : within mx p r := by
  cases mx
  · exact le_trans h' h
  · exact le_trans h h'

/-- Of two patterns that are no NaN, the one at the outer place. -/
theorem minMaxBits_within (f : FpFmt) (mx ftz : Bool) {m x : Nat} (hm : f.Flushed ftz m) (hx : x < 2 ^ f.width) (hnan : f.nanAt m = false)
    (hnanx : f.nanAt (f.readAs ftz x) = false) :
    let z := (minMaxBits f mx ftz m x).1
    (z = m ∨ z = f.readAs ftz x) ∧ within mx (f.placeOf m) (f.placeOf z) ∧ within mx (f.placeOf (f.readAs ftz x)) (f.placeOf z) := by
  have hpick : (minMaxBits f mx ftz m x).1 = if (if mx then decide (f.placeOf (f.readAs ftz x) ≤ f.placeOf m)
      else decide (f.placeOf m ≤ f.placeOf (f.readAs ftz x))) = true then m else f.readAs ftz x := by
    rw [minMaxBits_eq, hm, Nat.mod_eq_of_lt hx, FpFmt.pickOf, hnan, hnanx]
    rfl
  generalize f.readAs ftz x = y at *
  intro z
  cases mx
  · by_cases h : f.placeOf m ≤ f.placeOf y
    · rw [show z = m from hpick.trans (if_pos (decide_eq_true h))]
      exact ⟨.inl rfl, le_refl _, h⟩
    · rw [show z = y from hpick.trans (if_neg (mt of_decide_eq_true h))]
      exact ⟨.inr rfl, (not_le.1 h).le, le_refl _⟩
  · by_cases h : f.placeOf y ≤ f.placeOf m
    · rw [show z = m from hpick.trans (if_pos (decide_eq_true h))]
      exact ⟨.inl rfl, le_refl _, h⟩
    · rw [show z = y from hpick.trans (if_neg (mt of_decide_eq_true h))]
      exact ⟨.inr rfl, (not_le.1 h).le, le_refl _⟩

/-- Of a pattern m that is no NaN and further ones, VFREDMAX or VFREDMIN finds one at the outermost place. -/
theorem foldl_minMaxBits (f : FpFmt) (mx ftz : Bool) (l : List Nat) (m : Nat) (hm : f.Flushed ftz m) (hnan : f.nanAt m = false)
    (hl : ∀ x ∈ l, x < 2 ^ f.width ∧ f.nanAt (f.readAs ftz x) = false) :
    let z := l.foldl (fun m y => (minMaxBits f mx ftz m y).1) m
    (z = m ∨ ∃ x ∈ l, z = f.readAs ftz x) ∧ within mx (f.placeOf m) (f.placeOf z) ∧
      ∀ x ∈ l, within mx (f.placeOf (f.readAs ftz x)) (f.placeOf z) := by
  induction l generalizing m with
  | nil => exact ⟨.inl rfl, within_refl mx _, nofun⟩
  | cons x l ih =>
    obtain ⟨hx, hnanx⟩ := hl x (List.mem_cons_self ..)
    obtain ⟨hone, hmz, hxz⟩ := minMaxBits_within f mx ftz hm hx hnan hnanx
    have hz : f.Flushed ftz (minMaxBits f mx ftz m x).1 ∧ f.nanAt (minMaxBits f mx ftz m x).1 = false := by
      rcases hone with h | h <;> rw [h]
      · exact ⟨hm, hnan⟩
      · exact ⟨f.flushed_readAs ftz hx, hnanx⟩
    obtain ⟨hfound, hlow, hrest⟩ := ih _ hz.1 hz.2 fun y hy => hl y (List.mem_cons_of_mem _ hy)
    refine ⟨?_, within_trans hmz hlow, fun y hy => ?_⟩
    · rcases hfound with h | ⟨y, hy, h⟩
      · exact hone.imp h.trans fun h' => ⟨x, List.mem_cons_self .., h.trans h'⟩
      · exact .inr ⟨y, List.mem_cons_of_mem _ hy, h⟩
    · rcases List.mem_cons.1 hy with rfl | hy
      · exact within_trans hxz hlow
      · exact hrest y hy

/-- Of a list of candidates the first, and what a fold over the others makes of it. -/
def reduceFrom (l : List Nat) (none : Nat) (first : Nat → Nat) (f : Nat → Nat → Nat) : Nat :=
  match l with
  | [] => none
  | x :: t => t.foldl f (first x)

/-- What VFREDMAX and VFREDMIN return of the patterns xs (R189). -/
theorem fredmm_spec (f : FpFmt) (mx ftz : Bool) (xs : List Nat) (hxs : ∀ x ∈ xs, x < 2 ^ f.width) :
    let z := reduceFrom (xs.filter (fun x => !(fpVal f ftz x).isNan)) f.canonNan (flushBits f ftz)
      (fun m y => (minMaxBits f mx ftz m y).1)
    ((∀ x ∈ xs, f.nanAt (f.readAs ftz x) = true) → z = f.oneNan) ∧
      ∀ x ∈ xs, f.nanAt (f.readAs ftz x) = false →
        (∃ y ∈ xs, z = f.readAs ftz y) ∧ f.nanAt z = false ∧ within mx (f.placeOf (f.readAs ftz x)) (f.placeOf z) := by
  have hnan : ∀ x ∈ xs, (fpVal f ftz x).isNan = f.nanAt (f.readAs ftz x) := fun x hx => by
    rw [fpVal_flush, isNan_fpVal, Nat.mod_eq_of_lt (hxs x hx)]
  have hmem : ∀ x, x ∈ xs.filter (fun x => !(fpVal f ftz x).isNan) ↔ x ∈ xs ∧ f.nanAt (f.readAs ftz x) = false := fun x => by
    rw [List.mem_filter]
    exact and_congr_right fun hx => by rw [hnan x hx, Bool.not_eq_true']
  cases hl : xs.filter (fun x => !(fpVal f ftz x).isNan) with
  | nil =>
    refine ⟨fun _ => f.oneNan_eq_canonNan.symm, fun x hx hn => ?_⟩
    have h := (hmem x).2 ⟨hx, hn⟩
    rw [hl] at h
    cases h
  | cons x t =>
    rw [hl] at hmem
    obtain ⟨hx, hnx⟩ := (hmem x).1 (List.mem_cons_self ..)
    have ht : ∀ y ∈ t, y ∈ xs ∧ f.nanAt (f.readAs ftz y) = false := fun y hy => (hmem y).1 (List.mem_cons_of_mem _ hy)
    have hfirst : flushBits f ftz x = f.readAs ftz x := by rw [flushBits_eq, Nat.mod_eq_of_lt (hxs x hx)]
    obtain ⟨hfound, hlow, hrest⟩ := foldl_minMaxBits f mx ftz t _ (f.flushed_readAs ftz (hxs x hx)) hnx
      fun y hy => ⟨hxs y (ht y hy).1, (ht y hy).2⟩
    dsimp only [reduceFrom]
    rw [hfirst]
    refine ⟨fun hall => absurd (hall x hx) (by rw [hnx]; decide), fun y hy hny => ?_⟩
    have hz : ∃ y ∈ xs, f.nanAt (f.readAs ftz y) = false ∧
        t.foldl (fun m y => (minMaxBits f mx ftz m y).1) (f.readAs ftz x) = f.readAs ftz y := by
      rcases hfound with h | ⟨y, hy, h⟩
      · exact ⟨x, hx, hnx, h⟩
      · exact ⟨y, (ht y hy).1, (ht y hy).2, h⟩
    obtain ⟨y', hy', hny', hzy⟩ := hz
    refine ⟨⟨y', hy', hzy⟩, hzy ▸ hny', ?_⟩
    rcases List.mem_cons.1 ((hmem y).2 ⟨hy, hny⟩) with rfl | hyt
    · exact hlow
    · exact hrest y hyt

/-- The flags of a reduction whose only flags are those of signalling NaNs. -/
theorem foldl_sigFlag (f : FpFmt) (ftz : Bool) (xs : List Nat) (hxs : ∀ x ∈ xs, x < 2 ^ f.width) (z : FFlags) :
    xs.foldl (fun fl x => fl ||| sigFlag (fpVal f ftz x)) z = z ||| if ∃ x ∈ xs, f.sigAt (f.readAs ftz x) = true then 0x01 else 0 := by
  induction xs generalizing z with
  | nil => simp
  | cons x xs ih =>
    rw [List.foldl_cons, ih (fun y hy => hxs y (List.mem_cons_of_mem _ hy)), fpVal_flush, sigFlag_fpVal,
      Nat.mod_eq_of_lt (hxs x (List.mem_cons_self ..)), BitVec.or_assoc]
    by_cases h : f.sigAt (f.readAs ftz x) = true <;> simp [h]
    split <;> rfl

/-- The patterns that VFREDMAX and VFREDMIN look at (R189). -/
def VEntry.reduced (e : VEntry) (c : Ctx) (a b : VReg) (f : FpFmt) : List Nat :=
  c.elem e.lenLog b.val f.width 0 :: (e.actives c).map (fun i => c.elem e.lenLog a.val f.width i)

theorem VEntry.reduced_lt (e : VEntry) (c : Ctx) (a b : VReg) (f : FpFmt) : ∀ x ∈ e.reduced c a b f, x < 2 ^ f.width := by
  intro x hx
  rcases List.mem_cons.1 hx with rfl | hx
  · exact BitVec.isLt _
  · obtain ⟨i, -, rfl⟩ := List.mem_map.1 hx
    exact BitVec.isLt _

theorem VEntry.exists_reduced (e : VEntry) (c : Ctx) (a b : VReg) (f : FpFmt) (p : Nat → Prop) :
    (∃ x ∈ e.reduced c a b f, p x) ↔ p (c.elem e.lenLog b.val f.width 0) ∨
      ∃ i, (i < e.vl ∧ c.active e.mask i = true) ∧ p (c.elem e.lenLog a.val f.width i) := by
  simp [VEntry.reduced, VEntry.actives]

theorem VEntry.fredmm_eq (e : VEntry) (c : Ctx) (mx : Bool) (a b : VReg) (f : FpFmt) (hfa : faOf e.fw = .fp f) :
    e.fredmm c mx a b = (reduceFrom ((e.reduced c a b f).filter (fun x => !(fpVal f (fwFtz e.fw) x).isNan)) f.canonNan
      (flushBits f (fwFtz e.fw)) (fun m y => (minMaxBits f mx (fwFtz e.fw) m y).1),
      (e.reduced c a b f).foldl (fun fl x => fl ||| sigFlag (fpVal f (fwFtz e.fw) x)) 0) := by
  rw [VEntry.fredmm, hfa]
  change (match (e.reduced c a b f).filter _ with | [] => _ | x :: t => _) = _
  cases (e.reduced c a b f).filter (fun x => !(fpVal f (fwFtz e.fw) x).isNan) <;> rfl

/-! The sum of R188. -/

/-- Element i of a VFREDSUM, converted into FD. -/
def VEntry.addend (e : VEntry) (c : Ctx) (a : VReg) (fa fd : FpFmt) (i : Nat) : Nat × FFlags :=
  let x := fpVal fa false (c.elem e.lenLog a.val fa.width i)
  let t := toFp fd (treeRounding (fwSat e.fw)) x.exact
  (t.1, t.2 ||| sigFlag x)

/-- The elements of a VFREDSUM, those that are not active as zeros. -/
def VEntry.addends (e : VEntry) (c : Ctx) (a : VReg) (fa fd : FpFmt) : List (Nat × FFlags) :=
  (List.range e.vl).map fun i => if c.active e.mask i then e.addend c a fa fd i else (0, 0)

theorem VEntry.fredsum_eq (e : VEntry) (c : Ctx) (a b : VReg) (fa fd : FpFmt) (hfa : faOf e.fw = .fp fa) (hfd : fdOf e.fw = .fp fd) :
    let l := e.addends c a fa fd
    let t := treeSum fd (fwSat e.fw) (ceilLog2 e.vl) (l.map (·.1) ++ List.replicate (2 ^ ceilLog2 e.vl - e.vl) 0)
      (l.foldl (fun f x => f ||| x.2) 0)
    let z := treeAdd fd (fwSat e.fw) (c.elem e.lenLog b.val fd.width 0) t.1
    e.fredsum c a b = (z.1, z.2 ||| t.2) := by
  rw [VEntry.fredsum, hfa, hfd]
  rfl

/-- VFREDSUM by a tree T whose leaves are the active addends, and zeros. -/
theorem fredsum_tree (e : VEntry) (c : Ctx) (a b : VReg) (fa fd : FpFmt) (n : Nat) (T : Nat → Nat → Nat)
    (hfa : faOf e.fw = .fp fa) (hfd : fdOf e.fw = .fp fd) (hle : e.vl ≤ 2 ^ n) (hlt : n = 0 ∨ 2 ^ (n - 1) < e.vl)
    (hleaf : ∀ i < 2 ^ n, T 0 i = if i < e.vl ∧ c.active e.mask i = true then (e.addend c a fa fd i).1 else 0)
    (hT : ∀ l < n, ∀ i < 2 ^ (n - l - 1), T (l + 1) i = (treeAdd fd (fwSat e.fw) (T l i) (T l (i + 2 ^ (n - l - 1)))).1) :
    let z := treeAdd fd (fwSat e.fw) (c.elem e.lenLog b.val fd.width 0) (T n 0)
    (e.fredsum c a b).1 = z.1 ∧ ∀ j, (e.fredsum c a b).2.getLsbD j = true ↔
      (∃ i, (i < e.vl ∧ c.active e.mask i = true) ∧ (e.addend c a fa fd i).2.getLsbD j = true) ∨
      (∃ l < n, ∃ i < 2 ^ (n - l - 1), (treeAdd fd (fwSat e.fw) (T l i) (T l (i + 2 ^ (n - l - 1)))).2.getLsbD j = true) ∨
      z.2.getLsbD j = true := by
  intro z
  have hleaves : (e.addends c a fa fd).map (·.1) ++ List.replicate (2 ^ n - e.vl) 0 = (List.range (2 ^ n)).map (T 0) := by
    refine List.ext_getElem (by simp [VEntry.addends]; omega) fun i _ hi => ?_
    have hi : i < 2 ^ n := by simpa using hi
    simp only [VEntry.addends, List.getElem_append, List.getElem_map, List.getElem_range, List.getElem_replicate, List.length_map,
      List.length_range, hleaf i hi]
    by_cases h : i < e.vl <;> cases c.active e.mask i <;> simp [h]
  obtain ⟨hroot, hflags⟩ := treeSum_levels fd (fwSat e.fw) n T ((e.addends c a fa fd).foldl (fun f x => f ||| x.2) 0) hT
  have haddends : ∀ j, ((e.addends c a fa fd).foldl (fun f x => f ||| x.2) (0 : FFlags)).getLsbD j = true ↔
      ∃ i, (i < e.vl ∧ c.active e.mask i = true) ∧ (e.addend c a fa fd i).2.getLsbD j = true := fun j => by
    rw [getLsbD_foldl_or]
    simp only [VEntry.addends, BitVec.ofNat_eq_ofNat, BitVec.getLsbD_zero, List.mem_map, List.mem_range, Bool.false_eq_true, false_or]
    constructor
    · rintro ⟨x, ⟨i, hi, rfl⟩, hbit⟩
      by_cases hact : c.active e.mask i = true
      · exact ⟨i, ⟨hi, hact⟩, by simpa [hact] using hbit⟩
      · simp [hact] at hbit
    · rintro ⟨i, ⟨hi, hact⟩, hbit⟩
      exact ⟨_, ⟨i, hi, rfl⟩, by rwa [if_pos hact]⟩
  rw [e.fredsum_eq c a b fa fd hfa hfd, ceilLog2_eq hle hlt, hleaves]
  refine ⟨by rw [hroot], fun j => ?_⟩
  rw [hroot, BitVec.getLsbD_or, Bool.or_eq_true, hflags, haddends, or_comm, or_assoc]

/-! What an instruction leaves. -/

/-- An instruction that writes bits `sel` of a mask register. -/
theorem mask_setM_maskWrite (x : Ctx) (md : MReg) (new sel : BitVec 2048) {p f : Nat → Prop}
    (hsel : ∀ i < 2048, sel.getLsbD i = true ↔ p i) (hnew : ∀ i < 2048, p i → (new.getLsbD i = true ↔ f i)) :
    let y := x.setM md (maskWrite (x.m.get md) new sel)
    y = { x with m := y.m } ∧ (∀ r, r ≠ md → y.m.get r = x.m.get r) ∧
      ∀ i < 2048, (p i → ((y.m.get md).getLsbD i = true ↔ f i)) ∧ (¬ p i → (y.m.get md).getLsbD i = (x.m.get md).getLsbD i) := by
  refine mask_setM x md _ fun i hi => ⟨fun hp => ?_, fun hp => ?_⟩
  · rw [getLsbD_maskWrite _ _ _ _ hi, if_pos ((hsel i hi).2 hp)]
    exact hnew i hi hp
  · rw [getLsbD_maskWrite _ _ _ _ hi, if_neg (mt (hsel i hi).1 hp)]

/-- An instruction that writes element 0 of a register. -/
theorem setElem_zero (c : Ctx) (e : VEntry) (d : VReg) (w x : Nat) (hlen : e.lenLog ≤ 14) (hw : w ≤ 2 ^ e.lenLog) :
    let y := c.setElem e.lenLog d.val w 0 x
    y = { c with v := y.v } ∧ (∀ r, r ≠ d → y.v.get r = c.v.get r) ∧ y.lane e w d.val 0 = BitVec.ofNat w x ∧
      ∀ i, 0 < i → (i + 1) * w ≤ 2 ^ e.lenLog → y.lane e w d.val i = c.lane e w d.val i := by
  refine ⟨rfl, fun r hr => setElem_other c _ _ _ _ _ r fun h => hr (Fin.ext ?_), ?_, fun i hpos hi => ?_⟩
  · rw [h, Nat.zero_mul, Nat.zero_div, Nat.add_zero, Nat.mod_eq_of_lt d.isLt]
  · rw [lane_setElem_zero c e d w x 0 hlen (by omega), if_pos rfl]
  · rw [lane_setElem_zero c e d w x i hlen hi, if_neg (by omega)]

/-- VECTOR_EXECUTE of a whole instruction. -/
theorem vectorDone_whole {s : State} {k : CoreId} {e : VEntry} {rest : List VEntry} (hvq : (s.core k.val).vq = e :: rest)
    (hcore : coreOf e.ctx = k.val) (hwhole : e.op.whole = true) (hL : e.cntL = false) (hS : e.cntS = false) :
    ∃ t, exec (.vectorExecute k) s = .next t ∧ VectorDone s t k.val e rest (e.wholeStep (s.ctx e.ctx)) := by
  have hmem : ∀ st mode r, e.op ≠ .mem st mode r := by
    rintro st mode r hop
    rw [hop] at hwhole
    cases hwhole
  have harith : e.arith (s.ctx e.ctx) e.limit = e.wholeStep (s.ctx e.ctx) := by
    unfold VEntry.arith
    split
    case h_1 hop =>
      rw [hop] at hwhole
      cases hwhole
    case h_2 => exact if_pos hwhole
  exact harith ▸ vectorDone_arith hvq hcore hmem hL hS

/-- An active bit lies in no mask that is clear below i. -/
theorem firstBit_active (e : VEntry) (c : Ctx) (r : MReg) (i : Nat) (hi : i ≤ e.vl) (hvl : e.vl ≤ 2048) :
    i ≤ firstBit (c.m.get r &&& e.activeBits c) e.vl ↔
      ∀ j < i, (j < e.vl ∧ (e.mask = 0 ∨ (c.m.get (maskReg e.mask)).getLsbD j = true)) → (c.m.get r).getLsbD j = false := by
  rw [le_firstBit_iff _ _ _ hi]
  refine forall₂_congr fun j hj => ?_
  rw [← getLsbD_activeBits e c j (by omega), BitVec.getLsbD_and]
  cases (c.m.get r).getLsbD j <;> cases (e.activeBits c).getLsbD j <;> simp

end Sys2Proof.Machine
end

section
open Sys2Proof Sys2Proof.Machine

/-- Settles O40: each of these instructions is one change of the context's registers, which `vectorDone_arith` completes; its bits and its
lanes are those of `mask_setM` and `setElem_zero`. -/
theorem vectorMasksAndReductions : Obligations.VectorMasksAndReductions := by
  unfold Obligations.VectorMasksAndReductions
  intro s k e rest d a b md ma mb gd hvq hcore hsound w x m active runs bits
  obtain ⟨hlow, hlen, hes, hgrp, hvlmax, hres, hL, hS⟩ := hsound
  have hvl : e.vl ≤ 2048 := le_trans hvlmax (min_le_left _ _)
  have hw : 0 < w := by positivity
  have hreg : 64 ≤ 2 ^ e.lenLog := le_trans (by decide : 64 ≤ 2 ^ 7) (Nat.pow_le_pow_right (by decide) hlow)
  have hwlen : w ≤ 2 ^ e.lenLog := le_trans (Nat.mul_le_mul_left 8 (Nat.pow_le_pow_right (by decide) hes)) hreg
  have hfplen : ∀ f : FpFmt, f.width ≤ 2 ^ e.lenLog := fun f => le_trans (by cases f <;> decide) hreg
  have hruns : ∀ (op : VOp) (p : Ctx → Prop), op.whole = true → (e.op = op → p (e.wholeStep x)) → runs op p := fun op p h hp hop => by
    obtain ⟨t, ht, hdone⟩ := vectorDone_whole hvq hcore (hop ▸ h) hL hS
    exact ⟨t, _, ht, hdone, hp hop⟩
  have hmask : ∀ (new sel : BitVec 2048) (p f : Nat → Prop), e.wholeStep x = x.setM md (maskWrite (x.m.get md) new sel) →
      (∀ i < 2048, sel.getLsbD i = true ↔ p i) → (∀ i < 2048, p i → (new.getLsbD i = true ↔ f i)) → bits (e.wholeStep x) p f :=
    fun new sel p f h hsel hnew => h ▸ mask_setM_maskWrite x md new sel hsel hnew
  refine ⟨?cmp, ?and, ?or, ?xor, ?andn, ?not, ?before, ?upto, ?set, ?clear, ?toMask, ?fromMask, ?first, ?count, ?ext, ?red, ?sum, ?minMax⟩
  case cmp =>
    intro o hop
    have hlimit : e.limit = e.vl := by rw [VEntry.limit, hop]
    have harith : e.arith x e.limit = e.runFrom (e.vl - e.pos) e.pos x := by rw [VEntry.arith, hop, hlimit]; rfl
    obtain ⟨t, ht, hdone⟩ := vectorDone_arith hvq hcore (by rw [hop]; exact nofun) hL hS
    obtain ⟨z, hz, hzbits⟩ := runFrom_cmp e o md a b hop (e.vl - e.pos) e.pos x (by omega)
    refine ⟨t, _, ht, hdone, ?_⟩
    change bits (e.arith x e.limit) _ _
    rw [harith, hz]
    refine mask_setM x md z fun i hi => ⟨fun hsel => ?_, fun hsel => ?_⟩
    · obtain ⟨hpos, hlt, hact⟩ := hsel
      rw [hzbits i hi, if_pos ⟨hpos, by omega, (active_iff x e.mask i).2 hact⟩]
      exact o.eval_iff _ _ hw
    · rw [hzbits i hi, if_neg fun h => hsel ⟨h.1, by omega, (active_iff x e.mask i).1 h.2.2⟩]
  case and =>
    refine hruns _ _ rfl fun hop => hmask _ _ _ _ (by rw [VEntry.wholeStep, hop]) (getLsbD_lowMask e.vl) fun i _ _ => ?_
    simp only [BitVec.getLsbD_and, Bool.and_eq_true, m]
  case or =>
    refine hruns _ _ rfl fun hop => hmask _ _ _ _ (by rw [VEntry.wholeStep, hop]) (getLsbD_lowMask e.vl) fun i _ _ => ?_
    simp only [BitVec.getLsbD_or, Bool.or_eq_true, m]
  case xor =>
    refine hruns _ _ rfl fun hop => hmask _ _ _ _ (by rw [VEntry.wholeStep, hop]) (getLsbD_lowMask e.vl) fun i _ _ => ?_
    simp only [BitVec.getLsbD_xor, bne_iff_ne, m]
  case andn =>
    refine hruns _ _ rfl fun hop => hmask _ _ _ _ (by rw [VEntry.wholeStep, hop]) (getLsbD_lowMask e.vl) fun i hi _ => ?_
    simp only [BitVec.getLsbD_and, BitVec.getLsbD_not, hi, decide_true, Bool.true_and, Bool.and_eq_true, Bool.not_eq_true', m]
  case not =>
    refine hruns _ _ rfl fun hop => hmask _ _ _ _ (by rw [VEntry.wholeStep, hop]) (getLsbD_lowMask e.vl) fun i hi _ => ?_
    simp only [BitVec.getLsbD_not, hi, decide_true, Bool.true_and, Bool.not_eq_true', m]
  case before =>
    refine hruns _ _ rfl fun hop => hmask _ _ _ _ (by rw [VEntry.wholeStep, hop]) (getLsbD_activeBits e x) fun i hi hact => ?_
    rw [getLsbD_lowMask _ _ hi]
    exact (firstBit_active e x ma (i + 1) hact.1 hvl).trans (forall_congr' fun j => by rw [Nat.lt_succ_iff])
  case upto =>
    refine hruns _ _ rfl fun hop => hmask _ _ _ _ (by rw [VEntry.wholeStep, hop]) (getLsbD_activeBits e x) fun i hi hact => ?_
    rw [getLsbD_lowMask _ _ hi]
    exact Nat.lt_succ_iff.trans (firstBit_active e x ma i hact.1.le hvl)
  case set =>
    refine hruns _ _ rfl fun hop => hmask _ _ _ _ (by rw [VEntry.wholeStep, hop]) (getLsbD_lowMask e.vl) fun i hi _ => ?_
    simp only [if_true, BitVec.getLsbD_allOnes, hi, decide_true]
  case clear =>
    refine hruns _ _ rfl fun hop => hmask _ _ _ _ (by rw [VEntry.wholeStep, hop]) (getLsbD_lowMask e.vl) fun i hi _ => ?_
    simp
  case toMask =>
    refine hruns _ _ rfl fun hop => ?_
    rw [show e.wholeStep x = x.setM md (putBits (x.m.get md) 0 64 e.x.toNat) by rw [VEntry.wholeStep, hop]]
    refine mask_setM x md _ fun i hi => ⟨fun hlt => ?_, fun hge => ?_⟩
    · rw [getLsbD_putBits _ _ _ _ _ hi, if_pos ⟨Nat.zero_le i, by omega⟩]
      rfl
    · rw [getLsbD_putBits _ _ _ _ _ hi, if_neg (by omega)]
  case fromMask =>
    refine hruns _ _ rfl fun hop => ?_
    rw [VEntry.wholeStep, hop]
    rfl
  case first =>
    refine hruns _ _ rfl fun hop => ?_
    rw [show e.wholeStep x = x.setG gd (if firstBit (x.m.get ma &&& e.activeBits x) e.vl < e.vl then
      BitVec.ofNat 64 (firstBit (x.m.get ma &&& e.activeBits x) e.vl) else BitVec.allOnes 64) by rw [VEntry.wholeStep, hop]]
    have hle := firstBit_le (x.m.get ma &&& e.activeBits x) e.vl
    refine ⟨fun i hact hset hclear => ?_, fun hclear => ?_⟩
    · have hi : firstBit (x.m.get ma &&& e.activeBits x) e.vl = i := by
        refine le_antisymm (not_lt.1 fun hgt => ?_) ((firstBit_active e x ma i hact.1.le hvl).2 hclear)
        have h := (firstBit_active e x ma (i + 1) hact.1 hvl).1 hgt i (Nat.lt_succ_self i) hact
        exact absurd (hset.symm.trans h) (by decide)
      rw [hi, if_pos hact.1]
    · have hall : e.vl ≤ firstBit (x.m.get ma &&& e.activeBits x) e.vl :=
        (firstBit_active e x ma e.vl (le_refl _) hvl).2 fun j _ hact => hclear j hact
      rw [if_neg (not_lt.2 hall)]
      rfl
  case count =>
    refine hruns _ _ rfl fun hop => ⟨_, by rw [VEntry.wholeStep, hop], ?_⟩
    rw [popGo_eq_countP]
    refine List.countP_congr fun i hi => ?_
    have hi : i < e.vl := List.mem_range.1 hi
    change (x.m.get ma &&& e.activeBits x).getLsbD i = true ↔ _
    rw [BitVec.getLsbD_and, Bool.and_eq_true, getLsbD_activeBits e x i (by omega)]
    simp [hi, m, and_comm]
  case ext =>
    refine hruns _ _ rfl fun hop => ?_
    rw [VEntry.wholeStep, hop]
    refine congrArg (x.setG gd) ?_
    by_cases hin : e.y.toNat < e.vl
    · rw [VEntry.rd, if_pos hin, if_pos hin]
      exact BitVec.ofNat_toNat 64 _
    · rw [VEntry.rd, if_neg hin, if_neg hin, ewOf, ← BitVec.toNat_setWidth]
      exact BitVec.ofNat_toNat 64 _
  case red =>
    intro o f hf
    have hfn : f = o.bin.fn := by
      simp only [List.mem_cons, Prod.mk.injEq, List.not_mem_nil, or_false] at hf
      rcases hf with ⟨rfl, rfl⟩ | ⟨rfl, rfl⟩ | ⟨rfl, rfl⟩ | ⟨rfl, rfl⟩ | ⟨rfl, rfl⟩ | ⟨rfl, rfl⟩ |
        ⟨rfl, rfl⟩ | ⟨rfl, rfl⟩ <;> rfl
    refine hruns _ _ rfl fun hop => ?_
    have hstep : e.wholeStep x = x.setElem e.lenLog d.val w 0 (((e.actives x).foldl (fun z i => f z (x.lane e w a.val i))
        (x.lane e w b.val 0)).toNat) := by
      rw [VEntry.wholeStep, hop, hfn, ← foldl_eval o hw]
      rfl
    rw [hstep]
    obtain ⟨hv, hregs, hfirst, hrest⟩ := setElem_zero x e d w (((e.actives x).foldl (fun z i => f z (x.lane e w a.val i))
        (x.lane e w b.val 0)).toNat) hlen hwlen
    exact ⟨hv, hregs, hrest, hfirst.trans (BitVec.ofNat_toNat _ _ |>.trans (BitVec.setWidth_eq _))⟩
  case sum =>
    intro fa fd n T hop hfa hfd hle hlt rnd cv add half init hleaf hlevel flag
    obtain ⟨t, ht, hdone⟩ := vectorDone_whole hvq hcore (by rw [hop]; rfl) hL hS
    have hstep : e.wholeStep x = (x.setElem e.lenLog d.val fd.width 0 (e.fredsum x a b).1).raiseFlags (e.fredsum x a b).2 := by
      rw [VEntry.wholeStep, hop]
      change e.put x d (fdOf e.fw).width 0 _ = _
      rw [hfd]
      rfl
    have hact : ∀ i, (i < e.vl ∧ x.active e.mask i = true) ↔ active i := fun i => and_congr_right fun _ => active_iff x e.mask i
    obtain ⟨hvalue, hflags⟩ := fredsum_tree e x a b fa fd n T hfa hfd hle hlt (fun i hi => by
      by_cases h : active i
      · rw [if_pos ((hact i).2 h), (hleaf i hi).1 h]
        rfl
      · rw [if_neg (mt (hact i).1 h), (hleaf i hi).2 h]) hlevel
    obtain ⟨-, hregs, hfirst, hrest⟩ := setElem_zero x e d fd.width (e.fredsum x a b).1 hlen (hfplen fd)
    refine ⟨t, _, ht, hdone, ?_⟩
    rw [hstep]
    refine ⟨rfl, hfirst.trans (congrArg _ hvalue), hrest, hregs, fun j _ => ?_⟩
    change (x.fstat ||| (e.fredsum x a b).2).getLsbD j = true ↔ _
    rw [BitVec.getLsbD_or, Bool.or_eq_true, hflags]
    simp only [hact]
    rfl
  case minMax =>
    intro fa mx hop hfa hfd read operand
    obtain ⟨t, ht, hdone⟩ := vectorDone_whole hvq hcore (by rw [hop]; rfl) hL hS
    have hstep : e.wholeStep x =
        (x.setElem e.lenLog d.val fa.width 0 (e.fredmm x mx a b).1).raiseFlags (e.fredmm x mx a b).2 := by
      rw [VEntry.wholeStep, hop]
      change e.put x d (fdOf e.fw).width 0 _ = _
      rw [hfd]
      rfl
    have hoperand : ∀ z, operand z ↔ ∃ q ∈ e.reduced x a b fa, z = fa.readAs (fwFtz e.fw) q := fun z => by
      rw [e.exists_reduced x a b fa fun q => z = fa.readAs (fwFtz e.fw) q]
      refine or_congr Iff.rfl (exists_congr fun i => ?_)
      rw [active_iff]
      rfl
    obtain ⟨hnan, hbest⟩ := fredmm_spec fa mx (fwFtz e.fw) (e.reduced x a b fa) (e.reduced_lt x a b fa)
    have hsig := foldl_sigFlag fa (fwFtz e.fw) (e.reduced x a b fa) (e.reduced_lt x a b fa) 0
    obtain ⟨hvalue, hflags⟩ := Prod.ext_iff.1 (e.fredmm_eq x mx a b fa hfa)
    dsimp only at hvalue hflags
    rw [← hvalue] at hnan hbest
    rw [← hflags] at hsig
    obtain ⟨-, hregs, hfirst, hrest⟩ := setElem_zero x e d fa.width (e.fredmm x mx a b).1 hlen (hfplen fa)
    refine ⟨t, _, (e.fredmm x mx a b).1, ht, hdone, ?_⟩
    rw [hstep]
    refine ⟨rfl, hfirst, fun hall => hnan fun q hq => hall _ ((hoperand _).2 ⟨q, hq, rfl⟩), ?_, hrest, hregs, ?_, ?_⟩
    · intro q hq hq'
      obtain ⟨p, hp, rfl⟩ := (hoperand q).1 hq
      obtain ⟨hz, hznan, hout⟩ := hbest p hp hq'
      exact ⟨(hoperand _).2 hz, hznan, hout⟩
    · rintro ⟨q, hq, hqsig⟩
      obtain ⟨p, hp, rfl⟩ := (hoperand q).1 hq
      change x.fstat ||| (e.fredmm x mx a b).2 = _
      rw [hsig, if_pos ⟨p, hp, hqsig⟩]
      rfl
    · intro hall
      change x.fstat ||| (e.fredmm x mx a b).2 = _
      rw [hsig, if_neg]
      · exact BitVec.or_zero
      · rintro ⟨p, hp, hpsig⟩
        exact absurd ((hall _ ((hoperand _).2 ⟨p, hp, rfl⟩)).symm.trans hpsig) (by decide)

end

section
/-! PROOF. O52 fails: a gathering set that names one command for all its slots ends that command once, with the bytes of one slot. -/

namespace Sys2Proof.Machine
namespace OneRunForFourSlots

/-- A WEAVE.RUN of table 0 over one row. -/
def command : Cmd := ⟨#v[0, 0, 1, 0, 0, 0, 0, 0], 0, false, 0, false, 0, false, 0, 0, 0, 0, 0, 0, 0, none⟩

/-- It waits. -/
def waiting : Run := ⟨command, false, true, 0, 0, 0, 0, none, 0, [], [], false, false, []⟩

/-- One byte moves within slot 0. -/
def step : WStep := ⟨0, 0, 0, 1, 0, 0, 0⟩

/-- The gathering set of quad 0 is complete, and names the one waiting command for all four slots. -/
def gathered : State := { State.reset with
  cores := [(0, { Core.reset with spsize := 1 })]
  quads := [(0, { Quad.reset with
    weave := { Engine.idle with running := [waiting] }
    tables := #v[some [step], none, none, none]
    set := [(0, 0), (1, 0), (2, 0), (3, 0)] })] }

theorem gathered_runOf {m : Nat × Nat} (hm : m ∈ (gathered.quad 0).set) : gathered.runOf (.weave 0) m.2 = some waiting := by
  have hset : (gathered.quad 0).set = [(0, 0), (1, 0), (2, 0), (3, 0)] := rfl
  rw [hset] at hm
  have hseq : m.2 = 0 := by
    simp only [List.mem_cons, List.not_mem_nil, or_false] at hm
    rcases hm with rfl | rfl | rfl | rfl <;> rfl
  rw [hseq]
  rfl

/-- Every run that the set names is the one command. -/
theorem gathered_alike {m : Nat × Nat} {r : Run} (hm : m ∈ (gathered.quad 0).set) (hr : gathered.runOf (.weave 0) m.2 = some r) :
    r.cmd = command := by
  obtain rfl : waiting = r := Option.some.inj ((gathered_runOf hm).symm.trans hr)
  rfl

/-- The one byte that the table moves lies in a scratchpad and is not poisoned. -/
theorem gathered_moves (i b : Nat) (hi : i < 1) (hb : b < step.len) : (step.dstOf 0 1 i b).exists_ ∧ (step.srcOf 0 i b).exists_ ∧
    gathered.poisoned (step.srcOf 0 i b) = false := by
  obtain rfl : i = 0 := by omega
  obtain rfl : b = 0 := Nat.lt_one_iff.1 hb
  exact ⟨⟨by decide, by decide⟩, ⟨by decide, by decide⟩, by decide⟩

end OneRunForFourSlots
end Sys2Proof.Machine
end

section
open Sys2Proof Sys2Proof.Machine OneRunForFourSlots

/-- Refutes O52: the statement has the run of every slot of a complete gathering set report the bytes that the table moves into that slot.
In the state `gathered` the set names one waiting command for its four slots, and the table moves one byte into slot 0 and none into
slot 1, so that the one command would report both. The numbers of accepted commands differ, so a machine that runs from reset comes to no
such state; the statement has no hypothesis that leaves it out. -/
theorem not_commandEffects : ¬ Obligations.CommandEffects := by
  unfold Obligations.CommandEffects
  intro h
  obtain ⟨-, -, -, -, -, set, -⟩ := h gathered command 0 0 0 0 ⟨0, 0, 0, 0, 0, [], 0, 0, false, []⟩
  obtain ⟨-, start⟩ := set fun m hm => ⟨waiting, gathered_runOf hm, rfl⟩
  obtain ⟨t, code, -, -, -, -, slots⟩ := start (by decide) rfl
  have hfirst : ((0, 0) : Nat × Nat) ∈ (gathered.quad 0).set := by decide
  have hsecond : ((1, 0) : Nat × Nat) ∈ (gathered.quad 0).set := by decide
  obtain ⟨-, -, moved⟩ := slots (0, 0) hfirst waiting rfl
  obtain ⟨-, whole⟩ := moved [step] (fun m hm r hr => by rw [gathered_alike hm hr]; exact ⟨rfl, rfl⟩) rfl
  obtain ⟨-, ended, -⟩ := whole (by decide) (by decide) (by
    simp only [List.mem_singleton, forall_eq]
    exact ⟨.inl rfl, fun i hi b hb => gathered_moves i b hi hb⟩)
  obtain ⟨y, hy, -, hone⟩ := ended (0, 0) hfirst
  obtain ⟨z, hz, -, hnone⟩ := ended (1, 0) hsecond
  obtain rfl : y = z := Option.some.inj (hy.symm.trans hz)
  exact absurd (hone.symm.trans hnone) (by decide)

end

section
/-! PROOF. What accesses through the caches change of a core: its data cache, its eviction notices and its part of the region cache,
for O45. -/

namespace Sys2Proof.Machine

/-- Core d is c but for what it caches. -/
def Core.CachesOnly (c d : Core) : Prop := d = { c with l1 := d.l1, notices := d.notices, rcache := d.rcache }

theorem Core.CachesOnly.refl (c : Core) : c.CachesOnly c := rfl

theorem Core.CachesOnly.trans {a b c : Core} (h : a.CachesOnly b) (h' : b.CachesOnly c) : a.CachesOnly c := by
  unfold Core.CachesOnly at *
  rw [h', h]

theorem Core.CachesOnly.setLine (c : Core) (line : Nat) (x : L1Line) : c.CachesOnly (c.setLine line x) := rfl

theorem Core.CachesOnly.evictLine (c : Core) (line : Nat) : c.CachesOnly (c.evictLine line) := by
  unfold Core.evictLine
  dsimp only
  split <;> rfl

theorem Core.CachesOnly.makeRoom (c : Core) (line : Nat) : c.CachesOnly (c.makeRoom line) := by
  unfold Core.makeRoom
  dsimp only
  split
  · split
    · exact .evictLine c _
    · exact .refl c
  · exact .refl c

/-- State t is s but for what its cores cache, as far as cores go. -/
def State.CachesOnly (s t : State) : Prop := ∀ k, (s.core k).CachesOnly (t.core k)

namespace State.CachesOnly

theorem refl (s : State) : s.CachesOnly s := fun _ => rfl

theorem trans {s t u : State} (h : s.CachesOnly t) (h' : t.CachesOnly u) : s.CachesOnly u := fun k => (h k).trans (h' k)

theorem ite {p : Prop} [Decidable p] {s t u : State} (ht : s.CachesOnly t) (hu : s.CachesOnly u) : s.CachesOnly (if p then t else u) := by
  split <;> assumption

theorem of_cores {s t : State} (h : t.cores = s.cores) : s.CachesOnly t := fun k => by
  rw [State.core_congr t s h]
  exact .refl _

theorem modCore (s : State) (k : Nat) (f : Core → Core) (h : ∀ c : Core, c.CachesOnly (f c)) :
    s.CachesOnly (s.modCore k f) := fun j => by
  rw [State.modCore_core]
  split
  case isTrue hj => exact hj ▸ h _
  case isFalse => exact .refl _

end State.CachesOnly

/-! The directory, and what is kept of HBM. -/

theorem putProxy_cores (s : State) (line die : Nat) (p : DirEnt) : (s.putProxy line die p).cores = s.cores := by
  unfold State.putProxy
  dsimp only
  split <;> rfl

theorem modProxies_caches (s : State) (line : Nat) (f : DirEnt → DirEnt) (dies : List Nat) : s.CachesOnly (s.modProxies line f dies) := by
  induction dies generalizing s with
  | nil => exact .refl s
  | cons d dies ih =>
    simp only [State.modProxies]
    split
    · exact State.CachesOnly.trans (.of_cores (putProxy_cores _ _ _ _)) (ih _)
    · exact ih _

theorem setDir_caches (s : State) (line : Nat) (d : Option DirEnt) : s.CachesOnly (s.setDir line d) := .of_cores rfl

theorem dropOld_cores (s : State) (l : List Loc) : (s.dropOld l).cores = s.cores := by
  induction l generalizing s with
  | nil => rfl
  | cons x l ih => cases x <;> exact ih _

theorem writeBack_cores (s : State) (l : List (Nat × BitVec 8)) : (s.writeBack l).cores = s.cores := by
  induction l generalizing s with
  | nil => rfl
  | cons x l ih => exact (ih _).trans (dropOld_cores _ _)

theorem keepOld_cores (s : State) (l : List Loc) : (s.keepOld l).cores = s.cores := by
  induction l generalizing s with
  | nil => rfl
  | cons x l ih =>
    cases x with
    | hbm pa =>
      simp only [State.keepOld]
      split <;> exact ih _
    | spad k o => exact ih _
    | fabric a => exact ih _

/-! The region cache. -/

theorem rcacheFit_caches (s : State) (k : Nat) : s.CachesOnly (s.rcacheFit k) :=
  State.CachesOnly.trans (.modCore s k _ fun _ => by exact rfl) (.of_cores (writeBack_cores _ _))

theorem homeDirty_caches (s : State) (line : Nat) (span : BitVec 8) : s.CachesOnly (s.homeDirty line span) := by
  unfold State.homeDirty
  exact .ite (.of_cores (dropOld_cores _ _)) (State.CachesOnly.trans (.modCore s _ _ fun _ => by exact rfl) (rcacheFit_caches _ _))

/-! Requests at the home. -/

theorem asked_caches (s : State) (line : Nat) (span : BitVec 8) (write : Bool) (ks : List Nat) :
    s.CachesOnly (s.asked line span write ks) := by
  induction ks generalizing s with
  | nil => exact .refl s
  | cons j ks ih =>
    have hline : s.CachesOnly (if (s.core j).line line = L1Line.none then s else s.modCore j (fun c =>
        c.setLine line (if write then ((s.core j).line line).drop span else ((s.core j).line line).share span))) :=
      .ite (.refl s) (.modCore s j _ fun c => .setLine c _ _)
    exact (State.CachesOnly.ite hline (hline.trans (homeDirty_caches _ _ _))).trans (ih _)

theorem noticeIn_caches (s : State) (k line : Nat) (n : BitVec 8) : s.CachesOnly (s.noticeIn k line n).1 := by
  have hdir : ∀ u : State, u.CachesOnly (match u.dirOf line with
      | some d => u.setDir line (some (d.evict k n))
      | none => u) := fun u => by
    split
    · exact setDir_caches _ _ _
    · exact .refl u
  have hnotice := ((State.CachesOnly.modCore s k (fun c => { c with notices := c.notices.erase (line, n) }) fun _ => rfl).trans
    (.ite (p := dieOfCore k = homeDie line) (hdir _) (modProxies_caches _ line (·.evict k n) [dieOfCore k]))).trans (homeDirty_caches _ line n)
  unfold State.noticeIn
  dsimp only
  split
  · split
    · exact hnotice.trans (.of_cores rfl)
    · exact hnotice.trans (.of_cores rfl)
  · exact hnotice

theorem noticesIn_caches (s : State) (k line : Nat) (l : List (Nat × BitVec 8)) : s.CachesOnly (s.noticesIn k line l) := by
  induction l generalizing s with
  | nil => exact .refl s
  | cons x l ih =>
    refine .ite (State.CachesOnly.trans ?_ (ih _)) (ih s)
    exact .ite ((noticeIn_caches s k line x.2).trans (.of_cores rfl)) (noticeIn_caches s k line x.2)

theorem collect_caches (s : State) (line : Nat) (ks : List Nat) : s.CachesOnly (s.collect line ks) := by
  induction ks generalizing s with
  | nil => exact .refl s
  | cons k ks ih => exact (noticesIn_caches _ _ _ _).trans (ih _)

theorem approach_caches (s : State) (k line : Nat) (span : BitVec 8) (write : Bool) : s.CachesOnly (s.approach k line span write) :=
  (State.CachesOnly.ite (.ite (.refl s) (.modCore s k _ fun _ => by exact rfl)) (.refl s)).trans (noticesIn_caches _ _ _ _)

theorem backInvalidate_caches (s : State) (line die : Nat) : s.CachesOnly (s.backInvalidate line die) :=
  .ite ((((collect_caches _ _ _).trans (asked_caches _ _ _ _ _)).trans (modProxies_caches _ _ _ _)).trans (setDir_caches _ _ _))
    (((collect_caches _ _ _).trans (asked_caches _ _ _ _ _)).trans (modProxies_caches _ _ _ _))

theorem dirReplace_caches (s : State) (line die : Nat) : s.CachesOnly (s.dirReplace line die) := by
  refine .ite (.refl s) ?_
  split
  · exact setDir_caches _ _ _
  · split
    · exact .refl s
    · exact backInvalidate_caches _ _ _

theorem entryFor_caches (s : State) (line : Nat) : s.CachesOnly (s.entryFor line) := by
  unfold State.entryFor
  split
  · exact .refl s
  · exact (dirReplace_caches _ _ _).trans (.of_cores rfl)

theorem dirGrant_caches (s : State) (line c : Nat) (span : BitVec 8) (write : Bool) : s.CachesOnly (s.dirGrant line c span write) :=
  .ite ((modProxies_caches _ _ _ _).trans (setDir_caches _ _ _)) (State.CachesOnly.trans
    (.ite ((modProxies_caches _ _ _ _).trans (setDir_caches _ _ _))
      (((modProxies_caches _ _ _ _).trans (setDir_caches _ _ _)).trans (dirReplace_caches _ _ _))) (.of_cores (putProxy_cores _ _ _ _)))

theorem l1Gain_caches (s : State) (k line : Nat) (span : BitVec 8) (excl : Bool) : s.CachesOnly (s.l1Gain k line span excl) :=
  .modCore s k _ fun c => (Core.CachesOnly.makeRoom c line).trans (.setLine _ _ _)

theorem serve_caches (s : State) (k line : Nat) (span : BitVec 8) (write : Bool) : s.CachesOnly (s.serve k line span write) :=
  .ite (.refl s) ((((((approach_caches _ _ _ _ _).trans (entryFor_caches _ _)).trans (collect_caches _ _ _)).trans
    (asked_caches _ _ _ _ _)).trans (dirGrant_caches _ _ _ _ _)).trans (l1Gain_caches _ _ _ _ _))

theorem recall_caches (s : State) (line : Nat) (span : BitVec 8) (write : Bool) : s.CachesOnly (s.recall line span write) := by
  unfold State.recall
  dsimp only
  split
  · exact (((entryFor_caches _ _).trans (collect_caches _ _ _)).trans (asked_caches _ _ _ _ _)).trans (modProxies_caches _ _ _ _)
  · exact ((((entryFor_caches _ _).trans (collect_caches _ _ _)).trans (asked_caches _ _ _ _ _)).trans (modProxies_caches _ _ _ _)).trans
      (setDir_caches _ _ _)

theorem serveAll_caches (s : State) (k : Nat) (write : Bool) (l : List (Nat × BitVec 8)) : s.CachesOnly (s.serveAll k write l) := by
  induction l generalizing s with
  | nil => exact .refl s
  | cons x l ih => exact (serve_caches _ _ _ _ _).trans (ih _)

theorem recallAll_caches (s : State) (write : Bool) (l : List (Nat × BitVec 8)) : s.CachesOnly (s.recallAll write l) := by
  induction l generalizing s with
  | nil => exact .refl s
  | cons x l ih => exact (recall_caches _ _ _ _).trans (ih _)

/-! Writes and reads. -/

theorem dirtyL1_caches (s : State) (k : Nat) (l : List (Nat × BitVec 8)) : s.CachesOnly (s.dirtyL1 k l) := by
  induction l generalizing s with
  | nil => exact .refl s
  | cons x l ih => exact (State.CachesOnly.modCore s k _ fun c => .setLine c _ _).trans (ih _)

theorem setPoison_cores (s : State) (l : Loc) (p : Bool) : (s.setPoison l p).cores = s.cores := by cases l <;> rfl

theorem setPoisons_cores (s : State) (f : Nat → Loc) (p : Nat → Bool) (b : Bool) (l : List Nat) :
    (l.foldl (fun u j => if p j then u.setPoison (f j) b else u) s).cores = s.cores := by
  induction l generalizing s with
  | nil => rfl
  | cons j l ih =>
    rw [List.foldl_cons, ih]
    split
    · exact setPoison_cores _ _ _
    · rfl

theorem ownGood_caches (s : State) (k : Nat) (l : List (Nat × BitVec 8)) : s.CachesOnly (s.ownGood k l) := by
  induction l generalizing s with
  | nil => exact .refl s
  | cons x l ih =>
    exact (State.CachesOnly.trans (.of_cores (setPoisons_cores _ _ _ _ _)) (.modCore _ k _ fun c => .setLine c _ _)).trans (ih _)

theorem healed_cores (s : State) (ws : List (Loc × Byte)) (ls : List Loc) : (s.healed ws ls).cores = s.cores := by
  induction ls generalizing s with
  | nil => rfl
  | cons l ls ih =>
    simp only [State.healed]
    split
    · exact (ih _).trans (setPoison_cores _ _ _)
    · exact ih s

theorem perform_cores (s : State) (who : Option Nat) (ws : List (Loc × Byte)) : (s.perform who ws).cores = s.cores := by
  have hloses : ∀ u : State, (u.loseResv who ws).cores = u.cores := fun u => by
    unfold State.loseResv
    split <;> rfl
  rw [State.perform, hloses, healed_cores, putBytes_frame]

theorem coreWrite_caches (s : State) (c : Nat) (ps : List Piece) (data : List Byte) : s.CachesOnly (s.coreWrite c ps data) := by
  have hserved : s.CachesOnly ((s.countMiss c (cachedLines ps)).serveAll (coreOf c) true (cachedLines ps)) :=
    State.CachesOnly.trans (.of_cores rfl) (serveAll_caches _ _ _ _)
  have hready := (hserved.trans (recallAll_caches _ true (hbmLines (ps.filter (·.uncached))))).trans
    (.of_cores (keepOld_cores _ (pieceLocs (ps.filter (fun p => !p.uncached)))))
  exact (((hready.trans (ownGood_caches _ _ _)).trans (.of_cores (dropOld_cores _ _))).trans (.of_cores (perform_cores _ _ _))).trans
    (dirtyL1_caches _ _ _)

theorem coreRead_caches (s : State) (c : Nat) (ps : List Piece) : s.CachesOnly (s.coreRead c ps) := by
  have hserved : s.CachesOnly ((s.countMiss c (cachedLines ps)).serveAll (coreOf c) false (cachedLines ps)) :=
    State.CachesOnly.trans (.of_cores rfl) (serveAll_caches _ _ _ _)
  exact .ite (hserved.trans (.of_cores rfl)) hserved

end Sys2Proof.Machine
end

section
/-! PROOF. Numbers laid one after the other, in registers, panels and accumulators, for O45. -/

namespace Sys2Proof.Machine

/-! Numbers of one width (R214, R215). -/

theorem testBit_packNat {w : Nat} (l : List Nat) (i : Nat) {j : Nat} (hj : j < w) :
    (packNat w l).testBit (w * i + j) = (l.getD i 0).testBit j := by
  induction l generalizing i with
  | nil => simp [packNat]
  | cons x l ih =>
    rw [packNat, Nat.add_comm, Nat.testBit_two_pow_mul_add _ (Nat.mod_lt _ (Nat.two_pow_pos w))]
    cases i with
    | zero => simp [hj, Nat.testBit_mod_two_pow]
    | succ i =>
      have hlow : ¬ w * (i + 1) + j < w := by rw [Nat.mul_succ]; omega
      have hrest : w * (i + 1) + j - w = w * i + j := by rw [Nat.mul_succ]; omega
      rw [if_neg hlow, hrest, ih]
      rfl

/-- One of the numbers, as bits of the whole. -/
theorem extract_packNat {n w : Nat} (l : List Nat) (i : Nat) (h : w * i + w ≤ n) :
    (BitVec.ofNat n (packNat w l)).extractLsb' (w * i) w = BitVec.ofNat w (l.getD i 0) := by
  refine BitVec.eq_of_getLsbD_eq fun j hj => ?_
  rw [BitVec.getLsbD_extractLsb', BitVec.getLsbD_ofNat, BitVec.getLsbD_ofNat, testBit_packNat l i hj, decide_eq_true (by omega : w * i + j < n)]
  simp [hj]

theorem leNat_eq_packNat (l : List Byte) : leNat l = packNat 8 (l.map (·.toNat)) := by
  induction l with
  | nil => rfl
  | cons b l ih =>
    rw [leNat, List.map_cons, packNat, ih, Nat.mod_eq_of_lt b.isLt]
    rfl

/-- One of the bytes, as bits of the whole. -/
theorem extract_leNat {n : Nat} (l : List Byte) (i : Nat) (h : 8 * i + 8 ≤ n) :
    (BitVec.ofNat n (leNat l)).extractLsb' (8 * i) 8 = l.getD i 0 := by
  rw [leNat_eq_packNat, extract_packNat _ _ h]
  have hget : (l.map (·.toNat)).getD i 0 = (l.getD i 0).toNat := by
    rw [List.getD_eq_getElem?_getD, List.getD_eq_getElem?_getD, List.getElem?_map]
    cases l[i]? <;> rfl
  rw [hget]
  exact BitVec.ofNat_toNat 8 _ |>.trans (BitVec.setWidth_eq _)

theorem length_leBytes (n x : Nat) : (leBytes n x).length = n := by
  induction n generalizing x with
  | zero => rfl
  | succ n ih => rw [leBytes, List.length_cons, ih]

theorem getElem?_leBytes (n x i : Nat) (hi : i < n) : (leBytes n x)[i]? = some (BitVec.ofNat 8 (x / 2 ^ (8 * i))) := by
  induction n generalizing x i with
  | zero => omega
  | succ n ih =>
    cases i with
    | zero => simp [leBytes]
    | succ i =>
      rw [leBytes, List.getElem?_cons_succ, ih _ _ (by omega), Nat.div_div_eq_div_mul, show 256 = 2 ^ 8 from rfl, ← Nat.pow_add,
        Nat.mul_succ, Nat.add_comm 8]

/-! Cells replaced (R231). -/

theorem cell_setCells_other (x : BitVec 131072) (l : List (Nat × Nat)) (n : Nat) (hn : n < 4096) (h : n ∉ l.map (·.1)) :
    (setCells x l).extractLsb' (32 * n) 32 = x.extractLsb' (32 * n) 32 := by
  unfold setCells
  induction l generalizing x with
  | nil => rfl
  | cons c l ih =>
    rw [List.map_cons, List.mem_cons, not_or] at h
    rw [List.foldl_cons, ih _ h.2, extract_putBits_other _ _ _ _ _ (by omega) (by have := h.1; omega)]

theorem cell_setCells (x : BitVec 131072) (l : List (Nat × Nat)) (n v : Nat) (hn : n < 4096) (hnodup : (l.map (·.1)).Nodup)
    (h : (n, v) ∈ l) : (setCells x l).extractLsb' (32 * n) 32 = BitVec.ofNat 32 v := by
  induction l generalizing x with
  | nil => cases h
  | cons c l ih =>
    obtain ⟨hc, hl⟩ := List.nodup_cons.1 hnodup
    rcases List.mem_cons.1 h with rfl | h
    · exact (cell_setCells_other _ l n hn hc).trans (extract_putBits_same _ _ _ _ (by omega))
    · exact ih _ hl h

/-! Elements of a vector group in order (R144, R231). -/

/-- Bit b of the group that starts at register v. -/
def Ctx.groupBit (c : Ctx) (L v b : Nat) : Bool := (c.v.get (Fin.ofNat 32 (v + b / L))).getLsbD (b % L)

theorem groupBit_setElem (c : Ctx) (log v i x b : Nat) (hlow : 5 ≤ log) (hlen : log ≤ 14)
    (hi : 32 * i < (32 - v) * 2 ^ log) (hb : b < (32 - v) * 2 ^ log) :
    (c.setElem log v 32 i x).groupBit (2 ^ log) v b =
      if 32 * i ≤ b ∧ b < 32 * i + 32 then x.testBit (b - 32 * i) else c.groupBit (2 ^ log) v b := by
  obtain ⟨q, hq⟩ : 32 ∣ 2 ^ log := pow_dvd_pow 2 hlow
  have hbits : 2 ^ log ≤ 16384 := (Nat.pow_le_pow_right (by decide) hlen).trans (by decide : 2 ^ 14 ≤ 16384)
  have hpos : 0 < 2 ^ log := Nat.two_pow_pos log
  have hiReg : i * 32 / 2 ^ log < 32 - v := (Nat.div_lt_iff_lt_mul hpos).2 (by omega)
  have hbReg : b / 2 ^ log < 32 - v := (Nat.div_lt_iff_lt_mul hpos).2 hb
  have hiDiv : i * 32 / 2 ^ log = i / q := by rw [hq, Nat.mul_comm i, Nat.mul_div_mul_left _ _ (by decide)]
  have hiMod : i * 32 % 2 ^ log = 32 * (i % q) := by rw [hq, Nat.mul_comm i, Nat.mul_mod_mul_left]
  have hbDiv : b / 2 ^ log = b / 32 / q := by rw [hq, Nat.div_div_eq_div_mul]
  have hbMod : b % 2 ^ log = 32 * (b / 32 % q) + b % 32 := by rw [hq, Nat.mod_mul, Nat.add_comm]
  have hbIn : b % 2 ^ log < 16384 := (Nat.mod_lt _ hpos).trans_le hbits
  have hin : (32 * i ≤ b ∧ b < 32 * i + 32) ↔ b / 32 = i := by omega
  by_cases hreg : b / 2 ^ log = i * 32 / 2 ^ log
  · have hwritten : (c.setElem log v 32 i x).groupBit (2 ^ log) v b =
        (putBits (c.v.get (Fin.ofNat 32 (v + b / 2 ^ log))) (i * 32 % 2 ^ log) 32 x).getLsbD (b % 2 ^ log) := by
      rw [Ctx.groupBit, hreg]
      exact congrArg (BitVec.getLsbD · _) (Vector.getElem_set_self _)
    have hplace : (i * 32 % 2 ^ log ≤ b % 2 ^ log ∧ b % 2 ^ log < i * 32 % 2 ^ log + 32) ↔ b / 32 % q = i % q := by omega
    have hsame : b / 32 % q = i % q ↔ b / 32 = i :=
      ⟨fun h => by rw [← Nat.div_add_mod (b / 32) q, h, ← hbDiv, hreg, hiDiv, Nat.div_add_mod], fun h => by rw [h]⟩
    rw [hwritten, getLsbD_putBits _ _ _ _ _ hbIn]
    by_cases h : b / 32 = i
    · rw [if_pos (hplace.2 (hsame.2 h)), if_pos (hin.2 h), show b % 2 ^ log - i * 32 % 2 ^ log = b - 32 * i by
        rw [hbMod, hiMod, hsame.2 h]
        omega]
    · rw [if_neg fun hp => h (hsame.1 (hplace.1 hp)), if_neg fun hp => h (hin.1 hp)]
      rfl
  · have hother : b / 32 ≠ i := fun h => hreg (by rw [hbDiv, hiDiv, h])
    have hregs : (v + b / 2 ^ log) % 32 ≠ (v + i * 32 / 2 ^ log) % 32 := by
      generalize b / 2 ^ log = p at *
      generalize i * 32 / 2 ^ log = r at *
      omega
    rw [if_neg fun hp => hother (hin.1 hp), Ctx.groupBit, setElem_other _ _ _ _ _ _ _ hregs]
    rfl

/-- The elements of a group written in order from the first. -/
theorem groupBit_setElems (c : Ctx) (log v n : Nat) (f : Nat → Nat) (b : Nat) (hlow : 5 ≤ log) (hlen : log ≤ 14)
    (hn : 32 * n ≤ (32 - v) * 2 ^ log) (hb : b < (32 - v) * 2 ^ log) :
    ((List.range n).foldl (fun y i => y.setElem log v 32 i (f i)) c).groupBit (2 ^ log) v b =
      if b < 32 * n then (f (b / 32)).testBit (b % 32) else c.groupBit (2 ^ log) v b := by
  induction n with
  | zero => rfl
  | succ n ih =>
    rw [List.range_succ, List.foldl_concat, groupBit_setElem _ _ _ _ _ _ hlow hlen (by omega) hb, ih (by omega)]
    by_cases hlast : 32 * n ≤ b ∧ b < 32 * n + 32
    · rw [if_pos hlast, if_pos (by omega), show b / 32 = n by omega, show b % 32 = b - 32 * n by omega]
    · rw [if_neg hlast]
      by_cases hlo : b < 32 * n
      · rw [if_pos hlo, if_pos (by omega)]
      · rw [if_neg hlo, if_neg (by omega)]

/-- They are in no register below the group's. -/
theorem setElems_below (c : Ctx) (log v n : Nat) (f : Nat → Nat) (r : VReg) (h : r.val < v) (hn : 32 * n ≤ (32 - v) * 2 ^ log) :
    ((List.range n).foldl (fun y i => y.setElem log v 32 i (f i)) c).v.get r = c.v.get r := by
  induction n with
  | zero => rfl
  | succ n ih =>
    have hreg : n * 32 / 2 ^ log < 32 - v := (Nat.div_lt_iff_lt_mul (Nat.two_pow_pos log)).2 (by omega)
    have hother : r.val ≠ (v + n * 32 / 2 ^ log) % 32 := by
      generalize n * 32 / 2 ^ log = p at *
      omega
    rw [List.range_succ, List.foldl_concat, setElem_other _ _ _ _ _ _ _ hother, ih (by omega)]

/-- Elements written change registers alone. -/
theorem setElems_only (c : Ctx) (log v w : Nat) (f : Nat → Nat) (l : List Nat) :
    l.foldl (fun y i => y.setElem log v w i (f i)) c =
      { c with v := (l.foldl (fun y i => y.setElem log v w i (f i)) c).v } := by
  induction l generalizing c with
  | nil => rfl
  | cons i l ih => exact ih _

end Sys2Proof.Machine
end

section
/-! PROOF. Groups of products added to an FP32 cell with one rounding (R43, R45, R49), for O45. -/

namespace Sys2Proof.Machine

/-! The products of a group. -/

/-- The products of a group, each negated where `neg` holds. -/
def groupProducts (neg : Bool) (l : List (Num × Num)) : List (Option Num) :=
  l.map (fun p => (mulNum p.1 p.2).map (fun z => if neg then negNum z else z))

theorem isNan_mulNum {x y z : Num} (hx : x.isNan = false) (hy : y.isNan = false) (h : mulNum x y = some z) : z.isNan = false := by
  cases x with
  | nan => cases hx
  | inf a =>
    cases y with
    | nan => cases hy
    | inf b => cases h; rfl
    | fin b m e =>
      rw [mulNum] at h
      split at h <;> cases h
      rfl
  | fin a m e =>
    cases y with
    | nan => cases hy
    | inf b =>
      rw [mulNum] at h
      split at h <;> cases h
      rfl
    | fin b m' e' => cases h; rfl

theorem isNan_of_mulNum {x y z : Num} (h : mulNum x y = some z) (hz : z.isNan = false) : x.isNan = false ∧ y.isNan = false := by
  cases x with
  | nan s => cases y <;> cases h <;> cases hz
  | inf a =>
    cases y with
    | nan s => cases h; cases hz
    | inf b => exact ⟨rfl, rfl⟩
    | fin b m e => exact ⟨rfl, rfl⟩
  | fin a m e =>
    cases y with
    | nan s => cases h; cases hz
    | inf b => exact ⟨rfl, rfl⟩
    | fin b m e => exact ⟨rfl, rfl⟩

theorem isNan_negNum (x : Num) : (negNum x).isNan = x.isNan := by cases x <;> rfl

theorem isNan_of_mem_groupProducts {neg : Bool} {l : List (Num × Num)} (hl : ∀ p ∈ l, p.1.isNan = false ∧ p.2.isNan = false) {z : Num}
    (h : some z ∈ groupProducts neg l) : z.isNan = false := by
  obtain ⟨p, hp, hz⟩ := List.mem_map.1 h
  obtain ⟨v, hv, rfl⟩ := Option.map_eq_some_iff.1 hz
  have hnan := isNan_mulNum (hl p hp).1 (hl p hp).2 hv
  split
  · rwa [isNan_negNum]
  · exact hnan

/-- The signs of the infinities among values. -/
def infSigns (vs : List Num) : List Bool := vs.filterMap (fun v => match v with | .inf n => some n | _ => none)

theorem mem_infSigns (vs : List Num) (n : Bool) : n ∈ infSigns vs ↔ .inf n ∈ vs := by
  rw [infSigns, List.mem_filterMap]
  refine ⟨fun ⟨v, hv, h⟩ => ?_, fun h => ⟨_, h, rfl⟩⟩
  cases v <;> cases h
  exact hv

/-- The exact sum of finite values, with the exponent of its unit. -/
def finSum (vs : List Num) : Int × Int :=
  vs.foldl (fun (a : Int × Int) v => match v with
    | .fin n m e =>
      let lo := min a.2 e
      (a.1 * 2 ^ (a.2 - lo).toNat + (if n then -1 else 1) * (m : Int) * 2 ^ (e - lo).toNat, lo)
    | _ => a) (0, 0)

/-- The sign of an exact zero sum of finite values (R45). -/
def zeroSign (rm : RMode) (vs : List Num) : Bool :=
  let zeros := vs.all (fun v => match v with | .fin _ m _ => m == 0 | _ => false)
  if zeros && (vs.map Num.sign).all (fun b => b) then true
  else if zeros && (vs.map Num.sign).all (fun b => !b) then false else rm == .rdn

theorem groupSum_of_nan (rm : RMode) (neg : Bool) {l : List (Num × Num)} {p : Num × Num} (hp : p ∈ l)
    (h : p.1.isNan = true ∨ p.2.isNan = true) : groupSum rm neg l = .nan := by
  rw [groupSum, if_pos]
  exact List.any_eq_true.2 ⟨p, hp, by simpa using h⟩

theorem groupSum_of_nums (rm : RMode) (neg : Bool) {l : List (Num × Num)} (hl : ∀ p ∈ l, p.1.isNan = false ∧ p.2.isNan = false) :
    groupSum rm neg l = if none ∈ groupProducts neg l then .invalid
      else match infSigns ((groupProducts neg l).filterMap id) with
        | n :: t => if t.all (· == n) then .inf n false else .invalid
        | [] =>
          let s := finSum ((groupProducts neg l).filterMap id)
          if s.1 = 0 then .fin (zeroSign rm ((groupProducts neg l).filterMap id)) 0 0 false
          else .fin (decide (s.1 < 0)) s.1.natAbs s.2 false := by
  have hany : l.any (fun p => p.1.isNan || p.2.isNan) = false := List.any_eq_false.2 fun p hp => by simp [hl p hp]
  have hnone : (groupProducts neg l).any (·.isNone) = true ↔ none ∈ groupProducts neg l := by simp [List.any_eq_true]
  unfold groupSum
  rw [if_neg (by simp [hany])]
  by_cases h : none ∈ groupProducts neg l
  · rw [if_pos h]
    exact if_pos (hnone.2 h)
  · rw [if_neg h]
    exact if_neg fun h' => h (hnone.1 h')

theorem mem_filterMap_products {neg : Bool} {l : List (Num × Num)} {z : Num} :
    z ∈ (groupProducts neg l).filterMap id ↔ some z ∈ groupProducts neg l := by simp

theorem groupSum_of_none (rm : RMode) (neg : Bool) {l : List (Num × Num)} (hl : ∀ p ∈ l, p.1.isNan = false ∧ p.2.isNan = false)
    (h : none ∈ groupProducts neg l) : groupSum rm neg l = .invalid := by
  rw [groupSum_of_nums rm neg hl, if_pos h]

theorem groupSum_of_infs (rm : RMode) (neg : Bool) {l : List (Num × Num)} (hl : ∀ p ∈ l, p.1.isNan = false ∧ p.2.isNan = false)
    (hsome : none ∉ groupProducts neg l) (n : Bool) (h : some (.inf n) ∈ groupProducts neg l) :
    groupSum rm neg l = if some (.inf (!n)) ∈ groupProducts neg l then .invalid else .inf n false := by
  have hmem : ∀ b, b ∈ infSigns ((groupProducts neg l).filterMap id) ↔ some (.inf b) ∈ groupProducts neg l := fun b => by
    rw [mem_infSigns, mem_filterMap_products]
  rw [groupSum_of_nums rm neg hl, if_neg hsome]
  simp only [← hmem] at h ⊢
  generalize infSigns ((groupProducts neg l).filterMap id) = signs at h ⊢
  cases signs with
  | nil => cases h
  | cons b t =>
    dsimp only
    by_cases hall : ∀ x ∈ t, x = b
    · have hn : n = b := (List.mem_cons.1 h).elim id (hall n)
      have hother : (!n) ∉ b :: t := fun hx => Bool.not_ne_self n (((List.mem_cons.1 hx).elim id (hall _)).trans hn.symm)
      rw [if_pos (by simpa using hall), if_neg hother, hn]
    · rw [if_neg (by simpa using hall), if_pos]
      push Not at hall
      obtain ⟨x, hx, hxb⟩ := hall
      by_cases hnb : n = b
      · exact List.mem_cons_of_mem _ (Bool.eq_not.2 (hnb ▸ hxb) ▸ hx)
      · exact List.mem_cons.2 (.inl (Bool.eq_not.2 (Ne.symm hnb)).symm)

theorem groupSum_of_finite (rm : RMode) (neg : Bool) {l : List (Num × Num)} (hl : ∀ p ∈ l, p.1.isNan = false ∧ p.2.isNan = false)
    (vs : List (Bool × Nat × Int)) (h : groupProducts neg l = vs.map (fun v => some (.fin v.1 v.2.1 v.2.2))) :
    let nums := vs.map (fun v => Num.fin v.1 v.2.1 v.2.2)
    groupSum rm neg l = if (finSum nums).1 = 0 then .fin (zeroSign rm nums) 0 0 false
      else .fin (decide ((finSum nums).1 < 0)) (finSum nums).1.natAbs (finSum nums).2 false := by
  intro nums
  have hnums : (groupProducts neg l).filterMap id = nums := by
    rw [h, List.filterMap_map]
    exact congrFun List.filterMap_eq_map' vs
  have hinf : infSigns nums = [] := List.eq_nil_iff_forall_not_mem.2 fun n hn => by
    obtain ⟨v, -, hv⟩ := List.mem_map.1 ((mem_infSigns _ _).1 hn)
    cases hv
  rw [groupSum_of_nums rm neg hl, if_neg (by simp [h]), hnums, hinf]

theorem exists_finite_products {neg : Bool} {l : List (Num × Num)} (hl : ∀ p ∈ l, p.1.isNan = false ∧ p.2.isNan = false)
    (hsome : none ∉ groupProducts neg l) (hinf : ∀ n, some (.inf n) ∉ groupProducts neg l) :
    ∃ vs : List (Bool × Nat × Int), groupProducts neg l = vs.map (fun v => some (.fin v.1 v.2.1 v.2.2)) := by
  have hfin : ∀ z ∈ groupProducts neg l, ∃ v : Bool × Nat × Int, some (.fin v.1 v.2.1 v.2.2) = z := fun z hz => by
    cases z with
    | none => exact absurd hz hsome
    | some z =>
      cases z with
      | nan s => exact nomatch isNan_of_mem_groupProducts hl hz
      | inf n => exact absurd hz (hinf n)
      | fin n m e => exact ⟨(n, m, e), rfl⟩
  obtain ⟨vs, hvs⟩ := (Set.range_list_map _).ge hfin
  exact ⟨vs, hvs.symm⟩

/-! The sum of finite products. -/

/-- A finite value in units of 2^q. -/
def unitsOf (q : Int) (v : Bool × Nat × Int) : Int := (if v.1 then -1 else 1) * (v.2.1 : Int) * 2 ^ (v.2.2 - q).toNat

theorem foldl_min_le (l : List Int) (q : Int) : l.foldl min q ≤ q := by
  induction l generalizing q with
  | nil => exact le_refl q
  | cons e l ih => exact (ih _).trans (min_le_left _ _)

theorem pow_units_mul {a b c : Int} (hab : b ≤ a) (hbc : c ≤ b) : (2 : Int) ^ (a - b).toNat * 2 ^ (b - c).toNat = 2 ^ (a - c).toNat := by
  rw [← pow_add]
  congr 1
  omega

theorem finSum_eq (vs : List (Bool × Nat × Int)) : finSum (vs.map (fun v => Num.fin v.1 v.2.1 v.2.2)) =
    ((vs.map (unitsOf ((vs.map (·.2.2)).foldl min 0))).sum, (vs.map (·.2.2)).foldl min 0) := by
  have hgen : ∀ (a q : Int), (vs.map (fun v => Num.fin v.1 v.2.1 v.2.2)).foldl (fun (a : Int × Int) v => match v with
      | .fin n m e =>
        let lo := min a.2 e
        (a.1 * 2 ^ (a.2 - lo).toNat + (if n then -1 else 1) * (m : Int) * 2 ^ (e - lo).toNat, lo)
      | _ => a) (a, q) =
      (a * 2 ^ (q - (vs.map (·.2.2)).foldl min q).toNat + (vs.map (unitsOf ((vs.map (·.2.2)).foldl min q))).sum,
        (vs.map (·.2.2)).foldl min q) := by
    induction vs with
    | nil => intro a q; simp
    | cons v vs ih =>
      intro a q
      have hlow := foldl_min_le (vs.map (·.2.2)) (min q v.2.2)
      have hq := pow_units_mul (min_le_left q v.2.2) hlow
      have hv := pow_units_mul (min_le_right q v.2.2) hlow
      rw [List.map_cons, List.foldl_cons, ih]
      simp only [List.map_cons, List.foldl_cons, List.sum_cons, unitsOf]
      refine Prod.ext ?_ rfl
      dsimp only
      rw [← hq, ← hv]
      ring
  exact (hgen 0 0).trans (by rw [Int.zero_mul, Int.zero_add])

theorem zeroSign_iff (rm : RMode) (vs : List (Bool × Nat × Int)) :
    zeroSign rm (vs.map (fun v => Num.fin v.1 v.2.1 v.2.2)) = true ↔
      (∀ v ∈ vs, v.1 = true ∧ v.2.1 = 0) ∨ (rm = .rdn ∧ ¬ ∀ v ∈ vs, v.1 = false ∧ v.2.1 = 0) := by
  have hzeros : (vs.map (fun v => Num.fin v.1 v.2.1 v.2.2)).all (fun v => match v with | .fin _ m _ => m == 0 | _ => false) = true ↔
      ∀ v ∈ vs, v.2.1 = 0 := by rw [List.all_map, List.all_eq_true]; exact forall₂_congr fun _ _ => beq_iff_eq
  have hneg : ((vs.map (fun v => Num.fin v.1 v.2.1 v.2.2)).map Num.sign).all (fun b => b) = true ↔ ∀ v ∈ vs, v.1 = true := by
    rw [List.map_map, List.all_map, List.all_eq_true]
    rfl
  have hpos : ((vs.map (fun v => Num.fin v.1 v.2.1 v.2.2)).map Num.sign).all (fun b => !b) = true ↔ ∀ v ∈ vs, v.1 = false := by
    rw [List.map_map, List.all_map, List.all_eq_true]
    exact forall₂_congr fun v _ => iff_of_eq (Bool.not_eq_true' v.1)
  have hsign : zeroSign rm (vs.map (fun v => Num.fin v.1 v.2.1 v.2.2)) = true ↔
      ((∀ v ∈ vs, v.2.1 = 0) ∧ ∀ v ∈ vs, v.1 = true) ∨ (¬ ((∀ v ∈ vs, v.2.1 = 0) ∧ ∀ v ∈ vs, v.1 = false) ∧ rm = .rdn) := by
    rw [← hzeros, ← hneg, ← hpos, zeroSign]
    generalize List.all _ _ = z
    generalize List.all _ _ = n
    generalize List.all _ _ = p
    cases z <;> cases n <;> cases p <;> simp
  rw [hsign, ← forall₂_and, ← forall₂_and, and_comm (b := rm = .rdn)]
  simp only [and_comm]

/-- Finite products are those of operands none of which is a NaN. -/
theorem nums_of_finite {neg : Bool} {l : List (Num × Num)} {vs : List (Bool × Nat × Int)}
    (h : groupProducts neg l = vs.map (fun v => some (.fin v.1 v.2.1 v.2.2))) : ∀ p ∈ l, p.1.isNan = false ∧ p.2.isNan = false := by
  intro p hp
  have hmem : (mulNum p.1 p.2).map (fun z => if neg then negNum z else z) ∈ groupProducts neg l := List.mem_map_of_mem hp
  rw [h] at hmem
  obtain ⟨v, -, hv⟩ := List.mem_map.1 hmem
  obtain ⟨z, hz, hzv⟩ := Option.map_eq_some_iff.1 hv.symm
  refine isNan_of_mulNum hz ?_
  cases neg
  · exact congrArg Num.isNan hzv
  · exact (isNan_negNum z).symm.trans (congrArg Num.isNan hzv)

/-! The cell. -/

/-- A group's sum and the cell's value, exact. -/
def addGroup (a : Num) : Exact → Exact
  | .nan => .nan
  | .invalid => if a.isNan then .nan else .invalid
  | .inf n _ => addNum .rne a (.inf n)
  | .fin n m e _ => addNum .rne a (.fin n m e)

theorem accumulate_eq (r : Rounding) (cell : Nat) (g : Exact) : accumulate r cell g =
    ((toFp .fp32 r (addGroup (fpVal .fp32 r.ftz cell) g)).1,
      (toFp .fp32 r (addGroup (fpVal .fp32 r.ftz cell) g)).2 ||| sigFlag (fpVal .fp32 r.ftz cell)) := by
  cases g <;> rfl

theorem addGroup_of_nan {a : Num} {g : Exact} (h : g = .nan ∨ a.isNan = true) : addGroup a g = .nan := by
  cases a with
  | nan s => cases g <;> rfl
  | inf n =>
    rcases h with rfl | h
    · rfl
    · cases h
  | fin n m e =>
    rcases h with rfl | h
    · rfl
    · cases h

theorem exp_of_fpVal_zero {f : FpFmt} {ftz : Bool} {b : Nat} {n : Bool} {e : Int} (h : fpVal f ftz b = .fin n 0 e) : e = 0 := by
  unfold fpVal at h
  dsimp only at h
  split at h
  · split at h
    · cases h
    · split at h <;> cases h
  · split at h
    · split at h
      case isTrue => cases h; rfl
      case isFalse hfr =>
        injection h with _ hm _
        exact absurd (.inl hm) hfr
    · injection h with _ hm _
      exact absurd hm (by have := Nat.two_pow_pos f.mbits; omega)

theorem toFp_zero (r : Rounding) (n : Bool) : toFp .fp32 r (.fin n 0 0 false) = (if n then 0x80000000 else 0, 0) := by
  cases n <;> rfl

/-! The operands of a group. -/

theorem exists_operand (l : List (Num × Num)) (P : Num → Prop) :
    (∃ v ∈ l.map (·.1) ++ l.map (·.2), P v) ↔ ∃ p ∈ l, P p.1 ∨ P p.2 := by
  refine ⟨fun ⟨v, hv, h⟩ => ?_, fun ⟨p, hp, h⟩ => ?_⟩
  · rcases List.mem_append.1 hv with hv | hv <;> obtain ⟨p, hp, rfl⟩ := List.mem_map.1 hv
    · exact ⟨p, hp, .inl h⟩
    · exact ⟨p, hp, .inr h⟩
  · rcases h with h | h
    · exact ⟨_, List.mem_append_left _ (List.mem_map_of_mem hp), h⟩
    · exact ⟨_, List.mem_append_right _ (List.mem_map_of_mem hp), h⟩

theorem nv_or (p q : Prop) [Decidable p] [Decidable q] :
    ((if p then 0x01 else 0 : FFlags) ||| if q then 0x01 else 0) = if p ∨ q then 0x01 else 0 := by
  by_cases p <;> by_cases q <;> simp [*]

theorem sigFlag_eq (v : Num) : sigFlag v = if v = .nan true then 0x01 else 0 := by
  cases v with
  | nan s => cases s <;> rfl
  | inf n => rfl
  | fin n m e => rfl

/-- The NV of the signalling operands of a group (R26). -/
theorem foldl_sigFlags (l : List (Num × Num)) (f : FFlags) : l.foldl (fun f x => f ||| sigFlag x.1 ||| sigFlag x.2) f =
    f ||| if ∃ p ∈ l, p.1 = Num.nan true ∨ p.2 = Num.nan true then 0x01 else 0 := by
  induction l generalizing f with
  | nil => simp
  | cons p l ih =>
    rw [List.foldl_cons, ih, sigFlag_eq, sigFlag_eq, BitVec.or_assoc, BitVec.or_assoc, nv_or, nv_or]
    simp only [List.exists_mem_cons_iff, or_assoc]

theorem addGroup_inf (n : Bool) {a : Num} {g : Exact} (ha : a.isNan = false) (hinf : a = .inf n ∨ g = .inf n false)
    (hfin : g = .inf n false ∨ ∃ s m e, g = .fin s m e false) (hother : a ≠ .inf (!n)) : addGroup a g = .inf n false := by
  cases a with
  | nan s => cases ha
  | inf b =>
    obtain rfl : b = n := by
      by_contra hb
      exact hother (congrArg Num.inf (Bool.eq_not.2 hb))
    rcases hfin with rfl | ⟨s, m, e, rfl⟩
    · exact if_pos rfl
    · rfl
  | fin b m e =>
    rcases hinf with h | rfl
    · cases h
    · rfl

theorem addGroup_fin_fin (n : Bool) (m : Nat) (e : Int) (s : Bool) (k : Nat) (q : Int) (hm : m ≠ 0) (hk : k ≠ 0) :
    addGroup (.fin n m e) (.fin s k q false) =
      let z := (if n then -1 else 1) * (m : Int) * 2 ^ (e - min e q).toNat + (if s then -1 else 1) * (k : Int) * 2 ^ (q - min e q).toNat
      if z = 0 then .fin false 0 0 false else .fin (decide (z < 0)) z.natAbs (min e q) false := by
  have hz : (dyadicAdd n m e s k q).1 =
      (if n then -1 else 1) * (m : Int) * 2 ^ (e - min e q).toNat + (if s then -1 else 1) * (k : Int) * 2 ^ (q - min e q).toNat := by
    rw [dyadicAdd]
    push_cast
    cases n <;> cases s <;> simp
  dsimp only
  rw [← hz, addGroup, addNum, if_neg fun h => hm h.1, if_neg hm, if_neg hk]
  rfl

theorem toFp_inf (r : Rounding) (n : Bool) : toFp .fp32 r (.inf n false) =
    ((if r.sat then 0x7F7FFFFF else 0x7F800000) + (if n then 0x80000000 else 0), if r.sat then 0x20 else 0) := by
  have hfin : withSign .fp32 n FpFmt.fp32.maxFin = 0x7F7FFFFF + if n then 0x80000000 else 0 := by revert n; decide
  have hinf : withSign .fp32 n FpFmt.fp32.infBits = 0x7F800000 + if n then 0x80000000 else 0 := by revert n; decide
  rw [toFp, hfin, hinf]
  cases r.sat <;> rfl

/-- The cell and the sum of finite products (R45, R49). -/
theorem toFp_addGroup_finite (r : Rounding) (n : Bool) (m : Nat) (e : Int) (z : Int) (lo : Int) (hlo : lo ≤ 0) (sign : Bool)
    (he : m = 0 → e = 0) :
    let g : Exact := if z = 0 then .fin sign 0 0 false else .fin (decide (z < 0)) z.natAbs lo false
    let q := min e lo
    let total := (if n then -1 else 1) * (m : Int) * 2 ^ (e - q).toNat + z * 2 ^ (lo - q).toNat
    let y := toFp .fp32 r (addGroup (.fin n m e) g)
    (z ≠ 0 → total ≠ 0 → y = toFp .fp32 r (.fin (decide (total < 0)) total.natAbs q false)) ∧
    (z ≠ 0 → total = 0 → y = (0, 0)) ∧ (z = 0 → m ≠ 0 → y = toFp .fp32 r (.fin n m e false)) ∧
    (z = 0 → m = 0 → y = (if n && sign then 0x80000000 else 0, 0)) := by
  intro g q total y
  have hz : z = (if decide (z < 0) then -1 else 1) * (z.natAbs : Int) := by
    by_cases h : z < 0
    · rw [decide_eq_true h, if_pos rfl]; omega
    · rw [decide_eq_false h, if_neg (by decide)]; omega
  have hsum : z ≠ 0 → m ≠ 0 → addGroup (.fin n m e) g =
      if total = 0 then .fin false 0 0 false else .fin (decide (total < 0)) total.natAbs q false := fun h hm => by
    rw [show g = _ from if_neg h, addGroup_fin_fin _ _ _ _ _ _ hm (Int.natAbs_ne_zero.2 h), ← hz]
  have htotal : m = 0 → q = lo ∧ total = z := fun hm => by
    have hq : q = lo := by
      change min e lo = lo
      rw [he hm, min_eq_right hlo]
    exact ⟨hq, by simp [total, hm, hq]⟩
  have halone : z ≠ 0 → m = 0 → addGroup (.fin n m e) g = .fin (decide (z < 0)) z.natAbs lo false := fun h hm => by
    rw [show g = _ from if_neg h, addGroup, addNum, if_neg fun hk => h (Int.natAbs_eq_zero.1 hk.2), if_pos hm]
  have hzero : z = 0 → addGroup (.fin n m e) g = if m = 0 then .fin (if n = sign then n else false) 0 0 false else .fin n m e false :=
    fun h => by
      rw [show g = _ from if_pos h, addGroup, addNum]
      by_cases hm : m = 0
      · rw [if_pos ⟨hm, rfl⟩, if_pos hm]
        rfl
      · rw [if_neg fun hk => hm hk.1, if_neg hm, if_pos rfl, if_neg hm]
  refine ⟨fun h ht => ?_, fun h ht => ?_, fun h hm => ?_, fun h hm => ?_⟩
  · by_cases hm : m = 0
    · obtain ⟨hq, htz⟩ := htotal hm
      rw [show y = _ from congrArg (toFp .fp32 r) (halone h hm), htz, hq]
    · rw [show y = _ from congrArg (toFp .fp32 r) (hsum h hm), if_neg ht]
  · by_cases hm : m = 0
    · exact absurd ((htotal hm).2.symm.trans ht) h
    · rw [show y = _ from congrArg (toFp .fp32 r) (hsum h hm), if_pos ht]
      exact toFp_zero r false
  · rw [show y = _ from congrArg (toFp .fp32 r) (hzero h), if_neg hm]
  · rw [show y = _ from congrArg (toFp .fp32 r) (hzero h), if_pos hm, toFp_zero]
    cases n <;> cases sign <;> rfl

/-- Adding a group to a cell meets R43, R45 and R49. -/
theorem groupAdded_accumulate (r : Rounding) (neg : Bool) (cell : Nat) (l : List (Num × Num)) :
    GroupAdded r neg cell l ((accumulate r cell (groupSum r.rm neg l)).1,
      (accumulate r cell (groupSum r.rm neg l)).2 ||| l.foldl (fun f x => f ||| sigFlag x.1 ||| sigFlag x.2) 0) := by
  rw [accumulate_eq, foldl_sigFlags, GroupAdded]
  generalize ha : fpVal .fp32 r.ftz cell = a
  have hmem : ∀ P : Num → Prop, (∃ v ∈ a :: (l.map (·.1) ++ l.map (·.2)), P v) ↔ P a ∨ ∃ p ∈ l, P p.1 ∨ P p.2 := fun P => by
    rw [List.exists_mem_cons_iff, exists_operand]
  have hquiet : a.isNan = false → (∀ p ∈ l, p.1.isNan = false ∧ p.2.isNan = false) → ∀ x : Exact,
      ((toFp .fp32 r x).1, (toFp .fp32 r x).2 ||| sigFlag a |||
        (0 ||| if ∃ p ∈ l, p.1 = Num.nan true ∨ p.2 = Num.nan true then 0x01 else 0)) =
        toFp .fp32 r x := fun hnum hl x => by
    have hsig : sigFlag a = 0 := by
      cases a with
      | nan s => cases hnum
      | inf n => rfl
      | fin n m e => rfl
    rw [hsig, if_neg]
    · exact Prod.ext rfl (by simp)
    · rintro ⟨p, hp, h | h⟩
      · exact absurd (hl p hp).1 (by simp [h, Num.isNan])
      · exact absurd (hl p hp).2 (by simp [h, Num.isNan])
  have hnums : ¬ (∃ v ∈ a :: (l.map (·.1) ++ l.map (·.2)), v.isNan = true) →
      a.isNan = false ∧ ∀ p ∈ l, p.1.isNan = false ∧ p.2.isNan = false := fun h => by
    rw [hmem] at h
    push Not at h
    simpa using h
  refine ⟨fun hnan => ?_, fun hnan hinv => ?_, fun n hnan hinv hinf => ?_, fun vs n m e hvs hfin => ?_⟩
  · have hall : addGroup a (groupSum r.rm neg l) = .nan := by
      rcases (hmem _).1 hnan with hcell | ⟨p, hp, h⟩
      · exact addGroup_of_nan (.inr hcell)
      · exact addGroup_of_nan (.inl (groupSum_of_nan _ _ hp h))
    have hzero : ∀ f : FFlags, 0 ||| f = f := fun _ => BitVec.zero_or
    rw [hall, sigFlag_eq, hzero, BitVec.or_assoc, nv_or]
    refine ⟨rfl, fun hsig => ?_, fun hsig => ?_⟩
    · exact (hzero _).trans (if_pos ((hmem _).1 hsig))
    · exact (hzero _).trans (if_neg fun h => by
        obtain ⟨v, hv, h⟩ := (hmem (· = .nan true)).2 h
        exact hsig v hv h)
  · obtain ⟨hnum, hl⟩ := hnums hnan
    have hall : addGroup a (groupSum r.rm neg l) = .invalid := by
      by_cases hnone : none ∈ groupProducts neg l
      · rw [groupSum_of_none _ _ hl hnone, addGroup, if_neg (by simp [hnum])]
      · obtain ⟨n, hn, hother⟩ : ∃ n, some (.inf n) ∈ groupProducts neg l ∧
            (a = .inf (!n) ∨ some (.inf (!n)) ∈ groupProducts neg l) := by
          obtain ⟨hpos, hneg⟩ := hinv.resolve_left hnone
          rcases hpos with hpos | hpos
          · exact ⟨false, hneg.resolve_left (by simp [hpos]), .inl hpos⟩
          · exact ⟨true, hpos, hneg⟩
        rw [groupSum_of_infs _ _ hl hnone n hn]
        split
        case isTrue => exact if_neg (by simp [hnum])
        case isFalse h =>
          rw [hother.resolve_right h]
          cases n <;> rfl
    rw [hall]
    exact hquiet hnum hl .invalid
  · obtain ⟨hnum, hl⟩ := hnums hnan
    obtain ⟨hnone, hboth⟩ := not_or.1 hinv
    have hother : ¬ (a = .inf (!n) ∨ some (.inf (!n)) ∈ groupProducts neg l) := fun h => by
      cases n
      · exact hboth ⟨h, hinf⟩
      · exact hboth ⟨hinf, h⟩
    rw [not_or] at hother
    have hgroup : some (.inf n) ∈ groupProducts neg l ∧ groupSum r.rm neg l = .inf n false ∨
        some (.inf n) ∉ groupProducts neg l ∧ ∃ s m e, groupSum r.rm neg l = .fin s m e false := by
      by_cases hn : some (.inf n) ∈ groupProducts neg l
      · exact .inl ⟨hn, by rw [groupSum_of_infs _ _ hl hnone n hn, if_neg hother.2]⟩
      · obtain ⟨vs, hvs⟩ := exists_finite_products hl hnone fun b => by
          rcases Bool.eq_or_eq_not b n with rfl | rfl
          · exact hn
          · exact hother.2
        refine .inr ⟨hn, ?_⟩
        rw [groupSum_of_finite _ _ hl vs hvs]
        split <;> exact ⟨_, _, _, rfl⟩
    have hall : addGroup a (groupSum r.rm neg l) = .inf n false := by
      refine addGroup_inf n hnum ?_ (hgroup.imp And.right And.right) hother.1
      rcases hgroup with h | h
      · exact .inr h.2
      · exact .inl (hinf.resolve_right h.1)
    rw [hall, hquiet hnum hl, toFp_inf]
  · have hl := nums_of_finite hvs
    have hsum := groupSum_of_finite r.rm neg hl vs hvs
    simp only [finSum_eq] at hsum
    have hadd := toFp_addGroup_finite r n m e (vs.map (unitsOf ((vs.map (·.2.2)).foldl min 0))).sum _ (foldl_min_le (vs.map (·.2.2)) 0)
      (zeroSign r.rm (vs.map (fun v => Num.fin v.1 v.2.1 v.2.2))) fun hm => exp_of_fpVal_zero (ha.trans (hm ▸ hfin))
    rw [← hsum] at hadd
    obtain ⟨hne, hcancel, hsame, hzero⟩ := hadd
    rw [hfin] at hquiet ⊢
    rw [hquiet rfl hl]
    refine ⟨hne, hcancel, hsame, fun hs hm => ⟨fun h => ?_, fun h => ?_⟩⟩
    · rw [hzero hs hm, h.1, (zeroSign_iff _ _).2 h.2]
      rfl
    · rw [hzero hs hm, if_neg]
      rw [Bool.and_eq_true, zeroSign_iff]
      exact h

end Sys2Proof.Machine
end

section
/-! PROOF. The cells and flags of TMOP and TMOPS (R49, R228, R229), for O45. -/

namespace Sys2Proof.Machine

/-! Steps that each give a value and flags. -/

/-- The value after steps. -/
def runSteps {α : Type} (f : Nat → α → Nat × FFlags) (l : List α) (z : Nat) : Nat := l.foldl (fun z x => (f z x).1) z

theorem runSteps_concat {α : Type} (f : Nat → α → Nat × FFlags) (l : List α) (z : Nat) (x : α) :
    runSteps f (l ++ [x]) z = (f (runSteps f l z) x).1 := List.foldl_concat ..

/-- Steps run one after the other: the value, and the flags of all. -/
theorem foldl_steps {α : Type} (f : Nat → α → Nat × FFlags) (l : List α) (z : Nat) :
    let y := l.foldl (fun (acc : Nat × FFlags) x => ((f acc.1 x).1, acc.2 ||| (f acc.1 x).2)) (z, 0)
    y.1 = runSteps f l z ∧
      ∀ b, y.2.getLsbD b = true ↔ ∃ j, ∃ x, l[j]? = some x ∧ (f (runSteps f (l.take j) z) x).2.getLsbD b = true := by
  induction l using List.reverseRecOn with
  | nil => exact ⟨rfl, fun b => by simp⟩
  | append_singleton l x ih =>
    obtain ⟨hval, hflags⟩ := ih
    simp only [List.foldl_concat]
    rw [hval, runSteps_concat]
    refine ⟨rfl, fun b => ?_⟩
    rw [BitVec.getLsbD_or, Bool.or_eq_true, hflags]
    constructor
    · rintro (⟨j, x', hj, h⟩ | h)
      · have hlt := (List.getElem?_eq_some_iff.1 hj).1
        exact ⟨j, x', by rw [List.getElem?_append_left hlt, hj], by rwa [List.take_append_of_le_length hlt.le]⟩
      · exact ⟨l.length, x, List.getElem?_concat_length, by rwa [List.take_left]⟩
    · rintro ⟨j, x', hj, h⟩
      rcases Nat.lt_trichotomy j l.length with hlt | rfl | hgt
      · rw [List.getElem?_append_left hlt] at hj
        rw [List.take_append_of_le_length hlt.le] at h
        exact .inl ⟨j, x', hj, h⟩
      · rw [List.getElem?_concat_length] at hj
        rw [List.take_left] at h
        cases hj
        exact .inr h
      · have hlt := (List.getElem?_eq_some_iff.1 hj).1
        rw [List.length_append, List.length_singleton] at hlt
        omega

/-! One group. -/

/-- One group added to a cell, with its flags. -/
def mopStep (fa fb : Fmt) (r : Rounding) (neg : Bool) (pa pb : BitVec 65536) (ba bb : BitVec 4096) (m n cell : Nat)
    (grp : List (Nat × Nat)) : Nat × FFlags :=
  if grp.isEmpty then (cell, 0)
  else match fa, fb with
    | .int wa sa, .int wb sb =>
      let s : Int := grp.foldl (fun t k => t + intOf wa sa (panelElem pa wa k.2 m) * intOf wb sb (panelElem pb wb k.1 n)) 0
      intToInt 32 true r.sat 0 (intOf 32 true cell + (if neg then -s else s))
    | _, _ =>
      let xs := grp.map (fun k => (panelVal fa r.ftz pa ba k.2 m k.1, panelVal fb r.ftz pb bb k.1 n k.1))
      ((accumulate r cell (groupSum r.rm neg xs)).1,
        (accumulate r cell (groupSum r.rm neg xs)).2 ||| xs.foldl (fun f x => f ||| sigFlag x.1 ||| sigFlag x.2) 0)

theorem mopCell_eq (fa fb : Fmt) (r : Rounding) (neg : Bool) (pa pb : BitVec 65536) (ba bb : BitVec 4096)
    (ks : List (List (Nat × Nat))) (m n cell : Nat) : mopCell fa fb r neg pa pb ba bb ks m n cell =
      ks.foldl (fun (acc : Nat × FFlags) grp => ((mopStep fa fb r neg pa pb ba bb m n acc.1 grp).1,
        acc.2 ||| (mopStep fa fb r neg pa pb ba bb m n acc.1 grp).2)) (cell, 0) := by
  unfold mopCell
  congr 1
  funext acc grp
  unfold mopStep
  by_cases h : grp.isEmpty = true
  · rw [if_pos h, if_pos h]
    exact Prod.ext rfl (BitVec.or_zero).symm
  · rw [if_neg h, if_neg h]
    cases fa with
    | int wa sa =>
      cases fb with
      | int wb sb => rfl
      | _ => exact Prod.ext rfl (BitVec.or_assoc ..)
    | _ => exact Prod.ext rfl (BitVec.or_assoc ..)

theorem wrapBits_eq (w : Nat) (z : Int) : wrapBits w z = (BitVec.ofInt w z).toNat := (BitVec.toNat_ofInt z).symm

theorem intToInt_eq_fitInt (sat : Bool) (f : FFlags) (z : Int) : intToInt 32 true sat f z = fitInt 32 true sat f z := by
  unfold intToInt fitInt
  simp only [wrapBits_eq, intMin, intMax, if_pos]
  by_cases h : -2 ^ (32 - 1) ≤ z ∧ z ≤ 2 ^ (32 - 1) - 1
  · rw [if_pos h, if_pos h]
  · rw [if_neg h, if_neg h]
    have hlow : z < 0 ↔ z < -2 ^ (32 - 1) := by omega
    simp only [hlow, flagSAT]

theorem intOf_ofNat (z : Nat) : intOf 32 true z = (BitVec.ofNat 32 z).toInt := by
  rw [← intOf_toNat _ (by decide), BitVec.toNat_ofNat]
  simp only [intOf, Nat.mod_mod]

theorem intOf_toNat_eq_intIn {w : Nat} (s : Bool) (x : BitVec w) (hw : 0 < w) : intOf w s x.toNat = intIn s x := by
  cases s
  · simp [intOf, intIn, Nat.mod_eq_of_lt x.isLt]
  · exact intOf_toNat x hw

theorem intToInt_lt (sat : Bool) (f : FFlags) (z : Int) : (intToInt 32 true sat f z).1 < 2 ^ 32 := by
  unfold intToInt
  simp only [wrapBits_eq]
  split
  · exact BitVec.isLt _
  · split <;> exact BitVec.isLt _

theorem accumulate_lt (r : Rounding) (cell : Nat) (g : Exact) : (accumulate r cell g).1 < 2 ^ 32 := by
  rw [accumulate_eq]
  exact toFp_lt .fp32 r _

theorem mopStep_lt (fa fb : Fmt) (r : Rounding) (neg : Bool) (pa pb : BitVec 65536) (ba bb : BitVec 4096) (m n : Nat) {cell : Nat}
    (grp : List (Nat × Nat)) (h : cell < 2 ^ 32) : (mopStep fa fb r neg pa pb ba bb m n cell grp).1 < 2 ^ 32 := by
  unfold mopStep
  split
  · exact h
  · split
    · exact intToInt_lt _ _ _
    · exact accumulate_lt _ _ _

theorem runSteps_lt {α : Type} {f : Nat → α → Nat × FFlags} {b : Nat} (hf : ∀ z x, z < b → (f z x).1 < b) (l : List α) {z : Nat}
    (hz : z < b) : runSteps f l z < b := by
  induction l using List.reverseRecOn with
  | nil => exact hz
  | append_singleton l x ih =>
    rw [runSteps_concat]
    exact hf _ _ ih

/-! The groups. -/

/-- The K indices of a group that are on (R229). -/
def groupOn (comp : Bool) (km : BitVec 256) (size j : Nat) : List Nat :=
  ((List.range size).map (fun i => j * size + i)).filter (fun k => !comp || km.getLsbD k)

/-- The row of panel qa that supplies a K index (R229). -/
def rowOf (comp : Bool) (km : BitVec 256) (k : Nat) : Nat :=
  if comp then (List.range k).countP (fun j => km.getLsbD j) else k

theorem mopGroups_eq (comp : Bool) (depth size : Nat) (km : BitVec 256) : mopGroups comp depth size km =
    (List.range (depth / size)).map (fun j => (groupOn comp km size j).map (fun k => (k, rowOf comp km k))) := by
  have hfilter : ∀ l : List Nat, (l.filterMap fun k =>
      if comp then (if km.getLsbD k then some (k, popGo km.toNat k) else none) else some (k, k)) =
      (l.filter (fun k => !comp || km.getLsbD k)).map (fun k => (k, rowOf comp km k)) := fun l => by
    induction l with
    | nil => rfl
    | cons k l ih =>
      have hrow : popGo km.toNat k = (List.range k).countP (fun j => km.getLsbD j) := popGo_eq_countP _ _
      rw [List.filterMap_cons, List.filter_cons, ih]
      cases comp with
      | false => rfl
      | true => cases h : km.getLsbD k <;> simp [rowOf, hrow]
  exact List.map_congr_left fun j _ => hfilter _

/-- The pairs of R228: formats of one width, by groups of one size. -/
theorem mopGroup_width {a b d : Fmt} {g : Nat} (h : mopGroup a b d = some g) :
    b.width = a.width ∧ g = (if a.width = 32 then 1 else 64 / a.width) ∧ 0 < a.width := by
  unfold mopGroup at h
  split at h
  case h_1 x y =>
    rcases ite_eq_iff.1 h with ⟨-, h⟩ | ⟨-, h⟩
    · cases h
    · rcases ite_eq_iff.1 h with ⟨⟨hx, hy⟩, h⟩ | ⟨-, h⟩
      · cases h
        simp [Fmt.width, hx, hy]
      · rcases ite_eq_iff.1 h with ⟨⟨hx, hy⟩, h⟩ | ⟨-, h⟩
        · cases h
          simp [Fmt.width, hx, hy]
        · rcases ite_eq_iff.1 h with ⟨⟨rfl, rfl⟩, h⟩ | ⟨-, h⟩
          · cases h
            exact ⟨rfl, rfl, by decide⟩
          · cases h
  case h_5 => cases h
  all_goals
    rcases ite_eq_iff.1 h with ⟨-, h⟩ | ⟨-, h⟩ <;> cases h
    exact ⟨rfl, by simp [Fmt.width]⟩

theorem mopFwOk_group {w : Word} (h : mopFwOk w = true) : ∃ g, mopGroup (faOf w) (fbOf w) (fdOf w) = some g := by
  unfold mopFwOk at h
  rw [Bool.and_eq_true] at h
  have h := h.2
  unfold faOf fbOf fdOf
  split at h
  · rename_i ha hb hd
    rw [ha, hb, hd]
    exact Option.isSome_iff_exists.1 h
  · cases h

theorem mopStep_nil (fa fb : Fmt) (r : Rounding) (neg : Bool) (pa pb : BitVec 65536) (ba bb : BitVec 4096) (m n cell : Nat) :
    mopStep fa fb r neg pa pb ba bb m n cell [] = (cell, 0) := rfl

theorem intOf_panelElem (s : Bool) (p : BitVec 65536) {w' w : Nat} (h : w' = w) (hw : 0 < w) (k j : Nat) :
    intOf w' s (panelElem p w' k j) = intIn s (p.extractLsb' ((64 * k + j) * w) w) := by
  subst h
  exact intOf_toNat_eq_intIn s _ hw

theorem foldl_add_eq_sum (l : List (Nat × Nat)) (f : Nat × Nat → Int) (z : Int) : l.foldl (fun t k => t + f k) z = z + (l.map f).sum := by
  induction l generalizing z with
  | nil => simp
  | cons k l ih => rw [List.foldl_cons, ih, List.map_cons, List.sum_cons, Int.add_assoc]

/-- A group of integers (R228, R229). -/
theorem mopStep_int {fa fb : Fmt} {wa wb w : Nat} {sa sb : Bool} (hfa : fa = .int wa sa) (hfb : fb = .int wb sb) (hwa : wa = w)
    (hwb : wb = w) (hw : 0 < w) (r : Rounding) (neg : Bool) (pa pb : BitVec 65536) (ba bb : BitVec 4096) (m n cell : Nat)
    {ks : List Nat} (hks : ks ≠ []) (src : Nat → Nat) :
    mopStep fa fb r neg pa pb ba bb m n cell (ks.map (fun k => (k, src k))) =
      let sum := (ks.map (fun k => intIn sa (pa.extractLsb' ((64 * src k + m) * w) w) * intIn sb (pb.extractLsb' ((64 * k + n) * w) w))).sum
      fitInt 32 true r.sat 0 (intIn true (BitVec.ofNat 32 cell) + (if neg then -sum else sum)) := by
  subst hfa hfb
  rw [mopStep, if_neg (by simpa using hks)]
  dsimp only
  rw [foldl_add_eq_sum, Int.zero_add, List.map_map, intToInt_eq_fitInt, intOf_ofNat]
  have hprod : ((fun k : Nat × Nat => intOf wa sa (panelElem pa wa k.2 m) * intOf wb sb (panelElem pb wb k.1 n)) ∘ fun k => (k, src k)) =
      fun k => intIn sa (pa.extractLsb' ((64 * src k + m) * w) w) * intIn sb (pb.extractLsb' ((64 * k + n) * w) w) := by
    funext k
    exact congrArg₂ (· * ·) (intOf_panelElem sa pa hwa hw _ _) (intOf_panelElem sb pb hwb hw _ _)
  rw [hprod]
  rfl

/-- A group of numbers with an FP32 cell (R49, R228, R229). -/
theorem mopStep_num {fa fb : Fmt} (hint : ¬ ∃ wa sa wb sb, fa = .int wa sa ∧ fb = .int wb sb) (r : Rounding) (neg : Bool)
    (pa pb : BitVec 65536) (ba bb : BitVec 4096) (m n cell : Nat) {ks : List Nat} (hks : ks ≠ []) (src : Nat → Nat) :
    GroupAdded r neg cell (ks.map (fun k => (panelVal fa r.ftz pa ba (src k) m k, panelVal fb r.ftz pb bb k n k)))
      (mopStep fa fb r neg pa pb ba bb m n cell (ks.map (fun k => (k, src k)))) := by
  have hne : ¬ (ks.map (fun k => (k, src k))).isEmpty = true := by simpa using hks
  have hadd := groupAdded_accumulate r neg cell ((ks.map (fun k => (k, src k))).map
    (fun k => (panelVal fa r.ftz pa ba k.2 m k.1, panelVal fb r.ftz pb bb k.1 n k.1)))
  rw [List.map_map] at hadd
  rw [mopStep, if_neg hne]
  · rwa [List.map_map]
  · exact fun wa sa wb sb ha hb => hint ⟨wa, sa, wb, sb, ha, hb⟩

/-! The cells of an accumulator. -/

section
variable (c : Core) (e : TEntry) (comp : Bool) (ac : AccReg) (qa qb : PanelReg) (rows cols : BitVec 64) (km : BitVec 256) (zero neg : Bool)

/-- The rounding of a format word's groups. -/
def mopRounding (fw : Word) : Rounding := ⟨(RMode.ofCode (fwRM fw)).getD .rne, fwSat fw, fwFtz fw, 0⟩

/-- The groups of a format word. -/
def mopKs (fw : Word) (comp : Bool) (km : BitVec 256) : List (List (Nat × Nat)) :=
  mopGroups comp (panelDepth (faOf fw).width) ((mopGroup (faOf fw) (fbOf fw) (fdOf fw)).getD 1) km

/-- A group of panels qa and qb added to cell (m, n). -/
def Core.mopAdd (m n : Nat) : Nat → List (Nat × Nat) → Nat × FFlags :=
  mopStep (faOf e.fw) (fbOf e.fw) (mopRounding e.fw) neg (c.panel.get qa) (c.panel.get qb) (c.band.get qa) (c.band.get qb) m n

/-- What a cell holds before the first group. -/
def Core.mopStart (i : Nat) : Nat := if zero then 0 else cellOf (c.acc.get ac) i

/-- What a cell holds in the end, with the flags of its groups. -/
def Core.mopOut (i : Nat) : Nat × FFlags :=
  if rows.getLsbD (i / 64) && cols.getLsbD (i % 64) then
    mopCell (faOf e.fw) (fbOf e.fw) (mopRounding e.fw) neg (c.panel.get qa) (c.panel.get qb) (c.band.get qa) (c.band.get qb)
      (mopKs e.fw comp km) (i / 64) (i % 64) (c.mopStart ac zero i)
  else (cellOf (c.acc.get ac) i, 0)

/-- The accumulator in the end. -/
def Core.mopAcc : BitVec 131072 :=
  BitVec.ofNat 131072 (packNat 32 (((List.range 4096).map (c.mopOut e comp ac qa qb rows cols km zero neg)).map (·.1)))

/-- The flags of all cells. -/
def Core.mopFlags : FFlags := ((List.range 4096).map (c.mopOut e comp ac qa qb rows cols km zero neg)).foldl (fun f x => f ||| x.2) 0

theorem Core.mop_eq : c.mop e comp ac qa qb rows cols km zero neg =
    (c.setAcc ac (c.mopAcc e comp ac qa qb rows cols km zero neg)).setTstat ac
      ((c.tstat.get ac).add (c.mopFlags e comp ac qa qb rows cols km zero neg)) := rfl

theorem Core.mopStart_lt (i : Nat) : c.mopStart ac zero i < 2 ^ 32 := by
  unfold Core.mopStart
  split
  · decide
  · exact BitVec.isLt _

theorem Core.mopOut_off {i : Nat} (h : (rows.getLsbD (i / 64) && cols.getLsbD (i % 64)) = false) :
    c.mopOut e comp ac qa qb rows cols km zero neg i = (cellOf (c.acc.get ac) i, 0) := if_neg (by simp [h])

/-- A cell that is on: its groups one after the other. -/
theorem Core.mopOut_on {i : Nat} (h : (rows.getLsbD (i / 64) && cols.getLsbD (i % 64)) = true) :
    let add := c.mopAdd e qa qb neg (i / 64) (i % 64)
    let out := c.mopOut e comp ac qa qb rows cols km zero neg i
    out.1 = runSteps add (mopKs e.fw comp km) (c.mopStart ac zero i) ∧
    ∀ b, out.2.getLsbD b = true ↔ ∃ j, ∃ grp, (mopKs e.fw comp km)[j]? = some grp ∧
      (add (runSteps add ((mopKs e.fw comp km).take j) (c.mopStart ac zero i)) grp).2.getLsbD b = true := by
  intro add out
  have hout : out = _ := (if_pos h).trans (mopCell_eq ..)
  rw [hout]
  exact foldl_steps add (mopKs e.fw comp km) (c.mopStart ac zero i)

theorem Core.mopOut_lt (i : Nat) : (c.mopOut e comp ac qa qb rows cols km zero neg i).1 < 2 ^ 32 := by
  cases h : rows.getLsbD (i / 64) && cols.getLsbD (i % 64) with
  | false =>
    rw [c.mopOut_off e comp ac qa qb rows cols km zero neg h]
    exact BitVec.isLt _
  | true =>
    rw [(c.mopOut_on e comp ac qa qb rows cols km zero neg h).1]
    exact runSteps_lt (fun z x hz => mopStep_lt _ _ _ _ _ _ _ _ _ _ x hz) _ (c.mopStart_lt ac zero i)

theorem Core.cell_mopAcc {i : Nat} (hi : i < 4096) : (c.mopAcc e comp ac qa qb rows cols km zero neg).extractLsb' (32 * i) 32 =
    BitVec.ofNat 32 (c.mopOut e comp ac qa qb rows cols km zero neg i).1 := by
  rw [Core.mopAcc, extract_packNat _ _ (by omega), List.map_map, List.getD_eq_getElem?_getD, List.getElem?_map, List.getElem?_range hi]
  rfl

theorem Core.mopFlags_iff (b : Nat) : (c.mopFlags e comp ac qa qb rows cols km zero neg).getLsbD b = true ↔
    ∃ i < 4096, (c.mopOut e comp ac qa qb rows cols km zero neg i).2.getLsbD b = true := by
  rw [Core.mopFlags, getLsbD_foldl_or]
  simp

end

end Sys2Proof.Machine
end

section
/-! PROOF. TMOP and TMOPS meet `MopValues`, and INT8 sums are exact modulo 2^32 (R49, R228, R229), for O45. -/

namespace Sys2Proof.Machine

section
variable (c : Core) (e : TEntry) (comp : Bool) (ac : AccReg) (qa qb : PanelReg) (rows cols : BitVec 64) (km : BitVec 256) (zero neg : Bool)

/-- The value of cell (m, n) after j groups. -/
def Core.mopPartial (m n j : Nat) : Nat :=
  runSteps (c.mopAdd e qa qb neg m n) ((mopKs e.fw comp km).take j) (c.mopStart ac zero (64 * m + n))

/-- Group j of groups of a size. -/
def mopGroupAt (size j : Nat) : List (Nat × Nat) := (groupOn comp km size j).map (fun k => (k, rowOf comp km k))

/-- The flags of group j at cell (m, n). -/
def Core.mopFlagsAt (size m n j : Nat) : FFlags :=
  (c.mopAdd e qa qb neg m n (c.mopPartial e comp ac qa qb km zero neg m n j) (mopGroupAt comp km size j)).2

theorem mopKs_eq {fw : Word} {g : Nat} (h : mopGroup (faOf fw) (fbOf fw) (fdOf fw) = some g) :
    mopKs fw comp km = (List.range (1024 / (faOf fw).width / g)).map (mopGroupAt comp km g) := by
  rw [mopKs, h]
  exact mopGroups_eq comp _ g km

theorem Core.mopPartial_succ {g m n j : Nat} (h : mopGroup (faOf e.fw) (fbOf e.fw) (fdOf e.fw) = some g)
    (hj : j < 1024 / (faOf e.fw).width / g) :
    (c.mopPartial e comp ac qa qb km zero neg m n (j + 1), c.mopFlagsAt e comp ac qa qb km zero neg g m n j) =
      c.mopAdd e qa qb neg m n (c.mopPartial e comp ac qa qb km zero neg m n j) (mopGroupAt comp km g j) := by
  have hget : (mopKs e.fw comp km)[j]? = some (mopGroupAt comp km g j) := by
    rw [mopKs_eq comp km h, List.getElem?_map, List.getElem?_range hj]
    rfl
  refine Prod.ext ?_ rfl
  rw [Core.mopPartial, List.take_add_one, hget]
  exact runSteps_concat ..

theorem Core.mopOut_partial {g m n : Nat} (h : mopGroup (faOf e.fw) (fbOf e.fw) (fdOf e.fw) = some g) (hn : n < 64)
    (hon : (rows.getLsbD m && cols.getLsbD n) = true) :
    (c.mopOut e comp ac qa qb rows cols km zero neg (64 * m + n)).1 =
        c.mopPartial e comp ac qa qb km zero neg m n (1024 / (faOf e.fw).width / g) ∧
      ∀ b, (c.mopOut e comp ac qa qb rows cols km zero neg (64 * m + n)).2.getLsbD b = true ↔
        ∃ j < 1024 / (faOf e.fw).width / g, (c.mopFlagsAt e comp ac qa qb km zero neg g m n j).getLsbD b = true := by
  have hrow : (64 * m + n) / 64 = m := by omega
  have hcol : (64 * m + n) % 64 = n := by omega
  have hlen : (mopKs e.fw comp km).length = 1024 / (faOf e.fw).width / g := by
    rw [mopKs_eq comp km h, List.length_map, List.length_range]
  have hget : ∀ j < 1024 / (faOf e.fw).width / g, (mopKs e.fw comp km)[j]? = some (mopGroupAt comp km g j) := fun j hj => by
    rw [mopKs_eq comp km h, List.getElem?_map, List.getElem?_range hj]
    rfl
  have hrun := c.mopOut_on e comp ac qa qb rows cols km zero neg (i := 64 * m + n) (by rw [hrow, hcol, hon])
  rw [hrow, hcol] at hrun
  obtain ⟨hval, hflags⟩ := hrun
  refine ⟨by rw [hval, Core.mopPartial, List.take_of_length_le hlen.le], fun b => (hflags b).trans ⟨?_, ?_⟩⟩
  · rintro ⟨j, grp, hj, hb⟩
    have hlt : j < 1024 / (faOf e.fw).width / g := hlen ▸ (List.getElem?_eq_some_iff.1 hj).1
    obtain rfl : mopGroupAt comp km g j = grp := Option.some.inj ((hget j hlt).symm.trans hj)
    exact ⟨j, hlt, hb⟩
  · rintro ⟨j, hj, hb⟩
    exact ⟨j, _, hget j hj, hb⟩

theorem panelVal_eq {f : Fmt} {w : Nat} (h : f.width = w) (ftz : Bool) (p : BitVec 65536) (band : BitVec 4096) (row col k : Nat) :
    panelVal f ftz p band row col k = fmtVal f ftz (if f.isBlock then (band.extractLsb' (8 * (64 * (k / 32) + col)) 8).toNat else 0)
      (p.extractLsb' ((64 * row + col) * w) w).toNat := by
  subst h
  rfl

theorem mopValues_mop {rm : RMode} (hok : mopFwOk e.fw = true) (hrm : RMode.ofCode (fwRM e.fw) = some rm) :
    MopValues c e.fw rm comp ac qa qb rows cols km zero neg (c.mopAcc e comp ac qa qb rows cols km zero neg)
      ((c.tstat.get ac).add (c.mopFlags e comp ac qa qb rows cols km zero neg)) := by
  obtain ⟨g, hg⟩ := mopFwOk_group hok
  obtain ⟨hwidth, hsize, hpos⟩ := mopGroup_width hg
  have hround : mopRounding e.fw = ⟨rm, fwSat e.fw, fwFtz e.fw, 0⟩ := by rw [mopRounding, hrm]; rfl
  have hcell : ∀ m < 64, ∀ n < 64, ((c.mopAcc e comp ac qa qb rows cols km zero neg).extractLsb' (32 * (64 * m + n)) 32).toNat =
      (c.mopOut e comp ac qa qb rows cols km zero neg (64 * m + n)).1 := fun m hm n hn => by
    rw [c.cell_mopAcc _ _ _ _ _ _ _ _ _ _ (by omega), BitVec.toNat_ofNat, Nat.mod_eq_of_lt (c.mopOut_lt ..)]
  have hoff : ∀ m < 64, ∀ n < 64, (rows.getLsbD m && cols.getLsbD n) = false →
      c.mopOut e comp ac qa qb rows cols km zero neg (64 * m + n) = (cellOf (c.acc.get ac) (64 * m + n), 0) := fun m hm n hn h =>
    c.mopOut_off _ _ _ _ _ _ _ _ _ _ (by rwa [show (64 * m + n) / 64 = m by omega, show (64 * m + n) % 64 = n by omega])
  unfold MopValues
  dsimp only
  rw [← hsize]
  refine ⟨c.mopPartial e comp ac qa qb km zero neg, c.mopFlagsAt e comp ac qa qb km zero neg g,
    fun m hm n hn => ⟨fun h => ?_, fun hon => ⟨rfl, ?_, fun j hj => ⟨fun hnil => ?_, fun hks => ?_⟩⟩⟩, ?_⟩
  · rw [hcell m hm n hn, hoff m hm n hn h]
    rfl
  · rw [hcell m hm n hn, (c.mopOut_partial e comp ac qa qb rows cols km zero neg hg hn hon).1]
  · have hstep := c.mopPartial_succ e comp ac qa qb km zero neg (m := m) (n := n) hg hj
    rw [show mopGroupAt comp km g j = [] from congrArg (List.map _) hnil, Core.mopAdd, mopStep_nil] at hstep
    exact Prod.ext_iff.1 hstep
  · rw [c.mopPartial_succ e comp ac qa qb km zero neg hg hj, Core.mopAdd, mopGroupAt]
    split
    · rename_i wa sa wb sb hfa hfb
      have hwa : wa = (faOf e.fw).width := by rw [hfa]; rfl
      have hwb : wb = (faOf e.fw).width := by rw [← hwidth, hfb]; rfl
      exact mopStep_int (ks := groupOn comp km g j) hfa hfb hwa hwb hpos (mopRounding e.fw) neg (c.panel.get qa) (c.panel.get qb)
        (c.band.get qa) (c.band.get qb) m n _ hks (rowOf comp km)
    · rename_i hint
      have hnum := mopStep_num (ks := groupOn comp km g j) (fun ⟨wa, sa, wb, sb, h⟩ => hint wa sa wb sb h.1 h.2) (mopRounding e.fw) neg
        (c.panel.get qa) (c.panel.get qb) (c.band.get qa) (c.band.get qb) m n (c.mopPartial e comp ac qa qb km zero neg m n j) hks
        (rowOf comp km)
      simp only [panelVal_eq hwidth, panelVal_eq (f := faOf e.fw) rfl] at hnum
      rw [hround] at hnum ⊢
      exact hnum
  · have hrose : ∀ b, (c.mopFlags e comp ac qa qb rows cols km zero neg).getLsbD b = true ↔ ∃ m < 64, ∃ n < 64,
        ∃ j < 1024 / (faOf e.fw).width / g, (rows.getLsbD m && cols.getLsbD n) = true ∧
          (c.mopFlagsAt e comp ac qa qb km zero neg g m n j).getLsbD b = true := fun b => by
      rw [c.mopFlags_iff]
      constructor
      · rintro ⟨i, hi, hb⟩
        rw [show i = 64 * (i / 64) + i % 64 by omega] at hb
        cases hon : rows.getLsbD (i / 64) && cols.getLsbD (i % 64) with
        | false =>
          rw [hoff _ (by omega) _ (by omega) hon] at hb
          cases hb.symm.trans BitVec.getLsbD_zero
        | true =>
          obtain ⟨j, hj, hb⟩ := ((c.mopOut_partial e comp ac qa qb rows cols km zero neg hg (by omega) hon).2 b).1 hb
          exact ⟨i / 64, by omega, i % 64, by omega, j, hj, hon, hb⟩
      · rintro ⟨m, hm, n, hn, j, hj, hon, hb⟩
        exact ⟨64 * m + n, by omega, ((c.mopOut_partial e comp ac qa qb rows cols km zero neg hg hn hon).2 b).2 ⟨j, hj, hb⟩⟩
    simp only [TFlags.add, Bool.or_eq_true, hrose, and_self]

/-! INT8 without SAT. -/

/-- The products of a group of integers, summed. -/
def intProducts (pa pb : BitVec 65536) (w : Nat) (sa sb : Bool) (m n : Nat) (grp : List (Nat × Nat)) : Int :=
  (grp.map (fun k => intOf w sa (panelElem pa w k.2 m) * intOf w sb (panelElem pb w k.1 n))).sum

theorem ofNat_intToInt (f : FFlags) (z : Int) : BitVec.ofNat 32 (intToInt 32 true false f z).1 = BitVec.ofInt 32 z := by
  have h : (intToInt 32 true false f z).1 = wrapBits 32 z := by
    unfold intToInt
    split <;> rfl
  rw [h, wrapBits_eq, BitVec.ofNat_toNat, BitVec.setWidth_eq]

/-- A group of integers without SAT, modulo 2^32. -/
theorem ofNat_mopStep_int {w : Nat} {sa sb : Bool} {r : Rounding} (hsat : r.sat = false) (pa pb : BitVec 65536) (ba bb : BitVec 4096)
    (m n z : Nat) (grp : List (Nat × Nat)) :
    BitVec.ofNat 32 (mopStep (.int w sa) (.int w sb) r neg pa pb ba bb m n z grp).1 =
      BitVec.ofNat 32 z + BitVec.ofInt 32 (if neg then -intProducts pa pb w sa sb m n grp else intProducts pa pb w sa sb m n grp) := by
  unfold mopStep
  by_cases h : grp.isEmpty = true
  · rw [if_pos h, List.isEmpty_iff.1 h]
    simp [intProducts]
  · rw [if_neg h]
    dsimp only
    rw [hsat, ofNat_intToInt, foldl_add_eq_sum, Int.zero_add, intOf_ofNat, BitVec.ofInt_add, BitVec.ofInt_toInt]
    rfl

theorem ofNat_runSteps_int {w : Nat} {sa sb : Bool} {r : Rounding} (hsat : r.sat = false) (pa pb : BitVec 65536) (ba bb : BitVec 4096)
    (m n z : Nat) (l : List (List (Nat × Nat))) :
    BitVec.ofNat 32 (runSteps (mopStep (.int w sa) (.int w sb) r neg pa pb ba bb m n) l z) = BitVec.ofNat 32 z + BitVec.ofInt 32
      (if neg then -intProducts pa pb w sa sb m n l.flatten else intProducts pa pb w sa sb m n l.flatten) := by
  induction l using List.reverseRecOn with
  | nil => simp [runSteps, intProducts]
  | append_singleton l grp ih =>
    have hsum : intProducts pa pb w sa sb m n (l ++ [grp]).flatten =
        intProducts pa pb w sa sb m n l.flatten + intProducts pa pb w sa sb m n grp := by
      simp [intProducts]
    rw [runSteps_concat, ofNat_mopStep_int neg hsat, ih, BitVec.add_assoc, ← BitVec.ofInt_add, hsum]
    congr 2
    split
    · rw [Int.neg_add]
    · rfl

/-- The K indices of a TMOP over a depth of 128, in order. -/
theorem flatten_mopGroups : (mopGroups false 128 8 km).flatten = (List.range 128).map (fun k => (k, k)) := by
  have hall : mopGroups false 128 8 km = (List.range 16).map (fun j => (List.range 8).map (fun i => (j * 8 + i, j * 8 + i))) := by
    rw [mopGroups_eq]
    refine List.map_congr_left fun j _ => ?_
    rw [groupOn, show List.filter (fun k => !false || km.getLsbD k) _ = _ from List.filter_eq_self.2 fun _ _ => rfl, List.map_map]
    rfl
  rw [hall]
  decide

theorem Core.mopAcc_int8 {sa sb : Bool} (hfa : faOf e.fw = .int 8 sa) (hfb : fbOf e.fw = .int 8 sb) (hfd : fdOf e.fw = .int 32 true)
    (hsat : fwSat e.fw = false) {m n : Nat} (hm : m < 64) (hn : n < 64) (hon : (rows.getLsbD m && cols.getLsbD n) = true) :
    let el := fun (p : BitVec 65536) (signed : Bool) (kk j : Nat) =>
      let z := p.extractLsb' (8 * (64 * kk + j)) 8
      if signed then z.toInt else (z.toNat : Int)
    let sum : Int := ((List.range 128).map (fun kk => el (c.panel.get qa) sa kk m * el (c.panel.get qb) sb kk n)).sum
    (c.mopAcc e false ac qa qb rows cols km zero neg).extractLsb' (32 * (64 * m + n)) 32 =
      (if zero then 0 else (c.acc.get ac).extractLsb' (32 * (64 * m + n)) 32) + BitVec.ofInt 32 (if neg then -sum else sum) := by
  intro el sum
  have hg : mopGroup (faOf e.fw) (fbOf e.fw) (fdOf e.fw) = some 8 := by rw [hfa, hfb, hfd]; rfl
  have hks : mopKs e.fw false km = mopGroups false 128 8 km := by rw [mopKs, hg, hfa]; simp [panelDepth, Fmt.width]
  have hstart : BitVec.ofNat 32 (c.mopStart ac zero (64 * m + n)) =
      if zero then 0 else (c.acc.get ac).extractLsb' (32 * (64 * m + n)) 32 := by
    cases zero
    · exact (BitVec.ofNat_toNat 32 _).trans (BitVec.setWidth_eq _)
    · rfl
  have hel : ∀ (p : BitVec 65536) (s : Bool) (kk j : Nat), intOf 8 s (panelElem p 8 kk j) = el p s kk j := fun p s kk j => by
    rw [intOf_panelElem s p rfl (by decide), Nat.mul_comm]
    rfl
  have hsum : intProducts (c.panel.get qa) (c.panel.get qb) 8 sa sb m n (mopGroups false 128 8 km).flatten = sum := by
    rw [flatten_mopGroups, intProducts, List.map_map]
    simp only [Function.comp_def, hel]
    rfl
  have hadd : c.mopAdd e qa qb neg m n = mopStep (.int 8 sa) (.int 8 sb) (mopRounding e.fw) neg (c.panel.get qa) (c.panel.get qb)
      (c.band.get qa) (c.band.get qb) m n := by rw [Core.mopAdd, hfa, hfb]
  rw [c.cell_mopAcc _ _ _ _ _ _ _ _ _ _ (by omega), (c.mopOut_on e false ac qa qb rows cols km zero neg (i := 64 * m + n)
    (by rwa [show (64 * m + n) / 64 = m by omega, show (64 * m + n) % 64 = n by omega])).1, show (64 * m + n) / 64 = m by omega,
    show (64 * m + n) % 64 = n by omega, hadd, hks, ofNat_runSteps_int neg hsat, hstart, hsum]

theorem Core.mopAcc_off {m n : Nat} (hm : m < 64) (hn : n < 64) (hoff : (rows.getLsbD m && cols.getLsbD n) = false) :
    (c.mopAcc e comp ac qa qb rows cols km zero neg).extractLsb' (32 * (64 * m + n)) 32 =
      (c.acc.get ac).extractLsb' (32 * (64 * m + n)) 32 := by
  rw [c.cell_mopAcc _ _ _ _ _ _ _ _ _ _ (by omega), c.mopOut_off _ _ _ _ _ _ _ _ _ _
    (by rwa [show (64 * m + n) / 64 = m by omega, show (64 * m + n) % 64 = n by omega])]
  exact (BitVec.ofNat_toNat 32 _).trans (BitVec.setWidth_eq _)

end

end Sys2Proof.Machine
end

section
/-! PROOF. TILE_EXECUTE and TILE_COMPLETE as steps (R225, R226): what they leave of the contexts, and the instructions that access no
memory, for O45. -/

namespace Sys2Proof.Machine

/-! What accesses leave of the contexts: all but the count of misses. -/

/-- Contexts in t are those in s but for their event counters. -/
def State.CountsOnly (s t : State) : Prop := ∀ j, t.ctx j = { s.ctx j with pmcnt := (t.ctx j).pmcnt }

namespace State.CountsOnly
variable {s t u : State}

theorem refl (s : State) : s.CountsOnly s := fun _ => rfl

theorem trans (h : s.CountsOnly t) (h' : t.CountsOnly u) : s.CountsOnly u := fun j => by rw [h' j, h j]

theorem of_ctxs (h : t.ctxs = s.ctxs) : s.CountsOnly t := fun j => by rw [State.ctx_congr t s h j]

theorem ite {p : Prop} [Decidable p] (ht : s.CountsOnly t) (hu : s.CountsOnly u) : s.CountsOnly (if p then t else u) := by
  split <;> assumption

theorem regs (h : s.CountsOnly t) (j : Nat) : (t.ctx j).g = (s.ctx j).g ∧ (t.ctx j).pc = (s.ctx j).pc ∧ (t.ctx j).m = (s.ctx j).m := by
  rw [h j]
  exact ⟨rfl, rfl, rfl⟩

end State.CountsOnly

theorem SameMemory.countsOnly {s t : State} (h : SameMemory s t) : s.CountsOnly t := .of_ctxs (by rw [h])

theorem putBytes_counts (s : State) (ws : List (Loc × Byte)) : s.CountsOnly (s.putBytes ws) := .of_ctxs (by rw [putBytes_frame])

theorem countMiss_counts (s : State) (c : Nat) (want : List (Nat × BitVec 8)) : s.CountsOnly (s.countMiss c want) := fun j => by
  rw [State.countMiss, State.count, State.modCtx_ctx]
  split
  case isTrue h => subst h; rfl
  case isFalse => rfl

theorem coreWrite_counts (s : State) (c : Nat) (ps : List Piece) (data : List Byte) : s.CountsOnly (s.coreWrite c ps data) := by
  obtain ⟨u, h, h'⟩ := coreWrite_spec s c ps data
  exact (((countMiss_counts _ _ _).trans h.countsOnly).trans (putBytes_counts _ _)).trans h'.countsOnly

theorem coreRead_counts (s : State) (c : Nat) (ps : List Piece) : s.CountsOnly (s.coreRead c ps) := by
  rcases coreRead_spec s c ps with h | h
  · exact (countMiss_counts _ _ _).trans h.countsOnly
  · exact ((countMiss_counts _ _ _).trans (.of_ctxs rfl)).trans h.countsOnly

theorem perform_counts (s : State) (who : Option Nat) (ws : List (Loc × Byte)) : s.CountsOnly (s.perform who ws) :=
  (putBytes_counts s ws).trans (perform_spec s who ws).countsOnly

theorem modRegion_counts (s : State) (r : Nat) (f : Region → Region) : s.CountsOnly (s.modRegion r f) := .of_ctxs rfl

theorem dlogAppend_counts (s : State) (r n : Nat) : s.CountsOnly (s.dlogAppend r n) := by
  unfold State.dlogAppend
  exact .ite (.refl s) (.ite (perform_counts _ _ _) (((perform_counts _ _ _).trans (perform_counts _ _ _)).trans (modRegion_counts _ _ _)))

theorem setLogged_counts (s : State) (w : Who) (id : Nat) : s.CountsOnly (s.setLogged w id) := by
  unfold State.setLogged
  cases w.eng with
  | none => exact .of_ctxs rfl
  | some g => cases g <;> exact .of_ctxs rfl

theorem dlogPiece_counts (s : State) (w : Who) (p : Piece) : s.CountsOnly (s.dlogPiece w p) := by
  unfold State.dlogPiece
  exact .ite (.refl s) (.ite (.refl s) (.ite ((dlogAppend_counts _ _ _).trans (setLogged_counts _ _ _)) (dlogAppend_counts _ _ _)))

theorem dlogPieces_counts (s : State) (w : Who) (ps : List Piece) : s.CountsOnly (s.dlogPieces w ps) := by
  induction ps generalizing s with
  | nil => exact .refl s
  | cons p ps ih => exact (dlogPiece_counts s w p).trans (ih _)

theorem dropWrite_counts (s : State) (l : Loc) : s.CountsOnly (s.dropWrite l) := by cases l <;> exact .of_ctxs rfl

theorem tileWrite_counts (s : State) (e : TEntry) (data : List Byte) : s.CountsOnly (s.tileWrite e data) := by
  unfold State.tileWrite
  split
  · exact dropWrite_counts _ _
  · exact (dlogPieces_counts _ _ _).trans (coreWrite_counts _ _ _ _)

theorem tileRead_counts (s : State) (e : TEntry) : s.CountsOnly (s.tileRead e).1 := by
  unfold State.tileRead
  dsimp only
  split
  · exact coreRead_counts _ _ _
  · split
    · exact .refl s
    · exact (coreRead_counts _ _ _).trans (.of_ctxs rfl)

/-! What the tile unit leaves of the registers that issue reads. -/

/-- The general registers, mask registers and pcs in t are those in s. -/
def State.RegsKept (s t : State) : Prop := ∀ j, (t.ctx j).g = (s.ctx j).g ∧ (t.ctx j).pc = (s.ctx j).pc ∧ (t.ctx j).m = (s.ctx j).m

theorem State.RegsKept.of_ctxs {s t : State} (h : t.ctxs = s.ctxs) : s.RegsKept t := (State.CountsOnly.of_ctxs h).regs

theorem State.RegsKept.trans {s t u : State} (h : s.RegsKept t) (h' : t.RegsKept u) : s.RegsKept u := fun j => by
  obtain ⟨hg, hpc, hm⟩ := h j
  obtain ⟨hg', hpc', hm'⟩ := h' j
  exact ⟨hg'.trans hg, hpc'.trans hpc, hm'.trans hm⟩

theorem State.RegsKept.ite {p : Prop} [Decidable p] {s t u : State} (ht : s.RegsKept t) (hu : s.RegsKept u) :
    s.RegsKept (if p then t else u) := by split <;> assumption

/-- The writes of a TSLV to the registers. -/
def TEntry.slvWrite (e : TEntry) (x : BitVec 131072) (v s0 n : Nat) (col : Bool) (y : Ctx) : Ctx :=
  (List.range (64 * n)).foldl (fun y i =>
    y.setElem e.lenLog v 32 i (cellOf x (if col then 64 * (i % 64) + (s0 + i / 64) else 64 * (s0 + i / 64) + i % 64))) y

theorem tileDo_regs (s : State) (e : TEntry) : s.RegsKept (s.tileDo e) := by
  have hset : ∀ (u : State) (k : Nat) (f : Core → Core), u.RegsKept (u.modCore k f) := fun u k f => .of_ctxs rfl
  have hcore : ∀ (u : State) (k : Nat) (c : Core), u.RegsKept (u.setCore k c) := fun u k c => .of_ctxs rfl
  have hwrite : ∀ (u : State) (d : List Byte), u.RegsKept (u.tileWrite e d) := fun u d => (tileWrite_counts u e d).regs
  have hread : ∀ u : State, u.RegsKept (u.tileRead e).1 := fun u => (tileRead_counts u e).regs
  unfold State.tileDo
  dsimp only
  refine State.RegsKept.trans (t := if ((s.core (coreOf e.ctx)).found e).2 then s.setCore (coreOf e.ctx)
    ((s.core (coreOf e.ctx)).found e).1 else s) (.ite (hcore _ _ _) (.of_ctxs rfl)) ?_
  generalize (if ((s.core (coreOf e.ctx)).found e).2 then s.setCore (coreOf e.ctx) ((s.core (coreOf e.ctx)).found e).1 else s) = u
  cases e.op with
  | mop comp ac qa qb rows cols km zero neg => exact .ite (.of_ctxs rfl) (.ite (hset _ _ _) (hcore _ _ _))
  | zero ac clrf => exact .ite (.of_ctxs rfl) (hcore _ _ _)
  | load q tr band => exact .ite (((hread _).trans (hset _ _ _)).trans (hset _ _ _)) ((hread _).trans (hset _ _ _))
  | store ac zero => exact .ite (hset _ _ _) ((hwrite _ _).trans (hset _ _ _))
  | slv ac v s0 n col =>
    refine .ite (hset _ _ _) fun j => ?_
    rw [State.modCtx_ctx]
    split
    case isTrue h =>
      subst h
      rw [setElems_only]
      exact ⟨rfl, rfl, rfl⟩
    case isFalse => exact ⟨rfl, rfl, rfl⟩
  | vsl ac s0 n col cells => exact .ite (.of_ctxs rfl) (hcore _ _ _)
  | save t =>
    cases t with
    | acc ac => exact hwrite _ _
    | panel q => exact .ite ((hwrite _ _).trans (hset _ _ _)) (hwrite _ _)
  | rstr t => exact .ite (((hread _).trans (hset _ _ _)).trans (hset _ _ _)) ((hread _).trans (hset _ _ _))

/-! The steps. -/

/-- Nothing holds the execution of an instruction back (R226, R286, R298, R305). -/
def TEntry.Free (e : TEntry) (s : State) : Prop :=
  e.started = false ∧ (e.pieces = [] ∨ ∀ b ∈ (s.ctx e.ctx).sb, e.seq ≤ b.seq) ∧ s.engineOwns (pieceLocs e.pieces) = false ∧
    (e.op.stores = true → s.heldBack (some e.ctx) (s.dlogLocs e.who e.pieces ++ pieceLocs e.pieces) = false)

/-- The state after TILE_EXECUTE of entry e, the oldest of core k before `rest`. -/
def State.tileRan (s : State) (k : CoreId) (e : TEntry) (rest : List TEntry) : State :=
  (s.tileDo e).modCore k.val (fun c => { c with tq := { e with started := true } :: rest })

section
variable {s : State} {k : CoreId} {e : TEntry} {rest : List TEntry} (htq : (s.core k.val).tq = e :: rest) (hk : coreOf e.ctx = k.val)
include htq

theorem exec_tileExecute (hfree : e.Free s) : exec (.tileExecute k) s = .next (s.tileRan k e rest) := by
  obtain ⟨hstarted, hearlier, howns, hheld⟩ := hfree
  have hsb : (!e.pieces.isEmpty && (s.ctx e.ctx).sb.any (fun b => decide (b.seq < e.seq))) = false := by
    rcases hearlier with h | h
    · simp [h]
    · rw [Bool.and_eq_false_iff]
      exact .inr (List.any_eq_false.2 fun b hb => by simpa using h b hb)
  have hback : (e.op.stores && s.heldBack (some e.ctx) (s.dlogLocs e.who e.pieces ++ pieceLocs e.pieces)) = false := by
    cases h : e.op.stores
    · rfl
    · exact hheld h
  change execTileExecute k s = _
  unfold execTileExecute
  rw [htq]
  dsimp only
  rw [hstarted, hsb, howns, hback]
  rfl

omit htq in
theorem tileRan_tq : ((s.tileRan k e rest).core k.val).tq = { e with started := true } :: rest := by
  rw [State.tileRan, State.modCore_core_same]

include hk

theorem exec_tileComplete (hstarted : e.started = true) : ∃ t, exec (.tileComplete k) s = .next t ∧ (∀ l, t.reads l = s.reads l) ∧
    (∀ j, j ≠ e.ctx → t.ctx j = s.ctx j) ∧
    t.ctx e.ctx = { s.ctx e.ctx with
      cntT := (s.ctx e.ctx).cntT - 1, iret := (s.ctx e.ctx).iret + 1, trapRun := 0, pmcnt := (t.ctx e.ctx).pmcnt } ∧
    ∀ j, t.core j = if j = k.val then { s.core k.val with tq := rest, tlb2 := (t.core j).tlb2 } else s.core j := by
  obtain ⟨f, hpins, hf⟩ : ∃ f : Core → Core, s.pinPieces e.who false e.pieces = s.modCore k.val f ∧
      ∀ c, f c = { c with tlb2 := (f c).tlb2 } :=
    ⟨fun c => { c with tlb2 := (pieceEnts e.pieces).foldl pinOff c.tlb2 }, by rw [← hk]; rfl, fun _ => rfl⟩
  have hexec : exec (.tileComplete k) s = .next ((((s.modCore k.val f).modCore k.val (fun c => { c with tq := rest })).modCtx
      e.ctx (fun x => { x with cntT := x.cntT - 1, iret := x.iret + 1, trapRun := 0 })).count e.ctx 0x0A 1) := by
    change execTileComplete k s = _
    unfold execTileComplete
    rw [htq]
    dsimp only
    rw [hstarted, hpins]
    rfl
  have hmem : ∀ (u : State) (c : Nat) (g : Ctx → Ctx) (l : Loc), (u.modCtx c g).byteAt l = u.byteAt l := fun u c g l =>
    byteAt_congr rfl rfl rfl rfl l
  refine ⟨_, hexec, fun l => ?_, fun j hj => ?_, ?_, fun j => ?_⟩
  · rw [State.reads, State.count, hmem, hmem]
    exact ((modCore_spec s k.val f).trans (modCore_spec _ _ _)).byteAt l
  · rw [State.count, State.modCtx_ctx_other _ _ _ _ hj, State.modCtx_ctx_other _ _ _ _ hj]
    rfl
  · rw [State.count, State.modCtx_ctx_same, State.modCtx_ctx_same]
    rfl
  · rw [State.count, State.modCtx_core, State.modCtx_core, State.modCore_core, State.modCore_core_same]
    split
    case isTrue => rw [hf]
    case isFalse h => exact State.modCore_core_other _ _ _ _ h

omit hk in
/-- A free instruction runs: it keeps the registers that issue reads, and the rest is what `tileDo` does. -/
theorem runs_of_tileDo (hfree : e.Free s) {y : State → Prop} (h : y (s.tileRan k e rest)) :
    ∃ t, exec (.tileExecute k) s = .next t ∧ (t.core k.val).tq = { e with started := true } :: rest ∧
      (∀ j, (t.ctx j).g = (s.ctx j).g ∧ (t.ctx j).pc = (s.ctx j).pc ∧ (t.ctx j).m = (s.ctx j).m) ∧ y t :=
  ⟨_, exec_tileExecute htq hfree, tileRan_tq, (tileDo_regs s e).trans (.of_ctxs rfl), h⟩

end

/-! What is found in the tile state before an instruction (R223). -/

theorem found_of_poison {c : Core} {e : TEntry} {ac : AccReg} (hacc : e.op.acc = some ac) (hheeds : e.op.heedsPoison = true)
    (hpoison : (c.tstat.get ac).poison = true) : c.found e = (c, false) := by
  unfold Core.found
  rw [hacc]
  dsimp only
  rw [hheeds, hpoison]
  rfl

theorem found_of_sound {c : Core} (hacc : c.badAcc = 0) (hpanel : c.badPanel = 0) (hband : c.badBand = 0) (hcheck : c.badCheck = 0)
    (e : TEntry) : c.found e = (c, false) := by
  have hsource : c.badSource e = false := by
    unfold Core.badSource
    split
    · simp [hpanel, hband]
    · rfl
  unfold Core.found
  split
  · rfl
  · dsimp only
    rw [hacc, hcheck, hsource]
    simp

theorem found_of_free {c : Core} {e : TEntry} (h : e.op.acc = none) : c.found e = (c, false) := by
  unfold Core.found
  rw [h]

end Sys2Proof.Machine
end

section
/-! PROOF. TZERO, TMOP, TMOPS, TVSL and TSLV (R223, R229, R231), for O45. -/

namespace Sys2Proof.Machine

/-- Nothing wrong lies in the tile state of a core (R223). -/
def Core.Sound (c : Core) : Prop := c.badAcc = 0 ∧ c.badPanel = 0 ∧ c.badBand = 0 ∧ c.badCheck = 0

theorem Core.Sound.found {c : Core} (h : c.Sound) (e : TEntry) : c.found e = (c, false) := by
  obtain ⟨hacc, hpanel, hband, hcheck⟩ := h
  exact found_of_sound hacc hpanel hband hcheck e

/-- What TSTA leaves in the tile state of its core (R234). -/
def Core.stored (c : Core) (ac : AccReg) (zero : Bool) (f : FFlags) : Core :=
  let c := c.setTstat ac ((c.tstat.get ac).add f)
  if zero then c.setAcc ac 0 else c

/-! What each instruction does where nothing wrong is found. -/

section
variable {s : State} {e : TEntry} {k : Nat} (hk : coreOf e.ctx = k) (hfound : (s.core k).found e = (s.core k, false))
include hk hfound

theorem tileDo_zero {ac : AccReg} {clrf : Bool} (hop : e.op = .zero ac clrf) : s.tileDo e = s.setCore k
    { s.core k with
      acc := (s.core k).acc.set ac.val 0 ac.isLt
      tstat := if clrf then (s.core k).tstat.set ac.val ⟨false, false, false, false, false⟩ ac.isLt else (s.core k).tstat } := by
  subst hk
  simp only [State.tileDo, hop, hfound, Bool.false_eq_true, if_false]
  cases clrf <;> rfl

theorem tileDo_mop {comp : Bool} {ac : AccReg} {qa qb : PanelReg} {rows cols : BitVec 64} {km : BitVec 256} {zero neg : Bool}
    (hop : e.op = .mop comp ac qa qb rows cols km zero neg) (hp : ((s.core k).tstat.get ac).poison = false) :
    s.tileDo e = s.setCore k ((s.core k).mop e comp ac qa qb rows cols km zero neg) := by
  subst hk
  simp only [State.tileDo, hop, hfound, hp, Bool.false_eq_true, if_false]

theorem tileDo_vsl {ac : AccReg} {s0 n : Nat} {col : Bool} {cells : List (BitVec 32)} (hop : e.op = .vsl ac s0 n col cells) :
    s.tileDo e = s.setCore k ((s.core k).setAcc ac (setCells ((s.core k).acc.get ac) ((List.range (64 * n)).map (fun i =>
      (if col then 64 * (i % 64) + (s0 + i / 64) else 64 * (s0 + i / 64) + i % 64, (cells.getD i 0).toNat))))) := by
  subst hk
  simp only [State.tileDo, hop, hfound, Bool.false_eq_true, if_false]

theorem tileDo_slv {ac : AccReg} {v : VReg} {s0 n : Nat} {col : Bool} (hop : e.op = .slv ac v s0 n col)
    (hp : ((s.core k).tstat.get ac).poison = false) :
    s.tileDo e = s.modCtx e.ctx (e.slvWrite ((s.core k).acc.get ac) v.val s0 n col) := by
  subst hk
  simp only [State.tileDo, hop, hfound, hp, Bool.false_eq_true, if_false]
  rfl

theorem tileDo_store {ac : AccReg} {zero : Bool} (hop : e.op = .store ac zero) (hp : ((s.core k).tstat.get ac).poison = false) :
    s.tileDo e = (s.tileWrite e (storeCells e ((s.core k).acc.get ac)).1).modCore k (fun c =>
      c.stored ac zero (storeCells e ((s.core k).acc.get ac)).2) := by
  subst hk
  simp only [State.tileDo, hop, hfound, hp, Bool.false_eq_true, if_false]
  rfl

end

/-- Over a poisoned accumulator the error is recorded, and nothing is performed (R223, case 5). -/
theorem tileDo_poisoned {s : State} {e : TEntry} {k : Nat} (hk : coreOf e.ctx = k) {ac : AccReg}
    (hp : ((s.core k).tstat.get ac).poison = true)
    (hop : (∃ comp qa qb rows cols km zero neg, e.op = .mop comp ac qa qb rows cols km zero neg) ∨
      (∃ zero, e.op = .store ac zero) ∨ ∃ v s0 n col, e.op = .slv ac v s0 n col) :
    s.tileDo e = s.modCore k (·.tileError e.ctx e.pc) := by
  subst hk
  rcases hop with ⟨comp, qa, qb, rows, cols, km, zero, neg, hop⟩ | ⟨zero, hop⟩ | ⟨v, s0, n, col, hop⟩ <;>
  · have hfound := found_of_poison (e := e) (ac := ac) (by rw [hop]; rfl) (by rw [hop]; rfl) hp
    simp only [State.tileDo, hop, hfound, hp, Bool.false_eq_true, if_false]
    rfl

/-! The state after the step. -/

section
variable {s : State} {k : CoreId} {e : TEntry} {rest : List TEntry}

/-- Only accumulators and TSTAT of one core change. -/
theorem tileRan_of_setCore {d : Core} {acc : Vector (BitVec 131072) 8} {tstat : Vector TFlags 8} (h : s.tileDo e = s.setCore k.val d)
    (hd : d = { s.core k.val with acc := acc, tstat := tstat }) :
    s.tileRan k e rest = { s with cores := (s.tileRan k e rest).cores } ∧ ∀ j, (s.tileRan k e rest).core j =
      if j = k.val then { s.core k.val with tq := { e with started := true } :: rest, acc := acc, tstat := tstat } else s.core j := by
  rw [State.tileRan, h]
  refine ⟨rfl, fun j => ?_⟩
  rw [State.modCore_core, State.setCore_core_same, hd]
  split
  · rfl
  · exact State.setCore_core_other _ _ _ _ ‹_›

theorem tileRan_poisoned (hk : coreOf e.ctx = k.val) {ac : AccReg} (hp : ((s.core k.val).tstat.get ac).poison = true)
    (hop : (∃ comp qa qb rows cols km zero neg, e.op = .mop comp ac qa qb rows cols km zero neg) ∨
      (∃ zero, e.op = .store ac zero) ∨ ∃ v s0 n col, e.op = .slv ac v s0 n col) :
    s.tileRan k e rest = { s with cores := (s.tileRan k e rest).cores } ∧ (s.tileRan k e rest).core k.val =
      let y := { s.core k.val with tq := { e with started := true } :: rest }
      if (s.core k.val).errPend then y else { y with errPend := true, errCtx := BitVec.ofNat 2 (e.ctx % 4), errAddr := e.pc } := by
  rw [State.tileRan, tileDo_poisoned hk hp hop]
  refine ⟨rfl, ?_⟩
  rw [State.modCore_core_same, State.modCore_core_same, Core.tileError]
  split <;> rfl

end

/-! Slices (R231). -/

/-- The cell of slice element i of a TSLV or TVSL that begins at slice s0. -/
def sliceCell (s0 : Nat) (col : Bool) (i : Nat) : Nat := if col then 64 * (i % 64) + (s0 + i / 64) else 64 * (s0 + i / 64) + i % 64

theorem sliceCell_inj {s0 n i j : Nat} (col : Bool) (hs : s0 + n ≤ 64) (hi : i < 64 * n) (hj : j < 64 * n)
    (h : sliceCell s0 col i = sliceCell s0 col j) : i = j := by
  unfold sliceCell at h
  cases col
  · rw [if_neg (by decide), if_neg (by decide)] at h
    omega
  · rw [if_pos rfl, if_pos rfl] at h
    omega

theorem sliceCell_eq {s0 r j : Nat} (col : Bool) (hj : j < 64) (hr : s0 ≤ r) :
    sliceCell s0 col (64 * (r - s0) + j) = if col then 64 * j + r else 64 * r + j := by
  have hdiv : (64 * (r - s0) + j) / 64 = r - s0 := by omega
  have hmod : (64 * (r - s0) + j) % 64 = j := by omega
  rw [sliceCell, hdiv, hmod, Nat.add_sub_cancel' hr]

/-- The accumulator after a TVSL. -/
theorem cell_vsl (x : BitVec 131072) {s0 n r j : Nat} (col : Bool) (cells : List (BitVec 32)) (hs : s0 + n ≤ 64)
    (hlen : cells.length = 64 * n) (hr : r < 64) (hj : j < 64) :
    let cell := (setCells x ((List.range (64 * n)).map (fun i => (sliceCell s0 col i, (cells.getD i 0).toNat)))).extractLsb'
      (32 * (if col then 64 * j + r else 64 * r + j)) 32
    (s0 ≤ r ∧ r < s0 + n → cells[64 * (r - s0) + j]? = some cell) ∧
      (¬ (s0 ≤ r ∧ r < s0 + n) → cell = x.extractLsb' (32 * (if col then 64 * j + r else 64 * r + j)) 32) := by
  intro cell
  have hplaces : ((List.range (64 * n)).map (fun i => (sliceCell s0 col i, (cells.getD i 0).toNat))).map (·.1) =
      (List.range (64 * n)).map (sliceCell s0 col) := by rw [List.map_map]; rfl
  have hbound : (if col then 64 * j + r else 64 * r + j) < 4096 := by split <;> omega
  refine ⟨fun ⟨hlo, hhi⟩ => ?_, fun hout => ?_⟩
  · have hi : 64 * (r - s0) + j < 64 * n := by omega
    have hnodup : (((List.range (64 * n)).map (fun i => (sliceCell s0 col i, (cells.getD i 0).toNat))).map (·.1)).Nodup := by
      rw [hplaces]
      exact List.nodup_range.map_on fun i hi j hj h => sliceCell_inj col hs (List.mem_range.1 hi) (List.mem_range.1 hj) h
    have hcell := cell_setCells x _ _ (cells.getD (64 * (r - s0) + j) 0).toNat hbound hnodup
      (List.mem_map.2 ⟨_, List.mem_range.2 hi, by rw [sliceCell_eq col hj hlo]⟩)
    rw [show cell = _ from hcell, BitVec.ofNat_toNat, BitVec.setWidth_eq, List.getD_eq_getElem?_getD,
      List.getElem?_eq_getElem (by omega)]
    rfl
  · refine cell_setCells_other x _ _ hbound fun hmem => hout ?_
    rw [hplaces, List.mem_map] at hmem
    obtain ⟨i, hi, h⟩ := hmem
    have hi := List.mem_range.1 hi
    unfold sliceCell at h
    cases col
    · rw [if_neg (by decide), if_neg (by decide)] at h
      omega
    · rw [if_pos rfl, if_pos rfl] at h
      have hj' : i % 64 = j := by omega
      omega

/-- The registers after a TSLV. -/
theorem slvWrite_spec (e : TEntry) (x : BitVec 131072) (v : VReg) {s0 n : Nat} (col : Bool) (y : Ctx) (hlow : 5 ≤ e.lenLog)
    (hlen : e.lenLog ≤ 14) (hfit : v.val * 2 ^ e.lenLog + 2048 * n ≤ 32 * 2 ^ e.lenLog) :
    let L := 2 ^ e.lenLog
    let z := e.slvWrite x v.val s0 n col y
    z = { y with v := z.v } ∧
    (∀ r < n, ∀ j < 64, ∀ b < 32, z.groupBit L v.val (32 * (64 * r + j) + b) =
      x.getLsbD (32 * (if col then 64 * j + (s0 + r) else 64 * (s0 + r) + j) + b)) ∧
    (∀ b, 2048 * n ≤ b → b < (32 - v.val) * L → z.groupBit L v.val b = y.groupBit L v.val b) ∧
    ∀ r : VReg, r < v → z.v.get r = y.v.get r := by
  intro L z
  have hroom : 32 * (64 * n) ≤ (32 - v.val) * 2 ^ e.lenLog := by rw [Nat.sub_mul]; omega
  have hbit := fun b hb => groupBit_setElems y e.lenLog v.val (64 * n) (fun i => cellOf x (sliceCell s0 col i)) b hlow hlen hroom hb
  refine ⟨setElems_only .., fun r hr j hj b hb => ?_, fun b hlo hhi => ?_, fun r hr => setElems_below y _ _ _ _ r hr hroom⟩
  · refine (hbit _ (by omega)).trans ?_
    have hi : (32 * (64 * r + j) + b) / 32 = 64 * (s0 + r - s0) + j := by omega
    have hmod : (32 * (64 * r + j) + b) % 32 = b := by omega
    rw [if_pos (by omega), hi, hmod, sliceCell_eq col hj (by omega), cellOf, BitVec.testBit_toNat, BitVec.getLsbD_extractLsb',
      decide_eq_true hb, Bool.true_and]
  · exact (hbit b hhi).trans (if_neg (by omega))

end Sys2Proof.Machine
end

section
/-! PROOF. The tile instructions that load: TLDQ, TLDQT, TMCAST and TRSTR (R223, R226, R232, R233, R236), for O45. -/

namespace Sys2Proof.Machine

/-! The read of a tile load. -/

theorem coreRead_reads (s : State) (c : Nat) (ps : List Piece) {l : Loc} (hl : l.exists_) : (s.coreRead c ps).reads l = s.reads l := by
  have hfresh : ∀ (u : State) (n : Nat), ({ u with fresh := n } : State).byteAt l = u.byteAt l := fun u n => by
    cases l with
    | hbm pa => rfl
    | spad k o => rfl
    | fabric a => exact hl.elim
  have hmiss : (s.countMiss c (cachedLines ps)).byteAt l = s.byteAt l := byteAt_congr rfl rfl rfl rfl l
  rcases coreRead_spec s c ps with h | h
  · exact (h.byteAt l).trans hmiss
  · exact ((h.byteAt l).trans (hfresh _ _)).trans hmiss

theorem coreRead_casts (s : State) (c : Nat) (ps : List Piece) : (s.coreRead c ps).casts = s.casts := by
  rcases coreRead_spec s c ps with h | h <;> rw [h] <;> rfl

section
variable {s : State} {e : TEntry} {k : Nat} (hk : coreOf e.ctx = k)
include hk

/-- The bytes and flags of a read whose places are all good. -/
theorem tileRead_bytes (hgood : ∀ l ∈ pieceLocs e.pieces, s.closed (regionOf e.ctx) l = false ∧ s.poisonAt (some k) l 1 = none) :
    (pieceLocs e.pieces).map (fun l =>
      (s.byteAt l, s.closed (regionOf e.ctx) l || (s.poisonAt (some (coreOf e.ctx)) l 1).isSome)) =
      (pieceLocs e.pieces).map (fun l => (s.reads l, false)) :=
  List.map_congr_left fun l hl => by
    rw [hk, (hgood l hl).1, (hgood l hl).2]
    rfl

/-- A read of the instruction's own. -/
theorem tileRead_own (hcast : e.cast = none)
    (hgood : ∀ l ∈ pieceLocs e.pieces, s.closed (regionOf e.ctx) l = false ∧ s.poisonAt (some k) l 1 = none) :
    (s.tileRead e).2 = (pieceLocs e.pieces).map (fun l => (s.reads l, false)) := by
  rw [← tileRead_bytes hk hgood]
  unfold State.tileRead
  rw [hcast]

omit hk in
/-- A combined read that has its bytes already (R233). -/
theorem tileRead_shared {i : Nat} {d : List (Byte × Bool)} (hcast : e.cast = some i)
    (hd : (s.casts.find? (·.id == i)).bind (·.data) = some d) : s.tileRead e = (s, d) := by
  unfold State.tileRead
  rw [hcast]
  dsimp only
  rw [hd]

/-- A combined read that fetches its bytes (R233). -/
theorem tileRead_fetched {i : Nat} (hcast : e.cast = some i) (hd : (s.casts.find? (·.id == i)).bind (·.data) = none)
    (hgood : ∀ l ∈ pieceLocs e.pieces, s.closed (regionOf e.ctx) l = false ∧ s.poisonAt (some k) l 1 = none) :
    (s.tileRead e).2 = (pieceLocs e.pieces).map (fun l => (s.reads l, false)) ∧
    (s.tileRead e).1.casts = s.casts.map (fun r => if r.id = i then
      { r with data := some ((pieceLocs e.pieces).map (fun l => (s.reads l, false))), from_ := e.pieces } else r) := by
  rw [← tileRead_bytes hk hgood]
  unfold State.tileRead
  rw [hcast]
  dsimp only
  rw [hd]
  exact ⟨rfl, by rw [coreRead_casts]⟩

end

theorem tileRead_caches (s : State) (e : TEntry) : s.CachesOnly (s.tileRead e).1 := by
  unfold State.tileRead
  dsimp only
  split
  · exact coreRead_caches _ _ _
  · split
    · exact .refl s
    · exact (coreRead_caches _ _ _).trans (.of_cores rfl)

theorem tileRead_reads (s : State) (e : TEntry) {l : Loc} (hl : l.exists_) : (s.tileRead e).1.reads l = s.reads l := by
  unfold State.tileRead
  dsimp only
  split
  · exact coreRead_reads _ _ _ hl
  · split
    · rfl
    · exact (byteAt_congr rfl rfl rfl rfl l).trans (coreRead_reads _ _ _ hl)

/-! The step of a load. -/

/-- What a load puts into the tile state of its core. -/
def Core.loaded (c : Core) (w : Nat) (data : List Byte) : TOp → Core
  | .load q tr true => { (c.setBand q (bandOfBytes tr data)) with badBand := c.badBand &&& ~~~(1#16 <<< q.val) }
  | .load q tr false => { (c.setPanel q (panelOfBytes tr w data)) with badPanel := c.badPanel &&& ~~~(1#16 <<< q.val) }
  | .rstr (.acc ac) => { ((c.setAcc ac (BitVec.ofNat 131072 (leNat (data.take 16384)))).setTstat ac
      (TFlags.ofByte (data.getD 16384 0).toNat)) with badAcc := c.badAcc &&& ~~~(1#8 <<< ac.val) }
  | .rstr (.panel q) => { ((c.setPanel q (BitVec.ofNat 65536 (leNat (data.take 8192)))).setBand q
      (BitVec.ofNat 4096 (leNat (data.drop 8192)))) with
        badPanel := c.badPanel &&& ~~~(1#16 <<< q.val), badBand := c.badBand &&& ~~~(1#16 <<< q.val) }
  | _ => c

/-- Whether an instruction loads. -/
def TOp.loads : TOp → Bool | .load .. => true | .rstr _ => true | _ => false

theorem tileDo_load {s : State} {e : TEntry} {k : Nat} (hk : coreOf e.ctx = k) (hop : e.op.loads = true) {d : List (Byte × Bool)}
    (hread : (s.tileRead e).2 = d) (hd : ∀ b ∈ d, b.2 = false) :
    s.tileDo e = (s.tileRead e).1.modCore k (fun c => c.loaded (faOf e.fw).width (d.map (·.1)) e.op) := by
  have hbad : d.any (·.2) = false := List.any_eq_false.2 fun b hb => by simp [hd b hb]
  have hdata : d.map (fun b => if b.2 then (0 : Byte) else b.1) = d.map (·.1) := List.map_congr_left fun b hb => by simp [hd b hb]
  have hflag : (d.getD 16384 (0, false)).2 = false := by
    rw [List.getD_eq_getElem?_getD]
    cases h : d[16384]? with
    | none => rfl
    | some b => exact hd b (List.mem_of_getElem? h)
  subst hk
  cases hcase : e.op with
  | load q tr band =>
    have hfound := found_of_free (c := s.core (coreOf e.ctx)) (e := e) (by rw [hcase]; rfl)
    simp only [State.tileDo, hcase, hfound, hread, hbad, hdata, Bool.false_eq_true, if_false]
    cases band <;> rfl
  | rstr t =>
    have hfound := found_of_free (c := s.core (coreOf e.ctx)) (e := e) (by rw [hcase]; rfl)
    simp only [State.tileDo, hcase, hfound, hread, hbad, hdata, hflag, Bool.false_eq_true, if_false]
    cases t <;> rfl
  | _ => rw [hcase] at hop; cases hop

/-- The tile state of core d is that of core c. -/
def Core.TileSame (c d : Core) : Prop := d.acc = c.acc ∧ d.panel = c.panel ∧ d.band = c.band ∧ d.tstat = c.tstat

theorem Core.CachesOnly.loaded {c d : Core} (h : c.CachesOnly d) (w : Nat) (data : List Byte) (op : TOp) :
    (c.loaded w data op).TileSame (d.loaded w data op) := by
  rw [h]
  cases op with
  | load q tr band => cases band <;> exact ⟨rfl, rfl, rfl, rfl⟩
  | rstr t => cases t <;> exact ⟨rfl, rfl, rfl, rfl⟩
  | _ => exact ⟨rfl, rfl, rfl, rfl⟩

theorem tileRan_load {s : State} {e : TEntry} {k : CoreId} (rest : List TEntry) (hk : coreOf e.ctx = k.val) (hop : e.op.loads = true)
    {d : List (Byte × Bool)} (hread : (s.tileRead e).2 = d) (hd : ∀ b ∈ d, b.2 = false) :
    let t := s.tileRan k e rest
    (∀ l : Loc, l.exists_ → t.reads l = s.reads l) ∧ (∀ j, t.ctx j = { s.ctx j with pmcnt := (t.ctx j).pmcnt }) ∧
      t.casts = (s.tileRead e).1.casts ∧ ((s.core k.val).loaded (faOf e.fw).width (d.map (·.1)) e.op).TileSame (t.core k.val) := by
  intro t
  have ht : t = ((s.tileRead e).1.modCore k.val (fun c => c.loaded (faOf e.fw).width (d.map (·.1)) e.op)).modCore k.val
      (fun c => { c with tq := { e with started := true } :: rest }) := by
    rw [← tileDo_load hk hop hread hd]
    rfl
  rw [ht]
  refine ⟨fun l hl => ?_, fun j => ?_, rfl, ?_⟩
  · exact (((modCore_spec _ _ _).trans (modCore_spec _ _ _)).byteAt l).trans (tileRead_reads s e hl)
  · exact ((tileRead_counts s e).trans (.of_ctxs rfl)) j
  · rw [State.modCore_core_same, State.modCore_core_same]
    exact (tileRead_caches s e k.val).loaded _ _ _

/-! Bytes in panels and bands (R215, R232). -/

theorem getD_map_reads {locs : List Loc} (f : Loc → Byte) {i : Nat} {l : Loc} (h : locs[i]? = some l) : (locs.map f).getD i 0 = f l := by
  rw [List.getD_eq_getElem?_getD, List.getElem?_map, h]
  rfl

theorem extract_panelOfBytes (w : Nat) (data : List Byte) {i : Nat} (hi : i < 8192) :
    (panelOfBytes false w data).extractLsb' (8 * i) 8 = data.getD i 0 := extract_leNat data i (by omega)

theorem extract_bandOfBytes (data : List Byte) {i : Nat} (hi : i < 512) :
    (bandOfBytes false data).extractLsb' (8 * i) 8 = data.getD i 0 := extract_leNat data i (by omega)

theorem extract_bandOfBytes_trans (data : List Byte) {b j : Nat} (hb : b < 8) (hj : j < 64) :
    (bandOfBytes true data).extractLsb' (8 * (64 * b + j)) 8 = data.getD (8 * j + b) 0 := by
  have hdiv : (64 * b + j) / 64 = b := by omega
  have hmod : (64 * b + j) % 64 = j := by omega
  refine (extract_leNat _ _ (by omega)).trans ?_
  rw [List.getD_eq_getElem?_getD, List.getElem?_map, List.getElem?_range (by omega), Option.map_some, Option.getD_some, hdiv, hmod,
    Nat.mul_comm j]

theorem testBit_leNat (l : List Byte) (i : Nat) : (leNat l).testBit i = (l.getD (i / 8) 0).getLsbD (i % 8) := by
  have hget : (l.map (·.toNat)).getD (i / 8) 0 = (l.getD (i / 8) 0).toNat := by
    rw [List.getD_eq_getElem?_getD, List.getD_eq_getElem?_getD, List.getElem?_map]
    cases l[i / 8]? <;> rfl
  have hbit := testBit_packNat (l.map (·.toNat)) (i / 8) (Nat.mod_lt i (by decide : 0 < 8))
  rwa [Nat.div_add_mod, ← leNat_eq_packNat, hget, BitVec.testBit_toNat] at hbit

/-- Element (kk, m) of a transposed panel comes from row m of the bytes (R232). -/
theorem getLsbD_panelOfBytes_trans (w : Nat) (data : List Byte) {kk m j : Nat} (hkk : kk < 1024 / w) (hm : m < 64) (hj : j < w) :
    (panelOfBytes true w data).getLsbD (w * (64 * kk + m) + j) =
      (data.getD (128 * m + (w * kk + j) / 8) 0).getLsbD ((w * kk + j) % 8) := by
  have hdepth : w * kk + w ≤ 1024 := (Nat.mul_succ w kk ▸ Nat.mul_le_mul_left w hkk).trans (Nat.mul_div_le 1024 w)
  have hplace : w * (64 * kk + m) + w ≤ 64 * (w * kk + w) := by
    have h := Nat.mul_le_mul_left w (show 64 * kk + m + 1 ≤ 64 * (kk + 1) by omega)
    rw [Nat.mul_add w (64 * kk + m), Nat.mul_one] at h
    exact h.trans_eq (by ring)
  have hdiv : (64 * kk + m) / 64 = kk := by omega
  have hmod : (64 * kk + m) % 64 = m := by omega
  have hindex : 64 * kk + m < 64 * panelDepth w := by
    change 64 * kk + m < 64 * (1024 / w)
    omega
  have hrow : ((List.range 64).map (fun m => leNat ((data.drop (128 * m)).take 128))).getD m 0 = leNat ((data.drop (128 * m)).take 128) := by
    rw [List.getD_eq_getElem?_getD, List.getElem?_map, List.getElem?_range hm]
    rfl
  change (BitVec.ofNat 65536 (packNat w _)).getLsbD _ = _
  rw [BitVec.getLsbD_ofNat, decide_eq_true (by omega : w * (64 * kk + m) + j < 65536), Bool.true_and, testBit_packNat _ _ hj,
    List.getD_eq_getElem?_getD, List.getElem?_map, List.getElem?_range hindex, Option.map_some, Option.getD_some, hdiv, hmod, hrow,
    Nat.testBit_div_two_pow, testBit_leNat, Nat.add_comm j, List.getD_eq_getElem?_getD, List.getElem?_take_of_lt (by omega),
    List.getElem?_drop, ← List.getD_eq_getElem?_getD]

theorem TFlags.ofByte_toNat (b : Byte) : TFlags.ofByte b.toNat =
    ⟨b.getLsbD 0, b.getLsbD 1, b.getLsbD 2, b.getLsbD 3, b.getLsbD 4⟩ := by
  have hbit : ∀ i, (b.toNat / 2 ^ i % 2 == 1) = b.getLsbD i := fun i => by
    rw [← BitVec.testBit_toNat, Nat.testBit_eq_decide_div_mod_eq]
    rfl
  rw [← hbit 0, ← hbit 1, ← hbit 2, ← hbit 3, ← hbit 4, Nat.pow_zero, Nat.div_one]
  rfl

end Sys2Proof.Machine
end

section
/-! PROOF. The tile instructions that store: TSTA and TSAVE (R226, R234, R236), for O45. -/

namespace Sys2Proof.Machine

/-! The write of a tile store. -/

theorem dlogPieces_of_clear (s : State) {w : Who} (h : w.dlog = false) (ps : List Piece) : s.dlogPieces w ps = s := by
  induction ps generalizing s with
  | nil => rfl
  | cons p ps ih =>
    have hp : s.dlogPiece w p = s := by
      unfold State.dlogPiece
      rw [h]
      rfl
    rw [State.dlogPieces, hp, ih]

theorem tileWrite_open {s : State} {e : TEntry} (hclosed : s.closedPiece (regionOf e.ctx) e.pieces = none) (hdlog : e.dlog = false)
    (data : List Byte) : s.tileWrite e data = s.coreWrite e.ctx e.pieces data := by
  unfold State.tileWrite
  rw [hclosed]
  dsimp only
  rw [dlogPieces_of_clear s (w := e.who) hdlog]

/-- A write over distinct places that exist and keep what is written. -/
theorem coreWrite_reads (s : State) (c : Nat) (ps : List Piece) (data : List Byte) (hnodup : (pieceLocs ps).Nodup)
    (hlen : data.length = (pieceLocs ps).length)
    (hlocs : ∀ l ∈ pieceLocs ps, l.exists_ ∧ ∀ pa, l = .hbm pa → s.chanDown pa = false) :
    (∀ i, (h : i < (pieceLocs ps).length) → (s.coreWrite c ps data).reads ((pieceLocs ps)[i]'h) =
      s.kept ((pieceLocs ps)[i]'h) (data.getD i 0)) ∧
    ∀ l : Loc, l.exists_ → l ∉ pieceLocs ps → (s.coreWrite c ps data).reads l = s.reads l := by
  obtain ⟨u, hu, ht⟩ := coreWrite_spec s c ps data
  have hmiss : ∀ l, (s.countMiss c (cachedLines ps)).byteAt l = s.byteAt l := fun l => byteAt_congr rfl rfl rfl rfl l
  have hregions : u.regions = s.regions := by rw [hu]; rfl
  have hfst : (pieceWrites ps data).map (·.1) = pieceLocs ps := List.map_fst_zip hlen.ge
  have hmem : ∀ w ∈ pieceWrites ps data, w.1 ∈ pieceLocs ps := fun w hw => hfst ▸ List.mem_map_of_mem hw
  have hkeys : ((pieceWrites ps data).map (fun w => w.1.key)).Nodup := by
    rw [show (fun w : Loc × Byte => w.1.key) = Loc.key ∘ (·.1) from rfl, ← List.map_map, hfst]
    exact hnodup.map_on fun a ha b hb => Loc.key_inj (hlocs a ha).1 (hlocs b hb).1
  have hkeeps : ∀ w ∈ pieceWrites ps data, u.keeps w.1 := fun w hw => by
    obtain ⟨hexists, hup⟩ := hlocs w.1 (hmem w hw)
    cases hl : w.1 with
    | hbm pa => exact (chanDown_congr hregions pa).trans (hup pa hl)
    | spad k o => trivial
    | fabric a => exact (hl ▸ hexists : (Loc.fabric a).exists_).elim
  refine ⟨fun i hi => ?_, fun l hl hout => ?_⟩
  · have hw : ((pieceLocs ps)[i], data.getD i 0) ∈ pieceWrites ps data := by
      refine List.mem_iff_getElem.2 ⟨i, by rw [pieceWrites, List.length_zip]; omega, ?_⟩
      rw [List.getD_eq_getElem?_getD, List.getElem?_eq_getElem (by omega)]
      exact List.getElem_zip
    exact (ht.byteAt _).trans ((putBytes_get u _ hkeys hkeeps _ hw).trans (kept_congr hregions _ _))
  · have hother : ∀ w ∈ pieceWrites ps data, l.key ≠ w.1.key ∨ l.key = none := fun w hw =>
      .inl fun h => hout (Loc.key_inj hl (hlocs _ (hmem w hw)).1 h ▸ hmem w hw)
    exact ((ht.byteAt l).trans (putBytes_other u _ l hother)).trans ((hu.byteAt l).trans (hmiss l))

/-! The step of a store. -/

theorem tileRan_store {s : State} {e : TEntry} {k : CoreId} (rest : List TEntry) {data : List Byte} {f : Core → Core}
    (hmem : SameMemory (s.tileWrite e data) (s.tileDo e)) (hcore : (s.tileDo e).core k.val = f ((s.tileWrite e data).core k.val))
    (hclosed : s.closedPiece (regionOf e.ctx) e.pieces = none) (hdlog : e.dlog = false) (hnodup : (pieceLocs e.pieces).Nodup)
    (hlen : data.length = (pieceLocs e.pieces).length)
    (hlocs : ∀ l ∈ pieceLocs e.pieces, l.exists_ ∧ ∀ pa, l = .hbm pa → s.chanDown pa = false) :
    let t := s.tileRan k e rest
    (∀ i, (h : i < (pieceLocs e.pieces).length) → t.reads ((pieceLocs e.pieces)[i]'h) =
      s.kept ((pieceLocs e.pieces)[i]'h) (data.getD i 0)) ∧
    (∀ l : Loc, l.exists_ → l ∉ pieceLocs e.pieces → t.reads l = s.reads l) ∧
    (∀ j, t.ctx j = { s.ctx j with pmcnt := (t.ctx j).pmcnt }) ∧
    ∃ d, (s.core k.val).CachesOnly d ∧ (f d).TileSame (t.core k.val) := by
  intro t
  rw [tileWrite_open hclosed hdlog] at hmem hcore
  obtain ⟨hin, hout⟩ := coreWrite_reads s e.ctx e.pieces data hnodup hlen hlocs
  have hran : SameMemory (s.coreWrite e.ctx e.pieces data) t := hmem.trans (modCore_spec _ _ _)
  refine ⟨fun i hi => (hran.byteAt _).trans (hin i hi), fun l hl h => (hran.byteAt l).trans (hout l hl h),
    (coreWrite_counts _ _ _ _).trans hran.countsOnly, (s.coreWrite e.ctx e.pieces data).core k.val, coreWrite_caches _ _ _ _ _, ?_⟩
  rw [← hcore]
  change Core.TileSame _ (((s.tileDo e).modCore k.val _).core k.val)
  rw [State.modCore_core_same]
  exact ⟨rfl, rfl, rfl, rfl⟩

/-! The bytes of an image (R236). -/

theorem extract_eq_ofNat {n : Nat} (x : BitVec n) (i : Nat) : x.extractLsb' (8 * i) 8 = BitVec.ofNat 8 (x.toNat / 2 ^ (8 * i)) := by
  rw [BitVec.extractLsb', Nat.shiftRight_eq_div_pow]

theorem getD_leBytes (n x i : Nat) (hi : i < n) : (leBytes n x).getD i 0 = BitVec.ofNat 8 (x / 2 ^ (8 * i)) := by
  rw [List.getD_eq_getElem?_getD, getElem?_leBytes n x i hi]
  rfl

theorem ofNat_tflagsByte (f : TFlags) : BitVec.ofNat 8 f.byte =
    (BitVec.ofBool f.poison ++ (BitVec.ofBool f.nx ++ (BitVec.ofBool f.sat ++ (BitVec.ofBool f.nv ++ BitVec.ofBool f.ovf)))).setWidth 8 := by
  obtain ⟨ovf, nv, sat, nx, poison⟩ := f
  cases ovf <;> cases nv <;> cases sat <;> cases nx <;> cases poison <;> rfl

/-- The image of an accumulator. -/
def accImage (x : BitVec 131072) (f : TFlags) : List Byte :=
  leBytes 16384 x.toNat ++ [BitVec.ofNat 8 f.byte] ++ List.replicate 63 0

theorem length_accImage (x : BitVec 131072) (f : TFlags) : (accImage x f).length = 16448 := by
  rw [accImage, List.length_append, List.length_append, length_leBytes]
  rfl

theorem getD_accImage (x : BitVec 131072) (f : TFlags) (i : Nat) : (accImage x f).getD i 0 =
    if i < 16384 then x.extractLsb' (8 * i) 8
    else if i = 16384 then (BitVec.ofBool f.poison ++ (BitVec.ofBool f.nx ++ (BitVec.ofBool f.sat ++ (BitVec.ofBool f.nv ++
      BitVec.ofBool f.ovf)))).setWidth 8
    else 0 := by
  have hlen := length_leBytes 16384 x.toNat
  rw [accImage, List.append_assoc]
  by_cases hi : i < 16384
  · rw [if_pos hi, List.getD_append _ _ _ _ (by omega), getD_leBytes _ _ _ hi, extract_eq_ofNat]
  · rw [if_neg hi, List.getD_append_right _ _ _ _ (by omega), hlen]
    by_cases hlast : i = 16384
    · subst hlast
      rw [if_pos rfl, ← ofNat_tflagsByte]
      rfl
    · obtain ⟨j, rfl⟩ : ∃ j, i = 16384 + 1 + j := ⟨i - 16385, by omega⟩
      rw [if_neg hlast, Nat.add_assoc, Nat.add_sub_cancel_left, Nat.add_comm 1 j]
      exact List.getD_eq_getElem?_getD.trans (List.getElem?_getD_replicate_default_eq 0 63 j)

/-- The image of a panel. -/
def panelImage (x : BitVec 65536) (b : BitVec 4096) : List Byte := leBytes 8192 x.toNat ++ leBytes 512 b.toNat

theorem length_panelImage (x : BitVec 65536) (b : BitVec 4096) : (panelImage x b).length = 8704 := by
  rw [panelImage, List.length_append, length_leBytes, length_leBytes]

theorem getD_panelImage (x : BitVec 65536) (b : BitVec 4096) {i : Nat} (hi : i < 8704) : (panelImage x b).getD i 0 =
    if i < 8192 then x.extractLsb' (8 * i) 8 else b.extractLsb' (8 * (i - 8192)) 8 := by
  have hlen := length_leBytes 8192 x.toNat
  rw [panelImage]
  by_cases hlow : i < 8192
  · rw [if_pos hlow, List.getD_append _ _ _ _ (by omega), getD_leBytes _ _ _ hlow, extract_eq_ofNat]
  · rw [if_neg hlow, List.getD_append_right _ _ _ _ (by omega), hlen, getD_leBytes _ _ _ (by omega), extract_eq_ofNat]

/-! The bytes and flags of TSTA (R234). -/

/-- Parts of one length laid one after the other. -/
theorem getElem?_flatMap_const {α β : Type} {f : α → List β} {n : Nat} (hf : ∀ x, (f x).length = n) (l : List α) (q : Nat) {r : Nat}
    (hr : r < n) : (l.flatMap f)[n * q + r]? = (l[q]?).bind (fun x => (f x)[r]?) := by
  induction l generalizing q with
  | nil => rfl
  | cons x l ih =>
    cases q with
    | zero =>
      rw [List.flatMap_cons, List.getElem?_append_left (by rw [hf]; omega), Nat.mul_zero, Nat.zero_add]
      rfl
    | succ q =>
      rw [List.flatMap_cons, List.getElem?_append_right (by rw [hf, Nat.mul_succ]; omega), hf, List.getElem?_cons_succ, ← ih q]
      congr 1
      rw [Nat.mul_succ]
      omega

/-- Cell n as TSTA converts it, with the flags. -/
def storedCell (e : TEntry) (rm : RMode) (x : BitVec 131072) (n : Nat) : Nat × FFlags :=
  let v := fmtVal (faOf e.fw) (fwFtz e.fw) 0 (cellOf x n)
  let r := toFmt (fdOf e.fw) ⟨rm, fwSat e.fw, fwFtz e.fw,
    if rm = .sr then (rand e.seed (fwSalt e.fw) e.stripbase n).toNat % 2 ^ 24 else 0⟩ 0 v.exact
  (r.1, r.2 ||| sigFlag v)

theorem storeCells_eq {e : TEntry} {rm : RMode} (hrm : RMode.ofCode (fwRM e.fw) = some rm) (x : BitVec 131072) : storeCells e x =
    (((List.range 4096).map (storedCell e rm x)).flatMap (fun y => leBytes ((fdOf e.fw).width / 8) y.1),
      ((List.range 4096).map (storedCell e rm x)).foldl (fun f y => f ||| y.2) 0) := by
  unfold storeCells
  rw [hrm]
  rfl

theorem length_storeCells {e : TEntry} {rm : RMode} (hrm : RMode.ofCode (fwRM e.fw) = some rm) (x : BitVec 131072) :
    (storeCells e x).1.length = 4096 * ((fdOf e.fw).width / 8) := by
  rw [storeCells_eq hrm, List.length_flatMap]
  simp only [length_leBytes, List.map_const', List.length_map, List.length_range, List.sum_replicate_nat]

theorem getD_storeCells {e : TEntry} {rm : RMode} (hrm : RMode.ofCode (fwRM e.fw) = some rm) (x : BitVec 131072) {i : Nat}
    (hi : i < 4096 * ((fdOf e.fw).width / 8)) : (storeCells e x).1.getD i 0 =
      BitVec.ofNat 8 ((storedCell e rm x (i / ((fdOf e.fw).width / 8))).1 / 2 ^ (8 * (i % ((fdOf e.fw).width / 8)))) := by
  rw [storeCells_eq hrm]
  generalize (fdOf e.fw).width / 8 = nb at hi ⊢
  have hpos : 0 < nb := Nat.pos_of_ne_zero fun h => by simp [h] at hi
  have hcell : i / nb < 4096 := (Nat.div_lt_iff_lt_mul hpos).2 hi
  have hget := getElem?_flatMap_const (f := fun y : Nat × FFlags => leBytes nb y.1) (fun y => length_leBytes nb y.1)
    ((List.range 4096).map (storedCell e rm x)) (i / nb) (Nat.mod_lt i hpos)
  rw [Nat.div_add_mod, List.getElem?_map, List.getElem?_range hcell, Option.map_some, Option.bind_some,
    getElem?_leBytes _ _ _ (Nat.mod_lt i hpos)] at hget
  rw [List.getD_eq_getElem?_getD, hget]
  rfl

theorem getLsbD_storeCells {e : TEntry} {rm : RMode} (hrm : RMode.ofCode (fwRM e.fw) = some rm) (x : BitVec 131072) (j : Nat) :
    (storeCells e x).2.getLsbD j = (List.range 4096).any (fun n => (storedCell e rm x n).2.getLsbD j) := by
  rw [storeCells_eq hrm, Bool.eq_iff_iff, getLsbD_foldl_or, List.any_eq_true]
  simp

/-! TSAVE where nothing wrong is found. -/

theorem tileDo_saveAcc {s : State} {e : TEntry} {k : Nat} (hk : coreOf e.ctx = k) (hsound : (s.core k).Sound) {ac : AccReg}
    (hop : e.op = .save (.acc ac)) : s.tileDo e = s.tileWrite e (accImage ((s.core k).acc.get ac) ((s.core k).tstat.get ac)) := by
  subst hk
  simp only [State.tileDo, hop, hsound.found e, Bool.false_eq_true, if_false]
  rfl

theorem tileDo_savePanel {s : State} {e : TEntry} {k : Nat} (hk : coreOf e.ctx = k) (hsound : (s.core k).Sound) {q : PanelReg}
    (hop : e.op = .save (.panel q)) : s.tileDo e = s.tileWrite e (panelImage ((s.core k).panel.get q) ((s.core k).band.get q)) := by
  subst hk
  have hfound := hsound.found e
  obtain ⟨-, hpanel, hband, -⟩ := hsound
  have hbad : (s.core (coreOf e.ctx)).badPanel.getLsbD q.val = false := by rw [hpanel]; exact BitVec.getLsbD_zero
  have hbadBand : (s.core (coreOf e.ctx)).badBand.getLsbD q.val = false := by rw [hband]; exact BitVec.getLsbD_zero
  simp only [State.tileDo, hop, hfound, hbad, hbadBand, Bool.or_self, Bool.false_eq_true, if_false]
  rfl

end Sys2Proof.Machine
end

section
/-! PROOF. O45, from its parts: instructions without memory, loads, TSLV and stores. -/

namespace Sys2Proof.Machine

/-! What a load leaves in the tile state. -/

theorem get_set_same {α : Type} {n : Nat} (v : Vector α n) (q : Fin n) (x : α) : (v.set q.val x q.isLt).get q = x :=
  Vector.getElem_set_self q.isLt

theorem get_set_other {α : Type} {n : Nat} (v : Vector α n) {q p : Fin n} (x : α) (h : p ≠ q) : (v.set q.val x q.isLt).get p = v.get p :=
  Vector.getElem_set_ne q.isLt p.isLt fun hval => h (Fin.ext hval.symm)

theorem loaded_panel {c d : Core} {q : PanelReg} {tr : Bool} {w : Nat} {data : List Byte}
    (h : (c.loaded w data (.load q tr false)).TileSame d) :
    ((∀ p, p ≠ q → d.panel.get p = c.panel.get p) ∧ d.acc = c.acc ∧ d.band = c.band ∧ d.tstat = c.tstat) ∧
      d.panel.get q = panelOfBytes tr w data := by
  obtain ⟨hacc, hpanel, hband, htstat⟩ := h
  rw [hpanel]
  exact ⟨⟨fun p hp => get_set_other _ _ hp, hacc, hband, htstat⟩, get_set_same _ _ _⟩

theorem loaded_band {c d : Core} {q : PanelReg} {tr : Bool} {w : Nat} {data : List Byte}
    (h : (c.loaded w data (.load q tr true)).TileSame d) :
    ((∀ p, p ≠ q → d.band.get p = c.band.get p) ∧ d.acc = c.acc ∧ d.panel = c.panel ∧ d.tstat = c.tstat) ∧
      d.band.get q = bandOfBytes tr data := by
  obtain ⟨hacc, hpanel, hband, htstat⟩ := h
  rw [hband]
  exact ⟨⟨fun p hp => get_set_other _ _ hp, hacc, hpanel, htstat⟩, get_set_same _ _ _⟩

theorem loaded_accImage {c d : Core} {ac : AccReg} {w : Nat} {data : List Byte} (h : (c.loaded w data (.rstr (.acc ac))).TileSame d) :
    (∀ i < 16384, (d.acc.get ac).extractLsb' (8 * i) 8 = data.getD i 0) ∧
      d.tstat.get ac = TFlags.ofByte (data.getD 16384 0).toNat ∧
      (∀ p, p ≠ ac → d.acc.get p = c.acc.get p ∧ d.tstat.get p = c.tstat.get p) ∧ d.panel = c.panel ∧ d.band = c.band := by
  obtain ⟨hacc, hpanel, hband, htstat⟩ := h
  rw [hacc, htstat]
  refine ⟨fun i hi => ?_, get_set_same _ _ _, fun p hp => ⟨get_set_other _ _ hp, get_set_other _ _ hp⟩, hpanel, hband⟩
  refine (congrArg (BitVec.extractLsb' (8 * i) 8) (get_set_same c.acc ac _)).trans ((extract_leNat _ i (by omega)).trans ?_)
  rw [List.getD_eq_getElem?_getD, List.getD_eq_getElem?_getD, List.getElem?_take_of_lt hi]

theorem loaded_panelImage {c d : Core} {q : PanelReg} {w : Nat} {data : List Byte} (h : (c.loaded w data (.rstr (.panel q))).TileSame d) :
    (∀ i < 8192, (d.panel.get q).extractLsb' (8 * i) 8 = data.getD i 0) ∧
      (∀ i < 512, (d.band.get q).extractLsb' (8 * i) 8 = data.getD (8192 + i) 0) ∧
      (∀ p, p ≠ q → d.panel.get p = c.panel.get p ∧ d.band.get p = c.band.get p) ∧ d.acc = c.acc ∧ d.tstat = c.tstat := by
  obtain ⟨hacc, hpanel, hband, htstat⟩ := h
  rw [hpanel, hband]
  refine ⟨fun i hi => ?_, fun i hi => ?_, fun p hp => ⟨get_set_other _ _ hp, get_set_other _ _ hp⟩, hacc, htstat⟩
  · refine (congrArg (BitVec.extractLsb' (8 * i) 8) (get_set_same c.panel q _)).trans ((extract_leNat _ i (by omega)).trans ?_)
    rw [List.getD_eq_getElem?_getD, List.getD_eq_getElem?_getD, List.getElem?_take_of_lt hi]
  · refine (congrArg (BitVec.extractLsb' (8 * i) 8) (get_set_same c.band q _)).trans ((extract_leNat _ i (by omega)).trans ?_)
    rw [List.getD_eq_getElem?_getD, List.getD_eq_getElem?_getD, List.getElem?_drop]

/-! What a TSTA leaves there. -/

theorem tileSame_stored {c d y : Core} {ac : AccReg} {zero : Bool} {f : FFlags} (hd : c.CachesOnly d)
    (h : (d.stored ac zero f).TileSame y) : y.acc = (if zero then c.acc.set ac.val 0 ac.isLt else c.acc) ∧ y.panel = c.panel ∧
      y.band = c.band ∧ y.tstat = c.tstat.set ac.val ((c.tstat.get ac).add f) ac.isLt := by
  rw [hd] at h
  obtain ⟨hacc, hpanel, hband, htstat⟩ := h
  cases zero <;> exact ⟨hacc, hpanel, hband, htstat⟩

section
variable {s : State} {k : CoreId} {e : TEntry} {rest : List TEntry} (htq : (s.core k.val).tq = e :: rest) (hk : coreOf e.ctx = k.val)
  (hfree : e.Free s)
include htq hfree

/-- A load runs: memory stays, contexts count their misses, and the tile state takes the bytes. -/
theorem load_runs (hk : coreOf e.ctx = k.val) (hop : e.op.loads = true) {d : List (Byte × Bool)} (hread : (s.tileRead e).2 = d)
    (hd : ∀ b ∈ d, b.2 = false) {p : State → Prop}
    (h : ∀ t : State, t.casts = (s.tileRead e).1.casts →
      ((s.core k.val).loaded (faOf e.fw).width (d.map (·.1)) e.op).TileSame (t.core k.val) → p t) :
    ∃ t, exec (.tileExecute k) s = .next t ∧ (∀ l : Loc, l.exists_ → t.reads l = s.reads l) ∧
      (∀ j, t.ctx j = { s.ctx j with pmcnt := (t.ctx j).pmcnt }) ∧ p t := by
  obtain ⟨hreads, hctx, hcasts, htile⟩ := tileRan_load rest hk hop hread hd
  exact ⟨_, exec_tileExecute htq hfree, hreads, hctx, h _ hcasts htile⟩

/-- A load of the instruction's own. -/
theorem load_runs_own (hk : coreOf e.ctx = k.val) (hop : e.op.loads = true) (hcast : e.cast = none)
    (hgood : ∀ l ∈ pieceLocs e.pieces, s.closed (regionOf e.ctx) l = false ∧ s.poisonAt (some k.val) l 1 = none) {p : State → Prop}
    (h : ∀ t : State, ((s.core k.val).loaded (faOf e.fw).width ((pieceLocs e.pieces).map s.reads) e.op).TileSame (t.core k.val) → p t) :
    ∃ t, exec (.tileExecute k) s = .next t ∧ (∀ l : Loc, l.exists_ → t.reads l = s.reads l) ∧
      (∀ j, t.ctx j = { s.ctx j with pmcnt := (t.ctx j).pmcnt }) ∧ p t := by
  refine load_runs htq hfree hk hop (tileRead_own hk hcast hgood) ?_ fun t _ htile => h t ?_
  · simp
  · rwa [List.map_map] at htile

end

end Sys2Proof.Machine
end

section
open Sys2Proof Sys2Proof.Machine

/-- Settles O45: by the instruction, with what each leaves of the tile state; a load through `load_runs`, a store through `tileRan_store`. -/
theorem tileUnitExecutesAndCompletes : Obligations.TileUnitExecutesAndCompletes := by
  unfold Obligations.TileUnitExecutesAndCompletes
  intro s k e rest htq hk
  dsimp only
  refine ⟨fun hfree => runs_of_tileDo htq hfree trivial, fun ac hfree hp hop => ?_, exec_tileComplete htq hk,
    fun hpieces hfree hsound => ⟨fun ac clrf hop => ?_, fun ac qa qb rows cols km zero neg comp hop hp => ?_,
      fun ac qa qb rows cols km zero neg comp rm hop hp hok hrm => ?_, fun ac s0 n col cells hop hs hlen => ?_⟩,
    fun hfree hlocs => ?_, fun hpieces hfree hsound ac v s0 n col hop hp hlow hlen hs hfit => ?_,
    fun hfree hsound hclosed hnodup hdlog hlocs => ?_⟩
  · exact ⟨_, exec_tileExecute htq hfree, tileRan_poisoned hk hp hop⟩
  · exact runs_of_tileDo htq hfree (tileRan_of_setCore (tileDo_zero hk (Core.Sound.found hsound e) hop) rfl)
  · refine runs_of_tileDo htq hfree ⟨_, _, tileRan_of_setCore (tileDo_mop hk (Core.Sound.found hsound e) hop hp) (Core.mop_eq ..),
      fun m hm n hn hoff => Core.mopAcc_off _ _ _ _ _ _ _ _ _ _ _ hm hn hoff, fun sa sb hcomp hfa hfb hfd hsat m hm n hn hon => ?_⟩
    subst hcomp
    exact Core.mopAcc_int8 _ _ _ _ _ _ _ _ _ _ hfa hfb hfd hsat hm hn hon
  · exact runs_of_tileDo htq hfree ⟨_, _, tileRan_of_setCore (tileDo_mop hk (Core.Sound.found hsound e) hop hp) (Core.mop_eq ..),
      mopValues_mop _ _ _ _ _ _ _ _ _ _ _ hok hrm⟩
  · exact runs_of_tileDo htq hfree ⟨_, tileRan_of_setCore (tileDo_vsl hk (Core.Sound.found hsound e) hop) rfl,
      fun r hr j hj => cell_vsl _ col cells hs hlen hr hj⟩
  · have hgood : ∀ l ∈ pieceLocs e.pieces, s.closed (regionOf e.ctx) l = false ∧ s.poisonAt (some k.val) l 1 = none := fun l hl =>
      (hlocs l hl).2
    have hbyte : ∀ {i l}, (pieceLocs e.pieces)[i]? = some l → ((pieceLocs e.pieces).map s.reads).getD i 0 = s.reads l :=
      fun h => getD_map_reads s.reads h
    refine ⟨fun q hop hcast hlen => ?_, fun q i hop hcast => ⟨fun d hdata hlen hd => ?_, fun hdata hlen => ?_⟩,
      fun q hop hcast hlen _ => ?_, fun q hop hcast hlen => ?_, fun q hop hcast hlen => ?_, fun ac hop hcast hlen => ?_,
      fun q hop hcast hlen => ?_⟩
    · refine load_runs_own htq hfree hk (by rw [hop]; rfl) hcast hgood fun t htile => ?_
      rw [hop] at htile
      obtain ⟨hothers, hq⟩ := loaded_panel htile
      refine ⟨hothers, fun i hi => ?_⟩
      rw [hq, extract_panelOfBytes _ _ (by omega), hbyte (List.getElem?_eq_getElem hi)]
    · have hread := tileRead_shared hcast hdata
      refine load_runs htq hfree hk (by rw [hop]; rfl) (by rw [hread]) hd fun t hcasts htile => ?_
      rw [hop] at htile
      rw [hread] at hcasts
      obtain ⟨hothers, hq⟩ := loaded_panel htile
      refine ⟨hothers, hcasts, fun n b hb => ?_⟩
      rw [hq, extract_panelOfBytes _ _ (hlen ▸ (List.getElem?_eq_some_iff.1 hb).1), List.getD_eq_getElem?_getD, List.getElem?_map, hb]
      rfl
    · obtain ⟨hread, hshared⟩ := tileRead_fetched hk hcast hdata hgood
      refine load_runs htq hfree hk (by rw [hop]; rfl) hread (by simp) fun t hcasts htile => ?_
      rw [hop, List.map_map] at htile
      obtain ⟨hothers, hq⟩ := loaded_panel htile
      refine ⟨hothers, fun n hn => ?_, hcasts.trans hshared⟩
      rw [hq, extract_panelOfBytes _ _ (by omega)]
      exact hbyte (List.getElem?_eq_getElem hn)
    · refine load_runs_own htq hfree hk (by rw [hop]; rfl) hcast hgood fun t htile => ?_
      rw [hop] at htile
      obtain ⟨hothers, hq⟩ := loaded_panel htile
      refine ⟨hothers, fun kk hkk m hm j hj l hl => ?_⟩
      rw [hq, getLsbD_panelOfBytes_trans _ _ hkk hm hj, hbyte hl]
    · refine load_runs_own htq hfree hk (by rw [hop]; rfl) hcast hgood fun t htile => ?_
      rw [hop] at htile
      obtain ⟨hothers, hq⟩ := loaded_band htile
      refine ⟨hothers, fun i hi => ?_⟩
      rw [hq, extract_bandOfBytes _ (by omega), hbyte (List.getElem?_eq_getElem hi)]
    · refine load_runs_own htq hfree hk (by rw [hop]; rfl) hcast hgood fun t htile => ?_
      rw [hop] at htile
      obtain ⟨hothers, hq⟩ := loaded_band htile
      refine ⟨hothers, fun b hb j hj l hl => ?_⟩
      rw [hq, extract_bandOfBytes_trans _ hb hj, hbyte hl]
    · refine load_runs_own htq hfree hk (by rw [hop]; rfl) hcast hgood fun t htile => ?_
      rw [hop] at htile
      obtain ⟨hcells, hflags, hothers⟩ := loaded_accImage htile
      refine ⟨fun i hi l hl => (hcells i hi).trans (hbyte hl), fun l hl => ?_, hothers⟩
      rw [hflags, hbyte hl, TFlags.ofByte_toNat]
    · refine load_runs_own htq hfree hk (by rw [hop]; rfl) hcast hgood fun t htile => ?_
      rw [hop] at htile
      obtain ⟨hpanel, hband, hothers⟩ := loaded_panelImage htile
      exact ⟨fun i hi l hl => (hpanel i hi).trans (hbyte hl), fun i hi l hl => (hband i hi).trans (hbyte hl), hothers⟩
  · have hdo := tileDo_slv hk (Core.Sound.found hsound e) hop hp
    have hctx : ∀ j, (s.tileRan k e rest).ctx j = if j = e.ctx then
        e.slvWrite ((s.core k.val).acc.get ac) v.val s0 n col (s.ctx e.ctx) else s.ctx j := fun j => by
      rw [State.tileRan, hdo]
      exact State.modCtx_ctx _ _ _ _
    refine runs_of_tileDo htq hfree ?_
    rw [hctx, if_pos rfl]
    obtain ⟨honly, hcells, hrest, hbelow⟩ := slvWrite_spec (s0 := s0) (n := n) e ((s.core k.val).acc.get ac) v col (s.ctx e.ctx)
      hlow hlen hfit
    refine ⟨?_, honly, fun j hj => by rw [hctx, if_neg hj], hcells, hrest, hbelow⟩
    rw [State.tileRan, hdo, State.modCore_core_same]
    rfl
  · refine ⟨fun ac zero hop hp rm hrm _ hlen => ?_, fun ac hop hlen => ?_, fun q hop hlen => ?_⟩
    · have hdo := tileDo_store hk (Core.Sound.found hsound e) hop hp
      obtain ⟨hin, hout, hctx, d, hd, htile⟩ := tileRan_store (f := (·.stored ac zero (storeCells e ((s.core k.val).acc.get ac)).2)) rest
        (by rw [hdo]; exact modCore_spec _ _ _)
        (by rw [hdo, State.modCore_core_same]) hclosed hdlog hnodup ((length_storeCells hrm _).trans hlen.symm) hlocs
      refine ⟨_, exec_tileExecute htq hfree, fun i hi => ?_, hout, hctx, ?_⟩
      · rw [hin i hi, getD_storeCells hrm _ (hlen ▸ hi)]
        rfl
      · obtain ⟨hacc, hpanel, hband, htstat⟩ := tileSame_stored hd htile
        refine ⟨hacc, hpanel, hband, htstat.trans ?_⟩
        simp only [TFlags.add, getLsbD_storeCells hrm]
        rfl
    · have hdo := tileDo_saveAcc hk hsound hop
      obtain ⟨hin, hout, hctx, d, hd, hacc, hpanel, hband, htstat⟩ := tileRan_store (f := id) rest (by rw [hdo]; exact SameMemory.refl _)
        (by rw [hdo]; rfl) hclosed hdlog hnodup ((length_accImage _ _).trans hlen.symm) hlocs
      rw [hd] at hacc hpanel hband htstat
      exact ⟨_, exec_tileExecute htq hfree, fun i hi => by rw [hin i hi, getD_accImage], hout, hctx, hacc, htstat, hpanel, hband⟩
    · have hdo := tileDo_savePanel hk hsound hop
      obtain ⟨hin, hout, hctx, d, hd, hacc, hpanel, hband, htstat⟩ := tileRan_store (f := id) rest (by rw [hdo]; exact SameMemory.refl _)
        (by rw [hdo]; rfl) hclosed hdlog hnodup ((length_panelImage _ _).trans hlen.symm) hlocs
      rw [hd] at hacc hpanel hband htstat
      exact ⟨_, exec_tileExecute htq hfree, fun i hi => by rw [hin i hi, getD_panelImage _ _ (by omega)], hout, hctx, hacc, htstat, hpanel,
        hband⟩

end

section
/-! PROOF. Fields of words that `put` composes, for O10: a word is the bitwise or of its operands, each at its place, and of its
opcode bits, so every field is read from the one part that reaches it (R51, R52). -/

namespace Sys2Proof

/-- The low `k` bits of `v` at bit `lo` of a word that is 0 elsewhere. -/
def slot (k v lo : Nat) : Nat := (v % 2 ^ k) <<< lo

theorem testBit_fld (w lo n i : Nat) : (fld w lo n).testBit i = (decide (i < n) && w.testBit (i + lo)) := by
  rw [fld, Nat.testBit_mod_two_pow, Nat.testBit_div_two_pow]

theorem testBit_slot (k v lo i : Nat) : (slot k v lo).testBit i = (decide (lo ≤ i) && (decide (i - lo < k) && v.testBit (i - lo))) := by
  rw [slot, Nat.testBit_shiftLeft, Nat.testBit_mod_two_pow]

/-! Reading a field. -/

@[simp] theorem fld_or {a b lo n : Nat} : fld (a ||| b) lo n = fld a lo n ||| fld b lo n :=
  Nat.eq_of_testBit_eq fun i => by simp [testBit_fld, Bool.and_or_distrib_left]

@[simp] theorem fld_slot_same {k v lo : Nat} : fld (slot k v lo) lo k = v % 2 ^ k :=
  Nat.eq_of_testBit_eq fun i => by simp [testBit_fld, testBit_slot, Nat.testBit_mod_two_pow]

@[simp] theorem fld_slot_below {k v lo lo' n : Nat} (h : lo' + n ≤ lo) : fld (slot k v lo) lo' n = 0 :=
  Nat.eq_of_testBit_eq fun i => by
    simp only [testBit_fld, testBit_slot, Nat.zero_testBit, Bool.and_eq_false_iff, decide_eq_false_iff_not]
    omega

@[simp] theorem fld_slot_above {k v lo lo' n : Nat} (h : lo + k ≤ lo') : fld (slot k v lo) lo' n = 0 :=
  Nat.eq_of_testBit_eq fun i => by
    simp only [testBit_fld, testBit_slot, Nat.zero_testBit, Bool.and_eq_false_iff, decide_eq_false_iff_not]
    omega

@[simp] theorem fld_literal {m lo n : Nat} : fld (no_index (OfNat.ofNat m)) lo n = (no_index (OfNat.ofNat m)) / 2 ^ lo % 2 ^ n := by
  rw [fld]

@[simp] theorem fld_word {w lo n : Nat} (h : lo + n ≤ 32) : fld (w % 4294967296) lo n = fld w lo n :=
  Nat.eq_of_testBit_eq fun i => by
    rw [show 4294967296 = 2 ^ 32 from rfl, testBit_fld, testBit_fld, Nat.testBit_mod_two_pow]
    by_cases hi : i < n
    · simp [show i + lo < 32 by omega]
    · simp [hi]

/-! Placing an operand. -/

theorem put_eq_or {k v lo r : Nat} (hv : v < 2 ^ k) (hr : fld r lo k = 0) : put v lo r = slot k v lo ||| r := by
  have hlow : r % 2 ^ lo < 2 ^ lo := Nat.mod_lt _ (by positivity)
  have hmid : 2 ^ lo * v + r % 2 ^ lo < 2 ^ (lo + k) := by
    have hle : 2 ^ lo * (v + 1) ≤ 2 ^ (lo + k) := by
      rw [pow_add]
      exact Nat.mul_le_mul_left _ hv
    rw [Nat.mul_succ] at hle
    omega
  have hsplit : r = 2 ^ (lo + k) * (r / 2 ^ (lo + k)) + r % 2 ^ lo := by
    have hdiv := Nat.div_add_mod r (2 ^ lo)
    have hdiv' := Nat.div_add_mod (r / 2 ^ lo) (2 ^ k)
    rw [fld] at hr
    rw [hr, add_zero, Nat.div_div_eq_div_mul, ← pow_add] at hdiv'
    rw [pow_add, mul_assoc, ← pow_add, hdiv', hdiv]
  calc put v lo r = 2 ^ (lo + k) * (r / 2 ^ (lo + k)) + (2 ^ lo * v + r % 2 ^ lo) := by
        rw [put, mul_comm]
        omega
    _ = 2 ^ (lo + k) * (r / 2 ^ (lo + k)) ||| (2 ^ lo * v ||| r % 2 ^ lo) := by
        rw [Nat.two_pow_add_eq_or_of_lt hmid, Nat.two_pow_add_eq_or_of_lt hlow]
    _ = 2 ^ lo * v ||| (2 ^ (lo + k) * (r / 2 ^ (lo + k)) + r % 2 ^ lo) := by
        rw [Nat.two_pow_add_eq_or_of_lt (hlow.trans_le (Nat.pow_le_pow_right (by omega) (by omega))), Nat.or_left_comm]
    _ = slot k v lo ||| r := by rw [← hsplit, slot, Nat.mod_eq_of_lt hv, Nat.shiftLeft_eq, mul_comm]

/-! The width of each type of operand (R53, R60, R69, R78, R100). -/

section
variable {lo r : Nat}

@[simp] theorem put_fin32 (x : Fin 32) (h : fld r lo 5 = 0) : put x.val lo r = slot 5 x.val lo ||| r := put_eq_or x.isLt h
@[simp] theorem put_fin16 (x : Fin 16) (h : fld r lo 4 = 0) : put x.val lo r = slot 4 x.val lo ||| r := put_eq_or x.isLt h
@[simp] theorem put_fin8 (x : Fin 8) (h : fld r lo 3 = 0) : put x.val lo r = slot 3 x.val lo ||| r := put_eq_or x.isLt h
@[simp] theorem put_fin4 (x : Fin 4) (h : fld r lo 2 = 0) : put x.val lo r = slot 2 x.val lo ||| r := put_eq_or x.isLt h
@[simp] theorem put_bitVec {k : Nat} (x : BitVec k) (h : fld r lo k = 0) : put x.toNat lo r = slot k x.toNat lo ||| r := put_eq_or x.isLt h

@[simp] theorem put_bit (b : Bool) (h : fld r lo 1 = 0) : put (bit b) lo r = slot 1 (bit b) lo ||| r :=
  put_eq_or (by cases b <;> decide) h

@[simp] theorem put_fpSize (x : FpSize) (h : fld r lo 2 = 0) : put x.code lo r = slot 2 x.code lo ||| r :=
  put_eq_or (by cases x <;> decide) h

@[simp] theorem put_scalarRm (x : ScalarRm) (h : fld r lo 2 = 0) : put x.code lo r = slot 2 x.code lo ||| r :=
  put_eq_or (by cases x <;> decide) h

@[simp] theorem put_scope (x : Scope) (h : fld r lo 3 = 0) : put x.code lo r = slot 3 x.code lo ||| r :=
  put_eq_or (by cases x <;> decide) h

@[simp] theorem put_barScope (x : BarScope) (h : fld r lo 3 = 0) : put x.code lo r = slot 3 x.code lo ||| r :=
  put_eq_or (by cases x <;> decide) h

@[simp] theorem put_comb (x : Comb) (h : fld r lo 3 = 0) : put x.code lo r = slot 3 x.code lo ||| r :=
  put_eq_or (by cases x <;> decide) h

@[simp] theorem put_castScope (x : CastScope) (h : fld r lo 3 = 0) : put x.code lo r = slot 3 x.code lo ||| r :=
  put_eq_or (by cases x <;> decide) h

@[simp] theorem TileItem.code_lt (t : TileItem) : t.code < 24 := by
  cases t <;> simp only [TileItem.code] <;> omega

@[simp] theorem put_tileItem (x : TileItem) (h : fld r lo 5 = 0) : put x.code lo r = slot 5 x.code lo ||| r :=
  put_eq_or (x.code_lt.trans (by decide)) h

@[simp] theorem put_panel (q : Fin 16) (h : fld r lo 5 = 0) : put (q.val + 8) lo r = slot 5 (q.val + 8) lo ||| r :=
  put_eq_or (by omega) h

end

/-! Each operand read back from its field. -/

@[simp] theorem gAt_eq (w lo : Nat) : gAt w lo = Fin.ofNat 32 (fld w lo 5) := by simp [gAt, fld, Fin.ofNat]
@[simp] theorem vAt_eq (w lo : Nat) : vAt w lo = Fin.ofNat 32 (fld w lo 5) := by simp [vAt, fld, Fin.ofNat]
@[simp] theorem m5At_eq (w lo : Nat) : m5At w lo = Fin.ofNat 16 (fld w lo 4) := by simp [m5At, fld, Fin.ofNat]
@[simp] theorem m3At_eq (w lo : Nat) : m3At w lo = Fin.ofNat 8 (fld w lo 3) := by simp [m3At, fld, Fin.ofNat]
theorem bitVec_ofNat_div {w lo k : Nat} : BitVec.ofNat k (w / 2 ^ lo) = BitVec.ofNat k (fld w lo k) := by
  simp [fld, ← BitVec.toNat_inj]
theorem bitVec_ofNat_word {w k : Nat} (h : k ≤ 32) : BitVec.ofNat k (w % 4294967296) = BitVec.ofNat k (fld w 0 k) := by
  rw [← BitVec.toNat_inj, BitVec.toNat_ofNat, BitVec.toNat_ofNat, fld, pow_zero, Nat.div_one, Nat.mod_mod,
    show 4294967296 = 2 ^ 32 from rfl, Nat.mod_mod_of_dvd _ (Nat.pow_dvd_pow 2 h)]
theorem fin4_ofNat_div {w lo : Nat} : Fin.ofNat 4 (w / 2 ^ lo) = Fin.ofNat 4 (fld w lo 2) := by simp [fld, Fin.ofNat]
theorem fin4_ofNat_word {w : Nat} : Fin.ofNat 4 (w % 4294967296) = Fin.ofNat 4 (fld w 0 2) := by
  simp [fld, Fin.ofNat]

@[simp] theorem fin_val_mod {n : Nat} (x : Fin n) : x.val % n = x.val := Nat.mod_eq_of_lt x.isLt
@[simp] theorem bitVec_ofNat_toNat_mod {k m : Nat} (x : BitVec k) (h : m = 2 ^ k) : BitVec.ofNat k (x.toNat % m) = x := by
  rw [h, BitVec.toNat_mod_cancel, BitVec.ofNat_toNat, BitVec.setWidth_eq]

@[simp] theorem FpSize.ofCode_code (x : FpSize) : FpSize.ofCode (x.code % 4) = x := by cases x <;> rfl
@[simp] theorem FpSize.code_inj (x y : FpSize) : x.code % 4 = y.code % 4 ↔ x = y := by cases x <;> cases y <;> decide
@[simp] theorem ScalarRm.ofCode_code (x : ScalarRm) : ScalarRm.ofCode (x.code % 4) = x := by cases x <;> rfl
@[simp] theorem Scope.ofCode_code (x : Scope) : Scope.ofCode (x.code % 8) = x := by cases x <;> rfl
@[simp] theorem Scope.code_legal (x : Scope) : x.code % 8 < 6 := by cases x <;> decide
@[simp] theorem BarScope.ofCode_code (x : BarScope) : BarScope.ofCode (x.code % 8) = x := by cases x <;> rfl
@[simp] theorem BarScope.code_legal (x : BarScope) : x.code % 8 < 5 := by cases x <;> decide
@[simp] theorem BarScope.code_eq_pod (x : BarScope) : x.code % 8 = 4 ↔ x = .pod := by cases x <;> decide
@[simp] theorem Comb.ofCode_code (x : Comb) : Comb.ofCode (x.code % 8) = x := by cases x <;> rfl
@[simp] theorem Comb.code_legal (x : Comb) : x.code % 8 < 7 := by cases x <;> decide
@[simp] theorem CastScope.ofCode_code (x : CastScope) : CastScope.ofCode (x.code % 8) = x := by cases x <;> rfl
@[simp] theorem CastScope.code_pos (x : CastScope) : 1 ≤ x.code % 8 := by cases x <;> decide
@[simp] theorem CastScope.code_legal (x : CastScope) : x.code % 8 < 5 := by cases x <;> decide
@[simp] theorem TileItem.code_mod (x : TileItem) : x.code % 32 = x.code := Nat.mod_eq_of_lt (x.code_lt.trans (by decide))
@[simp] theorem TileItem.ofCode_code (x : TileItem) : TileItem.ofCode x.code = x := by
  cases x with
  | acc a => simp [TileItem.code, TileItem.ofCode]
  | panel q => simp [TileItem.code, TileItem.ofCode]
@[simp] theorem panel_mod (q : Fin 16) : (q.val + 8) % 32 = q.val + 8 := Nat.mod_eq_of_lt (by omega)
@[simp] theorem bit_mod_eq_zero (b : Bool) : bit b % 2 = 0 ↔ b = false := by cases b <;> decide
@[simp] theorem bit_mod_eq_one (b : Bool) : bit b % 2 = 1 ↔ b = true := by cases b <;> decide
@[simp] theorem bit_mod_beq (b : Bool) : (bit b % 2 == 1) = b := by cases b <;> rfl

/-- The word `w` decodes to the instruction `i`. -/
def Reads (w : Nat) (i : Instr) : Prop := decode (BitVec.ofNat 32 w) = .ok i

theorem reads_iff {w : Nat} {i : Instr} : Reads w i ↔ decodeNat (w % 4294967296) = .ok i := by
  simp only [Reads, decode, BitVec.toNat_ofNat, Nat.reducePow]

end Sys2Proof
end

section
/-! PROOF. The words of each major decode to their instructions (R57 to R78), for O10: the major and the function code are read from the
constant part of the word and name the instruction, each operand is read back from its own field, and the fields that R54 wants 0 are 0. -/

namespace Sys2Proof

/-- ALU (R58). -/
theorem reads_alu :
    (∀ d a b, Reads (wordAdd d a b) (.add d a b)) ∧ (∀ d a b, Reads (wordSub d a b) (.sub d a b)) ∧
    (∀ d a b, Reads (wordAnd d a b) (.and d a b)) ∧ (∀ d a b, Reads (wordOr d a b) (.or d a b)) ∧
    (∀ d a b, Reads (wordXor d a b) (.xor d a b)) ∧ (∀ d a b, Reads (wordAndn d a b) (.andn d a b)) ∧
    (∀ d a b, Reads (wordSll d a b) (.sll d a b)) ∧ (∀ d a b, Reads (wordSrl d a b) (.srl d a b)) ∧
    (∀ d a b, Reads (wordSra d a b) (.sra d a b)) ∧ (∀ d a b, Reads (wordRol d a b) (.rol d a b)) ∧
    (∀ d a b, Reads (wordRor d a b) (.ror d a b)) ∧ (∀ d a b, Reads (wordSlt d a b) (.slt d a b)) ∧
    (∀ d a b, Reads (wordSltu d a b) (.sltu d a b)) ∧ (∀ d a b, Reads (wordMin d a b) (.min d a b)) ∧
    (∀ d a b, Reads (wordMax d a b) (.max d a b)) ∧ (∀ d a b, Reads (wordMinu d a b) (.minu d a b)) ∧
    (∀ d a b, Reads (wordMaxu d a b) (.maxu d a b)) ∧ (∀ d a b, Reads (wordMul d a b) (.mul d a b)) ∧
    (∀ d a b, Reads (wordMulh d a b) (.mulh d a b)) ∧ (∀ d a b, Reads (wordMulhu d a b) (.mulhu d a b)) ∧
    (∀ d a b, Reads (wordDiv d a b) (.div d a b)) ∧ (∀ d a b, Reads (wordDivu d a b) (.divu d a b)) ∧
    (∀ d a b, Reads (wordRem d a b) (.rem d a b)) ∧ (∀ d a b, Reads (wordRemu d a b) (.remu d a b)) ∧
    (∀ d a, Reads (wordClz d a) (.clz d a)) ∧ (∀ d a, Reads (wordCtz d a) (.ctz d a)) ∧ (∀ d a, Reads (wordPopc d a) (.popc d a)) ∧
    (∀ d a b, Reads (wordMovz d a b) (.movz d a b)) ∧ (∀ d a b, Reads (wordMovn d a b) (.movn d a b)) ∧
    (∀ d a b, Reads (wordAddw d a b) (.addw d a b)) ∧ (∀ d a b, Reads (wordSubw d a b) (.subw d a b)) ∧
    (∀ d a, Reads (wordBswap d a) (.bswap d a)) := by
  simp only [reads_iff]
  simp [decodeNat, decodeAlu, legal, wordAdd, wordSub, wordAnd, wordOr, wordXor, wordAndn, wordSll, wordSrl, wordSra, wordRol, wordRor,
    wordSlt, wordSltu, wordMin, wordMax, wordMinu, wordMaxu, wordMul, wordMulh, wordMulhu, wordDiv, wordDivu, wordRem, wordRemu, wordClz,
    wordCtz, wordPopc, wordMovz, wordMovn, wordAddw, wordSubw, wordBswap]

/-- The majors with a 16-bit immediate and the shifts by one (R59). -/
theorem reads_immediate :
    (∀ d a imm, Reads (wordAddi d a imm) (.addi d a imm)) ∧ (∀ d a imm, Reads (wordAndi d a imm) (.andi d a imm)) ∧
    (∀ d a imm, Reads (wordOri d a imm) (.ori d a imm)) ∧ (∀ d a imm, Reads (wordXori d a imm) (.xori d a imm)) ∧
    (∀ d a imm, Reads (wordSlti d a imm) (.slti d a imm)) ∧ (∀ d a imm, Reads (wordSltiu d a imm) (.sltiu d a imm)) ∧
    (∀ d a sh, Reads (wordSlli d a sh) (.slli d a sh)) ∧ (∀ d a sh, Reads (wordSrli d a sh) (.srli d a sh)) ∧
    (∀ d a sh, Reads (wordSrai d a sh) (.srai d a sh)) ∧ (∀ d a sh, Reads (wordRori d a sh) (.rori d a sh)) ∧
    (∀ d imm, Reads (wordLih d imm) (.lih d imm)) ∧ (∀ d imm, Reads (wordAddpc d imm) (.addpc d imm)) ∧
    (∀ d a imm, Reads (wordShori d a imm) (.shori d a imm)) := by
  simp only [reads_iff]
  simp [decodeNat, decodeShi, legal, ↓bitVec_ofNat_div, ↓bitVec_ofNat_word, wordAddi, wordAndi, wordOri, wordXori, wordSlti, wordSltiu,
    wordSlli, wordSrli, wordSrai, wordRori, wordLih, wordAddpc, wordShori]

/-- FP and FMA (R60, R61). -/
theorem reads_fp :
    (∀ d a b sz rm, Reads (wordFadd d a b sz rm) (.fadd d a b sz rm)) ∧ (∀ d a b sz rm, Reads (wordFsub d a b sz rm) (.fsub d a b sz rm)) ∧
    (∀ d a b sz rm, Reads (wordFmul d a b sz rm) (.fmul d a b sz rm)) ∧ (∀ d a b sz rm, Reads (wordFdiv d a b sz rm) (.fdiv d a b sz rm)) ∧
    (∀ d a sz rm, Reads (wordFsqrt d a sz rm) (.fsqrt d a sz rm)) ∧ (∀ d a b sz, Reads (wordFmin d a b sz) (.fmin d a b sz)) ∧
    (∀ d a b sz, Reads (wordFmax d a b sz) (.fmax d a b sz)) ∧ (∀ d a b sz, Reads (wordFceq d a b sz) (.fceq d a b sz)) ∧
    (∀ d a b sz, Reads (wordFclt d a b sz) (.fclt d a b sz)) ∧ (∀ d a b sz, Reads (wordFcle d a b sz) (.fcle d a b sz)) ∧
    (∀ d a sz, Reads (wordFclass d a sz) (.fclass d a sz)) ∧ (∀ d a sz rm, Reads (wordFcvti d a sz rm) (.fcvti d a sz rm)) ∧
    (∀ d a sz rm, Reads (wordFcvtf d a sz rm) (.fcvtf d a sz rm)) ∧
    (∀ d a src sz rm, src ≠ sz → Reads (wordFcvtff d a src sz rm) (.fcvtff d a src sz rm)) ∧
    (∀ d a sz, Reads (wordFneg d a sz) (.fneg d a sz)) ∧ (∀ d a sz, Reads (wordFabs d a sz) (.fabs d a sz)) ∧
    (∀ d a b c sz rm np na, Reads (wordFma d a b c sz rm np na) (.fma d a b c sz rm np na)) := by
  simp only [reads_iff]
  simp [decodeNat, decodeFp, legal, bitAt, wordFadd, wordFsub, wordFmul, wordFdiv, wordFsqrt, wordFmin, wordFmax, wordFceq, wordFclt,
    wordFcle, wordFclass, wordFcvti, wordFcvtf, wordFcvtff, wordFneg, wordFabs, wordFma]

/-- The scalar loads and stores (R62). -/
theorem reads_scalarMemory :
    (∀ d a imm, Reads (wordLb d a imm) (.lb d a imm)) ∧ (∀ d a imm, Reads (wordLh d a imm) (.lh d a imm)) ∧
    (∀ d a imm, Reads (wordLw d a imm) (.lw d a imm)) ∧ (∀ d a imm, Reads (wordLd d a imm) (.ld d a imm)) ∧
    (∀ d a imm, Reads (wordLbu d a imm) (.lbu d a imm)) ∧ (∀ d a imm, Reads (wordLhu d a imm) (.lhu d a imm)) ∧
    (∀ d a imm, Reads (wordLwu d a imm) (.lwu d a imm)) ∧ (∀ c a imm, Reads (wordSb c a imm) (.sb c a imm)) ∧
    (∀ c a imm, Reads (wordSh c a imm) (.sh c a imm)) ∧ (∀ c a imm, Reads (wordSw c a imm) (.sw c a imm)) ∧
    (∀ c a imm, Reads (wordSd c a imm) (.sd c a imm)) := by
  simp only [reads_iff]
  simp [decodeNat, ↓bitVec_ofNat_word, wordLb, wordLh, wordLw, wordLd, wordLbu, wordLhu, wordLwu, wordSb, wordSh, wordSw, wordSd]

/-- ATOM (R63). -/
theorem reads_atom :
    (∀ d a dw acq sc, Reads (wordLr d a dw acq sc) (.lr d a dw acq sc)) ∧
    (∀ d a b dw rel sc, Reads (wordSc d a b dw rel sc) (.sc d a b dw rel sc)) ∧
    (∀ d a b dw acq rel sc, Reads (wordAmoswap d a b dw acq rel sc) (.amoswap d a b dw acq rel sc)) ∧
    (∀ d a b dw acq rel sc, Reads (wordAmoadd d a b dw acq rel sc) (.amoadd d a b dw acq rel sc)) ∧
    (∀ d a b dw acq rel sc, Reads (wordAmoand d a b dw acq rel sc) (.amoand d a b dw acq rel sc)) ∧
    (∀ d a b dw acq rel sc, Reads (wordAmoor d a b dw acq rel sc) (.amoor d a b dw acq rel sc)) ∧
    (∀ d a b dw acq rel sc, Reads (wordAmoxor d a b dw acq rel sc) (.amoxor d a b dw acq rel sc)) ∧
    (∀ d a b dw acq rel sc, Reads (wordAmomin d a b dw acq rel sc) (.amomin d a b dw acq rel sc)) ∧
    (∀ d a b dw acq rel sc, Reads (wordAmomax d a b dw acq rel sc) (.amomax d a b dw acq rel sc)) ∧
    (∀ d a b dw acq rel sc, Reads (wordAmominu d a b dw acq rel sc) (.amominu d a b dw acq rel sc)) ∧
    (∀ d a b dw acq rel sc, Reads (wordAmomaxu d a b dw acq rel sc) (.amomaxu d a b dw acq rel sc)) ∧
    (∀ d a b dw acq rel sc, Reads (wordAmocas d a b dw acq rel sc) (.amocas d a b dw acq rel sc)) ∧
    (∀ d a dw sc, Reads (wordLdacq d a dw sc) (.ldacq d a dw sc)) ∧ (∀ a b dw sc, Reads (wordStrel a b dw sc) (.strel a b dw sc)) := by
  simp only [reads_iff]
  simp [decodeNat, decodeAtom, legal, bitAt, wordLr, wordSc, wordAmoswap, wordAmoadd, wordAmoand, wordAmoor, wordAmoxor, wordAmomin,
    wordAmomax, wordAmominu, wordAmomaxu, wordAmocas, wordLdacq, wordStrel]

/-- CACHE (R65). -/
theorem reads_cache :
    (∀ a b, Reads (wordCinv a b) (.cinv a b)) ∧ (∀ a b, Reads (wordCflush a b) (.cflush a b)) ∧
    (∀ a b, Reads (wordCclean a b) (.cclean a b)) ∧ (∀ a b, Reads (wordCzero a b) (.czero a b)) ∧
    (∀ a b, Reads (wordCpfr a b) (.cpfr a b)) ∧ (∀ a b, Reads (wordCpfw a b) (.cpfw a b)) ∧
    (∀ a b, Reads (wordIflush a b) (.iflush a b)) := by
  simp only [reads_iff]
  simp [decodeNat, decodeCache, legal, wordCinv, wordCflush, wordCclean, wordCzero, wordCpfr, wordCpfw, wordIflush]

/-- Branches and jumps (R66). -/
theorem reads_branch :
    (∀ c a off, Reads (wordBeq c a off) (.beq c a off)) ∧ (∀ c a off, Reads (wordBne c a off) (.bne c a off)) ∧
    (∀ c a off, Reads (wordBlt c a off) (.blt c a off)) ∧ (∀ c a off, Reads (wordBge c a off) (.bge c a off)) ∧
    (∀ c a off, Reads (wordBltu c a off) (.bltu c a off)) ∧ (∀ c a off, Reads (wordBgeu c a off) (.bgeu c a off)) ∧
    (∀ off, Reads (wordJ off) (.j off)) ∧ (∀ off, Reads (wordJal off) (.jal off)) ∧
    (∀ d a imm, Reads (wordJalr d a imm) (.jalr d a imm)) := by
  simp only [reads_iff]
  simp [decodeNat, ↓bitVec_ofNat_word, wordBeq, wordBne, wordBlt, wordBge, wordBltu, wordBgeu, wordJ, wordJal, wordJalr]

/-- SYS and MFS (R67, R68). -/
theorem reads_sys :
    (∀ code, Reads (wordTrap code) (.trap code)) ∧ Reads wordBrk .brk ∧ Reads wordEret .eret ∧ Reads wordWfi .wfi ∧
    Reads wordYield .yield ∧ (∀ a b sc, Reads (wordTlbinv a b sc) (.tlbinv a b sc)) ∧ Reads wordTlbsync .tlbsync ∧
    (∀ d num, Reads (wordMfs d num) (.mfs d num)) := by
  simp only [reads_iff]
  simp [decodeNat, decodeSys, legal, ↓bitVec_ofNat_div, ↓bitVec_ofNat_word, wordTrap, wordBrk, wordEret, wordWfi, wordYield, wordTlbinv,
    wordTlbsync, wordMfs]

/-- MTS to the registers whose writes have rows of their own (R68). -/
theorem reads_mtsOwn :
    (∀ a, Reads (wordMtsStatus a) (.mtsStatus a)) ∧ (∀ a, Reads (wordMtsVl a) (.mtsVl a)) ∧ (∀ a, Reads (wordMtsVtype a) (.mtsVtype a)) ∧
    (∀ a, Reads (wordMtsVcap a) (.mtsVcap a)) ∧ (∀ a, Reads (wordMtsMember a) (.mtsMember a)) ∧ (∀ a, Reads (wordMtsTctl a) (.mtsTctl a)) ∧
    (∀ a, Reads (wordMtsTstat a) (.mtsTstat a)) ∧ (∀ a, Reads (wordMtsCntc a) (.mtsCntc a)) ∧ (∀ a, Reads (wordMtsYctl a) (.mtsYctl a)) ∧
    (∀ a, Reads (wordMtsSpcfg a) (.mtsSpcfg a)) := by
  simp only [reads_iff]
  simp [decodeNat, decodeMts, legal, wordMtsStatus, wordMtsVl, wordMtsVtype, wordMtsVcap, wordMtsMember, wordMtsTctl, wordMtsTstat,
    wordMtsCntc, wordMtsYctl, wordMtsSpcfg]

/-- SYNC and CWAIT (R69, R71). -/
theorem reads_sync :
    (∀ d a id sc comb, ¬ (sc = .pod ∧ 8 ≤ id.val) → Reads (wordGbar d a id sc comb) (.gbar d a id sc comb)) ∧
    (∀ d id sc, ¬ (sc = .pod ∧ 8 ≤ id.val) → Reads (wordGarrive d id sc) (.garrive d id sc)) ∧
    (∀ a id sc, ¬ (sc = .pod ∧ 8 ≤ id.val) → Reads (wordGwait a id sc) (.gwait a id sc)) ∧ (∀ ch, Reads (wordChwait ch) (.chwait ch)) ∧
    (∀ dq ch, dq ≠ 0 → Reads (wordChrecv dq ch) (.chrecv dq ch)) ∧ (∀ aq b, Reads (wordChpost aq b) (.chpost aq b)) ∧
    (∀ a id, Reads (wordBcpost a id) (.bcpost a id)) ∧ (∀ id, Reads (wordBcwait id) (.bcwait id)) ∧
    (∀ d id, Reads (wordBcread d id) (.bcread d id)) ∧ (∀ id, Reads (wordBcclr id) (.bcclr id)) ∧
    (∀ bL bS bC bT, Reads (wordCwait bL bS bC bT) (.cwait bL bS bC bT)) := by
  simp only [reads_iff]
  simp [decodeNat, decodeSync, legal, wordGbar, wordGarrive, wordGwait, wordChwait, wordChrecv, wordChpost, wordBcpost, wordBcwait,
    wordBcread, wordBcclr, wordCwait]

/-- SEND (R70). -/
theorem reads_send :
    (∀ d a, Reads (wordSendStrmCopy d a) (.sendStrmCopy d a)) ∧ (∀ d a, Reads (wordSendStrmGather d a) (.sendStrmGather d a)) ∧
    (∀ d a, Reads (wordSendStrmScatter d a) (.sendStrmScatter d a)) ∧ (∀ d a, Reads (wordSendStrmFill d a) (.sendStrmFill d a)) ∧
    (∀ d a, Reads (wordSendStrmUnz d a) (.sendStrmUnz d a)) ∧ (∀ d a, Reads (wordSendStrmPlane d a) (.sendStrmPlane d a)) ∧
    (∀ d a, Reads (wordSendWeaveLoad d a) (.sendWeaveLoad d a)) ∧ (∀ d a, Reads (wordSendWeaveRun d a) (.sendWeaveRun d a)) ∧
    (∀ d a b, Reads (wordSendCollBmax d a b) (.sendCollBmax d a b)) ∧ (∀ d a b, Reads (wordSendCollIsum d a b) (.sendCollIsum d a b)) ∧
    (∀ d a b, Reads (wordSendCollFsum d a b) (.sendCollFsum d a b)) ∧ (∀ d a b, Reads (wordSendCollBcast d a b) (.sendCollBcast d a b)) ∧
    (∀ d a b, Reads (wordSendCollOr d a b) (.sendCollOr d a b)) ∧ (∀ d a b, Reads (wordSendTendCall d a b) (.sendTendCall d a b)) ∧
    (∀ d a, Reads (wordSendLnchGang d a) (.sendLnchGang d a)) := by
  simp only [reads_iff]
  simp [decodeNat, decodeSend, legal, wordSendStrmCopy, wordSendStrmGather, wordSendStrmScatter, wordSendStrmFill, wordSendStrmUnz,
    wordSendStrmPlane, wordSendWeaveLoad, wordSendWeaveRun, wordSendCollBmax, wordSendCollIsum, wordSendCollFsum, wordSendCollBcast,
    wordSendCollOr, wordSendTendCall, wordSendLnchGang]

/-- SETVL (R72). -/
theorem reads_setvl :
    (∀ d a es grp dead y, Reads (wordSetvl d a es grp dead y) (.setvl d a es grp dead y)) ∧
    (∀ d a es grp dead y, Reads (wordSetvlA d a es grp dead y) (.setvlA d a es grp dead y)) ∧
    (∀ d es grp dead y, Reads (wordSetvlmax d es grp dead y) (.setvlmax d es grp dead y)) ∧
    (∀ d es grp dead y, Reads (wordSetvlmaxA d es grp dead y) (.setvlmaxA d es grp dead y)) := by
  simp only [reads_iff]
  simp [decodeNat, decodeSetvl, legal, bitAt, ↓bitVec_ofNat_div, ↓fin4_ofNat_div, wordSetvl, wordSetvlA, wordSetvlmax, wordSetvlmaxA]

/-- VINT (R73). -/
theorem reads_vint :
    (∀ d a b mk, Reads (wordVadd d a b mk) (.vadd d a b mk)) ∧ (∀ d a b mk, Reads (wordVsub d a b mk) (.vsub d a b mk)) ∧
    (∀ d a b mk, Reads (wordVmul d a b mk) (.vmul d a b mk)) ∧ (∀ d a b mk, Reads (wordVmulh d a b mk) (.vmulh d a b mk)) ∧
    (∀ d a b mk, Reads (wordVmulhu d a b mk) (.vmulhu d a b mk)) ∧ (∀ d a b mk, Reads (wordVmin d a b mk) (.vmin d a b mk)) ∧
    (∀ d a b mk, Reads (wordVmax d a b mk) (.vmax d a b mk)) ∧ (∀ d a b mk, Reads (wordVminu d a b mk) (.vminu d a b mk)) ∧
    (∀ d a b mk, Reads (wordVmaxu d a b mk) (.vmaxu d a b mk)) ∧ (∀ d a b mk, Reads (wordVand d a b mk) (.vand d a b mk)) ∧
    (∀ d a b mk, Reads (wordVor d a b mk) (.vor d a b mk)) ∧ (∀ d a b mk, Reads (wordVxor d a b mk) (.vxor d a b mk)) ∧
    (∀ d a b mk, Reads (wordVshl d a b mk) (.vshl d a b mk)) ∧ (∀ d a b mk, Reads (wordVshr d a b mk) (.vshr d a b mk)) ∧
    (∀ d a b mk, Reads (wordVsra d a b mk) (.vsra d a b mk)) ∧ (∀ d a b mk, Reads (wordVadds d a b mk) (.vadds d a b mk)) ∧
    (∀ d a b mk, Reads (wordVaddsu d a b mk) (.vaddsu d a b mk)) ∧ (∀ d a b mk, Reads (wordVsubs d a b mk) (.vsubs d a b mk)) ∧
    (∀ d a b mk, Reads (wordVsubsu d a b mk) (.vsubsu d a b mk)) ∧ (∀ d a b mk, Reads (wordVavg d a b mk) (.vavg d a b mk)) ∧
    (∀ d a b mk, Reads (wordVabsd d a b mk) (.vabsd d a b mk)) ∧ (∀ d a mk fr, Reads (wordVnarrow d a mk fr) (.vnarrow d a mk fr)) := by
  simp only [reads_iff]
  simp [decodeNat, decodeVint, legal, wordVadd, wordVsub, wordVmul, wordVmulh, wordVmulhu, wordVmin, wordVmax, wordVminu, wordVmaxu,
    wordVand, wordVor, wordVxor, wordVshl, wordVshr, wordVsra, wordVadds, wordVaddsu, wordVsubs, wordVsubsu, wordVavg, wordVabsd,
    wordVnarrow]

/-- VINTX (R73). -/
theorem reads_vintx :
    (∀ d a b mk, Reads (wordVaddVx d a b mk) (.vaddVx d a b mk)) ∧ (∀ d a b mk, Reads (wordVsubVx d a b mk) (.vsubVx d a b mk)) ∧
    (∀ d a b mk, Reads (wordVmulVx d a b mk) (.vmulVx d a b mk)) ∧ (∀ d a b mk, Reads (wordVmulhVx d a b mk) (.vmulhVx d a b mk)) ∧
    (∀ d a b mk, Reads (wordVmulhuVx d a b mk) (.vmulhuVx d a b mk)) ∧ (∀ d a b mk, Reads (wordVminVx d a b mk) (.vminVx d a b mk)) ∧
    (∀ d a b mk, Reads (wordVmaxVx d a b mk) (.vmaxVx d a b mk)) ∧ (∀ d a b mk, Reads (wordVminuVx d a b mk) (.vminuVx d a b mk)) ∧
    (∀ d a b mk, Reads (wordVmaxuVx d a b mk) (.vmaxuVx d a b mk)) ∧ (∀ d a b mk, Reads (wordVandVx d a b mk) (.vandVx d a b mk)) ∧
    (∀ d a b mk, Reads (wordVorVx d a b mk) (.vorVx d a b mk)) ∧ (∀ d a b mk, Reads (wordVxorVx d a b mk) (.vxorVx d a b mk)) ∧
    (∀ d a b mk, Reads (wordVshlVx d a b mk) (.vshlVx d a b mk)) ∧ (∀ d a b mk, Reads (wordVshrVx d a b mk) (.vshrVx d a b mk)) ∧
    (∀ d a b mk, Reads (wordVsraVx d a b mk) (.vsraVx d a b mk)) ∧ (∀ d a b mk, Reads (wordVaddsVx d a b mk) (.vaddsVx d a b mk)) ∧
    (∀ d a b mk, Reads (wordVaddsuVx d a b mk) (.vaddsuVx d a b mk)) ∧ (∀ d a b mk, Reads (wordVsubsVx d a b mk) (.vsubsVx d a b mk)) ∧
    (∀ d a b mk, Reads (wordVsubsuVx d a b mk) (.vsubsuVx d a b mk)) ∧ (∀ d a b mk, Reads (wordVavgVx d a b mk) (.vavgVx d a b mk)) ∧
    (∀ d a b mk, Reads (wordVabsdVx d a b mk) (.vabsdVx d a b mk)) := by
  simp only [reads_iff]
  simp [decodeNat, decodeVintx, legal, wordVaddVx, wordVsubVx, wordVmulVx, wordVmulhVx, wordVmulhuVx, wordVminVx, wordVmaxVx,
    wordVminuVx, wordVmaxuVx, wordVandVx, wordVorVx, wordVxorVx, wordVshlVx, wordVshrVx, wordVsraVx, wordVaddsVx, wordVaddsuVx,
    wordVsubsVx, wordVsubsuVx, wordVavgVx, wordVabsdVx]

/-- VCMP (R73). -/
theorem reads_vcmp :
    (∀ d a b mk, Reads (wordVceq d a b mk) (.vceq d a b mk)) ∧ (∀ d a b mk, Reads (wordVcne d a b mk) (.vcne d a b mk)) ∧
    (∀ d a b mk, Reads (wordVclt d a b mk) (.vclt d a b mk)) ∧ (∀ d a b mk, Reads (wordVcle d a b mk) (.vcle d a b mk)) ∧
    (∀ d a b mk, Reads (wordVcltu d a b mk) (.vcltu d a b mk)) ∧ (∀ d a b mk, Reads (wordVcleu d a b mk) (.vcleu d a b mk)) ∧
    (∀ d a b mk, mk ≠ 0 → Reads (wordVmerge d a b mk) (.vmerge d a b mk)) ∧
    (∀ d a b mk fr, Reads (wordVfceq d a b mk fr) (.vfceq d a b mk fr)) ∧
    (∀ d a b mk fr, Reads (wordVfclt d a b mk fr) (.vfclt d a b mk fr)) ∧
    (∀ d a b mk fr, Reads (wordVfcle d a b mk fr) (.vfcle d a b mk fr)) ∧
    (∀ d a b mk fr, Reads (wordVfcun d a b mk fr) (.vfcun d a b mk fr)) ∧
    (∀ d a mk fr, Reads (wordVfclass d a mk fr) (.vfclass d a mk fr)) := by
  simp only [reads_iff]
  simp [decodeNat, decodeVcmp, legal, wordVceq, wordVcne, wordVclt, wordVcle, wordVcltu, wordVcleu, wordVmerge, wordVfceq, wordVfclt,
    wordVfcle, wordVfcun, wordVfclass]

/-- VFP (R73). -/
theorem reads_vfp :
    (∀ d a b mk fr, Reads (wordVfadd d a b mk fr) (.vfadd d a b mk fr)) ∧
    (∀ d a b mk fr, Reads (wordVfsub d a b mk fr) (.vfsub d a b mk fr)) ∧
    (∀ d a b mk fr, Reads (wordVfmul d a b mk fr) (.vfmul d a b mk fr)) ∧
    (∀ d a b mk fr, Reads (wordVfdiv d a b mk fr) (.vfdiv d a b mk fr)) ∧ (∀ d a mk fr, Reads (wordVfsqrt d a mk fr) (.vfsqrt d a mk fr)) ∧
    (∀ d a b mk fr, Reads (wordVfmin d a b mk fr) (.vfmin d a b mk fr)) ∧
    (∀ d a b mk fr, Reads (wordVfmax d a b mk fr) (.vfmax d a b mk fr)) ∧ (∀ d a mk fr, Reads (wordVfrcp d a mk fr) (.vfrcp d a mk fr)) ∧
    (∀ d a mk fr, Reads (wordVfrsq d a mk fr) (.vfrsq d a mk fr)) ∧ (∀ d a mk fr, Reads (wordVfexp2 d a mk fr) (.vfexp2 d a mk fr)) ∧
    (∀ d a mk fr, Reads (wordVflog2 d a mk fr) (.vflog2 d a mk fr)) ∧ (∀ d a b mk fr, Reads (wordVfcvt d a b mk fr) (.vfcvt d a b mk fr)) ∧
    (∀ d a mk fr, Reads (wordVfnf d a mk fr) (.vfnf d a mk fr)) ∧ (∀ d a mk fr, Reads (wordVfabs d a mk fr) (.vfabs d a mk fr)) ∧
    (∀ d a mk fr, Reads (wordVfneg d a mk fr) (.vfneg d a mk fr)) ∧
    (∀ d a b mk fr, Reads (wordVfscale d a b mk fr) (.vfscale d a b mk fr)) := by
  simp only [reads_iff]
  simp [decodeNat, decodeVfp, legal, wordVfadd, wordVfsub, wordVfmul, wordVfdiv, wordVfsqrt, wordVfmin, wordVfmax, wordVfrcp, wordVfrsq,
    wordVfexp2, wordVflog2, wordVfcvt, wordVfnf, wordVfabs, wordVfneg, wordVfscale]

/-- VFPX and the VF majors (R73, R76). -/
theorem reads_vfpx :
    (∀ d a b mk fr, Reads (wordVfaddVx d a b mk fr) (.vfaddVx d a b mk fr)) ∧
    (∀ d a b mk fr, Reads (wordVfsubVx d a b mk fr) (.vfsubVx d a b mk fr)) ∧
    (∀ d a b mk fr, Reads (wordVfmulVx d a b mk fr) (.vfmulVx d a b mk fr)) ∧
    (∀ d a b mk fr, Reads (wordVfdivVx d a b mk fr) (.vfdivVx d a b mk fr)) ∧
    (∀ d a b mk fr, Reads (wordVfsqrtVx d a b mk fr) (.vfsqrtVx d a b mk fr)) ∧
    (∀ d a b mk fr, Reads (wordVfminVx d a b mk fr) (.vfminVx d a b mk fr)) ∧
    (∀ d a b mk fr, Reads (wordVfmaxVx d a b mk fr) (.vfmaxVx d a b mk fr)) ∧
    (∀ d a b mk fr, Reads (wordVfscaleVx d a b mk fr) (.vfscaleVx d a b mk fr)) ∧
    (∀ d a b c mk fr, Reads (wordVfma d a b c mk fr) (.vfma d a b c mk fr)) ∧
    (∀ d a b c mk fr, Reads (wordVfnma d a b c mk fr) (.vfnma d a b c mk fr)) ∧
    (∀ d a b c mk fr, Reads (wordVima d a b c mk fr) (.vima d a b c mk fr)) ∧
    (∀ d a b c mk fr, Reads (wordVplstep d a b c mk fr) (.vplstep d a b c mk fr)) := by
  simp only [reads_iff]
  simp [decodeNat, decodeVfpx, wordVfaddVx, wordVfsubVx, wordVfmulVx, wordVfdivVx, wordVfsqrtVx, wordVfminVx, wordVfmaxVx,
    wordVfscaleVx, wordVfma, wordVfnma, wordVima, wordVplstep]

/-- VRED (R73). -/
theorem reads_vred :
    (∀ d a b mk, Reads (wordVredsum d a b mk) (.vredsum d a b mk)) ∧ (∀ d a b mk, Reads (wordVredmax d a b mk) (.vredmax d a b mk)) ∧
    (∀ d a b mk, Reads (wordVredmin d a b mk) (.vredmin d a b mk)) ∧ (∀ d a b mk, Reads (wordVredmaxu d a b mk) (.vredmaxu d a b mk)) ∧
    (∀ d a b mk, Reads (wordVredminu d a b mk) (.vredminu d a b mk)) ∧ (∀ d a b mk, Reads (wordVredand d a b mk) (.vredand d a b mk)) ∧
    (∀ d a b mk, Reads (wordVredor d a b mk) (.vredor d a b mk)) ∧ (∀ d a b mk, Reads (wordVredxor d a b mk) (.vredxor d a b mk)) ∧
    (∀ d a b mk fr, Reads (wordVfredsum d a b mk fr) (.vfredsum d a b mk fr)) ∧
    (∀ d a b mk fr, Reads (wordVfredmax d a b mk fr) (.vfredmax d a b mk fr)) ∧
    (∀ d a b mk fr, Reads (wordVfredmin d a b mk fr) (.vfredmin d a b mk fr)) := by
  simp only [reads_iff]
  simp [decodeNat, decodeVred, legal, wordVredsum, wordVredmax, wordVredmin, wordVredmaxu, wordVredminu, wordVredand, wordVredor,
    wordVredxor, wordVfredsum, wordVfredmax, wordVfredmin]

/-- VPERM (R74). -/
theorem reads_vperm :
    (∀ d a b mk, Reads (wordVslideup d a b mk) (.vslideup d a b mk)) ∧ (∀ d a b mk, Reads (wordVslidedn d a b mk) (.vslidedn d a b mk)) ∧
    (∀ d a b mk, Reads (wordVgatherv d a b mk) (.vgatherv d a b mk)) ∧
    (∀ d a mk, mk ≠ 0 → Reads (wordVcompress d a mk) (.vcompress d a mk)) ∧
    (∀ d a mk, mk ≠ 0 → Reads (wordVexpand d a mk) (.vexpand d a mk)) ∧ (∀ d a mk, Reads (wordVbcast d a mk) (.vbcast d a mk)) ∧
    (∀ d a b, Reads (wordVext d a b) (.vext d a b)) ∧ (∀ d a b, Reads (wordVins d a b) (.vins d a b)) ∧
    (∀ d mk, Reads (wordVid d mk) (.vid d mk)) ∧ (∀ d a mk, Reads (wordViota d a mk) (.viota d a mk)) ∧
    (∀ d a b mk, Reads (wordVzip d a b mk) (.vzip d a b mk)) ∧ (∀ d a b mk, Reads (wordVunzip d a b mk) (.vunzip d a b mk)) ∧
    (∀ d a mk, Reads (wordVmov d a mk) (.vmov d a mk)) ∧ (∀ d a mk fr, Reads (wordVunpk d a mk fr) (.vunpk d a mk fr)) ∧
    (∀ d mk fr, Reads (wordVrand d mk fr) (.vrand d mk fr)) ∧ (∀ d a mk fr, Reads (wordVplhead d a mk fr) (.vplhead d a mk fr)) ∧
    (∀ d a b mk fr, Reads (wordVplresc d a b mk fr) (.vplresc d a b mk fr)) := by
  simp only [reads_iff]
  simp [decodeNat, decodeVperm, legal, wordVslideup, wordVslidedn, wordVgatherv, wordVcompress, wordVexpand, wordVbcast, wordVext,
    wordVins, wordVid, wordViota, wordVzip, wordVunzip, wordVmov, wordVunpk, wordVrand, wordVplhead, wordVplresc]

/-- VMASK (R75). -/
theorem reads_vmask :
    (∀ d a b, Reads (wordMand d a b) (.mand d a b)) ∧ (∀ d a b, Reads (wordMor d a b) (.mor d a b)) ∧
    (∀ d a b, Reads (wordMxor d a b) (.mxor d a b)) ∧ (∀ d a b, Reads (wordMandn d a b) (.mandn d a b)) ∧
    (∀ d a, Reads (wordMnot d a) (.mnot d a)) ∧ (∀ d a mk, Reads (wordMpopc d a mk) (.mpopc d a mk)) ∧
    (∀ d a mk, Reads (wordMfirst d a mk) (.mfirst d a mk)) ∧ (∀ d a mk, Reads (wordMsbf d a mk) (.msbf d a mk)) ∧
    (∀ d a mk, Reads (wordMsif d a mk) (.msif d a mk)) ∧ (∀ d, Reads (wordMset d) (.mset d)) ∧ (∀ d, Reads (wordMclr d) (.mclr d)) ∧
    (∀ d a, Reads (wordMmovg d a) (.mmovg d a)) ∧ (∀ d a, Reads (wordMmovm d a) (.mmovm d a)) := by
  simp only [reads_iff]
  simp [decodeNat, decodeVmask, legal, wordMand, wordMor, wordMxor, wordMandn, wordMnot, wordMpopc, wordMfirst, wordMsbf, wordMsif,
    wordMset, wordMclr, wordMmovg, wordMmovm]

/-- VLD and VST (R77). -/
theorem reads_vmem :
    (∀ d a mk, Reads (wordVld d a mk) (.vld d a mk)) ∧ (∀ d a b mk, Reads (wordVlds d a b mk) (.vlds d a b mk)) ∧
    (∀ d a b mk iw, Reads (wordVldx d a b mk iw) (.vldx d a b mk iw)) ∧
    (∀ d a mk nf mw, Reads (wordVldseg d a mk nf mw) (.vldseg d a mk nf mw)) ∧ (∀ d a mk, Reads (wordVldff d a mk) (.vldff d a mk)) ∧
    (∀ d a b mk p kk rnd, kk ≤ p → Reads (wordVldpl d a b mk p kk rnd) (.vldpl d a b mk p kk rnd)) ∧
    (∀ d a cnt, Reads (wordVldw d a cnt) (.vldw d a cnt)) ∧ (∀ d a mk rep, rep.val < 6 → Reads (wordVlde d a mk rep) (.vlde d a mk rep)) ∧
    (∀ d a mk, Reads (wordVst d a mk) (.vst d a mk)) ∧ (∀ d a b mk, Reads (wordVsts d a b mk) (.vsts d a b mk)) ∧
    (∀ d a b mk iw, Reads (wordVstx d a b mk iw) (.vstx d a b mk iw)) ∧
    (∀ d a mk nf mw, Reads (wordVstseg d a mk nf mw) (.vstseg d a mk nf mw)) ∧
    (∀ d a b mk p kk, kk ≤ p → Reads (wordVstpl d a b mk p kk) (.vstpl d a b mk p kk)) ∧
    (∀ d a cnt, Reads (wordVstw d a cnt) (.vstw d a cnt)) := by
  simp only [reads_iff]
  simp [decodeNat, decodeVld, decodeVst, legal, bitAt, ↓fin4_ofNat_div, ↓fin4_ofNat_word, wordVld, wordVlds, wordVldx, wordVldseg,
    wordVldff, wordVldpl, wordVldw, wordVlde, wordVst, wordVsts, wordVstx, wordVstseg, wordVstpl, wordVstw]

/-- TILE (R78). -/
theorem reads_tile :
    (∀ ac qa qb mr mc fr zero neg, Reads (wordTmop ac qa qb mr mc fr zero neg) (.tmop ac qa qb mr mc fr zero neg)) ∧
    (∀ ac qa qb mr mc fr zero neg, mr ≠ 0 → Reads (wordTmops ac qa qb mr mc fr zero neg) (.tmops ac qa qb mr mc fr zero neg)) ∧
    (∀ ac clrf, Reads (wordTzero ac clrf) (.tzero ac clrf)) ∧ (∀ q a b fr sb, Reads (wordTldq q a b fr sb) (.tldq q a b fr sb)) ∧
    (∀ q a b fr sb, Reads (wordTldqt q a b fr sb) (.tldqt q a b fr sb)) ∧
    (∀ ac a b fr zero, Reads (wordTsta ac a b fr zero) (.tsta ac a b fr zero)) ∧
    (∀ ac v i n col, Reads (wordTslv ac v i n col) (.tslv ac v i n col)) ∧
    (∀ ac v i n col, Reads (wordTvsl ac v i n col) (.tvsl ac v i n col)) ∧ (∀ t a, Reads (wordTsave t a) (.tsave t a)) ∧
    (∀ t a, Reads (wordTrstr t a) (.trstr t a)) ∧ (∀ q a b fr sc, Reads (wordTmcast q a b fr sc) (.tmcast q a b fr sc)) := by
  simp only [reads_iff]
  simp [decodeNat, decodeTile, legal, bitAt, ↓fin4_ofNat_div, wordTmop, wordTmops, wordTzero, wordTldq, wordTldqt, wordTsta, wordTslv,
    wordTvsl, wordTsave, wordTrstr, wordTmcast]

theorem fld_four_eq_zero {w lo : Nat} :
    fld w lo 4 = 0 ↔ fld w lo 1 = 0 ∧ fld w (lo + 1) 1 = 0 ∧ fld w (lo + 2) 1 = 0 ∧ fld w (lo + 3) 1 = 0 := by
  simp only [fld, pow_add, ← Nat.div_div_eq_div_mul]
  omega

theorem fld_two_eq_zero {w lo : Nat} : fld w lo 2 = 0 ↔ fld w lo 1 = 0 ∧ fld w (lo + 1) 1 = 0 := by
  simp only [fld, pow_add, ← Nat.div_div_eq_div_mul]
  omega

/-- FENCE (R64): the flags that say which fence it is must not all be clear, and R55 reads them as two fields. -/
theorem reads_fence (ifetch eng pl ps ll ls : Bool) (sc : Scope) (h : pl || ps || ll || ls || eng || ifetch) :
    Reads (wordFence ifetch eng sc pl ps ll ls) (.fence ifetch eng sc pl ps ll ls) := by
  have hsome : ¬ ((pl = false ∧ ps = false ∧ ll = false ∧ ls = false) ∧ ifetch = false ∧ eng = false) := by
    rintro ⟨⟨rfl, rfl, rfl, rfl⟩, rfl, rfl⟩
    cases h
  simp only [reads_iff]
  simp [decodeNat, legal, bitAt, fld_four_eq_zero, fld_two_eq_zero, wordFence, -not_and, hsome]

/-- MTS to a register without a row of its own (R68). -/
theorem reads_mts (a : GReg) (num : BitVec 12) (h : mtsOwn num.toNat = false) : Reads (wordMts a num) (.mts a num) := by
  have hnum : num.toNat % 4096 = num.toNat := Nat.mod_eq_of_lt num.isLt
  simp only [reads_iff]
  simp [decodeNat, decodeMts, legal, ↓bitVec_ofNat_word, wordMts, hnum]
  split <;> simp_all [mtsOwn]

end Sys2Proof
end

section
/-! PROOF. O10, from its parts. -/

namespace Sys2Proof

theorem barrierId_of_bool {sc : BarScope} {id : Fin 32} (h : (!(sc == .pod && 8 ≤ id.val)) = true) : ¬ (sc = .pod ∧ 8 ≤ id.val) := by
  simpa [or_iff_not_imp_left] using h

/-- The word of an instruction decodes to it, major by major; an event has no word. -/
theorem reads_of_encodeNat {i : Instr} {n : Nat} (h : wellFormed i = true) (he : encodeNat i = some n) : Reads n i := by
  cases i with
  | add | sub | and | or | xor | andn | sll | srl | sra | rol | ror | slt | sltu | min | max | minu | maxu | mul | mulh | mulhu |
    div | divu | rem | remu | clz | ctz | popc | movz | movn | addw | subw | bswap =>
    obtain rfl := Option.some.inj he
    simp only [reads_alu]
  | addi | andi | ori | xori | slti | sltiu | slli | srli | srai | rori | lih | addpc | shori =>
    obtain rfl := Option.some.inj he
    simp only [reads_immediate]
  | fadd | fsub | fmul | fdiv | fsqrt | fmin | fmax | fceq | fclt | fcle | fclass | fcvti | fcvtf | fneg | fabs | fma =>
    obtain rfl := Option.some.inj he
    simp only [reads_fp]
  | fcvtff d a src sz rm =>
    obtain rfl := Option.some.inj he
    have hop : src ≠ sz := of_decide_eq_true h
    simp only [reads_fp, hop, not_false_eq_true, ne_eq]
  | lb | lh | lw | ld | lbu | lhu | lwu | sb | sh | sw | sd =>
    obtain rfl := Option.some.inj he
    simp only [reads_scalarMemory]
  | lr | sc | amoswap | amoadd | amoand | amoor | amoxor | amomin | amomax | amominu | amomaxu | amocas | ldacq | strel =>
    obtain rfl := Option.some.inj he
    simp only [reads_atom]
  | cinv | cflush | cclean | czero | cpfr | cpfw | iflush =>
    obtain rfl := Option.some.inj he
    simp only [reads_cache]
  | beq | bne | blt | bge | bltu | bgeu | j | jal | jalr =>
    obtain rfl := Option.some.inj he
    simp only [reads_branch]
  | trap | brk | eret | wfi | yield | tlbinv | tlbsync | mfs =>
    obtain rfl := Option.some.inj he
    simp only [reads_sys]
  | mtsStatus | mtsVl | mtsVtype | mtsVcap | mtsMember | mtsTctl | mtsTstat | mtsCntc | mtsYctl | mtsSpcfg =>
    obtain rfl := Option.some.inj he
    simp only [reads_mtsOwn]
  | chwait | chpost | bcpost | bcwait | bcread | bcclr | cwait =>
    obtain rfl := Option.some.inj he
    simp only [reads_sync]
  | gbar d a id sc comb =>
    obtain rfl := Option.some.inj he
    have hop : ¬ (sc = .pod ∧ 8 ≤ id.val) := barrierId_of_bool h
    simp only [reads_sync, hop, not_false_eq_true]
  | garrive d id sc =>
    obtain rfl := Option.some.inj he
    have hop : ¬ (sc = .pod ∧ 8 ≤ id.val) := barrierId_of_bool h
    simp only [reads_sync, hop, not_false_eq_true]
  | gwait a id sc =>
    obtain rfl := Option.some.inj he
    have hop : ¬ (sc = .pod ∧ 8 ≤ id.val) := barrierId_of_bool h
    simp only [reads_sync, hop, not_false_eq_true]
  | chrecv dq ch =>
    obtain rfl := Option.some.inj he
    have hop : dq ≠ 0 := of_decide_eq_true h
    simp only [reads_sync, hop, not_false_eq_true, ne_eq]
  | sendStrmCopy | sendStrmGather | sendStrmScatter | sendStrmFill | sendStrmUnz | sendStrmPlane | sendWeaveLoad | sendWeaveRun |
    sendCollBmax | sendCollIsum | sendCollFsum | sendCollBcast | sendCollOr | sendTendCall | sendLnchGang =>
    obtain rfl := Option.some.inj he
    simp only [reads_send]
  | setvl | setvlA | setvlmax | setvlmaxA =>
    obtain rfl := Option.some.inj he
    simp only [reads_setvl]
  | vadd | vsub | vmul | vmulh | vmulhu | vmin | vmax | vminu | vmaxu | vand | vor | vxor | vshl | vshr | vsra | vadds | vaddsu |
    vsubs | vsubsu | vavg | vabsd | vnarrow =>
    obtain rfl := Option.some.inj he
    simp only [reads_vint]
  | vaddVx | vsubVx | vmulVx | vmulhVx | vmulhuVx | vminVx | vmaxVx | vminuVx | vmaxuVx | vandVx | vorVx | vxorVx | vshlVx | vshrVx
    | vsraVx | vaddsVx | vaddsuVx | vsubsVx | vsubsuVx | vavgVx | vabsdVx =>
    obtain rfl := Option.some.inj he
    simp only [reads_vintx]
  | vceq | vcne | vclt | vcle | vcltu | vcleu | vfceq | vfclt | vfcle | vfcun | vfclass =>
    obtain rfl := Option.some.inj he
    simp only [reads_vcmp]
  | vmerge d a b mk =>
    obtain rfl := Option.some.inj he
    have hop : mk ≠ 0 := of_decide_eq_true h
    simp only [reads_vcmp, hop, not_false_eq_true, ne_eq]
  | vfadd | vfsub | vfmul | vfdiv | vfsqrt | vfmin | vfmax | vfrcp | vfrsq | vfexp2 | vflog2 | vfcvt | vfnf | vfabs | vfneg |
    vfscale =>
    obtain rfl := Option.some.inj he
    simp only [reads_vfp]
  | vfaddVx | vfsubVx | vfmulVx | vfdivVx | vfsqrtVx | vfminVx | vfmaxVx | vfscaleVx | vfma | vfnma | vima | vplstep =>
    obtain rfl := Option.some.inj he
    simp only [reads_vfpx]
  | vredsum | vredmax | vredmin | vredmaxu | vredminu | vredand | vredor | vredxor | vfredsum | vfredmax | vfredmin =>
    obtain rfl := Option.some.inj he
    simp only [reads_vred]
  | vslideup | vslidedn | vgatherv | vbcast | vext | vins | vid | viota | vzip | vunzip | vmov | vunpk | vrand | vplhead | vplresc
    =>
    obtain rfl := Option.some.inj he
    simp only [reads_vperm]
  | vcompress d a mk =>
    obtain rfl := Option.some.inj he
    have hop : mk ≠ 0 := of_decide_eq_true h
    simp only [reads_vperm, hop, not_false_eq_true, ne_eq]
  | vexpand d a mk =>
    obtain rfl := Option.some.inj he
    have hop : mk ≠ 0 := of_decide_eq_true h
    simp only [reads_vperm, hop, not_false_eq_true, ne_eq]
  | mand | mor | mxor | mandn | mnot | mpopc | mfirst | msbf | msif | mset | mclr | mmovg | mmovm =>
    obtain rfl := Option.some.inj he
    simp only [reads_vmask]
  | vld | vlds | vldx | vldseg | vldff | vldw | vst | vsts | vstx | vstseg | vstw =>
    obtain rfl := Option.some.inj he
    simp only [reads_vmem]
  | vldpl d a b mk p kk rnd =>
    obtain rfl := Option.some.inj he
    have hop : kk ≤ p := of_decide_eq_true h
    simp only [reads_vmem, hop]
  | vlde d a mk rep =>
    obtain rfl := Option.some.inj he
    have hop : rep.val < 6 := of_decide_eq_true h
    simp only [reads_vmem, hop]
  | vstpl d a b mk p kk =>
    obtain rfl := Option.some.inj he
    have hop : kk ≤ p := of_decide_eq_true h
    simp only [reads_vmem, hop]
  | tmop | tzero | tldq | tldqt | tsta | tslv | tvsl | tsave | trstr | tmcast =>
    obtain rfl := Option.some.inj he
    simp only [reads_tile]
  | tmops ac qa qb mr mc fr zero neg =>
    obtain rfl := Option.some.inj he
    have hop : mr ≠ 0 := of_decide_eq_true h
    simp only [reads_tile, hop, not_false_eq_true, ne_eq]
  | fence ifetch eng sc pl ps ll ls =>
    obtain rfl := Option.some.inj he
    exact reads_fence ifetch eng pl ps ll ls sc h
  | mts a num =>
    obtain rfl := Option.some.inj he
    exact reads_mts a num ((Bool.not_eq_true' _).mp h)
  | interruptTake | trappingDone | trapLoopReset | storePerform | storeAck | loadMissFill | atomicComplete | vectorExecute |
    vloadDataReturn | launchVclearDone | tileExecute | tileComplete | strmCopy | strmGather | strmScatter | strmFill | strmPlane |
    strmUnzForward | strmUnz | weaveLoad | weaveRun | weaveRunStart | weaveGatherTimeout | collBmax | collIsum | collFsum | collBcast
    | collOr | collInstanceStart | groupDeadlineExpire | tendStorageRead | tendStorageWrite | tendStorageComplete | tendMap |
    tendUnmap | tendPost | tendTimer | tendDoorbell | tendUnlistedService | tenderTimerExpire | lnchGang | engineComplete |
    heldReplyRetry | cReplyArrival | bcArrival | channelArrival | chpostAccept | barrierRelease | barrierTimeout | yieldDeadlineExpire
    | reservationExpire | reservationHoldEnd | dirReadMiss | dirOwnershipRequest | probeAnswer | invalidationReceive | invalidationAck
    | cacheEviction | evictionNotice | regionThrottle | tempHot | tempTrip | tempRecover | regionReset | regionEventRetry |
    coreFailure | sliceFailure | pseudoChannelFailure | boundaryFailure | fabricPortFailure | fanovSramError | fanovRestartDone |
    modulePowerOn | mgmtAssign | mgmtResize | mgmtWindowGrant | mgmtWindowWithdraw | mgmtReset | mgmtFenceCore | mgmtAttest |
    mstatusWrite | fabricInbound | illegalInstruction | fetchPageFault | uncorrectableError | hostEndpointReset |
    regionThrottleRelease | fabricCollectiveArrival | mgmtObjectAssign | endpointIdAssign =>
    exact nomatch he

end Sys2Proof
end

section
open Sys2Proof

/-- Settles O10: the word of each major's instructions, read field by field. -/
theorem decodeOfEncodeIsTheInstruction : Obligations.DecodeOfEncodeIsTheInstruction := by
  unfold Obligations.DecodeOfEncodeIsTheInstruction
  intro i w hwf he
  obtain ⟨n, hn, rfl⟩ := Option.map_eq_some_iff.mp he
  exact reads_of_encodeNat hwf hn
end

section
open Sys2Proof Sys2Proof.Machine

/-- Settles O35: each of these instructions is one `vDispatch`. -/
theorem vectorIntegerInstructionsIssue : Obligations.VectorIntegerInstructionsIssue := by
  unfold Obligations.VectorIntegerInstructionsIssue
  intros
  and_intros <;> exact vectorIssues_of_vDispatch fun _ => rfl

/-- Settles O37: each of these instructions is one `vDispatch`. -/
theorem vectorMemoryInstructionsIssue : Obligations.VectorMemoryInstructionsIssue := by
  unfold Obligations.VectorMemoryInstructionsIssue
  intros
  and_intros <;> exact vectorIssues_of_vDispatch fun _ => rfl

end
section
open Sys2Proof

/-- Settles O9: the decoder evaluated on each of the words. -/
theorem wordsDecodeToTheirInstructions : Obligations.WordsDecodeToTheirInstructions := by
  unfold Obligations.WordsDecodeToTheirInstructions
  and_intros <;> rfl
end

section
/-! PROOF. The privileged forms (R56, R245): in U mode `kOnly` and `mtsOp` raise 0x04, for O31. -/

namespace Sys2Proof.Machine

/-- An instruction of K mode in U mode. -/
theorem kOnly_user {s : State} {w : Nat} {f : State → Out} (hmode : s.me.status.mode = false) :
    kOnly w s f = raise 0x04 (BitVec.ofNat 64 w) s := by
  rw [kOnly, hmode, if_neg Bool.false_ne_true]
  rfl

/-- A write in U mode of a register that U mode may not write. -/
theorem mtsOp_user {s : State} {num w : Nat} {a : GReg} {f : Word → Ctx → Ctx} (hmode : s.me.status.mode = false)
    (hnum : uWritable num = false) : mtsOp num w a f s = raise 0x04 (BitVec.ofNat 64 w) s := by
  rw [mtsOp, hmode, hnum]
  rfl

/-- The numbers of the registers that MTS writes by their number and in K mode only (R239, R245). -/
def KWritten (n : Nat) : Prop :=
  n ∈ [0x001, 0x002, 0x003, 0x004, 0x005, 0x006, 0x007, 0x009, 0x00B, 0x00C, 0x039, 0x050, 0x051, 0x052, 0x080] ∨ (0x070 ≤ n ∧ n < 0x080)

theorem uWritable_of_kWritten {n : Nat} (h : KWritten n) : uWritable n = false := by
  obtain h | ⟨hlow, hhigh⟩ := h
  · revert n
    decide
  · interval_cases n <;> rfl

/-- These registers exist. -/
theorem sysRead_of_kWritten {n : Nat} (h : KWritten n) (s : State) (c : Nat) : ∃ v, s.sysRead c n = some v := by
  obtain h | ⟨hlow, hhigh⟩ := h
  · simp only [List.mem_cons, List.not_mem_nil, or_false] at h
    obtain rfl | rfl | rfl | rfl | rfl | rfl | rfl | rfl | rfl | rfl | rfl | rfl | rfl | rfl | rfl := h <;> exact ⟨_, rfl⟩
  · interval_cases n <;> exact ⟨_, rfl⟩

/-- MTS of one of them in U mode. -/
theorem execMts_user {s : State} {num : BitVec 12} (hmode : s.me.status.mode = false) (h : KWritten num.toNat) (a : GReg) :
    execMts a num s = raise 0x04 (BitVec.ofNat 64 (wordMts a num)) s := by
  obtain ⟨v, hread⟩ := sysRead_of_kWritten h s s.cur
  rw [execMts, hread]
  exact mtsOp_user hmode (uWritable_of_kWritten h)

end Sys2Proof.Machine
end

section
open Sys2Proof Sys2Proof.Machine

/-- Settles O31: each form is `kOnly` or `mtsOp` with its word. -/
theorem privilegedFormsTrapInUserMode : Obligations.PrivilegedFormsTrapInUserMode := by
  unfold Obligations.PrivilegedFormsTrapInUserMode
  intro s a b sc num hmode priv
  have of_raise : ∀ {i : Instr} {w : Nat}, exec i s = raise 0x04 (BitVec.ofNat 64 w) s → priv i w := raises_of_raise _ s 0x04 _
  exact ⟨of_raise (show execEret s = _ from kOnly_user hmode),
    of_raise (show execTlbinv a b sc s = _ from kOnly_user hmode),
    of_raise (show execTlbsync s = _ from kOnly_user hmode),
    of_raise (show execCinv a b s = _ from kOnly_user hmode),
    of_raise (show execMtsStatus a s = _ from mtsOp_user hmode rfl),
    of_raise (show execMtsVl a s = _ from mtsOp_user hmode rfl),
    of_raise (show execMtsVtype a s = _ from mtsOp_user hmode rfl),
    of_raise (show execMtsVcap a s = _ from mtsOp_user hmode rfl),
    of_raise (show execMtsMember a s = _ from kOnly_user hmode),
    of_raise (show execMtsTctl a s = _ from kOnly_user hmode),
    of_raise (show execMtsTstat a s = _ from kOnly_user hmode),
    of_raise (show execMtsCntc a s = _ from mtsOp_user hmode rfl),
    of_raise (show execMtsYctl a s = _ from by rw [execMtsYctl, mtsOp_user hmode rfl]),
    of_raise (show execMtsSpcfg a s = _ from kOnly_user hmode),
    fun hnum => of_raise (execMts_user hmode hnum a)⟩
end

section
/-! PROOF. The tile instructions without memory (R217, R226, R228, R231): the gate, the checks behind it and the entry into the tile queue,
for O43. -/

namespace Sys2Proof.Machine

theorem exec_tmop (s : State) (ac : AccReg) (qa qb : PanelReg) (mr mc : MaskSel) (fr : FmtSel) (zero neg : Bool) :
    exec (.tmop ac qa qb mr mc fr zero neg) s = mopIssue false (wordTmop ac qa qb mr mc fr zero neg) ac qa qb mr mc fr zero neg s := rfl
theorem exec_tmops (s : State) (ac : AccReg) (qa qb : PanelReg) (mr mc : MaskSel) (fr : FmtSel) (zero neg : Bool) :
    exec (.tmops ac qa qb mr mc fr zero neg) s = mopIssue true (wordTmops ac qa qb mr mc fr zero neg) ac qa qb mr mc fr zero neg s := rfl
theorem exec_tzero (s : State) (ac : AccReg) (clrf : Bool) : exec (.tzero ac clrf) s = execTzero ac clrf s := rfl
theorem exec_tslv (s : State) (ac : AccReg) (v : VReg) (gi : GReg) (n : Fin 4) (col : Bool) :
    exec (.tslv ac v gi n col) s = execTslv ac v gi n col s := rfl
theorem exec_tvsl (s : State) (ac : AccReg) (v : VReg) (gi : GReg) (n : Fin 4) (col : Bool) :
    exec (.tvsl ac v gi n col) s = execTvsl ac v gi n col s := rfl

/-! The gate of an instruction that may need the vector unit. -/

theorem tileGate_no_vector {s : State} (hven : s.me.status.ven = false) (w : Nat) (f : Out) :
    tileGate true w s f = raise 0x0A (BitVec.ofNat 64 w) s := by
  rw [tileGate, hven]
  rfl

/-- Where the vector unit is available or not needed, the gate is that of an instruction without vector operands. -/
theorem tileGate_vector {s : State} {vec : Bool} (hven : vec = true → s.me.status.ven = true) (w : Nat) (f : Out) :
    tileGate vec w s f = tileGate false w s f := by
  cases vec with
  | false => rfl
  | true => rw [tileGate, hven rfl]; rfl

/-! The entry into the tile queue. -/

theorem tileQueued_of_room (s : State) (e : TEntry) (vd : Bool) :
    TileQueued s ((s.modCore (coreOf s.cur) (fun k => { k with tq := k.tq ++ [e] })).modMe (fun c =>
      { c with
        st := .ready, wait := .none, pc := c.pc + 4, young := false, cntT := c.cntT + 1
        status := { c.status with vd := c.status.vd || vd } })) e vd := by
  refine ⟨rfl, fun j hj => State.modMe_ctx_other _ _ _ hj, ?_, fun k => ?_⟩
  · rw [State.modMe_me]
    rfl
  · rw [State.modMe_core, State.modCore_core]
    split
    case isTrue h => rw [h]
    case isFalse => rfl

/-- The instruction i, which accesses no memory, enters the tile queue, or waits for room in it. -/
def TileQueues (i : Instr) (s : State) (op : TOp) (fw : Word) (vd : Bool) : Prop :=
  ((s.core (coreOf s.cur)).tq.length < 8 → ∃ t, exec i s = .next t ∧ TileQueued s t (tileEntryOf s op fw 0 0 [] 0 none) vd) ∧
  (8 ≤ (s.core (coreOf s.cur)).tq.length → Waits i s .waitUnit .tqFull)

theorem tileQueues_of_tilePush {i : Instr} {s : State} {op : TOp} {fw : Word} {vd : Bool}
    (h : exec i s = tilePush (s.tEntry op fw 0 0 [] 0 none) vd s) : TileQueues i s op fw vd := by
  refine ⟨fun hroom => ⟨_, h.trans (if_neg (not_le.2 hroom)), tileQueued_of_room s _ vd⟩, fun hfull => ?_⟩
  exact waits_of_hold (h.trans (if_pos hfull))

/-! TMOP and TMOPS. -/

/-- The operation of a TMOP or TMOPS with the masks that it captures at issue (R226). -/
def State.mopOp (s : State) (comp : Bool) (ac : AccReg) (qa qb : PanelReg) (mr mc : MaskSel) (zero neg : Bool) : TOp :=
  let low := fun (k : MaskSel) => if k = 0 then BitVec.allOnes 64 else (s.me.m.get (maskReg k)).extractLsb' 0 64
  .mop comp ac qa qb (if comp then BitVec.allOnes 64 else low mr) (low mc)
    (if comp then (s.me.m.get (maskReg mr)).extractLsb' 0 256 else BitVec.allOnes 256) zero neg

section
variable {s : State} (comp : Bool) (w : Nat) (ac : AccReg) (qa qb : PanelReg) {mr mc : MaskSel} {fr : FmtSel} (zero neg : Bool)

/-- Masks need the vector unit (R217). -/
theorem mopIssue_no_vector (hmask : mr ≠ 0 ∨ mc ≠ 0) (hven : s.me.status.ven = false) :
    mopIssue comp w ac qa qb mr mc fr zero neg s = raise 0x0A (BitVec.ofNat 64 w) s := by
  have hmasked : (mr != 0 || mc != 0) = true := by simpa using hmask
  rw [mopIssue, hmasked]
  exact tileGate_no_vector hven _ _

variable (hven : mr ≠ 0 ∨ mc ≠ 0 → s.me.status.ven = true)
include hven

/-- With the vector unit where masks need it, the gate checks the ownership. -/
theorem mopIssue_gate : ∃ f, mopIssue comp w ac qa qb mr mc fr zero neg s = tileGate false w s f ∧
    f = if !mopFwOk (s.me.getG (fmtReg fr)) then raise 0x03 (s.me.getG (fmtReg fr)) s
      else if (mr != 0 || mc != 0) && s.me.vclear then .next (s.hold .waitUnit .vclear)
      else if (mr != 0 || mc != 0) && !(s.vqOf s.cur).isEmpty then .next (s.hold .waitUnit .vecDone)
      else tilePush (s.tEntry (s.mopOp comp ac qa qb mr mc zero neg) (s.me.getG (fmtReg fr)) 0 0 [] 0 none) false s :=
  ⟨_, tileGate_vector (fun h => hven (by simpa using h)) _ _, rfl⟩

theorem mopIssue_not_owner (hown : ¬ TileOwner s) : mopIssue comp w ac qa qb mr mc fr zero neg s = raise 0x0B s.me.pc s := by
  obtain ⟨f, hgate, -⟩ := mopIssue_gate comp w ac qa qb zero neg hven (fr := fr)
  rw [hgate, tileGate_of_not_owner w s f hown]

variable (hown : TileOwner s)
include hown

theorem mopIssue_bad_format (hfw : mopFwOk (s.me.getG (fmtReg fr)) = false) :
    mopIssue comp w ac qa qb mr mc fr zero neg s = raise 0x03 (s.me.getG (fmtReg fr)) s := by
  obtain ⟨f, hgate, hf⟩ := mopIssue_gate comp w ac qa qb zero neg hven (fr := fr)
  rw [hgate, tileGate_of_owner w s f hown, hf, hfw]
  rfl

variable (hfw : mopFwOk (s.me.getG (fmtReg fr)) = true)
include hfw

theorem mopIssue_vclear (hmask : mr ≠ 0 ∨ mc ≠ 0) (hclear : s.me.vclear = true) :
    mopIssue comp w ac qa qb mr mc fr zero neg s = .next (s.hold .waitUnit .vclear) := by
  obtain ⟨f, hgate, hf⟩ := mopIssue_gate comp w ac qa qb zero neg hven (fr := fr)
  have hmasked : (mr != 0 || mc != 0) = true := by simpa using hmask
  rw [hgate, tileGate_of_owner w s f hown, hf, hfw, hmasked, hclear]
  rfl

theorem mopIssue_queues (hidle : mr ≠ 0 ∨ mc ≠ 0 → s.me.vclear = false ∧ s.vqOf s.cur = []) :
    mopIssue comp w ac qa qb mr mc fr zero neg s =
      tilePush (s.tEntry (s.mopOp comp ac qa qb mr mc zero neg) (s.me.getG (fmtReg fr)) 0 0 [] 0 none) false s := by
  obtain ⟨f, hgate, hf⟩ := mopIssue_gate comp w ac qa qb zero neg hven (fr := fr)
  rw [hgate, tileGate_of_owner w s f hown, hf, hfw]
  cases hmasked : (mr != 0 || mc != 0) with
  | false => rfl
  | true =>
    obtain ⟨hclear, hvq⟩ := hidle (by simpa using hmasked)
    rw [hclear, hvq]
    rfl

end

/-! TSLV and TVSL. -/

theorem effVstart_cur (s : State) : s.effVstart s.cur = if s.vqOf s.cur = [] then s.me.vstart.toNat else 0 := by
  unfold State.effVstart
  cases s.vqOf s.cur <;> rfl

/-- A slice that R231 reserves. -/
theorem sliceBad_iff (s : State) (v : VReg) (s0 cnt : Nat) : sliceBad s v s0 cnt = true ↔
    (if s.vqOf s.cur = [] then s.me.vstart.toNat else 0) ≠ 0 ∨ 8 < sliceRegs s.me.vcap.toNat cnt ∨ 64 < s0 + cnt ∨
      32 < v.val + sliceRegs s.me.vcap.toNat cnt := by
  rw [sliceBad, decide_eq_true_iff, effVstart_cur]

/-- The gate of a slice move with the vector unit is that of its ownership. -/
theorem tileGate_slice {s : State} (hown : TileOwner s) (hven : s.me.status.ven = true) (w : Nat) (f : Out) : tileGate true w s f = f := by
  rw [tileGate_vector fun _ => hven, tileGate_of_owner w s f hown]

theorem tileGate_slice_not_owner {s : State} (hown : ¬ TileOwner s) (hven : s.me.status.ven = true) (w : Nat) (f : Out) :
    tileGate true w s f = raise 0x0B s.me.pc s := by
  rw [tileGate_vector fun _ => hven, tileGate_of_not_owner w s f hown]

section
variable {s : State} (hown : TileOwner s) (hven : s.me.status.ven = true) (ac : AccReg) (v : VReg) (gi : GReg) (n : Fin 4) (col : Bool)
include hown hven

theorem execTslv_bad_slice (hbad : sliceBad s v (s.g gi).toNat (sliceCount n) = true) :
    execTslv ac v gi n col s = raise 0x02 (BitVec.ofNat 64 (wordTslv ac v gi n col)) s := by
  rw [execTslv, tileGate_slice hown hven]
  exact if_pos hbad

theorem execTvsl_bad_slice (hbad : sliceBad s v (s.g gi).toNat (sliceCount n) = true) :
    execTvsl ac v gi n col s = raise 0x02 (BitVec.ofNat 64 (wordTvsl ac v gi n col)) s := by
  rw [execTvsl, tileGate_slice hown hven]
  exact if_pos hbad

variable (hgood : sliceBad s v (s.g gi).toNat (sliceCount n) = false) (hclear : s.me.vclear = false) (hvq : s.vqOf s.cur = [])
include hgood hclear hvq

theorem execTslv_queues (hslv : s.slvPending s.cur [⟨v.val, 16 * sliceRegs s.me.vcap.toNat (sliceCount n), true⟩] = false) :
    execTslv ac v gi n col s = tilePush (s.tEntry (.slv ac v (s.g gi).toNat (sliceCount n) col) 0 0 0 [] 0 none) true s := by
  rw [execTslv, tileGate_slice hown hven]
  dsimp only
  rw [hgood, hclear, hvq, hslv]
  rfl

theorem execTvsl_queues (hslv : s.slvPending s.cur [⟨v.val, 16 * sliceRegs s.me.vcap.toNat (sliceCount n), false⟩] = false) :
    execTvsl ac v gi n col s = tilePush (s.tEntry (.vsl ac (s.g gi).toNat (sliceCount n) col
      ((List.range (64 * sliceCount n)).map (fun j => BitVec.ofNat 32 (s.me.elem s.me.vcap.toNat v.val 32 j)))) 0 0 0 [] 0 none) false s := by
  rw [execTvsl, tileGate_slice hown hven]
  dsimp only
  rw [hgood, hclear, hvq, hslv]
  rfl

end

end Sys2Proof.Machine
end

section
open Sys2Proof Sys2Proof.Machine

/-- Settles O43: the gate, then for a multiplication its format word and masks, for a slice move its slice and registers, then the queue. -/
theorem tileInstructionsIssue : Obligations.TileInstructionsIssue := by
  unfold Obligations.TileInstructionsIssue
  intro s ac qa qb mr mc fr zero neg clrf col v gi n x tq fw masked low cnt s0 regs badSlice queued tmop tmops tslv tvsl
  have hbad : sliceBad s v s0 cnt = true ↔ badSlice := sliceBad_iff s v s0 cnt
  have hzero := exec_tzero s ac clrf
  have hmop := exec_tmop s ac qa qb mr mc fr zero neg
  have hmops := exec_tmops s ac qa qb mr mc fr zero neg
  have hslv := exec_tslv s ac v gi n col
  have hvsl := exec_tvsl s ac v gi n col
  refine ⟨fun hown hven hfw hidle => ⟨?_, ?_⟩, fun hown => ?_, fun hown hven hgood hclear hvq => ⟨fun hfree => ?_, fun hfree => ?_⟩,
    fun hown hmask hven hfw hclear => ⟨?_, ?_⟩, fun hown hven hfw => ⟨?_, ?_⟩, fun hown hven hslice => ⟨?_, ?_⟩,
    fun hven => ⟨?_, ?_, fun hmask => ⟨?_, ?_⟩⟩, fun hown hven => ⟨?_, ?_⟩, fun hown => ?_, fun hown hven => ⟨?_, ?_⟩⟩
  · exact tileQueues_of_tilePush (hmop.trans (mopIssue_queues _ _ _ _ _ _ _ hven hown hfw hidle))
  · exact tileQueues_of_tilePush (hmops.trans (mopIssue_queues _ _ _ _ _ _ _ hven hown hfw hidle))
  · exact tileQueues_of_tilePush (hzero.trans (tileGate_of_owner _ s _ hown))
  · exact tileQueues_of_tilePush
      (hslv.trans (execTslv_queues hown hven _ _ _ _ _ (Bool.eq_false_iff.2 (mt hbad.1 hgood)) hclear hvq hfree))
  · exact tileQueues_of_tilePush
      (hvsl.trans (execTvsl_queues hown hven _ _ _ _ _ (Bool.eq_false_iff.2 (mt hbad.1 hgood)) hclear hvq hfree))
  · exact waits_of_hold (hmop.trans (mopIssue_vclear _ _ _ _ _ _ _ (fun _ => hven) hown hfw hmask hclear))
  · exact waits_of_hold (hmops.trans (mopIssue_vclear _ _ _ _ _ _ _ (fun _ => hven) hown hfw hmask hclear))
  · exact raises_of_raise _ s _ _ (hmop.trans (mopIssue_bad_format _ _ _ _ _ _ _ hven hown hfw))
  · exact raises_of_raise _ s _ _ (hmops.trans (mopIssue_bad_format _ _ _ _ _ _ _ hven hown hfw))
  · exact raises_of_raise _ s _ _ (hslv.trans (execTslv_bad_slice hown hven _ _ _ _ _ (hbad.2 hslice)))
  · exact raises_of_raise _ s _ _ (hvsl.trans (execTvsl_bad_slice hown hven _ _ _ _ _ (hbad.2 hslice)))
  · exact raises_of_raise _ s _ _ (hslv.trans (tileGate_no_vector hven _ _))
  · exact raises_of_raise _ s _ _ (hvsl.trans (tileGate_no_vector hven _ _))
  · exact raises_of_raise _ s _ _ (hmop.trans (mopIssue_no_vector _ _ _ _ _ _ _ hmask hven))
  · exact raises_of_raise _ s _ _ (hmops.trans (mopIssue_no_vector _ _ _ _ _ _ _ hmask hven))
  · exact raises_of_raise _ s _ _ (hmop.trans (mopIssue_not_owner _ _ _ _ _ _ _ hven hown))
  · exact raises_of_raise _ s _ _ (hmops.trans (mopIssue_not_owner _ _ _ _ _ _ _ hven hown))
  · exact raises_of_raise _ s _ _ (hzero.trans (tileGate_of_not_owner _ s _ hown))
  · exact raises_of_raise _ s _ _ (hslv.trans (tileGate_slice_not_owner hown hven _ _))
  · exact raises_of_raise _ s _ _ (hvsl.trans (tileGate_slice_not_owner hown hven _ _))
end

section
/-! PROOF. Fetch (R135, R266, R267) by the translation of the PC and the instruction cache's copy, for O8 and O34. -/

namespace Sys2Proof.Machine

/-- What a fetch delivers of a word, given its cause where it is poisoned. -/
theorem fetch_of_uncached {s t : State} {c pa : Nat} {p : Piece} {ps : List Piece}
    (htrans : s.transSpan (s.whoCtx c) .fetch (s.ctx c).pc.toNat 4 = (t, .ok (p :: ps))) (hloc : p.loc = .hbm pa) (hunc : p.uncached = true) :
    s.fetch c = (t, if (t.firstPoison p.loc 4).isSome then .error 0x09 else .ok (leNat (t.bytesAt p.loc 4))) := by
  simp only [State.fetch, htrans, hloc, hunc, if_true]

theorem fetch_of_cached {s t : State} {c pa : Nat} {p : Piece} {ps : List Piece}
    (htrans : s.transSpan (s.whoCtx c) .fetch (s.ctx c).pc.toNat 4 = (t, .ok (p :: ps))) (hloc : p.loc = .hbm pa) (hunc : p.uncached = false) :
    s.fetch c = ((t.fetchCached (coreOf c) pa).1,
      if (t.fetchCached (coreOf c) pa).2.2 then .error 0x09 else .ok (t.fetchCached (coreOf c) pa).2.1) := by
  simp only [State.fetch, htrans, hloc, hunc, Bool.false_eq_true, if_false]

/-- The instruction cache after it has taken the line of a word that it holds no copy of. -/
def State.icacheFilled (s : State) (k pa : Nat) : State :=
  s.modCore k (fun c => { c with
    icache := (⟨lineOf pa, s.lineData (lineOf pa), s.lineBad (lineOf pa)⟩ :: c.icache).take icacheLines })

/-- Without a copy the word of memory is delivered, and the cache takes its line. -/
theorem fetchCached_of_no_copy {s : State} {k pa : Nat} (h : (s.core k).icache.find? (·.line == lineOf pa) = none) :
    s.fetchCached k pa = (s.icacheFilled k pa, leNat (s.bytesAt (.hbm pa) 4), (s.firstPoison (.hbm pa) 4).isSome) := by
  simp only [State.fetchCached, h, State.icacheFilled]

/-- A copy that is up to date is delivered, with the poison of the copy. -/
theorem fetchCached_of_copy {s : State} {k pa : Nat} {l : ILine} (h : (s.core k).icache.find? (·.line == lineOf pa) = some l)
    (hnow : (l.data.extractLsb' (8 * (pa % 128)) 32).toNat = leNat (s.bytesAt (.hbm pa) 4)) :
    s.fetchCached k pa = (s, leNat (s.bytesAt (.hbm pa) 4), l.bad.getLsbD (pa % 128 / 16)) := by
  simp only [State.fetchCached, h, hnow, if_true]

theorem exec_illegalInstruction (s : State) (c : CtxId) : exec (.illegalInstruction c) s = execIllegalInstruction c s := rfl
theorem exec_fetchPageFault (s : State) (c : CtxId) : exec (.fetchPageFault c) s = execFetchPageFault c s := rfl

/-! The word at the PC in K mode without translation. -/

/-- A physical address of the stack of the requester's own region passes the check in K mode (R257). -/
theorem physCheck_own {s : State} {w : Who} {k : Acc} {pa : Nat} (hctx : w.ctx < 4096) (hk : w.kmode = true) (heng : w.eng = none)
    (hown : pa / 2 ^ 36 = w.region) (hst : (s.region w.region).st = .assigned) : s.physCheck w k pa = .ok false := by
  have hregion : w.region < 32 := by
    simp only [Who.region, regionOf, regionOfCore, dieOfCore, colOfCore, coreOf]
    omega
  have hhbm : pa < 2 ^ 41 := by omega
  have hregionOf : regionOfPa pa = w.region := hown
  have hroute : s.routeOpen false w.region 32 (w.region / 2) = true := by simp [State.routeOpen]
  simp only [State.physCheck, if_pos hhbm, hregionOf, hk, heng, hst, State.islandOf, hroute, Bool.not_true, Option.isSome_none, Bool.or_self,
    Bool.and_false, Bool.false_eq_true, reduceCtorEq, and_self, if_true, if_false]

/-- The aligned word at such an address is one piece, translated without any change. -/
theorem transSpan_own_word {s : State} {w : Who} {k : Acc} {pa : Nat} (hctx : w.ctx < 4096) (hk : w.kmode = true) (heng : w.eng = none)
    (hoff : w.ptOn = false) (hown : pa / 2 ^ 36 = w.region) (hst : (s.region w.region).st = .assigned) (halign : pa % 4 = 0) :
    s.transSpan w k pa 4 = (s, .ok [⟨pa, .hbm pa, 4, false, 0, 12⟩]) := by
  have hregion : w.region < 32 := by
    simp only [Who.region, regionOf, regionOfCore, dieOfCore, colOfCore, coreOf]
    omega
  have hhbm : pa < 2 ^ 41 := by omega
  have hplaced : s.placed w k pa false (4096 - pa % 4096) 0 12 =
      (s, .ok ⟨.hbm pa, false, min (4096 - pa % 4096) (checkedLeft pa), 0, 12⟩) := by
    simp only [State.placed, physCheck_own hctx hk heng hown hst, hhbm, locOfPa, if_true, Bool.false_or]
  have htrans : s.translate w k pa = (s, .ok ⟨.hbm pa, false, min (4096 - pa % 4096) (checkedLeft pa), 0, 12⟩) := by
    have hlow : ¬ 2 ^ 52 ≤ pa := by omega
    simp only [State.translate, hoff, hk, hlow, hplaced, Bool.not_false, Bool.not_true, Bool.false_eq_true, or_self, if_true, if_false]
  have hleft : min 4 (max 1 (min (4096 - pa % 4096) (checkedLeft pa))) = 4 := by
    simp only [checkedLeft, hhbm, if_true]
    omega
  have hword : pa % 2 ^ 64 = pa := Nat.mod_eq_of_lt (by omega)
  simp only [State.transSpan, hword, State.transRun, htrans, hleft, Nat.reduceDiv, Nat.reduceSub, OfNat.ofNat_ne_zero, if_true,
    if_false]

/-- The fetch of such a word without a copy in the instruction cache. -/
theorem fetch_own {s : State} {c : Nat} (hc : c < 4096) (hk : (s.ctx c).status.mode = true) (hoff : (s.ctx c).ptOn = false)
    (halign : (s.ctx c).pc.toNat % 4 = 0) (hown : (s.ctx c).pc.toNat / 2 ^ 36 = regionOf c) (hst : (s.region (regionOf c)).st = .assigned)
    (hgood : s.firstPoison (.hbm (s.ctx c).pc.toNat) 4 = none)
    (hcopy : ∀ l ∈ (s.core (coreOf c)).icache, l.line ≠ lineOf (s.ctx c).pc.toNat) :
    s.fetch c = (s.icacheFilled (coreOf c) (s.ctx c).pc.toNat, .ok (leNat (s.bytesAt (.hbm (s.ctx c).pc.toNat) 4))) := by
  have htrans := transSpan_own_word (s := s) (w := s.whoCtx c) (k := .fetch) hc hk rfl hoff hown hst halign
  have hnone : (s.core (coreOf c)).icache.find? (·.line == lineOf (s.ctx c).pc.toNat) = none :=
    List.find?_eq_none.2 fun l hl => by simpa using hcopy l hl
  rw [fetch_of_cached htrans rfl rfl, fetchCached_of_no_copy hnone, hgood]
  rfl

end Sys2Proof.Machine
end


section
/-! PROOF. The slot of a core (R91, R95), for O8: what comes before its choice leaves every core and region as it is, so a core that may issue
still may; and where no interrupt is pending, the slot is the chosen context's instruction. -/

namespace Sys2Proof.Machine

/-- The cores and the regions are the same. -/
structure State.SameUnits (s t : State) : Prop where
  cores : t.cores = s.cores
  regions : t.regions = s.regions

namespace State.SameUnits

theorem refl (s : State) : s.SameUnits s := ⟨rfl, rfl⟩

theorem trans {s t u : State} (h : s.SameUnits t) (h' : t.SameUnits u) : s.SameUnits u := ⟨h'.1.trans h.1, h'.2.trans h.2⟩

theorem modCtx (s : State) (c : Nat) (f : Ctx → Ctx) : s.SameUnits (s.modCtx c f) := ⟨rfl, rfl⟩

theorem withIssueSeq {s t : State} (h : s.SameUnits t) (n : Nat) : s.SameUnits { t with issueSeq := n } := ⟨h.1, h.2⟩

theorem withTurn (s : State) (n : Nat) : s.SameUnits { s with turn := n } := ⟨rfl, rfl⟩

theorem withSched (s : State) (l : List Turn) : s.SameUnits { s with sched := l } := ⟨rfl, rfl⟩

theorem foldl {α : Type} {f : State → α → State} (hf : ∀ (s : State) (a : α), s.SameUnits (f s a)) (l : List α) (s : State) :
    s.SameUnits (l.foldl f s) := by
  induction l generalizing s with
  | nil => exact refl s
  | cons a l ih => exact (hf s a).trans (ih _)

theorem ite {s t u : State} {p : Prop} [Decidable p] (h : s.SameUnits t) (h' : s.SameUnits u) : s.SameUnits (if p then t else u) := by
  split <;> assumption

theorem endWait (s : State) (c : Nat) : s.SameUnits (s.endWait c) := by
  unfold State.endWait
  extract_lets x ready
  have hready : ∀ f, s.SameUnits (ready f) := fun f => modCtx s c _
  clear_value ready x
  cases x.st
  case waitReg | waitUnit => exact ite (refl s) (hready _)
  case parked =>
    dsimp only
    cases x.park
    case cwait => exact ite (hready _) (refl s)
    case wfi => exact ite (modCtx s c _) (refl s)
    all_goals exact refl s
  case yielded => exact ite ((hready _).withIssueSeq _) (refl s)
  all_goals exact refl s

theorem holdReady (s : State) (c : Nat) : s.SameUnits (s.holdReady c) :=
  ite (refl s) (ite (modCtx s c _) (ite (modCtx s c _) (refl s)))

theorem wakeCore (s : State) (k : Nat) : s.SameUnits (s.wakeCore k) :=
  foldl (fun s c => (endWait s c).trans (holdReady _ c)) _ s

theorem restart (s : State) (k : Nat) : s.SameUnits (s.restart k) :=
  foldl (fun s c => ite (modCtx s c _) (refl s)) _ s

theorem runs {s t : State} (h : s.SameUnits t) (k : Nat) : t.runs k = s.runs k := by
  have hregion : t.region (regionOfCore k) = s.region (regionOfCore k) := by rw [State.region, State.region, h.regions]
  have hcore : t.core k = s.core k := by rw [State.core, State.core, h.cores]
  simp only [State.runs, hregion, hcore]

end State.SameUnits

/-- A context without vector instructions in flight has none that still writes a general register. -/
theorem issueInstr_of_vq_empty {i : Instr} {s : State} (h : s.vqOf s.cur = []) : issueInstr i s = exec i s := by
  have hpending : s.pendingG s.cur = [] := by rw [State.pendingG, h]; rfl
  refine if_neg ?_
  rw [hpending]
  cases gNames i <;> simp

/-- A fetched word that decodes is executed. -/
theorem fetchIssue_of_decode {s t : State} {c w : Nat} {i : Instr} (hfetch : s.fetch c = (t, .ok w)) (hvq : t.vqOf c = [])
    (hdec : decode (BitVec.ofNat 32 w) = .ok i) : fetchIssue c s = exec i { t with cur := c } := by
  have hword : decodeWord w = some i := by rw [decodeWord, hdec]
  rw [fetchIssue, hfetch]
  dsimp only
  rw [hword]
  exact issueInstr_of_vq_empty hvq

/-- The state in which core k's slot chooses its context: the turn has passed on, waits have ended, and what had to restart has. -/
noncomputable def State.slotState (k : Nat) (s : State) : State := (({ s with turn := k + 1 } : State).wakeCore k).restart k

/-- A core that may issue still may where its slot chooses. -/
theorem slotState_runs (k : Nat) (s : State) : (s.slotState k).runs k = s.runs k :=
  (((State.SameUnits.withTurn s (k + 1)).trans (State.SameUnits.wakeCore _ k)).trans (State.SameUnits.restart _ k)).runs k

/-- The slot of a core that issues, where it goes to a context without a pending interrupt. -/
theorem issueCore_of_select {s v y : State} {k c w : Nat} {i : Instr} (hv : s.slotState k = v) (hruns : v.runs k = true)
    (hsel : v.select k = some c) (hint : v.pendingCause c = none)
    (hfetch : (v.charge k (some c)).fetch c = (y, .ok w)) (hvq : y.vqOf c = []) (hdec : decode (BitVec.ofNat 32 w) = .ok i) :
    issueCore k s = countIssue c ((v.charge k (some c)).ctx c) (exec i { y with cur := c }) := by
  have hno : v.interruptible c = false := by simp only [State.interruptible, hint, Option.isSome_none, Bool.false_and]
  have hok : (v.charge k (some c)).fetchFails c = false := by simp only [State.fetchFails, hfetch]
  unfold issueCore
  extract_lets t
  have ht : t = v := hv
  clear_value t
  subst ht
  rw [if_pos hruns, hsel]
  dsimp only
  rw [hno, if_neg Bool.false_ne_true, hok, if_neg Bool.false_ne_true, fetchIssue_of_decode hfetch hvq hdec]

/-- A step whose turn is a core's slot that may come next. -/
theorem step_of_issue {s : State} {k : CoreId} {rest : List Turn} (hsched : s.sched = .issue k :: rest) (hturn : s.turn ≤ k.val)
    (hdue : ({ s with sched := rest } : State).dueIn s.turn k.val = false) : step s = issueCore k.val { s with sched := rest } := by
  have hmay : (decide (s.turn ≤ k.val) && !({ s with sched := rest } : State).dueIn s.turn k.val) = true := by
    rw [decide_eq_true hturn, hdue]; rfl
  rw [step, hsched]
  exact if_pos hmay

end Sys2Proof.Machine
end

section
open Sys2Proof Sys2Proof.Machine

/-- Settles O8: the slot of a core, and the fetch of a word in K mode without translation. -/
theorem stepRunsTheDecodedInstruction : Obligations.StepRunsTheDecodedInstruction := by
  unfold Obligations.StepRunsTheDecodedInstruction
  refine ⟨?slot, ?word⟩
  case slot =>
    intro s y k rest c w i hsched hturn hdue hst hthrottle hfenced v x hsel hint hfetch hvq hdec
    have hv : ({ s with sched := rest } : State).slotState k.val = v := rfl
    have hruns : v.runs k.val = true := by
      rw [← hv, slotState_runs, (State.SameUnits.withSched s rest).runs, State.runs, hst, hthrottle, hfenced]
      rfl
    rw [step_of_issue hsched hturn hdue]
    exact issueCore_of_select hv hruns hsel hint hfetch hvq hdec
  case word =>
    intro s c hc pc hk hoff halign hown hst hgood hcopy
    refine ⟨_, fetch_own hc hk hoff halign hown hst hgood hcopy, rfl, fun k => ?_⟩
    rw [State.icacheFilled, State.modCore_core]
    split
    case isTrue h => rw [h]
    case isFalse => rfl
end

section
open Sys2Proof Sys2Proof.Machine

/-- Settles O34: the two trap steps look at the fetch, and the fetch at the translation of the PC and the copy of the word. -/
theorem fetchTraps : Obligations.FetchTraps := by
  unfold Obligations.FetchTraps
  intro s t c
  refine ⟨fun w hfetch _ => ?illegal, fun cause hfetch => ?fault, ?poison⟩
  case illegal =>
    refine ⟨_, ?_, trap_spec _ _ _ _ _⟩
    rw [exec_illegalInstruction, execIllegalInstruction, hfetch]
    rfl
  case fault =>
    refine ⟨_, ?_, trap_spec _ _ _ _ _⟩
    rw [exec_fetchPageFault, execFetchPageFault, hfetch]
  case poison =>
    intro p ps pa htrans hloc copy now
    refine ⟨fun hpoison hunc => ?_, fun hpoison hunc hcopy => ⟨t.icacheFilled (coreOf c.val) pa, ?_⟩, fun l hunc hcopy hnow => ?_⟩
    · rw [fetch_of_uncached htrans hloc hunc, if_pos (Option.isSome_iff_ne_none.2 hpoison)]
    · rw [hloc] at hpoison
      rw [fetch_of_cached htrans hloc hunc, fetchCached_of_no_copy hcopy, if_pos (Option.isSome_iff_ne_none.2 hpoison)]
    · have hmem : now = leNat (t.bytesAt (.hbm pa) 4) := by rw [← hloc]
      rw [fetch_of_cached htrans hloc hunc, fetchCached_of_copy hcopy (hnow.trans hmem), hmem]
end

section
/-! PROOF. FENCE (R293 to R295), and the two instructions by which a context lets go of its core (R96, R251), for O24 and O26. -/

namespace Sys2Proof.Machine

theorem exec_fence (s : State) (ifetch eng pl ps ll ls : Bool) (sc : Scope) :
    exec (.fence ifetch eng sc pl ps ll ls) s = execFence ifetch eng sc pl ps ll ls s := rfl
theorem exec_wfi (s : State) : exec .wfi s = execWfi s := rfl
theorem exec_yield (s : State) : exec .yield s = execYield s := rfl

/-- The loads of the tile unit that a FENCE for pl waits for (R294). -/
def State.fenceLoads (s : State) : Prop :=
  ∃ e ∈ (s.core (coreOf s.cur)).tq.filter (fun e => e.ctx == s.cur), e.pieces ≠ [] ∧ e.op.stores = false

/-- The stores that a FENCE for ps or for instruction fetch waits for (R281, R294). -/
def State.fenceStores (s : State) : Prop :=
  s.me.sb ≠ [] ∨ s.me.acksDue ≠ 0 ∨ ∃ e ∈ (s.core (coreOf s.cur)).tq.filter (fun e => e.ctx == s.cur), e.op.stores = true

theorem tileStores_eq (s : State) (c : Nat) : s.tileStores c = (s.core (coreOf c)).tq.any (fun e => e.ctx == c && e.op.stores) := by
  refine congrArg (List.any _) (funext fun e => congrArg (e.ctx == c && ·) ?_)
  cases e.op <;> rfl

theorem tileStores_iff (s : State) (c : Nat) :
    s.tileStores c = true ↔ ∃ e ∈ (s.core (coreOf c)).tq.filter (fun e => e.ctx == c), e.op.stores = true := by
  simp only [tileStores_eq, List.any_eq_true, List.mem_filter, Bool.and_eq_true, and_assoc]

/-- A FENCE may complete where nothing that it names is outstanding. -/
theorem fenceReady_iff (s : State) (pl ps eng ifetch : Bool) : s.fenceReady pl ps eng ifetch = true ↔
    ¬ ((pl = true ∧ s.fenceLoads) ∨ ((ps = true ∨ ifetch = true) ∧ s.fenceStores) ∨
      (eng = true ∧ (if ps then s.cmdsOpen s.cur else s.linesOpen s.cur) = true)) := by
  have hloads : (s.core (coreOf s.cur)).tq.any (fun e => e.ctx == s.cur && !e.pieces.isEmpty && !e.op.stores) = true ↔ s.fenceLoads := by
    simp only [State.fenceLoads, List.any_eq_true, List.mem_filter, Bool.and_eq_true, Bool.not_eq_true', List.isEmpty_eq_false_iff,
      and_assoc, ne_eq]
  have hstores : (!s.me.sb.isEmpty || s.me.acksDue != 0 || s.tileStores s.cur) = true ↔ s.fenceStores := by
    simp only [State.fenceStores, Bool.or_eq_true, Bool.not_eq_true', List.isEmpty_eq_false_iff, bne_iff_ne, tileStores_iff, or_assoc, ne_eq]
  rw [← hloads, ← hstores]
  simp only [State.fenceReady, Bool.and_eq_true, Bool.not_eq_true', ← Bool.not_eq_true, Bool.or_eq_true, not_or, and_assoc]

/-- The acting context's core without its copies of instructions, where a FENCE names them (R266). -/
def State.refetching (s : State) (ifetch : Bool) : State :=
  if ifetch then s.modCore (coreOf s.cur) (fun k => { k with icache := [] }) else s

theorem refetching_core (s : State) (ifetch : Bool) (k : Nat) : (s.refetching ifetch).core k =
    if ifetch = true ∧ k = coreOf s.cur then { s.core k with icache := [] } else s.core k := by
  cases ifetch
  case false => rfl
  case true =>
    by_cases hk : k = coreOf s.cur
    · subst hk; simp [State.refetching]
    · simp [State.refetching, hk]

theorem refetching_frame (s : State) (ifetch : Bool) : s.refetching ifetch = { s with cores := (s.refetching ifetch).cores } := by
  cases ifetch <;> rfl

/-- A completed instruction after which the context is changed once more. -/
theorem retire_then (s : State) (f : Ctx → Ctx) :
    OnlyMe s (s.retire.modMe f) ∧ (s.retire.modMe f).me = f (s.me.completed (s.me.pc + 4)) := by
  obtain ⟨honly, hme⟩ := retire_spec s
  refine ⟨honly.trans (onlyMe_modMe _ f), ?_⟩
  rw [State.modMe_me, hme]

end Sys2Proof.Machine
end

section
open Sys2Proof Sys2Proof.Machine

/-- Settles O24: a FENCE waits exactly where it is not ready, and completes over the emptied instruction cache. -/
theorem fenceWaitsForWhatItNames : Obligations.FenceWaitsForWhatItNames := by
  unfold Obligations.FenceWaitsForWhatItNames
  intro s ifetch eng pl ps ll ls sc tile stores loads outstanding
  have hready : s.fenceReady pl ps eng ifetch = true ↔ ¬ outstanding := fenceReady_iff s pl ps eng ifetch
  refine ⟨fun hout => waits_of_hold ?wait, fun hnone => ⟨(s.refetching ifetch).retire, ?completes, ?frame, fun j hj => ?others, ?me, fun k => ?cores⟩⟩
  case wait =>
    have hnot : s.fenceReady pl ps eng ifetch = false := by simpa using mt hready.1 (not_not_intro hout)
    rw [exec_fence, execFence, hnot]
    rfl
  case completes =>
    rw [exec_fence, execFence, hready.2 hnone]
    rfl
  case frame => rw [refetching_frame s ifetch]; rfl
  case others =>
    rw [refetching_frame s ifetch]
    obtain ⟨⟨-, hothers⟩, -⟩ := retire_spec { s with cores := (s.refetching ifetch).cores }
    exact hothers j hj
  case me =>
    rw [refetching_frame s ifetch]
    obtain ⟨-, hme⟩ := retire_spec { s with cores := (s.refetching ifetch).cores }
    exact hme
  case cores => exact refetching_core s ifetch k

/-- Settles O26: the cases of WFI are those of its meaning, and YIELD has one. -/
theorem waitForInterruptAndYield : Obligations.WaitForInterruptAndYield := by
  unfold Obligations.WaitForInterruptAndYield
  intro s x pending idle
  have hwakes : s.wakes s.cur = true ↔ pending := by
    simp only [State.wakes, State.tileErr, Bool.or_eq_true, Bool.and_eq_true, bne_iff_ne, beq_iff_eq]
    rfl
  have hasleep : ¬ pending → ¬ s.wakes s.cur = true := mt hwakes.1
  refine ⟨fun hp => ?pending, fun hp hi hq => ?free, fun hp hi hq => waits_of_hold ?vector, fun hp hi => ?parked, ?yield⟩
  case pending => exact ⟨s.retire, if_pos (hwakes.2 hp), retire_spec s⟩
  case free =>
    exact ⟨_, (if_neg (hasleep hp)).trans ((if_pos hi).trans (if_pos (List.isEmpty_iff.2 hq))), retire_then s _⟩
  case vector =>
    exact (if_neg (hasleep hp)).trans ((if_pos hi).trans (if_neg (mt List.isEmpty_iff.1 hq)))
  case parked =>
    have hpark := parkOn_spec (s.modMe (fun c => { c with pc := c.pc + 4 })) .wfi
    refine ⟨_, (if_neg (hasleep hp)).trans (if_neg hi), (onlyMe_modMe s _).trans hpark.1, hpark.2.trans ?_⟩
    rw [State.modMe_me]
  case yield => exact ⟨_, rfl, retire_then s _⟩
end

section
/-! PROOF. Scalar loads (R137 to R140), for O15: what a load does with its first piece, what the delivery of its data does, and the same
of a miss that is filled later. -/

namespace Sys2Proof.Machine

/-! Steps that act on a context of their own. -/

/-- What a meaning answers for context c is all that counts. -/
theorem onCtx_congr {s : State} {c : Nat} {f : State → Out} {o : Out} (h : f { s with cur := c } = o) :
    onCtx c f s = o.andThen (fun t => .next { t with cur := s.cur }) := by
  rw [onCtx, h]

/-- A trap raised for context c, whatever context is acting. -/
theorem onCtx_raise (s : State) (c code : Nat) (tval : Word) :
    ∃ t, onCtx c (raise code tval) s = .next t ∧ TrapTaken s t c code (s.ctx c).pc tval := by
  obtain ⟨-, hothers, -, hme⟩ := trap_spec { s with cur := c } c code (s.ctx c).pc tval
  exact ⟨_, rfl, rfl, hothers, rfl, hme⟩

/-- A result written for context c, whatever context is acting. -/
theorem onCtx_finish (s : State) (c : Nat) (d : GReg) (x : Word) : ∃ t, onCtx c (fun u => .next (u.finish d x)) s = .next t ∧
    OnlyCtx c s t ∧ (s.ctx c).Wrote (t.ctx c) d x ((s.ctx c).pc + 4) := by
  obtain ⟨⟨-, hothers⟩, hwrote⟩ := finish_spec { s with cur := c } d x
  exact ⟨_, rfl, ⟨rfl, hothers⟩, hwrote⟩

/-! The delivery of a load's data. -/

/-- Fabric space is never poisoned. -/
theorem poisonAt_fabric (s : State) (k : Option Nat) (a n : Nat) : s.poisonAt k (.fabric a) n = none :=
  List.find?_eq_none.2 fun _ _ => by simp [State.poisoned, Loc.plus]

theorem deliverLoad_poisoned {s : State} {n va j : Nat} {l : Loc} (d : GReg) (sext : Bool)
    (h : (s.view s.cur).poisonAt (some (coreOf s.cur)) l n = some j) :
    deliverLoad d n sext va l s = raise 0x09 (BitVec.ofNat 64 (va + j)) s := by
  simp only [deliverLoad, h]

theorem deliverLoad_good {s : State} {n : Nat} {l : Loc} (d : GReg) (sext : Bool) (va : Nat)
    (h : (s.view s.cur).poisonAt (some (coreOf s.cur)) l n = none) :
    deliverLoad d n sext va l s = .next ((s.afterRead l).finish d (extend n sext (leNat ((s.view s.cur).bytesAt l n)))) := by
  simp only [deliverLoad, h]

theorem afterRead_of_inside {l : Loc} (s : State) (h : ∀ a, l ≠ .fabric a) : s.afterRead l = s := by
  cases l
  case fabric a => exact absurd rfl (h a)
  all_goals rfl

/-! A load by the place of its first piece. -/

/-- The context as a missed load leaves it, waiting for its line or its data (R91). -/
def Ctx.missing (m : Miss) (x : Ctx) : Ctx := { x with st := .waitMiss, wait := .none, young := false, miss := m }

section
variable {s u : State} {n : Nat} {d a : GReg} {imm : BitVec 16} {p : Piece} {ps : List Piece} (sext : Bool)
  (halign : (ea s a imm).toNat % n = 0) (htrans : s.transSpan (s.whoCtx s.cur) .load (ea s a imm).toNat n = (u, .ok (p :: ps)))
  (hover : u.tileOverlaps u.cur (pieceLocs [p]) = false) (hfirst : u.tileFirst u.cur true [p] = false)
include halign htrans hover hfirst

theorem loadOp_of_core (hin : (∃ k o, p.loc = .spad k o) ∨ ((∃ pa, p.loc = .hbm pa) ∧ p.uncached = false ∧ u.loadHits u.cur p.loc n = true)) :
    loadOp n sext d a imm s = deliverLoad d n sext (ea s a imm).toNat p.loc u := by
  rcases hin with ⟨k, o, hloc⟩ | ⟨⟨pa, hloc⟩, hunc, hhit⟩
  · simp [loadOp, halign, htrans, hover, hfirst, hloc]
  · rw [hloc] at hhit
    simp [loadOp, halign, htrans, hover, hfirst, hloc, hunc, hhit]

variable (hout : ∀ k o, p.loc ≠ .spad k o)
include hout

theorem loadOp_of_line_away (hunc : p.uncached = false) (hhit : u.loadHits u.cur p.loc n = false) : loadOp n sext d a imm s =
    .next ((u.modMe (Ctx.missing (.load d n sext (ea s a imm).toNat p.loc p.ent false))).modMe (·.count 0x06 1)) := by
  cases hloc : p.loc
  case spad k o => exact absurd hloc (hout k o)
  all_goals
    rw [hloc] at hhit
    simp [loadOp, halign, htrans, hover, hfirst, hloc, hunc, hhit]
    rfl

theorem loadOp_of_uncached (hunc : p.uncached = true) (hfree : u.me.uncachedTo p = false) : loadOp n sext d a imm s =
    .next (u.modMe (Ctx.missing (.load d n sext (ea s a imm).toNat p.loc p.ent true))) := by
  cases hloc : p.loc
  case spad k o => exact absurd hloc (hout k o)
  all_goals simp [loadOp, halign, htrans, hover, hfirst, hloc, hunc, hfree]; rfl

theorem loadOp_of_uncached_behind_stores (hunc : p.uncached = true) (hbehind : u.me.uncachedTo p = true) :
    loadOp n sext d a imm s = .next (u.hold .waitUnit .drained) := by
  cases hloc : p.loc
  case spad k o => exact absurd hloc (hout k o)
  all_goals simp [loadOp, halign, htrans, hover, hfirst, hloc, hunc, hbehind]
end

/-- An event counted where a counter selects it in the mode of the context (R377). -/
theorem count_pmcnt (x : Ctx) (ev : Nat) (hev : ev ≠ 0) (j : Fin 8) : (x.count ev 1).pmcnt.get j = x.pmcnt.get j +
    (if ((x.pmsel.get j).extractLsb' 0 8).toNat = ev ∧ (x.pmsel.get j).getLsbD (if x.status.mode then 9 else 8) = true then 1 else 0) := by
  cases hmode : x.status.mode <;> simp [Ctx.count, Vector.get_ofFn, hev, hmode] <;> split <;> simp

/-! LOAD_MISS_FILL. -/

theorem exec_loadMissFill (s : State) (c : CtxId) : exec (.loadMissFill c) s = execLoadMissFill c s := rfl

section
variable {s : State} {c : CtxId} {d : GReg} {n : Nat} {sext : Bool} {va : Nat} {l : Loc} {e : Nat}
  (hmiss : (s.ctx c.val).miss = .load d n sext va l e true) (howns : s.engineOwns [l] = false)
include hmiss howns

theorem loadMissFill_closed (hclosed : s.closed (regionOf c.val) l = true) :
    exec (.loadMissFill c) s = onCtx c.val (raise 0x08 (BitVec.ofNat 64 va)) s := by
  simp [exec_loadMissFill, execLoadMissFill, hmiss, howns, hclosed]

theorem loadMissFill_open (hopen : s.closed (regionOf c.val) l = false) :
    exec (.loadMissFill c) s = onCtx c.val (deliverLoad d n sext va l) s := by
  simp [exec_loadMissFill, execLoadMissFill, hmiss, howns, hopen]
end

end Sys2Proof.Machine
end

section
open Sys2Proof Sys2Proof.Machine

/-- Settles O15: what a load does is decided by the place of its first piece, and what it delivers by the poison of the bytes that the
context sees there; a fill is a delivery made later, for the context that waits. -/
theorem loadsWriteMemoryAsTheContextSeesIt : Obligations.LoadsWriteMemoryAsTheContextSeesIt := by
  unfold Obligations.LoadsWriteMemoryAsTheContextSeesIt
  refine ⟨?core, ?away, ?fill⟩
  case core =>
    intro d a imm load
    have hload : ∀ i n sext, (∀ s, exec i s = loadOp n sext d a imm s) → load i n sext := by
      intro i n sext hexec s u p ps va halign htrans hover hfirst hin v x
      have hdeliver : exec i s = deliverLoad d n sext va p.loc u :=
        (hexec s).trans (loadOp_of_core sext halign htrans hover hfirst hin)
      have hinside : ∀ a, p.loc ≠ .fabric a := by
        rcases hin with ⟨k, o, h⟩ | ⟨⟨pa, h⟩, -, -⟩ <;> simp [h]
      refine ⟨fun hgood => ?_, fun j hbad => ?_⟩
      · rw [hdeliver, deliverLoad_good d sext va hgood, afterRead_of_inside u hinside]
        exact ⟨_, rfl, finish_spec u d _⟩
      · rw [hdeliver, deliverLoad_poisoned d sext hbad]
        exact ⟨_, rfl, trap_spec _ _ _ _ _⟩
    exact ⟨hload _ _ _ fun _ => rfl, hload _ _ _ fun _ => rfl, hload _ _ _ fun _ => rfl, hload _ _ _ fun _ => rfl,
      hload _ _ _ fun _ => rfl, hload _ _ _ fun _ => rfl, hload _ _ _ fun _ => rfl⟩
  case away =>
    intro d a imm miss
    have hmiss : ∀ i n sext, (∀ s, exec i s = loadOp n sext d a imm s) → miss i n sext := by
      intro i n sext hexec s u p ps va halign htrans hover hfirst hout
      refine ⟨fun hunc hhit => ?line, fun hunc hfree => ?data, fun hunc hbehind => ?stores⟩
      case line =>
        refine ⟨_, (hexec s).trans (loadOp_of_line_away sext halign htrans hover hfirst hout hunc hhit),
          (onlyMe_modMe u _).trans (onlyMe_modMe _ _), ?_, fun j => ?_⟩
        · rw [State.modMe_me, State.modMe_me]
          rfl
        · rw [State.modMe_me, State.modMe_me, count_pmcnt _ _ (by decide)]
          rfl
      case data =>
        exact ⟨_, (hexec s).trans (loadOp_of_uncached sext halign htrans hover hfirst hout hunc hfree), onlyMe_modMe u _, State.modMe_me u _⟩
      case stores =>
        exact ⟨_, (hexec s).trans (loadOp_of_uncached_behind_stores sext halign htrans hover hfirst hout hunc hbehind), hold_spec u _ _⟩
    exact ⟨hmiss _ _ _ fun _ => rfl, hmiss _ _ _ fun _ => rfl, hmiss _ _ _ fun _ => rfl, hmiss _ _ _ fun _ => rfl,
      hmiss _ _ _ fun _ => rfl, hmiss _ _ _ fun _ => rfl, hmiss _ _ _ fun _ => rfl⟩
  case fill =>
    intro s c d n sext va l e hmiss howns v x
    refine ⟨fun hopen hinside hgood => ?data, fun hfabric hopen => ?fabric, fun j hopen hbad => ?poisoned, fun hclosed => ?closed⟩
    case data =>
      have hdeliver : deliverLoad d n sext va l { s with cur := c.val } = .next (({ s with cur := c.val } : State).finish d x) := by
        rw [deliverLoad_good d sext va hgood, afterRead_of_inside _ hinside]
      rw [loadMissFill_open hmiss howns hopen, onCtx_congr hdeliver]
      exact onCtx_finish s c.val d x
    case fabric =>
      obtain ⟨a, rfl⟩ := hfabric
      have hdeliver : deliverLoad d n sext va (.fabric a) { s with cur := c.val } =
          .next (({ s with fresh := s.fresh + 1, cur := c.val } : State).finish d x) :=
        deliverLoad_good d sext va (poisonAt_fabric _ _ _ _)
      rw [loadMissFill_open hmiss howns hopen, onCtx_congr hdeliver]
      exact onCtx_finish { s with fresh := s.fresh + 1 } c.val d x
    case poisoned =>
      rw [loadMissFill_open hmiss howns hopen, onCtx_congr (deliverLoad_poisoned d sext hbad)]
      exact onCtx_raise s c.val _ _
    case closed => rw [loadMissFill_closed hmiss howns hclosed]; exact onCtx_raise s c.val _ _
end

section
/-! PROOF. Interrupts (R246, R250, R338), for O33: what a context does with an accepted event, the cause that it takes first, the state
from which it takes it, and the traps of its next instruction that come before. -/

namespace Sys2Proof.Machine

/-! The event queue. -/

/-- A context is away from a boundary in trap entry and while it awaits the result of an atomic (R91, R111). -/
theorem Ctx.atBoundary_eq_false_iff (x : Ctx) : x.atBoundary = false ↔ (∃ since, x.st = .trapping since) ∨ ∃ d v, x.miss = .atom d v := by
  unfold Ctx.atBoundary
  cases x.st <;> cases x.miss <;> simp

/-- Folding an event into its kind leaves the kinds of a queue as they are. -/
theorem Event.join_kinds (e : Event) {l : List Event} (h : (l.map (·.kind)).Nodup) : ((e.join l).map (·.kind)).Nodup := by
  unfold Event.join
  split
  case isTrue =>
    have hkinds : (l.map (fun x => if x.kind = e.kind then e else x)).map (·.kind) = l.map (·.kind) := by
      rw [List.map_map]
      refine List.map_congr_left fun x _ => ?_
      by_cases hx : x.kind = e.kind <;> simp [hx]
    rwa [hkinds]
  case isFalse hnone =>
    have hnew : e.kind ∉ l.map (·.kind) := by simpa using hnone
    rw [List.map_append, List.map_singleton]
    exact List.concat_eq_append ▸ h.concat hnew

/-- An interrupt sets its pending bit, with its TVAL (R250). -/
theorem Ctx.act_cause (x : Ctx) (i : Fin 6) (v : Word) : x.act ⟨.cause i, v⟩ = { x with
    status := { x.status with ipend := x.status.ipend ||| BitVec.ofNat 6 (2 ^ i.val) }, ipendTval := x.ipendTval.set i.val v } := by
  have hbit : BitVec.ofNat 6 (2 ^ i.val) = 1#6 <<< i.val := by fin_cases i <;> rfl
  rw [hbit]
  rfl

/-- An event sets the pending bit of its own cause. -/
theorem Ctx.act_ipend (x : Ctx) (e : Event) (i : Fin 6) :
    (x.act e).status.ipend.getLsbD i.val = (x.status.ipend.getLsbD i.val || e.kind == .cause i) := by
  unfold Ctx.act Ctx.wakeOn
  cases e.kind
  case cause j => fin_cases i <;> fin_cases j <;> simp
  case chan | bytes =>
    dsimp only
    split <;> simp
  case counter | barrier => simp

theorem Ctx.act_of_not_parked (x : Ctx) (e : Event) (h : x.st ≠ .parked) : x.act e =
    { x with status := { x.status with ipend := (x.act e).status.ipend }, ipendTval := (x.act e).ipendTval } := by
  unfold Ctx.act Ctx.wakeOn
  cases e.kind <;> simp [h]

theorem Ctx.foldl_act_ipend (l : List Event) (x : Ctx) (i : Fin 6) :
    (l.foldl Ctx.act x).status.ipend.getLsbD i.val = (x.status.ipend.getLsbD i.val || l.any (·.kind == .cause i)) := by
  induction l generalizing x with
  | nil => simp
  | cons e l ih => rw [List.foldl_cons, ih, Ctx.act_ipend, List.any_cons, Bool.or_assoc]

theorem Ctx.foldl_act_of_not_parked (l : List Event) (x : Ctx) (h : x.st ≠ .parked) : l.foldl Ctx.act x =
    { x with status := { x.status with ipend := (l.foldl Ctx.act x).status.ipend }, ipendTval := (l.foldl Ctx.act x).ipendTval } := by
  induction l generalizing x with
  | nil => rfl
  | cons e l ih =>
    have hact := x.act_of_not_parked e h
    have hst : (x.act e).st ≠ .parked := by rw [hact]; exact h
    rw [List.foldl_cons, ih (x.act e) hst, hact]

/-- What a context does with an event does not depend on its deadline, which it keeps. -/
theorem Ctx.accept_yArmed (x : Ctx) (e : Event) (y : Option Nat) : Ctx.accept e { x with yArmed := y } = { x.accept e with yArmed := y } := by
  have hact : Ctx.act { x with yArmed := y } e = { x.act e with yArmed := y } := by
    unfold Ctx.act Ctx.wakeOn
    cases e.kind
    case chan | bytes =>
      dsimp only
      split <;> rfl
    all_goals rfl
  cases hat : x.atBoundary
  case false =>
    rw [x.accept_holds e hat]
    exact Ctx.accept_holds { x with yArmed := y } e hat
  case true =>
    rw [x.accept_acts e hat, ← hact]
    exact Ctx.accept_acts { x with yArmed := y } e hat

theorem exec_trappingDone (s : State) (c : CtxId) : exec (.trappingDone c) s = execTrappingDone c s := rfl
theorem exec_yieldDeadlineExpire (s : State) (c : CtxId) : exec (.yieldDeadlineExpire c) s = execYieldDeadlineExpire c s := rfl

theorem onlyCtx_modCtx (s : State) (c : Nat) (f : Ctx → Ctx) : OnlyCtx c s (s.modCtx c f) :=
  ⟨rfl, fun j hj => State.modCtx_ctx_other s c f j hj⟩

theorem OnlyCtx.trans {c : Nat} {s t u : State} (h : OnlyCtx c s t) (h' : OnlyCtx c t u) : OnlyCtx c s u := by
  obtain ⟨⟨hframe, hothers⟩, ⟨hframe', hothers'⟩⟩ := And.intro h h'
  refine ⟨?_, fun j hj => (hothers' j hj).trans (hothers j hj)⟩
  rw [hframe] at hframe'
  exact hframe'

/-! The cause that comes first, and the state from which it is taken. -/

theorem exec_interruptTake (s : State) (c : CtxId) (stop : Nat) : exec (.interruptTake c stop) s = execInterruptTake c stop s := rfl

theorem tileErr_iff (s : State) (c : Nat) : s.tileErr c = true ↔
    (s.core (coreOf c)).errPend = true ∧ (s.core (coreOf c)).errCtx.toNat = c % 4 := by
  simp [State.tileErr]

theorem pendingCause_of_tileErr {s : State} {c : Nat} (h : s.tileErr c = true) : s.pendingCause c = some 0x12 := if_pos h

/-- The order of R250: each cause with those that come before it. -/
theorem pendingCause_of_first {s : State} {c : Nat} {i : Fin 6} {above : List (Fin 6)}
    (hmem : (i, above) ∈ [((5 : Fin 6), ([] : List (Fin 6))), (3, [5]), (1, [5, 3]), (4, [5, 3, 1]), (0, [5, 3, 1, 4]), (2, [5, 3, 1, 4, 0])])
    (herr : ¬ s.tileErr c = true) (hset : (s.ctx c).status.ipend.getLsbD i.val = true)
    (hclear : ∀ j ∈ above, (s.ctx c).status.ipend.getLsbD j.val = false) : s.pendingCause c = some (0x40 + i.val) := by
  rw [State.pendingCause, if_neg herr]
  simp only [List.mem_cons, Prod.mk.injEq, List.not_mem_nil, or_false] at hmem
  rcases hmem with ⟨rfl, rfl⟩ | ⟨rfl, rfl⟩ | ⟨rfl, rfl⟩ | ⟨rfl, rfl⟩ | ⟨rfl, rfl⟩ | ⟨rfl, rfl⟩ <;> simp_all

section
variable {s : State} {c : Nat} (hmiss : (s.ctx c).miss = .none) (hpark : (s.ctx c).park = .none) (hvq : s.vqOf c = [])
include hpark

theorem endPark_of_not_parked : s.endPark c = some (s, (s.ctx c).pc) := by
  simp only [State.endPark, State.withdraw, hpark]

include hmiss hvq

theorem settle_tileErr (stop : Nat) : s.settle c stop 0x12 = some (s, (s.ctx c).pc) := by
  simp [State.settle, hmiss, hvq, endPark_of_not_parked hpark]

/-- VSTART as an interrupt leaves it (R112). -/
theorem settle_interrupt (stop : Nat) {code : Nat} (hcode : code ≠ 0x12) : s.settle c stop code =
    some (if s.resuming c then s else s.modCtx c (fun y => { y with vstart := 0 }), (s.ctx c).pc) := by
  cases hres : s.resuming c <;> simp [State.settle, hmiss, hvq, hcode, hres, endPark_of_not_parked hpark]
end

/-- The step takes the cause that comes first from the state settled for it. -/
theorem interruptTake_next {s t : State} {c : CtxId} {stop code : Nat} {epc : Word}
    (hmay : (s.ctx c.val).st = .free ∨ ((s.ctx c.val).status.ie = true ∧
      ((s.ctx c.val).st = .ready ∨ (s.ctx c.val).st = .waitReg ∨ (s.ctx c.val).st = .waitUnit ∨ (s.ctx c.val).st = .yielded)))
    (hfenced : (s.core (coreOf c.val)).fenced = false) (hregion : (s.region (regionOf c.val)).st = .assigned)
    (hcause : s.pendingCause c.val = some code) (hsettle : s.settle c.val stop code = some (t, epc)) :
    exec (.interruptTake c stop) s = .next (t.takeCause c.val code epc) := by
  rw [exec_interruptTake, execInterruptTake]
  rcases hmay with hst | ⟨hie, hst | hst | hst | hst⟩ <;> simp_all

/-- A trap taken from a state with the same contexts. -/
theorem TrapTaken.of_same_ctxs {s u t : State} {c code : Nat} {epc tval : Word} (h : TrapTaken s t c code epc tval)
    (hframe : s = { u with ctxs := s.ctxs }) (hctx : ∀ j, s.ctx j = u.ctx j) : TrapTaken u t c code epc tval := by
  obtain ⟨hstate, hothers, hresv, htrap⟩ := h
  rw [hctx] at htrap
  rw [hframe] at hstate hresv htrap
  exact ⟨hstate, fun j hj => (hothers j hj).trans (hctx j), hresv, htrap⟩

/-- An interrupt is taken with the TVAL of its latest event (R250). -/
theorem takeCause_interrupt (s : State) (c : Nat) (i : Fin 6) (epc : Word) :
    TrapTaken s (s.takeCause c (0x40 + i.val) epc) c (0x40 + i.val) epc ((s.ctx c).ipendTval.get i) := by
  have hcode : ¬ 0x40 + i.val = 0x12 := by omega
  have hindex : Fin.ofNat 6 (0x40 + i.val - 0x40) = i := by rw [Nat.add_sub_cancel_left]; exact Fin.ofNat_val_eq_self i
  rw [State.takeCause, if_neg hcode, hindex]
  exact trap_spec _ _ _ _ _

/-- Settled for an interrupt, a context keeps VSTART where it is to resume its next instruction (R112, R409). -/
theorem takeCause_settled (s : State) (c : Nat) (i : Fin 6) (epc : Word) :
    TrapTaken (s.modCtx c (fun y => { y with vstart := if s.resuming c then y.vstart else 0 }))
      ((if s.resuming c then s else s.modCtx c (fun y => { y with vstart := 0 })).takeCause c (0x40 + i.val) epc) c (0x40 + i.val) epc
      ((s.ctx c).ipendTval.get i) := by
  cases s.resuming c
  case false =>
    have htaken := takeCause_interrupt (s.modCtx c (fun y => { y with vstart := 0 })) c i epc
    rwa [State.modCtx_ctx_same] at htaken
  case true =>
    refine (takeCause_interrupt s c i epc).of_same_ctxs rfl fun j => ?_
    rw [State.modCtx_ctx]
    split
    case isTrue h => rw [h]; rfl
    case isFalse => rfl

theorem trap_core (s : State) (c code : Nat) (epc tval : Word) (k : Nat) : (s.trap c code epc tval).core k = s.core k := rfl

/-- The state in which the tile error of the core of context c is pending no longer (R224). -/
def State.reported (s : State) (c : Nat) : State := s.modCore (coreOf c) (fun y => { y with errPend := false })

/-- A tile error is taken with its address, and is pending no longer (R224). -/
theorem takeCause_tileErr (s : State) (c : Nat) (epc : Word) :
    TrapTaken { s with cores := (s.takeCause c 0x12 epc).cores } (s.takeCause c 0x12 epc) c 0x12 epc (s.core (coreOf c)).errAddr ∧
    ∀ k, (s.takeCause c 0x12 epc).core k = if k = coreOf c then { s.core k with errPend := false } else s.core k := by
  have htake : s.takeCause c 0x12 epc = (s.reported c).trap c 0x12 epc (s.core (coreOf c)).errAddr := if_pos rfl
  have hframe : ({ s with cores := ((s.reported c).trap c 0x12 epc (s.core (coreOf c)).errAddr).cores } : State) = s.reported c := rfl
  rw [htake, hframe]
  refine ⟨trap_spec _ _ _ _ _, fun k => ?_⟩
  rw [trap_core, State.reported, State.modCore_core]
  split
  case isTrue h => rw [h]
  case isFalse => rfl

/-! The traps of the next instruction that come first (R135, R250). -/

/-- What a fetch leaves: the contexts but for their event counters, and the vector queues. -/
def State.Fetching (s t : State) : Prop := s.CountsOnly t ∧ ∀ k, (t.core k).vq = (s.core k).vq

/-- A core changed without its vector queue. -/
theorem fetching_modCore (s : State) (k : Nat) (f : Core → Core) (hf : ∀ x, (f x).vq = x.vq) : s.Fetching (s.modCore k f) := by
  refine ⟨.of_ctxs rfl, fun j => ?_⟩
  rw [State.modCore_core]
  split
  case isTrue h => rw [h, hf]
  case isFalse => rfl

theorem State.Fetching.trans {s t u : State} (h : s.Fetching t) (h' : t.Fetching u) : s.Fetching u := by
  obtain ⟨⟨hctx, hvq⟩, hctx', hvq'⟩ := And.intro h h'
  exact ⟨hctx.trans hctx', fun k => (hvq' k).trans (hvq k)⟩

theorem caching_fetching {w : Who} (heng : w.eng = none) : w.Caching State.Fetching where
  refl s := ⟨.refl s, fun _ => rfl⟩
  trans := .trans
  fresh s := ⟨.refl s, fun _ => rfl⟩
  count _ s ev := by
    refine ⟨fun j => ?_, fun _ => rfl⟩
    rw [State.count, State.modCtx_ctx]
    split
    case isTrue h => subst h; rfl
    case isFalse => rfl
  core _ s f hf := fetching_modCore s _ f fun x => by rw [hf x]
  engine g hg := by rw [heng] at hg; cases hg

theorem fetchCached_fetching (s : State) (k pa : Nat) : s.Fetching (s.fetchCached k pa).1 := by
  unfold State.fetchCached
  dsimp only
  split
  · split
    · exact ⟨.refl s, fun _ => rfl⟩
    · exact ⟨.refl s, fun _ => rfl⟩
  · exact fetching_modCore s k _ fun _ => rfl

theorem fetch_fetching (s : State) (c : Nat) : s.Fetching (s.fetch c).1 := by
  have hspan := (caching_fetching (w := s.whoCtx c) rfl).transSpan s .fetch (s.ctx c).pc.toNat 4
  unfold State.fetch
  dsimp only
  split <;> rename_i htrans <;> rw [htrans] at hspan
  · exact hspan
  · split
    · exact hspan
    · split
      · split
        · exact hspan
        · exact hspan.trans (fetchCached_fetching _ _ _)
      · refine hspan.trans ?_
        unfold State.afterRead
        split <;> exact ⟨.refl _, fun _ => rfl⟩

theorem fetching_of_fetch {s t : State} {c : Nat} {r : Except Nat Nat} (h : s.fetch c = (t, r)) : s.Fetching t := by
  have hfetch := fetch_fetching s c
  rwa [h] at hfetch

theorem State.Fetching.pc {s t : State} (h : s.Fetching t) (c : Nat) : (t.ctx c).pc = (s.ctx c).pc := by
  obtain ⟨hctx, -⟩ := h
  rw [hctx c]

/-- EPC holds an aligned PC as it is. -/
theorem and_not_three_of_aligned {x : Word} (h : x.toNat % 4 = 0) : x &&& ~~~3#64 = x := by
  have hlow : x &&& 3#64 = 0 := by
    apply BitVec.eq_of_toNat_eq
    rw [BitVec.toNat_and]
    exact (Nat.and_two_pow_sub_one_eq_mod _ 2).trans h
  calc x &&& ~~~3#64 = (x &&& 3#64) ||| (x &&& ~~~3#64) := by rw [hlow]; exact BitVec.zero_or.symm
    _ = x &&& (3#64 ||| ~~~3#64) := BitVec.and_or_distrib_left.symm
    _ = x := BitVec.and_allOnes

/-- A trap that is determined before the instruction at the PC issues. -/
theorem Ctx.Trapped.early {x y : Ctx} {now code : Nat} {tval : Word} (h : x.Trapped y now code x.pc tval) (halign : x.pc.toNat % 4 = 0)
    (hcode : code ∈ [0x01, 0x04, 0x0A, 0x0B, 0x0C]) : x.early y = true := by
  have hrun : y.trapRun = x.trapRun + 1 := by rw [h]
  have hepc : y.epc = x.pc := by rw [h]; exact and_not_three_of_aligned halign
  have hcause : y.cause = BitVec.ofNat 8 code := by rw [h]
  rw [Ctx.early, hrun, hepc, hcause]
  fin_cases hcode <;> simp

theorem early_of_trapTaken {s t u : State} {c code : Nat} {tval : Word} (hfetch : s.Fetching t)
    (htrap : TrapTaken t u c code (t.ctx c).pc tval) (halign : (s.ctx c).pc.toNat % 4 = 0) (hcode : code ∈ [0x01, 0x04, 0x0A, 0x0B, 0x0C]) :
    (s.ctx c).early (u.ctx c) = true := by
  obtain ⟨-, -, -, htrapped⟩ := htrap
  have hsame : (t.ctx c).early (u.ctx c) = (s.ctx c).early (u.ctx c) := by
    obtain ⟨hctx, -⟩ := hfetch
    rw [hctx c]
    rfl
  rw [← hsame]
  exact htrapped.early (hfetch.pc c ▸ halign) hcode

theorem decodeWord_eq_none {w : Nat} (h : ∀ i, decode (BitVec.ofNat 32 w) ≠ .ok i) : decodeWord w = none := by
  unfold decodeWord
  split
  case h_1 i hi => exact absurd hi (h i)
  case h_2 => rfl

theorem ctxId_val (c : CtxId) : ctxId c.val = c := Fin.ofNat_val_eq_self c

/-- A word that is no instruction traps before it issues (R55). -/
theorem earlyTrap_of_illegal {s t : State} {c : CtxId} {w : Nat} (hfetch : s.fetch c.val = (t, .ok w))
    (hdec : ∀ i, decode (BitVec.ofNat 32 w) ≠ .ok i) (halign : (s.ctx c.val).pc.toNat % 4 = 0) :
    earlyTrap c.val s (fetchIssue c.val s) = true := by
  have hissue : fetchIssue c.val s = .next (t.trap c.val 0x01 (t.ctx c.val).pc (tvalWord w)) := by
    rw [fetchIssue, hfetch]
    dsimp only
    rw [decodeWord_eq_none hdec]
    dsimp only
    rw [ctxId_val, exec_illegalInstruction, execIllegalInstruction, hfetch, (fetching_of_fetch hfetch).pc]
  rw [hissue]
  exact early_of_trapTaken (fetching_of_fetch hfetch) (trap_spec t c.val 0x01 _ _) halign (by decide)

/-- So does an instruction that raises one of the causes found before issue (R250). -/
theorem earlyTrap_of_raises {s t : State} {c : CtxId} {w code : Nat} {i : Instr} {tval : Word} (hfetch : s.fetch c.val = (t, .ok w))
    (hvq : s.vqOf c.val = []) (hdec : decode (BitVec.ofNat 32 w) = .ok i) (hraises : Raises i { t with cur := c.val } code tval)
    (halign : (s.ctx c.val).pc.toNat % 4 = 0) (hcode : code ∈ [0x01, 0x04, 0x0A, 0x0B, 0x0C]) :
    earlyTrap c.val s (fetchIssue c.val s) = true := by
  have hfetching : s.Fetching t := fetching_of_fetch hfetch
  have hacting : s.Fetching { t with cur := c.val } := hfetching
  obtain ⟨u, hexec, htrap⟩ := hraises
  have hvq' : t.vqOf c.val = [] := by
    obtain ⟨-, hcores⟩ := hfetching
    rw [State.vqOf, hcores]
    exact hvq
  rw [fetchIssue_of_decode hfetch hvq' hdec, hexec]
  exact early_of_trapTaken hacting htrap halign hcode

/-- Such a trap of the next instruction stands before every interrupt of a context that is ready to issue it. -/
theorem trapsFirst_of_ready {s : State} {c : Nat} (hst : (s.ctx c).st = .ready) (hvq : s.vqOf c = [])
    (h : earlyTrap c s (fetchIssue c s) = true ∨ s.fetchFails c = true) : s.trapsFirst c = true := by
  have htrap : (earlyTrap c s (fetchIssue c s) || s.fetchFails c) = true := by simpa using h
  simp [State.trapsFirst, hst, hvq, htrap]

/-- A step whose turn is an interrupt before which an early trap stands. -/
theorem step_of_interruptTake {s : State} {c : CtxId} {stop : Nat} {rest : List Turn} (hsched : s.sched = .event (.interruptTake c stop) :: rest)
    (hfirst : ({ s with sched := rest } : State).trapsFirst c.val = true) : step s = .fault (.notEnabled "INTERRUPT_TAKE") := by
  rw [step, hsched]
  exact if_pos hfirst

end Sys2Proof.Machine
end

section
open Sys2Proof Sys2Proof.Machine

/-- Settles O33: the step settles the state for the cause that comes first and takes it; a trap found before the issue of the next
instruction stops the step; and an event is acted on at once, or joins the queue of a context away from a boundary. -/
theorem interruptsAreTakenInOrder : Obligations.InterruptsAreTakenInOrder := by
  unfold Obligations.InterruptsAreTakenInOrder
  refine ⟨⟨?take, ?first, ?done⟩, ?deadline, ?event⟩
  case take =>
    intro s c stop x hmay hfenced hregion hmiss hpark hvq err
    have htile : s.tileErr c.val = true ↔ err := tileErr_iff s c.val
    refine ⟨fun herr => ?tile, fun i above hmem herr hset hclear => ?interrupt⟩
    case tile =>
      exact ⟨_, interruptTake_next hmay hfenced hregion (pendingCause_of_tileErr (htile.2 herr)) (settle_tileErr hmiss hpark hvq stop),
        takeCause_tileErr s c.val x.pc⟩
    case interrupt =>
      have hcause := pendingCause_of_first hmem (mt htile.1 herr) hset hclear
      exact ⟨_, interruptTake_next hmay hfenced hregion hcause (settle_interrupt hmiss hpark hvq stop (by omega)),
        takeCause_settled s c.val i x.pc⟩
  case first =>
    intro s c stop rest hsched u hst hvq halign hfirst
    refine step_of_interruptTake hsched (trapsFirst_of_ready hst hvq ?_)
    rcases hfirst with ⟨t, cause, hfetch⟩ | ⟨t, w, hfetch, hdec⟩ | ⟨t, w, i, code, tval, hfetch, hdec, hcode, hraises⟩
    · exact .inr (by rw [State.fetchFails, hfetch])
    · exact .inl (earlyTrap_of_illegal hfetch hdec halign)
    · exact .inl (earlyTrap_of_raises hfetch hvq hdec hraises halign hcode)
  case done =>
    intro s c since hst hsince
    have hexec : exec (.trappingDone c) s = .next (s.modCtx c.val (fun x => ({ x with st := .ready } : Ctx).settled)) := by
      rw [exec_trappingDone, execTrappingDone, hst]
      exact if_pos hsince
    exact ⟨_, hexec, onlyCtx_modCtx s c.val _, State.modCtx_ctx_same _ _ _⟩
  case deadline =>
    intro s c from_ x harmed hpend hdl hdue hfrom
    have hmay : x.yPend = true ∧ x.yDl ≠ 0 ∧ s.elapsed x.yStart x.yDl.toNat = true ∧ s.elapsed x.yStart from_ = true :=
      ⟨hpend, hdl, decide_eq_true hdue, decide_eq_true hfrom⟩
    have hexec : exec (.yieldDeadlineExpire c) s = .next ((s.raiseInt c.val 0x41 0).modCtx c.val (fun x => { x with yArmed := none })) := by
      rw [exec_yieldDeadlineExpire, execYieldDeadlineExpire, harmed]
      exact if_pos hmay
    refine ⟨_, hexec, (onlyCtx_modCtx s c.val _).trans (onlyCtx_modCtx _ c.val _), ?_⟩
    rw [State.modCtx_ctx_same, State.raiseInt, State.modCtx_ctx_same]
    exact (x.accept_yArmed _ none).symm
  case event =>
    intro x e y inTrap inAtomic
    have haway : x.atBoundary = false ↔ inTrap ∨ inAtomic := x.atBoundary_eq_false_iff
    refine ⟨fun htrap hatomic => ?acts, fun h => ?holds, x.settled_events, fun i => ?bits, fun hst => ?settled⟩
    case acts =>
      have hat : x.atBoundary = true := by simpa using mt haway.1 (not_or.2 ⟨htrap, hatomic⟩)
      have hy : y = x.act e := x.accept_acts e hat
      rw [hy]
      obtain ⟨kind, v⟩ := e
      cases kind
      case cause i => exact x.act_cause i v
      all_goals rfl
    case holds =>
      have hy : y = { x with events := e.join x.events } := x.accept_holds e (haway.2 h)
      rw [hy]
      exact ⟨rfl, fun z => Event.mem_join e z x.events, Event.join_kinds e⟩
    case bits => exact Ctx.foldl_act_ipend x.events { x with events := [] } i
    case settled => exact Ctx.foldl_act_of_not_parked x.events { x with events := [] } hst
end

section
/-! PROOF. The placement of a gang without a map (R104), for O54: the order of the regions, the seat of each core, and the members on the
first seats in their order. -/

namespace Sys2Proof.Machine

/-! The order of the regions. -/

theorem insertBy_first {before : Nat → Nat → Bool} {x : Nat} {l : List Nat} (h : ∀ y ∈ l, before x y = true) :
    insertBy before x l = x :: l := by
  cases l with
  | nil => rfl
  | cons y t => simp [insertBy, h y List.mem_cons_self]

theorem insertBy_last {before : Nat → Nat → Bool} {x : Nat} {l : List Nat} (h : ∀ y ∈ l, before x y = false) :
    insertBy before x l = l ++ [x] := by
  induction l with
  | nil => rfl
  | cons y t ih => simp [insertBy, h y List.mem_cons_self, ih fun z hz => h z (List.mem_cons_of_mem y hz)]

/-- The home region first, and the others as they stand. -/
def homeFirst (home : Nat) (l : List Nat) : List Nat := l.filter (· == home) ++ l.filter (· != home)

/-- Without listed pages the home region comes first and the others ascend (R104, step 4). -/
theorem regionOrder_of_no_pages (home : Nat) {l : List Nat} (hl : l.Pairwise (· < ·)) :
    regionOrder (fun r => ([] : List Nat).count r) home l = homeFirst home l := by
  unfold regionOrder
  extract_lets before
  have hbefore : ∀ x y, before x y = if x = home ∨ y = home then x == home else decide (x < y) := fun x y => by simp [before]
  clear_value before
  induction l using List.reverseRecOn with
  | nil => rfl
  | append_singleton l x ih =>
    obtain ⟨hinit, -, hlast⟩ := List.pairwise_append.1 hl
    have hlt : ∀ y ∈ l, y < x := fun y hy => hlast y hy x (List.mem_singleton.2 rfl)
    have hmem : ∀ y ∈ homeFirst home l, y ∈ l := fun y hy => by
      rcases List.mem_append.1 hy with hy | hy <;> exact List.mem_of_mem_filter hy
    rw [List.foldl_append, ih hinit, List.foldl_cons, List.foldl_nil]
    by_cases hx : x = home
    · subst hx
      have hnew : l.filter (· == x) = [] := List.filter_eq_nil_iff.2 fun y hy => by simpa using (hlt y hy).ne
      rw [insertBy_first fun y _ => by simp [hbefore]]
      simp [homeFirst, hnew]
    · have hafter : ∀ y ∈ homeFirst home l, before x y = false := fun y hy => by
        have hyx := hlt y (hmem y hy)
        by_cases hy : y = home <;> simp [hbefore, hx, hy]
        omega
      rw [insertBy_last hafter]
      simp [homeFirst, hx]

theorem nodup_homeFirst (home : Nat) {l : List Nat} (h : l.Nodup) : (homeFirst home l).Nodup :=
  (List.filter_append_perm (· == home) l).nodup_iff.2 h

/-! The seats. -/

/-- The context of a core on which a member may be placed: the lowest that is FREE, of a core that is not fenced (R104, step 5). -/
def State.seat (s : State) (k : Nat) : Option Nat :=
  if (s.core k).fenced then none else (ctxsOfCore k).find? (fun c => decide ((s.ctx c).st = .free))

/-- The seats of regions in their order. -/
def State.seats (s : State) (order : List Nat) : List Nat := (order.flatMap coresOfRegion).filterMap s.seat

theorem seat_spec {s : State} {k c : Nat} (h : s.seat k = some c) : (s.ctx c).st = .free ∧ coreOf c = k := by
  unfold State.seat at h
  split at h
  case isTrue => cases h
  case isFalse =>
    refine ⟨by simpa using List.find?_some h, ?_⟩
    obtain ⟨i, hi, rfl⟩ := List.mem_map.1 (List.mem_of_find?_eq_some h)
    have hlow := List.mem_range.1 hi
    unfold coreOf
    omega

theorem nodup_coresOfRegion (r : Nat) : (coresOfRegion r).Nodup := by
  refine List.nodup_range.map_on fun x hx y hy h => ?_
  have hx := List.mem_range.1 hx
  have hy := List.mem_range.1 hy
  unfold coreOfRegion at h
  omega

theorem nodup_coresOfRegions {order : List Nat} (h : order.Nodup) : (order.flatMap coresOfRegion).Nodup := by
  refine List.nodup_flatMap.2 ⟨fun r _ => nodup_coresOfRegion r, h.imp fun {a b} hne k ha hb => ?_⟩
  exact hne (((mem_coresOfRegion a k).1 ha).symm.trans ((mem_coresOfRegion b k).1 hb))

/-- The seats lie on cores of their own. -/
theorem nodup_coreOf_seats (s : State) {order : List Nat} (h : order.Nodup) : ((s.seats order).map coreOf).Nodup := by
  have hseats : (s.seats order).Nodup := (nodup_coresOfRegions h).filterMap fun a b c ha hb =>
    (seat_spec (Option.mem_def.1 ha)).2.symm.trans (seat_spec (Option.mem_def.1 hb)).2
  refine hseats.map_on fun c hc c' hc' hsame => ?_
  obtain ⟨k, -, hk⟩ := List.mem_filterMap.1 hc
  obtain ⟨k', -, hk'⟩ := List.mem_filterMap.1 hc'
  obtain ⟨⟨-, hcore⟩, ⟨-, hcore'⟩⟩ := And.intro (seat_spec hk) (seat_spec hk')
  have hkk : k = k' := hcore.symm.trans (hsame.trans hcore')
  subst hkk
  exact Option.some.inj (hk.symm.trans hk')

/-- The slot of a region is its first seat on a core that holds no member yet. -/
theorem freeSlot_eq (s : State) (used : List Nat) (r : Nat) :
    s.freeSlot used r = (((coresOfRegion r).filterMap s.seat).filter (fun c => !used.contains (coreOf c))).head? := by
  have hslot : ∀ k, (if (s.core k).fenced || used.contains k then none
      else (ctxsOfCore k).find? (fun c => decide ((s.ctx c).st = .free))) = (s.seat k).filter (fun c => !used.contains (coreOf c)) := fun k => by
    cases hseat : s.seat k with
    | none =>
      unfold State.seat at hseat
      by_cases hf : (s.core k).fenced = true <;> simp_all
    | some c =>
      obtain ⟨-, hcore⟩ := seat_spec hseat
      unfold State.seat at hseat
      by_cases hf : (s.core k).fenced = true <;> by_cases hu : used.contains k = true <;> simp_all [Option.filter]
  rw [State.freeSlot, List.filter_filterMap, List.head?_filterMap]
  simp only [hslot]

/-- The next place is the first of all. -/
theorem findSome_freeSlot (s : State) (used order : List Nat) :
    order.findSome? (s.freeSlot used) = ((s.seats order).filter (fun c => !used.contains (coreOf c))).head? := by
  induction order with
  | nil => rfl
  | cons r order ih =>
    have hseats : s.seats (r :: order) = (coresOfRegion r).filterMap s.seat ++ s.seats order := by
      rw [State.seats, List.flatMap_cons, List.filterMap_append, State.seats]
    rw [List.findSome?_cons, ih, freeSlot_eq, hseats, List.filter_append, List.head?_append]
    cases (((coresOfRegion r).filterMap s.seat).filter (fun c => !used.contains (coreOf c))).head? <;> rfl

/-- The members of a range take the seats that are left in their order. -/
theorem placeRange_eq (s : State) {order : List Nat} (horder : order.Nodup) (ms : List Nat) (placed : List (Nat × Nat)) (left : List Nat)
    (h : s.seats order = placed.map (·.2) ++ left) :
    s.placeRange order ms placed = if ms.length ≤ left.length then some (placed ++ ms.zip left) else none := by
  have hnodup := nodup_coreOf_seats s horder
  induction ms generalizing placed left with
  | nil => simp [State.placeRange]
  | cons m ms ih =>
    have hnext : order.findSome? (s.freeSlot (placed.map (fun p => coreOf p.2))) = left.head? := by
      rw [h, List.map_append, List.map_map] at hnodup
      obtain ⟨-, -, hdisjoint⟩ := List.nodup_append'.1 hnodup
      have hused : (placed.map (·.2)).filter (fun c => !(placed.map (fun p => coreOf p.2)).contains (coreOf c)) = [] := by
        simp only [List.filter_eq_nil_iff, List.mem_map, List.contains_eq_mem]
        rintro c ⟨p, hp, rfl⟩
        simpa using ⟨p.1, p.2, hp, rfl⟩
      have hleft : left.filter (fun c => !(placed.map (fun p => coreOf p.2)).contains (coreOf c)) = left := by
        refine List.filter_eq_self.2 fun c hc => ?_
        simpa using fun a b hab he => hdisjoint (List.mem_map_of_mem (f := coreOf ∘ (·.2)) hab) (List.mem_map.2 ⟨c, hc, he.symm⟩)
      rw [findSome_freeSlot, h, List.filter_append, hused, hleft, List.nil_append]
    rw [State.placeRange, hnext]
    cases left with
    | nil => rfl
    | cons c left =>
      dsimp only [List.head?_cons]
      rw [ih (placed ++ [(m, c)]) left (by simpa using h)]
      simp

end Sys2Proof.Machine
end

section
/-! PROOF. The gang number that a launch takes (R423), and the descriptor that it reads (R102), for O54. -/

namespace Sys2Proof.Machine

/-! The gang number. -/

/-- The i-th number after g in the round of 1 to 65,535. -/
def gangAfter (g i : Nat) : Nat := (g - 1 + i) % 65535 + 1

/-- Whether some GANG register holds a number. -/
def State.gangTaken (s : State) (n : Nat) : Prop := ∃ x ∈ s.ctxs, x.2.gang.toNat = n

theorem nextGang_le (s : State) (k : Nat) {n : Nat} (h : n ≤ 65535) : s.nextGang k n ≤ 65535 := by
  induction k generalizing n with
  | zero => exact h
  | succ k ih =>
    unfold State.nextGang
    split
    · exact ih (by omega)
    · exact h

/-- The search ends at the first number that is not taken, or after k numbers that are. -/
theorem nextGang_spec (s : State) (g k a : Nat) : ∃ i ≤ k, s.nextGang k (gangAfter g a) = gangAfter g (a + i) ∧
    (∀ j < i, s.gangTaken (gangAfter g (a + j))) ∧ (i < k → ¬ s.gangTaken (gangAfter g (a + i))) := by
  induction k generalizing a with
  | zero => exact ⟨0, le_refl 0, rfl, fun j hj => absurd hj (Nat.not_lt_zero j), fun h => absurd h (lt_irrefl 0)⟩
  | succ k ih =>
    have htaken : s.ctxs.any (fun c => c.2.gang.toNat == gangAfter g a) = true ↔ s.gangTaken (gangAfter g a) := by
      simp [State.gangTaken]
    rw [State.nextGang]
    by_cases h : s.gangTaken (gangAfter g a)
    · rw [if_pos (htaken.2 h)]
      have hsucc : gangAfter g a % 65535 + 1 = gangAfter g (a + 1) := by unfold gangAfter; omega
      obtain ⟨i, hi, heq, hbefore, hat⟩ := ih (a + 1)
      refine ⟨i + 1, by omega, by rw [hsucc, heq, Nat.add_assoc, Nat.add_comm 1], fun j hj => ?_, fun hik => ?_⟩
      · cases j with
        | zero => exact h
        | succ j => rw [← Nat.add_assoc, Nat.add_right_comm]; exact hbefore j (by omega)
      · rw [← Nat.add_assoc, Nat.add_right_comm]; exact hat (by omega)
    · rw [if_neg (mt htaken.1 h)]
      exact ⟨0, Nat.zero_le _, rfl, fun j hj => absurd hj (Nat.not_lt_zero j), fun _ => h⟩

/-- Fewer contexts than numbers leave one free. -/
theorem exists_gang_free (s : State) (g : Nat) (h : s.ctxs.length < 65535) : ∃ i < 65535, ¬ s.gangTaken (gangAfter g i) := by
  by_contra hall
  push Not at hall
  have hsub : (List.range 65535).map (gangAfter g) ⊆ s.ctxs.map (fun x => x.2.gang.toNat) := fun n hn => by
    obtain ⟨i, hi, rfl⟩ := List.mem_map.1 hn
    obtain ⟨x, hx, hgang⟩ := hall i (List.mem_range.1 hi)
    exact List.mem_map.2 ⟨x, hx, hgang⟩
  have hnodup : ((List.range 65535).map (gangAfter g)).Nodup := List.nodup_range.map_on fun i hi j hj hij => by
    have hi := List.mem_range.1 hi
    have hj := List.mem_range.1 hj
    unfold gangAfter at hij
    omega
  have hlen := (hnodup.subperm hsub).length_le
  rw [List.length_map, List.length_map, List.length_range] at hlen
  omega

/-- The next number that no GANG register holds (R423). -/
theorem nextGang_free (s : State) (h1 : 1 ≤ s.gangSeq) (h2 : s.gangSeq ≤ 65535) (h : s.ctxs.length < 65535) :
    ¬ s.gangTaken (s.nextGang 65535 s.gangSeq) ∧ ∃ i, s.nextGang 65535 s.gangSeq = gangAfter s.gangSeq i ∧
      ∀ j < i, s.gangTaken (gangAfter s.gangSeq j) := by
  have hstart : gangAfter s.gangSeq 0 = s.gangSeq := by unfold gangAfter; omega
  obtain ⟨i, hi, heq, hbefore, hat⟩ := nextGang_spec s s.gangSeq 65535 0
  rw [hstart, Nat.zero_add] at heq
  simp only [Nat.zero_add] at hbefore hat
  have hlt : i < 65535 := by
    obtain ⟨j, hj, hfree⟩ := exists_gang_free s s.gangSeq h
    by_contra hge
    exact hfree (hbefore j (by omega))
  exact ⟨heq ▸ hat hlt, i, heq, hbefore⟩

/-! The descriptor. -/

theorem leNat_lt (l : List Byte) : leNat l < 256 ^ l.length := by
  induction l with
  | nil => simp [leNat]
  | cons b l ih =>
    have hb := b.isLt
    rw [leNat, List.length_cons, pow_succ]
    omega

theorem wordAt_lt (l : List Byte) (i : Nat) : wordAt l i < 2 ^ 64 := by
  have hlen : ((l.drop (8 * i)).take 8).length ≤ 8 := List.length_take_le 8 _
  calc wordAt l i < 256 ^ ((l.drop (8 * i)).take 8).length := leNat_lt _
    _ ≤ 256 ^ 8 := Nat.pow_le_pow_right (by decide) hlen
    _ = 2 ^ 64 := by decide

/-- The rules of R102 for the words of a descriptor. -/
def GoodDesc (w : Nat → Nat) : Prop :=
  w 0 % 4 = 0 ∧ 1 ≤ w 1 % 2 ^ 11 ∧ w 1 % 2 ^ 11 ≤ 1024 ∧ w 1 / 2 ^ 11 % 2 ^ 5 = 0 ∧ w 1 / 2 ^ 21 = 0 ∧ w 3 < 2 ^ 32 ∧ w 4 % 16 = 0 ∧
    w 5 < 2 ^ 32 ∧ w 5 % 16 = 0 ∧ w 6 % 64 = 0

/-- What the words of a descriptor say. -/
def descOf (w : Nat → Nat) : GangDesc :=
  ⟨w 0, w 1 % 2 ^ 11, w 1 / 2 ^ 16 % 2 ^ 2, (w 1).testBit 18, (w 1).testBit 19, (w 1).testBit 20, w 2, w 3, w 4, w 5, w 6, w 7 % 2 ^ 32,
    w 7 / 2 ^ 32⟩

/-- One bit of a number. -/
theorem bitsOf_one (x i : Nat) : (bitsOf x i i == 1) = x.testBit i := by
  rw [Nat.testBit_eq_decide_div_mod_eq]
  simp only [bitsOf, Nat.sub_self, Nat.zero_add, pow_one]
  rfl

/-- The rules are those that the reading of a descriptor checks. -/
theorem goodDesc_iff (l : List Byte) : GoodDesc (wordAt l) ↔
    ¬ (wordAt l 0 % 4 ≠ 0 ∨ bitsOf (wordAt l 1) 10 0 = 0 ∨ 1024 < bitsOf (wordAt l 1) 10 0 ∨ bitsOf (wordAt l 1) 15 11 ≠ 0 ∨
      bitsOf (wordAt l 1) 63 21 ≠ 0 ∨ 2 ^ 32 ≤ wordAt l 3 ∨ wordAt l 4 % 16 ≠ 0 ∨ 2 ^ 32 ≤ wordAt l 5 ∨ wordAt l 5 % 16 ≠ 0 ∨
      wordAt l 6 % 64 ≠ 0) := by
  have hlt := wordAt_lt l 1
  unfold GoodDesc bitsOf
  omega

theorem gangDesc_of_bad {l : List Byte} (h : ¬ GoodDesc (wordAt l)) : gangDesc l = none :=
  if_pos (not_not.1 (mt (goodDesc_iff l).2 h))

theorem gangDesc_of_good {l : List Byte} (h : GoodDesc (wordAt l)) : gangDesc l = some (descOf (wordAt l)) := by
  refine (if_neg ((goodDesc_iff l).1 h)).trans (congrArg some ?_)
  have hcount : bitsOf (wordAt l 1) 10 0 = wordAt l 1 % 2 ^ 11 := by simp [bitsOf]
  simp only [hcount, bitsOf_one]
  rfl

end Sys2Proof.Machine
end

section
/-! PROOF. What a launch can do (R103 to R106), for O54: it looks, and ends with a code, or it makes a gang of contexts that it found FREE. -/

namespace Sys2Proof.Machine

/-! What a launch changes. -/

/-- A region through a launch: held decrements and the launch engine's translations may change. -/
def Region.LaunchKeeps (x y : Region) : Prop := y = { x with heldDec := y.heldDec, lnch := { x.lnch with tlb := y.lnch.tlb } }

/-- A core through a launch: its second TLB and its walk cache may change. -/
def Core.LaunchKeeps (x y : Core) : Prop := y = { x with tlb2 := y.tlb2, walks := y.walks }

/-- The module through a launch: beside those, contexts, the gangs, the next number and the barriers. -/
def State.Launching (s t : State) : Prop :=
  t = { s with
    fresh := t.fresh, ctxs := t.ctxs, cores := t.cores, regions := t.regions, bars := t.bars, gangs := t.gangs, gangSeq := t.gangSeq } ∧
  (∀ q, (s.region q).LaunchKeeps (t.region q)) ∧ ∀ k, (s.core k).LaunchKeeps (t.core k)

theorem Region.LaunchKeeps.trans {x y z : Region} (h : x.LaunchKeeps y) (h' : y.LaunchKeeps z) : x.LaunchKeeps z := by
  unfold Region.LaunchKeeps at *
  rw [h] at h'
  exact h'

theorem Core.LaunchKeeps.trans {x y z : Core} (h : x.LaunchKeeps y) (h' : y.LaunchKeeps z) : x.LaunchKeeps z := by
  unfold Core.LaunchKeeps at *
  rw [h] at h'
  exact h'

namespace State.Launching
variable {s t u : State}

theorem refl (s : State) : s.Launching s := ⟨rfl, fun _ => rfl, fun _ => rfl⟩

theorem trans (h : s.Launching t) (h' : t.Launching u) : s.Launching u := by
  obtain ⟨⟨hstate, hregion, hcore⟩, ⟨hstate', hregion', hcore'⟩⟩ := And.intro h h'
  refine ⟨?_, fun q => (hregion q).trans (hregion' q), fun k => (hcore k).trans (hcore' k)⟩
  rw [hstate] at hstate'
  exact hstate'

theorem modRegion (s : State) (r : Nat) (f : Region → Region) (hf : ∀ x, Region.LaunchKeeps x (f x)) : s.Launching (s.modRegion r f) := by
  refine ⟨rfl, fun q => ?_, fun _ => rfl⟩
  rw [State.modRegion_region]
  split
  case isTrue h => rw [h]; exact hf _
  case isFalse => rfl

theorem modCore (s : State) (k : Nat) (f : Core → Core) (hf : ∀ x, Core.LaunchKeeps x (f x)) : s.Launching (s.modCore k f) := by
  refine ⟨rfl, fun _ => rfl, fun j => ?_⟩
  rw [State.modCore_core]
  split
  case isTrue h => rw [h]; exact hf _
  case isFalse => rfl

/-- No byte of memory changes. -/
theorem reads (h : s.Launching t) (l : Loc) (hl : l.exists_) : t.reads l = s.reads l := by
  obtain ⟨hstate, hregion, -⟩ := h
  cases l with
  | hbm pa =>
    refine hbmByte_of_region ?_ ?_ ?_ ?_
    · rw [hstate]
    all_goals rw [hregion]
  | spad k o =>
    show SMap.get 0 t.spad (spadKey k o) = _
    rw [hstate]
    rfl
  | fabric a => exact hl.elim

theorem core (h : s.Launching t) (k : Nat) : (t.core k).acc = (s.core k).acc ∧ (t.core k).chans = (s.core k).chans := by
  obtain ⟨-, -, hcore⟩ := h
  rw [hcore k]
  exact ⟨rfl, rfl⟩

end State.Launching

/-! Looking. -/

/-- The module as a launch has left it that has only looked at its descriptor and its map: contexts and gangs as before. -/
structure State.Looked (s t : State) : Prop where
  launching : s.Launching t
  ctxs : t.ctxs = s.ctxs
  gangSeq : t.gangSeq = s.gangSeq

namespace State.Looked
variable {s t u : State}

theorem refl (s : State) : s.Looked s := ⟨.refl s, rfl, rfl⟩

theorem trans (h : s.Looked t) (h' : t.Looked u) : s.Looked u :=
  ⟨h.launching.trans h'.launching, h'.ctxs.trans h.ctxs, h'.gangSeq.trans h.gangSeq⟩

theorem draw (s : State) : s.Looked { s with fresh := s.fresh + 1 } := ⟨⟨rfl, fun _ => rfl, fun _ => rfl⟩, rfl, rfl⟩

theorem ctx (h : s.Looked t) (j : Nat) : t.ctx j = s.ctx j := State.ctx_congr t s h.ctxs j

end State.Looked

theorem caching_looked {w : Who} {r : RegionId} (heng : w.eng = some (.lnch r)) : w.Caching State.Looked where
  refl := .refl
  trans := .trans
  fresh := .draw
  count h := by rw [heng] at h; cases h
  core h := by rw [heng] at h; cases h
  engine g hg s f hf := by
    rw [heng] at hg
    cases hg
    refine ⟨.modRegion s r.val (fun x => { x with lnch := f x.lnch }) fun x => ?_, rfl, rfl⟩
    exact congrArg (fun y => { x with lnch := y }) (hf x.lnch)

section
variable {w : Who} {r : RegionId} (heng : w.eng = some (.lnch r))
include heng

theorem transSpan_looked {s u : State} {k : Acc} {a n : Nat} {x : Except (Nat × Nat) (List Piece)} (h : s.transSpan w k a n = (u, x)) :
    s.Looked u := by
  have hspan := (caching_looked heng).transSpan s k a n
  rwa [h] at hspan

theorem readSrc_looked (s : State) (a n : Nat) : s.Looked (s.readSrc w a n).1 := by
  fun_cases State.readSrc s w a n
  case case1 h _ | case2 h _ _ => exact transSpan_looked heng h
  case case3 h _ _ _ h' _ | case4 h _ _ _ h' _ _ | case5 h _ _ _ h' => exact (transSpan_looked heng h).trans (transSpan_looked heng h')

theorem launchRead_looked (s : State) (a n : Nat) : s.Looked (s.launchRead w a n).1 := by
  have h := readSrc_looked heng s a n
  unfold State.launchRead
  dsimp only
  split <;> exact h

theorem launchMap_looked (s : State) (d : GangDesc) : s.Looked (s.launchMap w d).1 := by
  have hhead := launchRead_looked heng s d.map 72
  unfold State.launchMap
  split
  · exact .refl s
  · split <;> rename_i h <;> rw [h] at hhead
    · exact hhead
    · split
      · exact hhead
      · rename_i u _ _ _ np _
        have hbody := launchRead_looked heng u (d.map + 72) (8 * np)
        split <;> rename_i h' <;> rw [h'] at hbody
        · exact hhead.trans hbody
        · dsimp only
          split <;> exact hhead.trans hbody
end

theorem launchWalks_looked (w : Who) (l : List Nat) (s : State) : s.Looked (State.launchWalks w l s) := by
  induction l generalizing s with
  | nil => exact .refl s
  | cons va l ih =>
    unfold State.launchWalks
    dsimp only
    split
    · exact ih s
    · split
      · refine State.Looked.trans ?_ (ih _)
        exact (State.Looked.draw s).trans ⟨.modCore _ _ _ fun _ => rfl, rfl, rfl⟩
      · exact ih s

/-! Placing. -/

theorem freeSlot_free {s : State} {used : List Nat} {r c : Nat} (h : s.freeSlot used r = some c) : (s.ctx c).st = .free := by
  rw [freeSlot_eq] at h
  obtain ⟨k, -, hk⟩ := List.mem_filterMap.1 (List.mem_of_mem_filter (List.mem_of_head? h))
  exact (seat_spec hk).1

theorem placeRange_free {s : State} {order ms : List Nat} {placed l : List (Nat × Nat)} (h : s.placeRange order ms placed = some l)
    (hfree : ∀ p ∈ placed, (s.ctx p.2).st = .free) : ∀ p ∈ l, (s.ctx p.2).st = .free := by
  induction ms generalizing placed with
  | nil => exact Option.some.inj h ▸ hfree
  | cons m ms ih =>
    unfold State.placeRange at h
    split at h
    case h_1 c hc =>
      obtain ⟨r, -, hr⟩ := List.exists_of_findSome?_eq_some hc
      refine ih h fun p hp => ?_
      rcases List.mem_append.1 hp with hp | hp
      · exact hfree p hp
      · rw [List.mem_singleton.1 hp]
        exact freeSlot_free hr
    case h_2 => cases h

/-- Ranges placed one after the other, each in its own order of the regions, keep to FREE contexts. -/
theorem placeRanges_free {s : State} (order : List Nat → List Nat) {ranges : List (List Nat × List Nat)} {a : Option (List (Nat × Nat))}
    {l : List (Nat × Nat)} (h : ranges.foldl (fun a x => a.bind (s.placeRange (order x.2) x.1)) a = some l)
    (hfree : ∀ placed, a = some placed → ∀ p ∈ placed, (s.ctx p.2).st = .free) : ∀ p ∈ l, (s.ctx p.2).st = .free := by
  induction ranges generalizing a with
  | nil => exact hfree l h
  | cons x ranges ih =>
    refine ih h fun placed hplaced => ?_
    obtain ⟨before, hbefore, hrange⟩ := Option.bind_eq_some_iff.1 hplaced
    exact placeRange_free hrange (hfree before hbefore)

/-- Members are placed on FREE contexts. -/
theorem place_free {s : State} {w : Who} {count : Nat} {rs : List (MapRange × List Nat)} {l : List (Nat × Nat)}
    (h : s.place w count rs = some l) : ∀ p ∈ l, (s.ctx p.2).st = .free :=
  placeRanges_free (fun pages => regionOrder (fun r => pages.count r) w.region _) h fun placed hplaced p hp => by
    rw [← Option.some.inj hplaced] at hp
    cases hp

/-! The cases of a launch. -/

/-- The launch as it ends with a code. -/
def State.LaunchEnds (s : State) (x : State × Fx) : Prop := s.Looked x.1 ∧ x.2.code ≠ 0 ∧ x.2.wait = false

theorem freeFx_launchEnds {s u : State} (h : s.Looked u) {code : Nat} (hcode : code ≠ 0) : s.LaunchEnds (u.freeFx code) :=
  ⟨h.trans (.draw u), hcode, rfl⟩

theorem dataErr_launchEnds {s u : State} (h : s.Looked u) (va : Nat) : s.LaunchEnds (u, Fx.dataErr va) :=
  ⟨h, show (4 : Nat) ≠ 0 by decide, rfl⟩

/-- The launch as it makes a gang of contexts that were FREE. -/
def State.LaunchMakes (s : State) (w : Who) (x : State × Fx) : Prop :=
  ∃ u d placed, s.Looked u ∧ (∀ p ∈ placed, (s.ctx p.2).st = .free) ∧ x = u.launchGang w d placed

/-- A launch ends with a code after it has looked, or it makes its gang. -/
theorem lnch_cases (s : State) (r : RegionId) (c : Cmd) :
    s.LaunchEnds (s.lnch r c) ∨ s.LaunchMakes { c.who (.lnch r) with eng := none } (s.lnch r c) := by
  have hread : ∀ {u x}, s.launchRead (c.who (.lnch r)) (c.word 1) 64 = (u, x) → s.Looked u := fun {u x} h => by
    have hlooked := launchRead_looked (w := c.who (.lnch r)) rfl s (c.word 1) 64
    rwa [h] at hlooked
  have hmap : ∀ {u v : State} {d x}, u.launchMap (c.who (.lnch r)) d = (v, x) → u.Looked v := fun {u v d x} h => by
    have hlooked := launchMap_looked (w := c.who (.lnch r)) rfl u d
    rwa [h] at hlooked
  fun_cases State.lnch s r c
  case case1 => exact .inl (freeFx_launchEnds (.refl s) (by decide))
  case case2 hdesc => exact .inl (dataErr_launchEnds (hread hdesc) _)
  case case3 hdesc => exact .inl (freeFx_launchEnds (hread hdesc) (by decide))
  case case4 hdesc _ => exact .inl (freeFx_launchEnds (hread hdesc) (by decide))
  case case5 hdesc _ _ _ _ hpages => exact .inl (dataErr_launchEnds ((hread hdesc).trans (hmap hpages)) _)
  case case6 hdesc _ _ _ hpages => exact .inl (freeFx_launchEnds ((hread hdesc).trans (hmap hpages)) (by decide))
  case case7 hdesc _ _ _ _ hpages _ _ _ _ =>
    exact .inl (freeFx_launchEnds (((hread hdesc).trans (hmap hpages)).trans (launchWalks_looked _ _ _)) (by decide))
  case case8 hdesc d _ _ _ hpages _ _ _ l hplaced =>
    have hlooked := (hread hdesc).trans (hmap hpages)
    refine .inr ⟨_, d, l, hlooked.trans (launchWalks_looked _ _ _), fun p hp => ?_, rfl⟩
    rw [← hlooked.ctx]
    exact place_free hplaced p hp

end Sys2Proof.Machine
end

section
/-! PROOF. What a launch makes (R105, R106, R363, R423), for O54: its gang, the contexts of its members, and the run that reports it. -/

namespace Sys2Proof.Machine

/-! The contexts of the members. -/

/-- The last launch of a context is the one that counts. -/
theorem launch_launch (d : GangDesc) (n m m' : Nat) (w : Who) (x : Ctx) :
    Ctx.launch d n m w (Ctx.launch d n m' w x) = Ctx.launch d n m w x := by
  unfold Ctx.launch
  dsimp only
  rw [Bool.or_assoc, Bool.or_self]

theorem launchAll_frame (d : GangDesc) (n : Nat) (w : Who) (l : List (Nat × Nat)) (s : State) :
    State.launchAll d n w l s = { s with ctxs := (State.launchAll d n w l s).ctxs } := by
  induction l generalizing s with
  | nil => rfl
  | cons p l ih => exact ih _

theorem launchAll_ctx_other {d : GangDesc} {n : Nat} {w : Who} {l : List (Nat × Nat)} {j : Nat} (s : State) (h : ∀ p ∈ l, p.2 ≠ j) :
    (State.launchAll d n w l s).ctx j = s.ctx j := by
  induction l generalizing s with
  | nil => rfl
  | cons p l ih =>
    obtain ⟨hp, hl⟩ := List.forall_mem_cons.1 h
    rw [State.launchAll, ih _ hl, State.modCtx_ctx_other _ _ _ _ hp.symm]

theorem launchAll_ctx_member {d : GangDesc} {n : Nat} {w : Who} {l : List (Nat × Nat)} {j : Nat} (s : State) (h : ∃ p ∈ l, p.2 = j) :
    ∃ m, (m, j) ∈ l ∧ (State.launchAll d n w l s).ctx j = Ctx.launch d n m w (s.ctx j) := by
  induction l generalizing s with
  | nil => obtain ⟨p, hp, -⟩ := h; cases hp
  | cons p l ih =>
    by_cases hl : ∃ q ∈ l, q.2 = j
    · obtain ⟨m, hm, hctx⟩ := ih (s.modCtx p.2 (Ctx.launch d n p.1 w)) hl
      refine ⟨m, List.mem_cons_of_mem _ hm, hctx.trans ?_⟩
      rw [State.modCtx_ctx]
      split
      case isTrue hj => rw [hj, launch_launch]
      case isFalse => rfl
    · push Not at hl
      obtain ⟨q, hq, rfl⟩ := h
      have hqp : q = p := (List.mem_cons.1 hq).resolve_right fun hq => hl q hq rfl
      subst hqp
      refine ⟨q.1, List.mem_cons_self, ?_⟩
      rw [State.launchAll, launchAll_ctx_other _ hl, State.modCtx_ctx_same]

/-! The held decrements of the gang number. -/

theorem dropHeld_frame (g : Nat) (l : List Nat) (s : State) :
    State.dropHeld g l s = { s with regions := (State.dropHeld g l s).regions } := by
  induction l generalizing s with
  | nil => rfl
  | cons r l ih =>
    unfold State.dropHeld
    split
    case isTrue => exact ih _
    case isFalse => exact ih s

theorem dropHeld_region (g : Nat) (l : List Nat) (s : State) (q : Nat) : (State.dropHeld g l s).region q =
    if q ∈ l then { s.region q with heldDec := (s.region q).heldDec.filter (fun e => e.1 != g) } else s.region q := by
  induction l generalizing s with
  | nil => rfl
  | cons r l ih =>
    have hstep : (if (s.region r).heldDec.any (fun e => e.1 == g) then
        s.modRegion r (fun x => { x with heldDec := x.heldDec.filter (fun e => e.1 != g) }) else s).region q =
        if q = r then { s.region q with heldDec := (s.region q).heldDec.filter (fun e => e.1 != g) } else s.region q := by
      by_cases hq : q = r
      · subst hq
        rw [if_pos rfl]
        split
        case isTrue => exact State.modRegion_region_same _ _ _
        case isFalse h =>
          have hnone : (s.region q).heldDec.filter (fun e => e.1 != g) = (s.region q).heldDec :=
            List.filter_eq_self.2 fun e he => bne_iff_ne.2 fun heq => h (List.any_eq_true.2 ⟨e, he, beq_iff_eq.2 heq⟩)
          rw [hnone]
      · rw [if_neg hq]
        split
        case isTrue => exact State.modRegion_region_other _ _ _ _ hq
        case isFalse => rfl
    rw [State.dropHeld, ih, hstep]
    by_cases hq : q = r <;> by_cases hl : q ∈ l <;> simp [hq, hl, List.filter_filter]

/-! The gang. -/

/-- The gang number of a launch. -/
def State.newGang (s : State) : Nat := s.nextGang 65535 s.gangSeq

/-- The module that a launch leaves with its members placed. -/
def State.withGang (s : State) (w : Who) (d : GangDesc) (placed : List (Nat × Nat)) : State := (s.launchGang w d placed).1

theorem launchGang_eq (s : State) (w : Who) (d : GangDesc) (placed : List (Nat × Nat)) :
    s.launchGang w d placed = (s.withGang w d placed, Fx.of 0 (BitVec.ofNat 64 s.newGang)) := by
  unfold State.withGang State.newGang State.launchGang
  dsimp only

theorem withGang_eq (s : State) (w : Who) (d : GangDesc) (placed : List (Nat × Nat)) :
    s.withGang w d placed = { s with
      ctxs := (State.launchAll d s.newGang w placed s).ctxs, regions := (s.withGang w d placed).regions, gangSeq := s.newGang % 65535 + 1
      bars := s.bars.filter (fun b => b.1.gang != s.newGang || b.1.sc == .pod)
      gangs := SMap.put none s.gangs s.newGang (some ⟨d.bdl, placed⟩) } := by
  have hframe := launchAll_frame d s.newGang w placed s
  have hheld := dropHeld_frame s.newGang (List.range 32)
  unfold State.withGang State.launchGang
  dsimp only
  unfold State.newGang at *
  rw [hheld, hframe]

theorem withGang_ctx (s : State) (w : Who) (d : GangDesc) (placed : List (Nat × Nat)) (j : Nat) :
    (s.withGang w d placed).ctx j = (State.launchAll d s.newGang w placed s).ctx j := by
  refine State.ctx_congr _ _ ?_ j
  rw [withGang_eq]

theorem withGang_gangSeq (s : State) (w : Who) (d : GangDesc) (placed : List (Nat × Nat)) :
    (s.withGang w d placed).gangSeq = s.newGang % 65535 + 1 := by
  rw [withGang_eq]

theorem withGang_bars (s : State) (w : Who) (d : GangDesc) (placed : List (Nat × Nat)) :
    ∀ b ∈ (s.withGang w d placed).bars, b.1.gang ≠ s.newGang ∨ b.1.sc = .pod := by
  rw [withGang_eq]
  intro b hb
  simpa using List.of_mem_filter hb

theorem withGang_gangOf (s : State) (w : Who) (d : GangDesc) (placed : List (Nat × Nat)) :
    (s.withGang w d placed).gangOf s.newGang = ⟨d.bdl, placed⟩ := by
  rw [withGang_eq]
  unfold State.gangOf
  rw [SMap.get_put_same]
  rfl

theorem withGang_region (s : State) (w : Who) (d : GangDesc) (placed : List (Nat × Nat)) (q : Nat) :
    (s.withGang w d placed).region q =
      if q ∈ List.range 32 then { s.region q with heldDec := (s.region q).heldDec.filter (fun e => e.1 != s.newGang) } else s.region q := by
  unfold State.withGang State.newGang State.launchGang
  generalize s.nextGang 65535 s.gangSeq = n
  dsimp only
  rw [dropHeld_region, State.region_congr _ s ?_ q]
  dsimp only
  rw [launchAll_frame]

theorem withGang_launching (s : State) (w : Who) (d : GangDesc) (placed : List (Nat × Nat)) : s.Launching (s.withGang w d placed) := by
  refine ⟨?_, fun q => ?_, fun k => ?_⟩
  · rw [withGang_eq]
  · rw [withGang_region]
    split <;> rfl
  · rw [withGang_eq]
    rfl

end Sys2Proof.Machine
end

section
/-! PROOF. The run of a launch (R317), for O54: it leaves the inbox of its engine and reports what the launch did. -/

namespace Sys2Proof.Machine

/-- The module after the launch engine of region r has put a run of command c that reports x among its runs. -/
structure State.Ran (s t : State) (r : RegionId) (c : Cmd) (x : Fx) : Prop where
  frame : t = { s with regions := t.regions }
  other : ∀ q, q ≠ r.val → t.region q = s.region q
  engine : ∃ y tlb, t.region r.val = { s.region r.val with lnch := { (s.region r.val).lnch with
      inbox := (s.region r.val).lnch.inbox.erase c, running := (s.region r.val).lnch.running ++ [y], tlb := tlb } } ∧
    y.cmd = c ∧ y.replied = false ∧ y.done = true ∧ y.code = x.code ∧ y.result = x.result

/-- The run of a launch that waits for nothing. -/
def State.lnchRun (s : State) (r : RegionId) (c : Cmd) (x : Fx) : Run :=
  ⟨c, true, false, x.code, x.flags, x.result, x.bytes, none, x.m2, (if x.code = 2 then [] else s.cmdPieces (.lnch r) c) ++ [], [], false, false,
    []⟩

/-- The translations of an engine with those of pieces pinned. -/
def pinnedBy (ps : List Piece) (l : List TlbEnt) : List TlbEnt := (pieceEnts ps).foldl (pinOn engTlbCap []) l

/-- As the launch waits for nothing, no line is recalled for it. -/
theorem addRun_eq (s : State) (r : RegionId) (c : Cmd) {x : Fx} (hx : x.wait = false) : s.addRun (.lnch r) c none x =
    (s.modRegion r.val (fun z => { z with lnch := { z.lnch with
      inbox := z.lnch.inbox.erase c, running := z.lnch.running ++ [s.lnchRun r c x] } })).modRegion
        r.val (fun z => { z with lnch := { z.lnch with tlb := pinnedBy (s.lnchRun r c x).pins z.lnch.tlb } }) := by
  unfold State.addRun
  rw [hx]
  rfl

theorem addRun_ran (s : State) (r : RegionId) (c : Cmd) {x : Fx} (hx : x.wait = false) : s.Ran (s.addRun (.lnch r) c none x) r c x := by
  rw [addRun_eq s r c hx]
  refine ⟨rfl, fun q hq => ?_, s.lnchRun r c x, pinnedBy (s.lnchRun r c x).pins (s.region r.val).lnch.tlb, ?_, rfl, rfl, rfl, rfl, rfl⟩
  · rw [State.modRegion_region_other _ _ _ _ hq, State.modRegion_region_other _ _ _ _ hq]
  · rw [State.modRegion_region_same, State.modRegion_region_same]

/-- Where it may be taken, the command of a launch runs and reports what the launch did. -/
theorem exec_lnchGang {s : State} {r : RegionId} {c : Cmd} (hmay : MayTake s (.lnch r) 0 c) (hclean : c.clean (.lnch r) = true)
    (hwait : (s.lnch r c).2.wait = false) : ∃ t, exec (.lnchGang r) s = .next t ∧ (s.lnch r c).1.Ran t r c (s.lnch r c).2 := by
  obtain ⟨hnext, hlines, hheld, hstatus⟩ := hmay
  have hexec : exec (.lnchGang r) s = execLnchGang r s := rfl
  have hpiece : s.statusPiece (.lnch r) c = (s, .ok none) := if_pos (by rw [hstatus])
  refine ⟨_, ?_, addRun_ran (s.lnch r c).1 r c hwait⟩
  rw [hexec, execLnchGang, startEvent, hnext]
  simp only [hlines, hheld, Bool.not_true, Bool.or_false, Bool.false_eq_true, if_false]
  rw [State.startCmd, hpiece]
  simp only [hclean, if_true]

namespace State.Ran
variable {s u t : State} {r : RegionId} {c : Cmd} {x : Fx}

theorem ctx (h : u.Ran t r c x) (j : Nat) : t.ctx j = u.ctx j := State.ctx_congr t u (by rw [h.frame]) j
theorem gangOf (h : u.Ran t r c x) (n : Nat) : t.gangOf n = u.gangOf n := by rw [h.frame]; rfl
theorem gangSeq (h : u.Ran t r c x) : t.gangSeq = u.gangSeq := by rw [h.frame]
theorem bars (h : u.Ran t r c x) : t.bars = u.bars := by rw [h.frame]
theorem core (h : u.Ran t r c x) (k : Nat) : t.core k = u.core k := State.core_congr t u (by rw [h.frame]) k

/-- Everything of a region but its launch engine stays. -/
theorem region (h : u.Ran t r c x) (q : Nat) : t.region q = { u.region q with lnch := (t.region q).lnch } := by
  by_cases hq : q = r.val
  · obtain ⟨y, tlb, hmine, -⟩ := h.engine
    subst hq
    rw [hmine]
  · rw [h.other q hq]

theorem reads (h : u.Ran t r c x) (l : Loc) (hl : l.exists_) : t.reads l = u.reads l := by
  cases l with
  | hbm pa =>
    refine hbmByte_of_region ?_ ?_ ?_ ?_
    · rw [h.frame]
    all_goals rw [h.region]
  | spad k o =>
    show SMap.get 0 t.spad (spadKey k o) = _
    rw [h.frame]
    rfl
  | fabric a => exact hl.elim

theorem reads_of_launching (h : u.Ran t r c x) (hlaunch : s.Launching u) : ∀ l : Loc, l.exists_ → t.reads l = s.reads l :=
  fun l hl => (h.reads l hl).trans (hlaunch.reads l hl)

theorem core_of_launching (h : u.Ran t r c x) (hlaunch : s.Launching u) :
    ∀ k, (t.core k).acc = (s.core k).acc ∧ (t.core k).chans = (s.core k).chans := fun k => by
  rw [h.core]
  exact hlaunch.core k

/-- The engine has taken the command. -/
theorem took (h : u.Ran t r c x) (hlaunch : s.Launching u) {p : Run → Prop}
    (hp : ∀ y : Run, y.done = true → y.code = x.code → y.result = x.result → p y) : Took s t (.lnch r) c p := by
  obtain ⟨y, tlb, hmine, hcmd, hreplied, hdone, hcode, hresult⟩ := h.engine
  obtain ⟨-, hregion, -⟩ := hlaunch
  have hengine : t.engine (.lnch r) = { (s.region r.val).lnch with
      inbox := (s.region r.val).lnch.inbox.erase c, running := (s.region r.val).lnch.running ++ [y], tlb := tlb } := by
    show (t.region r.val).lnch = _
    rw [hmine, hregion r.val]
  rw [Took, hengine]
  exact ⟨rfl, rfl, y, rfl, hcmd, hreplied, hp y hdone hcode hresult⟩

end State.Ran

end Sys2Proof.Machine
end

section
/-! PROOF. What every launch does, and the end of a clear (R103 to R106), for O54. -/

namespace Sys2Proof.Machine

theorem ctx_pmcnt {x y : Ctx} (h : x = y) : x = { y with pmcnt := x.pmcnt } := by rw [h]

/-- What O54 says of a context through every launch: it is left as it is, or it was FREE and is now a member. -/
def State.KeptOrLaunched (s t : State) (y : Run) (j : Nat) : Prop :=
  ((s.ctx j).st ≠ .free ∨ y.code ≠ 0 → t.ctx j = { s.ctx j with pmcnt := (t.ctx j).pmcnt }) ∧
  (y.code = 0 → (s.ctx j).st = .free → t.ctx j = { s.ctx j with pmcnt := (t.ctx j).pmcnt } ∨
    ((t.ctx j).st = .ready ∧ (t.ctx j).status.mode = false ∧ (t.ctx j).status.ie = true ∧ (t.ctx j).gang.toNat = y.result.toNat % 2 ^ 16 ∧
      (t.ctx j).vclear = ((s.ctx j).vclear || (t.ctx j).status.ven) ∧ (t.ctx j).vstart = 0 ∧ (t.ctx j).fstat = 0 ∧
      (t.ctx j).getG 1 = 0 ∧ (t.gangOf y.result.toNat).reg.any (fun p => p.2 == j) = true))

theorem keptOrLaunched_of_kept {s t : State} {j : Nat} (h : t.ctx j = s.ctx j) (y : Run) : s.KeptOrLaunched t y j :=
  ⟨fun _ => ctx_pmcnt h, fun _ _ => .inl (ctx_pmcnt h)⟩

/-- The registers of a member (R105). -/
theorem launch_getG (d : GangDesc) (n m : Nat) (w : Who) (x : Ctx) (i : GReg) : (Ctx.launch d n m w x).getG i =
    if i = 2 then BitVec.ofNat 64 (d.stackbase + m * d.stackstride)
    else if i = 3 then BitVec.ofNat 64 (d.argbase + m * d.argstride) else 0 := by
  have hget : (Ctx.launch d n m w x).g.get i = if i.val = 2 then BitVec.ofNat 64 (d.stackbase + m * d.stackstride)
      else if i.val = 3 then BitVec.ofNat 64 (d.argbase + m * d.argstride) else 0 := by
    exact Vector.get_ofFn _ i
  rw [Ctx.getG, hget]
  by_cases h0 : i = 0
  · subst h0; rfl
  · rw [if_neg h0]
    simp only [Fin.ext_iff]
    rfl

/-- A gang number fits the word that reports it. -/
theorem toNat_newGang {s : State} (h : s.gangSeq ≤ 65535) : (BitVec.ofNat 64 s.newGang).toNat = s.newGang := by
  have hle : s.newGang ≤ 65535 := nextGang_le s 65535 h
  rw [BitVec.toNat_ofNat]
  omega

/-- A context of a new gang was FREE and is now a member, and every other is as it was. -/
theorem keptOrLaunched_of_gang {s u t : State} {w : Who} {d : GangDesc} {placed : List (Nat × Nat)} {r : RegionId} {c : Cmd} {x : Fx} {y : Run}
    (hlooked : s.Looked u) (hfree : ∀ p ∈ placed, (s.ctx p.2).st = .free) (hseq : s.gangSeq ≤ 65535)
    (hran : (u.withGang w d placed).Ran t r c x) (hcode : y.code = 0) (hresult : y.result = BitVec.ofNat 64 u.newGang) (j : Nat) :
    s.KeptOrLaunched t y j := by
  have hctx : t.ctx j = (State.launchAll d u.newGang w placed u).ctx j := (hran.ctx j).trans (withGang_ctx u w d placed j)
  by_cases hmem : ∃ p ∈ placed, p.2 = j
  · obtain ⟨m, hm, hlaunch⟩ := launchAll_ctx_member (d := d) (n := u.newGang) (w := w) u hmem
    rw [hlaunch, hlooked.ctx] at hctx
    have hnum : y.result.toNat = u.newGang := by rw [hresult, toNat_newGang (hlooked.gangSeq ▸ hseq)]
    refine ⟨fun h => absurd h ?_, fun _ _ => .inr ?_⟩
    · simp [hfree (m, j) hm, hcode]
    · rw [hnum, hran.gangOf, withGang_gangOf, hctx, launch_getG]
      exact ⟨rfl, rfl, rfl, BitVec.toNat_ofNat _ _, rfl, rfl, rfl, rfl, List.any_eq_true.2 ⟨(m, j), hm, beq_self_eq_true j⟩⟩
  · push Not at hmem
    exact keptOrLaunched_of_kept (by rw [hctx, launchAll_ctx_other u hmem, hlooked.ctx]) y

/-- Every launch: no byte of memory and no accumulator or channel changes, and only FREE contexts become members. -/
theorem launch_keeps {s : State} {r : RegionId} {c : Cmd} (hmay : MayTake s (.lnch r) 0 c) (hclean : c.clean (.lnch r) = true)
    (hseq : s.gangSeq ≤ 65535) : ∃ t, exec (.lnchGang r) s = .next t ∧
      (∀ l : Loc, l.exists_ → t.reads l = s.reads l) ∧ (∀ k, (t.core k).acc = (s.core k).acc ∧ (t.core k).chans = (s.core k).chans) ∧
      Took s t (.lnch r) c (fun y => y.done = true ∧ ∀ j, s.KeptOrLaunched t y j) := by
  rcases lnch_cases s r c with ⟨hlooked, hcode, hwait⟩ | ⟨u, d, placed, hlooked, hfree, heq⟩
  · obtain ⟨t, hexec, hran⟩ := exec_lnchGang hmay hclean hwait
    exact ⟨t, hexec, hran.reads_of_launching hlooked.launching, hran.core_of_launching hlooked.launching,
      hran.took hlooked.launching fun y hdone _ _ => ⟨hdone, fun j => keptOrLaunched_of_kept ((hran.ctx j).trans (hlooked.ctx j)) y⟩⟩
  · rw [launchGang_eq] at heq
    obtain ⟨t, hexec, hran⟩ := exec_lnchGang hmay hclean (by rw [heq]; rfl)
    rw [heq] at hran
    dsimp only at hran
    have hlaunch := hlooked.launching.trans (withGang_launching u { c.who (.lnch r) with eng := none } d placed)
    exact ⟨t, hexec, hran.reads_of_launching hlaunch, hran.core_of_launching hlaunch,
      hran.took hlaunch fun y hdone hcode hresult => ⟨hdone, keptOrLaunched_of_gang hlooked hfree hseq hran hcode hresult⟩⟩

/-- The clear of the vector and mask registers ends with them 0. -/
theorem vclear_ends {s : State} {x : CtxId} (h : (s.ctx x.val).vclear = true) : ∃ t, exec (.launchVclearDone x) s = .next t ∧
    OnlyCtx x.val s t ∧ t.ctx x.val = { s.ctx x.val with vclear := false, v := Vector.replicate 32 0, m := Vector.replicate 16 0 } := by
  have hexec : exec (.launchVclearDone x) s = execLaunchVclearDone x s := rfl
  exact ⟨_, hexec.trans (if_pos h), onlyCtx_modCtx _ _ _, State.modCtx_ctx_same _ _ _⟩

end Sys2Proof.Machine
end

section
/-! PROOF. A launch without a map (R102, R104), for O54: what it reads of its descriptor, and where its members go. -/

namespace Sys2Proof.Machine

/-! The descriptor read. -/

theorem readSrc_of_pieces {s : State} {w : Who} {a n : Nat} {ps : List Piece} (h : s.transSpan w .load a n = (s, .ok ps))
    (hgood : s.piecePoison none ps = none) : s.readSrc w a n = (s, ⟨s.pieceBytes ps, none⟩) := by
  unfold State.readSrc
  rw [h]
  dsimp only
  rw [hgood]

theorem piecePoison_eq_none {s : State} {ps : List Piece} (h : ∀ l ∈ pieceLocs ps, s.poisoned l = false) : s.piecePoison none ps = none := by
  refine List.findSome?_eq_none_iff.2 fun p hp => Option.map_eq_none_iff.2 (List.find?_eq_none.2 fun i hi => ?_)
  have hl : p.loc.plus i ∈ pieceLocs ps := List.mem_flatMap.2 ⟨p, hp, List.mem_map_of_mem hi⟩
  simp [h _ hl]

/-- Bytes that translate without a walk and are not poisoned are read as they are. -/
theorem launchRead_of_warm {s : State} {w : Who} {a n : Nat} (h : s.Warm w .load (a, n)) (hn : 0 < n) :
    s.launchRead w a n = (s, .ok (s.readsAt w (a, n))) := by
  obtain ⟨hstate, hlen, hgood⟩ := h
  dsimp only at hstate hlen hgood
  unfold State.readsAt State.launchRead
  unfold State.places at *
  obtain ⟨ps, hps⟩ : ∃ ps, s.transSpan w .load a n = (s, .ok ps) := by
    cases hspan : s.transSpan w .load a n with
    | mk u x =>
      rw [hspan] at hstate hlen
      obtain rfl : u = s := hstate
      cases x with
      | ok ps => exact ⟨ps, rfl⟩
      | error e => exact absurd hlen hn.ne
  rw [hps] at hgood ⊢
  rw [readSrc_of_pieces hps (piecePoison_eq_none fun l hl => (hgood l hl).2.1 rfl)]
  rfl

/-! The places. -/

/-- The regions of an island that a region may launch into. -/
def State.islandOfHome (s : State) (home : Nat) : List Nat :=
  (List.range 32).filter (fun x => decide ((s.region x).st = .assigned ∧ (s.region x).island = (s.region home).island))

/-- The places for members: on each core of the home region and then of the others, its lowest FREE context (R104). -/
def State.room (s : State) (home : Nat) : List Nat := s.seats (homeFirst home (s.islandOfHome home))

theorem regionsOf_assigned (s : State) (home : Nat) :
    (s.regionsOf (s.islandOf home)).filter (fun r => decide ((s.region r).st = .assigned)) = s.islandOfHome home := by
  unfold State.regionsOf State.islandOfHome
  rw [List.filter_filter]
  refine List.filter_congr fun r _ => ?_
  unfold State.islandOf
  by_cases hst : (s.region r).st = .assigned <;> simp [hst]

theorem pairwise_islandOfHome (s : State) (home : Nat) : (s.islandOfHome home).Pairwise (· < ·) :=
  List.pairwise_lt_range.filter _

/-- Without a map the members take the first places in their order, or there are too few. -/
theorem place_of_no_map (s : State) (w : Who) (count : Nat) : s.place w count [] =
    if count ≤ (s.room w.region).length then some ((List.range count).zip (s.room w.region)) else none := by
  have hsorted := pairwise_islandOfHome s w.region
  have horder : (homeFirst w.region (s.islandOfHome w.region)).Nodup := nodup_homeFirst w.region (hsorted.imp Nat.ne_of_lt)
  have hall : (List.range count).filter (fun m => ([] : List (MapRange × List Nat)).all (fun x => decide (m < x.1.first ∨ x.1.last < m))) =
      List.range count := List.filter_eq_self.2 fun _ _ => rfl
  unfold State.place
  dsimp only
  rw [hall, regionsOf_assigned, List.map_nil, List.nil_append, List.foldl_cons, List.foldl_nil, Option.bind_some]
  dsimp only
  rw [regionOrder_of_no_pages _ hsorted, placeRange_eq s horder (List.range count) [] (s.room w.region) rfl, List.length_range]
  rfl

/-! The launch. -/

section
variable {s : State} {r : RegionId} {c : Cmd} {bytes : List Byte} (h64 : c.word 1 % 64 = 0)
  (hread : s.launchRead (c.who (.lnch r)) (c.word 1) 64 = (s, .ok bytes))
include h64 hread

theorem lnch_of_bad (hdesc : gangDesc bytes = none) : s.lnch r c = s.freeFx 2 := by
  unfold State.lnch
  rw [if_neg (not_not.2 h64), hread]
  dsimp only
  rw [hdesc]
  rfl

/-- A launch without a map makes its gang where its members have been placed, or ends NOROOM. -/
theorem lnch_of_desc {d : GangDesc} (hdesc : gangDesc bytes = some d) (hmap : d.map = 0) {placed : Option (List (Nat × Nat))}
    (hplace : s.place { c.who (.lnch r) with eng := none } d.count [] = placed) :
    s.lnch r c = placed.elim (s.freeFx 12) (s.launchGang { c.who (.lnch r) with eng := none } d) := by
  have hpages : s.launchMap (c.who (.lnch r)) d = (s, .ok []) := if_pos hmap
  unfold State.lnch
  rw [if_neg (not_not.2 h64), hread]
  dsimp only
  rw [hdesc]
  dsimp only
  rw [hpages]
  dsimp only
  rw [hplace]
  cases placed with
  | none => rfl
  | some l => rfl
end

end Sys2Proof.Machine
end

section
/-! PROOF. What a launch without a map does (R104 to R106, R423), for O54. -/

namespace Sys2Proof.Machine

/-! The members. -/

theorem mem_zip_range {count m j : Nat} {l : List Nat} : (m, j) ∈ (List.range count).zip l ↔ m < count ∧ l[m]? = some j := by
  have hrange : ∀ i, (List.range count)[i]? = some m ↔ i < count ∧ i = m := by simp [List.getElem?_eq_some_iff]
  simp only [List.mem_iff_getElem?, List.getElem?_zip_eq_some, hrange]
  constructor
  · rintro ⟨i, ⟨hi, rfl⟩, hj⟩
    exact ⟨hi, hj⟩
  · rintro ⟨hm, hj⟩
    exact ⟨m, ⟨hm, rfl⟩, hj⟩

theorem nodup_room (s : State) (home : Nat) : (s.room home).Nodup :=
  (nodup_coreOf_seats s (nodup_homeFirst home ((pairwise_islandOfHome s home).imp Nat.ne_of_lt))).of_map coreOf

theorem ctx_of_not_placed {d : GangDesc} {n count j : Nat} {w : Who} {l : List Nat} (s : State) (h : j ∉ l.take count) :
    (State.launchAll d n w ((List.range count).zip l) s).ctx j = s.ctx j := by
  refine launchAll_ctx_other s ?_
  rintro ⟨m, j'⟩ hp rfl
  obtain ⟨hm, hj⟩ := mem_zip_range.1 hp
  exact h (List.mem_of_getElem? ((List.getElem?_take_of_lt hm).trans hj))

theorem ctx_of_placed {d : GangDesc} {n count m j : Nat} {w : Who} {l : List Nat} (s : State) (hl : l.Nodup) (hm : m < count)
    (hj : l[m]? = some j) : (State.launchAll d n w ((List.range count).zip l) s).ctx j = Ctx.launch d n m w (s.ctx j) := by
  obtain ⟨m', hm', hctx⟩ := launchAll_ctx_member (d := d) (n := n) (w := w) s ⟨(m, j), mem_zip_range.2 ⟨hm, hj⟩, rfl⟩
  obtain ⟨-, hj'⟩ := mem_zip_range.1 hm'
  obtain ⟨hlt, -⟩ := List.getElem?_eq_some_iff.1 hj
  rw [hctx, (List.getElem?_inj hlt hl).1 (hj.trans hj'.symm)]

/-- What a member's registers become (R105). -/
theorem launch_descOf (v : Nat → Nat) (n m : Nat) (w : Who) (x : Ctx) : Ctx.launch (descOf v) n m w x = { x with
    st := .ready, wait := .none, park := .none, miss := .none, young := false, waited := 0, pc := BitVec.ofNat 64 (v 0)
    g := (Ctx.launch (descOf v) n m w x).g, member := BitVec.ofNat 10 m, gsize := BitVec.ofNat 11 (v 1 % 2 ^ 11), gang := BitVec.ofNat 16 n
    prio := BitVec.ofNat 2 (v 1 / 2 ^ 16)
    status := { x.status with
      mode := false, ie := true, ven := (v 1).testBit 18, vd := false, ten := (v 1).testBit 19, ye := (v 1).testBit 20 }
    yDl := BitVec.ofNat 32 (v 7 / 2 ^ 32), yPend := false, yArmed := none
    vl := 0, es := 0, grp := 0, vstart := 0, vfill := 0, vffe := 0, fstat := 0, seed := 0, stripbase := 0
    asid := BitVec.ofNat 16 w.asid, ptOn := w.ptOn, ptRoot := BitVec.ofNat 40 w.ptRoot
    vclear := x.vclear || (v 1).testBit 18, pmcnt := (Ctx.launch (descOf v) n m w x).pmcnt } := by
  have hprio : BitVec.ofNat 2 (v 1 / 2 ^ 16) = BitVec.ofNat 2 (v 1 / 2 ^ 16 % 2 ^ 2) := by
    refine BitVec.eq_of_toNat_eq ?_
    rw [BitVec.toNat_ofNat, BitVec.toNat_ofNat, Nat.mod_mod]
  rw [hprio]
  rfl

/-! The outcomes. -/

theorem lnch_wait (s : State) (r : RegionId) (c : Cmd) : (s.lnch r c).2.wait = false := by
  rcases lnch_cases s r c with ⟨-, -, hwait⟩ | ⟨u, d, placed, -, -, heq⟩
  · exact hwait
  · rw [heq]
    rfl

section
variable {s t : State} {r : RegionId} {c : Cmd}

theorem took_of_freeFx (hran : (s.lnch r c).1.Ran t r c (s.lnch r c).2) {code : Nat} (h : s.lnch r c = s.freeFx code) :
    Took s t (.lnch r) c (fun y => y.done = true ∧ y.code = code) := by
  rw [h] at hran
  exact hran.took (State.Looked.draw s).launching fun y hdone hcode _ => ⟨hdone, hcode⟩

section
variable {bytes : List Byte} (h64 : c.word 1 % 64 = 0) (hread : s.launchRead (c.who (.lnch r)) (c.word 1) 64 = (s, .ok bytes))
  (hgood : GoodDesc (wordAt bytes)) (hmap : wordAt bytes 6 = 0)
include h64 hread hgood hmap

theorem lnch_of_few (hfew : (s.room (regionOf c.ctx)).length < wordAt bytes 1 % 2 ^ 11) : s.lnch r c = s.freeFx 12 :=
  lnch_of_desc h64 hread (gangDesc_of_good hgood) hmap ((place_of_no_map s _ _).trans (if_neg (Nat.not_le.2 hfew)))

theorem lnch_of_room (hroom : wordAt bytes 1 % 2 ^ 11 ≤ (s.room (regionOf c.ctx)).length) : s.lnch r c =
    s.launchGang { c.who (.lnch r) with eng := none } (descOf (wordAt bytes))
      ((List.range (wordAt bytes 1 % 2 ^ 11)).zip (s.room (regionOf c.ctx))) := by
  have hplace : s.place { c.who (.lnch r) with eng := none } (descOf (wordAt bytes)).count [] =
      some ((List.range (wordAt bytes 1 % 2 ^ 11)).zip (s.room (regionOf c.ctx))) := (place_of_no_map s _ _).trans (if_pos hroom)
  rw [lnch_of_desc h64 hread (gangDesc_of_good hgood) hmap hplace, Option.elim_some]
end

/-- The number of the new gang is the next in the round that no GANG register holds (R423). -/
theorem newGang_free (h1 : 1 ≤ s.gangSeq) (h2 : s.gangSeq ≤ 65535) (hlen : s.ctxs.length < 65535) :
    1 ≤ s.newGang ∧ s.newGang ≤ 65535 ∧ (∀ x ∈ s.ctxs, x.2.gang.toNat ≠ s.newGang) ∧
      ∃ i : Nat, s.newGang = (s.gangSeq - 1 + i) % 65535 + 1 ∧
        ∀ i' < i, ∃ x ∈ s.ctxs, x.2.gang.toNat = (s.gangSeq - 1 + i') % 65535 + 1 := by
  obtain ⟨hfree, i, hi, hbefore⟩ := nextGang_free s h1 h2 hlen
  have hle : s.newGang ≤ 65535 := nextGang_le s 65535 h2
  have hnum : s.newGang = (s.gangSeq - 1 + i) % 65535 + 1 := hi
  exact ⟨by omega, hle, fun x hx hn => hfree ⟨x, hx, hn⟩, i, hnum, hbefore⟩

/-- The contexts of the new gang, as O54 says it. -/
theorem members_made {w : Who} {v : Nat → Nat} {count : Nat} {l : List Nat} {x : Fx} (hl : l.Nodup)
    (hran : (s.withGang w (descOf v) ((List.range count).zip l)).Ran t r c x) (j : Nat) :
    (j ∉ l.take count → t.ctx j = s.ctx j) ∧
      ∀ m < count, l[m]? = some j → t.ctx j = Ctx.launch (descOf v) s.newGang m w (s.ctx j) := by
  have hctx := (hran.ctx j).trans (withGang_ctx s w (descOf v) ((List.range count).zip l) j)
  exact ⟨fun hj => hctx.trans (ctx_of_not_placed s hj), fun m hm hj => hctx.trans (ctx_of_placed s hl hm hj)⟩

/-- The new gang, as O54 says it. -/
theorem gang_made {w : Who} {d : GangDesc} {placed : List (Nat × Nat)} (hran : (s.withGang w d placed).Ran t r c
    (Fx.of 0 (BitVec.ofNat 64 s.newGang))) :
    Took s t (.lnch r) c (fun y => y.done = true ∧ y.code = 0 ∧ y.result = BitVec.ofNat 64 s.newGang) ∧ t.gangSeq = s.newGang % 65535 + 1 ∧
      t.gangOf s.newGang = ⟨d.bdl, placed⟩ ∧ (∀ b ∈ t.bars, b.1.gang ≠ s.newGang ∨ b.1.sc = .pod) ∧
      ∀ x < 32, ∀ e ∈ (t.region x).heldDec, e.1 ≠ s.newGang := by
  refine ⟨hran.took (withGang_launching s w d placed) fun y hdone hcode hresult => ⟨hdone, hcode, hresult⟩, ?_, ?_, ?_, fun x hx e he => ?_⟩
  · rw [hran.gangSeq, withGang_gangSeq]
  · rw [hran.gangOf, withGang_gangOf]
  · rw [hran.bars]
    exact withGang_bars s w d placed
  · rw [hran.region, withGang_region, if_pos (List.mem_range.2 hx)] at he
    simpa using List.of_mem_filter he
end

end Sys2Proof.Machine
end

section
open Sys2Proof Sys2Proof.Machine

/-- Settles O54: a launch only looks until its members are placed, and each is placed on the seat of a core, the lowest FREE context there;
without a map the members take the first seats of the home region and then of the others. -/
theorem launchTakesOnlyFreeContexts : Obligations.LaunchTakesOnlyFreeContexts := by
  unfold Obligations.LaunchTakesOnlyFreeContexts
  intro s c r e
  refine ⟨fun hmay hclean hseq => launch_keeps hmay hclean hseq, ?_, fun x h => vclear_ends h⟩
  intro bytes w count good home island room hmay hclean h64 hwarm
  obtain ⟨t, hexec, hran⟩ := exec_lnchGang hmay hclean (lnch_wait s r c)
  have hread := launchRead_of_warm hwarm (by decide)
  refine ⟨t, hexec, fun hbad => took_of_freeFx hran (lnch_of_bad h64 hread (gangDesc_of_bad hbad)),
    fun hgood hmap hfew => took_of_freeFx hran (lnch_of_few h64 hread hgood hmap hfew), fun hgood hmap hroom h1 h2 hlen => ?_⟩
  obtain ⟨hpos, hle, hfree, hnext⟩ := newGang_free h1 h2 hlen
  rw [lnch_of_room h64 hread hgood hmap hroom, launchGang_eq] at hran
  dsimp only at hran
  obtain ⟨htook, hseq, hgang, hbars, hheld⟩ := gang_made hran
  refine ⟨s.newGang, hpos, hle, hfree, hnext, htook, hseq, hgang, hbars, hheld, fun j => ?_⟩
  obtain ⟨hother, hmember⟩ := members_made (nodup_room s _) hran j
  refine ⟨fun hj => ctx_pmcnt (hother hj), fun m hm hj => ?_⟩
  rw [hmember m hm hj]
  exact ⟨launch_descOf _ _ _ _ _, fun i => launch_getG _ _ _ _ _ i⟩
end

section
/-! PROOF. The rows of the scalar integer instructions (R121 to R123), for O1 to O3: what each of them computes, said of the values of its
operands alone. -/

namespace Sys2Proof.Machine

/-! Shift amounts, comparisons, and the lesser or greater of two values (R121). -/

theorem sh_eq (y : Word) : sh y = (y.extractLsb' 0 6).toNat := by simp [sh]

theorem boolWord_slt (x y : Word) : boolWord (x.slt y) = if x.toInt < y.toInt then 1 else 0 := by
  simp [boolWord, BitVec.slt_iff_toInt_lt]

theorem boolWord_ult (x y : Word) : boolWord (x.ult y) = if x.toNat < y.toNat then 1 else 0 := by
  simp [boolWord, BitVec.ult]

theorem lesser_eq_ofInt (x y : Word) : (if x.slt y then x else y) = BitVec.ofInt 64 (min x.toInt y.toInt) := by
  simp only [BitVec.slt_iff_toInt_lt]
  split
  · rw [min_eq_left (by omega), BitVec.ofInt_toInt]
  · rw [min_eq_right (by omega), BitVec.ofInt_toInt]

theorem greater_eq_ofInt (x y : Word) : (if x.slt y then y else x) = BitVec.ofInt 64 (max x.toInt y.toInt) := by
  simp only [BitVec.slt_iff_toInt_lt]
  split
  · rw [max_eq_right (by omega), BitVec.ofInt_toInt]
  · rw [max_eq_left (by omega), BitVec.ofInt_toInt]

theorem lesser_eq_ofNat (x y : Word) : (if x.ult y then x else y) = BitVec.ofNat 64 (min x.toNat y.toNat) := by
  simp only [BitVec.ult_iff_lt, BitVec.lt_def]
  split
  · rw [min_eq_left (by omega), BitVec.ofNat_toNat, BitVec.setWidth_eq]
  · rw [min_eq_right (by omega), BitVec.ofNat_toNat, BitVec.setWidth_eq]

theorem greater_eq_ofNat (x y : Word) : (if x.ult y then y else x) = BitVec.ofNat 64 (max x.toNat y.toNat) := by
  simp only [BitVec.ult_iff_lt, BitVec.lt_def]
  split
  · rw [max_eq_right (by omega), BitVec.ofNat_toNat, BitVec.setWidth_eq]
  · rw [max_eq_left (by omega), BitVec.ofNat_toNat, BitVec.setWidth_eq]

/-! Products, and sums of the low halves (R121). -/

theorem mul_eq_ofNat (x y : Word) : x * y = BitVec.ofNat 64 (x.toNat * y.toNat) := by simp [BitVec.ofNat_mul]

theorem mulHighU_eq (x y : Word) : mulHighU x y = (x.zeroExtend 128 * y.zeroExtend 128).extractLsb' 64 64 := by
  have hx := x.isLt
  have hy := y.isLt
  have hprod : x.toNat * y.toNat < 2 ^ 128 := by nlinarith
  apply BitVec.eq_of_toNat_eq
  simp only [mulHighU, BitVec.toNat_ofNat, BitVec.extractLsb'_toNat, BitVec.toNat_mul, BitVec.toNat_setWidth, Nat.shiftRight_eq_div_pow]
  rw [Nat.mod_eq_of_lt (by omega : x.toNat < 2 ^ 128), Nat.mod_eq_of_lt (by omega : y.toNat < 2 ^ 128), Nat.mod_eq_of_lt hprod]

theorem mulHigh_eq (x y : Word) : mulHigh x y = (x.signExtend 128 * y.signExtend 128).extractLsb' 64 64 := by
  have hprod : x.signExtend 128 * y.signExtend 128 = BitVec.ofInt 128 (x.toInt * y.toInt) := by
    simp [BitVec.signExtend, BitVec.ofInt_mul]
  apply BitVec.eq_of_toNat_eq
  rw [hprod, mulHigh, BitVec.extractLsb'_toNat, BitVec.toNat_ofInt, BitVec.toNat_ofInt, Nat.shiftRight_eq_div_pow]
  omega

theorem low_add (x y : Word) : (x + y).truncate 32 = x.extractLsb' 0 32 + y.extractLsb' 0 32 := by
  simp only [BitVec.truncate, ← BitVec.setWidth_eq_extractLsb' (by decide : 32 ≤ 64), BitVec.setWidth_add _ _ (by decide : 32 ≤ 64)]

theorem low_sub (x y : Word) : (x - y).truncate 32 = x.extractLsb' 0 32 - y.extractLsb' 0 32 := by
  rw [BitVec.sub_eq_add_neg, low_add, BitVec.sub_eq_add_neg]
  simp only [← BitVec.setWidth_eq_extractLsb' (by decide : 32 ≤ 64), BitVec.setWidth_neg_of_le (by decide : 32 ≤ 64)]

/-! Counts of bits, and the order of bytes (R121). -/

theorem clzGo_le (x : Word) (n : Nat) : clzGo x n ≤ n := by
  induction n with
  | zero => exact le_rfl
  | succ n ih => rw [clzGo]; split <;> omega

theorem clzGo_zeros (x : Word) (n i : Nat) (hi : i < clzGo x n) : x.getLsbD (n - 1 - i) = false := by
  induction n generalizing i with
  | zero => exact absurd hi (Nat.not_lt_zero i)
  | succ n ih =>
    rw [clzGo] at hi
    split at hi
    case isTrue => omega
    case isFalse htop =>
      cases i with
      | zero => simpa using htop
      | succ i => simpa [show n - (i + 1) = n - 1 - i by omega] using ih i (by omega)

theorem clzGo_one (x : Word) (n : Nat) (hn : clzGo x n < n) : x.getLsbD (n - 1 - clzGo x n) = true := by
  induction n with
  | zero => exact absurd hn (Nat.not_lt_zero _)
  | succ n ih =>
    rw [clzGo] at hn ⊢
    split at hn
    case isTrue htop => simp [htop]
    case isFalse htop => simpa [htop, show n - (clzGo x n + 1) = n - 1 - clzGo x n by omega] using ih (by omega)

theorem ctzGo_le (x : Word) (k n : Nat) : ctzGo x k n ≤ n := by
  induction n generalizing k with
  | zero => exact le_rfl
  | succ n ih => have := ih (k + 1); rw [ctzGo]; split <;> omega

theorem ctzGo_zeros (x : Word) (k n i : Nat) (hi : i < ctzGo x k n) : x.getLsbD (k + i) = false := by
  induction n generalizing k i with
  | zero => exact absurd hi (Nat.not_lt_zero i)
  | succ n ih =>
    rw [ctzGo] at hi
    split at hi
    case isTrue => omega
    case isFalse hlow =>
      cases i with
      | zero => simpa using hlow
      | succ i => simpa [Nat.add_right_comm, Nat.add_assoc] using ih (k + 1) i (by omega)

theorem ctzGo_one (x : Word) (k n : Nat) (hn : ctzGo x k n < n) : x.getLsbD (k + ctzGo x k n) = true := by
  induction n generalizing k with
  | zero => exact absurd hn (Nat.not_lt_zero _)
  | succ n ih =>
    rw [ctzGo] at hn ⊢
    split at hn
    case isTrue hlow => simp [hlow]
    case isFalse hlow => simpa [hlow, Nat.add_assoc, Nat.add_comm] using ih (k + 1) (by omega)

theorem popGo_eq (x : Word) (n : Nat) : popGo x.toNat n = (List.range n).countP (fun i => x.getLsbD i) := by
  induction n with
  | zero => rfl
  | succ n ih =>
    have hbit : x.toNat / 2 ^ n % 2 = if x.getLsbD n then 1 else 0 := by
      rw [BitVec.getLsbD, Nat.testBit_eq_decide_div_mod_eq]
      rcases Nat.mod_two_eq_zero_or_one (x.toNat / 2 ^ n) with h | h <;> simp [h]
    rw [popGo, ih, hbit, List.range_succ, List.countP_append, List.countP_singleton, Nat.add_comm]

theorem popc_eq (x : Word) : popc x = BitVec.ofNat 64 ((List.range 64).countP (fun i => x.getLsbD i)) := by rw [popc, popGo_eq]

/-- Each bit of a byte of the result lies in one of the eight bytes that `bswap` appends. -/
theorem bswap_byte (x : Word) (k : Nat) (hk : k < 8) : (bswap x).extractLsb' (8 * (7 - k)) 8 = x.extractLsb' (8 * k) 8 := by
  ext i hi
  simp only [bswap, BitVec.getElem_extractLsb', BitVec.getLsbD_append, BitVec.getLsbD_extractLsb']
  interval_cases k
  all_goals
    simp (disch := omega) only [if_neg, if_pos, decide_eq_true, Bool.true_and]
    congr 1
    omega

/-! Divisions (R122). -/

theorem divSigned_eq (x y : Word) : divSigned x y = if y = 0 then -1 else BitVec.ofInt 64 (x.toInt.tdiv y.toInt) := by
  rw [divSigned, BitVec.eq_of_toInt_eq (BitVec.toInt_sdiv x y |>.trans (BitVec.toInt_ofInt _).symm)]

theorem remSigned_eq (x y : Word) : remSigned x y = if y = 0 then x else BitVec.ofInt 64 (x.toInt.tmod y.toInt) := by
  rw [remSigned, ← BitVec.toInt_srem, BitVec.ofInt_toInt]

theorem divUnsigned_eq (x y : Word) : divUnsigned x y = if y = 0 then -1 else BitVec.ofNat 64 (x.toNat / y.toNat) := by
  rw [divUnsigned, BitVec.udiv_def]

theorem remUnsigned_eq (x y : Word) : remUnsigned x y = if y = 0 then x else BitVec.ofNat 64 (x.toNat % y.toNat) := by
  rw [remUnsigned, BitVec.umod_def]

/-! Instructions that only write a register (R119). -/

/-- An instruction that writes a register with a value that is said in another way. -/
theorem gives_of_eq {i : Instr} {d : GReg} {u v : State → Word} (h : ∀ s, exec i s = .next (s.finish d (u s))) (huv : ∀ s, u s = v s) :
    Gives i d v := (gives_of_finish i d u h).congr huv

end Sys2Proof.Machine
end

section
open Sys2Proof Sys2Proof.Machine

/-- Settles O1: each row writes the value that its lemma gives. -/
theorem aluWritesTableResult : Obligations.AluWritesTableResult := by
  unfold Obligations.AluWritesTableResult
  refine ⟨fun d a b => ?rows, fun d a => ?counts⟩
  case rows =>
    refine ⟨?add, ?sub, ?and, ?or, ?xor, ?andn, ?sll, ?srl, ?sra, ?rol, ?ror, ?slt, ?sltu, ?min, ?max, ?minu, ?maxu, ?mul, ?mulh, ?mulhu,
      ?movz, ?movn, ?addw, ?subw⟩
    case add | sub | and | or | xor | andn | movz => exact gives_of_finish _ d _ fun _ => rfl
    case sll | srl | sra | rol | ror => exact gives_of_eq (fun _ => rfl) fun s => by simp only [sh_eq]
    case slt => exact gives_of_eq (fun _ => rfl) fun _ => boolWord_slt _ _
    case sltu => exact gives_of_eq (fun _ => rfl) fun _ => boolWord_ult _ _
    case min => exact gives_of_eq (fun _ => rfl) fun _ => lesser_eq_ofInt _ _
    case max => exact gives_of_eq (fun _ => rfl) fun _ => greater_eq_ofInt _ _
    case minu => exact gives_of_eq (fun _ => rfl) fun _ => lesser_eq_ofNat _ _
    case maxu => exact gives_of_eq (fun _ => rfl) fun _ => greater_eq_ofNat _ _
    case mul => exact gives_of_eq (fun _ => rfl) fun _ => mul_eq_ofNat _ _
    case mulh => exact gives_of_eq (fun _ => rfl) fun _ => mulHigh_eq _ _
    case mulhu => exact gives_of_eq (fun _ => rfl) fun _ => mulHighU_eq _ _
    case movn => exact gives_of_eq (fun _ => rfl) fun _ => (ite_not ..).symm
    case addw => exact gives_of_eq (fun _ => rfl) fun _ => congrArg _ (low_add _ _)
    case subw => exact gives_of_eq (fun _ => rfl) fun _ => congrArg _ (low_sub _ _)
  case counts =>
    refine ⟨⟨clz, gives_of_finish _ d _ fun _ => rfl, fun x => ?clz⟩, ⟨ctz, gives_of_finish _ d _ fun _ => rfl, fun x => ?ctz⟩,
      gives_of_eq (fun _ => rfl) fun _ => popc_eq _, ⟨bswap, gives_of_finish _ d _ fun _ => rfl, bswap_byte⟩⟩
    case clz => exact ⟨clzGo x 64, clzGo_le x 64, by rw [clz], clzGo_zeros x 64, clzGo_one x 64⟩
    case ctz =>
      refine ⟨ctzGo x 0 64, ctzGo_le x 0 64, by rw [ctz], fun i hi => ?_, fun hn => ?_⟩
      · simpa using ctzGo_zeros x 0 64 i hi
      · simpa using ctzGo_one x 0 64 hn

/-- Settles O2: the quotients and remainders of the model are those of the integers, and the divisor 0 is the case of its own. -/
theorem divisionsRoundTowardZero : Obligations.DivisionsRoundTowardZero := by
  unfold Obligations.DivisionsRoundTowardZero
  exact fun d a b => ⟨gives_of_eq (fun _ => rfl) fun _ => divSigned_eq _ _, gives_of_eq (fun _ => rfl) fun _ => divUnsigned_eq _ _,
    gives_of_eq (fun _ => rfl) fun _ => remSigned_eq _ _, gives_of_eq (fun _ => rfl) fun _ => remUnsigned_eq _ _⟩

/-- Settles O3: the comparisons compare with the extended immediate, whose value is the immediate's; the other rows stand in the model as
they stand in the table. -/
theorem immediatesWriteTableResult : Obligations.ImmediatesWriteTableResult := by
  unfold Obligations.ImmediatesWriteTableResult
  intro d a i n
  refine ⟨?addi, ?andi, ?ori, ?xori, ?slti, ?sltiu, ?slli, ?srli, ?srai, ?rori, ?lih, ?addpc, ?shori⟩
  case slti =>
    exact gives_of_eq (fun _ => rfl) fun s => by simp only [boolWord_slt, BitVec.toInt_signExtend_of_le (by decide : 16 ≤ 64)]
  case sltiu => exact gives_of_eq (fun _ => rfl) fun _ => boolWord_ult _ _
  all_goals exact gives_of_finish _ d _ fun _ => rfl

end

section
/-! PROOF. Scalar floating-point arithmetic (R43, R125, R131), for O4: a NaN operand makes the exact result a NaN, and the one rounding of a
NaN delivers the canonical NaN without a flag of its own. -/

namespace Sys2Proof.Machine

/-! Row 1 of R43. -/

theorem exists_of_isNan {x : Num} (h : x.isNan = true) : ∃ sig, x = .nan sig := by
  cases x with
  | nan sig => exact ⟨sig, rfl⟩
  | inf neg => exact absurd h Bool.false_ne_true
  | fin neg m e => exact absurd h Bool.false_ne_true

theorem addNum_of_nan (rm : RMode) {x y : Num} (h : x.isNan = true ∨ y.isNan = true) : addNum rm x y = .nan := by
  rcases h with h | h <;> obtain ⟨sig, rfl⟩ := exists_of_isNan h
  · rfl
  · cases x <;> rfl

theorem mulExact_of_nan {x y : Num} (h : x.isNan = true ∨ y.isNan = true) : mulExact x y = .nan := by
  rcases h with h | h <;> obtain ⟨sig, rfl⟩ := exists_of_isNan h
  · cases y <;> rfl
  · cases x <;> rfl

theorem divExact_of_nan {x y : Num} (h : x.isNan = true ∨ y.isNan = true) : divExact x y = .nan := by
  rcases h with h | h <;> obtain ⟨sig, rfl⟩ := exists_of_isNan h
  · rfl
  · cases x <;> rfl

theorem fmaExact_of_nan (rm : RMode) (np : Bool) {x y z : Num} (h : x.isNan = true ∨ y.isNan = true ∨ z.isNan = true) :
    fmaExact rm np x y z = .nan := by simp [fmaExact, or_assoc, h]

/-! The instructions. -/

section
variable {i : Instr} {f : RMode → Num → Num → Exact} {d a b : GReg} {sz : FpSize} {rm : ScalarRm}
  (hexec : ∀ s, exec i s = fpBin f d a b sz rm s)
include hexec

/-- An instruction of two operands rounds its exact result once (R125). -/
theorem fpBin_gives : GivesFp i d (fun s =>
    let x := s.fp (sizeFmt sz) a
    let y := s.fp (sizeFmt sz) b
    let r := toFp (sizeFmt sz) (scalarRounding rm) (f (scalarMode rm) x y)
    (r.1, r.2 ||| sigFlag x ||| sigFlag y)) :=
  givesFp_of_finishFp hexec fun _ => rfl

/-- One whose exact result is a NaN delivers the canonical NaN, with the flags of its operands only (R26, R43). -/
theorem fpBin_canonNan (s : State) (hnan : f (scalarMode rm) (s.fp (sizeFmt sz) a) (s.fp (sizeFmt sz) b) = .nan) :
    ∃ t, exec i s = .next t ∧
      t.me.fstat = s.me.fstat ||| (sigFlag (s.fp (sizeFmt sz) a) ||| sigFlag (s.fp (sizeFmt sz) b)) ∧
      t.g d = if d = 0 then 0 else BitVec.ofNat 64 (sizeFmt sz).canonNan := by
  obtain ⟨t, ht, hd, hfstat⟩ := (fpBin_gives hexec).result s
  simp only [hnan, toFp, BitVec.ofNat_eq_ofNat, BitVec.zero_or] at hd hfstat
  exact ⟨t, ht, hfstat, hd⟩
end

/-- FMA rounds the exact sum of product and addend once (R131). -/
theorem fma_gives (d a b c : GReg) (sz : FpSize) (rm : ScalarRm) (np na : Bool) : GivesFp (.fma d a b c sz rm np na) d (fun s =>
    let x := s.fp (sizeFmt sz) a
    let y := s.fp (sizeFmt sz) b
    let z := s.fp (sizeFmt sz) c
    let r := toFp (sizeFmt sz) (scalarRounding rm) (fmaExact (scalarMode rm) np x y (if na then negNum z else z))
    (r.1, r.2 ||| sigFlag x ||| sigFlag y ||| sigFlag z)) :=
  givesFp_of_finishFp (fun _ => rfl) fun _ => rfl

/-- FMA with a NaN operand, whatever its negations and its other operands (R26, R43). -/
theorem fma_canonNan (d a b c : GReg) (sz : FpSize) (rm : ScalarRm) (np na : Bool) (s : State)
    (hnan : (s.fp (sizeFmt sz) a).isNan = true ∨ (s.fp (sizeFmt sz) b).isNan = true ∨ (s.fp (sizeFmt sz) c).isNan = true) :
    ∃ t, exec (.fma d a b c sz rm np na) s = .next t ∧
      t.me.fstat = s.me.fstat |||
        (sigFlag (s.fp (sizeFmt sz) a) ||| sigFlag (s.fp (sizeFmt sz) b) ||| sigFlag (s.fp (sizeFmt sz) c)) ∧
      t.g d = if d = 0 then 0 else BitVec.ofNat 64 (sizeFmt sz).canonNan := by
  have haddend : (if na then negNum (s.fp (sizeFmt sz) c) else s.fp (sizeFmt sz) c).isNan = (s.fp (sizeFmt sz) c).isNan := by
    split
    · exact isNan_negNum _
    · rfl
  obtain ⟨t, ht, hd, hfstat⟩ := (fma_gives d a b c sz rm np na).result s
  simp only [fmaExact_of_nan (scalarMode rm) np (haddend.symm ▸ hnan), toFp, BitVec.ofNat_eq_ofNat, BitVec.zero_or] at hd hfstat
  exact ⟨t, ht, hfstat, hd⟩

end Sys2Proof.Machine
end

section
open Sys2Proof Sys2Proof.Machine

/-- Settles O4: each instruction is its exact result rounded once, and a NaN operand makes that result a NaN. -/
theorem scalarFloatRoundsOnce : Obligations.ScalarFloatRoundsOnce := by
  unfold Obligations.ScalarFloatRoundsOnce
  refine ⟨fun d a b c sz rm np na => ?rounded, fun d a b c sz rm np na s => ⟨fun hnan => ?nan2, fun hnan => ?nan3⟩⟩
  case rounded =>
    exact ⟨fpBin_gives (f := addNum) fun _ => rfl, fpBin_gives (f := fun m x y => addNum m x (negNum y)) fun _ => rfl,
      fpBin_gives (f := fun _ => mulExact) fun _ => rfl, fpBin_gives (f := fun _ => divExact) fun _ => rfl,
      givesFp_of_finishFp (fun _ => rfl) fun _ => rfl, fma_gives d a b c sz rm np na⟩
  case nan2 =>
    have hsub := hnan
    rw [← isNan_negNum (fpVal _ _ (s.g b).toNat)] at hsub
    exact ⟨fpBin_canonNan (f := addNum) (fun _ => rfl) s (addNum_of_nan _ hnan),
      fpBin_canonNan (f := fun m x y => addNum m x (negNum y)) (fun _ => rfl) s (addNum_of_nan _ hsub),
      fpBin_canonNan (f := fun _ => mulExact) (fun _ => rfl) s (mulExact_of_nan hnan),
      fpBin_canonNan (f := fun _ => divExact) (fun _ => rfl) s (divExact_of_nan hnan)⟩
  case nan3 => exact fma_canonNan d a b c sz rm np na s hnan

end

section
/-! PROOF. Branches and jumps (R133, R134), for O6: where they go, and their words. -/

namespace Sys2Proof.Machine

/-- An offset counts words: its target is four times its value away. -/
theorem signExtend_shiftLeft_two {w : Nat} (off : BitVec w) : off.signExtend 64 <<< 2 = BitVec.ofInt 64 (4 * off.toInt) := by
  rw [BitVec.shiftLeft_eq_mul_twoPow, BitVec.ofInt_mul, mul_comm]
  rfl

/-- A branch completes, at its target where its condition holds and at the next word where not (R133). -/
theorem branch_spec {i : Instr} {p : Word → Word → Bool} {c a : GReg} {off : BitVec 16} {s : State} {taken : Prop}
    (hexec : exec i s = branch p c a off s) (hp : p (s.g c) (s.g a) = true ↔ taken) :
    ∃ t, exec i s = .next t ∧ OnlyMe s t ∧ (taken → t.me = s.me.completed (s.me.pc + BitVec.ofInt 64 (4 * off.toInt))) ∧
      (¬ taken → t.me = s.me.completed (s.me.pc + 4)) := by
  obtain ⟨honly, hme⟩ := retireTo_spec s (s.me.pc + (if p (s.g c) (s.g a) then off.signExtend 64 <<< 2 else 4))
  refine ⟨_, hexec, honly, fun h => ?_, fun h => ?_⟩
  · rw [hme, if_pos (hp.2 h), signExtend_shiftLeft_two]
  · rw [hme, if_neg (mt hp.1 h)]

/-- A jump that links writes one register and completes at its target (R134). -/
theorem link_spec (s : State) (d : GReg) (x pc : Word) :
    OnlyMe s ((s.setG d x).retireTo pc) ∧ s.me.Wrote ((s.setG d x).retireTo pc).me d x pc := by
  obtain ⟨honly, hme⟩ := setG_spec s d x
  obtain ⟨honly', hme'⟩ := retireTo_spec (s.setG d x) pc
  refine ⟨honly.trans honly', ?_⟩
  rw [hme', hme]
  exact wrote_completed _ _ _ _

/-- The word of format I (R52). -/
theorem put_formatI (maj x y z : Nat) : put x 21 (put y 16 (put z 0 (maj * 2 ^ 26))) = maj * 2 ^ 26 + x * 2 ^ 21 + y * 2 ^ 16 + z := by
  simp only [put]
  omega

/-- The word of a jump (R52). -/
theorem put_formatJ (maj z : Nat) : put z 0 (maj * 2 ^ 26) = maj * 2 ^ 26 + z := by
  simp only [put]
  omega

end Sys2Proof.Machine
end

section
open Sys2Proof Sys2Proof.Machine

/-- Settles O6: a branch by its condition, a jump by its target and its link, and each word by its format. -/
theorem branchesAndJumpsSetPc : Obligations.BranchesAndJumpsSetPc := by
  unfold Obligations.BranchesAndJumpsSetPc
  intro c a d off off26 s go
  refine ⟨?beq, ?bne, ?blt, ?bge, ?bltu, ?bgeu, ?j, ?jal, ?jalr, ?words⟩
  case beq => exact branch_spec (p := fun x y => x == y) rfl beq_iff_eq
  case bne => exact branch_spec (p := fun x y => x != y) rfl bne_iff_ne
  case blt => exact branch_spec (p := fun x y => x.slt y) rfl BitVec.slt_iff_toInt_lt
  case bge => exact branch_spec (p := fun x y => !x.slt y) rfl (by simp [BitVec.slt])
  case bltu => exact branch_spec (p := fun x y => x.ult y) rfl (by simp [BitVec.ult])
  case bgeu => exact branch_spec (p := fun x y => !x.ult y) rfl (by simp [BitVec.ult])
  case j =>
    rw [← signExtend_shiftLeft_two]
    exact ⟨_, rfl, retireTo_spec s _⟩
  case jal =>
    rw [← signExtend_shiftLeft_two]
    exact ⟨_, rfl, link_spec s 1 _ _⟩
  case jalr => exact ⟨_, rfl, link_spec s d _ _⟩
  case words =>
    have hI := fun maj (x y : GReg) => congrArg (fun w => some (BitVec.ofNat 32 w)) (put_formatI maj x.val y.val off.toNat)
    have hJ := fun maj => congrArg (fun w => some (BitVec.ofNat 32 w)) (put_formatJ maj off26.toNat)
    exact ⟨hI 0x20 c a, hI 0x21 c a, hI 0x22 c a, hI 0x23 c a, hI 0x24 c a, hI 0x25 c a, hJ 0x26, hJ 0x27, hI 0x28 d a⟩

end

section
/-! PROOF. Misaligned scalar accesses (R137, R277, R280) for O16, and the entry of stores into the store buffer (R139, R362) for O17. -/

namespace Sys2Proof.Machine

/-! Alignment. -/

theorem loadOp_misaligned {n : Nat} {a : GReg} {imm : BitVec 16} {s : State} (sext : Bool) (d : GReg) (h : (ea s a imm).toNat % n ≠ 0) :
    loadOp n sext d a imm s = raise 0x05 (ea s a imm) s := by simp only [loadOp, if_pos h]

theorem storeOp_misaligned {n : Nat} {a : GReg} {imm : BitVec 16} {s : State} (c : GReg) (h : (ea s a imm).toNat % n ≠ 0) :
    storeOp n c a imm s = raise 0x05 (ea s a imm) s := by simp only [storeOp, if_pos h]

theorem atomicGate_misaligned {n : Nat} {a : GReg} {s : State} (k : Acc) (rsv : Bool) (f : Piece → State → Out) (h : (s.g a).toNat % n ≠ 0) :
    atomicGate n k rsv a s f = raise 0x05 (s.g a) s := by simp only [atomicGate, if_pos h]

theorem cacheStore_misaligned {a b : GReg} {s : State} (w : Nat) (k : Acc) (kind : SbKind) (hlen : s.g b ≠ 0) (hle : (s.g b).toNat ≤ 65536)
    (h : (s.g a).toNat % 16 ≠ 0 ∨ (s.g b).toNat % 16 ≠ 0) : cacheStore w k kind true a b s = raise 0x05 (s.g a) s := by
  simp only [cacheStore, if_neg hlen, if_neg hle.not_gt]
  exact if_pos (by simpa using h)

/-! The store buffer. -/

theorem storeOp_of_aligned {n : Nat} {a : GReg} {imm : BitVec 16} {s u : State} {ps : List Piece} (c : GReg)
    (halign : (ea s a imm).toNat % n = 0) (htrans : s.transSpan (s.whoCtx s.cur) .store (ea s a imm).toNat n = (u, .ok ps))
    (hover : u.tileOverlaps u.cur (pieceLocs ps) = false) :
    storeOp n c a imm s = enterStore (.write (leBytes n (u.g c).toNat)) ps u := by
  simp [storeOp, halign, htrans, hover]

section
variable {u : State} {ps : List Piece} (kind : SbKind) (hcount : anyFar (coreOf u.cur) ps = false ∨ u.me.cntS ≠ 0xFFFF)
include hcount

theorem not_cntFull : ¬ (anyFar (coreOf u.cur) ps = true ∧ u.me.cntS = 0xFFFF) := by
  rcases hcount with hnear | hbelow
  · simp [hnear]
  · exact fun h => hbelow h.2

/-- An entry joins a buffer with room behind the earlier ones and counts in S where it leaves the die (R139, R362). -/
theorem enterStore_of_room (hroom : u.me.sb.length < 8) :
    let far := anyFar (coreOf u.cur) ps
    let e : SbEntry := ⟨kind, ps, far, u.me.asid.toNat, u.me.dlog && u.me.ptOn, u.issueSeq⟩
    ∃ t, enterStore kind ps u = .next t ∧ OnlyMe u t ∧
      t.me = ({ u.me with sb := u.me.sb ++ [e], cntS := if far then u.me.cntS + 1 else u.me.cntS } : Ctx).completed (u.me.pc + 4) := by
  intro far e
  obtain ⟨honly, hme⟩ := retire_spec
    (u.modMe fun c => { c with sb := c.sb ++ [e], cntS := if far then c.cntS + 1 else c.cntS })
  refine ⟨_, ?_, (onlyMe_modMe u _).trans honly, by rw [hme, State.modMe_me]⟩
  unfold enterStore
  exact (if_neg (not_cntFull hcount)).trans (if_neg hroom.not_ge)

/-- A full buffer holds the store back (R139). -/
theorem enterStore_of_full (hfull : 8 ≤ u.me.sb.length) : enterStore kind ps u = .next (u.hold .waitUnit .sbFull) := by
  unfold enterStore
  exact (if_neg (not_cntFull hcount)).trans (if_pos hfull)
end

end Sys2Proof.Machine
end

section
open Sys2Proof Sys2Proof.Machine

/-- Settles O16: each of these instructions looks at the alignment of its address first. -/
theorem misalignedScalarAccessTraps : Obligations.MisalignedScalarAccessTraps := by
  unfold Obligations.MisalignedScalarAccessTraps
  intro s c d a b imm dw q r sc va n
  have hload : ∀ {i : Instr} (m : Nat) (sext : Bool), exec i s = loadOp m sext d a imm s → va.toNat % m ≠ 0 →
      Raises i s 0x05 va :=
    fun m sext hexec h => raises_of_raise _ _ _ _ (hexec.trans (loadOp_misaligned sext d h))
  have hstore : ∀ {i : Instr} (m : Nat), exec i s = storeOp m c a imm s → va.toNat % m ≠ 0 → Raises i s 0x05 va :=
    fun m hexec h => raises_of_raise _ _ _ _ (hexec.trans (storeOp_misaligned c h))
  refine ⟨fun h => ⟨hload 2 true rfl h, hload 2 false rfl h, hstore 2 rfl h⟩,
    fun h => ⟨hload 4 true rfl h, hload 4 false rfl h, hstore 4 rfl h⟩, fun h => ⟨hload 8 true rfl h, hstore 8 rfl h⟩, fun h => ?atomics,
    fun hlen hle h => raises_of_raise _ _ _ _ (cacheStore_misaligned (wordCzero a b) .store .zero hlen hle h)⟩
  have hatom : ∀ {i : Instr} (k : Acc) (rsv : Bool) (f : Piece → State → Out), exec i s = atomicGate n k rsv a s f →
      Raises i s 0x05 (s.g a) :=
    fun k rsv f hexec => raises_of_raise _ _ _ _ (hexec.trans (atomicGate_misaligned k rsv f h))
  and_intros <;> exact hatom _ _ _ rfl

/-- Settles O17: an aligned store that translates is its entry into the buffer. -/
theorem storesEnterTheStoreBuffer : Obligations.StoresEnterTheStoreBuffer := by
  unfold Obligations.StoresEnterTheStoreBuffer
  intro c a imm store
  have hstore : ∀ (i : Instr) (n : Nat), (∀ s, exec i s = storeOp n c a imm s) → store i n := by
    intro i n hexec s u ps va halign htrans hover far e hcount
    have henter := (hexec s).trans (storeOp_of_aligned c halign htrans hover)
    rw [henter]
    exact ⟨enterStore_of_room _ hcount, fun hfull => ⟨_, enterStore_of_full _ hcount hfull, hold_spec u _ _⟩⟩
  exact ⟨hstore _ 1 fun _ => rfl, hstore _ 2 fun _ => rfl, hstore _ 4 fun _ => rfl, hstore _ 8 fun _ => rfl⟩

end

section
/-! PROOF. SETVL (R145, R147, R154), for O32. -/

namespace Sys2Proof.Machine

/-- State t is s after a SETVL that sets VL to n and, where `strip` says so, has first added the old VL to STRIPBASE. -/
def SetsVl (s t : State) (strip : Bool) (n : Nat) (d : GReg) (es grp : Fin 4) : Prop :=
  OnlyMe s t ∧
  ({ s.me with
    stripbase := if strip then s.me.stripbase + s.me.vl.zeroExtend 64 else s.me.stripbase
    vl := BitVec.ofNat 12 n, es := BitVec.ofNat 2 es.val, grp := BitVec.ofNat 2 grp.val, vstart := 0
    status := { s.me.status with vd := true } } : Ctx).Wrote t.me d (BitVec.ofNat 64 n) (s.me.pc + 4)

section
variable {s : State} (w : Nat) (strip : Bool) (count : Option Word) (d : GReg) (es grp : Fin 4) (dead : BitVec 8) {y : Bool}

theorem setvlOp_unavailable (hven : s.me.status.ven = false) :
    setvlOp w strip count d es grp dead y s = raise 0x0A (BitVec.ofNat 64 w) s :=
  if_neg (by simp [hven])

/-- No yield trap: VTYPE and VL are set. -/
theorem setvlOp_sets (hven : s.me.status.ven = true) (hy : ¬ (y = true ∧ s.me.status.ye = true ∧ s.me.yPend = true)) (n : Nat)
    (hn : (match count with
      | some r => min r.toNat (vlmax s.me.vcap.toNat es.val grp.val)
      | none => vlmax s.me.vcap.toNat es.val grp.val) = n) :
    ∃ t, setvlOp w strip count d es grp dead y s = .next t ∧ SetsVl s t strip n d es grp := by
  have hno : (y && s.me.status.ye && s.me.yPend) = false := by
    rw [Bool.eq_false_iff]
    simpa only [ne_eq, Bool.and_eq_true, and_assoc] using hy
  obtain ⟨honly, hwrote⟩ := finish_spec (s.modMe (fun c => ({ c with
    stripbase := if strip then c.stripbase + BitVec.ofNat 64 c.vl.toNat else c.stripbase
    vl := BitVec.ofNat 12 n, es := BitVec.ofNat 2 es.val, grp := BitVec.ofNat 2 grp.val, vstart := 0 } : Ctx).dirtyV)) d (BitVec.ofNat 64 n)
  subst hn
  rw [State.modMe_me] at hwrote
  refine ⟨_, (if_pos hven).trans (if_neg (by rw [hno]; decide)), (onlyMe_modMe s _).trans honly, ?_⟩
  rw [show s.me.vl.zeroExtend 64 = BitVec.ofNat 64 s.me.vl.toNat from (BitVec.ofNat_toNat ..).symm]
  exact hwrote

/-- The yield trap (R109). -/
theorem setvlOp_yields (hven : s.me.status.ven = true) (hy : y = true) (hye : s.me.status.ye = true) (hpend : s.me.yPend = true) :
    ∃ t u, setvlOp w strip count d es grp dead y s = .next t ∧ TrapTaken s u s.cur 0x0C s.me.pc 0 ∧ OnlyMe u t ∧
      t.me = { u.me with ydead := dead, yPend := false, yArmed := none } :=
  ⟨_, s.trap s.cur 0x0C s.me.pc 0, (if_pos hven).trans (if_pos (by rw [hy, hye, hpend]; rfl)), trap_spec _ _ _ _ _, onlyMe_modMe _ _,
    State.modMe_me _ _⟩

end

end Sys2Proof.Machine
end

section
open Sys2Proof Sys2Proof.Machine

/-- Settles O32: the four forms are one operation, which is unavailable, traps or sets VL. -/
theorem setVectorLength : Obligations.SetVectorLength := by
  unfold Obligations.SetVectorLength
  intro s d a es grp dead y x top form
  have hform : ∀ {i : Instr} (w : Nat) (strip : Bool) (count : Option Word) (n : Nat),
      exec i s = setvlOp w strip count d es grp dead y s →
      (match count with | some r => min r.toNat top | none => top) = n → form i w strip n := by
    intro i w strip count n hexec hn
    refine ⟨fun hven => raises_of_raise i s _ _ (hexec.trans (setvlOp_unavailable w strip count d es grp dead hven)),
      fun hven hy => ?_, fun hven hy hye hpend => ?_⟩
    · rw [hexec]
      exact setvlOp_sets w strip count d es grp dead hven hy n hn
    · rw [hexec]
      exact setvlOp_yields w strip count d es grp dead hven hy hye hpend
  exact ⟨hform _ false (some (s.g a)) _ rfl rfl, hform _ true (some (s.g a)) _ rfl rfl, hform _ false none _ rfl rfl,
    hform _ true none _ rfl rfl⟩

end

section
/-! PROOF. Writes of system registers (R147, R239 to R245), for O29. -/

namespace Sys2Proof.Machine

/-- A register write in a mode that allows it, with nothing to wait for. -/
theorem mtsOp_writes {s : State} {num w : Nat} {a : GReg} {f : Word → Ctx → Ctx} (hvq : s.vqOf s.cur = [])
    (hmode : s.me.status.mode = true ∨ uWritable num = true) : mtsOp num w a f s = .next (s.modMe (f (s.g a))).retire := by
  have hallowed : (!s.me.status.mode && !uWritable num) = false := by
    rcases hmode with h | h <;> rw [h] <;> simp
  rw [mtsOp, hallowed, hvq, if_neg Bool.false_ne_true, if_neg (by simp)]

/-- Such a write writes what the register's function says and completes. -/
theorem completesAs_of_mtsOp {i : Instr} {s : State} {num w : Nat} {a : GReg} {f : Word → Ctx → Ctx} (hvq : s.vqOf s.cur = [])
    (hmode : s.me.status.mode = true ∨ uWritable num = true) (hpc : (f (s.g a) s.me).pc = s.me.pc)
    (h : exec i s = mtsOp num w a f s) : CompletesAs i s (f (s.g a) s.me) (s.me.pc + 4) := by
  obtain ⟨honly, hme⟩ := retire_spec (s.modMe (f (s.g a)))
  refine ⟨_, h.trans (mtsOp_writes hvq hmode), (onlyMe_modMe s _).trans honly, ?_⟩
  rw [hme, State.modMe_me, hpc]

theorem Ctx.sysWrite_pc (c : Ctx) (num : Nat) (v : Word) : (c.sysWrite num v).pc = c.pc := by
  unfold Ctx.sysWrite
  repeat' split
  all_goals rfl

/-- The numbers that no register has (R239). -/
abbrev Unassigned (n : Nat) : Prop :=
  (0x00D ≤ n ∧ n ≤ 0x00F) ∨ n = 0x017 ∨ (0x01B ≤ n ∧ n ≤ 0x01F) ∨ (0x022 ≤ n ∧ n ≤ 0x02F) ∨ (0x034 ≤ n ∧ n ≤ 0x037) ∨
    (0x03A ≤ n ∧ n ≤ 0x03F) ∨ (0x042 ≤ n ∧ n ≤ 0x04F) ∨ (0x053 ≤ n ∧ n ≤ 0x05F) ∨ (0x063 ≤ n ∧ n ≤ 0x06F) ∨ 0x082 ≤ n

/-- A number reads as a register exactly where it is assigned. -/
theorem sysRead_eq_none_iff (s : State) (c n : Nat) : s.sysRead c n = none ↔ Unassigned n := by
  unfold State.sysRead
  split
  case h_42 =>
    simp only [imp_false] at *
    split
    case isTrue => exact iff_of_false (Option.some_ne_none _) (by omega)
    case isFalse =>
      split
      case isTrue => exact iff_of_false (Option.some_ne_none _) (by omega)
      case isFalse => exact iff_of_true rfl (by omega)
  all_goals exact iff_of_false (Option.some_ne_none _) (by decide)

/-- MTS of a register by its number, in K mode or of one that U mode may write. -/
theorem completesAs_mts {s : State} {num : BitVec 12} (a : GReg) (hvq : s.vqOf s.cur = [])
    (hmode : s.me.status.mode = true ∨ uWritable num.toNat = true) (hnum : ¬ Unassigned num.toNat) :
    CompletesAs (.mts a num) s (s.me.sysWrite num.toNat (s.g a)) (s.me.pc + 4) := by
  obtain ⟨v, hread⟩ := Option.ne_none_iff_exists'.1 (mt (sysRead_eq_none_iff s s.cur num.toNat).1 hnum)
  refine completesAs_of_mtsOp (w := wordMts a num) (f := fun v c => c.sysWrite num.toNat v) hvq hmode (Ctx.sysWrite_pc _ _ _) ?_
  change execMts a num s = _
  rw [execMts, hread]

theorem raises_mts_user {s : State} {num : BitVec 12} (a : GReg) (hmode : s.me.status.mode = false) (hnum : ¬ Unassigned num.toNat)
    (hread : uWritable num.toNat = false) : Raises (.mts a num) s 0x04 (BitVec.ofNat 64 (wordMts a num)) := by
  obtain ⟨v, hsome⟩ := Option.ne_none_iff_exists'.1 (mt (sysRead_eq_none_iff s s.cur num.toNat).1 hnum)
  refine raises_of_raise _ s _ _ ?_
  change execMts a num s = _
  rw [execMts, hsome]
  exact mtsOp_user hmode hread

theorem raises_mts_unassigned (s : State) {num : BitVec 12} (a : GReg) (hnum : Unassigned num.toNat) :
    Raises (.mts a num) s 0x01 (BitVec.ofNat 64 (wordMts a num)) := by
  refine raises_of_raise _ s _ _ ?_
  change execMts a num s = _
  rw [execMts, (sysRead_eq_none_iff s s.cur num.toNat).2 hnum]
  rfl

theorem uWritable_eq_false {num : BitVec 12} (h : num ∉ [0x012#12, 0x013#12, 0x014#12, 0x018#12, 0x019#12, 0x01A#12]) :
    uWritable num.toNat = false := by
  simp only [List.mem_cons, List.not_mem_nil, or_false, not_or, ← BitVec.toNat_inj] at h
  simp only [uWritable, List.contains_eq_mem, List.mem_cons, List.not_mem_nil, or_false, decide_eq_false_iff_not]
  simpa using h

theorem ofFn_set {α : Type} {n : Nat} (v : Vector α n) (k : Fin n) (x : α) :
    Vector.ofFn (fun i : Fin n => if i.val = k.val then x else v.get i) = v.set k.val x k.isLt := by
  refine Vector.ext fun i hi => ?_
  rw [Vector.getElem_ofFn, Vector.getElem_set]
  exact if_congr eq_comm rfl rfl

/-- The performance counter registers (R377). -/
theorem Ctx.sysWrite_pmsel (c : Ctx) (n : Fin 8) (v : Word) :
    c.sysWrite (BitVec.ofNat 12 (0x070 + n.val)).toNat v = { c with pmsel := c.pmsel.set n.val (v.extractLsb' 0 10) n.isLt } := by
  rw [← ofFn_set]
  fin_cases n <;> rfl

theorem Ctx.sysWrite_pmcnt (c : Ctx) (n : Fin 8) (v : Word) :
    c.sysWrite (BitVec.ofNat 12 (0x078 + n.val)).toNat v = { c with pmcnt := c.pmcnt.set n.val v n.isLt } := by
  rw [← ofFn_set]
  fin_cases n <;> rfl

/-- YCTL as R243 writes it: cancelled, started, written as it stands, and changed. -/
def Ctx.yctl (c : Ctx) (now v : Word) : Ctx :=
  let dl := v.extractLsb' 0 32
  if !v.getLsbD 32 then { c with yDl := dl, yPend := false, yArmed := none }
  else if !c.yPend then { c with yDl := dl, yPend := true, yStart := now.toNat, yArmed := some 0 }
  else { c with yDl := dl, yArmed := if dl = c.yDl then c.yArmed else some ((now - BitVec.ofNat 64 c.yStart).toNat + 1) }

theorem Ctx.yctl_pc (c : Ctx) (now v : Word) : (c.yctl now v).pc = c.pc := by
  unfold Ctx.yctl
  repeat' split
  all_goals rfl

section
variable {c : Ctx} {now v : Word}

theorem Ctx.yctl_cancels (hv : v.getLsbD 32 = false) :
    c.yctl now v = { c with yDl := v.extractLsb' 0 32, yPend := false, yArmed := none } := if_pos (by rw [hv]; rfl)

theorem Ctx.yctl_starts (hv : v.getLsbD 32 = true) (hp : c.yPend = false) : c.yctl now v =
    { c with yDl := v.extractLsb' 0 32, yPend := true, yStart := now.toNat, yArmed := some 0 } :=
  (if_neg (by rw [hv]; decide)).trans (if_pos (by rw [hp]; rfl))

theorem Ctx.yctl_pending (hv : v.getLsbD 32 = true) (hp : c.yPend = true) : c.yctl now v =
    { c with
      yDl := v.extractLsb' 0 32
      yArmed := if v.extractLsb' 0 32 = c.yDl then c.yArmed else some ((now - BitVec.ofNat 64 c.yStart).toNat + 1) } :=
  (if_neg (by rw [hv]; decide)).trans (if_neg (by rw [hp]; decide))

theorem Ctx.yctl_same (hv : v.getLsbD 32 = true) (hp : c.yPend = true) (hdl : v.extractLsb' 0 32 = c.yDl) : c.yctl now v = c := by
  rw [Ctx.yctl_pending hv hp, if_pos hdl, hdl]

theorem Ctx.yctl_changes (hv : v.getLsbD 32 = true) (hp : c.yPend = true) (hdl : v.extractLsb' 0 32 ≠ c.yDl) : c.yctl now v =
    { c with yDl := v.extractLsb' 0 32, yArmed := some ((now - BitVec.ofNat 64 c.yStart).toNat + 1) } := by
  rw [Ctx.yctl_pending hv hp, if_neg hdl]
end

/-- VCAP as R145 and R147 write it: a LOG2LEN of 7 to 14 is taken, any other is ignored in full. -/
def Ctx.vcapWrite (c : Ctx) (v : Word) : Ctx :=
  let n := v.extractLsb' 0 4
  if 7 ≤ n.toNat ∧ n.toNat ≤ 14 then ({ c with vcap := n, vstart := 0 } : Ctx).clampVl c.vl.toNat else c

theorem Ctx.vcapWrite_pc (c : Ctx) (v : Word) : (c.vcapWrite v).pc = c.pc := by
  unfold Ctx.vcapWrite
  dsimp only
  split <;> rfl

theorem Ctx.vcapWrite_taken {c : Ctx} {v : Word} (h : 7 ≤ (v.extractLsb' 0 4).toNat ∧ (v.extractLsb' 0 4).toNat ≤ 14) :
    c.vcapWrite v = ({ c with vcap := v.extractLsb' 0 4, vstart := 0 } : Ctx).clampVl c.vl.toNat := if_pos h

theorem Ctx.vcapWrite_ignored {c : Ctx} {v : Word} (h : ¬ (7 ≤ (v.extractLsb' 0 4).toNat ∧ (v.extractLsb' 0 4).toNat ≤ 14)) :
    c.vcapWrite v = c := if_neg h

end Sys2Proof.Machine
end

section
open Sys2Proof Sys2Proof.Machine

/-- Settles O29: each write is `mtsOp` with the function of its register; the registers without an instruction of their own are
`completesAs_mts`, by number. -/
theorem systemRegisterWrites : Obligations.SystemRegisterWrites := by
  unfold Obligations.SystemRegisterWrites
  intro a s x v wr vd capped unassigned
  refine ⟨fun hvq => ?user, fun hk hvq => ?kernel, fun hmode num hnum hread => raises_mts_user a hmode hnum (uWritable_eq_false hread),
    fun num hnum => raises_mts_unassigned s a hnum⟩
  case user =>
    have hmts : ∀ {num : BitVec 12}, uWritable num.toNat = true → ¬ Unassigned num.toNat → wr (.mts a num) (x.sysWrite num.toNat v) :=
      fun hu hnum => completesAs_mts a hvq (.inr hu) hnum
    exact ⟨hmts rfl (by decide), hmts rfl (by decide), hmts rfl (by decide), hmts rfl (by decide), hmts rfl (by decide),
      hmts rfl (by decide)⟩
  case kernel =>
    have hmts : ∀ {num : BitVec 12}, ¬ Unassigned num.toNat → wr (.mts a num) (x.sysWrite num.toNat v) :=
      fun hnum => completesAs_mts a hvq (.inl hk) hnum
    have hown : ∀ {i : Instr} {num w : Nat} (f : Word → Ctx → Ctx), (f v x).pc = x.pc → exec i s = mtsOp num w a f s → wr i (f v x) :=
      fun f hpc h => completesAs_of_mtsOp hvq (.inl hk) hpc h
    have hyctl : wr (.mtsYctl a) (x.yctl s.time v) := hown (fun v c => c.yctl s.time v) (Ctx.yctl_pc _ _ _) rfl
    have hvcap : wr (.mtsVcap a) (x.vcapWrite v) := hown (fun v c => c.vcapWrite v) (Ctx.vcapWrite_pc _ _) rfl
    refine ⟨hown (fun v c => { c with status := c.status.write v }) rfl rfl, hown (fun v c => (c.clampVl v.toNat).dirtyV) rfl rfl,
      hown (fun v c => (({ c with es := v.extractLsb' 0 2, grp := v.extractLsb' 2 2 } : Ctx).clampVl c.vl.toNat).dirtyV) rfl rfl,
      ⟨fun hn => ?vcap, fun hn => ?vcapIgnored⟩, hown (fun v c => { c with cntC := v.extractLsb' 0 16 }) rfl rfl,
      ⟨fun hv => ?cancel, fun hv hp => ?start, fun hv hp hdl => ?same, fun hv hp hdl => ?change⟩,
      hmts (by decide), hmts (by decide), hmts (by decide), hmts (by decide), ?kscr, hmts (by decide), hmts (by decide), hmts (by decide),
      hmts (by decide), hmts (by decide), hmts (by decide), hmts (by decide), hmts (by decide), fun n => ⟨?pmsel, ?pmcnt⟩, ?readOnly⟩
    case vcap =>
      rw [Ctx.vcapWrite_taken hn] at hvcap
      exact hvcap
    case vcapIgnored =>
      rw [Ctx.vcapWrite_ignored hn] at hvcap
      exact hvcap
    case cancel => exact Ctx.yctl_cancels hv ▸ hyctl
    case start => exact Ctx.yctl_starts hv hp ▸ hyctl
    case same => exact Ctx.yctl_same hv hp hdl ▸ hyctl
    case change => exact Ctx.yctl_changes hv hp hdl ▸ hyctl
    case kscr =>
      intro n
      have hnum : ∀ n : Fin 3, ¬ Unassigned (BitVec.ofNat 12 (5 + n.val)).toNat := by decide
      have hwrite : x.sysWrite (BitVec.ofNat 12 (5 + n.val)).toNat v = { x with kscr := x.kscr.set n.val v n.isLt } := by fin_cases n <;> rfl
      exact hwrite ▸ hmts (hnum n)
    case pmsel =>
      have hnum : ∀ n : Fin 8, ¬ Unassigned (BitVec.ofNat 12 (0x070 + n.val)).toNat := by decide
      exact x.sysWrite_pmsel n v ▸ hmts (hnum n)
    case pmcnt =>
      have hnum : ∀ n : Fin 8, ¬ Unassigned (BitVec.ofNat 12 (0x078 + n.val)).toNat := by decide
      exact x.sysWrite_pmcnt n v ▸ hmts (hnum n)
    case readOnly =>
      intro num hnum
      fin_cases hnum <;> exact hmts (by decide)

end

section
/-! PROOF. The elements of a vector instruction, performed in order (R144, R150, R175): the bits that each writes, and what it reads of a
register group whose other elements are written before it. For O38, O39 and O41. -/

namespace Sys2Proof.Machine

/-! Bits of a register group. -/

/-- The bit offset of a lane leaves room for the lane. -/
theorem lane_fits {w L : Nat} (hw : w ∣ 2 ^ L) (i : Nat) : i * w % 2 ^ L + w ≤ 2 ^ L := by
  obtain ⟨k, hk⟩ := hw
  have hpos : 0 < k := Nat.pos_of_ne_zero fun h => by simp [h] at hk
  have hmod : i * w % 2 ^ L = w * (i % k) := by rw [hk, Nat.mul_comm i w, Nat.mul_mod_mul_left]
  calc _ = w * (i % k + 1) := by rw [hmod, Nat.mul_succ]
    _ ≤ w * k := Nat.mul_le_mul_left w (Nat.mod_lt i hpos)
    _ = _ := hk.symm

/-- A lane within the registers from d on. -/
theorem lane_register {d i w L : Nat} (h : i * w < (32 - d) * 2 ^ L) : d + i * w / 2 ^ L < 32 := by
  have hdiv : i * w / 2 ^ L < 32 - d := Nat.div_lt_of_lt_mul (by rwa [Nat.mul_comm (32 - d)] at h)
  generalize i * w / 2 ^ L = q at *
  omega

theorem getLsbD_setElem (c : Ctx) {L d w i : Nat} (x : Nat) (hL : L ≤ 14) (hw : w ∣ 2 ^ L) (hi : i * w < (32 - d) * 2 ^ L) (r : VReg)
    (j : Nat) : ((c.setElem L d w i x).v.get r).getLsbD j =
      if r.val = d + i * w / 2 ^ L ∧ i * w % 2 ^ L ≤ j ∧ j < i * w % 2 ^ L + w then x.testBit (j - i * w % 2 ^ L)
      else (c.v.get r).getLsbD j := by
  have hfit := lane_fits hw i
  have hlen : 2 ^ L ≤ 16384 := (Nat.pow_le_pow_right (by decide) hL).trans (by decide : 2 ^ 14 ≤ 16384)
  have hreg : (d + i * w / 2 ^ L) % 32 = d + i * w / 2 ^ L := Nat.mod_eq_of_lt (lane_register hi)
  by_cases hr : r.val = d + i * w / 2 ^ L
  · have hself : Fin.ofNat 32 (d + i * w / 2 ^ L) = r := Fin.ext (hreg.trans hr.symm)
    have hwritten : (c.setElem L d w i x).v.get r = putBits (c.v.get r) (i * w % 2 ^ L) w x := by
      simp only [Ctx.setElem, hself]
      exact Vector.getElem_set_self r.isLt
    rw [hwritten]
    by_cases hj : j < 16384
    · rw [getLsbD_putBits _ _ _ _ _ hj]
      exact if_congr (by simp [hr]) rfl rfl
    · rw [BitVec.getLsbD_of_ge _ _ (by omega), if_neg (by omega), BitVec.getLsbD_of_ge _ _ (by omega)]
  · rw [setElem_other c L d w i x r (by rwa [hreg]), if_neg fun h => hr h.1]

theorem getLsbD_lane (c : Ctx) (e : VEntry) (w n i t : Nat) (ht : t < w) :
    (c.lane e w n i).getLsbD t = (c.v.get (Fin.ofNat 32 (n + i * w / 2 ^ e.lenLog))).getLsbD (i * w % 2 ^ e.lenLog + t) := by
  simp [Ctx.lane, ht]

/-- The elements of a group after one of them is written. -/
theorem lane_setElem (c : Ctx) (e : VEntry) {d w i : Nat} (x : Nat) (hL : e.lenLog ≤ 14) (hw : w ∣ 2 ^ e.lenLog)
    (hi : i * w < (32 - d) * 2 ^ e.lenLog) {j : Nat} (hj : j * w < (32 - d) * 2 ^ e.lenLog) :
    (c.setElem e.lenLog d w i x).lane e w d j = if j = i then BitVec.ofNat w x else c.lane e w d j := by
  refine BitVec.eq_of_getLsbD_eq fun t ht => ?_
  have hreg := lane_register hj
  have hidx : (Fin.ofNat 32 (d + j * w / 2 ^ e.lenLog)).val = d + j * w / 2 ^ e.lenLog := Nat.mod_eq_of_lt hreg
  rw [getLsbD_lane _ _ _ _ _ _ ht, getLsbD_setElem c x hL hw hi, hidx]
  have hposj := Nat.div_add_mod (j * w) (2 ^ e.lenLog)
  have hposi := Nat.div_add_mod (i * w) (2 ^ e.lenLog)
  by_cases hij : j = i
  · subst hij
    rw [if_pos ⟨rfl, by omega, by omega⟩, if_pos rfl, BitVec.getLsbD_ofNat, Nat.add_sub_cancel_left]
    simp [ht]
  · rw [if_neg, if_neg hij, getLsbD_lane _ _ _ _ _ _ ht]
    rintro ⟨hsame, hlow, hhigh⟩
    rw [show j * w / 2 ^ e.lenLog = i * w / 2 ^ e.lenLog by omega] at hposj
    rcases Nat.lt_or_gt_of_ne hij with hlt | hgt
    · have h := Nat.mul_le_mul_right w (Nat.succ_le_of_lt hlt)
      rw [Nat.succ_mul] at h
      omega
    · have h := Nat.mul_le_mul_right w (Nat.succ_le_of_lt hgt)
      rw [Nat.succ_mul] at h
      omega

/-- Context c is x but for flags, and for bits of the vector registers that lie, counted from register d on, below n (R144). -/
def Ctx.WrittenBelow (x c : Ctx) (L d n : Nat) : Prop :=
  c = { x with v := c.v, fstat := c.fstat } ∧
  ∀ (r : VReg) (j : Nat), (r.val < d ∨ 2 ^ L ≤ j ∨ n ≤ (r.val - d) * 2 ^ L + j) → (c.v.get r).getLsbD j = (x.v.get r).getLsbD j

namespace Ctx.WrittenBelow
variable {x c : Ctx} {L d n : Nat}

theorem refl (x : Ctx) (L d n : Nat) : x.WrittenBelow x L d n := ⟨rfl, fun _ _ _ => rfl⟩

theorem mono (h : x.WrittenBelow c L d n) {n' : Nat} (hn : n ≤ n') : x.WrittenBelow c L d n' := by
  obtain ⟨hframe, hbits⟩ := h
  exact ⟨hframe, fun r j hout => hbits r j (hout.imp_right fun h => h.imp_right hn.trans)⟩

theorem masks (h : x.WrittenBelow c L d n) : c.m = x.m := by
  obtain ⟨hframe, -⟩ := h
  rw [hframe]

theorem active (h : x.WrittenBelow c L d n) (k : MaskSel) (i : Nat) : c.active k i = x.active k i := by
  rw [Ctx.active, Ctx.active, Ctx.mbit, Ctx.mbit, h.masks]

/-- A register that does not meet the written bits. -/
theorem register (h : x.WrittenBelow c L d n) {r : VReg} (hr : r.val < d ∨ n ≤ (r.val - d) * 2 ^ L) : c.v.get r = x.v.get r := by
  obtain ⟨-, hbits⟩ := h
  refine BitVec.eq_of_getLsbD_eq fun j _ => hbits r j ?_
  rcases hr with hr | hr
  · exact .inl hr
  · exact .inr (.inr (by omega))

theorem bit (h : x.WrittenBelow c L d n) (r : VReg) {j : Nat} (hj : 2 ^ L ≤ j) : (c.v.get r).getLsbD j = (x.v.get r).getLsbD j := by
  obtain ⟨-, hbits⟩ := h
  exact hbits r j (.inr (.inl hj))

/-- A lane that does not meet the written bits. -/
theorem lane {e : VEntry} (h : x.WrittenBelow c e.lenLog d n) {w a k : Nat} (hreg : a + k * w / 2 ^ e.lenLog < 32)
    (hout : a + k * w / 2 ^ e.lenLog < d ∨ d ≤ a ∧ n ≤ (a - d) * 2 ^ e.lenLog + k * w) : c.lane e w a k = x.lane e w a k := by
  obtain ⟨-, hbits⟩ := h
  refine BitVec.eq_of_getLsbD_eq fun t ht => ?_
  rw [getLsbD_lane _ _ _ _ _ _ ht, getLsbD_lane _ _ _ _ _ _ ht]
  refine hbits _ _ ?_
  have hidx : (Fin.ofNat 32 (a + k * w / 2 ^ e.lenLog)).val = a + k * w / 2 ^ e.lenLog := Nat.mod_eq_of_lt hreg
  rw [hidx]
  rcases hout with hlow | ⟨hd, hn⟩
  · exact .inl hlow
  · have hpos := Nat.div_add_mod (k * w) (2 ^ e.lenLog)
    have hsplit : (a + k * w / 2 ^ e.lenLog - d) * 2 ^ e.lenLog = (a - d) * 2 ^ e.lenLog + 2 ^ e.lenLog * (k * w / 2 ^ e.lenLog) := by
      rw [Nat.mul_comm (2 ^ e.lenLog), ← Nat.add_mul]
      rw [Nat.sub_add_comm hd]
    rw [hsplit]
    generalize k * w / 2 ^ e.lenLog = q at *
    exact .inr (.inr (by omega))

/-- Another element is written. -/
theorem put {e : VEntry} (h : x.WrittenBelow c e.lenLog d n) {d' : VReg} (hd : d'.val = d) {w i : Nat} (y : Nat × FFlags)
    (hL : e.lenLog ≤ 14) (hw : w ∣ 2 ^ e.lenLog) (hi : i * w < (32 - d) * 2 ^ e.lenLog) (hn : i * w + w ≤ n) :
    x.WrittenBelow (e.put c d' w i y) e.lenLog d n := by
  subst hd
  obtain ⟨hframe, hbits⟩ := h
  refine ⟨?_, fun r j hout => ?_⟩
  · rw [VEntry.put, Ctx.raiseFlags, Ctx.setElem, hframe]
  · refine (getLsbD_setElem c y.1 hL hw hi r j).trans ?_
    rw [if_neg, hbits r j hout]
    rintro ⟨hr, hlow, hhigh⟩
    have hpos := Nat.div_add_mod (i * w) (2 ^ e.lenLog)
    have hfit := lane_fits hw i
    have hreg : (r.val - d'.val) * 2 ^ e.lenLog = 2 ^ e.lenLog * (i * w / 2 ^ e.lenLog) := by
      rw [hr, Nat.add_sub_cancel_left, Nat.mul_comm]
    generalize i * w / 2 ^ e.lenLog = q at *
    omega
end Ctx.WrittenBelow

/-! Elements in order. -/

/-- The context in which element i is performed, of the elements lo to hi − 1 that `step` performs in order. -/
def sweep (step : Ctx → Nat → Ctx) (lo hi : Nat) (x : Ctx) : Nat → Ctx
  | 0 => x
  | i + 1 => if lo ≤ i ∧ i < hi then step (sweep step lo hi x i) i else sweep step lo hi x i

theorem sweep_of_le {step : Ctx → Nat → Ctx} {lo hi : Nat} {x : Ctx} {i : Nat} (h : i ≤ lo) : sweep step lo hi x i = x := by
  induction i with
  | zero => rfl
  | succ i ih => rw [sweep, if_neg (by omega), ih (by omega)]

/-- The model's recursions over elements and blocks. -/
theorem sweep_of_rec {F : Nat → Nat → Ctx → Ctx} {step : Ctx → Nat → Ctx} (hzero : ∀ i c, F 0 i c = c)
    (hsucc : ∀ n i c, F (n + 1) i c = F n (i + 1) (step c i)) (lo hi : Nat) (x : Ctx) :
    F (hi - lo) lo x = sweep step lo hi x hi := by
  have hrun : ∀ n i, lo ≤ i → i + n = max lo hi → F n i (sweep step lo hi x i) = sweep step lo hi x (i + n) := by
    intro n
    induction n with
    | zero => exact fun i _ _ => hzero i _
    | succ n ih =>
      intro i hlo hsum
      have hnext := ih (i + 1) (by omega) (by omega)
      rw [sweep, if_pos (by omega)] at hnext
      rw [hsucc, hnext]
      congr 1
      omega
  by_cases h : lo ≤ hi
  · have hall := hrun (hi - lo) lo (le_refl lo) (by omega)
    rwa [sweep_of_le (le_refl lo), Nat.add_sub_cancel' h] at hall
  · rw [Nat.sub_eq_zero_of_le (by omega), hzero, sweep_of_le (by omega)]

/-- `step` writes element g i of the group at d, w bits wide, where `done` says that element i is performed: by f of the context in which
it is. -/
def Writes (e : VEntry) (d : VReg) (w : Nat) (done : Nat → Prop) (g : Nat → Nat) (f : Ctx → Nat → Nat × FFlags)
    (step : Ctx → Nat → Ctx) (lo hi : Nat) (x : Ctx) : Prop :=
  ∀ i c, lo ≤ i → i < hi → x.WrittenBelow c e.lenLog d.val (i * w) →
    (done i → step c i = e.put c d w (g i) (f c i)) ∧ (¬ done i → step c i = c)

section
variable {e : VEntry} {d : VReg} {w : Nat} {done : Nat → Prop} {g : Nat → Nat} {f : Ctx → Nat → Nat × FFlags}
  {step : Ctx → Nat → Ctx} {lo hi : Nat} {x : Ctx} (hL : e.lenLog ≤ 14) (hw : w ∣ 2 ^ e.lenLog)
  (hroom : hi * w ≤ (32 - d.val) * 2 ^ e.lenLog) (hg : ∀ i, g i ≤ i)
  (hstep : Writes e d w done g f step lo hi x)

include hroom hg in
/-- An element that is performed lies in the group. -/
theorem Writes.inGroup (hpos : 0 < w) {i : Nat} (hi : i < hi) : g i * w < (32 - d.val) * 2 ^ e.lenLog := by
  have hle := Nat.mul_le_mul_right w (Nat.succ_le_of_lt (lt_of_le_of_lt (hg i) hi))
  rw [Nat.succ_mul] at hle
  omega

include hL hw hroom hg hstep

theorem Writes.writtenBelow (hpos : 0 < w) (i : Nat) : x.WrittenBelow (sweep step lo hi x i) e.lenLog d.val (min i hi * w) := by
  induction i with
  | zero => exact .refl x _ _ _
  | succ i ih =>
    have hmono : min i hi * w ≤ min (i + 1) hi * w := Nat.mul_le_mul_right w (by omega)
    rw [sweep]
    by_cases hin : lo ≤ i ∧ i < hi
    · rw [if_pos hin]
      obtain ⟨hlo, hhi⟩ := hin
      have hmin : min i hi = i := by omega
      obtain ⟨hdone, hskip⟩ := hstep i _ hlo hhi (hmin ▸ ih)
      by_cases h : done i
      · rw [hdone h]
        refine (ih.mono hmono).put rfl _ hL hw (Writes.inGroup hroom hg hpos hhi) ?_
        have hle := Nat.mul_le_mul_right w (Nat.succ_le_succ (hg i))
        rw [Nat.succ_mul] at hle
        rwa [show min (i + 1) hi = i + 1 by omega]
      · rw [hskip h]
        exact ih.mono hmono
    · rw [if_neg hin]
      exact ih.mono hmono

/-- What element i does. -/
theorem Writes.step_eq (hpos : 0 < w) {i : Nat} (hin : lo ≤ i ∧ i < hi) :
    (done i → sweep step lo hi x (i + 1) = e.put (sweep step lo hi x i) d w (g i) (f (sweep step lo hi x i) i)) ∧
      (¬ done i → sweep step lo hi x (i + 1) = sweep step lo hi x i) := by
  have hbelow := Writes.writtenBelow hL hw hroom hg hstep hpos i
  rw [show min i hi = i by omega] at hbelow
  rw [sweep, if_pos hin]
  exact hstep i _ hin.1 hin.2 hbelow

/-- The elements of the group before element m is performed. -/
theorem Writes.lanes (hpos : 0 < w) (hinj : ∀ i j, done i → done j → i < j → g i ≠ g j) (m : Nat) :
    (∀ i < m, (lo ≤ i ∧ i < hi) → done i →
      (sweep step lo hi x m).lane e w d.val (g i) = BitVec.ofNat w (f (sweep step lo hi x i) i).1) ∧
    ∀ j, j * w < (32 - d.val) * 2 ^ e.lenLog → (∀ i < m, (lo ≤ i ∧ i < hi) → done i → g i ≠ j) →
      (sweep step lo hi x m).lane e w d.val j = x.lane e w d.val j := by
  induction m with
  | zero => exact ⟨fun i hi => absurd hi (Nat.not_lt_zero i), fun j _ _ => rfl⟩
  | succ m ih =>
    obtain ⟨hwritten, hkept⟩ := ih
    by_cases hin : (lo ≤ m ∧ m < hi) ∧ done m
    · obtain ⟨hin, hm⟩ := hin
      have hput := (Writes.step_eq hL hw hroom hg hstep hpos hin).1 hm
      have hlane : ∀ j, j * w < (32 - d.val) * 2 ^ e.lenLog → (sweep step lo hi x (m + 1)).lane e w d.val j =
          if j = g m then BitVec.ofNat w (f (sweep step lo hi x m) m).1 else (sweep step lo hi x m).lane e w d.val j := fun j hj => by
        rw [hput]
        exact lane_setElem _ e _ hL hw (Writes.inGroup hroom hg hpos hin.2) hj
      refine ⟨fun i hi hini hdone => ?_, fun j hj hfree => ?_⟩
      · rw [hlane _ (Writes.inGroup hroom hg hpos hini.2)]
        rcases Nat.lt_succ_iff_lt_or_eq.1 hi with hlt | rfl
        · rw [if_neg (hinj i m hdone hm hlt), hwritten i hlt hini hdone]
        · rw [if_pos rfl]
      · rw [hlane j hj, if_neg (hfree m (Nat.lt_succ_self m) hin hm).symm]
        exact hkept j hj fun i hi => hfree i (Nat.lt_succ_of_lt hi)
    · have hsame : sweep step lo hi x (m + 1) = sweep step lo hi x m := by
        by_cases hrange : lo ≤ m ∧ m < hi
        · exact (Writes.step_eq hL hw hroom hg hstep hpos hrange).2 fun h => hin ⟨hrange, h⟩
        · rw [sweep, if_neg hrange]
      rw [hsame]
      refine ⟨fun i hi hini hdone => ?_, fun j hj hfree => hkept j hj fun i hi => hfree i (Nat.lt_succ_of_lt hi)⟩
      rcases Nat.lt_succ_iff_lt_or_eq.1 hi with hlt | rfl
      · exact hwritten i hlt hini hdone
      · exact absurd ⟨hini, hdone⟩ hin

/-- The flags before element m is performed. -/
theorem Writes.flags (hpos : 0 < w) (m j : Nat) : (sweep step lo hi x m).fstat.getLsbD j = true ↔
    x.fstat.getLsbD j = true ∨ ∃ i < m, (lo ≤ i ∧ i < hi) ∧ done i ∧ (f (sweep step lo hi x i) i).2.getLsbD j = true := by
  induction m with
  | zero => simp [sweep]
  | succ m ih =>
    have hsplit : (∃ i < m + 1, (lo ≤ i ∧ i < hi) ∧ done i ∧ (f (sweep step lo hi x i) i).2.getLsbD j = true) ↔
        (∃ i < m, (lo ≤ i ∧ i < hi) ∧ done i ∧ (f (sweep step lo hi x i) i).2.getLsbD j = true) ∨
          ((lo ≤ m ∧ m < hi) ∧ done m ∧ (f (sweep step lo hi x m) m).2.getLsbD j = true) := by
      simp only [Nat.lt_succ_iff_lt_or_eq, or_and_right, exists_or, exists_eq_left]
    rw [hsplit, ← or_assoc, ← ih]
    by_cases hrange : lo ≤ m ∧ m < hi
    · obtain ⟨hput, hskip⟩ := Writes.step_eq hL hw hroom hg hstep hpos hrange
      by_cases hm : done m
      · have hor : (e.put (sweep step lo hi x m) d w (g m) (f (sweep step lo hi x m) m)).fstat =
            (sweep step lo hi x m).fstat ||| (f (sweep step lo hi x m) m).2 := rfl
        rw [hput hm, hor, BitVec.getLsbD_or, Bool.or_eq_true]
        simp only [hrange, hm, and_self, true_and]
      · rw [hskip hm]
        simp only [hm, false_and, and_false, or_false]
    · rw [sweep, if_neg hrange]
      simp only [hrange, false_and, or_false]
end

end Sys2Proof.Machine
end

section
/-! PROOF. The register groups of a vector instruction that dispatch lets in (R35, R79, R152): a source is read as it was before the
instruction, and the elements written lie in the destination. For O38, O39 and O41. -/

namespace Sys2Proof.Machine

/-! Widths of elements. -/

/-- The widths that elements have in a register group: a half-byte to a doubleword (R35). -/
def LaneWidth (w : Nat) : Prop := ∃ u, 2 ≤ u ∧ u ≤ 6 ∧ w = 2 ^ u

namespace LaneWidth
variable {w : Nat}

theorem pos (h : LaneWidth w) : 0 < w := by
  obtain ⟨u, -, -, rfl⟩ := h
  exact Nat.two_pow_pos u

theorem dvd (h : LaneWidth w) {L : Nat} (hL : 7 ≤ L) : w ∣ 2 ^ L := by
  obtain ⟨u, -, hu, rfl⟩ := h
  exact Nat.pow_dvd_pow 2 (by omega)

theorem four_dvd (h : LaneWidth w) : 4 ∣ w := by
  obtain ⟨u, hu, -, rfl⟩ := h
  exact Nat.pow_dvd_pow 2 hu

theorem ew {es : Nat} (h : es ≤ 3) : LaneWidth (8 * 2 ^ es) := ⟨3 + es, by omega, by omega, by rw [Nat.pow_add]⟩

theorem fp (f : FpFmt) : LaneWidth f.width := by
  cases f
  · exact ⟨4, by decide, by decide, rfl⟩
  · exact ⟨4, by decide, by decide, rfl⟩
  · exact ⟨5, by decide, by decide, rfl⟩
  · exact ⟨6, by decide, by decide, rfl⟩
  · exact ⟨3, by decide, by decide, rfl⟩
  · exact ⟨3, by decide, by decide, rfl⟩
end LaneWidth

theorem laneWidth_ofCode (n : Nat) : LaneWidth ((Fmt.ofCode n).getD (.int 8 true)).width := by
  have hw : ∀ u, 2 ≤ u → u ≤ 6 → LaneWidth (2 ^ u) := fun u h h' => ⟨u, h, h', rfl⟩
  have h2 := hw 2 (by decide) (by decide)
  have h3 := hw 3 (by decide) (by decide)
  have h4 := hw 4 (by decide) (by decide)
  have h5 := hw 5 (by decide) (by decide)
  have h6 := hw 6 (by decide) (by decide)
  unfold Fmt.ofCode
  split <;> assumption

theorem laneWidth_fa (fw : Word) : LaneWidth (faOf fw).width := laneWidth_ofCode _
theorem laneWidth_fb (fw : Word) : LaneWidth (fbOf fw).width := laneWidth_ofCode _
theorem laneWidth_fd (fw : Word) : LaneWidth (fdOf fw).width := laneWidth_ofCode _

/-! Groups. -/

/-- What R79 and R152 say of a destination and a source of one instruction. -/
theorem groupsOk_source {apart : Bool} {gs : List Grp} {d a : Grp} (h : groupsOk apart gs = true) (hd : d ∈ gs) (ha : a ∈ gs)
    (hdst : d.dst = true) (hsrc : a.dst = false) :
    a.ok = true ∧ (d.meets a = false ∨ apart = false ∧ d.n = a.n ∧ d.c16 = a.c16) := by
  simp only [groupsOk, Bool.and_eq_true, List.all_eq_true] at h
  obtain ⟨hok, hmeet⟩ := h
  have hpair := hmeet d hd
  rw [hdst, Bool.not_true, Bool.false_or, List.all_eq_true] at hpair
  have hthis := hpair a ha
  simp only [hsrc, Bool.false_or, Bool.or_eq_true, Bool.not_eq_true', Bool.and_eq_true, beq_iff_eq] at hthis
  exact ⟨hok a ha, hthis.imp_right fun ⟨⟨h1, h2⟩, h3⟩ => ⟨h1, h2, h3⟩⟩

theorem groupsOk_mem {apart : Bool} {gs : List Grp} {d : Grp} (h : groupsOk apart gs = true) (hd : d ∈ gs) : d.ok = true := by
  simp only [groupsOk, Bool.and_eq_true, List.all_eq_true] at h
  exact h.1 d hd

/-- The bits of a group at width w. -/
theorem groupCount16_bits {es grp w : Nat} (hes : es ≤ 3) (hw : LaneWidth w) : groupCount16 es grp w * (8 * 2 ^ es) = 16 * (2 ^ grp * w) := by
  have hdvd : 8 * 2 ^ es ∣ 16 * (2 ^ grp * w) := by
    obtain ⟨u, hu, -, rfl⟩ := hw
    have hpow : 16 * (2 ^ grp * 2 ^ u) = 2 ^ (4 + grp + u) := by rw [Nat.pow_add, Nat.pow_add]; ring
    have hew : 8 * 2 ^ es = 2 ^ (3 + es) := by rw [Nat.pow_add]
    rw [hpow, hew]
    exact Nat.pow_dvd_pow 2 (by omega)
  exact Nat.div_mul_cancel hdvd

/-- The registers of VTYPE's own grouping (R35). -/
theorem groupCount16_es {es : Nat} (hes : es ≤ 3) (grp : Nat) : groupCount16 es grp (8 * 2 ^ es) = 16 * 2 ^ grp :=
  Nat.eq_of_mul_eq_mul_right (by positivity : 0 < 8 * 2 ^ es) (by rw [groupCount16_bits hes (.ew hes), Nat.mul_assoc])

theorem grpEs_eq {es : Nat} (hes : es ≤ 3) (grp : Nat) (r : VReg) (dst : Bool) : grpEs grp r dst = grpW es grp (8 * 2 ^ es) r dst := by
  rw [grpEs, grpW, groupCount16_es hes]

/-- The elements of a group lie within its registers. -/
theorem lane_in_group {L es grp w j : Nat} (hes : es ≤ 3) (hw : LaneWidth w) (hwhole : groupCount16 es grp w % 16 = 0)
    (hj : j < vlmax L es grp) : j * w + w ≤ groupCount16 es grp w / 16 * 2 ^ L := by
  have hbits := groupCount16_bits (grp := grp) hes hw
  have hcount : groupCount16 es grp w = groupCount16 es grp w / 16 * 16 := by omega
  generalize groupCount16 es grp w / 16 = n at *
  rw [hcount] at hbits
  have hn : n * (8 * 2 ^ es) = 2 ^ grp * w := by
    refine Nat.eq_of_mul_eq_mul_left (by decide : 0 < 16) ?_
    rw [← hbits]
    ring
  have hlt : j + 1 ≤ 2 ^ grp * 2 ^ L / (8 * 2 ^ es) := lt_of_lt_of_le hj (min_le_right _ _)
  have hle : (j + 1) * (8 * 2 ^ es) ≤ 2 ^ grp * 2 ^ L := (Nat.le_div_iff_mul_le (by positivity)).1 hlt
  refine Nat.le_of_mul_le_mul_right (c := 8 * 2 ^ es) ?_ (by positivity)
  calc (j * w + w) * (8 * 2 ^ es) = (j + 1) * (8 * 2 ^ es) * w := by ring
    _ ≤ 2 ^ grp * 2 ^ L * w := Nat.mul_le_mul_right w hle
    _ = n * (8 * 2 ^ es) * 2 ^ L := by rw [hn]; ring
    _ = _ := by ring

/-- A group of a width is a register group that dispatch lets in. -/
structure InGroup (e : VEntry) (w : Nat) (r : VReg) : Prop where
  width : LaneWidth w
  whole : groupCount16 e.es e.grp w % 16 = 0
  fits : r.val + groupCount16 e.es e.grp w / 16 ≤ 32

theorem InGroup.of_ok {e : VEntry} {w : Nat} {r : VReg} {dst : Bool} (hw : LaneWidth w) (h : (grpW e.es e.grp w r dst).ok = true) :
    InGroup e w r := by
  obtain ⟨hwhole, -, -, hfits⟩ := of_decide_eq_true h
  exact ⟨hw, hwhole, hfits⟩

namespace InGroup
variable {e : VEntry} {w : Nat} {r : VReg}

theorem lane_le (h : InGroup e w r) (hes : e.es ≤ 3) {j : Nat} (hj : j < vlmax e.lenLog e.es e.grp) :
    j * w + w ≤ (32 - r.val) * 2 ^ e.lenLog :=
  (lane_in_group hes h.width h.whole hj).trans (Nat.mul_le_mul_right _ (Nat.le_sub_of_add_le' h.fits))

theorem lane_lt (h : InGroup e w r) (hes : e.es ≤ 3) {j : Nat} (hj : j < vlmax e.lenLog e.es e.grp) :
    j * w < (32 - r.val) * 2 ^ e.lenLog := by
  have hle := h.lane_le hes hj
  have hpos := h.width.pos
  omega

/-- All elements below VL. -/
theorem vl_le (h : InGroup e w r) (hes : e.es ≤ 3) (hvl : e.vl ≤ vlmax e.lenLog e.es e.grp) :
    e.vl * w ≤ groupCount16 e.es e.grp w / 16 * 2 ^ e.lenLog := by
  rcases Nat.eq_zero_or_pos e.vl with h0 | hpos
  · rw [h0, Nat.zero_mul]
    exact Nat.zero_le _
  · have hlast := lane_in_group hes h.width h.whole (show e.vl - 1 < vlmax e.lenLog e.es e.grp by omega)
    rwa [← Nat.succ_mul, Nat.succ_eq_add_one, Nat.sub_add_cancel hpos] at hlast

theorem room (h : InGroup e w r) (hes : e.es ≤ 3) (hvl : e.vl ≤ vlmax e.lenLog e.es e.grp) : e.vl * w ≤ (32 - r.val) * 2 ^ e.lenLog :=
  (h.vl_le hes hvl).trans (Nat.mul_le_mul_right _ (Nat.le_sub_of_add_le' h.fits))
end InGroup

/-- A source as the elements before element i have left it: of the group itself where it is the destination, at its own elements. -/
theorem source_lane {e : VEntry} {d a : VReg} {w w' : Nat} {apart : Bool} {x c : Ctx} {i j : Nat} (hes : e.es ≤ 3) (hgd : InGroup e w d)
    (hga : InGroup e w' a) (hvl : e.vl ≤ vlmax e.lenLog e.es e.grp)
    (hmeet : (grpW e.es e.grp w d true).meets (grpW e.es e.grp w' a false) = false ∨
      apart = false ∧ d = a ∧ groupCount16 e.es e.grp w = groupCount16 e.es e.grp w')
    (hi : i < e.vl) (hj : j < vlmax e.lenLog e.es e.grp) (hle : apart = false → i ≤ j)
    (h : x.WrittenBelow c e.lenLog d.val (i * w)) : c.lane e w' a.val j = x.lane e w' a.val j := by
  have hin := lane_in_group hes hga.width hga.whole hj
  have hpos := hga.width.pos
  refine h.lane (lane_register (hga.lane_lt hes hj)) ?_
  rcases hmeet with hmeet | ⟨hap, rfl, hcount⟩
  · have hdiv : j * w' / 2 ^ e.lenLog < groupCount16 e.es e.grp w' / 16 :=
      (Nat.div_lt_iff_lt_mul (Nat.two_pow_pos _)).2 (by omega)
    have hdst : i * w ≤ groupCount16 e.es e.grp w / 16 * 2 ^ e.lenLog :=
      (Nat.mul_le_mul_right w hi.le).trans (hgd.vl_le hes hvl)
    have hmeet : ¬ (d.val < a.val + groupCount16 e.es e.grp w' / 16 ∧ a.val < d.val + groupCount16 e.es e.grp w / 16) :=
      of_decide_eq_false hmeet
    generalize j * w' / 2 ^ e.lenLog = q at *
    by_cases hlow : a.val + groupCount16 e.es e.grp w' / 16 ≤ d.val
    · exact .inl (by omega)
    · have hhigh : d.val + groupCount16 e.es e.grp w / 16 ≤ a.val := by omega
      have hbelow := Nat.mul_le_mul_right (2 ^ e.lenLog) (Nat.le_sub_of_add_le' hhigh)
      exact .inr ⟨by omega, by omega⟩
  · have hww : w = w' := by
      have h1 := groupCount16_bits (grp := e.grp) hes hgd.width
      rw [hcount, groupCount16_bits (grp := e.grp) hes hga.width] at h1
      exact (Nat.eq_of_mul_eq_mul_left (by positivity) (Nat.eq_of_mul_eq_mul_left (by decide) h1)).symm
    subst hww
    exact .inr ⟨le_refl _, (Nat.mul_le_mul_right w (hle hap)).trans (Nat.le_add_left _ _)⟩

end Sys2Proof.Machine
end

section
/-! PROOF. VECTOR_EXECUTE of the instructions that are performed element by element, from what they do to one element, for O38, O39 and
O41. -/

namespace Sys2Proof.Machine

/-! What dispatch lets in. -/

namespace VEntry.sound
variable {e : VEntry} (h : e.sound)
include h

theorem low_len : 7 ≤ e.lenLog := by
  obtain ⟨hlow, -⟩ := h
  exact hlow

theorem len : e.lenLog ≤ 14 := by
  obtain ⟨-, hlen, -⟩ := h
  exact hlen

theorem es : e.es ≤ 3 := by
  obtain ⟨-, -, hes, -⟩ := h
  exact hes

theorem vl : e.vl ≤ vlmax e.lenLog e.es e.grp := by
  obtain ⟨-, -, -, -, hvl, -⟩ := h
  exact hvl

theorem uncounted : e.cntL = false ∧ e.cntS = false := by
  obtain ⟨-, -, -, -, -, -, hcnt⟩ := h
  exact hcnt

theorem groups {apart : Bool} {gs : List Grp} (hgs : e.op.groups e.lenLog e.es e.grp e.fw = (apart, gs)) : groupsOk apart gs = true := by
  obtain ⟨-, -, -, -, -, hres, -⟩ := h
  simp only [VOp.reserved, hgs, Bool.or_eq_false_iff, Bool.not_eq_false'] at hres
  obtain ⟨⟨⟨hok, -⟩, -⟩, -⟩ := hres
  exact hok

/-- A group among those of the instruction. -/
theorem inGroup {apart dst : Bool} {gs : List Grp} {w : Nat} {r : VReg} (hgs : e.op.groups e.lenLog e.es e.grp e.fw = (apart, gs))
    (hw : LaneWidth w) (hr : grpW e.es e.grp w r dst ∈ gs) : InGroup e w r :=
  .of_ok hw (groupsOk_mem (h.groups hgs) hr)

/-- A source among them, read in the context in which element i is performed: where the groups need not lie apart, at element i or a
later one. -/
theorem source {apart : Bool} {gs : List Grp} {w w' : Nat} {d a : VReg} (hgs : e.op.groups e.lenLog e.es e.grp e.fw = (apart, gs))
    (hw : LaneWidth w) (hw' : LaneWidth w') (hd : grpW e.es e.grp w d true ∈ gs) (ha : grpW e.es e.grp w' a false ∈ gs) {x c : Ctx}
    {i j : Nat} (hi : i < e.vl) (hj : j < vlmax e.lenLog e.es e.grp) (hle : apart = false → i ≤ j)
    (hc : x.WrittenBelow c e.lenLog d.val (i * w)) : c.lane e w' a.val j = x.lane e w' a.val j := by
  obtain ⟨-, hmeet⟩ := groupsOk_source (h.groups hgs) hd ha rfl rfl
  refine source_lane h.es (h.inGroup hgs hw hd) (h.inGroup hgs hw' ha) h.vl (hmeet.imp_right fun ⟨hap, hn, hcount⟩ => ⟨hap, Fin.ext hn, hcount⟩)
    hi hj hle hc
end VEntry.sound

/-! Instructions performed element by element. -/

/-- The instructions that are performed element by element and access no memory. -/
def VOp.byLane : VOp → Bool
  | .plhead _ _ => false
  | .mem _ _ _ => false
  | op => !op.whole

theorem VOp.whole_of_byLane {op : VOp} (h : op.byLane = true) : op.whole = false := by
  cases op with
  | plhead | mem => cases h
  | _ => exact Bool.eq_false_of_not_eq_true' h

/-- What such an instruction does at element i. -/
def VEntry.perform (e : VEntry) (c : Ctx) (i : Nat) : Ctx := if e.performs c i then e.element c i else c

theorem arith_byLane {e : VEntry} (h : e.op.byLane = true) (c : Ctx) : e.arith c e.limit = sweep e.perform e.pos e.vl c e.vl := by
  have hlimit : e.limit = e.vl := by
    unfold VEntry.limit
    split
    case h_1 hop =>
      rw [hop] at h
      cases h
    case h_2 => rfl
  have hrun : e.arith c e.limit = e.runFrom (e.limit - e.pos) e.pos c := by
    unfold VEntry.arith
    split
    case h_1 hop =>
      rw [hop] at h
      cases h
    case h_2 => exact if_neg (by rw [VOp.whole_of_byLane h]; decide)
  rw [hrun, hlimit]
  exact sweep_of_rec (F := e.runFrom) (step := e.perform) (fun _ _ => rfl) (fun _ _ _ => rfl) _ _ _

section
variable {s : State} {k : CoreId} {e : VEntry} {rest : List VEntry} (hvq : (s.core k.val).vq = e :: rest) (hcore : coreOf e.ctx = k.val)
  (hsound : e.sound)
include hvq hcore hsound

theorem vectorDone_byLane (h : e.op.byLane = true) :
    ∃ t, exec (.vectorExecute k) s = .next t ∧ VectorDone s t k.val e rest (sweep e.perform e.pos e.vl (s.ctx e.ctx) e.vl) := by
  obtain ⟨hL, hS⟩ := hsound.uncounted
  rw [← arith_byLane h]
  refine vectorDone_arith hvq hcore ?_ hL hS
  rintro st md d hop
  rw [hop] at h
  cases h

end

namespace VEntry.runs
variable {e : VEntry} {x : Ctx} {i : Nat} (h : e.runs x i)
include h

theorem range : e.pos ≤ i ∧ i < e.vl := by
  obtain ⟨hpos, hvl, -⟩ := h
  exact ⟨hpos, hvl⟩

theorem lt : i < e.vl := h.range.2

theorem active : e.mask = 0 ∨ (x.m.get (maskReg e.mask)).getLsbD i = true := by
  obtain ⟨-, -, hact⟩ := h
  exact hact
end VEntry.runs

/-- An instruction that R150 governs, from what it does to an element that is performed. -/
theorem writes_of_element {e : VEntry} {d : VReg} {w : Nat} {g : Nat → Nat} {f : Ctx → Nat → Nat × FFlags} {x : Ctx}
    (hperf : ∀ c i, e.performs c i = c.active e.mask i)
    (helem : ∀ i c, e.runs x i → x.WrittenBelow c e.lenLog d.val (i * w) → e.element c i = e.put c d w (g i) (f c i)) :
    Writes e d w (e.runs x) g f e.perform e.pos e.vl x := by
  intro i c hlo hhi hc
  have hact : e.performs c i = true ↔ e.mask = 0 ∨ (x.m.get (maskReg e.mask)).getLsbD i = true := by
    rw [hperf, hc.active, active_iff]
  refine ⟨fun hrun => ?_, fun hskip => ?_⟩
  · rw [VEntry.perform, if_pos (hact.2 hrun.active), helem i c hrun hc]
  · rw [VEntry.perform, if_neg fun h => hskip ⟨hlo, hhi, hact.1 h⟩]

/-- A register outside a group of VTYPE's own grouping, elements of which are written. -/
theorem VEntry.sound.outside {e : VEntry} (h : e.sound) {d r : VReg} (hgroup : InGroup e (8 * 2 ^ e.es) d) {x c : Ctx}
    (hc : x.WrittenBelow c e.lenLog d.val (e.vl * (8 * 2 ^ e.es))) (hr : r.val < d.val ∨ d.val + 2 ^ e.grp ≤ r.val) :
    c.v.get r = x.v.get r := by
  have hbits := hgroup.vl_le h.es h.vl
  rw [groupCount16_es h.es, Nat.mul_div_cancel_left _ (by decide)] at hbits
  exact hc.register (hr.imp_right fun h => hbits.trans (Nat.mul_le_mul_right _ (Nat.le_sub_of_add_le' h)))

/-- What an instruction leaves that writes elements of VTYPE's width in a group of VTYPE's own grouping. -/
theorem elements_of_writes {e : VEntry} {d : VReg} {done : Nat → Prop} {f : Nat → Nat × FFlags} {x : Ctx} (hsound : e.sound)
    (hgroup : InGroup e (8 * 2 ^ e.es) d) (hrange : ∀ i, done i → e.pos ≤ i ∧ i < e.vl)
    (hwrites : Writes e d (8 * 2 ^ e.es) done id (fun _ => f) e.perform e.pos e.vl x) :
    let w := 8 * 2 ^ e.es
    let y := sweep e.perform e.pos e.vl x e.vl
    y = { x with v := y.v, fstat := y.fstat } ∧
    (∀ i < vlmax e.lenLog e.es e.grp, (done i → y.lane e w d.val i = BitVec.ofNat w (f i).1) ∧
      (¬ done i → y.lane e w d.val i = x.lane e w d.val i)) ∧
    (∀ r : VReg, r.val < d.val ∨ d.val + 2 ^ e.grp ≤ r.val → y.v.get r = x.v.get r) ∧
    (∀ (r : VReg) (j : Nat), 2 ^ e.lenLog ≤ j → (y.v.get r).getLsbD j = (x.v.get r).getLsbD j) ∧
    ∀ j, y.fstat.getLsbD j = true ↔ x.fstat.getLsbD j = true ∨ ∃ i, done i ∧ (f i).2.getLsbD j = true := by
  intro w y
  have hdvd := hgroup.width.dvd hsound.low_len
  have hroom := hgroup.room hsound.es hsound.vl
  have hbelow := hwrites.writtenBelow hsound.len hdvd hroom (fun i => le_refl i) hgroup.width.pos e.vl
  obtain ⟨hwritten, hkept⟩ := hwrites.lanes hsound.len hdvd hroom (fun i => le_refl i) hgroup.width.pos (fun i j _ _ h => Nat.ne_of_lt h) e.vl
  have hflags := hwrites.flags hsound.len hdvd hroom (fun i => le_refl i) hgroup.width.pos e.vl
  refine ⟨hbelow.1, fun i hi => ⟨fun hd => hwritten i (hrange i hd).2 (hrange i hd) hd,
    fun hd => hkept i (hgroup.lane_lt hsound.es hi) fun j _ _ hj heq => hd (heq ▸ hj)⟩, fun r hr => hsound.outside hgroup (min_self e.vl ▸ hbelow) hr,
    fun r j hj => hbelow.bit r hj, fun j => ?_⟩
  rw [hflags j]
  exact or_congr_right (exists_congr fun i => ⟨fun ⟨_, _, hd, hbit⟩ => ⟨hd, hbit⟩, fun ⟨hd, hbit⟩ => ⟨(hrange i hd).2, hrange i hd, hd, hbit⟩⟩)

/-- An instruction whose `step` writes the elements of a group in order. -/
theorem laneWise_of_writes {s t : State} {k : CoreId} {e : VEntry} {rest : List VEntry} {d : VReg} {w : Nat} {done : Nat → Prop}
    {f : Ctx → Nat → Nat × FFlags} {step : Ctx → Nat → Ctx} {lo hi : Nat} (hexec : exec (.vectorExecute k) s = .next t)
    (hdone : VectorDone s t k.val e rest (sweep step lo hi (s.ctx e.ctx) hi)) (hsound : e.sound) (hw : LaneWidth w)
    (hroom : hi * w ≤ (32 - d.val) * 2 ^ e.lenLog) (hrange : ∀ i, done i → lo ≤ i ∧ i < hi)
    (hwrites : Writes e d w done id f step lo hi (s.ctx e.ctx)) : LaneWise s k e rest d w done f := by
  unfold LaneWise
  intro x
  have hdvd := hw.dvd hsound.low_len
  have hbelow := hwrites.writtenBelow hsound.len hdvd hroom (fun i => le_refl i) hw.pos
  have hlanes := hwrites.lanes hsound.len hdvd hroom (fun i => le_refl i) hw.pos (fun i j _ _ h => Nat.ne_of_lt h)
  have hflags := hwrites.flags hsound.len hdvd hroom (fun i => le_refl i) hw.pos
  have hlane : ∀ m j, j * w < (32 - d.val) * 2 ^ e.lenLog → ((done j ∧ j < m) →
        (sweep step lo hi x m).lane e w d.val j = BitVec.ofNat w (f (sweep step lo hi x j) j).1) ∧
      (¬ (done j ∧ j < m) → (sweep step lo hi x m).lane e w d.val j = x.lane e w d.val j) := fun m j hj =>
    ⟨fun ⟨hd, hlt⟩ => (hlanes m).1 j hlt (hrange j hd) hd,
      fun hnot => (hlanes m).2 j hj fun i hlt _ hd heq => hnot (by subst heq; exact ⟨hd, hlt⟩)⟩
  have hall : ∀ j, done j ↔ done j ∧ j < hi := fun j => ⟨fun hd => ⟨hd, (hrange j hd).2⟩, And.left⟩
  refine ⟨t, _, sweep step lo hi x, hexec, hdone, (hbelow hi).1, fun i hi' => ?_, fun i j hj => ?_, fun r hr => ?_,
    fun r j hj => (hbelow hi).bit r hj, fun j _ => ?_⟩
  · rw [hall i]
    exact hlane hi i hi'
  · by_cases hd : done j
    · have hlt := (hrange j hd).2
      by_cases hij : j < i
      · rw [if_pos hij, (hlane i j hj).1 ⟨hd, hij⟩, (hlane hi j hj).1 ⟨hd, hlt⟩]
      · rw [if_neg hij, (hlane i j hj).2 fun h => hij h.2]
    · have hkept : ∀ m, (sweep step lo hi x m).lane e w d.val j = x.lane e w d.val j := fun m => (hlane m j hj).2 fun h => hd h.1
      rw [hkept, hkept, ite_self]
  · exact ⟨(hbelow hi).register (.inl hr), fun i => (hbelow i).register (.inl hr)⟩
  · rw [hflags hi j]
    refine or_congr_right (exists_congr fun i => ?_)
    exact ⟨fun ⟨_, _, hd, hbit⟩ => ⟨hd, hbit⟩, fun ⟨hd, hbit⟩ => ⟨(hrange i hd).2, hrange i hd, hd, hbit⟩⟩

section
variable {s : State} {k : CoreId} {e : VEntry} {rest : List VEntry} (hvq : (s.core k.val).vq = e :: rest) (hcore : coreOf e.ctx = k.val)
  (hsound : e.sound)
include hvq hcore hsound

/-- An instruction governed by R150, with one element of its destination for each that it performs. -/
theorem laneWise_of_element {op : VOp} {apart : Bool} {gs : List Grp} {d : VReg} {w : Nat} {f : Ctx → Nat → Nat × FFlags}
    (hop : e.op = op) (hlane : op.byLane = true) (hperf : ∀ c i, e.performs c i = c.active e.mask i)
    (hgs : op.groups e.lenLog e.es e.grp e.fw = (apart, gs)) (hw : LaneWidth w) (hd : grpW e.es e.grp w d true ∈ gs)
    (helem : ∀ i c, e.runs (s.ctx e.ctx) i → (s.ctx e.ctx).WrittenBelow c e.lenLog d.val (i * w) →
      e.element c i = e.put c d w i (f c i)) : LaneWise s k e rest d w (e.runs (s.ctx e.ctx)) f := by
  subst hop
  obtain ⟨t, hexec, hdone⟩ := vectorDone_byLane hvq hcore hsound hlane
  exact laneWise_of_writes hexec hdone hsound hw ((hsound.inGroup hgs hw hd).room hsound.es hsound.vl)
    (fun _ => VEntry.runs.range) (writes_of_element hperf helem)

end

end Sys2Proof.Machine
end

section
/-! PROOF. Integer values of elements (R155, R156, R165, R185, R211), for O38. -/

namespace Sys2Proof.Machine

/-! Results of R155. -/

/-- The ends of an integer range (R23). -/
theorem intMin_le_zero (w : Nat) (signed : Bool) : intMin w signed ≤ 0 ∧ 0 ≤ intMax w signed := by
  have hhalf : (0 : Int) < 2 ^ (w - 1) := by positivity
  have hfull : (0 : Int) < 2 ^ w := by positivity
  cases signed
  · exact ⟨le_refl _, Int.le_sub_one_of_lt hfull⟩
  · exact ⟨by simp only [intMin, if_true]; omega, Int.le_sub_one_of_lt hhalf⟩

theorem ofNat_toNat_same {w : Nat} (x : BitVec w) : BitVec.ofNat w x.toNat = x := by simp

theorem ofNat_mod (w n : Nat) : BitVec.ofNat w (n % 2 ^ w) = BitVec.ofNat w n := BitVec.eq_of_toNat_eq (by simp)

theorem ofNat_wrapBits (w : Nat) (z : Int) : BitVec.ofNat w (wrapBits w z) = BitVec.ofInt w z := by
  rw [wrapBits_eq, ofNat_toNat_same]

/-- An integer clamped or wrapped, in the model's terms and in those of the claims (R23). -/
theorem intToInt_eq (w : Nat) (signed sat : Bool) (f : FFlags) (z : Int) : intToInt w signed sat f z = fitInt w signed sat f z := by
  obtain ⟨hlo, hhi⟩ := intMin_le_zero w signed
  change _ = if intMin w signed ≤ z ∧ z ≤ intMax w signed then ((BitVec.ofInt w z).toNat, (0 : FFlags))
    else if sat then ((BitVec.ofInt w (if z < intMin w signed then intMin w signed else intMax w signed)).toNat, flagSAT)
    else ((BitVec.ofInt w z).toNat, f)
  unfold intToInt
  simp only [wrapBits_eq]
  by_cases hin : intMin w signed ≤ z ∧ z ≤ intMax w signed
  · rw [if_pos hin, if_pos hin]
  · have hneg : z < 0 ↔ z < intMin w signed := by omega
    rw [if_neg hin, if_neg hin]
    simp only [hneg]

/-- A result clamped to the ends of its range. -/
theorem intToInt_clamps (w : Nat) (signed : Bool) (z : Int) :
    BitVec.ofNat w (intToInt w signed true 0 z).1 = BitVec.ofInt w (max (intMin w signed) (min (intMax w signed) z)) ∧
      (intToInt w signed true 0 z).2 = if z < intMin w signed ∨ intMax w signed < z then flagSAT else 0 := by
  obtain ⟨hlo, hhi⟩ := intMin_le_zero w signed
  unfold intToInt
  by_cases hin : intMin w signed ≤ z ∧ z ≤ intMax w signed
  · rw [if_pos hin, if_neg (by omega), wrapBits_eq, min_eq_right hin.2, max_eq_right hin.1]
    exact ⟨ofNat_toNat_same _, rfl⟩
  · have hout : z < intMin w signed ∨ intMax w signed < z := by omega
    simp only [wrapBits_eq, if_neg hin, if_pos hout, if_true]
    refine ⟨(ofNat_toNat_same _).trans (congrArg _ ?_), trivial⟩
    split
    · rw [min_eq_right (by omega), max_eq_left (by omega)]
    · rw [min_eq_left (by omega), max_eq_right (by omega)]

/-- f(x, y) of R155. -/
theorem VBin.eval_fn (o : VBin) {w : Nat} (x y : BitVec w) (hw : 0 < w) : BitVec.ofNat w (o.eval w x.toNat y.toNat).1 = o.fn x y := by
  have hx := intOf_toNat x hw
  have hy := intOf_toNat y hw
  cases o with
  | add => exact (ofNat_mod _ _).trans (by rw [BitVec.ofNat_add, ofNat_toNat_same, ofNat_toNat_same]; rfl)
  | mul => exact (ofNat_mod _ _).trans (by rw [BitVec.ofNat_mul, ofNat_toNat_same, ofNat_toNat_same]; rfl)
  | mulhu => exact ofNat_mod _ _
  | sub =>
    refine (ofNat_wrapBits _ _).trans ?_
    rw [Int.sub_eq_add_neg, BitVec.ofInt_add, BitVec.ofInt_neg, BitVec.ofInt_natCast, BitVec.ofInt_natCast, ofNat_toNat_same,
      ofNat_toNat_same]
    exact (BitVec.sub_eq_add_neg x y).symm
  | mulh | avg =>
    simp only [VBin.eval, VBin.fn, hx, hy]
    exact ofNat_wrapBits _ _
  | absd =>
    simp only [VBin.eval, VBin.fn, hx, hy]
    exact ofNat_mod _ _
  | min | max | minu | maxu =>
    simp only [VBin.eval, VBin.fn, hx, hy]
    split <;> exact ofNat_toNat_same _
  | and | or | xor => simp [VBin.eval, VBin.fn]
  | shl =>
    refine (ofNat_mod _ _).trans (BitVec.eq_of_toNat_eq ?_)
    simp [VBin.fn, Nat.shiftLeft_eq]
  | shr =>
    refine BitVec.eq_of_toNat_eq ?_
    simp only [VBin.eval, VBin.fn, BitVec.toNat_ofNat, BitVec.toNat_ushiftRight, Nat.shiftRight_eq_div_pow]
    exact Nat.mod_eq_of_lt ((Nat.div_le_self _ _).trans_lt x.isLt)
  | sra =>
    simp only [VBin.eval, VBin.fn, hx]
    refine (ofNat_wrapBits _ _).trans ?_
    rw [BitVec.sshiftRight, Int.shiftRight_eq_div_pow]
    norm_cast
  | adds | subs =>
    simp only [VBin.eval, VBin.fn, hx, hy]
    exact (intToInt_clamps w true _).1
  | addsu =>
    refine (intToInt_clamps w false _).1.trans ?_
    have hpow : ((2 ^ w : Nat) : Int) = 2 ^ w := by norm_cast
    have hpos := Nat.two_pow_pos w
    rw [VBin.fn, ← BitVec.ofInt_natCast]
    simp only [intMin, intMax, Bool.false_eq_true, if_false, ← hpow]
    congr 1
    omega
  | subsu =>
    refine (intToInt_clamps w false _).1.trans ?_
    have hpow : ((2 ^ w : Nat) : Int) = 2 ^ w := by norm_cast
    have hlt := x.isLt
    rw [VBin.fn, ← BitVec.ofInt_natCast]
    simp only [intMin, intMax, Bool.false_eq_true, if_false, ← hpow]
    congr 1
    omega

/-- The flag of R155: SAT where the result was clamped. -/
theorem VBin.eval_flag (o : VBin) {w : Nat} (x y : BitVec w) (hw : 0 < w) :
    (o.clamps x y → (o.eval w x.toNat y.toNat).2 = flagSAT) ∧ (¬ o.clamps x y → (o.eval w x.toNat y.toNat).2 = 0) := by
  have hx := intOf_toNat x hw
  have hy := intOf_toNat y hw
  have hclamp : ∀ (signed : Bool) (z : Int) (p : Prop), (z < intMin w signed ∨ intMax w signed < z ↔ p) →
      (p → (intToInt w signed true 0 z).2 = flagSAT) ∧ (¬ p → (intToInt w signed true 0 z).2 = 0) := fun signed z p h => by
    rw [(intToInt_clamps w signed z).2]
    exact ⟨fun hp => if_pos (h.2 hp), fun hp => if_neg fun hz => hp (h.1 hz)⟩
  cases o with
  | adds | subs =>
    simp only [VBin.eval, VBin.clamps, hx, hy]
    exact hclamp true _ _ (by simp only [intMin, intMax, if_true]; omega)
  | addsu =>
    have hpow : ((2 ^ w : Nat) : Int) = 2 ^ w := by norm_cast
    refine hclamp false _ _ ?_
    simp only [VBin.clamps, intMin, intMax, Bool.false_eq_true, if_false, ← hpow]
    omega
  | subsu =>
    have hpow : ((2 ^ w : Nat) : Int) = 2 ^ w := by norm_cast
    have hlt := x.isLt
    refine hclamp false _ _ ?_
    simp only [VBin.clamps, intMin, intMax, Bool.false_eq_true, if_false, ← hpow]
    omega
  | _ => exact ⟨False.elim, fun _ => rfl⟩

end Sys2Proof.Machine
end

section
/-! PROOF. O38: the element-wise integer instructions, VNARROW, VIMA, VRAND and VUNPK. -/

namespace Sys2Proof.Machine

/-! Operands. -/

theorem LaneWidth.of_fa {fw : Word} {f : Fmt} (h : faOf fw = f) : LaneWidth f.width := h ▸ laneWidth_fa fw
theorem LaneWidth.of_fb {fw : Word} {f : Fmt} (h : fbOf fw = f) : LaneWidth f.width := h ▸ laneWidth_fb fw
theorem LaneWidth.of_fd {fw : Word} {f : Fmt} (h : fdOf fw = f) : LaneWidth f.width := h ▸ laneWidth_fd fw

/-- The second operand at index i, as bits (R155, R178). -/
def VEntry.operand (e : VEntry) (c : Ctx) (w : Nat) (b : VSrc) (i : Nat) : BitVec w :=
  match b with
  | .vec r => c.lane e w r.val i
  | .scal => e.y.setWidth w

theorem elem_eq_lane (c : Ctx) (e : VEntry) (w n i : Nat) : c.elem e.lenLog n w i = (c.lane e w n i).toNat := rfl

theorem second_eq_operand (e : VEntry) (c : Ctx) (w i : Nat) (b : VSrc) : e.second c w i b = (e.operand c w b i).toNat := by
  cases b with
  | vec r => rfl
  | scal => exact (BitVec.toNat_setWidth w e.y).symm

/-- The second operand in the context in which element i is performed. -/
theorem VEntry.sound.operand {e : VEntry} (h : e.sound) {apart : Bool} {gs : List Grp} {w w' : Nat} {d : VReg} {b : VSrc}
    (hgs : e.op.groups e.lenLog e.es e.grp e.fw = (apart, gs)) (hw : LaneWidth w) (hw' : LaneWidth w')
    (hd : grpW e.es e.grp w d true ∈ gs) (hb : ∀ r, b = .vec r → grpW e.es e.grp w' r false ∈ gs) {x c : Ctx} {i : Nat} (hi : i < e.vl)
    (hc : x.WrittenBelow c e.lenLog d.val (i * w)) : e.operand c w' b i = e.operand x w' b i := by
  cases b with
  | vec r => exact h.source hgs hw hw' hd (hb r rfl) hi (hi.trans_le h.vl) (fun _ => le_refl i) hc
  | scal => rfl

/-- In context c element i of every source is as in x. -/
def LanesKept (e : VEntry) (gs : List Grp) (x c : Ctx) (i : Nat) : Prop :=
  ∀ {w : Nat} {r : VReg}, LaneWidth w → grpW e.es e.grp w r false ∈ gs → c.lane e w r.val i = x.lane e w r.val i

theorem LanesKept.operand {e : VEntry} {gs : List Grp} {x c : Ctx} {i : Nat} (h : LanesKept e gs x c i) {w : Nat} {b : VSrc}
    (hw : LaneWidth w) (hb : ∀ r, b = .vec r → grpW e.es e.grp w r false ∈ gs) : e.operand c w b i = e.operand x w b i := by
  cases b with
  | vec r => exact h hw (hb r rfl)
  | scal => rfl

theorem mem_grpSrc {mk : VReg → Grp} {b : VSrc} {l : List Grp} (r : VReg) (h : b = .vec r) : mk r ∈ l ++ grpSrc mk b := by
  subst h
  exact List.mem_append_right _ (List.mem_singleton.2 rfl)

/-! Samples packed bit by bit (R211). -/

theorem pix_le {fw : Word} {p : Nat} (h : faOf fw = .pix p) : p ≤ 16 := by
  unfold faOf Fmt.ofCode at h
  split at h <;> simp_all <;> omega

/-- A number from its bits. -/
theorem foldl_bits (b : Nat → Bool) (n : Nat) :
    (List.range n).foldl (fun x j => x + if b j then 2 ^ j else 0) 0 < 2 ^ n ∧
      ∀ j < n, ((List.range n).foldl (fun x j => x + if b j then 2 ^ j else 0) 0).testBit j = b j := by
  induction n with
  | zero => exact ⟨Nat.one_pos, fun j hj => absurd hj (Nat.not_lt_zero j)⟩
  | succ n ih =>
    obtain ⟨hlt, hbits⟩ := ih
    rw [List.range_succ, List.foldl_append, List.foldl_cons, List.foldl_nil, Nat.pow_succ]
    generalize (List.range n).foldl (fun x j => x + if b j then 2 ^ j else 0) 0 = x at *
    refine ⟨by split <;> omega, fun j hj => ?_⟩
    rcases Nat.lt_succ_iff_lt_or_eq.1 hj with hj | rfl
    · rw [← hbits j hj]
      split
      · rw [Nat.add_comm, Nat.testBit_two_pow_add_gt hj]
      · rfl
    · cases hb : b j
      · simp [Nat.testBit_lt_two_pow hlt]
      · simp [Nat.add_comm x, Nat.testBit_two_pow_add_eq, Nat.testBit_lt_two_pow hlt]

/-- A sample of a group that lies apart from the destination, in the context in which element i is performed. -/
theorem VEntry.sound.packed {e : VEntry} (h : e.sound) {gs : List Grp} {w p : Nat} {d a : VReg}
    (hgs : e.op.groups e.lenLog e.es e.grp e.fw = (true, gs)) (hw : LaneWidth w) (hd : grpW e.es e.grp w d true ∈ gs)
    (ha : grpW e.es e.grp w a false ∈ gs) (hp : p ≤ w) {x c : Ctx} {i : Nat} (hi : i < e.vl)
    (hc : x.WrittenBelow c e.lenLog d.val (i * w)) : e.packed c a p i = e.packed x a p i := by
  obtain ⟨-, hmeet⟩ := groupsOk_source (h.groups hgs) hd ha rfl rfl
  have hapart : (grpW e.es e.grp w d true).meets (grpW e.es e.grp w a false) = false := hmeet.resolve_right fun h => nomatch h.1
  have hvl := (h.inGroup hgs hw ha).vl_le h.es h.vl
  have hfits := (h.inGroup hgs hw ha).fits
  have hle : i * w + w ≤ e.vl * w := (Nat.succ_mul i w).symm.le.trans (Nat.mul_le_mul_right w hi)
  have houtside := of_decide_eq_false hapart
  simp only [grpW] at houtside
  refine List.foldl_ext _ _ _ fun z j hj => ?_
  have hlt : p * i + j < groupCount16 e.es e.grp w / 16 * 2 ^ e.lenLog := by
    have hj := List.mem_range.1 hj
    have hpi := Nat.mul_le_mul_right i hp
    rw [Nat.mul_comm w] at hpi
    omega
  have hreg : (p * i + j) / 2 ^ e.lenLog < groupCount16 e.es e.grp w / 16 := (Nat.div_lt_iff_lt_mul (Nat.two_pow_pos _)).2 hlt
  have hidx : (Fin.ofNat 32 (a.val + (p * i + j) / 2 ^ e.lenLog)).val = a.val + (p * i + j) / 2 ^ e.lenLog := Nat.mod_eq_of_lt (by omega)
  have hsame := hc.register (r := Fin.ofNat 32 (a.val + (p * i + j) / 2 ^ e.lenLog)) (by
    rw [hidx]
    generalize (p * i + j) / 2 ^ e.lenLog = q at *
    by_cases hlow : a.val + q < d.val
    · exact .inl hlow
    · exact .inr ((by omega : i * w ≤ groupCount16 e.es e.grp w / 16 * 2 ^ e.lenLog).trans (Nat.mul_le_mul_right _ (by omega))))
  simp only [hsame]

/-! Flags. -/

section
variable {x y : FFlags} {done : Nat → Prop} {g : Nat → FFlags}
  (h : ∀ j, y.getLsbD j = true ↔ x.getLsbD j = true ∨ ∃ i, done i ∧ (g i).getLsbD j = true)
include h

/-- One flag is raised by some element. -/
theorem fstat_eq_or {flag : FFlags} (hsome : ∃ i, done i ∧ g i = flag) (hall : ∀ i, done i → g i = flag ∨ g i = 0) : y = x ||| flag := by
  refine BitVec.eq_of_getLsbD_eq fun j _ => Bool.eq_iff_iff.2 ?_
  rw [h j, BitVec.getLsbD_or, Bool.or_eq_true]
  refine or_congr_right ⟨?_, fun hbit => ?_⟩
  · rintro ⟨i, hi, hbit⟩
    rcases hall i hi with hflag | hzero
    · rwa [hflag] at hbit
    · simp [hzero] at hbit
  · obtain ⟨i, hi, hflag⟩ := hsome
    exact ⟨i, hi, hflag ▸ hbit⟩

/-- No element raises a flag. -/
theorem fstat_eq_self (hall : ∀ i, done i → g i = 0) : y = x := by
  refine BitVec.eq_of_getLsbD_eq fun j _ => Bool.eq_iff_iff.2 ?_
  rw [h j, or_iff_left]
  rintro ⟨i, hi, hbit⟩
  simp [hall i hi] at hbit
end

section
variable {s : State} {k : CoreId} {e : VEntry} {rest : List VEntry} (hvq : (s.core k.val).vq = e :: rest) (hcore : coreOf e.ctx = k.val)
  (hsound : e.sound)
include hvq hcore hsound

/-- An instruction governed by R150 whose sources are read at the element written. -/
theorem laneWise_of_lanes {gs : List Grp} {d : VReg} {w : Nat} {f : Ctx → Nat → Nat × FFlags} (hlane : e.op.byLane = true)
    (hperf : ∀ c i, e.performs c i = c.active e.mask i) (hgs : e.op.groups e.lenLog e.es e.grp e.fw = (false, gs)) (hw : LaneWidth w)
    (hd : grpW e.es e.grp w d true ∈ gs)
    (helem : ∀ i c, LanesKept e gs (s.ctx e.ctx) c i → e.element c i = e.put c d w i (f c i)) :
    LaneWise s k e rest d w (e.runs (s.ctx e.ctx)) f :=
  laneWise_of_element hvq hcore hsound rfl hlane hperf hgs hw hd fun i c hrun hc => helem i c fun hw' hr =>
    hsound.source hgs hw hw' hd hr hrun.lt (hrun.lt.trans_le hsound.vl) (fun _ => le_refl i) hc

/-- The integer operations (R155). -/
theorem int_elements {o : VBin} {d a : VReg} {b : VSrc} (hop : e.op = .int o d a b) :
    let w := 8 * 2 ^ e.es
    let x := s.ctx e.ctx
    ∃ t y, exec (.vectorExecute k) s = .next t ∧ VectorDone s t k.val e rest y ∧ y = { x with v := y.v, fstat := y.fstat } ∧
      (∀ i < vlmax e.lenLog e.es e.grp,
        (e.runs x i → y.lane e w d.val i = o.fn (x.lane e w a.val i) (e.operand x w b i)) ∧
        (¬ e.runs x i → y.lane e w d.val i = x.lane e w d.val i)) ∧
      (∀ r : VReg, r.val < d.val ∨ d.val + 2 ^ e.grp ≤ r.val → y.v.get r = x.v.get r) ∧
      (∀ (r : VReg) (j : Nat), 2 ^ e.lenLog ≤ j → (y.v.get r).getLsbD j = (x.v.get r).getLsbD j) ∧
      ((∃ i, e.runs x i ∧ o.clamps (x.lane e w a.val i) (e.operand x w b i)) → y.fstat = x.fstat ||| flagSAT) ∧
      ((∀ i, e.runs x i → ¬ o.clamps (x.lane e w a.val i) (e.operand x w b i)) → y.fstat = x.fstat) := by
  intro w x
  have hpos : 0 < w := by positivity
  have hw : LaneWidth w := .ew hsound.es
  have hgs : e.op.groups e.lenLog e.es e.grp e.fw = (false, [grpW e.es e.grp w d true, grpW e.es e.grp w a false] ++
      grpSrc (fun r => grpW e.es e.grp w r false) b) := by
    rw [hop, ← grpEs_eq hsound.es, ← grpEs_eq hsound.es]
    simp only [← grpEs_eq hsound.es, w]
    rfl
  have helem : ∀ i c, e.runs x i → x.WrittenBelow c e.lenLog d.val (i * w) →
      e.element c i = e.put c d w i (o.eval w (x.lane e w a.val i).toNat (e.operand x w b i).toNat) := fun i c hrun hc => by
    rw [← hsound.source hgs hw hw (by simp) (by simp) hrun.lt (hrun.lt.trans_le hsound.vl) (fun _ => le_refl i) hc,
      ← hsound.operand hgs hw hw (by simp) mem_grpSrc hrun.lt hc, ← second_eq_operand]
    simp only [VEntry.element, hop]
    rfl
  have hperf : ∀ c i, e.performs c i = c.active e.mask i := fun c i => by rw [VEntry.performs, hop]
  obtain ⟨t, hexec, hdone⟩ := vectorDone_byLane hvq hcore hsound (by rw [hop]; rfl)
  obtain ⟨hframe, hlanes, hregs, hbits, hflags⟩ := elements_of_writes hsound (hsound.inGroup (w := w) (dst := true) hgs hw (by simp))
    (fun _ => VEntry.runs.range) (writes_of_element hperf helem)
  have hflag := fun i => VBin.eval_flag o (x.lane e w a.val i) (e.operand x w b i) hpos
  refine ⟨t, _, hexec, hdone, hframe, fun i hi => ⟨fun hrun => ?_, (hlanes i hi).2⟩, hregs, hbits, fun ⟨i, hrun, hclamps⟩ => ?_,
    fun hnone => fstat_eq_self hflags fun i hrun => (hflag i).2 (hnone i hrun)⟩
  · rw [(hlanes i hi).1 hrun, VBin.eval_fn _ _ _ hpos]
  · exact fstat_eq_or hflags ⟨i, hrun, (hflag i).1 hclamps⟩ fun j _ => (em _).imp (hflag j).1 (hflag j).2

variable {d a b c : VReg}

/-- VNARROW (R156). -/
theorem narrow_lanes {wa wd : Nat} {sa sd : Bool} (hop : e.op = .narrow d a) (hfa : faOf e.fw = .int wa sa) (hfd : fdOf e.fw = .int wd sd) :
    LaneWise s k e rest d wd (e.runs (s.ctx e.ctx))
      (fun _ i => fitInt wd sd (fwSat e.fw) 0x01 (intIn sa ((s.ctx e.ctx).lane e wa a.val i))) := by
  have hwa : LaneWidth wa := .of_fa hfa
  have hgs : e.op.groups e.lenLog e.es e.grp e.fw = (false, [grpW e.es e.grp wd d true, grpW e.es e.grp wa a false]) := by
    simp only [hop, VOp.groups, hfa, hfd, Fmt.width]
  refine laneWise_of_lanes hvq hcore hsound (by rw [hop]; rfl) (fun c i => by rw [VEntry.performs, hop]) hgs (.of_fd hfd) (by simp)
    fun i c hkept => ?_
  rw [← hkept hwa (by simp), ← intToInt_eq, ← intOf_toNat_eq_intIn sa _ hwa.pos]
  simp only [VEntry.element, hop, hfa, hfd]
  rfl

/-- VIMA (R185). -/
theorem ima_lanes {wa wb wd : Nat} {sa sb sd : Bool} (hop : e.op = .ima d a b c) (hfa : faOf e.fw = .int wa sa)
    (hfb : fbOf e.fw = .int wb sb) (hfd : fdOf e.fw = .int wd sd) :
    LaneWise s k e rest d wd (e.runs (s.ctx e.ctx)) (fun _ i => fitInt wd sd (fwSat e.fw) 0
      (intIn sa ((s.ctx e.ctx).lane e wa a.val i) * intIn sb ((s.ctx e.ctx).lane e wb b.val i) +
        intIn sd ((s.ctx e.ctx).lane e wd c.val i))) := by
  have hwa : LaneWidth wa := .of_fa hfa
  have hwb : LaneWidth wb := .of_fb hfb
  have hwd : LaneWidth wd := .of_fd hfd
  have hgs : e.op.groups e.lenLog e.es e.grp e.fw = (false, [grpW e.es e.grp wd d true, grpW e.es e.grp wa a false,
      grpW e.es e.grp wb b false, grpW e.es e.grp wd c false]) := by simp only [hop, VOp.groups, hfa, hfb, hfd, Fmt.width]
  refine laneWise_of_lanes hvq hcore hsound (by rw [hop]; rfl) (fun c i => by rw [VEntry.performs, hop]) hgs hwd (by simp) fun i x hkept => ?_
  rw [← hkept hwa (by simp), ← hkept hwb (by simp), ← hkept hwd (by simp), ← intToInt_eq, ← intOf_toNat_eq_intIn sa _ hwa.pos,
    ← intOf_toNat_eq_intIn sb _ hwb.pos, ← intOf_toNat_eq_intIn sd _ hwd.pos]
  simp only [VEntry.element, hop, hfa, hfb, hfd]
  rfl

/-- VRAND (R165). -/
theorem rnd_lanes (hop : e.op = .rnd d) : LaneWise s k e rest d (8 * 2 ^ e.es) (e.runs (s.ctx e.ctx))
    (fun _ i => (((rand e.seed (fwSalt e.fw) e.stripbase i).setWidth (8 * 2 ^ e.es)).toNat, 0)) := by
  have hgs : (VOp.rnd d).groups e.lenLog e.es e.grp e.fw = (false, [grpW e.es e.grp (8 * 2 ^ e.es) d true]) := by
    rw [← grpEs_eq hsound.es]
    rfl
  refine laneWise_of_element hvq hcore hsound hop rfl (fun c i => by rw [VEntry.performs, hop]) hgs (.ew hsound.es)
    (List.mem_singleton.2 rfl) fun i c _ _ => ?_
  simp only [VEntry.element, hop, BitVec.toNat_setWidth]
  rfl

/-- VUNPK (R211). -/
theorem unpk_lanes {p : Nat} (hop : e.op = .unpk d a) (hfa : faOf e.fw = .pix p) : LaneWise s k e rest d 16 (e.runs (s.ctx e.ctx))
    (fun _ i => (e.packed (s.ctx e.ctx) a p i, 0)) := by
  have hes : e.es = 1 := by
    obtain ⟨-, -, -, -, -, hres, -⟩ := hsound
    rw [hop, VOp.reserved, Bool.or_eq_false_iff] at hres
    simpa using hres.2
  have hwide : grpEs e.grp = grpW e.es e.grp 16 := by
    funext r dst
    rw [grpEs_eq hsound.es, hes]
    rfl
  have hgs : e.op.groups e.lenLog e.es e.grp e.fw = (true, [grpW e.es e.grp 16 d true, grpW e.es e.grp 16 a false]) := by
    rw [← hwide, hop]
    rfl
  have hw : LaneWidth 16 := ⟨4, by decide, by decide, rfl⟩
  refine laneWise_of_element hvq hcore hsound hop rfl (fun c i => by rw [VEntry.performs, hop]) (hop ▸ hgs) hw (by simp) fun i c hrun hc => ?_
  rw [← hsound.packed hgs hw (by simp) (by simp) (pix_le hfa) hrun.lt hc]
  simp only [VEntry.element, hop, hfa]

end
end Sys2Proof.Machine
end

section
open Sys2Proof Sys2Proof.Machine

/-- Settles O38. The elements before element i lie below it, so that each element reads its sources as they were, and what is left is one
element's rule. -/
theorem vectorIntegerElementwise : Obligations.VectorIntegerElementwise := by
  unfold Obligations.VectorIntegerElementwise
  exact ⟨fun s k e rest o d a b hvq hcore hop hsound => int_elements hvq hcore hsound hop, fun s k e rest d a b c hvq hcore hsound =>
    ⟨fun wa wd sa sd => narrow_lanes hvq hcore hsound, fun wa wb wd sa sb sd => ima_lanes hvq hcore hsound, rnd_lanes hvq hcore hsound,
      fun p hop hfa => ⟨e.packed (s.ctx e.ctx) a p, unpk_lanes hvq hcore hsound hop hfa, fun i => foldl_bits _ p⟩⟩⟩

end

section
/-! PROOF. O39: the moves and permutations. -/

namespace Sys2Proof.Machine

/-! Set bits of a mask below an element (R161, R162). -/

/-- The set bits of a mask below i. -/
def maskBelow (m : BitVec 2048) (i : Nat) : Nat := (List.range i).countP fun j => m.getLsbD j

theorem maskCount_eq_maskBelow (c : Ctx) (k : MReg) (i : Nat) : c.maskCount k i = maskBelow (c.m.get k) i := popGo_eq_countP _ _

theorem maskBelow_le (m : BitVec 2048) (i : Nat) : maskBelow m i ≤ i := (List.countP_le_length).trans_eq List.length_range

theorem maskBelow_mono (m : BitVec 2048) {i j : Nat} (h : i ≤ j) : maskBelow m i ≤ maskBelow m j :=
  (List.range_sublist.2 h).countP_le

theorem maskBelow_lt (m : BitVec 2048) {i j : Nat} (hi : m.getLsbD i = true) (h : i < j) : maskBelow m i < maskBelow m j := by
  refine lt_of_lt_of_le ?_ (maskBelow_mono m (Nat.succ_le_of_lt h))
  rw [maskBelow, maskBelow, List.range_succ, List.countP_append, List.countP_singleton, if_pos hi]
  exact Nat.lt_succ_self _

theorem activeCount_eq_countP (e : VEntry) (c : Ctx) (a : MReg) (i : Nat) : e.activeCount c a i =
    (List.range i).countP fun j => (c.m.get a).getLsbD j && (e.mask == 0 || (c.m.get (maskReg e.mask)).getLsbD j) := by
  unfold VEntry.activeCount
  split
  case isTrue h => simp [maskCount_eq_maskBelow, maskBelow, h]
  case isFalse h =>
    rw [popGo_eq_countP]
    refine List.countP_congr fun j _ => ?_
    simp [h, BitVec.getLsbD]

/-! Elements of VTYPE's own grouping. -/

theorem put_noFlags (e : VEntry) (c : Ctx) (d : VReg) (w i n : Nat) : e.put c d w i (n, 0) = c.setElem e.lenLog d.val w i n := by
  simp [VEntry.put, Ctx.raiseFlags, Ctx.setElem]

theorem rd_eq (e : VEntry) (c : Ctx) (n j w : Nat) :
    e.rd c n j w = (if j < e.vl then c.lane e w n j else e.vfill.setWidth w).toNat := by
  unfold VEntry.rd
  split
  · rfl
  · exact (BitVec.toNat_setWidth w _).symm

/-- The elements that a move performs: of those of R150, all where no mask governs (R158). -/
def VEntry.moves (e : VEntry) (x : Ctx) (governed : Bool) (i : Nat) : Prop :=
  e.pos ≤ i ∧ i < e.vl ∧ (governed = false ∨ e.mask = 0 ∨ (x.m.get (maskReg e.mask)).getLsbD i = true)

/-- VECTOR_EXECUTE writes f i to the elements i of the group at d that it performs, and changes nothing else (R150). -/
def Moves (s : State) (k : CoreId) (e : VEntry) (rest : List VEntry) (d : VReg) (governed : Bool) (f : Nat → BitVec (8 * 2 ^ e.es)) :
    Prop :=
  let w := 8 * 2 ^ e.es
  let x := s.ctx e.ctx
  ∃ t y, exec (.vectorExecute k) s = .next t ∧ VectorDone s t k.val e rest y ∧ y = { x with v := y.v } ∧
    (∀ i < vlmax e.lenLog e.es e.grp,
      (e.moves x governed i → y.lane e w d.val i = f i) ∧ (¬ e.moves x governed i → y.lane e w d.val i = x.lane e w d.val i)) ∧
    ∀ r : VReg, r.val < d.val ∨ d.val + 2 ^ e.grp ≤ r.val → y.v.get r = x.v.get r

/-- In context c the elements of the sources of VTYPE's width are as in x, from element i on or, where the groups lie apart, all. -/
def SourcesKept (e : VEntry) (apart : Bool) (gs : List Grp) (x c : Ctx) (i : Nat) : Prop :=
  ∀ r : VReg, grpEs e.grp r false ∈ gs → ∀ j < vlmax e.lenLog e.es e.grp, (apart = false → i ≤ j) →
    c.lane e (8 * 2 ^ e.es) r.val j = x.lane e (8 * 2 ^ e.es) r.val j

theorem VEntry.sound.sourcesKept {e : VEntry} (h : e.sound) {apart : Bool} {gs : List Grp} {d : VReg}
    (hgs : e.op.groups e.lenLog e.es e.grp e.fw = (apart, gs)) (hd : grpEs e.grp d true ∈ gs) {x c : Ctx} {i : Nat} (hi : i < e.vl)
    (hc : x.WrittenBelow c e.lenLog d.val (i * (8 * 2 ^ e.es))) : SourcesKept e apart gs x c i := fun r hr j hj hle => by
  rw [grpEs_eq h.es] at hd hr
  exact h.source hgs (.ew h.es) (.ew h.es) hd hr hi hj hle hc

/-- An element of the source that R150 reads across lanes: Fill at or beyond VL. -/
theorem VEntry.sound.rd {e : VEntry} (h : e.sound) {gs : List Grp} {a : VReg} {x c : Ctx} {i j : Nat} (hsame : SourcesKept e true gs x c i)
    (ha : grpEs e.grp a false ∈ gs) : e.rd c a.val j (8 * 2 ^ e.es) =
      (if j < e.vl then x.lane e (8 * 2 ^ e.es) a.val j else e.vfill.setWidth (8 * 2 ^ e.es)).toNat := by
  rw [rd_eq]
  split
  case isTrue hj => rw [hsame a ha j (hj.trans_le h.vl) nofun]
  case isFalse => rfl

section
variable {s : State} {k : CoreId} {e : VEntry} {rest : List VEntry} (hvq : (s.core k.val).vq = e :: rest) (hcore : coreOf e.ctx = k.val)
  (hsound : e.sound)
include hvq hcore hsound

/-- A move, from what it does to one element. -/
theorem moves_of_element {governed apart : Bool} {gs : List Grp} {d : VReg} {f : Nat → BitVec (8 * 2 ^ e.es)}
    (hlane : e.op.byLane = true) (hperf : ∀ c i, e.performs c i = (!governed || c.active e.mask i))
    (hgs : e.op.groups e.lenLog e.es e.grp e.fw = (apart, gs)) (hd : grpEs e.grp d true ∈ gs)
    (helem : ∀ i c, e.moves (s.ctx e.ctx) governed i → i < vlmax e.lenLog e.es e.grp → SourcesKept e apart gs (s.ctx e.ctx) c i →
      c.m = (s.ctx e.ctx).m → e.element c i = e.put c d (8 * 2 ^ e.es) i ((f i).toNat, 0)) : Moves s k e rest d governed f := by
  have hwrites : Writes e d (8 * 2 ^ e.es) (e.moves (s.ctx e.ctx) governed) id (fun _ i => ((f i).toNat, 0)) e.perform e.pos e.vl
      (s.ctx e.ctx) := by
    intro i c hlo hhi hc
    have hact : e.performs c i = true ↔ e.moves (s.ctx e.ctx) governed i := by
      rw [hperf, Bool.or_eq_true, Bool.not_eq_true', hc.active, active_iff]
      exact ⟨fun h => ⟨hlo, hhi, h⟩, fun ⟨_, _, h⟩ => h⟩
    refine ⟨fun hrun => ?_, fun hskip => ?_⟩
    · rw [VEntry.perform, if_pos (hact.2 hrun)]
      exact helem i c hrun (hhi.trans_le hsound.vl) (hsound.sourcesKept hgs hd hhi hc) hc.masks
    · rw [VEntry.perform, if_neg fun h => hskip (hact.1 h)]
  have hgroup : InGroup e (8 * 2 ^ e.es) d := hsound.inGroup hgs (.ew hsound.es) (grpEs_eq hsound.es e.grp d true ▸ hd)
  obtain ⟨t, hexec, hdone⟩ := vectorDone_byLane hvq hcore hsound hlane
  obtain ⟨hframe, hlanes, hregs, -, hflags⟩ := elements_of_writes hsound hgroup (fun _ ⟨hpos, hvl, _⟩ => ⟨hpos, hvl⟩) hwrites
  refine ⟨t, _, hexec, hdone, ?_, fun i hi => ⟨fun h => ((hlanes i hi).1 h).trans (ofNat_toNat_same _), (hlanes i hi).2⟩, hregs⟩
  rwa [fstat_eq_self hflags fun _ _ => rfl] at hframe

variable {d a b : VReg}

/-- VMOV (R158). -/
theorem mov_elements (hop : e.op = .mov d a) : Moves s k e rest d true ((s.ctx e.ctx).lane e (8 * 2 ^ e.es) a.val) := by
  have hgs : e.op.groups e.lenLog e.es e.grp e.fw = (false, [grpEs e.grp d true, grpEs e.grp a false]) := by rw [hop]; rfl
  refine moves_of_element hvq hcore hsound (by rw [hop]; rfl) (fun c i => by rw [VEntry.performs, hop]; rfl) hgs (by simp)
    fun i c _ hi hsame _ => ?_
  rw [← hsame a (by simp) i hi fun _ => le_refl i]
  simp only [VEntry.element, hop]
  rfl

/-- VBCAST (R158). -/
theorem bcast_elements (hop : e.op = .bcast d) : Moves s k e rest d true (fun _ => e.x.setWidth (8 * 2 ^ e.es)) := by
  have hgs : e.op.groups e.lenLog e.es e.grp e.fw = (false, [grpEs e.grp d true]) := by rw [hop]; rfl
  refine moves_of_element hvq hcore hsound (by rw [hop]; rfl) (fun c i => by rw [VEntry.performs, hop]; rfl) hgs (by simp)
    fun i c _ _ _ _ => ?_
  simp only [VEntry.element, hop, BitVec.toNat_setWidth]
  rfl

/-- VID (R162). -/
theorem vid_elements (hop : e.op = .vid d) : Moves s k e rest d true (fun i => BitVec.ofNat (8 * 2 ^ e.es) i) := by
  have hgs : e.op.groups e.lenLog e.es e.grp e.fw = (false, [grpEs e.grp d true]) := by rw [hop]; rfl
  refine moves_of_element hvq hcore hsound (by rw [hop]; rfl) (fun c i => by rw [VEntry.performs, hop]; rfl) hgs (by simp)
    fun i c _ _ _ _ => ?_
  simp only [VEntry.element, hop, BitVec.toNat_ofNat]
  rfl

/-- VMERGE (R158). -/
theorem merge_elements (hop : e.op = .merge d a b) : Moves s k e rest d false (fun i =>
    if ((s.ctx e.ctx).m.get (maskReg e.mask)).getLsbD i then (s.ctx e.ctx).lane e (8 * 2 ^ e.es) b.val i
    else (s.ctx e.ctx).lane e (8 * 2 ^ e.es) a.val i) := by
  have hgs : e.op.groups e.lenLog e.es e.grp e.fw = (false, [grpEs e.grp d true, grpEs e.grp a false, grpEs e.grp b false]) := by
    rw [hop]; rfl
  refine moves_of_element hvq hcore hsound (by rw [hop]; rfl) (fun c i => by rw [VEntry.performs, hop]; rfl) hgs (by simp)
    fun i c _ hi hsame hm => ?_
  rw [← hsame a (by simp) i hi fun _ => le_refl i, ← hsame b (by simp) i hi fun _ => le_refl i, ← hm, apply_ite BitVec.toNat]
  simp only [VEntry.element, hop]
  rfl

/-- VSLIDEUP (R159). -/
theorem slideup_elements (hop : e.op = .slide true d a) : Moves s k e rest d true (fun i =>
    if e.y.toNat ≤ i then (s.ctx e.ctx).lane e (8 * 2 ^ e.es) a.val (i - e.y.toNat) else e.vfill.setWidth (8 * 2 ^ e.es)) := by
  have hgs : e.op.groups e.lenLog e.es e.grp e.fw = (true, [grpEs e.grp d true, grpEs e.grp a false]) := by rw [hop]; rfl
  refine moves_of_element hvq hcore hsound (by rw [hop]; rfl) (fun c i => by rw [VEntry.performs, hop]; rfl) hgs (by simp)
    fun i c _ hi hsame _ => ?_
  rw [← hsame a (by simp) (i - e.y.toNat) (by omega) nofun, apply_ite BitVec.toNat, BitVec.toNat_setWidth]
  simp only [VEntry.element, hop]
  rfl

/-- VSLIDEDN (R159). -/
theorem slidedn_elements (hop : e.op = .slide false d a) : Moves s k e rest d true (fun i =>
    if i + e.y.toNat < e.vl then (s.ctx e.ctx).lane e (8 * 2 ^ e.es) a.val (i + e.y.toNat) else e.vfill.setWidth (8 * 2 ^ e.es)) := by
  have hgs : e.op.groups e.lenLog e.es e.grp e.fw = (true, [grpEs e.grp d true, grpEs e.grp a false]) := by rw [hop]; rfl
  refine moves_of_element hvq hcore hsound (by rw [hop]; rfl) (fun c i => by rw [VEntry.performs, hop]; rfl) hgs (by simp)
    fun i c _ hi hsame _ => ?_
  rw [← hsound.rd hsame (by simp)]
  simp only [VEntry.element, hop]
  rfl

/-- VGATHERV (R160). -/
theorem gather_elements (hop : e.op = .gather d a b) : Moves s k e rest d true (fun i =>
    let j := ((s.ctx e.ctx).lane e (8 * 2 ^ e.es) b.val i).toNat
    if j < e.vl then (s.ctx e.ctx).lane e (8 * 2 ^ e.es) a.val j else e.vfill.setWidth (8 * 2 ^ e.es)) := by
  have hgs : e.op.groups e.lenLog e.es e.grp e.fw = (true, [grpEs e.grp d true, grpEs e.grp a false, grpEs e.grp b false]) := by
    rw [hop]; rfl
  refine moves_of_element hvq hcore hsound (by rw [hop]; rfl) (fun c i => by rw [VEntry.performs, hop]; rfl) hgs (by simp)
    fun i c _ hi hsame _ => ?_
  rw [← hsound.rd hsame (by simp), ← hsame b (by simp) i hi nofun]
  simp only [VEntry.element, hop]
  rfl

/-- VZIP (R164). -/
theorem zip_elements (hop : e.op = .zip d a b) : Moves s k e rest d true (fun i =>
    if i % 2 = 0 then (s.ctx e.ctx).lane e (8 * 2 ^ e.es) a.val (i / 2) else (s.ctx e.ctx).lane e (8 * 2 ^ e.es) b.val (i / 2)) := by
  have hgs : e.op.groups e.lenLog e.es e.grp e.fw = (true, [grpEs e.grp d true, grpEs e.grp a false, grpEs e.grp b false]) := by
    rw [hop]; rfl
  refine moves_of_element hvq hcore hsound (by rw [hop]; rfl) (fun c i => by rw [VEntry.performs, hop]; rfl) hgs (by simp)
    fun i c _ hi hsame _ => ?_
  rw [← hsame a (by simp) (i / 2) (by omega) nofun, ← hsame b (by simp) (i / 2) (by omega) nofun]
  simp only [VEntry.element, hop, elem_eq_lane]
  split <;> rfl

/-- VUNZIP (R164). -/
theorem unzip_elements (hop : e.op = .unzip d a b) : Moves s k e rest d true (fun i =>
    if 2 * i < e.vl then (s.ctx e.ctx).lane e (8 * 2 ^ e.es) a.val (2 * i)
    else (s.ctx e.ctx).lane e (8 * 2 ^ e.es) b.val (2 * i - e.vl)) := by
  have hgs : e.op.groups e.lenLog e.es e.grp e.fw = (true, [grpEs e.grp d true, grpEs e.grp a false, grpEs e.grp b false]) := by
    rw [hop]; rfl
  have hvl := hsound.vl
  refine moves_of_element hvq hcore hsound (by rw [hop]; rfl) (fun c i => by rw [VEntry.performs, hop]; rfl) hgs (by simp)
    fun i c ⟨_, hrun, _⟩ hi hsame _ => ?_
  simp only [VEntry.element, hop, elem_eq_lane]
  split
  · rw [← hsame a (by simp) (2 * i) (by omega) nofun]
    rfl
  · rw [← hsame b (by simp) (2 * i - e.vl) (by omega) nofun]
    rfl

/-- VEXPAND (R161). -/
theorem expand_elements (hop : e.op = .expand d a) : Moves s k e rest d true (fun i =>
    (s.ctx e.ctx).lane e (8 * 2 ^ e.es) a.val (maskBelow ((s.ctx e.ctx).m.get (maskReg e.mask)) i)) := by
  have hgs : e.op.groups e.lenLog e.es e.grp e.fw = (true, [grpEs e.grp d true, grpEs e.grp a false]) := by rw [hop]; rfl
  refine moves_of_element hvq hcore hsound (by rw [hop]; rfl) (fun c i => by rw [VEntry.performs, hop]; rfl) hgs (by simp)
    fun i c _ hi hsame hm => ?_
  rw [← hsame a (by simp) _ ((maskBelow_le _ i).trans_lt hi) nofun, ← hm, ← maskCount_eq_maskBelow]
  simp only [VEntry.element, hop]
  rfl

/-- VIOTA (R162). -/
theorem iota_elements {ma : MReg} (hop : e.op = .iota d ma) : Moves s k e rest d true (fun i =>
    BitVec.ofNat (8 * 2 ^ e.es) ((List.range i).countP fun j =>
      ((s.ctx e.ctx).m.get ma).getLsbD j && (e.mask == 0 || ((s.ctx e.ctx).m.get (maskReg e.mask)).getLsbD j))) := by
  have hgs : e.op.groups e.lenLog e.es e.grp e.fw = (false, [grpEs e.grp d true]) := by rw [hop]; rfl
  refine moves_of_element hvq hcore hsound (by rw [hop]; rfl) (fun c i => by rw [VEntry.performs, hop]; rfl) hgs (by simp)
    fun i c _ _ _ hm => ?_
  rw [← hm, ← activeCount_eq_countP, BitVec.toNat_ofNat]
  simp only [VEntry.element, hop]
  rfl

/-- VCOMPRESS (R161): element i goes to the place that the set bits below i number. -/
theorem compress_elements (hop : e.op = .compress d a) (hmask : e.mask ≠ 0) :
    let w := 8 * 2 ^ e.es
    let x := s.ctx e.ctx
    let mask := x.m.get (maskReg e.mask)
    let moved := fun i => e.pos ≤ i ∧ i < e.vl ∧ mask.getLsbD i = true
    ∃ t y, exec (.vectorExecute k) s = .next t ∧ VectorDone s t k.val e rest y ∧ y = { x with v := y.v } ∧
      (∀ i, moved i → y.lane e w d.val (maskBelow mask i) = x.lane e w a.val i) ∧
      (∀ j < vlmax e.lenLog e.es e.grp, (∀ i, moved i → maskBelow mask i ≠ j) → y.lane e w d.val j = x.lane e w d.val j) ∧
      ∀ r : VReg, r.val < d.val ∨ d.val + 2 ^ e.grp ≤ r.val → y.v.get r = x.v.get r := by
  intro w x mask moved
  have hgs : e.op.groups e.lenLog e.es e.grp e.fw = (true, [grpEs e.grp d true, grpEs e.grp a false]) := by rw [hop]; rfl
  have hgroup : InGroup e w d := hsound.inGroup (dst := true) hgs (.ew hsound.es) (by simp [grpEs_eq hsound.es, w])
  have hmoved : ∀ i, e.runs x i ↔ moved i := fun i => by simp only [VEntry.runs, hmask, false_or]; rfl
  have hwrites : Writes e d w moved (maskBelow mask) (fun _ i => ((x.lane e w a.val i).toNat, 0)) e.perform e.pos e.vl x := by
    rw [← funext fun i => propext (hmoved i)]
    refine writes_of_element (fun c i => by rw [VEntry.performs, hop]) fun i c hrun hc => ?_
    rw [← hsound.sourcesKept hgs (by simp) hrun.lt hc a (by simp) i (hrun.lt.trans_le hsound.vl) nofun]
    simp only [VEntry.element, hop, maskCount_eq_maskBelow, hc.masks]
    rfl
  have hdvd := hgroup.width.dvd hsound.low_len
  have hroom := hgroup.room hsound.es hsound.vl
  have hinj : ∀ i j, moved i → moved j → i < j → maskBelow mask i ≠ maskBelow mask j := fun i j ⟨_, _, hi⟩ _ h =>
    Nat.ne_of_lt (maskBelow_lt mask hi h)
  have hbelow := hwrites.writtenBelow hsound.len hdvd hroom (maskBelow_le mask) hgroup.width.pos e.vl
  obtain ⟨hwritten, hkept⟩ := hwrites.lanes hsound.len hdvd hroom (maskBelow_le mask) hgroup.width.pos hinj e.vl
  have hflags := hwrites.flags hsound.len hdvd hroom (maskBelow_le mask) hgroup.width.pos e.vl
  rw [min_self] at hbelow
  have hfstat : (sweep e.perform e.pos e.vl x e.vl).fstat = x.fstat := BitVec.eq_of_getLsbD_eq fun j _ => Bool.eq_iff_iff.2 (by
    rw [hflags j]
    simp)
  obtain ⟨t, hexec, hdone⟩ := vectorDone_byLane hvq hcore hsound (by rw [hop]; rfl)
  refine ⟨t, _, hexec, hdone, ?_, fun i ⟨hpos, hvl, hbit⟩ =>
    (hwritten i hvl ⟨hpos, hvl⟩ ⟨hpos, hvl, hbit⟩).trans (ofNat_toNat_same _), fun j hj hfree =>
    hkept j (hgroup.lane_lt hsound.es hj) fun i _ _ => hfree i, fun r hr => hsound.outside hgroup hbelow hr⟩
  have hframe := hbelow.1
  rwa [hfstat] at hframe

/-- VINS (R163). -/
theorem ins_elements (hop : e.op = .ins d) :
    let w := 8 * 2 ^ e.es
    let x := s.ctx e.ctx
    ∃ t y, exec (.vectorExecute k) s = .next t ∧ VectorDone s t k.val e rest y ∧ y = { x with v := y.v } ∧
      (∀ i < vlmax e.lenLog e.es e.grp, y.lane e w d.val i =
        if i = e.y.toNat ∧ i < e.vl then e.x.setWidth w else x.lane e w d.val i) ∧
      ∀ r : VReg, r.val < d.val ∨ d.val + 2 ^ e.grp ≤ r.val → y.v.get r = x.v.get r := by
  intro w x
  have hgs : e.op.groups e.lenLog e.es e.grp e.fw = (false, [grpEs e.grp d true]) := by rw [hop]; rfl
  have hgroup : InGroup e w d := hsound.inGroup (dst := true) hgs (.ew hsound.es) (by simp [grpEs_eq hsound.es, w])
  have hdvd := hgroup.width.dvd hsound.low_len
  obtain ⟨hL, hS⟩ := hsound.uncounted
  obtain ⟨t, hexec, hdone⟩ := vectorDone_whole hvq hcore (by rw [hop]; rfl) hL hS
  have hstep : e.wholeStep x = if e.y.toNat < e.vl then x.setElem e.lenLog d.val w e.y.toNat (e.x.setWidth w).toNat else x := by
    simp only [VEntry.wholeStep, hop, BitVec.toNat_setWidth]
    rfl
  refine ⟨t, _, hexec, hdone, ?_⟩
  rw [hstep]
  by_cases hy : e.y.toNat < e.vl
  · have hlane := fun i hi => lane_setElem x e (e.x.setWidth w).toNat hsound.len hdvd
      (hgroup.lane_lt hsound.es (hy.trans_le hsound.vl)) (hgroup.lane_lt hsound.es (j := i) hi)
    have hput := (Ctx.WrittenBelow.refl x e.lenLog d.val (e.vl * w)).put rfl ((e.x.setWidth w).toNat, 0) hsound.len hdvd
      (hgroup.lane_lt hsound.es (hy.trans_le hsound.vl)) ((Nat.succ_mul _ w).symm.le.trans (Nat.mul_le_mul_right w hy))
    rw [put_noFlags] at hput
    rw [if_pos hy]
    refine ⟨rfl, fun i hi => ?_, fun r hr => hsound.outside hgroup hput hr⟩
    rw [hlane i hi, ofNat_toNat_same]
    exact if_congr (by constructor <;> (intro h; omega)) rfl rfl
  · rw [if_neg hy]
    exact ⟨rfl, fun i _ => by rw [if_neg (by omega)], fun _ _ => rfl⟩
end

end Sys2Proof.Machine
end

section
open Sys2Proof Sys2Proof.Machine

/-- Settles O39: a move writes one element at a time, from sources that lie apart from its destination, or begin where it begins and are
read no earlier than at the element written. -/
theorem vectorMovesAndPermutations : Obligations.VectorMovesAndPermutations := by
  unfold Obligations.VectorMovesAndPermutations
  intro s k e rest d a b hvq hcore hsound
  exact ⟨mov_elements hvq hcore hsound, bcast_elements hvq hcore hsound, vid_elements hvq hcore hsound, merge_elements hvq hcore hsound,
    slideup_elements hvq hcore hsound, slidedn_elements hvq hcore hsound, gather_elements hvq hcore hsound, zip_elements hvq hcore hsound,
    unzip_elements hvq hcore hsound, fun _ => expand_elements hvq hcore hsound, fun ma => iota_elements hvq hcore hsound,
    compress_elements hvq hcore hsound, ins_elements hvq hcore hsound⟩

end

section
/-! PROOF. Completion of every instruction of the vector unit (R97, R148), for O41. -/

namespace Sys2Proof.Machine

/-- Context y is x but for its vector, mask and general registers and FSTAT. -/
def Ctx.RegsOnly (x y : Ctx) : Prop := y = { x with v := y.v, m := y.m, g := y.g, fstat := y.fstat }

namespace Ctx.RegsOnly

theorem refl (x : Ctx) : x.RegsOnly x := rfl

theorem trans {x y z : Ctx} (h : x.RegsOnly y) (h' : y.RegsOnly z) : x.RegsOnly z := by
  unfold Ctx.RegsOnly at *
  rw [h', h]

theorem setG (c : Ctx) (r : GReg) (x : Word) : c.RegsOnly (c.setG r x) := by
  unfold Ctx.setG
  split
  · exact refl c
  · rfl
end Ctx.RegsOnly

theorem element_regsOnly (e : VEntry) (c : Ctx) (i : Nat) : c.RegsOnly (e.element c i) := by
  unfold VEntry.element
  cases e.op with
  | narrow | fclass | ima | unpk | plresc | plstep =>
    dsimp only
    split <;> rfl
  | _ => rfl

theorem sweep_regsOnly {step : Ctx → Nat → Ctx} (h : ∀ (c : Ctx) i, c.RegsOnly (step c i)) (lo hi : Nat) (x : Ctx) (i : Nat) :
    x.RegsOnly (sweep step lo hi x i) := by
  induction i with
  | zero => exact .refl x
  | succ i ih =>
    rw [sweep]
    split
    · exact ih.trans (h _ i)
    · exact ih

theorem perform_regsOnly (e : VEntry) (c : Ctx) (i : Nat) : c.RegsOnly (e.perform c i) := by
  unfold VEntry.perform
  split
  · exact element_regsOnly e c i
  · exact .refl c

theorem wholeStep_regsOnly (e : VEntry) (c : Ctx) : c.RegsOnly (e.wholeStep c) := by
  unfold VEntry.wholeStep
  cases e.op with
  | ins =>
    dsimp only
    split <;> rfl
  | ext | mpopc | mfirst | mmovm => exact .setG c _ _
  | _ => rfl

theorem arith_regsOnly (e : VEntry) (c : Ctx) (stop : Nat) : c.RegsOnly (e.arith c stop) := by
  unfold VEntry.arith
  split
  case h_1 d a _ =>
    rw [sweep_of_rec (F := e.plheadFrom d a) (step := e.plheadBlock d a) (fun _ _ => rfl) (fun _ _ _ => rfl)]
    exact sweep_regsOnly (step := e.plheadBlock d a) (fun _ _ => rfl) _ _ _ _
  case h_2 =>
    split
    · exact wholeStep_regsOnly e c
    · rw [sweep_of_rec (F := e.runFrom) (step := e.perform) (fun _ _ => rfl) (fun _ _ _ => rfl)]
      exact sweep_regsOnly (perform_regsOnly e) _ _ _ _

end Sys2Proof.Machine
end

section
/-! PROOF. The instructions that read a format word, element by element (R175 to R184, R190 to R192), for O41. -/

namespace Sys2Proof.Machine

theorem rounding_eq_mode {e : VEntry} {rm : RMode} (h : RMode.ofCode (fwRM e.fw) = some rm) (i : Nat) : e.rounding i = e.mode rm i := by
  rw [VEntry.rounding, VEntry.mode, h]
  rfl

theorem LaneWise.congr {s : State} {k : CoreId} {e : VEntry} {rest : List VEntry} {d : VReg} {w : Nat} {done : Nat → Prop}
    {f g : Ctx → Nat → Nat × FFlags} (h : LaneWise s k e rest d w done f) (hfg : ∀ c i, f c i = g c i) : LaneWise s k e rest d w done g :=
  funext (fun c => funext (hfg c)) ▸ h

/-- Two bytes that lie together in 16 bits. -/
theorem lane_bytes (c : Ctx) (e : VEntry) (hL : 7 ≤ e.lenLog) (n i : Nat) :
    (c.lane e 16 n i).toNat % 256 = (c.lane e 8 n (2 * i)).toNat ∧ (c.lane e 16 n i).toNat / 256 = (c.lane e 8 n (2 * i + 1)).toNat := by
  have hfit := lane_fits (w := 16) (Nat.pow_dvd_pow 2 (by omega : 4 ≤ e.lenLog)) i
  have hlow : 2 * i * 8 = i * 16 := by omega
  have hhigh : (2 * i + 1) * 8 = i * 16 + 8 := by omega
  have hpos := Nat.div_add_mod (i * 16) (2 ^ e.lenLog)
  have hsum : i * 16 + 8 = 2 ^ e.lenLog * (i * 16 / 2 ^ e.lenLog) + (i * 16 % 2 ^ e.lenLog + 8) := by omega
  have hlt : i * 16 % 2 ^ e.lenLog + 8 < 2 ^ e.lenLog := by omega
  have hdiv : (i * 16 + 8) / 2 ^ e.lenLog = i * 16 / 2 ^ e.lenLog := by
    rw [hsum, Nat.mul_add_div (Nat.two_pow_pos _), Nat.div_eq_of_lt hlt, Nat.add_zero]
  have hmod : (i * 16 + 8) % 2 ^ e.lenLog = i * 16 % 2 ^ e.lenLog + 8 := by
    rw [hsum, Nat.mul_add_mod, Nat.mod_eq_of_lt hlt]
  simp only [Ctx.lane, hlow, hhigh, hdiv, hmod, BitVec.extractLsb'_toNat, Nat.shiftRight_add]
  constructor <;> omega

section
variable {s : State} {k : CoreId} {e : VEntry} {rest : List VEntry} (hvq : (s.core k.val).vq = e :: rest) (hcore : coreOf e.ctx = k.val)
  (hsound : e.sound)
include hvq hcore hsound

variable {d a b c : VReg} {src : VSrc} {fa fb fd : Fmt} {rm : RMode} (hfa : faOf e.fw = fa)
include hfa

/-- The two-operand instructions of R177. -/
theorem fbin_lanes {o : FBin} (hrm : RMode.ofCode (fwRM e.fw) = some rm) (hop : e.op = .fbin o d a src) (hfb : fbOf e.fw = fb)
    (hfd : fdOf e.fw = fd) : LaneWise s k e rest d fd.width (e.runs (s.ctx e.ctx)) (fun _ i =>
      o.eval fa fb fd (e.mode rm i) ((s.ctx e.ctx).lane e fa.width a.val i).toNat (e.operand (s.ctx e.ctx) fb.width src i).toNat) := by
  have hgs : e.op.groups e.lenLog e.es e.grp e.fw = (false, [grpW e.es e.grp fd.width d true, grpW e.es e.grp fa.width a false] ++
      grpSrc (fun r => grpW e.es e.grp fb.width r false) src) := by rw [hop, ← hfa, ← hfb, ← hfd]; rfl
  refine laneWise_of_lanes hvq hcore hsound (by rw [hop]; rfl) (fun c i => by rw [VEntry.performs, hop]) hgs (.of_fd hfd) (by simp)
    fun i c hkept => ?_
  rw [← hkept (.of_fa hfa) (by simp), ← hkept.operand (.of_fb hfb) mem_grpSrc, ← second_eq_operand, ← rounding_eq_mode hrm]
  simp only [VEntry.element, hop, hfa, hfb, hfd]
  rfl

/-- The one-operand instructions of R177 and R179. -/
theorem fun1_lanes {o : FUn} (hrm : RMode.ofCode (fwRM e.fw) = some rm) (hop : e.op = .fun1 o d a) (hfd : fdOf e.fw = fd) :
    LaneWise s k e rest d fd.width (e.runs (s.ctx e.ctx)) (fun _ i =>
      o.eval fa fd (e.mode rm i) ((s.ctx e.ctx).lane e fa.width a.val i).toNat) := by
  have hgs : e.op.groups e.lenLog e.es e.grp e.fw = (false, [grpW e.es e.grp fd.width d true, grpW e.es e.grp fa.width a false]) := by
    rw [hop, ← hfa, ← hfd]; rfl
  refine laneWise_of_lanes hvq hcore hsound (by rw [hop]; rfl) (fun c i => by rw [VEntry.performs, hop]) hgs (.of_fd hfd) (by simp)
    fun i c hkept => ?_
  rw [← hkept (.of_fa hfa) (by simp), ← rounding_eq_mode hrm]
  simp only [VEntry.element, hop, hfa, hfd]
  rfl

/-- VFMA and VFNMA (R184). -/
theorem fma_lanes {neg : Bool} (hrm : RMode.ofCode (fwRM e.fw) = some rm) (hop : e.op = .fma neg d a b c) (hfb : fbOf e.fw = fb)
    (hfd : fdOf e.fw = fd) : LaneWise s k e rest d fd.width (e.runs (s.ctx e.ctx)) (fun _ i =>
      let p := fmtVal fa (fwFtz e.fw) 0 ((s.ctx e.ctx).lane e fa.width a.val i).toNat
      let q := fmtVal fb (fwFtz e.fw) 0 ((s.ctx e.ctx).lane e fb.width b.val i).toNat
      let z := fmtVal fd (fwFtz e.fw) 0 ((s.ctx e.ctx).lane e fd.width c.val i).toNat
      let r := toFmt fd (e.mode rm i) 0 (fmaExact rm neg p q z)
      (r.1, r.2 ||| sigFlag p ||| sigFlag q ||| sigFlag z)) := by
  have hgs : e.op.groups e.lenLog e.es e.grp e.fw = (false, [grpW e.es e.grp fd.width d true, grpW e.es e.grp fa.width a false,
      grpW e.es e.grp fb.width b false, grpW e.es e.grp fd.width c false]) := by rw [hop, ← hfa, ← hfb, ← hfd]; rfl
  refine laneWise_of_lanes hvq hcore hsound (by rw [hop]; rfl) (fun c i => by rw [VEntry.performs, hop]) hgs (.of_fd hfd) (by simp)
    fun i c hkept => ?_
  rw [← hkept (.of_fa hfa) (by simp), ← hkept (.of_fb hfb) (by simp), ← hkept (.of_fd hfd) (by simp), ← rounding_eq_mode hrm]
  have hmode : (e.rounding i).rm = rm := by rw [rounding_eq_mode hrm]; rfl
  simp only [VEntry.element, hop, hfa, hfb, hfd, hmode]
  rfl

/-- VFCLASS (R182). -/
theorem fclass_lanes {f : FpFmt} (hop : e.op = .fclass d a) (hf : fa = .fp f) :
    LaneWise s k e rest d (8 * 2 ^ e.es) (e.runs (s.ctx e.ctx)) (fun _ i =>
      (classBits f (fwFtz e.fw) ((s.ctx e.ctx).lane e f.width a.val i).toNat, 0)) := by
  subst hf
  have hgs : e.op.groups e.lenLog e.es e.grp e.fw = (false, [grpW e.es e.grp (8 * 2 ^ e.es) d true, grpW e.es e.grp f.width a false]) := by
    rw [hop, ← grpEs_eq hsound.es, show f.width = (faOf e.fw).width by rw [hfa]; rfl]
    rfl
  refine laneWise_of_lanes hvq hcore hsound (by rw [hop]; rfl) (fun c i => by rw [VEntry.performs, hop]) hgs (.ew hsound.es) (by simp)
    fun i c hkept => ?_
  rw [← hkept (w := f.width) (.fp f) (by simp)]
  simp only [VEntry.element, hop, hfa]
  rfl

/-- VCVT (R180): the scale byte is read as the lanes before have left it. -/
theorem cvt_lanes (hrm : RMode.ofCode (fwRM e.fw) = some rm) (hop : e.op = .cvt d a b) (hfd : fdOf e.fw = fd) :
    LaneWise s k e rest d fd.width (e.runs (s.ctx e.ctx)) (fun now i =>
      let S := (now.lane e 8 b.val (i / 32)).toNat
      let v := fmtVal fa (fwFtz e.fw) S ((s.ctx e.ctx).lane e fa.width a.val i).toNat
      let r := toFmt fd (e.mode rm i) S v.exact
      (heldBits fd r.1, r.2 ||| sigFlag v)) := by
  have hgs : e.op.groups e.lenLog e.es e.grp e.fw = (false, [grpW e.es e.grp fd.width d true, grpW e.es e.grp fa.width a false] ++
      if fa.isBlock || fd.isBlock then [⟨b.val, 16 * scaleCount e.lenLog 1, false⟩] else []) := by rw [hop, ← hfa, ← hfd]; rfl
  refine laneWise_of_lanes hvq hcore hsound (by rw [hop]; rfl) (fun c i => by rw [VEntry.performs, hop]) hgs (.of_fd hfd) (by simp)
    fun i c hkept => ?_
  rw [← hkept (.of_fa hfa) (by simp), ← rounding_eq_mode hrm]
  simp only [VEntry.element, hop, hfa, hfd]
  rfl

/-- VPLSTEP (R191). -/
theorem plstep_lanes {p : Nat} (hrm : RMode.ofCode (fwRM e.fw) = some rm) (hop : e.op = .plstep d a b c) (hfd : fdOf e.fw = .pb p) :
    LaneWise s k e rest d (Fmt.width (.pb p)) (e.runs (s.ctx e.ctx)) (fun now i =>
      let S := (now.lane e 8 b.val (i / 32)).toNat
      let v := fmtVal fa (fwFtz e.fw) 0 ((s.ctx e.ctx).lane e fa.width a.val i).toNat
      let q := intOf (8 * p) true ((s.ctx e.ctx).lane e (Fmt.width (.pb p)) c.val i).toNat
      let u := match v with
        | .fin n m z => Num.fin n m (z + (8 * (p : Int) - 1) - ((S : Int) - 127))
        | v => v
      let r := if S = 255 then (0, flagNV) else toPlanar p (e.mode rm i) 0 (addNum rm (numOfInt q) u)
      (heldBits (.pb p) r.1, r.2 ||| sigFlag v)) := by
  have hgs : e.op.groups e.lenLog e.es e.grp e.fw = (false, [grpW e.es e.grp (Fmt.width (.pb p)) d true, grpW e.es e.grp fa.width a false,
      ⟨b.val, 16 * scaleCount e.lenLog 1, false⟩, grpW e.es e.grp (Fmt.width (.pb p)) c false]) := by rw [hop, ← hfa, ← hfd]; rfl
  refine laneWise_of_lanes hvq hcore hsound (by rw [hop]; rfl) (fun c i => by rw [VEntry.performs, hop]) hgs (.of_fd hfd) (by simp)
    fun i c hkept => ?_
  rw [← hkept (.of_fa hfa) (by simp), ← hkept (.of_fd hfd) (by simp), ← rounding_eq_mode hrm]
  have hmode : (e.rounding i).rm = rm := by rw [rounding_eq_mode hrm]; rfl
  simp only [VEntry.element, hop, hfa, hfd, hmode]
  rfl

/-- VPLRESC (R192): the old and new scale of a block lie together in 16 bits. -/
theorem plresc_lanes {p q : Nat} (hrm : RMode.ofCode (fwRM e.fw) = some rm) (hop : e.op = .plresc d a b) (hf : fa = .pb p)
    (hfd : fdOf e.fw = .pb q) : LaneWise s k e rest d (Fmt.width (.pb q)) (e.runs (s.ctx e.ctx)) (fun now i =>
      let old := (now.lane e 8 b.val (2 * (i / 32))).toNat
      let new := (now.lane e 8 b.val (2 * (i / 32) + 1)).toNat
      let r := if new = 255 then (0, 0)
        else if old = 255 then (0, flagNV)
        else toPlanar q (e.mode rm i) ((new : Int) - 127 - (8 * (q : Int) - 1))
          (pbVal p old ((s.ctx e.ctx).lane e (Fmt.width (.pb p)) a.val i).toNat).exact
      (heldBits (.pb q) r.1, r.2)) := by
  subst hf
  have hgs : e.op.groups e.lenLog e.es e.grp e.fw = (false, [grpW e.es e.grp (Fmt.width (.pb q)) d true,
      grpW e.es e.grp (Fmt.width (.pb p)) a false, ⟨b.val, 16 * scaleCount e.lenLog 2, false⟩]) := by rw [hop, ← hfa, ← hfd]; rfl
  refine laneWise_of_lanes hvq hcore hsound (by rw [hop]; rfl) (fun c i => by rw [VEntry.performs, hop]) hgs (.of_fd hfd) (by simp)
    fun i c hkept => ?_
  obtain ⟨hold, hnew⟩ := lane_bytes c e hsound.low_len b.val (i / 32)
  rw [← hkept (.of_fa hfa) (by simp), ← rounding_eq_mode hrm, ← hold, ← hnew]
  simp only [VEntry.element, hop, hfa, hfd]
  rfl
end

end Sys2Proof.Machine
end

section
/-! PROOF. The values of the floating-point and planar instructions, lane by lane (R126, R127, R175 to R184, R191, R192), for O41. -/

namespace Sys2Proof.Machine

/-! Patterns as they are read with flushing (R44). -/

theorem minMaxBits_lane {f : FpFmt} (max ftz : Bool) (a b : BitVec f.width) : minMaxBits f max ftz a.toNat b.toNat =
    (f.pickOf (fun p q => if max then decide (q ≤ p) else decide (p ≤ q)) (f.readAs ftz a.toNat) (f.readAs ftz b.toNat),
      if f.sigAt (f.readAs ftz a.toNat) || f.sigAt (f.readAs ftz b.toNat) then 0x01 else 0) := by
  rw [minMaxBits_eq, Nat.mod_eq_of_lt a.isLt, Nat.mod_eq_of_lt b.isLt]

theorem signBits_lane {f : FpFmt} (neg ftz : Bool) (a : BitVec f.width) : signBits f neg ftz a.toNat =
    let p := f.readAs ftz a.toNat
    let q := if f.nanAt p then f.oneNan else p
    if neg then q ^^^ 2 ^ (f.width - 1) else f.magOf q := by
  rw [signBits, flushBits_eq, Nat.mod_eq_of_lt a.isLt, isNan_fpVal, ← f.oneNan_eq_canonNan]
  rfl

/-- A flushed pattern is a zero. -/
theorem readAs_flushed {f : FpFmt} {b : Nat} (h : f.expOf b = 0) : f.readAs true b = 0 ∨ f.readAs true b = 2 ^ (f.width - 1) := by
  rw [FpFmt.readAs, if_pos ⟨rfl, h⟩]
  split
  · exact .inr rfl
  · exact .inl rfl

theorem classBits_lane {f : FpFmt} (ftz : Bool) (a : BitVec f.width) :
    classBits f ftz a.toNat = 2 ^ f.classOf (f.readAs ftz a.toNat) := by
  have hread := fpVal_flush f ftz a.toNat
  rw [Nat.mod_eq_of_lt a.isLt] at hread
  by_cases h : ftz = true ∧ f.expOf a.toNat = 0
  · obtain ⟨rfl, hexp⟩ := h
    have hzero : ∀ z, z = 0 ∨ z = 2 ^ (f.width - 1) → ∃ n, fpVal f false z = .fin n 0 0 ∧ f.classOf z = if n then 3 else 4 := by
      rintro z (rfl | rfl)
      · exact ⟨false, by cases f <;> decide, by cases f <;> decide⟩
      · exact ⟨true, by cases f <;> decide, by cases f <;> decide⟩
    obtain ⟨n, hval, hclass⟩ := hzero _ (readAs_flushed hexp)
    rw [classBits, hread, hval, hclass]
    cases n <;> rfl
  · have hsame : f.readAs ftz a.toNat = a.toNat := if_neg h
    rw [hsame] at hread ⊢
    rw [← classBits_eq, classBits, classBits, hread]

/-! Planar significands (R31, R33). -/

theorem intOf_mod (w : Nat) (signed : Bool) (n : Nat) : intOf w signed (n % 2 ^ w) = intOf w signed n := by
  simp only [intOf, Nat.mod_mod]

theorem intOf_eq_toInt {w : Nat} (hw : 0 < w) (n : Nat) : intOf w true n = (BitVec.ofNat w n).toInt := by
  rw [← intOf_toNat _ hw, BitVec.toNat_ofNat, intOf_mod]

/-- The significand that the low bits of an element hold. -/
theorem intOf_lane {w v : Nat} (hw : 0 < w) (x : BitVec v) : intOf w true x.toNat = (x.setWidth w).toInt := by
  rw [intOf_eq_toInt hw]
  congr 1
  exact BitVec.eq_of_toNat_eq (by simp)

/-- The low bits of a significand held sign-extended. -/
theorem ofNat_signExtend {v w : Nat} (hw : w ≤ 32) (x : BitVec v) : BitVec.ofNat w (x.signExtend 32).toNat = x.signExtend w := by
  refine BitVec.eq_of_getLsbD_eq fun i hi => ?_
  rw [BitVec.getLsbD_ofNat, BitVec.testBit_toNat, BitVec.getLsbD_signExtend, BitVec.getLsbD_signExtend]
  simp [hi, show i < 32 by omega]

/-- The bits of a result as its format occupies an element: a planar significand sign-extended (R31). -/
def Fmt.held (f : Fmt) (r : Nat) : Nat :=
  match f with
  | .pb p => ((BitVec.ofNat (8 * p) r).signExtend 32).toNat
  | _ => r

theorem pb_pos {fw : Word} {p : Nat} (h : fdOf fw = .pb p) : 0 < p := by
  unfold fdOf Fmt.ofCode at h
  split at h <;> simp_all <;> omega

theorem pb_pos_fa {fw : Word} {p : Nat} (h : faOf fw = .pb p) : 0 < p := by
  unfold faOf Fmt.ofCode at h
  split at h <;> simp_all <;> omega

theorem ofNat_heldBits {fw : Word} {f : Fmt} (h : fdOf fw = f) (r : Nat) :
    BitVec.ofNat f.width (heldBits f r) = BitVec.ofNat f.width (f.held r) := by
  cases f with
  | pb p =>
    have hw : Fmt.width (.pb p) ≤ 32 := by
      unfold Fmt.width
      split <;> simp_all
    have hp := pb_pos h
    rw [heldBits, ofNat_wrapBits, Fmt.held, ofNat_signExtend hw, intOf_eq_toInt (by omega)]
    rfl
  | _ => rfl

/-- A planar result depends on its exponent above the unit alone. -/
theorem toPlanar_shift (p : Nat) (r : Rounding) (q : Int) (n : Bool) (m : Nat) (e : Int) (stick : Bool) :
    toPlanar p r q (.fin n m e stick) = toPlanar p r 0 (.fin n m (e - q) stick) := by
  have hunits : roundUnits r.rm r.u n m e stick q = roundUnits r.rm r.u n m (e - q) stick 0 := by
    simp only [roundUnits, Int.sub_nonneg, Int.sub_zero, Int.zero_sub, Int.neg_sub]
  rw [toPlanar, toPlanar, hunits]

/-- A significand moved from one scale to another (R192). -/
theorem rescaled_eq (p q : Nat) (r : Rounding) (old new n : Nat) {z : Int} (hz : intOf (8 * p) true n = z) :
    (if new = 255 then (0, 0) else if old = 255 then (0, flagNV)
      else toPlanar q r ((new : Int) - 127 - (8 * (q : Int) - 1)) (pbVal p old n).exact) =
    if new = 255 then (0, (0 : FFlags)) else if old = 255 then (0, 0x01)
    else toPlanar q r 0 (.fin (decide (z < 0)) z.natAbs ((old : Int) - (new : Int) + 8 * (q : Int) - 8 * (p : Int)) false) := by
  subst hz
  split
  case isTrue => rfl
  case isFalse =>
    split
    case isTrue => rfl
    case isFalse hold =>
      rw [pbVal, if_neg hold, Num.exact, toPlanar_shift]
      congr 2
      omega

/-! Values, lane by lane. -/

/-- A lane is what its low bits are. -/
theorem LaneWise.congr_low {s : State} {k : CoreId} {e : VEntry} {rest : List VEntry} {d : VReg} {w : Nat} {done : Nat → Prop}
    {f g : Ctx → Nat → Nat × FFlags} (h : LaneWise s k e rest d w done f)
    (hfg : ∀ c i, BitVec.ofNat w (f c i).1 = BitVec.ofNat w (g c i).1 ∧ (f c i).2 = (g c i).2) : LaneWise s k e rest d w done g := by
  obtain ⟨t, y, c, hexec, hdone, hframe, hlanes, hbefore, hregs, hbits, hflags⟩ := h
  refine ⟨t, y, c, hexec, hdone, hframe, fun i hi => ⟨fun hd => ((hlanes i hi).1 hd).trans (hfg _ _).1, (hlanes i hi).2⟩, hbefore, hregs,
    hbits, fun j hj => (hflags j hj).trans ?_⟩
  simp only [(hfg _ _).2]

section
variable {s : State} {k : CoreId} {e : VEntry} {rest : List VEntry} (hvq : (s.core k.val).vq = e :: rest) (hcore : coreOf e.ctx = k.val)
  (hsound : e.sound) {d a b c : VReg} {src : VSrc} {fa fb fd : FpFmt} {rm : RMode} (hfa : faOf e.fw = .fp fa)
  (hrm : RMode.ofCode (fwRM e.fw) = some rm)
include hvq hcore hsound hfa hrm

/-- Arithmetic of two operands with one rounding (R177). -/
theorem two_lanes (o : FBin) (f : RMode → Num → Num → Exact)
    (ho : ∀ (fa fb fd : FpFmt) (r : Rounding) (x y : Nat), o.eval (.fp fa) (.fp fb) (.fp fd) r x y =
      let z := toFp fd r (f r.rm (fpVal fa r.ftz x) (fpVal fb r.ftz y))
      (z.1, z.2 ||| (sigFlag (fpVal fa r.ftz x) ||| sigFlag (fpVal fb r.ftz y))))
    (hop : e.op = .fbin o d a src) (hfb : fbOf e.fw = .fp fb) (hfd : fdOf e.fw = .fp fd) :
    LaneWise s k e rest d fd.width (e.runs (s.ctx e.ctx)) (fun _ i =>
      let p := fpVal fa (fwFtz e.fw) ((s.ctx e.ctx).lane e fa.width a.val i).toNat
      let q := fpVal fb (fwFtz e.fw) (e.operand (s.ctx e.ctx) fb.width src i).toNat
      let r := toFp fd (e.mode rm i) (f rm p q)
      (r.1, r.2 ||| sigFlag p ||| sigFlag q)) := by
  refine (fbin_lanes hvq hcore hsound hfa hrm hop hfb hfd).congr fun _ i => ?_
  rw [ho]
  exact Prod.ext rfl (BitVec.or_assoc ..).symm

/-- Minimum and maximum (R126, R177). -/
theorem same_lanes (o : FBin) (max : Bool) (ho : ∀ (f : FpFmt) (r : Rounding) (x y : Nat),
      o.eval (.fp f) (.fp f) (.fp f) r x y = minMaxBits f max r.ftz x y)
    (hop : e.op = .fbin o d a src) (hfb : fbOf e.fw = .fp fa) (hfd : fdOf e.fw = .fp fa) :
    LaneWise s k e rest d fa.width (e.runs (s.ctx e.ctx)) (fun _ i =>
      let p := fa.readAs (fwFtz e.fw) ((s.ctx e.ctx).lane e fa.width a.val i).toNat
      let q := fa.readAs (fwFtz e.fw) (e.operand (s.ctx e.ctx) fa.width src i).toNat
      (fa.pickOf (fun p q => if max then decide (q ≤ p) else decide (p ≤ q)) p q, if fa.sigAt p || fa.sigAt q then 0x01 else 0)) := by
  refine (fbin_lanes hvq hcore hsound hfa hrm hop hfb hfd).congr fun _ i => ?_
  rw [ho]
  exact minMaxBits_lane max (fwFtz e.fw) ((s.ctx e.ctx).lane e fa.width a.val i) (e.operand (s.ctx e.ctx) fa.width src i)

/-- VFSCALE (R177). -/
theorem scale_lanes {w : Nat} {sg : Bool} (hop : e.op = .fbin .scale d a src) (hfb : fbOf e.fw = .int w sg)
    (hfd : fdOf e.fw = .fp fd) : LaneWise s k e rest d fd.width (e.runs (s.ctx e.ctx)) (fun _ i =>
      let p := fpVal fa (fwFtz e.fw) ((s.ctx e.ctx).lane e fa.width a.val i).toNat
      let z := match p with
        | .fin n m q => Num.fin n m (if m = 0 then 0 else q + intIn sg (BitVec.ofNat w (e.operand (s.ctx e.ctx) w src i).toNat))
        | v => v
      let r := toFp fd (e.mode rm i) z.exact
      (r.1, r.2 ||| sigFlag p)) := by
  have hw : 0 < w := (LaneWidth.of_fb hfb).pos
  refine (fbin_lanes hvq hcore hsound hfa hrm hop hfb hfd).congr fun _ i => ?_
  have hscale : ∀ (p : Num) (z : Int), scaleExact p z =
      (match p with | .fin n m q => Num.fin n m (if m = 0 then 0 else q + z) | v => v).exact := fun p z => by
    cases p with
    | fin n m q =>
      rw [scaleExact]
      split
      case isTrue h => simp [Num.exact, h]
      case isFalse h => simp [Num.exact, h]
    | nan | inf => rfl
  rw [ofNat_toNat_same, ← intOf_toNat_eq_intIn sg _ hw]
  exact Prod.ext (congrArg (fun z => (toFp fd (e.mode rm i) z).1) (hscale _ _))
    (congrArg₂ (fun z f => (toFp fd (e.mode rm i) z).2 ||| f) (hscale _ _) BitVec.or_zero)

/-- VFSQRT (R177). -/
theorem sqrt_lanes (hop : e.op = .fun1 .sqrt d a) (hfd : fdOf e.fw = .fp fd) :
    LaneWise s k e rest d fd.width (e.runs (s.ctx e.ctx)) (fun _ i =>
      let p := fpVal fa (fwFtz e.fw) ((s.ctx e.ctx).lane e fa.width a.val i).toNat
      let r := toFp fd (e.mode rm i) (sqrtExact p)
      (r.1, r.2 ||| sigFlag p)) :=
  fun1_lanes hvq hcore hsound hfa hrm hop hfd

/-- The estimates (R179). -/
theorem estimated_lanes (o : FUn) (f : Num → Exact) (ho : ∀ (fa fd : FpFmt) (r : Rounding) (x : Nat), o.eval (.fp fa) (.fp fd) r x =
      let v := estimate (f (fpVal fa r.ftz x))
      let z := toFp fd r v.1
      (z.1, z.2 ||| sigFlag (fpVal fa r.ftz x) ||| flagIf v.2 flagNX))
    (hop : e.op = .fun1 o d a) (hfd : fdOf e.fw = .fp fd) : LaneWise s k e rest d fd.width (e.runs (s.ctx e.ctx)) (fun _ i =>
      let p := fpVal fa (fwFtz e.fw) ((s.ctx e.ctx).lane e fa.width a.val i).toNat
      let v := estimate (f p)
      let r := toFp fd (e.mode rm i) v.1
      (r.1, r.2 ||| sigFlag p ||| if v.2 then 0x10 else 0)) :=
  (fun1_lanes hvq hcore hsound hfa hrm hop hfd).congr fun _ i => ho fa fd (e.mode rm i) _

/-- VFABS and VFNEG (R127, R177). -/
theorem sign_lanes (o : FUn) (neg : Bool) (ho : ∀ (f : FpFmt) (r : Rounding) (x : Nat),
      o.eval (.fp f) (.fp f) r x = (signBits f neg r.ftz x, 0))
    (hop : e.op = .fun1 o d a) (hfd : fdOf e.fw = .fp fa) : LaneWise s k e rest d fa.width (e.runs (s.ctx e.ctx)) (fun _ i =>
      let p := fa.readAs (fwFtz e.fw) ((s.ctx e.ctx).lane e fa.width a.val i).toNat
      let q := if fa.nanAt p then fa.oneNan else p
      (if neg then q ^^^ 2 ^ (fa.width - 1) else fa.magOf q, 0)) := by
  refine (fun1_lanes hvq hcore hsound hfa hrm hop hfd).congr fun _ i => ?_
  rw [ho]
  exact congrArg (·, 0) (signBits_lane neg (fwFtz e.fw) _)

/-- VPLSTEP (R191). -/
theorem plstep_values {p : Nat} (hop : e.op = .plstep d a b c) (hfd : fdOf e.fw = .pb p) :
    LaneWise s k e rest d (Fmt.width (.pb p)) (e.runs (s.ctx e.ctx)) (fun now i =>
      let v := fpVal fa (fwFtz e.fw) ((s.ctx e.ctx).lane e fa.width a.val i).toNat
      let S := (now.lane e 8 b.val (i / 32)).toNat
      let q := (((s.ctx e.ctx).lane e (Fmt.width (.pb p)) c.val i).setWidth (8 * p)).toInt
      let u := match v with
        | .fin n m z => Num.fin n m (z + (8 * (p : Int) - 1) - ((S : Int) - 127))
        | v => v
      let r := if S = 255 then (0, (0x01 : FFlags)) else toPlanar p (e.mode rm i) 0 (addNum rm (.fin (decide (q < 0)) q.natAbs 0) u)
      ((Fmt.pb p).held r.1, r.2 ||| sigFlag v)) := by
  have hp := pb_pos hfd
  refine (plstep_lanes hvq hcore hsound hfa hrm hop hfd).congr_low fun now i => ?_
  rw [intOf_lane (by omega : 0 < 8 * p)]
  exact ⟨ofNat_heldBits hfd _, rfl⟩
end

section
variable {s : State} {k : CoreId} {e : VEntry} {rest : List VEntry} (hvq : (s.core k.val).vq = e :: rest) (hcore : coreOf e.ctx = k.val)
  (hsound : e.sound) {d a b : VReg} {rm : RMode}
include hvq hcore hsound

/-- VFCLASS (R182). -/
theorem fclass_values {f : FpFmt} (hfa : faOf e.fw = .fp f) (hop : e.op = .fclass d a) :
    LaneWise s k e rest d (8 * 2 ^ e.es) (e.runs (s.ctx e.ctx)) (fun _ i =>
      (2 ^ f.classOf (f.readAs (fwFtz e.fw) ((s.ctx e.ctx).lane e f.width a.val i).toNat), 0)) :=
  (fclass_lanes hvq hcore hsound hfa hop rfl).congr fun _ _ => congrArg (·, 0) (classBits_lane _ _)

/-- VCVT (R180). -/
theorem cvt_values (hrm : RMode.ofCode (fwRM e.fw) = some rm) (hop : e.op = .cvt d a b) :
    LaneWise s k e rest d (fdOf e.fw).width (e.runs (s.ctx e.ctx)) (fun now i =>
      let S := (now.lane e 8 b.val (i / 32)).toNat
      let v := fmtVal (faOf e.fw) (fwFtz e.fw) S ((s.ctx e.ctx).lane e (faOf e.fw).width a.val i).toNat
      let r := toFmt (fdOf e.fw) (e.mode rm i) S v.exact
      ((fdOf e.fw).held r.1, r.2 ||| sigFlag v)) :=
  (cvt_lanes hvq hcore hsound rfl hrm hop rfl).congr_low fun _ _ => ⟨ofNat_heldBits rfl _, rfl⟩

/-- VPLRESC (R192). -/
theorem plresc_values (hrm : RMode.ofCode (fwRM e.fw) = some rm) {p q : Nat} (hop : e.op = .plresc d a b) (hfa : faOf e.fw = .pb p)
    (hfd : fdOf e.fw = .pb q) : LaneWise s k e rest d (Fmt.width (.pb q)) (e.runs (s.ctx e.ctx)) (fun now i =>
      let old := (now.lane e 8 b.val (2 * (i / 32))).toNat
      let new := (now.lane e 8 b.val (2 * (i / 32) + 1)).toNat
      let z := (((s.ctx e.ctx).lane e (Fmt.width (.pb p)) a.val i).setWidth (8 * p)).toInt
      let r := if new = 255 then (0, (0 : FFlags))
        else if old = 255 then (0, 0x01)
        else toPlanar q (e.mode rm i) 0
          (.fin (decide (z < 0)) z.natAbs ((old : Int) - (new : Int) + 8 * (q : Int) - 8 * (p : Int)) false)
      ((Fmt.pb q).held r.1, r.2)) := by
  have hp := pb_pos_fa hfa
  have hvalue := fun (now : Ctx) (i : Nat) => rescaled_eq p q (e.mode rm i) (now.lane e 8 b.val (2 * (i / 32))).toNat
    (now.lane e 8 b.val (2 * (i / 32) + 1)).toNat _ (intOf_lane (by omega) ((s.ctx e.ctx).lane e (Fmt.width (.pb p)) a.val i))
  refine (plresc_lanes hvq hcore hsound hfa hrm hop rfl hfd).congr_low fun now i => ?_
  dsimp only
  rw [hvalue, ofNat_heldBits hfd]
  exact ⟨rfl, rfl⟩
end

end Sys2Proof.Machine
end

section
/-! PROOF. Compares of floating-point elements of two formats, and the masks that they and the non-finite test write (R181, R183), for
O41. -/

namespace Sys2Proof.Machine

/-! The order of values of two formats. -/

/-- Finite numbers compare as their magnitudes do, counted in one unit no larger than theirs. -/
theorem cmpNum_units (n₁ : Bool) (m₁ : Nat) (e₁ : Int) (n₂ : Bool) (m₂ : Nat) (e₂ : Int) {q : Int} (h₁ : q ≤ e₁) (h₂ : q ≤ e₂) :
    cmpNum (.fin n₁ m₁ e₁) (.fin n₂ m₂ e₂) = Int.sign (signed n₁ (m₁ * 2 ^ (e₁ - q).toNat) - signed n₂ (m₂ * 2 ^ (e₂ - q).toNat)) := by
  have hsum := dyadicAdd_units n₁ m₁ e₁ (!n₂) m₂ e₂ q h₁ h₂
  have hneg : ∀ m : Nat, signed (!n₂) m = -signed n₂ m := fun m => by cases n₂ <;> simp [signed]
  rw [hneg, ← Int.sub_eq_add_neg] at hsum
  have hunit : Int.sign ((2 : Int) ^ (min e₁ e₂ - q).toNat) = 1 := Int.sign_eq_one_of_pos (by positivity)
  rw [cmpNum, ← hsum, Int.sign_mul, hunit, Int.mul_one]

theorem cmpNum_swap (x y : Num) : cmpNum y x = -cmpNum x y := by
  cases x with
  | nan => cases y with
    | inf b => cases b <;> rfl
    | _ => rfl
  | inf a => cases y with
    | nan => cases a <;> rfl
    | inf b => cases a <;> cases b <;> rfl
    | fin => cases a <;> rfl
  | fin n₁ m₁ e₁ => cases y with
    | nan => rfl
    | inf b => cases b <;> rfl
    | fin n₂ m₂ e₂ =>
      rw [cmpNum_units _ _ _ _ _ _ (min_le_right e₁ e₂) (min_le_left e₁ e₂),
        cmpNum_units _ _ _ _ _ _ (min_le_left e₁ e₂) (min_le_right e₁ e₂), ← Int.sign_neg, Int.neg_sub]

/-- A zero compares alike at every exponent. -/
theorem cmpNum_zero (n : Bool) (e e' : Int) (y : Num) : cmpNum (.fin n 0 e) y = cmpNum (.fin n 0 e') y := by
  cases y with
  | nan => rfl
  | inf => rfl
  | fin n₂ m₂ e₂ =>
    have hle : min e (min e' e₂) ≤ e ∧ min e (min e' e₂) ≤ e' ∧ min e (min e' e₂) ≤ e₂ := by omega
    obtain ⟨h, h', h₂⟩ := hle
    rw [cmpNum_units _ _ _ _ _ _ h h₂, cmpNum_units _ _ _ _ _ _ h' h₂, Nat.zero_mul, Nat.zero_mul]

/-- A finite pattern as a number at its own scale. -/
def FpFmt.number (f : FpFmt) (b : Nat) : Num := .fin (f.signOf b) (f.sigOf b) (f.scaleOf b)

theorem cmpNum_number (f : FpFmt) (b : Nat) (hnan : f.nanAt b = false) (hinf : f.infAt b = false) (y : Num) :
    cmpNum (fpVal f false b) y = cmpNum (f.number b) y := by
  rw [fpVal_eq, hnan, hinf, FpFmt.number]
  by_cases h0 : f.sigOf b = 0
  · simpa [h0] using cmpNum_zero _ _ _ _
  · simp [h0]

/-- The sign of an infinity; 0 for every other pattern. -/
def FpFmt.infSign (f : FpFmt) (b : Nat) : Int := if f.infAt b then (if f.signOf b then -1 else 1) else 0

theorem cmpNum_formats (f g : FpFmt) (a b : Nat) (ha : f.nanAt a = false) (hb : g.nanAt b = false) :
    cmpNum (fpVal f false a) (fpVal g false b) =
      let q := min (f.scaleOf a) (g.scaleOf b)
      Int.sign (if f.infSign a ≠ 0 ∨ g.infSign b ≠ 0 then f.infSign a - g.infSign b else f.unitsOf a q - g.unitsOf b q) := by
  unfold FpFmt.infSign
  cases hia : f.infAt a with
  | true =>
    rw [fpVal_infinite f a ha hia]
    cases hib : g.infAt b with
    | true =>
      rw [fpVal_infinite g b hb hib]
      cases f.signOf a <;> cases g.signOf b <;> rfl
    | false =>
      rw [cmpNum_swap, cmpNum_number g b hb hib]
      cases f.signOf a <;> rfl
  | false =>
    rw [cmpNum_number f a ha hia]
    cases hib : g.infAt b with
    | true =>
      rw [fpVal_infinite g b hb hib]
      cases g.signOf b <;> rfl
    | false =>
      rw [cmpNum_swap, cmpNum_number g b hb hib, ← cmpNum_swap]
      exact cmpNum_units _ _ _ _ _ _ (min_le_left _ _) (min_le_right _ _)

theorem fpBelow_eq (orEq : Bool) (f g : FpFmt) (a b : Nat) (ha : f.nanAt a = false) (hb : g.nanAt b = false) :
    fpBelow orEq f g a b = (decide (cmpNum (fpVal f false a) (fpVal g false b) < 0) ||
      (orEq && cmpNum (fpVal f false a) (fpVal g false b) == 0)) := by
  have hsign : ∀ x y : Int, (decide (x < y) || (orEq && decide (x = y))) =
      (decide (Int.sign (x - y) < 0) || (orEq && Int.sign (x - y) == 0)) := fun x y => by
    simp only [Int.sign_neg_iff, sub_neg, beq_eq_decide, Int.sign_eq_zero_iff_zero, sub_eq_zero]
  rw [cmpNum_formats f g a b ha hb]
  change (if f.infSign a ≠ 0 ∨ g.infSign b ≠ 0 then _ else _) = _
  dsimp only
  split
  · exact hsign _ _
  · exact hsign _ _

/-! Compares (R181). -/

theorem fpVal_lane {f : FpFmt} (ftz : Bool) (a : BitVec f.width) : fpVal f ftz a.toNat = fpVal f false (f.readAs ftz a.toNat) := by
  rw [fpVal_flush, Nat.mod_eq_of_lt a.isLt]

theorem sigFlags_fpVal (f g : FpFmt) (p q : Nat) :
    sigFlag (fpVal f false p) ||| sigFlag (fpVal g false q) = if f.sigAt p || g.sigAt q then 0x01 else 0 := by
  rw [sigFlag_fpVal, sigFlag_fpVal]
  cases f.sigAt p <;> cases g.sigAt q <;> rfl

theorem cmpEq_formats (f g : FpFmt) (p q : Nat) : cmpEq (fpVal f false p) (fpVal g false q) =
    (!(f.nanAt p || g.nanAt q) && fpBelow true f g p q && fpBelow true g f q p, if f.sigAt p || g.sigAt q then 0x01 else 0) := by
  rw [cmpEq, sigFlags_fpVal, isNan_fpVal, isNan_fpVal]
  cases hp : f.nanAt p
  · cases hq : g.nanAt q
    · rw [fpBelow_eq _ _ _ _ _ hp hq, fpBelow_eq _ _ _ _ _ hq hp, cmpNum_swap (fpVal f false p)]
      generalize cmpNum (fpVal f false p) (fpVal g false q) = z
      refine congrArg (·, _) (Bool.eq_iff_iff.2 ?_)
      simp
      omega
    · simp
  · simp

theorem cmpLt_formats (orEq : Bool) (f g : FpFmt) (p q : Nat) : cmpLt orEq (fpVal f false p) (fpVal g false q) =
    (!(f.nanAt p || g.nanAt q) && fpBelow orEq f g p q, if f.nanAt p || g.nanAt q then 0x01 else 0) := by
  rw [cmpLt, isNan_fpVal, isNan_fpVal]
  cases hp : f.nanAt p
  · cases hq : g.nanAt q
    · rw [fpBelow_eq _ _ _ _ _ hp hq]
      rfl
    · rfl
  · rfl

/-! Values that are no number (R183, R190). -/

def Num.nonFinite : Num → Bool
  | .fin _ _ _ => false
  | _ => true

theorem nonFinite_fpVal (f : FpFmt) (b : Nat) : (fpVal f false b).nonFinite = (f.nanAt b || f.infAt b) := by
  rw [fpVal_eq]
  cases f.nanAt b
  · cases f.infAt b
    · by_cases h0 : f.sigOf b = 0
      · simp [h0, Num.nonFinite]
      · simp [h0, Num.nonFinite]
    · rfl
  · rfl

/-! Masks, element by element. -/

/-- Context c is x but for flags, and for the bits of mask md named by `done`, which are `holds` and raise `flags`. -/
def Ctx.Marked (x c : Ctx) (md : MReg) (done : Nat → Prop) (holds : Nat → Bool) (flags : Nat → FFlags) : Prop :=
  c = { x with m := c.m, fstat := c.fstat } ∧ (∀ r, r ≠ md → c.m.get r = x.m.get r) ∧
  (∀ i < 2048, (done i → (c.m.get md).getLsbD i = holds i) ∧ (¬ done i → (c.m.get md).getLsbD i = (x.m.get md).getLsbD i)) ∧
  ∀ j < 7, c.fstat.getLsbD j = true ↔ x.fstat.getLsbD j = true ∨ ∃ i, done i ∧ (flags i).getLsbD j = true

namespace Ctx.Marked
variable {x c : Ctx} {md : MReg} {done done' : Nat → Prop} {holds : Nat → Bool} {flags : Nat → FFlags}

theorem congr (h : x.Marked c md done holds flags) (hdone : ∀ i, done i ↔ done' i) : x.Marked c md done' holds flags := by
  have hsame : done = done' := funext fun i => propext (hdone i)
  exact hsame ▸ h

theorem refl (x : Ctx) (md : MReg) (hnone : ∀ i, ¬ done i) (holds : Nat → Bool) (flags : Nat → FFlags) : x.Marked x md done holds flags :=
  ⟨rfl, fun _ _ => rfl, fun i _ => ⟨fun hd => absurd hd (hnone i), fun _ => rfl⟩, fun j _ => by simp [hnone]⟩

/-- A mask bit that is not yet written. -/
theorem bit (h : x.Marked c md done holds flags) (r : MReg) {i : Nat} (hi : i < 2048) (hd : ¬ done i) :
    (c.m.get r).getLsbD i = (x.m.get r).getLsbD i := by
  obtain ⟨-, hother, hbits, -⟩ := h
  by_cases hr : r = md
  · rw [hr]
    exact (hbits i hi).2 hd
  · rw [hother r hr]

/-- Another element is performed. -/
theorem mark (h : x.Marked c md done holds flags) (i : Nat) :
    x.Marked ((c.setMbit md i (holds i)).raiseFlags (flags i)) md (fun j => done j ∨ j = i) holds flags := by
  obtain ⟨hframe, hother, hbits, hflags⟩ := h
  refine ⟨?_, fun r hr => ?_, fun j hj => ?_, fun j hj => ?_⟩
  · rw [Ctx.raiseFlags, Ctx.setMbit, Ctx.setM, hframe]
  · exact (setM_get_other c _ hr).trans (hother r hr)
  · have hget : (((c.setMbit md i (holds i)).raiseFlags (flags i)).m.get md).getLsbD j =
        if j = i then holds i else (c.m.get md).getLsbD j := by
      refine (congrArg (BitVec.getLsbD · j) (setM_get_same c md _)).trans ?_
      rw [getLsbD_putBits _ _ _ _ _ hj]
      by_cases hij : j = i
      · subst hij
        rw [if_pos ⟨le_refl j, Nat.lt_succ_self j⟩, if_pos rfl, Nat.sub_self]
        cases holds j <;> rfl
      · rw [if_neg (by omega), if_neg hij]
    rw [hget]
    by_cases hij : j = i
    · subst hij
      exact ⟨fun _ => if_pos rfl, fun hnot => absurd (.inr rfl) hnot⟩
    · rw [if_neg hij]
      exact ⟨fun hd => (hbits j hj).1 (hd.resolve_right hij), fun hnot => (hbits j hj).2 fun hd => hnot (.inl hd)⟩
  · rw [Ctx.raiseFlags, BitVec.getLsbD_or, Bool.or_eq_true]
    refine (or_congr_left (hflags j hj)).trans ?_
    rw [or_assoc]
    refine or_congr_right ?_
    simp only [or_and_right, exists_or, exists_eq_left]
end Ctx.Marked

/-- VECTOR_EXECUTE writes `holds` to the bits of mask md at the elements performed, which raise `flags`, and changes nothing else
(R181). -/
def Marks (s : State) (k : CoreId) (e : VEntry) (rest : List VEntry) (md : MReg) (holds : Nat → Bool) (flags : Nat → FFlags) : Prop :=
  ∃ t y, exec (.vectorExecute k) s = .next t ∧ VectorDone s t k.val e rest y ∧
    (s.ctx e.ctx).Marked y md (e.runs (s.ctx e.ctx)) holds flags

theorem Marks.congr {s : State} {k : CoreId} {e : VEntry} {rest : List VEntry} {md : MReg} {holds holds' : Nat → Bool}
    {flags flags' : Nat → FFlags} (h : Marks s k e rest md holds flags) (hholds : ∀ i, holds i = holds' i)
    (hflags : ∀ i, flags i = flags' i) : Marks s k e rest md holds' flags' :=
  funext hholds ▸ funext hflags ▸ h

section
variable {s : State} {k : CoreId} {e : VEntry} {rest : List VEntry} (hvq : (s.core k.val).vq = e :: rest) (hcore : coreOf e.ctx = k.val)
  (hsound : e.sound)
include hvq hcore hsound

/-- An instruction that writes a mask bit for each element that it performs. -/
theorem marked_of_element {md : MReg} {holds : Nat → Bool} {flags : Nat → FFlags} (hlane : e.op.byLane = true)
    (hperf : ∀ c i, e.performs c i = c.active e.mask i)
    (helem : ∀ c i, c.v = (s.ctx e.ctx).v → e.element c i = (c.setMbit md i (holds i)).raiseFlags (flags i)) :
    Marks s k e rest md holds flags := by
  unfold Marks
  have hvl : e.vl ≤ 2048 := hsound.vl.trans (min_le_left _ _)
  obtain ⟨t, hexec, hdone⟩ := vectorDone_byLane hvq hcore hsound hlane
  generalize s.ctx e.ctx = x at *
  have hmarked : ∀ i, x.Marked (sweep e.perform e.pos e.vl x i) md (fun j => e.runs x j ∧ j < i) holds flags := by
    intro i
    induction i with
    | zero => exact .refl x md (fun j hj => absurd hj.2 (Nat.not_lt_zero j)) _ _
    | succ i ih =>
      have hskip : ¬ e.runs x i → ∀ j, e.runs x j ∧ j < i ↔ e.runs x j ∧ j < i + 1 := fun hrun j =>
        and_congr_right fun hj => ⟨fun h => Nat.lt_succ_of_lt h, fun h => lt_of_le_of_ne (Nat.le_of_lt_succ h) fun heq => hrun (heq ▸ hj)⟩
      rw [sweep]
      split
      case isFalse hin => exact ih.congr (hskip fun hrun => hin hrun.range)
      case isTrue hin =>
        have hact : e.performs (sweep e.perform e.pos e.vl x i) i = true ↔ e.runs x i := by
          rw [hperf, active_iff, ih.bit _ (hin.2.trans_le hvl) fun h => Nat.lt_irrefl i h.2]
          exact ⟨fun h => ⟨hin.1, hin.2, h⟩, fun h => h.active⟩
        rw [VEntry.perform]
        split
        case isFalse hperf => exact ih.congr (hskip fun hrun => hperf (hact.2 hrun))
        case isTrue hperf =>
          have hrun := hact.1 hperf
          rw [helem _ i (by rw [ih.1])]
          refine (ih.mark i).congr fun j => ⟨?_, fun ⟨hj, hlt⟩ => ?_⟩
          · rintro (⟨hj, hlt⟩ | rfl)
            · exact ⟨hj, Nat.lt_succ_of_lt hlt⟩
            · exact ⟨hrun, Nat.lt_succ_self j⟩
          · exact (Nat.lt_succ_iff_lt_or_eq.1 hlt).imp_left (⟨hj, ·⟩)
  exact ⟨t, _, hexec, hdone, (hmarked e.vl).congr fun j => ⟨And.left, fun hj => ⟨hj, hj.lt⟩⟩⟩

variable {a b : VReg} {md : MReg} {fa fb : FpFmt} (hfa : faOf e.fw = .fp fa)
include hfa

/-- The compares (R181). -/
theorem fcmp_marks {o : FCmp} (hop : e.op = .fcmp o md a b) (hfb : fbOf e.fw = .fp fb) :
    let p := fun i => fa.readAs (fwFtz e.fw) ((s.ctx e.ctx).lane e fa.width a.val i).toNat
    let q := fun i => fb.readAs (fwFtz e.fw) ((s.ctx e.ctx).lane e fb.width b.val i).toNat
    Marks s k e rest md (fun i => (o.eval (fpVal fa false (p i)) (fpVal fb false (q i))).1)
      (fun i => (o.eval (fpVal fa false (p i)) (fpVal fb false (q i))).2) := by
  refine marked_of_element hvq hcore hsound (by rw [hop]; rfl) (fun c i => by rw [VEntry.performs, hop]) fun c i hv => ?_
  have hlane : ∀ (w : Nat) (r : VReg), (s.ctx e.ctx).lane e w r.val i = c.lane e w r.val i := fun w r => by rw [Ctx.lane, Ctx.lane, hv]
  rw [← fpVal_lane, ← fpVal_lane, hlane, hlane]
  simp only [VEntry.element, hop, hfa, hfb]
  rfl

/-- The non-finite test (R183). -/
theorem nf_marks (hop : e.op = .nf md a) :
    let v := fun i => fpVal fa false (fa.readAs (fwFtz e.fw) ((s.ctx e.ctx).lane e fa.width a.val i).toNat)
    Marks s k e rest md (fun i => (v i).nonFinite) (fun i => flagIf (v i).nonFinite flagNF) := by
  refine marked_of_element hvq hcore hsound (by rw [hop]; rfl) (fun c i => by rw [VEntry.performs, hop]) fun c i hv => ?_
  have hlane : (s.ctx e.ctx).lane e fa.width a.val i = c.lane e fa.width a.val i := by rw [Ctx.lane, Ctx.lane, hv]
  dsimp only
  rw [← fpVal_lane, hlane]
  simp only [VEntry.element, hop, hfa]
  rfl
end

end Sys2Proof.Machine
end

section
/-! PROOF. VPLHEAD: the scale of each block of 32 elements (R190), for O41. -/

namespace Sys2Proof.Machine

/-! The largest magnitude of a block. -/

theorem cmpNum_le_units {m m' : Nat} {e e' q : Int} (h : q ≤ e) (h' : q ≤ e') :
    cmpNum (.fin false m e) (.fin false m' e') ≤ 0 ↔ m * 2 ^ (e - q).toNat ≤ m' * 2 ^ (e' - q).toNat := by
  rw [cmpNum_units _ _ _ _ _ _ h h', Int.sign_nonpos_iff]
  simp only [signed, Bool.false_eq_true, if_false]
  omega

theorem cmpNum_le_trans {m₁ m₂ m₃ : Nat} {e₁ e₂ e₃ : Int} (h : cmpNum (.fin false m₁ e₁) (.fin false m₂ e₂) ≤ 0)
    (h' : cmpNum (.fin false m₂ e₂) (.fin false m₃ e₃) ≤ 0) : cmpNum (.fin false m₁ e₁) (.fin false m₃ e₃) ≤ 0 := by
  have hle : min e₁ (min e₂ e₃) ≤ e₁ ∧ min e₁ (min e₂ e₃) ≤ e₂ ∧ min e₁ (min e₂ e₃) ≤ e₃ := by omega
  obtain ⟨h₁, h₂, h₃⟩ := hle
  rw [cmpNum_le_units h₁ h₂] at h
  rw [cmpNum_le_units h₂ h₃] at h'
  exact (cmpNum_le_units h₁ h₃).2 (h.trans h')

theorem cmpNum_zero_le (m : Nat) (e e' : Int) : cmpNum (.fin false 0 e) (.fin false m e') ≤ 0 := by
  rw [cmpNum_le_units (min_le_left e e') (min_le_right e e'), Nat.zero_mul]
  exact Nat.zero_le _

theorem cmpNum_self_le (m : Nat) (e : Int) : cmpNum (.fin false m e) (.fin false m e) ≤ 0 := by
  rw [cmpNum_le_units (le_refl e) (le_refl e)]

/-- A number at most 0 is 0. -/
theorem eq_zero_of_cmpNum_le {m : Nat} {e e' : Int} (h : cmpNum (.fin false m e) (.fin false 0 e') ≤ 0) : m = 0 := by
  rw [cmpNum_le_units (min_le_left e e') (min_le_right e e'), Nat.zero_mul, Nat.le_zero, Nat.mul_eq_zero] at h
  exact h.resolve_right (Nat.two_pow_pos _).ne'

/-- The larger of two magnitudes. -/
def largerMag (m v : Num) : Num :=
  match v with
  | .fin _ k x => if cmpNum m (.fin false k x) < 0 then .fin false k x else m
  | _ => m

/-- The largest of the magnitudes of finite values and an initial one: it is one of them, and none is above it. -/
theorem foldl_largerMag (l : List Num) (hfin : ∀ v ∈ l, v.nonFinite = false) (m₀ : Nat) (e₀ : Int) :
    ∃ m e, l.foldl largerMag (.fin false m₀ e₀) = .fin false m e ∧ (m = m₀ ∧ e = e₀ ∨ ∃ n, Num.fin n m e ∈ l) ∧
      cmpNum (.fin false m₀ e₀) (.fin false m e) ≤ 0 ∧ ∀ n k x, Num.fin n k x ∈ l → cmpNum (.fin false k x) (.fin false m e) ≤ 0 := by
  induction l generalizing m₀ e₀ with
  | nil => exact ⟨m₀, e₀, rfl, .inl ⟨rfl, rfl⟩, cmpNum_self_le _ _, fun n k x h => nomatch h⟩
  | cons v l ih =>
    have hv := hfin v (List.mem_cons_self ..)
    have hl := fun u hu => hfin u (List.mem_cons_of_mem v hu)
    cases v with
    | nan | inf => cases hv
    | fin n k x =>
      rw [List.foldl_cons]
      by_cases hlt : cmpNum (.fin false m₀ e₀) (.fin false k x) < 0
      · obtain ⟨m, e, hfold, hmem, hle, hall⟩ := ih hl k x
        refine ⟨m, e, ?_, .inr ?_, cmpNum_le_trans (Int.le_of_lt hlt) hle, fun n' k' x' hin => ?_⟩
        · rw [largerMag, if_pos hlt, hfold]
        · rcases hmem with ⟨rfl, rfl⟩ | ⟨n', hin⟩
          · exact ⟨n, List.mem_cons_self ..⟩
          · exact ⟨n', List.mem_cons_of_mem _ hin⟩
        · rcases List.mem_cons.1 hin with heq | hin
          · cases heq
            exact hle
          · exact hall n' k' x' hin
      · obtain ⟨m, e, hfold, hmem, hle, hall⟩ := ih hl m₀ e₀
        have hback : cmpNum (.fin false k x) (.fin false m₀ e₀) ≤ 0 := by
          rw [cmpNum_swap]
          omega
        refine ⟨m, e, ?_, hmem.imp_right fun ⟨n', hin⟩ => ⟨n', List.mem_cons_of_mem _ hin⟩, hle, fun n' k' x' hin => ?_⟩
        · rw [largerMag, if_neg hlt, hfold]
        · rcases List.mem_cons.1 hin with heq | hin
          · cases heq
            exact cmpNum_le_trans hback hle
          · exact hall n' k' x' hin

/-! The scale of a magnitude. -/

/-- The largest magnitude of a block of p planes under scale s. -/
def planarTop (p s : Nat) : Num := .fin false (2 ^ (8 * p - 1) - 1) ((s : Int) - 127 - (8 * (p : Int) - 1))

theorem plheadScale_found {p m S : Nat} {x : Int} (sat : Bool) (hm : m ≠ 0) (hS : S ≤ 254)
    (hfit : cmpNum (.fin false m x) (planarTop p S) ≤ 0) (hleast : ∀ S' < S, ¬ cmpNum (.fin false m x) (planarTop p S') ≤ 0) :
    plheadScale p sat m x = (S, 0) := by
  have hfind : (List.range 255).find? (fun s => decide (cmpNum (.fin false m x) (planarTop p s) ≤ 0)) = some S := by
    rw [List.find?_range_eq_some]
    exact ⟨decide_eq_true hfit, List.mem_range.2 (by omega), fun j hj => by simpa using hleast j hj⟩
  rw [plheadScale, if_neg hm]
  unfold planarTop at hfind
  rw [hfind]

theorem plheadScale_none {p m : Nat} {x : Int} (sat : Bool) (hm : m ≠ 0)
    (hnone : ∀ S ≤ 254, ¬ cmpNum (.fin false m x) (planarTop p S) ≤ 0) :
    plheadScale p sat m x = if sat then (254, 0x20) else (255, 0x04) := by
  have hfind : (List.range 255).find? (fun s => decide (cmpNum (.fin false m x) (planarTop p s) ≤ 0)) = none := by
    rw [List.find?_eq_none]
    exact fun S hS => by simpa using hnone S (by have := List.mem_range.1 hS; omega)
  rw [plheadScale, if_neg hm]
  unfold planarTop at hfind
  rw [hfind]
  rfl

/-- The magnitude of a finite pattern: as a number, as a zero, and as one that a scale holds (R190). -/
theorem magnitude_fpVal (f : FpFmt) (b : Nat) (hnan : f.nanAt b = false) (hinf : f.infAt b = false) :
    ∃ n m e, fpVal f false b = .fin n m e ∧ (m = 0 ↔ f.magOf b = 0) ∧
      ∀ p s, f.fits b p s ↔ cmpNum (.fin false m e) (planarTop p s) ≤ 0 := by
  have hfits : ∀ p s, f.fits b p s ↔ cmpNum (.fin false (f.sigOf b) (f.scaleOf b)) (planarTop p s) ≤ 0 := fun p s =>
    (cmpNum_le_units (min_le_left _ _) (min_le_right _ _)).symm
  rw [fpVal_eq, hnan, hinf]
  by_cases h0 : f.sigOf b = 0
  · refine ⟨f.signOf b, 0, 0, by simp [h0], by simp [(f.sigOf_eq_zero b).1 h0], fun p s => ?_⟩
    rw [hfits, h0, cmpNum_zero]
  · exact ⟨f.signOf b, f.sigOf b, f.scaleOf b, by simp [h0], f.sigOf_eq_zero b, hfits⟩

/-! One block. -/

/-- The elements of block n that are performed. -/
def VEntry.blockElements (e : VEntry) (c : Ctx) (n : Nat) : List Nat :=
  ((List.range 32).map (32 * n + ·)).filter (fun i => decide (i < e.vl) && c.active e.mask i)

theorem mem_blockElements (e : VEntry) (c : Ctx) (n i : Nat) : i ∈ e.blockElements c n ↔
    i / 32 = n ∧ i < e.vl ∧ (e.mask = 0 ∨ (c.m.get (maskReg e.mask)).getLsbD i = true) := by
  simp only [VEntry.blockElements, List.mem_filter, List.mem_map, List.mem_range, Bool.and_eq_true, decide_eq_true_eq, active_iff]
  refine and_congr_left fun _ => ⟨?_, fun h => ⟨i % 32, by omega, by omega⟩⟩
  rintro ⟨j, hj, rfl⟩
  omega

/-- The scale of a block from the values of its elements, and the flag (R190). -/
def headScale (p : Nat) (sat : Bool) (vs : List Num) : Nat × FFlags :=
  if vs.any Num.nonFinite then (255, vs.foldl (fun f v => f ||| sigFlag v) 0)
  else match vs.foldl largerMag (.fin false 0 0) with
    | .fin _ m x => plheadScale p sat m x
    | _ => (0, 0)

theorem plheadBlock_eq {e : VEntry} {fa : FpFmt} {p : Nat} (hfa : faOf e.fw = .fp fa) (hfd : fdOf e.fw = .pb p) (d a : VReg) (c : Ctx)
    (n : Nat) : e.plheadBlock d a c n = e.put c d 8 n (headScale p (fwSat e.fw)
      ((e.blockElements c n).map fun i => fpVal fa (fwFtz e.fw) (c.lane e fa.width a.val i).toNat)) := by
  unfold VEntry.plheadBlock
  simp only [hfa, hfd]
  rfl

section
variable {fa : FpFmt} {p : Nat} {sat : Bool} {xs : List Nat} {z : Nat → Nat}

/-- A block with a NaN or an infinity. -/
theorem headScale_bad (hbad : ∃ i ∈ xs, fa.nanAt (z i) = true ∨ fa.infAt (z i) = true) :
    let y := headScale p sat (xs.map fun i => fpVal fa false (z i))
    y.1 = 255 ∧ ((∃ i ∈ xs, fa.sigAt (z i) = true) → y.2 = 0x01) ∧ ((∀ i ∈ xs, fa.sigAt (z i) = false) → y.2 = 0) := by
  intro y
  have hany : (xs.map fun i => fpVal fa false (z i)).any Num.nonFinite = true := by
    obtain ⟨i, hi, h⟩ := hbad
    exact List.any_eq_true.2 ⟨_, List.mem_map_of_mem hi, by rw [nonFinite_fpVal]; simpa using h⟩
  have hy : y = (255, (xs.map fun i => fpVal fa false (z i)).foldl (fun f v => f ||| sigFlag v) 0) := if_pos hany
  have hbits : ∀ j, y.2.getLsbD j = true ↔ (0 : FFlags).getLsbD j = true ∨ ∃ i, i ∈ xs ∧ (sigFlag (fpVal fa false (z i))).getLsbD j = true :=
    fun j => by
      rw [hy, getLsbD_foldl_or]
      simp
  have hsig : ∀ i, fa.sigAt (z i) = true → sigFlag (fpVal fa false (z i)) = 0x01 := fun i h => by rw [sigFlag_fpVal, if_pos h]
  have hquiet : ∀ i, fa.sigAt (z i) = false → sigFlag (fpVal fa false (z i)) = 0 := fun i h => by rw [sigFlag_fpVal, h]; rfl
  refine ⟨by rw [hy], fun ⟨i, hi, h⟩ => ?_, fun hnone => fstat_eq_self hbits fun i hi => hquiet i (hnone i hi)⟩
  refine (fstat_eq_or hbits ⟨i, hi, hsig i h⟩ fun j _ => ?_).trans BitVec.zero_or
  exact (Bool.eq_false_or_eq_true (fa.sigAt (z j))).imp (hsig j) (hquiet j)

/-- A block of finite numbers: its scale is that of one magnitude, which is zero where all are and fits where all fit. -/
theorem headScale_finite (hfin : ∀ i ∈ xs, ¬ (fa.nanAt (z i) = true ∨ fa.infAt (z i) = true)) :
    ∃ m e, headScale p sat (xs.map fun i => fpVal fa false (z i)) = plheadScale p sat m e ∧ (m = 0 ↔ ∀ i ∈ xs, fa.magOf (z i) = 0) ∧
      ∀ S, (∀ i ∈ xs, fa.fits (z i) p S) ↔ cmpNum (.fin false m e) (planarTop p S) ≤ 0 := by
  have hall : ∀ v ∈ xs.map fun i => fpVal fa false (z i), v.nonFinite = false := fun v hv => by
    obtain ⟨i, hi, rfl⟩ := List.mem_map.1 hv
    have h := hfin i hi
    rw [nonFinite_fpVal]
    simpa using h
  have hmag : ∀ i ∈ xs, ∃ n m e, fpVal fa false (z i) = .fin n m e ∧ (m = 0 ↔ fa.magOf (z i) = 0) ∧
      ∀ p s, fa.fits (z i) p s ↔ cmpNum (.fin false m e) (planarTop p s) ≤ 0 := fun i hi =>
    magnitude_fpVal fa (z i) (by simpa using fun h => hfin i hi (.inl h)) (by simpa using fun h => hfin i hi (.inr h))
  obtain ⟨m, e, hfold, hmem, -, habove⟩ := foldl_largerMag _ hall 0 0
  have hbelow : ∀ i ∈ xs, ∀ n k x, fpVal fa false (z i) = .fin n k x → cmpNum (.fin false k x) (.fin false m e) ≤ 0 :=
    fun i hi n k x h => habove n k x (h ▸ List.mem_map_of_mem hi)
  have hone : m = 0 ∨ ∃ i ∈ xs, ∃ n, fpVal fa false (z i) = .fin n m e := by
    refine hmem.imp And.left fun ⟨n, hin⟩ => ?_
    obtain ⟨i, hi, h⟩ := List.mem_map.1 hin
    exact ⟨i, hi, n, h⟩
  refine ⟨m, e, ?_, ⟨fun hm i hi => ?_, fun hzero => ?_⟩, fun S => ⟨fun hfit => ?_, fun hfit i hi => ?_⟩⟩
  · rw [headScale, if_neg (by simpa using hall), hfold]
  · obtain ⟨n, k, x, hval, hzero, -⟩ := hmag i hi
    subst hm
    exact hzero.1 (eq_zero_of_cmpNum_le (hbelow i hi n k x hval))
  · rcases hone with hm | ⟨i, hi, n, hval⟩
    · exact hm
    · obtain ⟨n', k, x, hval', hk, -⟩ := hmag i hi
      rw [hval] at hval'
      cases hval'
      exact hk.2 (hzero i hi)
  · rcases hone with rfl | ⟨i, hi, n, hval⟩
    · exact cmpNum_zero_le _ _ _
    · obtain ⟨n', k, x, hval', -, hfits⟩ := hmag i hi
      rw [hval] at hval'
      cases hval'
      exact (hfits p S).1 (hfit i hi)
  · obtain ⟨n, k, x, hval, -, hfits⟩ := hmag i hi
    exact (hfits p S).2 (cmpNum_le_trans (hbelow i hi n k x hval) hfit)

/-- The scale of a block of finite numbers is the least that all fit. -/
theorem headScale_least (hfin : ∀ i ∈ xs, ¬ (fa.nanAt (z i) = true ∨ fa.infAt (z i) = true)) :
    let y := headScale p sat (xs.map fun i => fpVal fa false (z i))
    let zero := ∀ i ∈ xs, fa.magOf (z i) = 0
    let fit := fun S => ∀ i ∈ xs, fa.fits (z i) p S
    (zero → y = (0, 0)) ∧ (∀ S ≤ 254, ¬ zero → fit S → (∀ S' < S, ¬ fit S') → y = (S, 0)) ∧
      (¬ zero → (∀ S ≤ 254, ¬ fit S) → y = if sat then (254, 0x20) else (255, 0x04)) := by
  intro y zero fit
  obtain ⟨m, x, hy, hzero, hfit⟩ := headScale_finite (p := p) (sat := sat) hfin
  refine ⟨fun h => hy.trans ?_, fun S hS h hthis hleast => hy.trans ?_, fun h hnone => hy.trans ?_⟩
  · exact if_pos (hzero.2 h)
  · exact plheadScale_found sat (mt hzero.1 h) hS ((hfit S).1 hthis) fun S' hS' => mt (hfit S').2 (hleast S' hS')
  · exact plheadScale_none sat (mt hzero.1 h) fun S hS => mt (hfit S).2 (hnone S hS)
end

/-! All blocks. -/

/-- The scales of a group lie within its registers. -/
theorem le_scaleCount (L : Nat) : 512 ≤ scaleCount L 1 * 2 ^ L := by
  unfold scaleCount
  by_cases hL : L ≤ 9
  · have hdvd : 2 ^ L ∣ 512 * 1 := Nat.pow_dvd_pow 2 hL
    calc 512 = 512 * 1 / 2 ^ L * 2 ^ L := (Nat.div_mul_cancel hdvd).symm
      _ ≤ _ := Nat.mul_le_mul_right _ (le_max_right _ _)
  · calc 512 ≤ 2 ^ L := Nat.pow_le_pow_right (n := 2) (by decide) (by omega : 9 ≤ L)
      _ = 1 * 2 ^ L := (Nat.one_mul _).symm
      _ ≤ _ := Nat.mul_le_mul_right _ (le_max_left _ _)

/-- The source of VPLHEAD in the context in which block n is performed: it lies apart from the scales, or begins where they do and is
written more slowly than it is read. -/
theorem VEntry.sound.plheadSource {e : VEntry} (h : e.sound) {d a : VReg} (hop : e.op = .plhead d a) {x c : Ctx} {n i : Nat}
    (hn : i / 32 = n) (hi : i < e.vl) (hc : x.WrittenBelow c e.lenLog d.val (n * 8)) :
    c.lane e (faOf e.fw).width a.val i = x.lane e (faOf e.fw).width a.val i := by
  have hgs : e.op.groups e.lenLog e.es e.grp e.fw = (false, [⟨d.val, 16 * scaleCount e.lenLog 1, true⟩,
      grpW e.es e.grp (faOf e.fw).width a false]) := by rw [hop]; rfl
  have hw := laneWidth_fa e.fw
  have hgroup : InGroup e (faOf e.fw).width a := h.inGroup (dst := false) hgs hw (by simp)
  have hlane := lane_in_group h.es hw hgroup.whole (hi.trans_le h.vl)
  have hroom := hgroup.fits
  obtain ⟨-, hmeet⟩ := groupsOk_source (d := ⟨d.val, 16 * scaleCount e.lenLog 1, true⟩) (h.groups hgs) (by simp) (List.mem_cons_of_mem _
    (List.mem_singleton.2 rfl)) rfl rfl
  have hvl : e.vl ≤ 2048 := h.vl.trans (min_le_left _ _)
  have hreg : i * (faOf e.fw).width / 2 ^ e.lenLog < groupCount16 e.es e.grp (faOf e.fw).width / 16 :=
    (Nat.div_lt_iff_lt_mul (Nat.two_pow_pos _)).2 (by have := hw.pos; omega)
  refine hc.lane (by omega) ?_
  rcases hmeet with hapart | ⟨-, hsame, -⟩
  · have houtside : ¬ (d.val < a.val + groupCount16 e.es e.grp (faOf e.fw).width / 16 ∧ a.val < d.val + 16 * scaleCount e.lenLog 1 / 16) :=
      of_decide_eq_false hapart
    rw [Nat.mul_div_cancel_left _ (by decide)] at houtside
    by_cases hlow : a.val + i * (faOf e.fw).width / 2 ^ e.lenLog < d.val
    · exact .inl hlow
    · have hscales := (le_scaleCount e.lenLog).trans (Nat.mul_le_mul_right (2 ^ e.lenLog) (by omega : scaleCount e.lenLog 1 ≤ a.val - d.val))
      exact .inr ⟨by omega, by omega⟩
  · refine .inr ⟨le_of_eq hsame, ?_⟩
    have hfour : 4 ≤ (faOf e.fw).width := Nat.le_of_dvd hw.pos hw.four_dvd
    have hmul := Nat.mul_le_mul_left i hfour
    omega

/-- The patterns of which VPLHEAD finds the scale. -/
def VEntry.headPatterns (e : VEntry) (fa : FpFmt) (a : VReg) (x : Ctx) (i : Nat) : Nat :=
  fa.readAs (fwFtz e.fw) (x.lane e fa.width a.val i).toNat

/-- The scale of block n, and its flag. -/
def VEntry.head (e : VEntry) (fa : FpFmt) (p : Nat) (a : VReg) (x : Ctx) (n : Nat) : Nat × FFlags :=
  headScale p (fwSat e.fw) ((e.blockElements x n).map fun i => fpVal fa false (e.headPatterns fa a x i))

theorem plhead_lanes {s : State} {k : CoreId} {e : VEntry} {rest : List VEntry} (hvq : (s.core k.val).vq = e :: rest)
    (hcore : coreOf e.ctx = k.val) (hsound : e.sound) {d a : VReg} {fa : FpFmt} {p : Nat} (hop : e.op = .plhead d a)
    (hfa : faOf e.fw = .fp fa) (hfd : fdOf e.fw = .pb p) :
    LaneWise s k e rest d 8 (fun n => e.pos / 32 ≤ n ∧ 32 * n < e.vl) (fun _ n => e.head fa p a (s.ctx e.ctx) n) := by
  have hvl : e.vl ≤ 2048 := hsound.vl.trans (min_le_left _ _)
  have hgs : e.op.groups e.lenLog e.es e.grp e.fw = (false, [⟨d.val, 16 * scaleCount e.lenLog 1, true⟩,
      grpW e.es e.grp (faOf e.fw).width a false]) := by rw [hop]; rfl
  have hroom : (e.vl + 31) / 32 * 8 ≤ (32 - d.val) * 2 ^ e.lenLog := by
    obtain ⟨-, -, -, hfits⟩ := of_decide_eq_true (groupsOk_mem (h := hsound.groups hgs) (List.mem_cons_self ..))
    rw [Nat.mul_div_cancel_left _ (by decide)] at hfits
    dsimp only at hfits
    have hscales := (le_scaleCount e.lenLog).trans (Nat.mul_le_mul_right (2 ^ e.lenLog) (Nat.le_sub_of_add_le' hfits))
    omega
  obtain ⟨hL, hS⟩ := hsound.uncounted
  obtain ⟨t, hexec, hdone⟩ := vectorDone_arith hvq hcore (fun st md r h => by rw [hop] at h; cases h) hL hS
  have harith : e.arith (s.ctx e.ctx) e.limit =
      sweep (e.plheadBlock d a) (e.pos / 32) ((e.vl + 31) / 32) (s.ctx e.ctx) ((e.vl + 31) / 32) := by
    have hlimit : e.limit = e.vl := by rw [VEntry.limit, hop]
    rw [hlimit, VEntry.arith, hop]
    exact sweep_of_rec (F := e.plheadFrom d a) (step := e.plheadBlock d a) (fun _ _ => rfl) (fun _ _ _ => rfl) _ _ _
  rw [harith] at hdone
  refine laneWise_of_writes hexec hdone hsound ⟨3, by decide, by decide, rfl⟩ hroom (fun n hn => ⟨hn.1, by omega⟩) fun n c hlo hhi hc =>
    ⟨fun _ => ?_, fun hnot => absurd ⟨hlo, by omega⟩ hnot⟩
  have hsame : e.blockElements c n = e.blockElements (s.ctx e.ctx) n := by simp only [VEntry.blockElements, hc.active]
  rw [plheadBlock_eq hfa hfd, VEntry.head, hsame]
  refine congrArg (fun vs => e.put c d 8 n (headScale p (fwSat e.fw) vs)) (List.map_congr_left fun i hi => ?_)
  obtain ⟨hblock, hin, -⟩ := (mem_blockElements e _ n i).1 hi
  have hlane := hsound.plheadSource hop hblock hin hc
  rw [hfa] at hlane
  rw [VEntry.headPatterns, ← fpVal_lane]
  exact congrArg (fun y => fpVal fa (fwFtz e.fw) (BitVec.toNat y)) hlane

end Sys2Proof.Machine
end

section
/-! PROOF. O41: completion, and the values of the floating-point and planar instructions, put together. -/

open Sys2Proof Sys2Proof.Machine

/-- Settles O41. Every instruction completes, since performing it changes registers alone; the values are those of one element, of one
mask bit, or of one block. -/
theorem vectorUnitCompletes : Obligations.VectorUnitCompletes := by
  unfold Obligations.VectorUnitCompletes
  refine ⟨fun s k e rest hvq hcore hmem hL hS => ?_, fun s k e rest d a b c src fa fb fd rm hvq hcore hsound hfa hrm => ?_,
    fun s k e rest d a b rm hvq hcore hsound hrm => ?_, fun s k e rest a b md fa fb hvq hcore hsound hfa => ?_,
    fun s k e rest d a fa p hvq hcore hsound hop hfa hfd => ?_⟩
  · obtain ⟨t, hexec, hdone⟩ := vectorDone_arith hvq hcore hmem hL hS
    exact ⟨t, _, hexec, hdone, arith_regsOnly e _ _⟩
  · exact ⟨two_lanes hvq hcore hsound hfa hrm .add addNum fun _ _ _ _ _ _ => rfl,
      two_lanes hvq hcore hsound hfa hrm .sub (fun rm p q => addNum rm p (negNum q)) fun _ _ _ _ _ _ => rfl,
      two_lanes hvq hcore hsound hfa hrm .mul (fun _ => mulExact) fun _ _ _ _ _ _ => rfl,
      two_lanes hvq hcore hsound hfa hrm .div (fun _ => divExact) fun _ _ _ _ _ _ => rfl,
      same_lanes hvq hcore hsound hfa hrm .min false fun _ _ _ _ => rfl,
      same_lanes hvq hcore hsound hfa hrm .max true fun _ _ _ _ => rfl,
      fun w sg => scale_lanes hvq hcore hsound hfa hrm,
      sqrt_lanes hvq hcore hsound hfa hrm,
      estimated_lanes hvq hcore hsound hfa hrm .rcp (divExact (.fin false 1 0)) fun _ _ _ _ => rfl,
      estimated_lanes hvq hcore hsound hfa hrm .rsq rsqrtExact fun _ _ _ _ => rfl,
      estimated_lanes hvq hcore hsound hfa hrm .exp2 exp2Exact fun _ _ _ _ => rfl,
      estimated_lanes hvq hcore hsound hfa hrm .log2 log2Exact fun _ _ _ _ => rfl,
      sign_lanes hvq hcore hsound hfa hrm .abs false fun _ _ _ => rfl,
      sign_lanes hvq hcore hsound hfa hrm .neg true fun _ _ _ => rfl,
      fun neg => fma_lanes hvq hcore hsound hfa hrm, fclass_values hvq hcore hsound hfa, fun p => plstep_values hvq hcore hsound hfa hrm⟩
  · exact ⟨cvt_values hvq hcore hsound hrm, fun p q => plresc_values hvq hcore hsound hrm⟩
  · have hmarks := fun (o : FCmp) (hop : e.op = .fcmp o md a b) hfb => fcmp_marks (fb := fb) hvq hcore hsound hfa hop hfb
    have heq := fun i => cmpEq_formats fa fb (e.headPatterns fa a (s.ctx e.ctx) i) (e.headPatterns fb b (s.ctx e.ctx) i)
    have hlt := fun orEq i => cmpLt_formats orEq fa fb (e.headPatterns fa a (s.ctx e.ctx) i) (e.headPatterns fb b (s.ctx e.ctx) i)
    exact ⟨fun hop hfb => (hmarks .eq hop hfb).congr (fun i => congrArg Prod.fst (heq i)) fun i => congrArg Prod.snd (heq i),
      fun hop hfb => (hmarks .lt hop hfb).congr (fun i => congrArg Prod.fst (hlt false i)) fun i => congrArg Prod.snd (hlt false i),
      fun hop hfb => (hmarks .le hop hfb).congr (fun i => congrArg Prod.fst (hlt true i)) fun i => congrArg Prod.snd (hlt true i),
      fun hop hfb => (hmarks .un hop hfb).congr (fun _ => congrArg₂ or (isNan_fpVal ..) (isNan_fpVal ..)) fun _ => sigFlags_fpVal ..,
      fun hop => (nf_marks hvq hcore hsound hfa hop).congr (fun _ => nonFinite_fpVal ..)
        fun _ => congrArg (flagIf · flagNF) (nonFinite_fpVal ..)⟩
  · refine ⟨e.head fa p a (s.ctx e.ctx), plhead_lanes hvq hcore hsound hop hfa hfd, fun n _ _ => ?_⟩
    simp only [← mem_blockElements]
    exact ⟨headScale_bad, headScale_least⟩

end
